-- ==== Sys2Proof/Word.lean ====
section
/-! DEFINITION. Words, bytes, lines and the plainest arithmetic on them (R3, R8). -/

namespace Sys2Proof

/-- A 64-bit general-register value (R67). -/
abbrev Word := BitVec 64

/-- A 32-bit instruction word, vector lane or FP32 pattern. -/
abbrev W32 := BitVec 32

/-- A byte. -/
abbrev Byte := BitVec 8

/-- A line of 128 bytes (R4), byte `j` in bits `[8j + 7 : 8j]` (R3). -/
abbrev LineData := BitVec 1024

/-- One bit for each byte of a line. -/
abbrev LineMask := BitVec 128

/-- A general-register field (R31). -/
abbrev Reg := BitVec 5

/-- A context number within its core (R10). -/
abbrev Slot := Fin 16

/-- `SE32(x)`: bits [31:0] of `x`, sign-extended (R67). -/
def se32 (x : Word) : Word := (x.truncate 32).signExtend 64

/-- `ZeroExtend(x)` to 64 bits (R8). -/
def zext {w : Nat} (x : BitVec w) : Word := x.setWidth 64

/-- A truth value as a register value (R70). -/
def ofBool (b : Bool) : Word := if b then 1 else 0

end Sys2Proof
end

