-- ==== Sys2Proof/Syntax.lean ====
section
/-! DEFINITION. The instructions (R30 to R38) and the further steps of the machine that the
table of operations and events lists. -/

namespace Sys2Proof

/-- Access sizes of the mem format (R32). -/
inductive MSize where
  | b | h | w | d
  deriving DecidableEq, Repr

/-- Spaces (R32). -/
inductive Space where
  | g | l | o | c
  deriving DecidableEq, Repr

/-- Sizes of an atomic (R37, R151). -/
inductive ASize where
  | w | d
  deriving DecidableEq, Repr

/-- Memory orders of an atomic (R37, R153). -/
inductive MOrder where
  | rlx | acq | rel | ar
  deriving DecidableEq, Repr

/-- Scopes (R21). -/
inductive Scope where
  | core | quad | die | mod | pod
  deriving DecidableEq, Repr

/-- Loop levels (R37, R81). -/
inductive Level where
  | l0 | l1
  deriving DecidableEq, Repr

/-- Element formats (R38). -/
inductive Fmt where
  | fp32 | fp16 | bf16 | e4m3 | e5m2 | e2m3 | e3m2 | e2m1
  | int8 | uint8 | int16 | uint16 | int32 | uint32 | e8m0
  deriving DecidableEq, Repr

/-- A mask register q0 to q3 named by a register field (R213). -/
abbrev QReg := BitVec 2

/-- An accumulator z0 to z3 (R31). -/
abbrev AccReg := BitVec 2

/-- The states of a directory entry other than free (R168). -/
inductive HState where
  | e | s | o | m | u
  deriving DecidableEq, Repr

/-- The states a ProbeAck carries (R173). -/
inductive PState where
  | none | e | s | o | m | buffered
  deriving DecidableEq, Repr

/-- Why a hub sends a home operation: what its HAck releases (R171, R174, R178). -/
inductive HWhy where
  | plain
  | recall
  | wbd (die : Nat)
  deriving DecidableEq, Repr

/-- The line of a home operation, and why the hub asks for it. -/
structure HomeOp where
  line : Nat
  why  : HWhy
  deriving DecidableEq, Repr

/-- The header of a directory message (R173), but for REQ, for CLASS and TYPE, which its kind gives, and for
LINE, COUNT, ST, DIRTY and PEND, which stand beside it. Senders and receivers are dies 0 to 31, the hubs 32
and 33, and the switch 34. -/
structure Envelope where
  part : Nat
  src  : Nat
  dst  : Nat
  txn  : Nat
  key  : Nat
  err  : Bool
  mod  : Nat
  deriving DecidableEq, Repr

/-- The header with REQ, the requester that the transaction serves (R173). -/
structure Hdr extends Envelope where
  req : Nat
  deriving DecidableEq, Repr

/-- A line under the tag of a partition (R290). -/
structure Tagged where
  part : Nat
  line : Nat
  deriving DecidableEq, Repr

/-- A context's request at a home, by its number: for a line, or for the word at an address (R142, R157). -/
structure Ask where
  at_ : Nat
  req : Nat
  deriving DecidableEq, Repr

/-- What a machine check tells (R277): its SOURCE, and the identifier, `sr.cause`, `sr.epc` and `sr.tval` of the
trapped context as the check found them. -/
structure CheckOf where
  source : Nat
  asid   : Nat
  cause  : Nat
  epc    : Nat
  tval   : Nat
  deriving DecidableEq, Repr

/-- A read of the host (R297): its length, and the parts of it that have been read. -/
structure HostRead where
  len : Nat
  got : List (Nat × Nat)
  deriving DecidableEq, Repr

/-- The forward that a NoData answers (R175). -/
inductive FwdKind where
  | fwdS | fwdX | rcl
  deriving DecidableEq, Repr

/-- Where a posted write of a context is performed: the slices of a die, a local-memory window,
or another module (R132, R154); with the hub that it travels through, if any (R180). -/
inductive Home where
  | die (d : Nat) (hub : Option Nat)
  | window
  | pod (m : Nat) (hub : Nat)
  deriving DecidableEq, Repr

/-- Whose posted write travels (R132, R133, R136): a store of a context, the write-back of a
`MEM.WB` or `MEM.INV`, both of which owe the context an echo, or an eviction, which does not. -/
inductive Poster where
  | store (k : Nat) (x : Slot)
  | maint (k : Nat) (x : Slot)
  | evict (core : Nat)
  deriving DecidableEq, Repr

/-- A posted write of some bytes of one line (R127, R128). `pa` is the 56-bit physical address of
the line's first byte; `home` is where its echo comes from. -/
structure Posted where
  by_  : Poster
  home : Home
  die  : Nat
  part : Nat
  pa   : Nat
  mask : LineMask
  data : LineData
  deriving DecidableEq, Repr

/-- A spawn request (R114). -/
structure SpawnReq where
  id     : Nat
  src    : Nat
  slot   : Slot
  target : Nat
  tid    : Word
  entry  : Word
  a4     : Word
  a5     : Word
  a6     : Word
  a7     : Word
  asid   : Nat
  rights : Bool
  deriving DecidableEq, Repr

/-- Who performs a wake: a context's `SYN.WAKE`, or the module (R120, R157, R305). -/
inductive WakeBy where
  | ctx (k : Nat) (x : Slot) (d : Reg)
  | device
  deriving DecidableEq, Repr

/-- The kinds of access a fault record names (R266). -/
inductive Access where
  | load | store | atomic | sync | fetch | jobRead | jobWrite | launch
  deriving DecidableEq, Repr

/-- Who made an access: a context, a job of a core, or the launch unit. -/
inductive Who where
  | ctx (k : Nat) (x : Slot)
  | job (k : Nat) (id : Nat)
  | launch (id : Nat) (inst : Nat)
  deriving DecidableEq, Repr

/-- What else an instruction meets whose access is translated: the other part of a split access (R134), still to be
translated, or at a physical address already, from where it is read afresh or in the L1; or a trap that it takes
where the access meets none that comes first (R114). -/
inductive Twin where
  | walk (va : Word)
  | known (va : Word) (pa : Nat) (fresh : Bool)
  | trap (cause : Nat) (tval : Word)
  deriving DecidableEq, Repr

/-- A request to a translation slice (R272). The trap checks of `twin` come before a page fault of this access
(R42). -/
structure XReq where
  who  : Who
  die  : Nat
  part : Nat
  asid : Nat
  va   : Word
  acc  : Access
  twin : Option Twin
  deriving DecidableEq, Repr

/-- A fault record on its way or posted (R266). `slot` is the ring slot once posted. -/
structure FaultRec where
  req   : XReq
  kind  : Nat
  level : Nat
  pte   : Nat
  value : Word
  ring  : Nat
  slot  : Nat
  deriving DecidableEq, Repr

/-- TDISP requests that the module answers (R297). -/
inductive TdispReq where
  | lock | start | stop
  deriving DecidableEq, Repr

/-- What the tests of the boot find failed (R331): hub 0 or hub 1, a core (with its slice link and slice
DRAM), a quad's instruction store or barrier network, a die (its LLC and translation slices, near-memory
channels and links), or an LPDDR-6 channel of a die. -/
inductive Failure where
  | hub (h : Nat)
  | core (c : Nat)
  | quad (q : Nat)
  | die (d : Nat)
  | lpddr (d : Nat)
  deriving DecidableEq, Repr

/-- Where an uncorrectable error arises: a context slot, a vector or matrix engine (R277, SOURCE 2), a
directory entry, which CHK reports (R178), a line of memory (R280), or another unit that the next boot retires
(R331). -/
inductive Unit2 where
  | slot (x : Slot)
  | vector
  | matrix
  | entry (line : Nat)
  | memory (line : Nat)
  | other (f : Failure)
  deriving DecidableEq, Repr

/-- The messages of IEEE 1588 that a port takes (R300): two-step synchronisation, and path delay measured
end-to-end or peer-to-peer. `t` is a time that the message carries. -/
inductive PtpMsg where
  | sync
  | followUp (t : Nat)
  | delayReq
  | delayResp (t : Nat)
  | pdelayReq
  | pdelayResp (t : Nat)
  | pdelayFollowUp (t : Nat)
  deriving DecidableEq, Repr

/-- What management may read (R337). -/
inductive MgmtItem where
  | tests | retired | coreMap (p : Nat) | meters | limits | sensors | errors
  deriving DecidableEq, Repr

/-- What management asks (R337): a lower limit of power, of the module or of a partition, or of the rate of
a link or port; the role of the module's clock (R300); or a reading. -/
inductive Mgmt where
  | limit (p : Option Nat) (w : Nat)
  | rate (link w : Nat)
  | clock (receiver : Bool)
  | read (i : MgmtItem)
  deriving DecidableEq, Repr

/-- What is reset (R296): a partition's dies, or one die. -/
inductive ResetOf where
  | part (p : Nat)
  | die (d : Nat)
  deriving DecidableEq, Repr

/-- A source's time (R301), by PTM or by IEEE 1588. -/
structure SourceTime where
  ptm  : Bool
  time : Nat
  deriving DecidableEq, Repr

/-- A port of IEEE 1588 (R300). -/
structure PtpAt where
  hub  : Nat
  port : Nat
  deriving DecidableEq, Repr

/-- Which PCIe function a request comes through (R297, R299): function 0, or the TDI of a partition. -/
inductive Via where
  | mgmt
  | tdi (p : Nat)
  deriving DecidableEq, Repr

/-- A responder, die 0 to 31 or hub 32 or 33, and the function that a request comes through (R299). -/
structure Asked where
  unit : Nat
  via  : Via
  deriving DecidableEq, Repr

/-- A KEY_EXCHANGE, with the certificate slot that it names (R299). -/
structure KeyAsk extends Asked where
  slot : Nat
  deriving DecidableEq, Repr

/-- A place where a function's native code keeps a value (R258): a general register, or the 8 bytes at a distance
from the stack pointer that the function was entered with. -/
inductive Loc where
  | reg (r : Reg)
  | slot (off : Word)
  deriving DecidableEq, Repr

/-- What a value of native code is made of (R254, R255): nothing, the value of the operation at a position of
the block, a variable as the block was entered, or a register as the function was entered. -/
inductive SymBase where
  | zero
  | val (p : Nat)
  | var (v : Nat)
  | init (r : Reg)
  deriving DecidableEq, Repr

/-- A value of native code: a base and a number added to it. -/
structure Sym where
  base : SymBase
  off  : Word
  deriving DecidableEq, Repr

/-- Where the native code of a block begins, as an offset in `.text`, and what it then finds where. -/
structure FinalBlock where
  start : Nat
  holds : List (Loc × Sym)
  deriving DecidableEq, Repr

/-- Where the native code of a function begins, and of each of its blocks (R258). -/
structure FinalFunc where
  start  : Nat
  blocks : List FinalBlock
  deriving DecidableEq, Repr

/-- A boot file as management supplies it (R330), with what firmware chooses: for each section of the image
a virtual address and a place in near memory (R66), the frames of the page table, and, for a portable image,
what finalisation makes of its `.text` (R258): the native code, its relocations applied, and where in it each
function and block stands. -/
structure BootFile where
  bytes  : List Byte
  places : List (Nat × Nat)
  tables : List Nat
  native : List Byte
  plan   : List FinalFunc
  deriving DecidableEq, Repr

/-- How firmware configures a partition (R289, R291, R330). `image` is the bytes it places in near memory:
the sections of the boot image, the address-space table and the page table; `locals` and `opstore` are those
it places on every core. Where `file` names a boot file, these and the entry PC come from the file.
`shares` are its shares of the links and of the buffers of hub 0 and hub 1, in parts of a thousand (R172, R289),
`period` the swap period in nanoseconds (R292), `ports` its scale-up ports, 0 to 35 on
hub 0 and 36 to 71 on hub 1 (R172, R181, R187), `pod` the module's number in its pod, `modules` the modules of the pod and `exports` the
partition's entries of the pod export table (R186). -/
structure PartCfg where
  num      : Nat
  dies     : List Nat
  keys     : List Nat
  feat     : BitVec 11
  w        : Nat
  base     : Nat
  svcCore  : Nat
  svcRing  : Nat
  lrs      : List (Nat × Nat × Nat)
  frametab : Nat
  asidtab  : Nat
  bootPc   : Word
  boots    : Bool
  period   : Nat
  ports    : List Nat
  shares   : List (Nat × Nat)
  limit    : Nat
  image    : List (Nat × Byte)
  locals   : List (Nat × Byte)
  opstore  : List (Nat × Byte)
  pod      : Option (BitVec 10)
  modules  : List Nat
  exports  : List (Nat × Word)
  file     : Option BootFile
  deriving DecidableEq, Repr

/-- Every instruction (R35 to R38), and every further step that the table of operations and
events names. A step that no word encodes carries what the unit performing it knows. Cores are
named by `k`, core number × 64 + partition (R9, R11). -/
inductive Instr where
  /-- A write of N above 0 to sr.timer arms the one-shot timer. (R99) -/
  | timerArm (k n : Nat)
  /-- A write of 0 to sr.timer disarms the timer. (R99) -/
  | timerDisarm (k : Nat)
  /-- A write to sr.spans accepts or refuses the oldest inbox request. (R114) -/
  | spawnAnswer (k c : Nat)
  /-- Writes sr.bctab for an identifier and waits until every die holds it. (R323) -/
  | bctabWrite (k : Nat) (x : Slot) (asid : Nat) (v : Word)
  /-- Writes sr.reclaim for an identifier and waits until every die holds it. (R323) -/
  | reclaimWrite (k : Nat) (x : Slot) (asid : Nat) (v : Word)
  /-- CMD 1 in IDLE checks both frames and starts the migration engine. (R182) -/
  | migStart (p : Nat)
  /-- CMD 2 in DONE makes every core write back and drop source-frame lines. (R185) -/
  | migRelease (p : Nat)
  /-- CMD 2 in ERROR returns the engine to IDLE. (R182) -/
  | migClear (p : Nat)
  /-- Recalls one source line, moves its data, locus and queues, and advances BOUND. (R184) -/
  | migLineMove (p : Nat)
  /-- Once every core acknowledges, steering stops and the engine returns to IDLE. (R185) -/
  | migReleaseComplete (p : Nat)
  /-- The armed timer reaches zero and sets TIMER in sr.event. (R99) -/
  | timerExpiry (k : Nat)
  /-- An idle context 0 with a pending event is redirected to sr.evec at its next owned cycle. (R98) -/
  | eventRedirect (k : Nat)
  /-- A timed wait exceeds sr.blkto, is withdrawn and traps with cause 0x08. (R101) -/
  | blockTimeout (k : Nat) (x : Slot)
  /-- A reply or condition arrives and the blocked context re-enters rotation. (R92) -/
  | replyArrival (k : Nat) (x : Slot)
  /-- The echo of a posted write returns to its context, possibly reporting a lost write. (R133) -/
  | storeEcho (k : Nat) (x : Slot) (home : Home) (lost : Option Nat)
  /-- A posted SO store or write-back is performed at its home. (R127) -/
  | postedWriteArrival (w : Posted)
  /-- Once the context has no outstanding operation, the spill engine writes the image and frees the slot. (R106) -/
  | spillImageWrite (k : Nat) (x : Slot)
  /-- The image has been read into the slot and the context becomes stopped or trapped. (R107) -/
  | fillComplete (k : Nat) (x : Slot)
  /-- After its operations complete, an ending context becomes EXITED or FREE. (R95) -/
  | contextEnd (k : Nat) (x : Slot)
  /-- A decrement message is applied at the target counter, pushing its task at zero. (R110) -/
  | msgDecApply (src k off : Nat)
  /-- An increment message is applied at the target counter. (R110) -/
  | msgIncApply (src k off : Nat)
  /-- A put message stores its word into the target's local memory. (R113) -/
  | msgPutApply (src k off : Nat) (v : Word)
  /-- A spawn request reaches the target, which accepts, queues it in the inbox or refuses. (R114) -/
  | spawnRequestArrival (r : SpawnReq)
  /-- The answer reaches the issuer, which records the child or runs it inline. (R114) -/
  | spawnAnswerArrival (k : Nat) (x : Slot) (id : Nat) (ans : Option Nat)
  /-- A withdrawal reaches the target and removes an unanswered request. (R114) -/
  | spawnWithdrawal (k : Nat) (x : Slot) (id target : Nat)
  /-- A target die answers a launch record and the token receives its code. (R118) -/
  | launchDieAccept (id die : Nat)
  /-- A core starts its share of contexts once the window is open and contexts are free. (R119) -/
  | launchShareStart (id core inst : Nat)
  /-- An instance window closes and unstarted shares follow the policy. (R119) -/
  | launchWindowClose (id inst : Nat)
  /-- A quad reports to its die when all its shares of an instance have finished. (R120) -/
  | launchQuadReport (id quad inst : Nat)
  /-- A die reports to the module when all its quads have reported. (R120) -/
  | launchDieReport (id die inst : Nat)
  /-- The module writes an instance's completion record and wakes on it. (R120) -/
  | launchCompletionWrite (id inst : Nat)
  /-- A request heads its line's queue and the home acts on the locus. (R121) -/
  | reservationHead (l : Tagged)
  /-- A core writes back every dirty RC line and then acknowledges. (R122) -/
  | writebackRequest (owner : Nat) (k : Nat) (x : Slot) (a : Ask)
  /-- The releaser's acknowledgement reaches the home, which grants the reservation. (R121) -/
  | writebackAcknowledgement (owner : Nat) (c : Nat × Slot) (a : Ask)
  /-- A grant reaches the acquiring core and completes the acquire. (R147) -/
  | reservationGrant (k : Nat) (x : Slot) (a : Ask) (adv : Bool)
  /-- After fills in flight and wrap clear, the core's generation advances. (R145) -/
  | generationAdvance (k : Nat) (x : Slot) (a : Ask)
  /-- A release reaches the home, updates value and locus and passes the queue head. (R143) -/
  | scrHomeUpdate (k : Nat) (x : Slot) (pa : Nat) (v : Word)
  /-- The background sweep restamps a stale L1 line and drops its clean bytes. (R145) -/
  | l1Sweep (core part : Nat)
  /-- The LLC evicts a line with a locus after obtaining its write-back. (R121) -/
  | llcLocusEviction (l : Tagged)
  /-- The L1 evicts a line, writing back its dirty bytes. (R128) -/
  | l1Eviction (core part asid vline : Nat)
  /-- A line leaves the atomic line buffer with its value and pending locus. (R152) -/
  | atomicLineRecall (core line : Nat)
  /-- A fence probe at a home echoes after earlier posted writes. (R154) -/
  | fenceProbe (k : Nat) (x : Slot)
  /-- A retraining peer link exceeds 1 ms and outstanding writes count as lost. (R155) -/
  | linkRecoveryTimeout (m : Nat)
  /-- A wait request compares the word at its home and registers a waiter. (R157) -/
  | waitHomeCompare (k : Nat) (x : Slot) (va : Nat) (a : Ask) (expect : Word) (d : Reg)
  /-- A wake request removes and wakes waiters at the home. (R157) -/
  | wakeHome (who : WakeBy) (part asid va : Nat) (max : Nat)
  /-- A read-shared request reaches the responsible hub and is resolved from the entry. (R158) -/
  | rds (h : Hdr) (line : Nat)
  /-- A read-exclusive request reaches the hub, which invalidates sharers and grants ownership. (R160) -/
  | rdx (h : Hdr) (line : Nat)
  /-- A dirty write-back reaches the hub, which writes it home or drops it. (R177) -/
  | wbd (h : Hdr) (line : Nat) (data : LineData)
  /-- A die's notice of a dropped clean copy reaches the hub. (R163) -/
  | notice (h : Hdr) (line : Nat)
  /-- A forward-shared reaches the supplying die, which sends data. (R174) -/
  | fwds (r : Envelope) (req line : Nat) (st : HState) (after : Nat)
  /-- A forward-exclusive reaches a die, which sends data and invalidates its copy. (R162) -/
  | fwdx (r : Envelope) (req line : Nat) (st : HState) (after : Nat)
  /-- An invalidation reaches a die, which drops the line and acknowledges. (R162) -/
  | inv (r : Envelope) (req line : Nat)
  /-- A recall reaches the owner die, which returns the line. (R175) -/
  | rcl (h : Hdr) (line : Nat) (st : HState) (after : Nat)
  /-- A probe reaches a die, which answers with its state. (R178) -/
  | probe (h : Hdr) (line : Nat)
  /-- A hub read reaches the home, which sets the exported bit and returns data. (R166) -/
  | hrd (h : Hdr) (line : Nat) (excl : Bool) (counts : Bool)
  /-- A hub write-back reaches the home, optionally clearing the exported bit. (R166) -/
  | hwb (h : Hdr) (o : HomeOp) (data : LineData) (clear : Bool)
  /-- A hub clear reaches the home and clears the exported bit. (R166) -/
  | hclr (h : Hdr) (o : HomeOp)
  /-- A data message is passed by the hub and counted at the requester. (R161) -/
  | data (r : Envelope) (req line : Nat) (data : LineData) (dirty ack excl : Bool)
  /-- An invalidation acknowledgement is counted at the requester. (R161) -/
  | invack (r : Envelope) (req line : Nat)
  /-- A die's no-data answer reaches the hub, which reads home or resends. (R175) -/
  | nodata (r : Envelope) (req line : Nat) (f : FwdKind) (st : HState) (after : Nat)
  /-- A probe answer reaches the hub, which rebuilds the entry. (R178) -/
  | probeack (h : Hdr) (line : Nat) (st : PState) (data : LineData) (pend : Bool)
  /-- The home's acknowledgement reaches the hub, freeing a way or releasing a WbAck. (R171) -/
  | hack (h : Hdr) (o : HomeOp)
  /-- A grant with the acknowledgement count reaches the requester. (R161) -/
  | grant (h : Hdr) (line n : Nat)
  /-- A write-back acknowledgement reaches the die and may free its buffer. (R176) -/
  | wback (h : Hdr) (line : Nat) (dropped : Bool)
  /-- A buffer release reaches the die and may free its write-back buffer. (R176) -/
  | rel (h : Hdr) (line : Nat)
  /-- A die's hub link stays down beyond 1 ms and the die moves all traffic to the survivor. (R180) -/
  | hubFailureDeclaration (die hub : Nat)
  /-- A die's report reaches the surviving hub, which enters broadcast mode. (R179) -/
  | hubFailureReport (hub : Nat)
  /-- The external switch or its link fails and pod transactions end with errors. (R188) -/
  | switchFailure (mods : List Nat)
  /-- The next matrix queue entry executes and retires when its accumulator is written. (R228) -/
  | mtxEntryExecute (k : Nat)
  /-- A job starts once every earlier conflicting job has completed or been abandoned. (R236) -/
  | jobStart (k id : Nat)
  /-- A job finishes, releases its holds and writes 0 to its token. (R240) -/
  | jobComplete (k id : Nat)
  /-- A job access is refused and the job becomes FAILED with code 0x09. (R240) -/
  | jobFault (k id detail : Nat)
  /-- A hold on an owner object is released by an atomic on its header. (R304) -/
  | holdRelease (k id : Nat)
  /-- A deferred object is pushed onto the reclaim ring when there is room. (R305) -/
  | reclaimPush (k id : Nat) (v : Word)
  /-- A translation slice walks the page table for an access. (R272) -/
  | translationWalk (r : XReq)
  /-- A faulting access posts a record to the fault ring once there is room. (R266) -/
  | faultRecordPost (f : FaultRec)
  /-- A fault reply reaches the access, which retries or is refused. (R269) -/
  | faultReply (f : FaultRec) (code : Nat)
  /-- An uncorrectable error in a slot, register file or engine traps its context. (R277) -/
  | uncorrectableError (k : Nat) (u : Unit2)
  /-- A machine check record is posted to the die's last-resort supervisor. (R277) -/
  | machineCheck (k : Nat) (x : Slot) (c : CheckOf)
  /-- The supervisor's reply resumes or halts the core. (R277) -/
  | machineCheckReply (k : Nat) (x : Slot) (source code : Nat)
  /-- Every core of the partition stops until firmware resets it. (R278) -/
  | fatalMachineCheck (p : Nat)
  /-- At a period boundary, each shared core saves one partition and restores the other. (R292) -/
  | partitionSwap (die : Nat)
  /-- Firmware configures a partition's dies, keys, mask, service cores and boot image; two that share dies are
  configured together. (R289) -/
  | partitionConfigure (cs : List PartCfg)
  /-- A partition or die reset scrubs memory and destroys its keys. (R296) -/
  | partitionReset (r : ResetOf)
  /-- A host write through BAR2 is performed as SO stores. (R297) -/
  | hostBar2Write (p off n v : Nat)
  /-- A host read through BAR2 is performed as SO loads. (R297) -/
  | hostBar2Read (p off : Nat) (r : HostRead)
  /-- A write to LDOOR captures a slot and LASID and submits the launch. (R298) -/
  | ldoor (p slot : Nat)
  /-- WCMD 1 adds a host wake registration. (R298) -/
  | wcmdAdd (p : Nat)
  /-- WCMD 2 removes a host wake registration. (R298) -/
  | wcmdRemove (p : Nat)
  /-- A write to a launch window register without behaviour of its own, or a read of the window by the host,
  which carries no value. (R298) -/
  | launchWindowWrite (p off n : Nat) (v : Option Word)
  /-- SPDM GET_VERSION request to a die or hub responder. (R299) -/
  | getVersion (u : Asked)
  /-- SPDM GET_CAPABILITIES request. (R299) -/
  | getCapabilities (u : Asked)
  /-- SPDM NEGOTIATE_ALGORITHMS request. (R299) -/
  | negotiateAlgorithms (u : Asked) (ecdsaP256 sha256 : Bool)
  /-- SPDM GET_DIGESTS request. (R299) -/
  | getDigests (u : Asked)
  /-- SPDM GET_CERTIFICATE request for slot 0. (R299) -/
  | getCertificate (u : Asked) (slot : Nat)
  /-- SPDM CHALLENGE request. (R299) -/
  | challenge (u : Asked) (slot : Nat)
  /-- SPDM GET_MEASUREMENTS request for the measurement blocks. (R299) -/
  | getMeasurements (u : Asked) (index : Nat)
  /-- SPDM KEY_EXCHANGE request opening a secure session. (R299) -/
  | keyExchange (u : KeyAsk)
  /-- SPDM FINISH request completing a session. (R299) -/
  | finish (u : Asked) (session : Nat)
  /-- SPDM END_SESSION request closing a session. (R299) -/
  | endSession (u : Asked) (session : Nat)
  /-- A PTM request is answered by the port as responder. (R297) -/
  | ptmRequest
  /-- Module time slews toward its source or steps forward when over 1 ms behind. (R301) -/
  | moduleTimeCorrection (t : SourceTime)
  /-- The time source is lost; the module runs on its oscillator and raises SVC. (R301) -/
  | timeSourceLoss
  /-- Power-on or module reset runs the boot sequence. (R329) -/
  | moduleReset
  /-- Every 1 µs the power controller recomputes draw and gives each die its budget, from the draw that it
  projects for the next interval and what each die demands in it. (R334) -/
  | powerInterval (projected : Nat) (demand : List Nat)
  /-- A die above 105 °C has its budget halved until below 100 °C. (R336) -/
  | temperatureHigh (die : Nat)
  /-- The 115 °C trip stops every partition and powers the dies down. (R336) -/
  | thermalTrip (u : Nat)
  /-- Loss of coolant flow stops every partition and powers the dies down. (R336) -/
  | coolantFlowLoss
  /-- Management, through function 0 or through the Ethernet network of a hub, sets a lower power or rate limit, or
  reads what it may. (R337) -/
  | managementSetLimit (ethernet : Option Nat) (r : Mgmt)
  /-- Issuing a word that is unassigned, reserved, out of range, of a later minor or masked raises cause 0x01 and changes nothing else. (R39) -/
  | illegalInstruction (w0 w1 : W32)
  /-- A die's LLC drops a copy of an exported line, sending a Notice for a clean copy or a WbD for a dirty one. (R163) -/
  | llcEviction (die : Nat) (l : Tagged)
  /-- A TDISP request from the host moves a TDI between CONFIG_UNLOCKED, CONFIG_LOCKED and RUN. (R297) -/
  | tdispRequest (p : Nat) (r : TdispReq)
  /-- IDE keys for a TDI's selective stream are programmed inside an SPDM session with hub 0. (R299) -/
  | ideKeyProgram (f : Via) (session : Nat)
  /-- An IEEE 1588 message arrives at a hub Ethernet port and is timestamped in hardware for time and path-delay measurement. (R300) -/
  | ieee1588Message (p : PtpAt) (m : PtpMsg)
  /-- A die whose budget was halved falls below 100 °C and has its full budget restored. (R336) -/
  | dieBelow100c (die : Nat)
  /-- Writes the 64-bit wrapped sum of two general registers. (R68) -/
  | aluAdd (d a b : Reg)
  /-- Writes the 64-bit wrapped difference of two general registers. (R68) -/
  | aluSub (d a b : Reg)
  /-- Writes the bitwise AND of two general registers. (R68) -/
  | aluAnd (d a b : Reg)
  /-- Writes the bitwise OR of two general registers. (R68) -/
  | aluOr (d a b : Reg)
  /-- Writes the bitwise XOR of two general registers. (R68) -/
  | aluXor (d a b : Reg)
  /-- Writes g[a] AND NOT g[b]. (R68) -/
  | aluAndn (d a b : Reg)
  /-- Shifts g[a] left by g[b][5:0]. (R68) -/
  | aluShl (d a b : Reg)
  /-- Shifts g[a] right logically by g[b][5:0]. (R68) -/
  | aluShr (d a b : Reg)
  /-- Shifts g[a] right arithmetically by g[b][5:0]. (R68) -/
  | aluSar (d a b : Reg)
  /-- Writes the sign-extended 32-bit sum. (R68) -/
  | aluAddw (d a b : Reg)
  /-- Writes the sign-extended 32-bit difference. (R68) -/
  | aluSubw (d a b : Reg)
  /-- Shifts the low 32 bits left and sign-extends. (R68) -/
  | aluShlw (d a b : Reg)
  /-- Shifts the low 32 bits right logically and sign-extends. (R68) -/
  | aluShrw (d a b : Reg)
  /-- Shifts the low 32 bits right arithmetically and sign-extends. (R68) -/
  | aluSarw (d a b : Reg)
  /-- Writes the signed minimum of two registers. (R68) -/
  | aluMin (d a b : Reg)
  /-- Writes the signed maximum of two registers. (R68) -/
  | aluMax (d a b : Reg)
  /-- Writes the unsigned minimum of two registers. (R68) -/
  | aluMinu (d a b : Reg)
  /-- Writes the unsigned maximum of two registers. (R68) -/
  | aluMaxu (d a b : Reg)
  /-- Writes g[a] if g[d] is nonzero, else g[b]. (R68) -/
  | aluSel (d a b : Reg)
  /-- Writes the low 64 bits of the product. (R69) -/
  | mulMul (d a b : Reg)
  /-- Writes the high 64 bits of the signed product. (R69) -/
  | mulMulh (d a b : Reg)
  /-- Writes the high 64 bits of the unsigned product. (R69) -/
  | mulMulhu (d a b : Reg)
  /-- Writes the sign-extended 32-bit product. (R69) -/
  | mulMulw (d a b : Reg)
  /-- Writes the signed quotient truncated toward zero, with fixed results for zero and overflow. (R69) -/
  | mulDiv (d a b : Reg)
  /-- Writes the unsigned quotient. (R69) -/
  | mulDivu (d a b : Reg)
  /-- Writes the signed remainder. (R69) -/
  | mulRem (d a b : Reg)
  /-- Writes the unsigned remainder. (R69) -/
  | mulRemu (d a b : Reg)
  /-- Writes 1 if the registers are equal, else 0. (R70) -/
  | cmpEq (d a b : Reg)
  /-- Writes 1 if the registers differ, else 0. (R70) -/
  | cmpNe (d a b : Reg)
  /-- Writes 1 if g[a] is signed-less than g[b]. (R70) -/
  | cmpLt (d a b : Reg)
  /-- Writes 1 if g[a] is unsigned-less than g[b]. (R70) -/
  | cmpLtu (d a b : Reg)
  /-- Writes 1 if g[a] is signed-less-or-equal to g[b]. (R70) -/
  | cmpLe (d a b : Reg)
  /-- Writes 1 if g[a] is unsigned-less-or-equal to g[b]. (R70) -/
  | cmpLeu (d a b : Reg)
  /-- Extracts and sign-extends a bit field described by g[b]. (R71) -/
  | bitExt (d a b : Reg)
  /-- Extracts and zero-extends a bit field described by g[b]. (R71) -/
  | bitExtu (d a b : Reg)
  /-- Inserts the low bits of g[a] into a field of g[d]. (R71) -/
  | bitIns (d a b : Reg)
  /-- Counts leading zero bits of g[a]. (R71) -/
  | bitClz (d a : Reg)
  /-- Counts trailing zero bits of g[a]. (R71) -/
  | bitCtz (d a : Reg)
  /-- Counts one bits of g[a]. (R71) -/
  | bitPop (d a : Reg)
  /-- Reverses the byte order of g[a]. (R71) -/
  | bitBswap (d a : Reg)
  /-- Adds a sign-extended 16-bit immediate. (R72) -/
  | aliAdd (d a : Reg) (i : BitVec 16)
  /-- ANDs with a zero-extended immediate. (R72) -/
  | aliAnd (d a : Reg) (i : BitVec 16)
  /-- ORs with a zero-extended immediate. (R72) -/
  | aliOr (d a : Reg) (i : BitVec 16)
  /-- XORs with a zero-extended immediate. (R72) -/
  | aliXor (d a : Reg) (i : BitVec 16)
  /-- Shifts left by an immediate count. (R72) -/
  | aliShl (d a : Reg) (i : BitVec 6)
  /-- Shifts right logically by an immediate count. (R72) -/
  | aliShr (d a : Reg) (i : BitVec 6)
  /-- Shifts right arithmetically by an immediate count. (R72) -/
  | aliSar (d a : Reg) (i : BitVec 6)
  /-- Adds an immediate and sign-extends the 32-bit result. (R72) -/
  | aliAddw (d a : Reg) (i : BitVec 16)
  /-- Loads the immediate into bits [31:16], sign-extended. (R72) -/
  | aliLui (d : Reg) (i : BitVec 16)
  /-- Writes 1 if g[a] is signed-less than the immediate. (R72) -/
  | aliSlt (d a : Reg) (i : BitVec 16)
  /-- Loads a sign-extended 32-bit immediate. (R73) -/
  | lngLi (d : Reg) (i : BitVec 32)
  /-- Combines a 32-bit immediate as the high half with the low half of g[a]. (R73) -/
  | lngLih (d a : Reg) (i : BitVec 32)
  /-- Adds a sign-extended 32-bit immediate. (R73) -/
  | lngAdd (d a : Reg) (i : BitVec 32)
  /-- ANDs with a sign-extended 32-bit immediate. (R73) -/
  | lngAnd (d a : Reg) (i : BitVec 32)
  /-- ORs with a zero-extended 32-bit immediate. (R73) -/
  | lngOr (d a : Reg) (i : BitVec 32)
  /-- XORs with a zero-extended 32-bit immediate. (R73) -/
  | lngXor (d a : Reg) (i : BitVec 32)
  /-- Writes the return address and transfers PC-relative by a 32-bit offset. (R76) -/
  | lngCall (d : Reg) (i : BitVec 32)
  /-- Transfers PC-relative by a 32-bit offset. (R76) -/
  | lngJmp (i : BitVec 32)
  /-- Writes a PC-relative address. (R76) -/
  | lngLa (d : Reg) (i : BitVec 32)
  /-- Branches when two registers are equal. (R74) -/
  | brcEq (a b : Reg) (o : BitVec 16)
  /-- Branches when two registers differ. (R74) -/
  | brcNe (a b : Reg) (o : BitVec 16)
  /-- Jumps PC-relative by a 26-bit word offset. (R75) -/
  | jmp (o : BitVec 26)
  /-- Jumps to g[a] after checking the landing pad label. (R79) -/
  | ctlJr (a : Reg) (k : BitVec 12)
  /-- Calls g[a] after the landing pad check and writes the return address. (R79) -/
  | ctlCallr (d a : Reg) (k : BitVec 12)
  /-- Returns through g1 after the landing pad check. (R79) -/
  | ctlRet (k : BitVec 12)
  /-- Jumps through a bounded table, landing on entry 0 when out of range. (R80) -/
  | ctlJt (d a : Reg)
  /-- Sets up hardware loop level lv, or skips the body when the count is zero. (R82) -/
  | ctlLoop (d : Reg) (l : Level) (n : BitVec 11)
  /-- Deactivates the innermost active loop level. (R84) -/
  | ctlLexit
  /-- Marks a legal indirect target; no effect when executed. (R77) -/
  | ctlLpad (label : BitVec 16)
  /-- Loads and zero-extends 1 to 8 bytes from the named space. (R131) -/
  | memLd (d a : Reg) (sz : MSize) (sp : Space) (o : BitVec 11)
  /-- Loads and sign-extends 1 to 4 bytes from the named space. (R131) -/
  | memLds (d a : Reg) (sz : MSize) (sp : Space) (o : BitVec 11)
  /-- Stores 1 to 8 bytes into the named space. (R131) -/
  | memSt (d a : Reg) (sz : MSize) (sp : Space) (o : BitVec 11)
  /-- Posts write-backs of dirty L1 lines overlapping a range. (R136) -/
  | memWb (a b : Reg)
  /-- Writes back dirty lines and drops every L1 line overlapping a range. (R136) -/
  | memInv (a b : Reg)
  /-- Optionally prefetches a line into the L1. (R137) -/
  | memPf (a : Reg)
  /-- Stores 128 zero bytes to an aligned line. (R138) -/
  | memZero (a : Reg)
  /-- Atomically swaps a word and returns the old value. (R151) -/
  | atmSwap (d a b : Reg) (sz : ASize) (mo : MOrder)
  /-- Atomically compares with g[d] and swaps on equality. (R151) -/
  | atmCas (d a b : Reg) (sz : ASize) (mo : MOrder)
  /-- Atomically adds to a word. (R151) -/
  | atmAdd (d a b : Reg) (sz : ASize) (mo : MOrder)
  /-- Atomically ANDs into a word. (R151) -/
  | atmAnd (d a b : Reg) (sz : ASize) (mo : MOrder)
  /-- Atomically ORs into a word. (R151) -/
  | atmOr (d a b : Reg) (sz : ASize) (mo : MOrder)
  /-- Atomically XORs into a word. (R151) -/
  | atmXor (d a b : Reg) (sz : ASize) (mo : MOrder)
  /-- Atomically keeps the signed minimum. (R151) -/
  | atmMin (d a b : Reg) (sz : ASize) (mo : MOrder)
  /-- Atomically keeps the signed maximum. (R151) -/
  | atmMax (d a b : Reg) (sz : ASize) (mo : MOrder)
  /-- Atomically keeps the unsigned minimum. (R151) -/
  | atmMinu (d a b : Reg) (sz : ASize) (mo : MOrder)
  /-- Atomically keeps the unsigned maximum. (R151) -/
  | atmMaxu (d a b : Reg) (sz : ASize) (mo : MOrder)
  /-- Joins a synchronisation line's reservation queue and acquires it. (R142) -/
  | synLrw (d a : Reg)
  /-- Stores a new value, sets the locus and releases the reservation. (R143) -/
  | synScr (d a b : Reg)
  /-- Waits until the context's posted writes in the scope are at their homes. (R154) -/
  | synFence (c : Scope)
  /-- Fences, then compares a word at its home and sleeps until woken. (R157) -/
  | synWait (d a b : Reg) (c : Scope)
  /-- Fences, then wakes waiters and host registrations on a word. (R157) -/
  | synWake (d a b : Reg) (c : Scope)
  /-- Starts a free context at a PC. (R96) -/
  | thrStart (d a : Reg)
  /-- Removes a context from rotation, or ends a stopped or trapped one. (R95) -/
  | thrStop (d : Reg)
  /-- Returns a stopped or trapped context to rotation, honouring SKIP. (R281) -/
  | thrCont (d : Reg)
  /-- Begins writing a stopped context's image to local memory under a token. (R106) -/
  | thrSpill (d a b : Reg)
  /-- Begins restoring a context from an image under a token. (R107) -/
  | thrFill (d a b : Reg)
  /-- Ends the issuing context. (R95) -/
  | thrExit
  /-- Frees the lowest exited context and returns its number. (R111) -/
  | thrReap (d : Reg)
  /-- Removes the oldest task of the highest non-empty priority. (R111) -/
  | thrRqpop (d : Reg)
  /-- Arms a watch on an own local word. (R112) -/
  | thrWatch (d : Reg)
  /-- Removes a watch entry. (R112) -/
  | thrUnwatch (d : Reg)
  /-- Consumes a pending watch hit or sleeps until one arrives. (R112) -/
  | thrWait
  /-- Puts context 0 to sleep with event delivery on. (R98) -/
  | thrIdle
  /-- Asks a core to run an entry and waits for the answer. (R114) -/
  | thrSpawn (d a b : Reg)
  /-- Submits a launch record to its target dies under a token. (R118) -/
  | thrLaunch (d a : Reg)
  /-- Binds the context to an engine or releases its binding. (R103) -/
  | thrBind (d a : Reg)
  /-- Decrements a semaphore or waits for it. (R104) -/
  | thrSemp (d : Reg)
  /-- Releases the oldest waiter or increments the semaphore. (R104) -/
  | thrSemv (d : Reg)
  /-- Stops the issuing context and raises YIELD. (R95) -/
  | thrYield
  /-- Posts a decrement of a dependence counter on a core. (R110) -/
  | msgDec (d a : Reg)
  /-- Posts an 8-byte store to a core's local word. (R113) -/
  | msgPut (d a b : Reg)
  /-- Posts an increment of a dependence counter on a core. (R110) -/
  | msgInc (d a : Reg)
  /-- Arrives at a scope barrier channel and waits for the count. (R115) -/
  | barSync (d a b : Reg) (c : Scope)
  /-- Initialises a quad barrier object, releasing current waiters. (R116) -/
  | barInit (d a : Reg)
  /-- Arrives at a barrier object and runs Check. (R116) -/
  | barArrive (d a : Reg)
  /-- Waits for a barrier object's phase to flip. (R116) -/
  | barWait (d a b : Reg)
  /-- Adds expected bytes to a barrier object. (R116) -/
  | barExpect (d a : Reg)
  /-- Flips a barrier object with the abort result. (R116) -/
  | barAbort (d : Reg)
  /-- Reads a state register by index. (R283) -/
  | sysSrrd (d : Reg) (idx : BitVec 12)
  /-- Writes a state register that has no behaviour of its own. (R283) -/
  | sysSrwr (d : Reg) (idx : BitVec 12)
  /-- Reads module time in nanoseconds. (R285) -/
  | sysNow (d : Reg)
  /-- Reads a capability by index. (R189) -/
  | sysCapq (d a : Reg)
  /-- Removes covered translations and L1 lines on every die of the partition. (R268) -/
  | sysXinv (d a : Reg)
  /-- Atomically adjusts a frame-table count. (R267) -/
  | sysPgref (d a : Reg)
  /-- Invalidates the partition's instruction-fetch levels on every core. (R261) -/
  | sysIflush
  /-- Traps with the system-call cause. (R285) -/
  | sysScall (a : Reg)
  /-- Traps with the breakpoint cause. (R285) -/
  | sysBrk
  /-- Answers a fault record and sends the reply to its access. (R269) -/
  | sysFreply (d a : Reg)
  /-- Adds FP32 lanes under sr.round. (R215) -/
  | vfpAdd (d a b : Reg) (q : BitVec 2) (grp : BitVec 3)
  /-- Subtracts FP32 lanes. (R215) -/
  | vfpSub (d a b : Reg) (q : BitVec 2) (grp : BitVec 3)
  /-- Multiplies FP32 lanes. (R215) -/
  | vfpMul (d a b : Reg) (q : BitVec 2) (grp : BitVec 3)
  /-- Fused multiply-add of FP32 lanes. (R215) -/
  | vfpFma (d a b : Reg) (q : BitVec 2) (grp : BitVec 3)
  /-- Fused z minus x times y of FP32 lanes. (R215) -/
  | vfpFms (d a b : Reg) (q : BitVec 2) (grp : BitVec 3)
  /-- Lane-wise FP32 minimum. (R215) -/
  | vfpMin (d a b : Reg) (q : BitVec 2) (grp : BitVec 3)
  /-- Lane-wise FP32 maximum. (R215) -/
  | vfpMax (d a b : Reg) (q : BitVec 2) (grp : BitVec 3)
  /-- Clears the sign of FP32 lanes. (R215) -/
  | vfpAbs (d a : Reg) (q : BitVec 2) (grp : BitVec 3)
  /-- Inverts the sign of FP32 lanes. (R215) -/
  | vfpNeg (d a : Reg) (q : BitVec 2) (grp : BitVec 3)
  /-- Correctly rounded FP32 division. (R216) -/
  | vfpDiv (d a b : Reg) (q : BitVec 2) (grp : BitVec 3)
  /-- Correctly rounded FP32 square root. (R216) -/
  | vfpSqrt (d a : Reg) (q : BitVec 2) (grp : BitVec 3)
  /-- Correctly rounded FP32 power of two. (R216) -/
  | vfpExp2 (d a : Reg) (q : BitVec 2) (grp : BitVec 3)
  /-- Writes FP32 equality into a mask register. (R215) -/
  | vfpCeq (d : QReg) (a b : Reg) (q : BitVec 2)
  /-- Writes FP32 less-than into a mask register. (R215) -/
  | vfpClt (d : QReg) (a b : Reg) (q : BitVec 2)
  /-- Writes FP32 less-or-equal into a mask register. (R215) -/
  | vfpCle (d : QReg) (a b : Reg) (q : BitVec 2)
  /-- Adds 32-bit integer lanes. (R217) -/
  | vinAdd (d a b : Reg) (q : BitVec 2) (grp : BitVec 3)
  /-- Subtracts 32-bit integer lanes. (R217) -/
  | vinSub (d a b : Reg) (q : BitVec 2) (grp : BitVec 3)
  /-- Multiplies 32-bit lanes, low half. (R217) -/
  | vinMul (d a b : Reg) (q : BitVec 2) (grp : BitVec 3)
  /-- Multiplies signed 32-bit lanes, high half. (R217) -/
  | vinMulh (d a b : Reg) (q : BitVec 2) (grp : BitVec 3)
  /-- Lane-wise AND. (R217) -/
  | vinAnd (d a b : Reg) (q : BitVec 2) (grp : BitVec 3)
  /-- Lane-wise OR. (R217) -/
  | vinOr (d a b : Reg) (q : BitVec 2) (grp : BitVec 3)
  /-- Lane-wise XOR. (R217) -/
  | vinXor (d a b : Reg) (q : BitVec 2) (grp : BitVec 3)
  /-- Lane-wise left shift. (R217) -/
  | vinShl (d a b : Reg) (q : BitVec 2) (grp : BitVec 3)
  /-- Lane-wise logical right shift. (R217) -/
  | vinShr (d a b : Reg) (q : BitVec 2) (grp : BitVec 3)
  /-- Lane-wise arithmetic right shift. (R217) -/
  | vinSar (d a b : Reg) (q : BitVec 2) (grp : BitVec 3)
  /-- Lane-wise signed minimum. (R217) -/
  | vinMin (d a b : Reg) (q : BitVec 2) (grp : BitVec 3)
  /-- Lane-wise signed maximum. (R217) -/
  | vinMax (d a b : Reg) (q : BitVec 2) (grp : BitVec 3)
  /-- Lane-wise unsigned minimum. (R217) -/
  | vinMinu (d a b : Reg) (q : BitVec 2) (grp : BitVec 3)
  /-- Lane-wise unsigned maximum. (R217) -/
  | vinMaxu (d a b : Reg) (q : BitVec 2) (grp : BitVec 3)
  /-- Lane-wise saturating signed add. (R217) -/
  | vinAdds (d a b : Reg) (q : BitVec 2) (grp : BitVec 3)
  /-- Lane-wise saturating signed subtract. (R217) -/
  | vinSubs (d a b : Reg) (q : BitVec 2) (grp : BitVec 3)
  /-- Writes integer equality into a mask register. (R217) -/
  | vinCeq (d : QReg) (a b : Reg) (q : BitVec 2)
  /-- Writes signed less-than into a mask register. (R217) -/
  | vinClt (d : QReg) (a b : Reg) (q : BitVec 2)
  /-- Writes unsigned less-than into a mask register. (R217) -/
  | vinCltu (d : QReg) (a b : Reg) (q : BitVec 2)
  /-- Copies active lanes of a vector register. (R218) -/
  | vmvMov (d a : Reg) (q : BitVec 2)
  /-- Broadcasts the low 32 bits of a general register to active lanes. (R218) -/
  | vmvBcast (d a : Reg) (q : BitVec 2)
  /-- Selects lanes from two registers by the mask. (R218) -/
  | vmvSel (d a b : Reg) (q : BitVec 2)
  /-- Permutes lanes by indexes in v[b]. (R218) -/
  | vmvPerm (d a b : Reg) (q : BitVec 2)
  /-- Rotates lanes by g[b]. (R218) -/
  | vmvRot (d a b : Reg) (q : BitVec 2)
  /-- Inserts a general register value into one lane. (R218) -/
  | vmvIns (d a b : Reg)
  /-- Extracts one lane into a general register. (R218) -/
  | vmvExt (d a b : Reg)
  /-- ANDs two mask registers. (R218) -/
  | vmvQand (d a b : QReg)
  /-- ORs two mask registers. (R218) -/
  | vmvQor (d a b : QReg)
  /-- Inverts a mask register. (R218) -/
  | vmvQnot (d a : QReg)
  /-- Reads a mask register into a general register. (R218) -/
  | vmvQrd (d : Reg) (a : QReg)
  /-- Writes a mask register from a general register. (R218) -/
  | vmvQwr (d : QReg) (a : Reg)
  /-- Sums active FP32 lanes by a fixed pairwise tree. (R220) -/
  | vrdFsum (d a : Reg) (q : BitVec 2)
  /-- Reduces active FP32 lanes to their maximum. (R219) -/
  | vrdFmax (d a : Reg) (q : BitVec 2)
  /-- Reduces active FP32 lanes to their minimum. (R219) -/
  | vrdFmin (d a : Reg) (q : BitVec 2)
  /-- Sums active int32 lanes exactly. (R219) -/
  | vrdIsum (d a : Reg) (q : BitVec 2)
  /-- Reduces active int32 lanes to their maximum. (R219) -/
  | vrdImax (d a : Reg) (q : BitVec 2)
  /-- Reduces active int32 lanes to their minimum. (R219) -/
  | vrdImin (d a : Reg) (q : BitVec 2)
  /-- Reduces active uint32 lanes to their maximum. (R219) -/
  | vrdImaxu (d a : Reg) (q : BitVec 2)
  /-- Reduces active uint32 lanes to their minimum. (R219) -/
  | vrdIminu (d a : Reg) (q : BitVec 2)
  /-- Converts 32 elements between the src and dst formats. (R221) -/
  | vcv (d a : Reg) (q : BitVec 2) (src dst : Fmt)
  /-- Loads 32 consecutive words into a vector register lane by lane. (R222) -/
  | vlsLd (d a : Reg) (q : BitVec 2) (sp : Space)
  /-- Stores a vector register to 32 consecutive words lane by lane. (R222) -/
  | vlsSt (d a : Reg) (q : BitVec 2) (sp : Space)
  /-- Loads words at a stride. (R222) -/
  | vlsLds (d a b : Reg) (q : BitVec 2) (sp : Space)
  /-- Stores words at a stride. (R222) -/
  | vlsSts (d a b : Reg) (q : BitVec 2) (sp : Space)
  /-- Gathers words at per-lane offsets. (R222) -/
  | vlsGath (d a b : Reg) (q : BitVec 2) (sp : Space)
  /-- Scatters words to per-lane offsets. (R222) -/
  | vlsScat (d a b : Reg) (q : BitVec 2) (sp : Space)
  /-- Checks descriptors and queues a block multiply-accumulate into an accumulator. (R232) -/
  | mtxMma (a b : Reg) (z : AccReg)
  /-- Queues a one-block multiply with B taken from vector registers. (R233) -/
  | mtxMmav (a b : Reg) (z : AccReg)
  /-- Swaps in a new tile configuration word. (R229) -/
  | mtxCfg (d a : Reg)
  /-- Waits for earlier queue entries, then stores a scaled accumulator to the operand store. (R193) -/
  | mtxSt (a b : Reg) (z : AccReg)
  /-- Queues a load of an accumulator from the operand store. (R234) -/
  | mtxLd (a : Reg) (z : AccReg)
  /-- Queues the zeroing of an accumulator. (R234) -/
  | mtxZero (z : AccReg)
  /-- Waits until the matrix queue is empty. (R234) -/
  | mtxDrain
  /-- Issues a register-form copy job under a token. (R241) -/
  | jobCopy (d a b : Reg)
  /-- Issues a register-form copy job bound to a barrier object. (R241) -/
  | jobCopyb (d a b : Reg)
  /-- Reads a job card, takes its holds and issues the job. (R242) -/
  | jobSubmit (d a : Reg)
  /-- Waits for window jobs touching a region and reports any failure. (R244) -/
  | jobFpwait (d a b : Reg)
  /-- Resumes or abandons a failed job. (R245) -/
  | jobResume (d a b : Reg)
  /-- Reports the state of the youngest job with a job identifier. (R246) -/
  | jobPoll (d a : Reg)
  /-- Looks up an inline-cache entry. (R320) -/
  | dynIclook (d a : Reg)
  /-- Installs an inline-cache entry. (R321) -/
  | dynIcfill (a b : Reg)
  /-- Removes every inline-cache entry for a shape across the partition. (R308) -/
  | dynIcinv (a : Reg)
  /-- Fetches the next bytecode unit and dispatches through the table. (R324) -/
  | dynNext (d a : Reg)
  /-- Atomically increments an object's reference count. (R303) -/
  | dynRcinc (d a : Reg)
  /-- Atomically decrements a reference count, reporting dead or deferred. (R303) -/
  | dynRcdec (d a : Reg)
  /-- Extracts a value's tag. (R312) -/
  | dynTag (d a : Reg)
  /-- Loads a heap object's shape ID. (R315) -/
  | dynShape (d a : Reg)
  /-- Boxes an FP32 value as a short float. (R312) -/
  | dynBoxf (d a : Reg)
  /-- Unboxes a short float. (R312) -/
  | dynUnboxf (d a : Reg)
  /-- Boxes an integer as a small integer, trapping on overflow. (R312) -/
  | dynBoxi (d a : Reg)
  /-- Unboxes a small integer. (R312) -/
  | dynUnboxi (d a : Reg)
  /-- Tests a receiver's shape or tag and inline-cache entry, branching on failure. (R307) -/
  | dynGuard (a b : Reg) (o : BitVec 16)
  deriving DecidableEq, Repr

end Sys2Proof
end

