-- ==== Sys2Proof/Config.lean ====
section
/-! DEFINITION. What the spec leaves open: constants without a body, so that no proof can see
their values. Each is applied to what it depends on, or to the counter `fresh` of the state.
Choices between two behaviours that the spec allows are not here: the state's own list `choices`
holds them. -/

namespace Sys2Proof.Config

/-- The fixed hash that chooses a line's home slice among the 128 of its die (R23). The spec does
not give it. -/
opaque sliceHash : Nat → Fin 128

/-- The line hash that chooses a scale-up port among those of a partition (R187). The spec does not give it. -/
opaque portHash : Nat → Nat

/-- The decryption under key `b` of the line `line` whose data `d` was written under key `a`
(R26: AES-256-XTS with keys that hardware makes, R294). -/
opaque otherKey : (a b line : Nat) → LineData → LineData

/-- What a slot of the overflow ring holds when no task occupies it (R111). -/
opaque ringStale : Nat → Word

/-- The entry a ring slot gives when software has written the ring (R111: undefined). -/
opaque ringUndefined : Nat → BitVec 18

/-- By how many nanoseconds a die's copy of module time stands off the module's (R285: less than
10 between any two dies). -/
opaque dieSkew : (die : Nat) → Fin 10

/-- The identity key of a unit, fused at manufacture (R299). -/
opaque identity : (unit : Nat) → Nat

/-- What an SPDM message of a kind carries beyond it, of a responder with this identity: the same at each time for
what only tells of the responder, and another for each count where it answers a challenge (R299 gives no
contents). -/
opaque spdmCode : (identity kind count : Nat) → Nat

/-- What the measurement block of an index holds for what it measures (R299): the SHA-256 of the boot ROM, the
hub firmware, the compute-die microcode, a partition's configuration or the fused limits; index 0 is that of a boot
image. The spec does not say how what is measured is laid out. -/
opaque measurement : (index : Nat) → List Nat → BitVec 256

/-- The blocks that the boot measures, and those of what is fused (R299, R329). -/
def bootBlocks : List (Nat × BitVec 256) := [1, 2, 3, 5].map fun i => (i, measurement i [])

/-- The fused static term of the module's draw, and the fused weights of a block of an MMA by its class which the least
format code of R231 in it names, of a vector operation, of a byte copied and of a byte of a slice (R334: no values given). -/
opaque staticDraw : Nat
opaque mmaEnergy : (class_ : Nat) → Nat
opaque vectorEnergy : Nat
opaque copyEnergy : Nat
opaque sliceEnergy : Nat

/-- More than one command or transfer draws: the room that the controller keeps below a limit. -/
def headroom : Nat :=
  vectorEnergy + 4 * ((List.range 9).map mmaEnergy).sum + 1024 * (copyEnergy + sliceEnergy)

/-- What the tests of a boot find failed (R331). -/
opaque bootTests : Nat → List Failure

/-- The fused rate of a link or port (R296, R337). -/
opaque fusedRate : (link : Nat) → Nat

end Sys2Proof.Config
end

