-- ==== Sys2Proof/WellFormed.lean ====
section
/-! DEFINITION. What a well-formed instruction is: the range limits of case 5 of R39 that the
types of Instr do not already say. -/

namespace Sys2Proof

/-- A VCV pair that R38 assigns: the formats differ, and one is FP32 or both are integers. -/
def Fmt.isInt : Fmt → Bool
  | .int8 | .uint8 | .int16 | .uint16 | .int32 | .uint32 => true
  | _ => false

/-- R38: the pairs of formats assigned to VCV. -/
def vcvPair (src dst : Fmt) : Bool :=
  src ≠ dst && (src == .fp32 || dst == .fp32 || (src.isInt && dst.isInt))

/-- R282: the assigned indexes of the state registers outside the window. -/
def baseIndexAssigned (i : Nat) : Bool :=
  i ≤ 0x005 || (0x008 ≤ i && i ≤ 0x00A) || (0x00C ≤ i && i ≤ 0x00E) ||
  (0x010 ≤ i && i ≤ 0x012) || (0x014 ≤ i && i ≤ 0x016) || (0x018 ≤ i && i ≤ 0x01A)

/-- R282: every assigned index of the state registers. -/
def indexAssigned (i : Nat) : Bool :=
  baseIndexAssigned i || (0x040 ≤ i && i ≤ 0x049) || (0x080 ≤ i && i ≤ 0x084) ||
  (0x088 ≤ i && i ≤ 0x08A) || (0x100 ≤ i && i ≤ 0x11F && baseIndexAssigned (i - 0x100)) ||
  (0x120 ≤ i && i ≤ 0x13F)

/-- A register number plus `n` stays within the file of 32 (R214). -/
def fits (r : Reg) (n : Nat) : Bool := r.toNat + n ≤ 31

/-- A pair of registers starts at an even number (R226, R227). -/
def even (r : Reg) : Bool := r.toNat % 2 == 0

/-- R214: a group of three operands within the files, and at most 16 cycles of the unit. -/
def group3 (d a b : Reg) (grp : BitVec 3) : Bool :=
  fits d grp.toNat && fits a grp.toNat && fits b grp.toNat

/-- R214: a group of two operands within the files. -/
def group2 (d a : Reg) (grp : BitVec 3) : Bool := fits d grp.toNat && fits a grp.toNat

/-- R214: DIV, SQRT and EXP2 occupy 8 cycles a register, so their groups hold at most two. -/
def slowGroup (grp : BitVec 3) : Bool := grp.toNat ≤ 1

/-- Case 5 of R39, instruction by instruction. -/
def Instr.wf : Instr → Bool
  | .ctlLoop _ _ n => n ≠ 0                                       -- R82
  | .memLds _ _ sz _ _ => sz ≠ .d                                 -- R131
  | .lngCall _ i | .lngJmp i => i.extractLsb' 0 2 = 0             -- R76
  | .thrSpawn d _ _ => d ≠ 1                                      -- R89
  | .vfpAdd d a b _ g | .vfpSub d a b _ g | .vfpMul d a b _ g | .vfpFma d a b _ g
  | .vfpFms d a b _ g | .vfpMin d a b _ g | .vfpMax d a b _ g => group3 d a b g
  | .vfpDiv d a b _ g => group3 d a b g && slowGroup g
  | .vfpAbs d a _ g | .vfpNeg d a _ g => group2 d a g
  | .vfpSqrt d a _ g | .vfpExp2 d a _ g => group2 d a g && slowGroup g
  | .vinAdd d a b _ g | .vinSub d a b _ g | .vinMul d a b _ g | .vinMulh d a b _ g
  | .vinAnd d a b _ g | .vinOr d a b _ g | .vinXor d a b _ g | .vinShl d a b _ g
  | .vinShr d a b _ g | .vinSar d a b _ g | .vinMin d a b _ g | .vinMax d a b _ g
  | .vinMinu d a b _ g | .vinMaxu d a b _ g | .vinAdds d a b _ g | .vinSubs d a b _ g =>
    group3 d a b g
  | .vcv _ _ _ src dst => vcvPair src dst                         -- R38
  | .vlsGath d _ b _ _ => d ≠ b                                   -- R213
  | .mtxMma a b _ => even a && even b                             -- R226
  | .mtxMmav a _ _ => even a                                      -- R226
  | .jobCopy _ a _ => even a                                      -- R227
  | .jobCopyb _ a b => even a && even b                           -- R227
  | .dynNext d a => !(d == a && d ≠ 0)                            -- R311
  | .sysSrrd _ i | .sysSrwr _ i => indexAssigned i.toNat          -- R283
  | _ => true

end Sys2Proof
end

