-- ==== Sys2Proof/Decode.lean ====
section
/-! DEFINITION. The decoder, total on any bytes and rejecting by name (R29 to R39), and the
encoder from the same tables. -/

namespace Sys2Proof

/-- Why a word is illegal: the cases of R39 that decoding decides. -/
inductive DecodeError where
  | major      -- case 1: the major is 0x00, 0x3F or unassigned
  | function   -- case 2: a function code or sub-field value is unassigned or reserved
  | reserved   -- cases 3 and 4: a reserved field or bit is nonzero
  | range      -- case 5: a value outside the range of the instruction's entry
  | truncated  -- fewer bytes than the instruction has
  deriving DecidableEq, Repr

/-- What decoding answers. -/
abbrev Dec := Except DecodeError Instr

/-! Fields of a word (R30). -/

def fOp (w : W32) : BitVec 6 := w.extractLsb' 26 6
def fD (w : W32) : Reg := w.extractLsb' 21 5
def fA (w : W32) : Reg := w.extractLsb' 16 5
def fB (w : W32) : Reg := w.extractLsb' 11 5
def fFn (w : W32) : BitVec 11 := w.extractLsb' 0 11
def fImm (w : W32) : BitVec 16 := w.extractLsb' 0 16
def fOff26 (w : W32) : BitVec 26 := w.extractLsb' 0 26
def fSz (w : W32) : BitVec 3 := w.extractLsb' 13 3
def fSp (w : W32) : BitVec 2 := w.extractLsb' 11 2
def fQ (w : W32) : BitVec 2 := w.extractLsb' 9 2
def fFn9 (w : W32) : BitVec 9 := w.extractLsb' 0 9
def fGrp (w : W32) : BitVec 3 := w.extractLsb' 6 3
def fFn6 (w : W32) : BitVec 6 := w.extractLsb' 0 6
def fZ (w : W32) : BitVec 3 := w.extractLsb' 8 3
def fFn8 (w : W32) : BitVec 8 := w.extractLsb' 0 8
def fCf (w : W32) : BitVec 4 := w.extractLsb' 12 4
def fK12 (w : W32) : BitVec 12 := w.extractLsb' 0 12

/-! Codes of the sub-fields (R21, R32, R37, R38). -/

def MSize.code : MSize → BitVec 3
  | .b => 0 | .h => 1 | .w => 2 | .d => 3

def MSize.ofCode (c : BitVec 3) : Option MSize :=
  match c.toNat with
  | 0 => some .b | 1 => some .h | 2 => some .w | 3 => some .d | _ => none

def Space.code : Space → BitVec 2
  | .g => 0 | .l => 1 | .o => 2 | .c => 3

def Space.ofCode (c : BitVec 2) : Space :=
  match c.toNat with
  | 0 => .g | 1 => .l | 2 => .o | _ => .c

def ASize.code : ASize → BitVec 1
  | .w => 0 | .d => 1

def ASize.ofCode (c : BitVec 1) : ASize := if c = 0 then .w else .d

def MOrder.code : MOrder → BitVec 2
  | .rlx => 0 | .acq => 1 | .rel => 2 | .ar => 3

def MOrder.ofCode (c : BitVec 2) : MOrder :=
  match c.toNat with
  | 0 => .rlx | 1 => .acq | 2 => .rel | _ => .ar

def Scope.code : Scope → BitVec 3
  | .core => 0 | .quad => 1 | .die => 2 | .mod => 3 | .pod => 4

def Scope.ofCode (c : BitVec 3) : Option Scope :=
  match c.toNat with
  | 0 => some .core | 1 => some .quad | 2 => some .die | 3 => some .mod | 4 => some .pod
  | _ => none

def Level.code : Level → BitVec 1
  | .l0 => 0 | .l1 => 1

def Level.ofCode (c : BitVec 1) : Level := if c = 0 then .l0 else .l1

def Fmt.code : Fmt → BitVec 4
  | .fp32 => 0x0 | .fp16 => 0x1 | .bf16 => 0x2 | .e4m3 => 0x3 | .e5m2 => 0x4 | .e2m3 => 0x5
  | .e3m2 => 0x6 | .e2m1 => 0x7 | .int8 => 0x8 | .uint8 => 0x9 | .int16 => 0xA
  | .uint16 => 0xB | .int32 => 0xC | .uint32 => 0xD | .e8m0 => 0xE

def Fmt.ofCode (c : BitVec 4) : Option Fmt :=
  match c.toNat with
  | 0x0 => some .fp32 | 0x1 => some .fp16 | 0x2 => some .bf16 | 0x3 => some .e4m3
  | 0x4 => some .e5m2 | 0x5 => some .e2m3 | 0x6 => some .e3m2 | 0x7 => some .e2m1
  | 0x8 => some .int8 | 0x9 => some .uint8 | 0xA => some .int16 | 0xB => some .uint16
  | 0xC => some .int32 | 0xD => some .uint32 | 0xE => some .e8m0 | _ => none

/-! The shapes that the tables share. -/

/-- A reserved field must be zero (R39, cases 3 and 4). -/
def zeroed {n : Nat} (x : BitVec n) (r : Dec) : Dec :=
  if x = 0 then r else .error .reserved

/-- A Q field names q0 to q3 (R213). -/
def qReg (r : Reg) (f : QReg → Dec) : Dec :=
  if r.extractLsb' 2 3 = 0 then f (r.extractLsb' 0 2) else .error .range

/-- A z field names z0 to z3; 0b100 to 0b111 are illegal (R38). -/
def zReg (z : BitVec 3) (f : AccReg → Dec) : Dec :=
  if z.extractLsb' 2 1 = 0 then f (z.extractLsb' 0 2) else .error .range

def size (c : BitVec 3) (f : MSize → Dec) : Dec :=
  match MSize.ofCode c with
  | some s => f s
  | none => .error .function

def scope (c : BitVec 3) (f : Scope → Dec) : Dec :=
  match Scope.ofCode c with
  | some s => f s
  | none => .error .function

def format (c : BitVec 4) (f : Fmt → Dec) : Dec :=
  match Fmt.ofCode c with
  | some s => f s
  | none => .error .function

/-! The majors. -/

/-- ALU, major 0x01 (R36). -/
def decodeAlu (w : W32) : Dec :=
  match (fFn w).toNat with
  | 0x000 => .ok (.aluAdd (fD w) (fA w) (fB w))
  | 0x001 => .ok (.aluSub (fD w) (fA w) (fB w))
  | 0x002 => .ok (.aluAnd (fD w) (fA w) (fB w))
  | 0x003 => .ok (.aluOr (fD w) (fA w) (fB w))
  | 0x004 => .ok (.aluXor (fD w) (fA w) (fB w))
  | 0x005 => .ok (.aluAndn (fD w) (fA w) (fB w))
  | 0x006 => .ok (.aluShl (fD w) (fA w) (fB w))
  | 0x007 => .ok (.aluShr (fD w) (fA w) (fB w))
  | 0x008 => .ok (.aluSar (fD w) (fA w) (fB w))
  | 0x009 => .ok (.aluAddw (fD w) (fA w) (fB w))
  | 0x00a => .ok (.aluSubw (fD w) (fA w) (fB w))
  | 0x00b => .ok (.aluShlw (fD w) (fA w) (fB w))
  | 0x00c => .ok (.aluShrw (fD w) (fA w) (fB w))
  | 0x00d => .ok (.aluSarw (fD w) (fA w) (fB w))
  | 0x00e => .ok (.aluMin (fD w) (fA w) (fB w))
  | 0x00f => .ok (.aluMax (fD w) (fA w) (fB w))
  | 0x010 => .ok (.aluMinu (fD w) (fA w) (fB w))
  | 0x011 => .ok (.aluMaxu (fD w) (fA w) (fB w))
  | 0x012 => .ok (.aluSel (fD w) (fA w) (fB w))
  | _ => .error .function

/-- MUL, major 0x02 (R36). -/
def decodeMul (w : W32) : Dec :=
  match (fFn w).toNat with
  | 0x000 => .ok (.mulMul (fD w) (fA w) (fB w))
  | 0x001 => .ok (.mulMulh (fD w) (fA w) (fB w))
  | 0x002 => .ok (.mulMulhu (fD w) (fA w) (fB w))
  | 0x003 => .ok (.mulMulw (fD w) (fA w) (fB w))
  | 0x004 => .ok (.mulDiv (fD w) (fA w) (fB w))
  | 0x005 => .ok (.mulDivu (fD w) (fA w) (fB w))
  | 0x006 => .ok (.mulRem (fD w) (fA w) (fB w))
  | 0x007 => .ok (.mulRemu (fD w) (fA w) (fB w))
  | _ => .error .function

/-- CMP, major 0x03 (R36). -/
def decodeCmp (w : W32) : Dec :=
  match (fFn w).toNat with
  | 0x000 => .ok (.cmpEq (fD w) (fA w) (fB w))
  | 0x001 => .ok (.cmpNe (fD w) (fA w) (fB w))
  | 0x002 => .ok (.cmpLt (fD w) (fA w) (fB w))
  | 0x003 => .ok (.cmpLtu (fD w) (fA w) (fB w))
  | 0x004 => .ok (.cmpLe (fD w) (fA w) (fB w))
  | 0x005 => .ok (.cmpLeu (fD w) (fA w) (fB w))
  | _ => .error .function

/-- BIT, major 0x04; field b is reserved in CLZ, CTZ, POP and BSWAP (R36, R71). -/
def decodeBit (w : W32) : Dec :=
  match (fFn w).toNat with
  | 0x000 => .ok (.bitExt (fD w) (fA w) (fB w))
  | 0x001 => .ok (.bitExtu (fD w) (fA w) (fB w))
  | 0x002 => .ok (.bitIns (fD w) (fA w) (fB w))
  | 0x003 => zeroed (fB w) (.ok (.bitClz (fD w) (fA w)))
  | 0x004 => zeroed (fB w) (.ok (.bitCtz (fD w) (fA w)))
  | 0x005 => zeroed (fB w) (.ok (.bitPop (fD w) (fA w)))
  | 0x006 => zeroed (fB w) (.ok (.bitBswap (fD w) (fA w)))
  | _ => .error .function

/-- MEM maintenance, major 0x13 (R36, R136 to R138). -/
def decodeMaint (w : W32) : Dec :=
  match (fFn w).toNat with
  | 0x000 => zeroed (fD w) (.ok (.memWb (fA w) (fB w)))
  | 0x001 => zeroed (fD w) (.ok (.memInv (fA w) (fB w)))
  | 0x002 => zeroed (fD w) (zeroed (fB w) (.ok (.memPf (fA w))))
  | 0x003 => zeroed (fD w) (zeroed (fB w) (.ok (.memZero (fA w))))
  | _ => .error .function

/-- THR, major 0x30; reserved fields as R89 gives. -/
def decodeThr (w : W32) : Dec :=
  match (fFn w).toNat with
  | 0x000 => zeroed (fB w) (.ok (.thrStart (fD w) (fA w)))
  | 0x001 => zeroed (fA w) (zeroed (fB w) (.ok (.thrStop (fD w))))
  | 0x002 => zeroed (fA w) (zeroed (fB w) (.ok (.thrCont (fD w))))
  | 0x003 => .ok (.thrSpill (fD w) (fA w) (fB w))
  | 0x004 => .ok (.thrFill (fD w) (fA w) (fB w))
  | 0x005 => zeroed (fD w) (zeroed (fA w) (zeroed (fB w) (.ok (.thrExit))))
  | 0x006 => zeroed (fA w) (zeroed (fB w) (.ok (.thrReap (fD w))))
  | 0x007 => zeroed (fA w) (zeroed (fB w) (.ok (.thrRqpop (fD w))))
  | 0x008 => zeroed (fA w) (zeroed (fB w) (.ok (.thrWatch (fD w))))
  | 0x009 => zeroed (fA w) (zeroed (fB w) (.ok (.thrUnwatch (fD w))))
  | 0x00a => zeroed (fD w) (zeroed (fA w) (zeroed (fB w) (.ok (.thrWait))))
  | 0x00b => zeroed (fD w) (zeroed (fA w) (zeroed (fB w) (.ok (.thrIdle))))
  | 0x00c => .ok (.thrSpawn (fD w) (fA w) (fB w))
  | 0x00d => zeroed (fB w) (.ok (.thrLaunch (fD w) (fA w)))
  | 0x00e => zeroed (fB w) (.ok (.thrBind (fD w) (fA w)))
  | 0x00f => zeroed (fA w) (zeroed (fB w) (.ok (.thrSemp (fD w))))
  | 0x010 => zeroed (fA w) (zeroed (fB w) (.ok (.thrSemv (fD w))))
  | 0x011 => zeroed (fD w) (zeroed (fA w) (zeroed (fB w) (.ok (.thrYield))))
  | _ => .error .function

/-- MSG, major 0x31 (R90). -/
def decodeMsg (w : W32) : Dec :=
  match (fFn w).toNat with
  | 0x000 => zeroed (fB w) (.ok (.msgDec (fD w) (fA w)))
  | 0x001 => .ok (.msgPut (fD w) (fA w) (fB w))
  | 0x002 => zeroed (fB w) (.ok (.msgInc (fD w) (fA w)))
  | _ => .error .function

/-- DYN, major 0x34 (R311). -/
noncomputable def decodeDyn (w : W32) : Dec :=
  match (fFn w).toNat with
  | 0x000 => zeroed (fB w) (.ok (.dynIclook (fD w) (fA w)))
  | 0x001 => zeroed (fD w) (.ok (.dynIcfill (fA w) (fB w)))
  | 0x002 => zeroed (fD w) (zeroed (fB w) (.ok (.dynIcinv (fA w))))
  | 0x003 => zeroed (fB w) (.ok (.dynNext (fD w) (fA w)))
  | 0x004 => zeroed (fB w) (.ok (.dynRcinc (fD w) (fA w)))
  | 0x005 => zeroed (fB w) (.ok (.dynRcdec (fD w) (fA w)))
  | 0x006 => zeroed (fB w) (.ok (.dynTag (fD w) (fA w)))
  | 0x007 => zeroed (fB w) (.ok (.dynShape (fD w) (fA w)))
  | 0x008 => zeroed (fB w) (.ok (.dynBoxf (fD w) (fA w)))
  | 0x009 => zeroed (fB w) (.ok (.dynUnboxf (fD w) (fA w)))
  | 0x00a => zeroed (fB w) (.ok (.dynBoxi (fD w) (fA w)))
  | 0x00b => zeroed (fB w) (.ok (.dynUnboxi (fD w) (fA w)))
  | _ => .error .function

/-- VFP, major 0x20: the function in fn[5:0], the group in fn[8:6] (R36, R37, R213, R214). -/
noncomputable def decodeVfp (w : W32) : Dec :=
  match (fFn6 w).toNat with
  | 0x00 => .ok (.vfpAdd (fD w) (fA w) (fB w) (fQ w) (fGrp w))
  | 0x01 => .ok (.vfpSub (fD w) (fA w) (fB w) (fQ w) (fGrp w))
  | 0x02 => .ok (.vfpMul (fD w) (fA w) (fB w) (fQ w) (fGrp w))
  | 0x03 => .ok (.vfpFma (fD w) (fA w) (fB w) (fQ w) (fGrp w))
  | 0x04 => .ok (.vfpFms (fD w) (fA w) (fB w) (fQ w) (fGrp w))
  | 0x05 => .ok (.vfpMin (fD w) (fA w) (fB w) (fQ w) (fGrp w))
  | 0x06 => .ok (.vfpMax (fD w) (fA w) (fB w) (fQ w) (fGrp w))
  | 0x07 => zeroed (fB w) (.ok (.vfpAbs (fD w) (fA w) (fQ w) (fGrp w)))
  | 0x08 => zeroed (fB w) (.ok (.vfpNeg (fD w) (fA w) (fQ w) (fGrp w)))
  | 0x09 => .ok (.vfpDiv (fD w) (fA w) (fB w) (fQ w) (fGrp w))
  | 0x0a => zeroed (fB w) (.ok (.vfpSqrt (fD w) (fA w) (fQ w) (fGrp w)))
  | 0x0b => zeroed (fB w) (.ok (.vfpExp2 (fD w) (fA w) (fQ w) (fGrp w)))
  | 0x0c => qReg (fD w) fun d => zeroed (fGrp w) (.ok (.vfpCeq d (fA w) (fB w) (fQ w)))
  | 0x0d => qReg (fD w) fun d => zeroed (fGrp w) (.ok (.vfpClt d (fA w) (fB w) (fQ w)))
  | 0x0e => qReg (fD w) fun d => zeroed (fGrp w) (.ok (.vfpCle d (fA w) (fB w) (fQ w)))
  | _ => .error .function

/-- VIN, major 0x21 (R36, R37, R213, R214). -/
noncomputable def decodeVin (w : W32) : Dec :=
  match (fFn6 w).toNat with
  | 0x00 => .ok (.vinAdd (fD w) (fA w) (fB w) (fQ w) (fGrp w))
  | 0x01 => .ok (.vinSub (fD w) (fA w) (fB w) (fQ w) (fGrp w))
  | 0x02 => .ok (.vinMul (fD w) (fA w) (fB w) (fQ w) (fGrp w))
  | 0x03 => .ok (.vinMulh (fD w) (fA w) (fB w) (fQ w) (fGrp w))
  | 0x04 => .ok (.vinAnd (fD w) (fA w) (fB w) (fQ w) (fGrp w))
  | 0x05 => .ok (.vinOr (fD w) (fA w) (fB w) (fQ w) (fGrp w))
  | 0x06 => .ok (.vinXor (fD w) (fA w) (fB w) (fQ w) (fGrp w))
  | 0x07 => .ok (.vinShl (fD w) (fA w) (fB w) (fQ w) (fGrp w))
  | 0x08 => .ok (.vinShr (fD w) (fA w) (fB w) (fQ w) (fGrp w))
  | 0x09 => .ok (.vinSar (fD w) (fA w) (fB w) (fQ w) (fGrp w))
  | 0x0a => .ok (.vinMin (fD w) (fA w) (fB w) (fQ w) (fGrp w))
  | 0x0b => .ok (.vinMax (fD w) (fA w) (fB w) (fQ w) (fGrp w))
  | 0x0c => .ok (.vinMinu (fD w) (fA w) (fB w) (fQ w) (fGrp w))
  | 0x0d => .ok (.vinMaxu (fD w) (fA w) (fB w) (fQ w) (fGrp w))
  | 0x0e => .ok (.vinAdds (fD w) (fA w) (fB w) (fQ w) (fGrp w))
  | 0x0f => .ok (.vinSubs (fD w) (fA w) (fB w) (fQ w) (fGrp w))
  | 0x10 => qReg (fD w) fun d => zeroed (fGrp w) (.ok (.vinCeq d (fA w) (fB w) (fQ w)))
  | 0x11 => qReg (fD w) fun d => zeroed (fGrp w) (.ok (.vinClt d (fA w) (fB w) (fQ w)))
  | 0x12 => qReg (fD w) fun d => zeroed (fGrp w) (.ok (.vinCltu d (fA w) (fB w) (fQ w)))
  | _ => .error .function

/-- VRD, major 0x25; field b is reserved (R36, R213). -/
noncomputable def decodeVrd (w : W32) : Dec :=
  match (fFn9 w).toNat with
  | 0x000 => zeroed (fB w) (.ok (.vrdFsum (fD w) (fA w) (fQ w)))
  | 0x001 => zeroed (fB w) (.ok (.vrdFmax (fD w) (fA w) (fQ w)))
  | 0x002 => zeroed (fB w) (.ok (.vrdFmin (fD w) (fA w) (fQ w)))
  | 0x003 => zeroed (fB w) (.ok (.vrdIsum (fD w) (fA w) (fQ w)))
  | 0x004 => zeroed (fB w) (.ok (.vrdImax (fD w) (fA w) (fQ w)))
  | 0x005 => zeroed (fB w) (.ok (.vrdImin (fD w) (fA w) (fQ w)))
  | 0x006 => zeroed (fB w) (.ok (.vrdImaxu (fD w) (fA w) (fQ w)))
  | 0x007 => zeroed (fB w) (.ok (.vrdIminu (fD w) (fA w) (fQ w)))
  | _ => .error .function

/-- ATM, major 0x18: op in fn[10:6], sz in fn[4], mo in fn[1:0]; fn[5] and fn[3:2] reserved (R37). -/
def decodeAtm (w : W32) : Dec :=
  let fn := fFn w
  let sz := ASize.ofCode (fn.extractLsb' 4 1)
  let mo := MOrder.ofCode (fn.extractLsb' 0 2)
  zeroed (fn.extractLsb' 5 1) <| zeroed (fn.extractLsb' 2 2) <|
  match (fn.extractLsb' 6 5).toNat with
  | 0x00 => .ok (.atmSwap (fD w) (fA w) (fB w) sz mo)
  | 0x01 => .ok (.atmCas (fD w) (fA w) (fB w) sz mo)
  | 0x02 => .ok (.atmAdd (fD w) (fA w) (fB w) sz mo)
  | 0x03 => .ok (.atmAnd (fD w) (fA w) (fB w) sz mo)
  | 0x04 => .ok (.atmOr (fD w) (fA w) (fB w) sz mo)
  | 0x05 => .ok (.atmXor (fD w) (fA w) (fB w) sz mo)
  | 0x06 => .ok (.atmMin (fD w) (fA w) (fB w) sz mo)
  | 0x07 => .ok (.atmMax (fD w) (fA w) (fB w) sz mo)
  | 0x08 => .ok (.atmMinu (fD w) (fA w) (fB w) sz mo)
  | 0x09 => .ok (.atmMaxu (fD w) (fA w) (fB w) sz mo)
  | _ => .error .function

/-- SYN, major 0x19: the function in fn[10:3], the scope in fn[2:0] (R37, R139). -/
def decodeSyn (w : W32) : Dec :=
  let sc := (fFn w).extractLsb' 0 3
  match ((fFn w).extractLsb' 3 8).toNat with
  | 0x00 => zeroed sc <| zeroed (fB w) (.ok (.synLrw (fD w) (fA w)))
  | 0x01 => zeroed sc (.ok (.synScr (fD w) (fA w) (fB w)))
  | 0x02 => scope sc fun c => zeroed (fB w) <| zeroed (fA w) <| zeroed (fD w) (.ok (.synFence c))
  | 0x03 => scope sc fun c => .ok (.synWait (fD w) (fA w) (fB w) c)
  | 0x04 => scope sc fun c => .ok (.synWake (fD w) (fA w) (fB w) c)
  | _ => .error .function

/-- BAR, major 0x32: only SYNC uses its scope (R37, R90). -/
def decodeBar (w : W32) : Dec :=
  let sc := (fFn w).extractLsb' 0 3
  match ((fFn w).extractLsb' 3 8).toNat with
  | 0x00 => scope sc fun c => .ok (.barSync (fD w) (fA w) (fB w) c)
  | 0x01 => zeroed sc <| zeroed (fB w) (.ok (.barInit (fD w) (fA w)))
  | 0x02 => zeroed sc <| zeroed (fB w) (.ok (.barArrive (fD w) (fA w)))
  | 0x03 => zeroed sc (.ok (.barWait (fD w) (fA w) (fB w)))
  | 0x04 => zeroed sc <| zeroed (fB w) (.ok (.barExpect (fD w) (fA w)))
  | 0x05 => zeroed sc <| zeroed (fB w) <| zeroed (fA w) (.ok (.barAbort (fD w)))
  | _ => .error .function

/-- CTL, major 0x1F: cf in fn16[15:12], k12 in fn16[11:0] (R37, R77 to R84). -/
def decodeCtl (w : W32) : Dec :=
  let k := fK12 w
  match (fCf w).toNat with
  | 0x0 => zeroed (fD w) (.ok (.ctlJr (fA w) k))
  | 0x1 => .ok (.ctlCallr (fD w) (fA w) k)
  | 0x2 => zeroed (fD w) <| zeroed (fA w) (.ok (.ctlRet k))
  | 0x3 => zeroed k (.ok (.ctlJt (fD w) (fA w)))
  | 0x4 => zeroed (fA w) (.ok (.ctlLoop (fD w) (Level.ofCode (k.extractLsb' 11 1)) (k.extractLsb' 0 11)))
  | 0x5 => zeroed (fD w) <| zeroed (fA w) <| zeroed k (.ok .ctlLexit)
  | 0xF => zeroed ((fD w).extractLsb' 4 1) <| zeroed (fA w)
      (.ok (.ctlLpad ((fD w).extractLsb' 0 4 ++ k)))
  | _ => .error .function

/-- The loads and stores, majors 0x10 to 0x12 (R32, R131). -/
def decodeMem (mk : Reg → Reg → MSize → Space → BitVec 11 → Instr) (w : W32) : Dec :=
  size (fSz w) fun s => .ok (mk (fD w) (fA w) s (Space.ofCode (fSp w)) (fFn w))

/-- VMV, major 0x22; files and reserved fields as R213 gives. -/
noncomputable def decodeVmv (w : W32) : Dec :=
  match (fFn9 w).toNat with
  | 0x000 => zeroed (fB w) (.ok (.vmvMov (fD w) (fA w) (fQ w)))
  | 0x001 => zeroed (fB w) (.ok (.vmvBcast (fD w) (fA w) (fQ w)))
  | 0x002 => .ok (.vmvSel (fD w) (fA w) (fB w) (fQ w))
  | 0x003 => .ok (.vmvPerm (fD w) (fA w) (fB w) (fQ w))
  | 0x004 => .ok (.vmvRot (fD w) (fA w) (fB w) (fQ w))
  | 0x005 => zeroed (fQ w) (.ok (.vmvIns (fD w) (fA w) (fB w)))
  | 0x006 => zeroed (fQ w) (.ok (.vmvExt (fD w) (fA w) (fB w)))
  | 0x007 => zeroed (fQ w) <| qReg (fD w) fun d => qReg (fA w) fun a => qReg (fB w) fun b =>
      .ok (.vmvQand d a b)
  | 0x008 => zeroed (fQ w) <| qReg (fD w) fun d => qReg (fA w) fun a => qReg (fB w) fun b =>
      .ok (.vmvQor d a b)
  | 0x009 => zeroed (fQ w) <| zeroed (fB w) <| qReg (fD w) fun d => qReg (fA w) fun a =>
      .ok (.vmvQnot d a)
  | 0x00A => zeroed (fQ w) <| zeroed (fB w) <| qReg (fA w) fun a => .ok (.vmvQrd (fD w) a)
  | 0x00B => zeroed (fQ w) <| zeroed (fB w) <| qReg (fD w) fun d => .ok (.vmvQwr d (fA w))
  | _ => .error .function

/-- VCV, major 0x24: src in fn[8:5], dst in fn[4:1], fn[0] and b reserved (R37, R221). -/
noncomputable def decodeVcv (w : W32) : Dec :=
  let fn := fFn9 w
  zeroed (fn.extractLsb' 0 1) <| zeroed (fB w) <|
  format (fn.extractLsb' 5 4) fun src => format (fn.extractLsb' 1 4) fun dst =>
    .ok (.vcv (fD w) (fA w) (fQ w) src dst)

/-- VLS, major 0x23: op in fn[8:4], sp in fn[1:0], fn[3:2] reserved (R37, R222). -/
noncomputable def decodeVls (w : W32) : Dec :=
  let fn := fFn9 w
  let sp := Space.ofCode (fn.extractLsb' 0 2)
  zeroed (fn.extractLsb' 2 2) <|
  match (fn.extractLsb' 4 5).toNat with
  | 0x00 => zeroed (fB w) (.ok (.vlsLd (fD w) (fA w) (fQ w) sp))
  | 0x01 => zeroed (fB w) (.ok (.vlsSt (fD w) (fA w) (fQ w) sp))
  | 0x02 => .ok (.vlsLds (fD w) (fA w) (fB w) (fQ w) sp)
  | 0x03 => .ok (.vlsSts (fD w) (fA w) (fB w) (fQ w) sp)
  | 0x04 => .ok (.vlsGath (fD w) (fA w) (fB w) (fQ w) sp)
  | 0x05 => .ok (.vlsScat (fD w) (fA w) (fB w) (fQ w) sp)
  | _ => .error .function

/-- MTX, major 0x2C; reserved fields as R226 gives. -/
noncomputable def decodeMtx (w : W32) : Dec :=
  match (fFn8 w).toNat with
  | 0x00 => zeroed (fD w) <| zReg (fZ w) fun z => .ok (.mtxMma (fA w) (fB w) z)
  | 0x01 => zeroed (fD w) <| zReg (fZ w) fun z => .ok (.mtxMmav (fA w) (fB w) z)
  | 0x02 => zeroed (fB w) <| zeroed (fZ w) (.ok (.mtxCfg (fD w) (fA w)))
  | 0x03 => zeroed (fD w) <| zReg (fZ w) fun z => .ok (.mtxSt (fA w) (fB w) z)
  | 0x04 => zeroed (fD w) <| zeroed (fB w) <| zReg (fZ w) fun z => .ok (.mtxLd (fA w) z)
  | 0x05 => zeroed (fD w) <| zeroed (fA w) <| zeroed (fB w) <| zReg (fZ w) fun z => .ok (.mtxZero z)
  | 0x06 => zeroed (fD w) <| zeroed (fA w) <| zeroed (fB w) <| zeroed (fZ w) (.ok .mtxDrain)
  | _ => .error .function

/-- JOB, major 0x2D; z must be 0b000 (R227). -/
noncomputable def decodeJob (w : W32) : Dec :=
  zeroed (fZ w) <|
  match (fFn8 w).toNat with
  | 0x00 => .ok (.jobCopy (fD w) (fA w) (fB w))
  | 0x01 => .ok (.jobCopyb (fD w) (fA w) (fB w))
  | 0x02 => zeroed (fB w) (.ok (.jobSubmit (fD w) (fA w)))
  | 0x03 => .ok (.jobFpwait (fD w) (fA w) (fB w))
  | 0x04 => .ok (.jobResume (fD w) (fA w) (fB w))
  | 0x05 => zeroed (fB w) (.ok (.jobPoll (fD w) (fA w)))
  | _ => .error .function

/-- SYS, major 0x38: the function in fn16 (R36, R285). -/
def decodeSys (w : W32) : Dec :=
  match (fImm w).toNat with
  | 0x0000 => zeroed (fA w) (.ok (.sysNow (fD w)))
  | 0x0001 => .ok (.sysCapq (fD w) (fA w))
  | 0x0002 => .ok (.sysXinv (fD w) (fA w))
  | 0x0003 => .ok (.sysPgref (fD w) (fA w))
  | 0x0004 => zeroed (fD w) <| zeroed (fA w) (.ok .sysIflush)
  | 0x0005 => zeroed (fD w) (.ok (.sysScall (fA w)))
  | 0x0006 => zeroed (fD w) <| zeroed (fA w) (.ok .sysBrk)
  | 0x0007 => .ok (.sysFreply (fD w) (fA w))
  | _ => .error .function

/-- LNG arithmetic, major 0x3C (R73). -/
def decodeLng (w imm : W32) : Dec :=
  match (fImm w).toNat with
  | 0x0000 => zeroed (fA w) (.ok (.lngLi (fD w) imm))
  | 0x0001 => .ok (.lngLih (fD w) (fA w) imm)
  | 0x0002 => .ok (.lngAdd (fD w) (fA w) imm)
  | 0x0003 => .ok (.lngAnd (fD w) (fA w) imm)
  | 0x0004 => .ok (.lngOr (fD w) (fA w) imm)
  | 0x0005 => .ok (.lngXor (fD w) (fA w) imm)
  | _ => .error .function

/-- LNG control, major 0x3D (R76). -/
def decodeLngCtl (w imm : W32) : Dec :=
  match (fImm w).toNat with
  | 0x0000 => zeroed (fA w) (.ok (.lngCall (fD w) imm))
  | 0x0001 => zeroed (fD w) <| zeroed (fA w) (.ok (.lngJmp imm))
  | 0x0002 => zeroed (fA w) (.ok (.lngLa (fD w) imm))
  | _ => .error .function

/-- The major opcode map (R35), before the range limits of case 5. -/
noncomputable def decodeFields (w imm : W32) : Dec :=
  match (fOp w).toNat with
  | 0x01 => decodeAlu w
  | 0x02 => decodeMul w
  | 0x03 => decodeCmp w
  | 0x04 => decodeBit w
  | 0x05 => .ok (.aliAdd (fD w) (fA w) (fImm w))
  | 0x06 => .ok (.aliAnd (fD w) (fA w) (fImm w))
  | 0x07 => .ok (.aliOr (fD w) (fA w) (fImm w))
  | 0x08 => .ok (.aliXor (fD w) (fA w) (fImm w))
  | 0x09 => zeroed ((fImm w).extractLsb' 6 10) (.ok (.aliShl (fD w) (fA w) ((fImm w).extractLsb' 0 6)))
  | 0x0A => zeroed ((fImm w).extractLsb' 6 10) (.ok (.aliShr (fD w) (fA w) ((fImm w).extractLsb' 0 6)))
  | 0x0B => zeroed ((fImm w).extractLsb' 6 10) (.ok (.aliSar (fD w) (fA w) ((fImm w).extractLsb' 0 6)))
  | 0x0C => .ok (.aliAddw (fD w) (fA w) (fImm w))
  | 0x0D => zeroed (fA w) (.ok (.aliLui (fD w) (fImm w)))
  | 0x0E => .ok (.aliSlt (fD w) (fA w) (fImm w))
  | 0x10 => decodeMem .memLd w
  | 0x11 => decodeMem .memLds w
  | 0x12 => decodeMem .memSt w
  | 0x13 => decodeMaint w
  | 0x18 => decodeAtm w
  | 0x19 => decodeSyn w
  | 0x1C => .ok (.brcEq (fD w) (fA w) (fImm w))
  | 0x1D => .ok (.brcNe (fD w) (fA w) (fImm w))
  | 0x1E => .ok (.jmp (fOff26 w))
  | 0x1F => decodeCtl w
  | 0x20 => decodeVfp w
  | 0x21 => decodeVin w
  | 0x22 => decodeVmv w
  | 0x23 => decodeVls w
  | 0x24 => decodeVcv w
  | 0x25 => decodeVrd w
  | 0x2C => decodeMtx w
  | 0x2D => decodeJob w
  | 0x30 => decodeThr w
  | 0x31 => decodeMsg w
  | 0x32 => decodeBar w
  | 0x34 => decodeDyn w
  | 0x35 => .ok (.dynGuard (fD w) (fA w) (fImm w))
  | 0x36 => zeroed (fCf w) <| zeroed (fA w) (.ok (.sysSrrd (fD w) (fK12 w)))
  | 0x37 => zeroed (fCf w) <| zeroed (fA w) (.ok (.sysSrwr (fD w) (fK12 w)))
  | 0x38 => decodeSys w
  | 0x3C => decodeLng w imm
  | 0x3D => decodeLngCtl w imm
  | _ => .error .major

/-- R29: majors 0x3C to 0x3E are 8 bytes long, assigned or not. -/
def isLong (w : W32) : Bool := 0x3C ≤ (fOp w).toNat && (fOp w).toNat ≤ 0x3E

/-- The length in bytes of the instruction whose first word is `w` (R29, R82). -/
def wordLength (w : W32) : Nat := if isLong w then 8 else 4

/-- The instruction that a word, with its second word if it is long, stands for (R39). -/
noncomputable def decode (w imm : W32) : Dec :=
  match decodeFields w imm with
  | .error e => .error e
  | .ok i => if i.wf then .ok i else .error .range

/-- Four bytes as a little-endian word (R3, R29). -/
def word32 (b0 b1 b2 b3 : Byte) : W32 := b3 ++ b2 ++ b1 ++ b0

/-- The instruction at the head of some bytes, and the bytes after it. -/
noncomputable def decodeBytes : List Byte → Except DecodeError (Instr × List Byte)
  | b0 :: b1 :: b2 :: b3 :: rest =>
    let w := word32 b0 b1 b2 b3
    if isLong w then
      match rest with
      | c0 :: c1 :: c2 :: c3 :: rest' =>
        match decode w (word32 c0 c1 c2 c3) with
        | .ok i => .ok (i, rest')
        | .error e => .error e
      | _ => .error .truncated
    else
      match decode w 0 with
      | .ok i => .ok (i, rest)
      | .error e => .error e
  | _ => .error .truncated

/-- The bytes of a number, lowest first (R3). -/
def bytesOf : Nat → Nat → List Byte
  | 0, _ => []
  | n + 1, w => BitVec.ofNat 8 w :: bytesOf n (w / 256)

/-- The instruction the decoder reads from one whose bits are `w`, bit 0 the least significant bit
of the first word; bits above `nbits` are zero, up to the longest instruction of 8 bytes. -/
noncomputable def decodeTableWord (nbits w : Nat) : Option Instr :=
  match decodeBytes (bytesOf 8 (w % 2 ^ nbits)) with
  | .ok (i, _) => some i
  | .error _ => none

/-! ## The encoder -/

/-- reg format (R30). -/
def regWord (op : BitVec 6) (d a b : Reg) (fn : BitVec 11) : W32 := op ++ d ++ a ++ b ++ fn
/-- imm, branch and long first-word formats (R30). -/
def immWord (op : BitVec 6) (d a : Reg) (imm : BitVec 16) : W32 := op ++ d ++ a ++ imm
/-- mem format (R30, R32). -/
def memWord (op : BitVec 6) (d a : Reg) (sz : MSize) (sp : Space) (off : BitVec 11) : W32 :=
  op ++ d ++ a ++ sz.code ++ sp.code ++ off
/-- jump format (R30). -/
def jumpWord (op : BitVec 6) (off : BitVec 26) : W32 := op ++ off
/-- sys format of CTL (R30, R37). -/
def ctlWord (d a : Reg) (cf : BitVec 4) (k : BitVec 12) : W32 := 0x1F#6 ++ d ++ a ++ cf ++ k
/-- vec format (R30). -/
def vecWord (op : BitVec 6) (d a b : Reg) (q : BitVec 2) (fn : BitVec 9) : W32 :=
  op ++ d ++ a ++ b ++ q ++ fn
/-- eng format (R30); z names z0 to z3. -/
def engWord (op : BitVec 6) (d a b : Reg) (z : AccReg) (fn : BitVec 8) : W32 :=
  op ++ d ++ a ++ b ++ 0#1 ++ z ++ fn
/-- fn of ATM (R37). -/
def atmFn (op : BitVec 5) (sz : ASize) (mo : MOrder) : BitVec 11 :=
  op ++ 0#1 ++ sz.code ++ 0#2 ++ mo.code
/-- fn of SYN and BAR (R37). -/
def scopeFn (f : BitVec 8) (c : Scope) : BitVec 11 := f ++ c.code
/-- A Q field (R213). -/
def qField (q : QReg) : Reg := 0#3 ++ q

/-- The words of an instruction; a step that no word encodes has none. -/
def encode : Instr → List W32
  | .aluAdd d a b => [regWord 0x01 d a b 0x0]
  | .aluSub d a b => [regWord 0x01 d a b 0x1]
  | .aluAnd d a b => [regWord 0x01 d a b 0x2]
  | .aluOr d a b => [regWord 0x01 d a b 0x3]
  | .aluXor d a b => [regWord 0x01 d a b 0x4]
  | .aluAndn d a b => [regWord 0x01 d a b 0x5]
  | .aluShl d a b => [regWord 0x01 d a b 0x6]
  | .aluShr d a b => [regWord 0x01 d a b 0x7]
  | .aluSar d a b => [regWord 0x01 d a b 0x8]
  | .aluAddw d a b => [regWord 0x01 d a b 0x9]
  | .aluSubw d a b => [regWord 0x01 d a b 0xa]
  | .aluShlw d a b => [regWord 0x01 d a b 0xb]
  | .aluShrw d a b => [regWord 0x01 d a b 0xc]
  | .aluSarw d a b => [regWord 0x01 d a b 0xd]
  | .aluMin d a b => [regWord 0x01 d a b 0xe]
  | .aluMax d a b => [regWord 0x01 d a b 0xf]
  | .aluMinu d a b => [regWord 0x01 d a b 0x10]
  | .aluMaxu d a b => [regWord 0x01 d a b 0x11]
  | .aluSel d a b => [regWord 0x01 d a b 0x12]
  | .mulMul d a b => [regWord 0x02 d a b 0x0]
  | .mulMulh d a b => [regWord 0x02 d a b 0x1]
  | .mulMulhu d a b => [regWord 0x02 d a b 0x2]
  | .mulMulw d a b => [regWord 0x02 d a b 0x3]
  | .mulDiv d a b => [regWord 0x02 d a b 0x4]
  | .mulDivu d a b => [regWord 0x02 d a b 0x5]
  | .mulRem d a b => [regWord 0x02 d a b 0x6]
  | .mulRemu d a b => [regWord 0x02 d a b 0x7]
  | .cmpEq d a b => [regWord 0x03 d a b 0x0]
  | .cmpNe d a b => [regWord 0x03 d a b 0x1]
  | .cmpLt d a b => [regWord 0x03 d a b 0x2]
  | .cmpLtu d a b => [regWord 0x03 d a b 0x3]
  | .cmpLe d a b => [regWord 0x03 d a b 0x4]
  | .cmpLeu d a b => [regWord 0x03 d a b 0x5]
  | .bitExt d a b => [regWord 0x04 d a b 0x0]
  | .bitExtu d a b => [regWord 0x04 d a b 0x1]
  | .bitIns d a b => [regWord 0x04 d a b 0x2]
  | .bitClz d a => [regWord 0x04 d a 0 0x3]
  | .bitCtz d a => [regWord 0x04 d a 0 0x4]
  | .bitPop d a => [regWord 0x04 d a 0 0x5]
  | .bitBswap d a => [regWord 0x04 d a 0 0x6]
  | .aliAdd d a i => [immWord 0x05 d a i]
  | .aliAnd d a i => [immWord 0x06 d a i]
  | .aliOr d a i => [immWord 0x07 d a i]
  | .aliXor d a i => [immWord 0x08 d a i]
  | .aliShl d a i => [immWord 0x09 d a (i.setWidth 16)]
  | .aliShr d a i => [immWord 0x0a d a (i.setWidth 16)]
  | .aliSar d a i => [immWord 0x0b d a (i.setWidth 16)]
  | .aliAddw d a i => [immWord 0x0c d a i]
  | .aliLui d i => [immWord 0x0d d 0 i]
  | .aliSlt d a i => [immWord 0x0e d a i]
  | .lngLi d i => [immWord 0x3C d 0 0, i]
  | .lngLih d a i => [immWord 0x3C d a 1, i]
  | .lngAdd d a i => [immWord 0x3C d a 2, i]
  | .lngAnd d a i => [immWord 0x3C d a 3, i]
  | .lngOr d a i => [immWord 0x3C d a 4, i]
  | .lngXor d a i => [immWord 0x3C d a 5, i]
  | .lngCall d i => [immWord 0x3D d 0 0, i]
  | .lngJmp i => [immWord 0x3D 0 0 1, i]
  | .lngLa d i => [immWord 0x3D d 0 2, i]
  | .brcEq a b o => [immWord 0x1c a b o]
  | .brcNe a b o => [immWord 0x1d a b o]
  | .jmp o => [jumpWord 0x1E o]
  | .ctlJr a k => [ctlWord 0 a 0x0 k]
  | .ctlCallr d a k => [ctlWord d a 0x1 k]
  | .ctlRet k => [ctlWord 0 0 0x2 k]
  | .ctlJt d a => [ctlWord d a 0x3 0]
  | .ctlLoop d l n => [ctlWord d 0 0x4 (l.code ++ n)]
  | .ctlLexit => [ctlWord 0 0 0x5 0]
  | .ctlLpad label => [ctlWord (0#1 ++ label.extractLsb' 12 4) 0 0xf (label.extractLsb' 0 12)]
  | .memLd d a sz sp o => [memWord 0x10 d a sz sp o]
  | .memLds d a sz sp o => [memWord 0x11 d a sz sp o]
  | .memSt d a sz sp o => [memWord 0x12 d a sz sp o]
  | .memWb a b => [regWord 0x13 0 a b 0x0]
  | .memInv a b => [regWord 0x13 0 a b 0x1]
  | .memPf a => [regWord 0x13 0 a 0 0x2]
  | .memZero a => [regWord 0x13 0 a 0 0x3]
  | .atmSwap d a b sz mo => [regWord 0x18 d a b (atmFn 0x0 sz mo)]
  | .atmCas d a b sz mo => [regWord 0x18 d a b (atmFn 0x1 sz mo)]
  | .atmAdd d a b sz mo => [regWord 0x18 d a b (atmFn 0x2 sz mo)]
  | .atmAnd d a b sz mo => [regWord 0x18 d a b (atmFn 0x3 sz mo)]
  | .atmOr d a b sz mo => [regWord 0x18 d a b (atmFn 0x4 sz mo)]
  | .atmXor d a b sz mo => [regWord 0x18 d a b (atmFn 0x5 sz mo)]
  | .atmMin d a b sz mo => [regWord 0x18 d a b (atmFn 0x6 sz mo)]
  | .atmMax d a b sz mo => [regWord 0x18 d a b (atmFn 0x7 sz mo)]
  | .atmMinu d a b sz mo => [regWord 0x18 d a b (atmFn 0x8 sz mo)]
  | .atmMaxu d a b sz mo => [regWord 0x18 d a b (atmFn 0x9 sz mo)]
  | .synLrw d a => [regWord 0x19 d a 0 0x0]
  | .synScr d a b => [regWord 0x19 d a b 0x8]
  | .synFence c => [regWord 0x19 0 0 0 (scopeFn 0x2 c)]
  | .synWait d a b c => [regWord 0x19 d a b (scopeFn 0x3 c)]
  | .synWake d a b c => [regWord 0x19 d a b (scopeFn 0x4 c)]
  | .thrStart d a => [regWord 0x30 d a 0 0x0]
  | .thrStop d => [regWord 0x30 d 0 0 0x1]
  | .thrCont d => [regWord 0x30 d 0 0 0x2]
  | .thrSpill d a b => [regWord 0x30 d a b 0x3]
  | .thrFill d a b => [regWord 0x30 d a b 0x4]
  | .thrExit => [regWord 0x30 0 0 0 0x5]
  | .thrReap d => [regWord 0x30 d 0 0 0x6]
  | .thrRqpop d => [regWord 0x30 d 0 0 0x7]
  | .thrWatch d => [regWord 0x30 d 0 0 0x8]
  | .thrUnwatch d => [regWord 0x30 d 0 0 0x9]
  | .thrWait => [regWord 0x30 0 0 0 0xa]
  | .thrIdle => [regWord 0x30 0 0 0 0xb]
  | .thrSpawn d a b => [regWord 0x30 d a b 0xc]
  | .thrLaunch d a => [regWord 0x30 d a 0 0xd]
  | .thrBind d a => [regWord 0x30 d a 0 0xe]
  | .thrSemp d => [regWord 0x30 d 0 0 0xf]
  | .thrSemv d => [regWord 0x30 d 0 0 0x10]
  | .thrYield => [regWord 0x30 0 0 0 0x11]
  | .msgDec d a => [regWord 0x31 d a 0 0x0]
  | .msgPut d a b => [regWord 0x31 d a b 0x1]
  | .msgInc d a => [regWord 0x31 d a 0 0x2]
  | .barSync d a b c => [regWord 0x32 d a b (scopeFn 0x0 c)]
  | .barInit d a => [regWord 0x32 d a 0 0x8]
  | .barArrive d a => [regWord 0x32 d a 0 0x10]
  | .barWait d a b => [regWord 0x32 d a b 0x18]
  | .barExpect d a => [regWord 0x32 d a 0 0x20]
  | .barAbort d => [regWord 0x32 d 0 0 0x28]
  | .vfpAdd d a b q grp => [vecWord 0x20 d a b q (grp ++ 0x0#6)]
  | .vfpSub d a b q grp => [vecWord 0x20 d a b q (grp ++ 0x1#6)]
  | .vfpMul d a b q grp => [vecWord 0x20 d a b q (grp ++ 0x2#6)]
  | .vfpFma d a b q grp => [vecWord 0x20 d a b q (grp ++ 0x3#6)]
  | .vfpFms d a b q grp => [vecWord 0x20 d a b q (grp ++ 0x4#6)]
  | .vfpMin d a b q grp => [vecWord 0x20 d a b q (grp ++ 0x5#6)]
  | .vfpMax d a b q grp => [vecWord 0x20 d a b q (grp ++ 0x6#6)]
  | .vfpAbs d a q grp => [vecWord 0x20 d a 0 q (grp ++ 0x7#6)]
  | .vfpNeg d a q grp => [vecWord 0x20 d a 0 q (grp ++ 0x8#6)]
  | .vfpDiv d a b q grp => [vecWord 0x20 d a b q (grp ++ 0x9#6)]
  | .vfpSqrt d a q grp => [vecWord 0x20 d a 0 q (grp ++ 0xa#6)]
  | .vfpExp2 d a q grp => [vecWord 0x20 d a 0 q (grp ++ 0xb#6)]
  | .vfpCeq d a b q => [vecWord 0x20 (qField d) a b q 0xc]
  | .vfpClt d a b q => [vecWord 0x20 (qField d) a b q 0xd]
  | .vfpCle d a b q => [vecWord 0x20 (qField d) a b q 0xe]
  | .vinAdd d a b q grp => [vecWord 0x21 d a b q (grp ++ 0x0#6)]
  | .vinSub d a b q grp => [vecWord 0x21 d a b q (grp ++ 0x1#6)]
  | .vinMul d a b q grp => [vecWord 0x21 d a b q (grp ++ 0x2#6)]
  | .vinMulh d a b q grp => [vecWord 0x21 d a b q (grp ++ 0x3#6)]
  | .vinAnd d a b q grp => [vecWord 0x21 d a b q (grp ++ 0x4#6)]
  | .vinOr d a b q grp => [vecWord 0x21 d a b q (grp ++ 0x5#6)]
  | .vinXor d a b q grp => [vecWord 0x21 d a b q (grp ++ 0x6#6)]
  | .vinShl d a b q grp => [vecWord 0x21 d a b q (grp ++ 0x7#6)]
  | .vinShr d a b q grp => [vecWord 0x21 d a b q (grp ++ 0x8#6)]
  | .vinSar d a b q grp => [vecWord 0x21 d a b q (grp ++ 0x9#6)]
  | .vinMin d a b q grp => [vecWord 0x21 d a b q (grp ++ 0xa#6)]
  | .vinMax d a b q grp => [vecWord 0x21 d a b q (grp ++ 0xb#6)]
  | .vinMinu d a b q grp => [vecWord 0x21 d a b q (grp ++ 0xc#6)]
  | .vinMaxu d a b q grp => [vecWord 0x21 d a b q (grp ++ 0xd#6)]
  | .vinAdds d a b q grp => [vecWord 0x21 d a b q (grp ++ 0xe#6)]
  | .vinSubs d a b q grp => [vecWord 0x21 d a b q (grp ++ 0xf#6)]
  | .vinCeq d a b q => [vecWord 0x21 (qField d) a b q 0x10]
  | .vinClt d a b q => [vecWord 0x21 (qField d) a b q 0x11]
  | .vinCltu d a b q => [vecWord 0x21 (qField d) a b q 0x12]
  | .vmvMov d a q => [vecWord 0x22 d a 0 q 0x0]
  | .vmvBcast d a q => [vecWord 0x22 d a 0 q 0x1]
  | .vmvSel d a b q => [vecWord 0x22 d a b q 0x2]
  | .vmvPerm d a b q => [vecWord 0x22 d a b q 0x3]
  | .vmvRot d a b q => [vecWord 0x22 d a b q 0x4]
  | .vmvIns d a b => [vecWord 0x22 d a b 0 0x5]
  | .vmvExt d a b => [vecWord 0x22 d a b 0 0x6]
  | .vmvQand d a b => [vecWord 0x22 (qField d) (qField a) (qField b) 0 0x7]
  | .vmvQor d a b => [vecWord 0x22 (qField d) (qField a) (qField b) 0 0x8]
  | .vmvQnot d a => [vecWord 0x22 (qField d) (qField a) 0 0 0x9]
  | .vmvQrd d a => [vecWord 0x22 d (qField a) 0 0 0xa]
  | .vmvQwr d a => [vecWord 0x22 (qField d) a 0 0 0xb]
  | .vrdFsum d a q => [vecWord 0x25 d a 0 q 0x0]
  | .vrdFmax d a q => [vecWord 0x25 d a 0 q 0x1]
  | .vrdFmin d a q => [vecWord 0x25 d a 0 q 0x2]
  | .vrdIsum d a q => [vecWord 0x25 d a 0 q 0x3]
  | .vrdImax d a q => [vecWord 0x25 d a 0 q 0x4]
  | .vrdImin d a q => [vecWord 0x25 d a 0 q 0x5]
  | .vrdImaxu d a q => [vecWord 0x25 d a 0 q 0x6]
  | .vrdIminu d a q => [vecWord 0x25 d a 0 q 0x7]
  | .vcv d a q src dst => [vecWord 0x24 d a 0 q (src.code ++ dst.code ++ 0#1)]
  | .vlsLd d a q sp => [vecWord 0x23 d a 0 q (0x0#5 ++ 0#2 ++ sp.code)]
  | .vlsSt d a q sp => [vecWord 0x23 d a 0 q (0x1#5 ++ 0#2 ++ sp.code)]
  | .vlsLds d a b q sp => [vecWord 0x23 d a b q (0x2#5 ++ 0#2 ++ sp.code)]
  | .vlsSts d a b q sp => [vecWord 0x23 d a b q (0x3#5 ++ 0#2 ++ sp.code)]
  | .vlsGath d a b q sp => [vecWord 0x23 d a b q (0x4#5 ++ 0#2 ++ sp.code)]
  | .vlsScat d a b q sp => [vecWord 0x23 d a b q (0x5#5 ++ 0#2 ++ sp.code)]
  | .mtxMma a b z => [engWord 0x2c 0 a b z 0x0]
  | .mtxMmav a b z => [engWord 0x2c 0 a b z 0x1]
  | .mtxCfg d a => [engWord 0x2c d a 0 0 0x2]
  | .mtxSt a b z => [engWord 0x2c 0 a b z 0x3]
  | .mtxLd a z => [engWord 0x2c 0 a 0 z 0x4]
  | .mtxZero z => [engWord 0x2c 0 0 0 z 0x5]
  | .mtxDrain => [engWord 0x2c 0 0 0 0 0x6]
  | .jobCopy d a b => [engWord 0x2d d a b 0 0x0]
  | .jobCopyb d a b => [engWord 0x2d d a b 0 0x1]
  | .jobSubmit d a => [engWord 0x2d d a 0 0 0x2]
  | .jobFpwait d a b => [engWord 0x2d d a b 0 0x3]
  | .jobResume d a b => [engWord 0x2d d a b 0 0x4]
  | .jobPoll d a => [engWord 0x2d d a 0 0 0x5]
  | .dynIclook d a => [regWord 0x34 d a 0 0x0]
  | .dynIcfill a b => [regWord 0x34 0 a b 0x1]
  | .dynIcinv a => [regWord 0x34 0 a 0 0x2]
  | .dynNext d a => [regWord 0x34 d a 0 0x3]
  | .dynRcinc d a => [regWord 0x34 d a 0 0x4]
  | .dynRcdec d a => [regWord 0x34 d a 0 0x5]
  | .dynTag d a => [regWord 0x34 d a 0 0x6]
  | .dynShape d a => [regWord 0x34 d a 0 0x7]
  | .dynBoxf d a => [regWord 0x34 d a 0 0x8]
  | .dynUnboxf d a => [regWord 0x34 d a 0 0x9]
  | .dynBoxi d a => [regWord 0x34 d a 0 0xa]
  | .dynUnboxi d a => [regWord 0x34 d a 0 0xb]
  | .dynGuard a b o => [immWord 0x35 a b o]
  | .sysSrrd d idx => [immWord 0x36 d 0 (0#4 ++ idx)]
  | .sysSrwr d idx => [immWord 0x37 d 0 (0#4 ++ idx)]
  | .sysNow d => [immWord 0x38 d 0 0x0]
  | .sysCapq d a => [immWord 0x38 d a 0x1]
  | .sysXinv d a => [immWord 0x38 d a 0x2]
  | .sysPgref d a => [immWord 0x38 d a 0x3]
  | .sysIflush => [immWord 0x38 0 0 0x4]
  | .sysScall a => [immWord 0x38 0 a 0x5]
  | .sysBrk => [immWord 0x38 0 0 0x6]
  | .sysFreply d a => [immWord 0x38 d a 0x7]
  | .timerArm _ _ => []
  | .timerDisarm _ => []
  | .spawnAnswer _ _ => []
  | .bctabWrite _ _ _ _ => []
  | .reclaimWrite _ _ _ _ => []
  | .migStart _ => []
  | .migRelease _ => []
  | .migClear _ => []
  | .migLineMove _ => []
  | .migReleaseComplete _ => []
  | .timerExpiry _ => []
  | .eventRedirect _ => []
  | .blockTimeout _ _ => []
  | .replyArrival _ _ => []
  | .storeEcho _ _ _ _ => []
  | .postedWriteArrival _ => []
  | .spillImageWrite _ _ => []
  | .fillComplete _ _ => []
  | .contextEnd _ _ => []
  | .msgDecApply _ _ _ => []
  | .msgIncApply _ _ _ => []
  | .msgPutApply _ _ _ _ => []
  | .spawnRequestArrival _ => []
  | .spawnAnswerArrival _ _ _ _ => []
  | .spawnWithdrawal _ _ _ _ => []
  | .launchDieAccept _ _ => []
  | .launchShareStart _ _ _ => []
  | .launchWindowClose _ _ => []
  | .launchQuadReport _ _ _ => []
  | .launchDieReport _ _ _ => []
  | .launchCompletionWrite _ _ => []
  | .reservationHead _ => []
  | .writebackRequest _ _ _ _ => []
  | .writebackAcknowledgement _ _ _ => []
  | .reservationGrant _ _ _ _ => []
  | .generationAdvance _ _ _ => []
  | .scrHomeUpdate _ _ _ _ => []
  | .l1Sweep _ _ => []
  | .llcLocusEviction _ => []
  | .l1Eviction _ _ _ _ => []
  | .atomicLineRecall _ _ => []
  | .fenceProbe _ _ => []
  | .linkRecoveryTimeout _ => []
  | .waitHomeCompare _ _ _ _ _ _ => []
  | .wakeHome _ _ _ _ _ => []
  | .rds _ _ => []
  | .rdx _ _ => []
  | .wbd _ _ _ => []
  | .notice _ _ => []
  | .fwds _ _ _ _ _ => []
  | .fwdx _ _ _ _ _ => []
  | .inv _ _ _ => []
  | .rcl _ _ _ _ => []
  | .probe _ _ => []
  | .hrd _ _ _ _ => []
  | .hwb _ _ _ _ => []
  | .hclr _ _ => []
  | .data _ _ _ _ _ _ _ => []
  | .invack _ _ _ => []
  | .nodata _ _ _ _ _ _ => []
  | .probeack _ _ _ _ _ => []
  | .hack _ _ => []
  | .grant _ _ _ => []
  | .wback _ _ _ => []
  | .rel _ _ => []
  | .hubFailureDeclaration _ _ => []
  | .hubFailureReport _ => []
  | .switchFailure _ => []
  | .mtxEntryExecute _ => []
  | .jobStart _ _ => []
  | .jobComplete _ _ => []
  | .jobFault _ _ _ => []
  | .holdRelease _ _ => []
  | .reclaimPush _ _ _ => []
  | .translationWalk _ => []
  | .faultRecordPost _ => []
  | .faultReply _ _ => []
  | .uncorrectableError _ _ => []
  | .machineCheck _ _ _ => []
  | .machineCheckReply _ _ _ _ => []
  | .fatalMachineCheck _ => []
  | .partitionSwap _ => []
  | .partitionConfigure _ => []
  | .partitionReset _ => []
  | .hostBar2Write _ _ _ _ => []
  | .hostBar2Read _ _ _ => []
  | .ldoor _ _ => []
  | .wcmdAdd _ => []
  | .wcmdRemove _ => []
  | .launchWindowWrite _ _ _ _ => []
  | .getVersion _ => []
  | .getCapabilities _ => []
  | .negotiateAlgorithms _ _ _ => []
  | .getDigests _ => []
  | .getCertificate _ _ => []
  | .challenge _ _ => []
  | .getMeasurements _ _ => []
  | .keyExchange _ => []
  | .finish _ _ => []
  | .endSession _ _ => []
  | .ptmRequest => []
  | .moduleTimeCorrection _ => []
  | .timeSourceLoss => []
  | .moduleReset => []
  | .powerInterval _ _ => []
  | .temperatureHigh _ => []
  | .thermalTrip _ => []
  | .coolantFlowLoss => []
  | .managementSetLimit _ _ => []
  | .illegalInstruction _ _ => []
  | .llcEviction _ _ => []
  | .tdispRequest _ _ => []
  | .ideKeyProgram _ _ => []
  | .ieee1588Message _ _ => []
  | .dieBelow100c _ => []

/-! The six messages of more than seven fields, built from their header (R173). -/

abbrev Hdr.fwds (h : Hdr) (line : Nat) (st : HState) (after : Nat) : Instr :=
  .fwds h.toEnvelope h.req line st after

abbrev Hdr.fwdx (h : Hdr) (line : Nat) (st : HState) (after : Nat) : Instr :=
  .fwdx h.toEnvelope h.req line st after

abbrev Hdr.inv (h : Hdr) (line : Nat) : Instr := .inv h.toEnvelope h.req line

abbrev Hdr.data (h : Hdr) (line : Nat) (data : LineData) (dirty ack excl : Bool) : Instr :=
  .data h.toEnvelope h.req line data dirty ack excl

abbrev Hdr.invack (h : Hdr) (line : Nat) : Instr := .invack h.toEnvelope h.req line

abbrev Hdr.nodata (h : Hdr) (line : Nat) (f : FwdKind) (st : HState) (after : Nat) : Instr :=
  .nodata h.toEnvelope h.req line f st after

/-- An instruction of the opcode map, as against a further step of the machine. -/
def Instr.hasWord (i : Instr) : Bool := !(encode i).isEmpty

end Sys2Proof
end

