-- ==== Sys2Proof/Machine/State.lean ====
section
/-! DEFINITION. The state of the module as plain data, its reset, and the reasons a step can
stop. A core of a partition is named by `k`, core number × 64 + partition (R9, R11, R292: each
partition on a core has its own state); one that is not listed is as reset left it. -/

namespace Sys2Proof.Machine

/-- Sparse memory: bytes at addresses strictly rising, none equal to 0, which an unlisted address
reads as (R296: a reset writes zero to every memory). -/
abbrev Memory := List Host.Cell

/-- The states of a context (R94). -/
inductive CtxSt where
  | free | run | blocked | stopped | trapped | exited | spilling | filling
  deriving DecidableEq, Repr

/-- Who owns a watch, a reservation, a binding or a job: a slot, or a spilled image named by its
local offset (R106, R112, R141). -/
inductive Owner where
  | slot (x : Slot)
  | image (off : Nat)
  deriving DecidableEq, Repr

/-- What a context out of rotation waits for (R92). -/
inductive Wait where
  | token (names : BitVec 32)                   -- the pending among these registers (R93)
  | reply                                       -- a load or check at a home (R92)
  | line (die line : Nat)                       -- an exported line on its way to a die (R161)
  | late (die line : Nat)                       -- one whose data comes too late for it (R162)
  | served (die line : Nat)                     -- one that has come while its partition did not run (R162, R293)
  | room (die : Nat)                            -- an open transaction of the die (R172)
  | walk                                        -- a translation slice (R272)
  | fault                                       -- the reply to a fault record (R266)
  | echo                                        -- the echoes of R133
  | evicted (line : Nat)                        -- a write-back under way (R128)
  | written                                     -- the core's write-backs under way (R136)
  | fence (c : Scope)                           -- R154
  | watch                                       -- THR.WAIT (R112)
  | semp (n : Nat)                              -- THR.SEMP (R104)
  | spawn (id target : Nat) (d : Reg) (wd : Bool)  -- THR.SPAWN (R114); wd: withdrawn, undecided
  | barSync (c : Scope) (inst ch : Nat) (d : Reg)  -- R115
  | barWait (obj : Nat) (d : Reg)               -- R116
  | lrw (req line pa : Nat) (d : Reg)           -- SYN.LRW in a queue (R142)
  | acq (req line rels : Nat)                   -- an ACQ atomic at the home (R153): the releases that it acquires
  | scr (d : Reg)                               -- SYN.SCR's acknowledgement (R143)
  | synWait (va : Nat) (d : Reg)                -- R157
  | synCompare (req : Nat)                      -- R157: the compare at the home
  | wake (d : Reg)                              -- SYN.WAKE's count (R157)
  | matrix                                      -- the matrix queue (R193, R228, R234)
  | jobRoom                                     -- a job window entry (R236)
  | fpwait (jobs : List Nat) (d : Reg)          -- JOB.FPWAIT (R244): the jobs it waits for
  | acks                                        -- the dies' acknowledgements (R308, R323)
  | xinv (asid : Nat) (va : Word) (level : Nat) (dropped : Bool)
      -- those of SYS.XINV for the pages that it covers (R268, R275), which the caches have dropped or not yet
  | power (timed : Bool)                        -- what its die may draw (R334); of an instruction that R101 times
  deriving DecidableEq, Repr

/-- One loop level (R81). -/
structure Loop where
  start : Word
  last  : Word
  count : Word
  deriving DecidableEq, Repr

/-- A thread context (R10, R94). `pc` is also sr.npc (R284). `trapRec` says that a trap is recorded
(status bit 2 of an image, R105), `image` is where a spill in progress writes, `tlen` the length of
the instruction that trapped, `refused`, `card` and `taken` what a JOB.SUBMIT has met, read and done so
far (R242, R243), `skipping` a resumption past an instruction whose length is not
yet known (R281), and `wwrites` the writes of the window that wait for the context's next issue (R282), and `stopping` a stop that waits for a VLS instruction to be over
(R224). -/
structure Ctx where
  st       : CtxSt
  g        : Vector Word 32
  pc       : Word
  loop0    : Loop
  loop1    : Loop
  round    : BitVec 5
  vprog    : BitVec 5
  touched  : Word
  cause    : BitVec 8
  skip     : Bool
  epc      : Word
  tval     : Word
  icmiss   : Word
  blkto    : BitVec 32
  rights   : Bool
  asid     : BitVec 16
  bind     : BitVec 2
  origin   : Bool
  hit      : Bool
  pend     : BitVec 32
  wait     : Option Wait
  deadline : Option Nat
  posted   : List Home
  lost     : Nat
  lostMod  : Nat
  ending   : Bool
  endStop  : Bool
  launch   : Option (Nat × Nat)
  acq      : Option (Nat × Nat)
  refused  : Option Word
  card     : Option LineData
  taken    : Nat
  replies  : Nat
  trapRec  : Bool
  image    : Nat
  tlen     : Option Nat
  skipping : Bool
  fetched  : Option (W32 × W32)
  wwrites  : List (BitVec 12 × Word)
  stopping : Bool
  deriving DecidableEq, Repr

/-- A semaphore (R104). -/
structure Sem where
  count : BitVec 16
  queue : List Slot
  deriving DecidableEq, Repr

/-- An engine's binding and the identifier of its last bind (R103, R106). -/
structure Engine where
  owner : Option Owner
  last  : Option (BitVec 16)
  deriving DecidableEq, Repr

/-- A spill or a fill under way (R106, R107); `tok` is the token register of context 0, none for
an automatic spill (R108). -/
structure Move where
  slot  : Slot
  off   : Nat
  tok   : Option Reg
  deriving DecidableEq, Repr

/-- What follows a spilled context beside its image, which has no place for it: lost writes that its
next fence will report (R133, R155), and the launch share it belongs to (R120). -/
structure Kept where
  lost    : Nat
  lostMod : Nat
  launch  : Option (Nat × Nat)
  deriving DecidableEq, Repr

/-- An operand of an MMA in the operand store (R190, R191, R230). -/
structure Desc where
  fmt   : Nat
  bs    : Bool
  rot   : Nat
  tilep : Nat
  rowp  : Nat
  base  : Nat
  soff  : Nat
  deriving DecidableEq, Repr

/-- An entry of the matrix queue (R228): what the instruction captured. -/
inductive MEntry where
  | mma (a b : Desc) (z : AccReg) (cfg : BitVec 12)
  | mmav (a : Desc) (bfmt : Nat) (bbs : Bool) (bbytes : List (BitVec 8)) (z : AccReg) (cfg : BitVec 12)
  | load (base rowp : Nat) (z : AccReg)
  | zero (z : AccReg)
  deriving DecidableEq, Repr

/-- A byte of the operand store as it was before a store that the next `count` entries of the matrix
queue may or may not see (R235). -/
structure Dirty where
  off   : Nat
  old   : BitVec 8
  count : Nat
  deriving DecidableEq, Repr

/-- A region of a job card (R237). -/
structure Region where
  base  : Word
  len   : Nat
  space : Space
  write : Bool
  obj   : Word
  deriving DecidableEq, Repr

/-- A job card (R237). -/
structure Card where
  kind    : Nat
  bound   : Bool
  sfmt    : Nat
  dfmt    : Nat
  bar     : Nat
  jid     : Nat
  rows    : Nat
  rowlen  : Nat
  spitch  : Nat
  dpitch  : Nat
  scpitch : Nat
  rot     : Nat
  regions : List Region
  deriving DecidableEq, Repr

/-- The states of a job (R236); a job that is leaving is out of the window and releases its holds
(R243, R245). -/
inductive JobSt where
  | waiting | running | failed | leaving
  deriving DecidableEq, Repr

/-- A job of the window (R236), with the instance of the object it is bound to (R116, R247), the
holds not yet released (R304), the slot that issued it, the bytes of each line that it has written (R150), the token value of a job that failed or is leaving (R240), whether a
translation or fault reply is awaited, and the DETAIL of one that was refused. -/
structure Job where
  id     : Nat
  card   : Card
  round  : BitVec 5
  asid   : BitVec 16
  prog   : Nat
  st     : JobSt
  owner  : Owner
  src    : Slot
  tok    : Reg
  inst   : Nat
  holds  : List Word
  result : Nat
  asking : Bool
  refused : Option Nat
  wrote  : List (Nat × LineMask × LineData)
  deriving DecidableEq, Repr

/-- A core as one partition has it: contexts, per-core registers, engines and tables. -/
structure Core where
  ctxs     : Vector Ctx 16
  event    : BitVec 9
  delivery : Bool
  evec     : Word
  timer    : BitVec 32
  spexit   : Word
  area     : BitVec 6
  used     : BitVec 8
  aspill   : Bool
  auto     : Bool
  rqBase   : BitVec 8
  rqEn     : Bool
  sel      : BitVec 4
  gen      : BitVec 4
  sems     : Vector Sem 8
  ready    : Vector (List (BitVec 16)) 4
  ring     : List (BitVec 2 × Nat)
  ringBad  : Bool
  watches  : List (Nat × Owner)
  vecEng   : Engine
  mtxEng   : Engine
  cpyEng   : Engine
  v        : Vector LineData 32
  q        : Vector W32 4
  z        : Vector (Vector W32 256) 4
  mcfg     : BitVec 12
  mqueue   : List MEntry
  mdirty   : List Dirty
  ostore   : Memory
  jobs     : List Job
  resv     : List (Nat × Owner)
  inbox    : List (Nat × SpawnReq)
  inboxAt  : Nat
  spills   : List Move
  fills    : List Move
  kept     : List (Nat × Kept)
  halted   : Bool
  deriving DecidableEq, Repr

/-- Page classes (R127). -/
inductive Cls where
  | rc | so | uo
  deriving DecidableEq, Repr

/-- A line of a slice L1 (R128): `va` is the virtual line address, `pa` the 56-bit physical
address of the line's first byte, key ID included. -/
structure L1Line where
  part  : Nat
  asid  : BitVec 16
  va    : Nat
  pa    : Nat
  cls   : Cls
  wr    : Bool
  stamp : BitVec 4
  dirty : LineMask
  valid : LineMask
  data  : LineData
  deriving DecidableEq, Repr

/-- A line of the atomic line buffer (R152), the most recently used first. `line` is physical
address bits [49:7], `key` the key ID of the last request that filled or wrote it (R26); `pend` is the
pending locus. -/
structure AlbLine where
  line : Nat
  part : Nat
  key  : Nat
  data : LineData
  pend : Option Nat
  deriving DecidableEq, Repr

/-- An entry of the inline cache (R319). -/
structure IcEntry where
  part  : Nat
  asid  : BitVec 16
  ctx   : Slot
  site  : BitVec 24
  shape : BitVec 32
  value : BitVec 63
  deriving DecidableEq, Repr

/-- A fetched line held at a level of fetch (R260): its virtual line, and the physical line, key ID
included, that it was read from. -/
structure FetchLine where
  part : Nat
  asid : BitVec 16
  va   : Nat
  line : Nat
  data : LineData
  deriving DecidableEq, Repr

/-- A leaf in a translation cache (R274). -/
structure XEntry where
  part  : Nat
  asid  : BitVec 16
  page  : Nat
  level : Nat
  pte   : Word
  deriving DecidableEq, Repr

/-- What a physical core holds under partition tags: the slice L1, the atomic line buffer and the
inline cache, least recently used last (R14, R128, R152, R319), the fetch line buffer and the L1 instruction
cache (R260), and the leaves of its copy engine (R274). -/
structure CoreHw where
  l1   : List L1Line
  alb  : List AlbLine
  ic   : List IcEntry
  lbuf : List FetchLine
  l1i  : List FetchLine
  xjob : List XEntry
  deriving DecidableEq, Repr

/-- A quad barrier object (R116) and the contexts that wait on it. `inst` counts its flips and
initialisations, so that a bound copy knows its phase (R116). -/
structure BarObj where
  phase   : Bool
  abort   : Bool
  arr     : BitVec 16
  left    : BitVec 16
  bytes   : Nat
  bytesIn : Nat
  inst    : Nat
  waiters : List (Nat × Slot)
  deriving DecidableEq, Repr

/-- An episode of a `BAR.SYNC` channel (R115). -/
structure SyncChan where
  scope   : Scope
  inst    : Nat
  part    : Nat
  ch      : Nat
  count   : Nat
  arrived : List (Nat × Slot)
  deriving DecidableEq, Repr

/-- A die's copy of an exported line (R167, R169): the state and the data, and the key ID of the last
request that filled or wrote it (R26). -/
structure LlcLine where
  line : Nat
  part : Nat
  key  : Nat
  st   : PState
  data : LineData
  deriving DecidableEq, Repr

/-- An open request of a die (R161, R162), with its number, its transaction number (R172) and whether its
hub has handled it (R339). One past the last number has not been sent: it waits for a number (R180). `early` are
the steps that have waited for it since before it was marked (R162). `pod` says that the switch must answer for it (R187): with the data, or with an
acknowledgement only. -/
structure OpenReq where
  id     : Nat
  txn    : Nat
  seen   : Bool
  line   : Nat
  part   : Nat
  key    : Nat
  excl   : Bool
  marked : Bool
  early  : List Instr
  acks   : Nat
  grant  : Option Nat
  data   : Option (LineData × Bool)
  pod    : Option Bool
  deriving DecidableEq, Repr

/-- A line of the write-back buffer (R176): which acknowledgements it awaits, and whether it has
answered a FwdX, a recall or a probe. -/
structure WbLine where
  line     : Nat
  part     : Nat
  key      : Nat
  data     : LineData
  wbAck    : Bool
  dropped  : Bool
  rels     : Nat
  answered : Bool
  deriving DecidableEq, Repr

/-- Who makes an access: the instruction of a context, or a step of the machine. -/
inductive Asker where
  | ctx (k : Nat) (x : Slot)
  | step (i : Instr)
  deriving DecidableEq, Repr

/-- A line whose data one access that waited for it may use, once, and that no die installs (R162). In the state
`none` it is one whose transaction has failed (R188). -/
structure Once where
  asker : Asker
  copy  : LlcLine
  deriving DecidableEq, Repr

/-- A compute die. `once` holds what it has received for accesses that waited and does not install (R162); `xlat` are the leaves of its 128 translation slices, each under the slice's number (R272, R274). `budget` is what the
power controller lets it spend in this interval, where it holds the die back, `meter` what it has spent and `want` the
most that a start it held back would have spent (R334). -/
structure Die where
  llc      : List LlcLine
  once     : List Once
  reqs     : List OpenReq
  wbuf     : List WbLine
  xlat     : List (Nat × XEntry)
  running  : Option Nat
  linkDown : List Nat
  moved    : Bool
  budget   : Option Nat
  meter    : Nat
  want     : Nat
  halved   : Bool
  powered  : Bool
  deriving DecidableEq, Repr

/-- A directory entry (R168). `chk` is what CHK tells on a read: how many bits stand wrong since the last
write, none, one, which it corrects, or more. `used` orders the ways of a set by use (R171). -/
structure DirEntry where
  st    : HState
  owner : Nat
  ov    : Bool
  coarse : Bool
  ptrs  : List Nat
  vec   : Nat
  pod   : Bool
  part  : Nat
  chk   : Nat
  used  : Nat
  deriving DecidableEq, Repr

/-- A die's last answer to a probe (R178): its state, the data, the key ID that the data is under, and how many of
its answers came from its write-back buffer and await a Rel (R176). -/
structure ProbeAns where
  die  : Nat
  st   : PState
  data : LineData
  key  : Nat
  bufs : Nat
  deriving DecidableEq, Repr

/-- What a hub is doing with a line whose messages it holds (R158, R171, R178, R184). -/
inductive Busy where
  | alloc                                                -- the first message held waits for a way (R171)
  | install (r : Nat)                                    -- a home read for a new entry, for die r
  | recall (acks : List Nat) (owner : Bool) (dirty : Option (LineData × Nat))  -- R171, steps 2 to 5
  | hack                                                 -- R171, step 6
  | hold                                                 -- R184, step 1: requests wait, the rest goes on
  | probe (waiting : List Nat) (answers : List ProbeAns) (own : Option Nat)
      -- R178; `own` is the die whose request the hub has at the switch meanwhile (R187)
  | rebuild (answers : List ProbeAns)                    -- R178, R181: the rebuilt entry waits for a way
  | serve (acks : List Nat) (owner : Bool) (dirty : Option (LineData × Nat)) (own : Option Nat)
      -- R187: the first message held, of the switch, takes the line; `own` has asked the switch for it
  deriving DecidableEq, Repr

/-- A line whose messages a hub holds, in arrival order. -/
structure HubLine where
  line : Nat
  part : Nat
  busy : Busy
  held : List Instr
  deriving DecidableEq, Repr

/-- An entry of a reservation queue (R141): the context, or the image it was spilled to, is found
through the core's reservation table; `req` is the number of its request, `asked` says that it has headed the queue
and the home has acted on the locus for it (R121), `granted` that it holds the reservation. -/
structure QEntry where
  k       : Nat
  x       : Slot
  req     : Nat
  asked   : Bool
  granted : Bool
  deriving DecidableEq, Repr

/-- The metadata of a line at its home (R121, R140): its locus, a core of a partition, its
queue, how many releases it has had, and whether `SYN.LRW` or `SYN.SCR` has used it since the LLC last
evicted it, which makes it a synchronisation line. -/
structure SyncLine where
  used  : Bool
  locus : Option Nat
  queue : List QEntry
  rels  : Nat
  deriving DecidableEq, Repr

/-- Who waits in the wait-and-wake table (R156, R157). -/
inductive Waiter where
  | device (k : Nat) (x : Slot)
  | host (hpa : Word) (count : BitVec 32)
  deriving DecidableEq, Repr

/-- An entry of the wait-and-wake table (R156). -/
structure WaitEntry where
  part : Nat
  asid : BitVec 16
  va   : Nat
  line : Nat
  who  : Waiter
  deriving DecidableEq, Repr

/-- A machine check record outstanding (R277). -/
structure McRec where
  k      : Nat
  x      : Slot
  source : Nat
  ring   : Nat
  slot   : Nat
  deriving DecidableEq, Repr

/-- The states of the migration engine (R182). -/
inductive MigSt where
  | idle | run | done | error
  deriving DecidableEq, Repr

/-- The migration engine of a partition (R182); `releasing` while the release of R185 runs. -/
structure Mig where
  src   : BitVec 44
  dst   : BitVec 44
  bound : Nat
  err   : Nat
  st    : MigSt
  releasing : Bool
  deriving DecidableEq, Repr

/-- A launch window (R298). -/
structure Window where
  slots : Memory
  lasid : BitVec 16
  lstat : List (Nat × Nat)
  wasid : BitVec 16
  wva   : Word
  whpa  : Word
  wres  : Nat
  akey  : BitVec 6
  deriving DecidableEq, Repr

/-- The states of a TDI (R297). -/
inductive TdiSt where
  | unlocked | locked | run | error
  deriving DecidableEq, Repr

/-- A configured partition (R289) and the registers it has of its own; `lostCopies` is the number of dirty
copies that the hubs have reported lost to its service core (R188), `measured` its measurement block 4 (R299),
`mapAt` where its core map lies (R333), and `capped` says that its limit leaves no room in this interval (R334). -/
structure Part where
  cfg     : PartCfg
  stopped : Bool
  asidtab : BitVec 44
  bctab   : List (Nat × Word)
  reclaim : List (Nat × Word)
  mig     : Mig
  win     : Window
  tdi     : TdiSt
  ideKey  : Bool
  limit   : Nat
  lostCopies : Nat
  measured : BitVec 256
  mapAt   : Nat
  capped  : Bool
  deriving DecidableEq, Repr

/-- A launch record (R117). -/
structure LaunchRec where
  diemask  : BitVec 32
  qfirst   : Nat
  qlast    : Nat
  coremask : BitVec 4
  ctx      : Nat
  policy   : Nat
  part     : Nat
  count    : Nat
  entry    : Word
  start    : Nat
  window   : Nat
  period   : Nat
  done     : Word
  a0       : BitVec 32
  a1       : BitVec 32
  a2       : BitVec 32
  a3       : BitVec 32
  deriving DecidableEq, Repr

/-- Who submitted a launch: a context's token, or a slot of a launch window (R118, R298). -/
inductive Submitter where
  | token (k : Nat) (x : Slot) (d : Reg)
  | window (part slot : Nat)
  deriving DecidableEq, Repr

/-- A share that has started or been skipped (R119): its core, its instance, how many of its
contexts have not ended, whether it was skipped, late or moved. -/
structure Share where
  core    : Nat
  inst    : Nat
  live    : Nat
  skipped : Bool
  late    : Bool
  stops   : Nat
  deriving DecidableEq, Repr

/-- A share of an instance that a NEXT policy has moved to a later window (R119). -/
structure Moved where
  core : Nat
  inst : Nat
  into : Nat
  deriving DecidableEq, Repr

/-- An accepted or pending launch (R117 to R120). -/
structure Launch where
  id      : Nat
  by_     : Submitter
  asid    : BitVec 16
  record  : LaunchRec
  answers : List (Nat × Nat)
  active  : Bool
  shares  : List Share
  moved   : List Moved
  quads   : List (Nat × Nat)
  dies    : List (Nat × Nat)
  next    : Nat
  holding : Bool
  deriving DecidableEq, Repr

/-- What the module sends the host, the network and management (R157, R297, R299, R300, R337). -/
inductive HostMsg where
  | wakeRecord (hpa word : Word)
  | readData (data : Nat)
  | unsupported
  | spdm (unit kind payload : Nat)
  | spdmError (unit : Nat)
  | session (unit : Nat) (id : Nat)
  | tdisp (part : Nat) (st : TdiSt)
  | tdispError (part : Nat)
  | ideAck (part : Nat)
  | measurements (unit : Nat) (blocks : List (Nat × BitVec 256))
  | ptm (time : Nat)
  | ieee1588 (hub port : Nat) (m : PtpMsg)
  | mgmt (i : MgmtItem) (values : List Nat)
  deriving DecidableEq, Repr

/-- An SPDM responder (R299): how far its connection has come, and its sessions (number, whether
FINISH has completed it). -/
structure Responder where
  version : Bool
  caps    : Bool
  algs    : Bool
  sessions : List (Nat × Bool)
  deriving DecidableEq, Repr

/-- An entry of the management error log: a packet dropped at ingress (R173), a fatal machine check (R278), a
completion record (R120) or the release of a hold (R304) dropped, a thermal trip of a unit, or the loss of
coolant (R336). -/
inductive LogEntry where
  | packet (part : Nat)
  | fatal (part : Nat)
  | record (part : Nat)
  | hold (part : Nat)
  | thermal (unit : Nat)
  | coolant
  deriving DecidableEq, Repr

/-- A port of IEEE 1588 (R300): when the last Sync arrived, when the last request of path delay left, when it
arrived at the other end (or the Sync left there), when its answer came back, and the path delay measured. -/
structure PtpPort where
  synced  : Nat
  asked   : Nat
  reached : Nat
  back    : Nat
  delay   : Nat
  deriving DecidableEq, Repr

/-- A removal of inline-cache entries that a core has still to make for a `DYN.ICINV` (R308). -/
structure IcRemoval where
  core  : Nat
  k     : Nat
  x     : Slot
  asid  : BitVec 16
  shape : BitVec 32
  deriving DecidableEq, Repr

/-- The context whose instruction executes, the instruction's words, how many home replies it
has used (R92), and the step of the machine that is being performed, if any. The model's own. -/
structure Cur where
  key  : Nat
  slot : Slot
  w0   : W32
  w1   : W32
  used : Nat
  step : Option Instr
  deriving DecidableEq, Repr

/-- The module and its hubs. `switchOut` are the messages for the switch, each with the scale-up port it leaves by
(R187); `failed` the units that have failed since the boot, and `hubFailed` the hub that has (R331); `booted` says
that the boot has not ended at hub 0 (R329), `hotHubs` which hubs are above the bound of R336, `capped` that the
module's limit leaves no room in this interval (R334), and `clockReceiver` which role the module's clock has (R300). -/
structure State where
  cores    : List (Nat × Core)
  hw       : List (Nat × CoreHw)
  objs     : List (Nat × Vector BarObj 16)
  chans    : List SyncChan
  fetch    : List (Nat × FetchLine)
  dies     : List (Nat × Die)
  dir      : List (Nat × DirEntry)
  hub      : List HubLine
  hubDown  : Option Nat
  mem      : Memory
  keys     : List (Nat × Nat)
  views    : List (Nat × Nat × LineData)
  exported : List Nat
  poisoned : List Nat
  memErr   : List Nat
  sync     : List (Nat × SyncLine)
  waits    : List WaitEntry
  faults   : List FaultRec
  checks   : List McRec
  parts    : List (Nat × Part)
  launches : List Launch
  booted   : Bool
  failed    : List Failure
  hubFailed : Option Nat
  retiredCores : List Nat
  retiredDies  : List Nat
  retiredRanges : List (Nat × Nat)
  podMember : Bool
  podModule : BitVec 10
  podModules : List Nat
  podTable : List (Nat × Word)
  unreachable : List Nat
  switchDown : Bool
  cycle    : Nat
  time     : Nat
  timeSrc  : Nat
  slew     : Int
  errlog   : List LogEntry
  draw     : Nat
  moduleLimit : Nat
  capped   : Bool
  hotHubs  : List Nat
  rates    : List (Nat × Nat)
  tests    : List Failure
  blocks   : List (Nat × BitVec 256)
  ptp      : List (Nat × PtpPort)
  clockReceiver : Bool
  ideMgmt  : Bool
  icinv    : List IcRemoval
  responders : List (Nat × Responder)
  hostOut  : List HostMsg
  switchOut : List (Nat × Instr)
  cur      : Cur
  turn     : Nat
  urgent   : List Instr
  retry    : List (Nat × Slot)
  flight   : List Instr
  parked   : List Instr
  inputs   : List (Nat × Instr)
  sched    : List Nat
  choices  : List Bool
  fresh    : Nat
  nextId   : Nat
  deriving DecidableEq, Repr

/-- Why a step stops with a fault. -/
inductive Fault where
  /-- An entry of `inputs` is not a step that the outside or the autonomous hardware takes (an
  instruction, a message between units). Raised by `step`. Safe: the machine has no such input. -/
  | notAnInput
  deriving DecidableEq, Repr

/-- Why the model gives an instruction no meaning. -/
inductive Refusal where
  /-- Raised by an arm of `exec` whose instruction has no meaning yet. Safe: nothing follows. -/
  | notModelled (mnemonic : String)
  deriving DecidableEq, Repr

/-! Reset (R94, R296, R329). -/

def Loop.reset : Loop := ⟨0, 0, 0⟩

def Ctx.reset : Ctx where
  st := .free
  g := Vector.replicate 32 0
  pc := 0
  loop0 := .reset
  loop1 := .reset
  round := 0
  vprog := 0
  touched := 0
  cause := 0
  skip := false
  epc := 0
  tval := 0
  icmiss := 0
  blkto := 0
  rights := false
  asid := 0
  bind := 0
  origin := false
  hit := false
  pend := 0
  wait := none
  deadline := none
  posted := []
  lost := 0
  lostMod := 0
  ending := false
  endStop := false
  launch := none
  acq := none
  refused := none
  card := none
  taken := 0
  replies := 0
  trapRec := false
  image := 0
  tlen := none
  skipping := false
  fetched := none
  wwrites := []
  stopping := false

def Sem.reset : Sem := ⟨0, []⟩

def Engine.reset : Engine := ⟨none, none⟩

def Core.reset : Core where
  ctxs := Vector.replicate 16 .reset
  event := 0
  delivery := false
  evec := 0
  timer := 0
  spexit := 0
  area := 0
  used := 0
  aspill := false
  auto := false
  rqBase := 0
  rqEn := false
  sel := 0
  gen := 0
  sems := Vector.replicate 8 .reset
  ready := Vector.replicate 4 []
  ring := []
  ringBad := false
  watches := []
  vecEng := .reset
  mtxEng := .reset
  cpyEng := .reset
  v := Vector.replicate 32 0
  q := Vector.replicate 4 0
  z := Vector.replicate 4 (Vector.replicate 256 0)
  mcfg := 0xF0F
  mqueue := []
  mdirty := []
  ostore := []
  jobs := []
  resv := []
  inbox := []
  inboxAt := 0
  spills := []
  fills := []
  kept := []
  halted := false

def CoreHw.reset : CoreHw := ⟨[], [], [], [], [], []⟩

/-- A barrier object as a reset leaves it. DESIGN CHOICE: the spec gives no value (log entry 44). -/
def BarObj.reset : BarObj := ⟨false, false, 0, 0, 0, 0, 0, []⟩

def Die.reset : Die := ⟨[], [], [], [], [], none, [], false, none, 0, 0, false, true⟩

def Mig.reset : Mig := ⟨0, 0, 0, 0, .idle, false⟩

def Window.reset : Window := ⟨[], 0, [], 0, 0, 0, 0, 0⟩

def SyncLine.reset : SyncLine := ⟨false, none, [], 0⟩

def Responder.reset : Responder := ⟨false, false, false, []⟩

/-- The machine right after reset, before firmware configures a partition (R329): every context
FREE, every memory zero, nothing in flight. -/
def State.reset : State where
  cores := []
  hw := []
  objs := []
  chans := []
  fetch := []
  dies := []
  dir := []
  hub := []
  hubDown := none
  mem := []
  keys := []
  views := []
  exported := []
  poisoned := []
  memErr := []
  sync := []
  waits := []
  faults := []
  checks := []
  parts := []
  launches := []
  booted := true
  failed := []
  hubFailed := none
  retiredCores := []
  retiredDies := []
  retiredRanges := []
  podMember := false
  podModule := 0
  podModules := []
  podTable := []
  unreachable := []
  switchDown := false
  cycle := 0
  time := 0
  timeSrc := 3
  slew := 0
  errlog := []
  draw := 0
  moduleLimit := 18000
  capped := false
  hotHubs := []
  rates := []
  tests := []
  blocks := Sys2Proof.Config.bootBlocks
  ptp := []
  clockReceiver := false
  ideMgmt := false
  icinv := []
  responders := []
  hostOut := []
  switchOut := []
  cur := ⟨0, 0, 0, 0, 0, none⟩
  turn := 0
  urgent := []
  retry := []
  flight := []
  parked := []
  inputs := []
  sched := []
  choices := []
  fresh := 0
  nextId := 0

end Sys2Proof.Machine
end

