-- ==== Sys2Proof/Machine/Ops.lean ====
section
/-! DEFINITION. The operations that instructions share: tables, bytes of memory, registers,
sequential completion (R83), blocking and replies (R92), issue (R93) and trap entry (R279). -/

namespace Sys2Proof.Machine

/-- What a step answers. -/
abbrev Out := Host.Outcome State Fault Refusal

/-! ## Tables keyed by a number -/

/-- The value listed for `k`. -/
def aget {α : Type} : List (Nat × α) → Nat → Option α
  | [], _ => none
  | (i, v) :: t, k => if i = k then some v else aget t k

/-- The table with `v` for `k`, keys rising. -/
def aset {α : Type} : List (Nat × α) → Nat → α → List (Nat × α)
  | [], k, v => [(k, v)]
  | (i, w) :: t, k, v =>
    if k = i then (k, v) :: t else if k < i then (k, v) :: (i, w) :: t else (i, w) :: aset t k v

/-- The table without `k`. -/
def adel {α : Type} (l : List (Nat × α)) (k : Nat) : List (Nat × α) := l.filter fun e => e.1 ≠ k

/-! ## Bytes of memory -/

/-- The byte at an address: 0 where none is listed (R296). -/
def Memory.read : Memory → Nat → Byte
  | [], _ => 0
  | (i, b) :: t, a => if i = a then b else Memory.read t a

/-- The memory with byte `b` at address `a`, in canonical form. -/
def Memory.write : Memory → Nat → Byte → Memory
  | [], a, b => if b = 0 then [] else [(a, b)]
  | (i, c) :: t, a, b =>
    if a = i then (if b = 0 then t else (a, b) :: t)
    else if a < i then (if b = 0 then (i, c) :: t else (a, b) :: (i, c) :: t)
    else (i, c) :: Memory.write t a b

/-- Every address is at least `lo`, addresses rise strictly, and no byte listed is 0. -/
def Memory.above (lo : Nat) : Memory → Bool
  | [] => true
  | (i, b) :: t => lo ≤ i && b != 0 && Memory.above (i + 1) t

/-- The canonical form. -/
def Memory.wf (m : Memory) : Bool := Memory.above 0 m

/-- The `n` bytes from address `a` as a little-endian number (R3). -/
def Memory.readNat (m : Memory) (a : Nat) : Nat → Nat
  | 0 => 0
  | n + 1 => (m.read a).toNat + 256 * Memory.readNat m (a + 1) n

/-- The memory with the low `n` bytes of `v` from address `a` (R3). -/
def Memory.writeNat (m : Memory) (a : Nat) : Nat → Nat → Memory
  | 0, _ => m
  | n + 1, v => Memory.writeNat (m.write a (BitVec.ofNat 8 v)) (a + 1) n (v / 256)

/-- The memory with those bytes of a line that the mask names, from address `a`. The last
argument counts the bytes looked at. -/
def Memory.writeMask (m : Memory) (a : Nat) (mask : LineMask) (data : LineData) : Nat → Memory
  | 0 => m
  | n + 1 =>
    let m' := Memory.writeMask m a mask data n
    if mask.getLsbD n then m'.write (a + n) (data.extractLsb' (8 * n) 8) else m'

/-- The line of 128 bytes at address `a`. -/
def Memory.line (m : Memory) (a : Nat) : LineData := BitVec.ofNat 1024 (m.readNat a 128)

/-- Each bit of a byte mask, eight times (the last argument counts the bytes). -/
def spread (mask : LineMask) : Nat → Nat
  | 0 => 0
  | n + 1 => spread mask n + if mask.getLsbD n then 255 * 256 ^ n else 0

/-- The bytes of `new` where the mask says so, else those of `old` (R128). -/
def mergeLine (old new : LineData) (mask : LineMask) : LineData :=
  let m : LineData := BitVec.ofNat 1024 (spread mask 128)
  (old &&& ~~~m) ||| (new &&& m)

/-- The mask of `n` bytes of a line from byte `o`. -/
def maskOf (o n : Nat) : LineMask := BitVec.ofNat 128 ((2 ^ n - 1) * 2 ^ o)

/-- A number laid into a line from byte `o`. -/
def placed (o v : Nat) : LineData := BitVec.ofNat 1024 (v * 256 ^ o)

/-- `n` bytes of a line from byte `o`, little-endian. -/
def sliceNat (l : LineData) (o n : Nat) : Nat := l.toNat / 256 ^ o % 256 ^ n

/-! ## Numbers of units (R9 to R11) -/

/-- The core number of a key. -/
def coreOf (k : Nat) : Nat := k / 64

/-- The partition of a key. -/
def partOf (k : Nat) : Nat := k % 64

/-- The key of a core of a partition. -/
def keyOf (core part : Nat) : Nat := core * 64 + part

/-- A line as a partition's accesses match it (R290): the line address under the partition tag. -/
def tagOf (line part : Nat) : Nat := line * 64 + part

/-- The line address of a tagged line. -/
def tagLine (t : Nat) : Nat := t / 64

/-- The die of a core number. -/
def dieOfCore (c : Nat) : Nat := c / 8192

/-- The quad of a core number, counted over the module. -/
def quadOf (c : Nat) : Nat := c / 4

/-- The thread ID (R10). -/
def tidOf (k : Nat) (x : Slot) : Nat := coreOf k * 16 + x.val

/-! ## Reading and changing the state -/

namespace State

def core (s : State) (k : Nat) : Core := (aget s.cores k).getD .reset
def setCore (s : State) (k : Nat) (c : Core) : State := { s with cores := aset s.cores k c }
def modCore (s : State) (k : Nat) (f : Core → Core) : State := s.setCore k (f (s.core k))

def ctx (s : State) (k : Nat) (x : Slot) : Ctx := (s.core k).ctxs[x]
def setCtx (s : State) (k : Nat) (x : Slot) (c : Ctx) : State :=
  s.modCore k fun e => { e with ctxs := e.ctxs.set x c }
def modCtx (s : State) (k : Nat) (x : Slot) (f : Ctx → Ctx) : State := s.setCtx k x (f (s.ctx k x))

def hwOf (s : State) (c : Nat) : CoreHw := (aget s.hw c).getD .reset
def setHw (s : State) (c : Nat) (h : CoreHw) : State := { s with hw := aset s.hw c h }
def modHw (s : State) (c : Nat) (f : CoreHw → CoreHw) : State := s.setHw c (f (s.hwOf c))

def die (s : State) (d : Nat) : Die := (aget s.dies d).getD .reset
def setDie (s : State) (d : Nat) (e : Die) : State := { s with dies := aset s.dies d e }
def modDie (s : State) (d : Nat) (f : Die → Die) : State := s.setDie d (f (s.die d))

/-- The barrier objects of a quad, as a partition has them (R116, R292). -/
def quadObjs (s : State) (q p : Nat) : Vector BarObj 16 :=
  (aget s.objs (keyOf q p)).getD (Vector.replicate 16 .reset)
def setObj (s : State) (q p : Nat) (o : Slot) (b : BarObj) : State :=
  { s with objs := aset s.objs (keyOf q p) ((s.quadObjs q p).set o b) }

/-- The metadata of a line, as a partition's accesses match it (R121, R290): the table's keys are the
line address and the partition tag. -/
def syncLine (s : State) (p line : Nat) : SyncLine := (aget s.sync (tagOf line p)).getD .reset
def setSync (s : State) (p line : Nat) (l : SyncLine) : State :=
  { s with sync := if l = .reset then adel s.sync (tagOf line p) else aset s.sync (tagOf line p) l }

/-- The configuration firmware gives a partition; nothing for one not configured (R289). -/
def emptyCfg : PartCfg :=
  ⟨0, [], [], 0, 0, 0, 0, 0, [], 0, 0, 0, false, 0, [], [], 0, [], [], [], none, [], [], none⟩
def emptyPart : Part := ⟨emptyCfg, false, 0, [], [], .reset, .reset, .unlocked, false, 0, 0, 0, 0, false⟩
def part (s : State) (p : Nat) : Part := (aget s.parts p).getD emptyPart
def cfg (s : State) (p : Nat) : PartCfg := (s.part p).cfg
def setPart (s : State) (p : Nat) (e : Part) : State := { s with parts := aset s.parts p e }
def modPart (s : State) (p : Nat) (f : Part → Part) : State := s.setPart p (f (s.part p))

/-- An entry of the management error log (R337). -/
def log (s : State) (e : LogEntry) : State := { s with errlog := s.errlog ++ [e] }

/-- A step posted and not yet performed. -/
def post (s : State) (i : Instr) : State := { s with flight := s.flight ++ [i] }

/-- A step that waits for something other than a message; it is tried again at the next tick or
when a line arrives. -/
def park (s : State) (i : Instr) : State := { s with parked := s.parked ++ [i] }

/-- Every parked step is tried again before anything else. -/
def unpark (s : State) : State := { s with urgent := s.urgent ++ s.parked, parked := [] }

/-- The next choice between two behaviours that the spec allows. -/
def choice (s : State) : Bool := s.choices.headD false
def dropChoice (s : State) : State := { s with choices := s.choices.tail }

/-- The core, partition and context of the instruction that executes. -/
def key (s : State) : Nat := s.cur.key
def slot (s : State) : Slot := s.cur.slot
def myCore (s : State) : Nat := coreOf s.cur.key
def myPart (s : State) : Nat := partOf s.cur.key
def myDie (s : State) : Nat := dieOfCore s.myCore
def me (s : State) : Ctx := s.ctx s.cur.key s.cur.slot
def mine (s : State) : Core := s.core s.cur.key
def setMe (s : State) (c : Ctx) : State := s.setCtx s.cur.key s.cur.slot c
def modMe (s : State) (f : Ctx → Ctx) : State := s.setMe (f s.me)
def modMine (s : State) (f : Core → Core) : State := s.modCore s.cur.key f

/-- W, the size of a partition's local-memory part, and its base (R125, R291). -/
def window (s : State) (p : Nat) : Nat := (s.cfg p).w
def localBase (s : State) (p : Nat) : Nat := (s.cfg p).base

/-- Whether a feature of R249 is masked for a partition (R250). -/
def masked (s : State) (p f : Nat) : Bool := (s.cfg p).feat.getLsbD f

/-- A present core of a partition (R12, R125). -/
def presentCore (s : State) (p c : Nat) : Bool :=
  c < 262144 && (s.cfg p).dies.contains (dieOfCore c) && !s.retiredCores.contains c
    && !s.retiredDies.contains (dieOfCore c)

end State

/-! ## General registers (R31, R67) -/

/-- A register as an instruction reads it: g0 reads 0. -/
def Ctx.rd (c : Ctx) (r : Reg) : Word := if r = 0 then 0 else c.g[r.toFin]

/-- A register as an instruction writes it: a write of g0 is discarded. -/
def Ctx.wr (c : Ctx) (d : Reg) (v : Word) : Ctx :=
  if d = 0 then c else { c with g := c.g.set d.toFin v }

namespace State

/-- A register of the issuing context. -/
def rg (s : State) (r : Reg) : Word := s.me.rd r

/-- Writes a register of the issuing context. -/
def wg (s : State) (d : Reg) (v : Word) : State := s.modMe fun c => c.wr d v

end State

/-! ## The window of context 0 (R282) -/

/-- A register of a context with a new value (R282). -/
def Ctx.setReg (c : Ctx) (r : Nat) (v : Word) : Ctx :=
  match r with
  | 0x002 => { c with asid := v.extractLsb' 0 16 }
  | 0x003 => { c with rights := v.getLsbD 0 }
  | 0x004 => { c with pc := v, skipping := false }
  | 0x005 => { c with blkto := v.extractLsb' 0 32 }
  | 0x008 => { c with skip := v.getLsbD 16 }
  | 0x00C => { c with round := v.extractLsb' 0 5 }
  | 0x00D => { c with vprog := v.extractLsb' 0 5 }
  | 0x010 => { c with loop0 := { c.loop0 with start := v } }
  | 0x011 => { c with loop0 := { c.loop0 with last := v } }
  | 0x012 => { c with loop0 := { c.loop0 with count := v } }
  | 0x014 => { c with loop1 := { c.loop1 with start := v } }
  | 0x015 => { c with loop1 := { c.loop1 with last := v } }
  | 0x016 => { c with loop1 := { c.loop1 with count := v } }
  | 0x018 => { c with icmiss := v }
  | _ => c

/-- A window index with a new value: 0x120 to 0x13F are the general registers. -/
def Ctx.setWindow (c : Ctx) (i : BitVec 12) (v : Word) : Ctx :=
  if 0x120 ≤ i.toNat then c.wr (BitVec.ofNat 5 (i.toNat - 0x120)) v else c.setReg (i.toNat - 0x100) v

/-- An instruction of the context has issued and is not over, or its fetch is under way. -/
def Ctx.outstanding (c : Ctx) : Bool := c.wait.isSome || c.fetched.isSome

/-- A write through the window takes effect when the context next issues (R282): while an instruction of it
is outstanding, the write waits. -/
def Ctx.throughWindow (c : Ctx) (i : BitVec 12) (v : Word) : Ctx :=
  if c.outstanding || !c.wwrites.isEmpty then { c with wwrites := c.wwrites ++ [(i, v)] } else c.setWindow i v

/-- The context with the writes of the window that wait for its next issue. -/
def Ctx.flushed (c : Ctx) : Ctx :=
  { c.wwrites.foldl (fun c w => c.setWindow w.1 w.2) c with wwrites := [] }

/-! ## Completion (R83) -/

/-- The length of the instruction that executes (R29). -/
def State.len (s : State) : Nat := wordLength s.cur.w0

/-- What a context holds on behalf of one instruction, given up when that instruction is over. -/
def Ctx.settled (c : Ctx) : Ctx :=
  { c with wait := none, deadline := none, fetched := none, replies := 0, acq := none, refused := none,
           card := none, taken := 0 }

/-- The check at the end of level 0, for an instruction at the PC of length `len` (R83). -/
def Ctx.endLevel0 (c : Ctx) (len : Nat) : Ctx :=
  if c.loop0.count ≠ 0 ∧ c.pc = c.loop0.last then
    let n := c.loop0.count - 1
    if n ≠ 0 then { c with loop0 := { c.loop0 with count := n }, pc := c.loop0.start }
    else { c with loop0 := { c.loop0 with count := 0 }, pc := c.pc + BitVec.ofNat 64 len }
  else { c with pc := c.pc + BitVec.ofNat 64 len }

/-- The end check (R83): level 1 first, then level 0, then the next address. -/
def Ctx.advance (c : Ctx) (len : Nat) : Ctx :=
  if c.loop1.count ≠ 0 ∧ c.pc = c.loop1.last then
    let n := c.loop1.count - 1
    if n ≠ 0 then { c with loop1 := { c.loop1 with count := n }, pc := c.loop1.start }
    else Ctx.endLevel0 { c with loop1 := { c.loop1 with count := 0 } } len
  else c.endLevel0 len

namespace State

/-- Sequential completion of the instruction that executes (R83). -/
def seq (s : State) : State := s.modMe fun c => (c.advance s.len).settled

/-- Completion by a transfer to `t`. -/
def jump (s : State) (t : Word) : State := s.modMe fun c => { c.settled with pc := t }

/-- Writes the result and completes sequentially: the shape of most instructions. -/
def result (s : State) (d : Reg) (v : Word) : State := (s.wg d v).seq

end State

/-! ## Events of a core (R97) -/

def evTimer : Nat := 0
def evTrap : Nat := 1
def evReady : Nat := 2
def evSpawn : Nat := 3
def evYield : Nat := 4
def evRqovf : Nat := 5
def evExit : Nat := 6
def evAspill : Nat := 7
def evSvc : Nat := 8

/-- Sets a bit of sr.event (R97); an idle context 0 is redirected in its next owned cycle (R98). -/
def State.raise (s : State) (k n : Nat) : State :=
  s.modCore k fun c => { c with event := c.event ||| BitVec.ofNat 9 (2 ^ n) }

/-- Raises SVC on the service core of a partition. -/
def State.raiseSvc (s : State) (p : Nat) : State := s.raise (keyOf (s.cfg p).svcCore p) evSvc

/-- Raises SVC on the service core of every partition. -/
def State.raiseAllSvc (s : State) : State :=
  (s.parts.filter fun e => !e.2.cfg.dies.isEmpty).foldl (fun s e => s.raiseSvc e.1) s

/-! ## Blocking and replies (R92, R101) -/

/-- The wait of an instruction that has not issued (R93). -/
def Wait.isToken : Wait → Bool
  | .token _ => true
  | _ => false

/-- Data that has come for a context that may not run (R162). -/
def Wait.isServed : Wait → Bool
  | .served _ _ => true
  | _ => false

/-- The waits that sr.blkto times (R101), and those that a budget adds to them (R335). -/
def Wait.timed : Wait → Bool
  | .token _ | .watch | .semp _ | .spawn _ _ _ _ | .barSync _ _ _ _ | .barWait _ _ | .lrw _ _ _ _
  | .synWait _ _ | .synCompare _ | .fpwait _ _ => true
  | .power timed => timed
  | _ => false

/-- The context waits: out of rotation from RUN, in its own state otherwise (R92, R95). The limit of
R101 counts from the moment it left rotation, which is the first wait of its instruction, and is the value
of sr.blkto then, in cycles. -/
def Ctx.blocked (c : Ctx) (w : Wait) : Ctx :=
  { c with
    st := if c.st = .run then .blocked else c.st
    wait := some w
    deadline := if c.fetched.isSome then c.deadline
      else if c.blkto = 0 then none else some (c.blkto.toNat * 1024) }

/-- The issuing context waits; its instruction is kept and executes again on the reply. -/
def State.block (s : State) (w : Wait) : State :=
  s.modMe fun c => { c.blocked w with fetched := some (s.cur.w0, s.cur.w1) }

/-- The waits whose reply an instruction that executes again must not ask for again. -/
def Wait.counted : Wait → Bool
  | .reply | .fence _ => true
  | _ => false

/-- The wait of a context is over (R92, R95): it re-enters rotation. -/
def Ctx.woken (c : Ctx) : Ctx :=
  { c with
    wait := none
    st := if c.st = .blocked then .run else c.st
    replies := if c.wait.any Wait.counted then c.replies + 1 else c.replies }

namespace State

/-- A reply or condition arrives for a context that waits: its instruction executes again, or
completes, at the next step (R92, R339). An instruction that waited for a token has not issued: it is
fetched in the context's next owned cycle (R91, R93). -/
def reply (s : State) (k : Nat) (x : Slot) : State :=
  match (s.ctx k x).wait with
  | none => s
  | some (.token _) => s.modCtx k x fun c => { c.woken with fetched := none, deadline := none }
  | some _ => { s.modCtx k x fun c => c.woken with retry := s.retry ++ [(k, x)] }

/-- A reply to every context that a test of its wait selects, over the cores listed. -/
def replyAll (s : State) (p : Nat → Wait → Bool) : State :=
  s.cores.foldl (fun s e =>
    (List.finRange 16).foldl (fun s x =>
      match (s.ctx e.1 x).wait with
      | some w => if p e.1 w then s.reply e.1 x else s
      | none => s) s) s

/-- A wait of context (k, x) completes with a result: register `d` takes `v`, the instruction
completes sequentially (R83, R92). -/
def finish (s : State) (k : Nat) (x : Slot) (d : Reg) (v : Word) : State :=
  s.modCtx k x fun c =>
    let len := match c.fetched with
      | some (w, _) => wordLength w
      | none => 4
    ((c.woken.wr d v).advance len).settled

/-- A result code arrives in a token register (R93): the register is no longer pending, and an
instruction that waits issues once none of the registers that it names is. Register g0 takes nothing. -/
def token (s : State) (k : Nat) (x : Slot) (d : Reg) (v : Word) : State :=
  let s := s.modCtx k x fun c =>
    { c.wr d v with pend := c.pend &&& ~~~(BitVec.ofNat 32 (2 ^ d.toNat)) }
  match (s.ctx k x).wait with
  | some (.token names) => if (s.ctx k x).pend &&& names = 0 then s.reply k x else s
  | _ => s

/-- A token register becomes pending (R93); g0 discards its result. -/
def setPending (s : State) (d : Reg) : State :=
  s.modMe fun c =>
    if d = 0 then c else { c with pend := c.pend ||| BitVec.ofNat 32 (2 ^ d.toNat) }

/-- The registers that an instruction names, as a mask. -/
def namesOf (rs : List Reg) : BitVec 32 := rs.foldl (fun m r => m ||| BitVec.ofNat 32 (2 ^ r.toNat)) 0

/-- Whether an instruction that names these registers meets a pending one (R93). -/
def pendingOf (s : State) (rs : List Reg) : Bool :=
  rs.any fun r => r != 0 && s.me.pend.getLsbD r.toNat

end State

/-! ## Traps (R279) -/

/-- What a trap writes into its context (R279): the cause, the instruction's address and the
value. `pc` is sr.npc and already holds that address (R281), at which a resumption that SKIP does not ask to pass
begins; a write of sr.npc or of SKIP that waits for the
context's next issue is overtaken by the trap's own (log entry 46). A stop that waited for the instruction to be
over finds the context TRAPPED, and is over too (R95, R224). -/
def Ctx.trapped (c : Ctx) (cause : Nat) (tval : Word) (len : Option Nat) : Ctx :=
  { c.settled with
    tlen := len
    skipping := false
    cause := BitVec.ofNat 8 cause
    skip := false
    epc := c.pc
    tval := tval
    st := if c.st = .spilling then .spilling else .trapped
    trapRec := true
    stopping := false
    wwrites := c.wwrites.filter fun w => w.1 ≠ 0x104 && w.1 ≠ 0x108 }

/-- The length of the instruction that a context waits in; nothing where it waits for the words themselves. -/
def State.trapLen (s : State) (k : Nat) (x : Slot) : Option Nat :=
  (s.ctx k x).fetched.map fun w => wordLength w.1

/-- sr.cause as it reads (R279, R281). -/
def Ctx.causeWord (c : Ctx) : Nat := c.cause.toNat + if c.skip then 0x10000 else 0

/-- What a machine check tells of a context in its slot (R277). -/
def Ctx.check (c : Ctx) (source : Nat) : CheckOf :=
  ⟨source, c.asid.toNat, c.causeWord, c.epc.toNat, c.tval.toNat⟩

/-- Trap entry for an instruction of context (k, x), of a length that may not be known (R95, R102, R277, R279). A
trap of an ending context is discarded (R95). A trap of context 0 is a machine check (R102). -/
def State.trapWith (s : State) (k : Nat) (x : Slot) (cause : Nat) (tval : Word) (len : Option Nat) : State :=
  if (s.ctx k x).ending then
    s.modCtx k x fun c => { c.settled with st := c.st }
  else
    let s := s.modCtx k x fun c => c.trapped cause tval len
    if x = 0 then s.post (.machineCheck k 0 ((s.ctx k 0).check 1)) else s.raise k evTrap

/-- Trap entry for the instruction that a context waits in. -/
def State.trapOf (s : State) (k : Nat) (x : Slot) (cause : Nat) (tval : Word) : State :=
  s.trapWith k x cause tval (s.trapLen k x)

/-- Trap entry for the instruction that executes. -/
def State.trap (s : State) (cause : Nat) (tval : Word) : State :=
  s.trapWith s.cur.key s.cur.slot cause tval (some s.len)

/-- The value of sr.tval for cause 0x01 (R40): the first word, and the second if there is one. -/
def illegalVal (w0 w1 : W32) : Word := if isLong w0 then w1 ++ w0 else zext w0

/-- An illegal instruction (R39, R40, R41). -/
def State.illegal (s : State) : State := s.trap 0x01 (illegalVal s.cur.w0 s.cur.w1)

/-! ## Ways an instruction can stop short -/

/-- An instruction that cannot complete now: it traps, or it waits and executes again (R92), or a transaction
with the pod that it made has failed (R188). -/
inductive Stop where
  | trap (cause : Nat) (tval : Word)
  | block (w : Wait)
  | err
  deriving DecidableEq, Repr

/-- A part of an instruction that may stop it. What it did to the state before it stopped (a
request sent, a progress recorded) stays. -/
abbrev M := EStateM Stop State

/-- Runs a part to its end: completion, trap entry, or blocking. -/
def State.attempt (s : State) (m : M Unit) : State :=
  match m s with
  | .ok _ s' => s'
  | .error (.trap c v) s' => s'.trap c v
  | .error (.block w) s' => s'.block w
  | .error .err s' => s'.trap 0x04 0

/-- Traps when a condition holds. -/
def trapIf (b : Bool) (cause : Nat) (tval : Word) : M Unit :=
  if b then throw (.trap cause tval) else pure ()

/-- A transaction that fails refuses the access, with `sr.tval` the VA (R186, R188). -/
def orTrap {α : Type} (va : Word) (m : M α) : M α :=
  tryCatch m fun e => throw (if e = .err then .trap 0x04 va else e)

/-- A part that only changes the state. -/
def act (f : State → State) : M Unit := modify f

/-- Waits when a condition holds. -/
def blockIf (b : Bool) (w : Wait) : M Unit := if b then throw (.block w) else pure ()

/-- R133, `WaitPostedEchoes()`: every posted write of the context has its echo back. -/
def waitEchoes : M Unit := do
  let s ← get
  blockIf (!s.me.posted.isEmpty) .echo

/-- A reply from a home or another core (R92): the first use of each blocks until it arrives. -/
def awaitReply : M Unit := do
  let s ← get
  if s.cur.used < s.me.replies then
    set { s with cur := { s.cur with used := s.cur.used + 1 } }
  else
    set (s.post (.replyArrival s.key s.slot))
    throw (.block .reply)

/-! ## Issue (R93) -/

/-- An instruction that names registers `rs` issues: it waits for a pending one (R93), and has
its effect otherwise. -/
def issue (rs : List Reg) (s : State) (body : State → State) : Out :=
  .next (if s.pendingOf rs then s.block (.token (State.namesOf rs)) else body s)

/-- The same for an instruction of a feature that may be masked (R41, R249). -/
def issueFeat (f : Nat) (rs : List Reg) (s : State) (body : State → State) : Out :=
  if s.masked s.myPart f then .next s.illegal else issue rs s body

/-- An instruction with parts that may stop it. -/
def issueM (rs : List Reg) (s : State) (body : M Unit) : Out := issue rs s fun s => s.attempt body

/-- A completed event. -/
def done (s : State) : Out := .next s

/-- R103: the issuer is bound to the engine of this code, else cause 0x06. -/
def needBind (code : Nat) : M Unit := do
  let s ← get
  trapIf (s.me.bind.toNat != code) 0x06 0

/-- R89: the issuer is context 0, else cause 0x04. -/
def onlyContext0 : M Unit := do
  let s ← get
  trapIf (s.slot != 0) 0x04 0

/-- R89: the issuer is one of contexts 1 to 15, else cause 0x04. -/
def notContext0 : M Unit := do
  let s ← get
  trapIf (s.slot == 0) 0x04 0

end Sys2Proof.Machine
end

