-- ==== Sys2Proof/Machine/Memory.lean ====
section
/-! DEFINITION. The operations over memory: local memory and its watches (R27, R112, R125), the
physical map (R23 to R26), the LLC level (R166, R167), the atomic line buffer (R152),
translation (R271 to R274), the slice L1 (R128) and the accesses built from them (R131 to R134). -/

namespace Sys2Proof.Machine

/-! ## The physical map (R23) -/

/-- What a location, physical address bits [49:0], is. -/
inductive Place where
  | dram (die : Nat)
  | lcl (core off : Nat)
  | window (part off : Nat)
  | pod (module : Nat)
  | unmapped
  deriving DecidableEq, Repr

/-- R23 and R24. -/
def place (a : Nat) : Place :=
  if a < 0x10000000000 then .dram (a / 0x800000000)
  else if a < 0x100000000000 then .unmapped
  else if a < 0x180000000000 then .dram ((a - 0x100000000000) / 0x4000000000)
  else if a < 0x300000000000 then .unmapped
  else if a < 0x302000000000 then
    .lcl ((a - 0x300000000000) / 0x80000) ((a - 0x300000000000) % 0x80000)
  else if a < 0x380000000000 then .unmapped
  else if a < 0x380000400000 then
    let p := (a - 0x380000000000) / 0x10000
    if p < 32 ∨ p = 63 then .window p ((a - 0x380000000000) % 0x10000) else .unmapped
  else if a < 0x1000000000000 then .unmapped
  else if a < 0x2000000000000 then .pod ((a - 0x1000000000000) / 0x4000000000)
  else .unmapped

/-- The location of a 56-bit physical address, and its key ID (R23). -/
def loc (pa : Nat) : Nat := pa % 2 ^ 50
def keyId (pa : Nat) : Nat := pa / 2 ^ 50 % 64

/-- The line address, physical address bits [49:7] (R165). -/
def lineOf (pa : Nat) : Nat := loc pa / 128

/-- The location of a line's first byte. -/
def lineLoc (line : Nat) : Nat := line * 128

/-- The home die of a line of near memory or LPDDR-6 (R23). -/
def homeDie (line : Nat) : Nat :=
  match place (lineLoc line) with
  | .dram d => d
  | _ => 0

/-- The location of a byte of a core's local memory (R23). -/
def localLoc (core off : Nat) : Nat := 0x300000000000 + core * 0x80000 + off

/-- A line of another module of the pod, or one not homed here (R24). -/
def isPodLine (line : Nat) : Bool :=
  match place (lineLoc line) with
  | .pod _ => true
  | _ => false

/-- The number of a home slice over the module: die × 128 + slice (R132). The slices of the other modules come
after this module's 4,096, those that one value of the hash gives in a module under one number (log entry 41). -/
def sliceOf (line : Nat) : Nat :=
  (match place (lineLoc line) with
   | .pod m => 4096 + m * 128
   | _ => homeDie line * 128) + (Config.sliceHash line).val

namespace State

/-- A location in a retired range of LPDDR-6 (R331, R332). -/
def retiredAt (s : State) (a : Nat) : Bool := s.retiredRanges.any fun r => r.1 ≤ a && a < r.2

/-- The scale-up ports of a partition in service: 36 of each hub, hub 0's first (R181, R187). -/
def portsOf (s : State) (p : Nat) : List Nat := (s.cfg p).ports.filter fun n => s.hubDown.all (· ≠ n / 36)

/-- A partition does not reach a module of the pod: it has no port in service, or the module cannot be reached (R181,
R188). -/
def cutOff (s : State) (p m : Nat) : Bool := s.unreachable.contains m || (s.portsOf p).isEmpty

/-- R25 and R26: an access of partition `p` may use this physical address. -/
def admits (s : State) (p pa : Nat) : Bool :=
  (s.cfg p).keys.contains (keyId pa) &&
  match place (loc pa) with
  | .dram d => (s.cfg p).dies.contains d && !s.retiredDies.contains d && !s.retiredAt (loc pa)
  | .lcl c o => s.presentCore p c && s.localBase p ≤ o && o < s.localBase p + s.window p
  | .window q _ => q == p
  | .pod m => s.podMember && s.podModules.contains m && !s.switchDown && !s.cutOff p m
  | .unmapped => false

/-- A location in the core map of some partition, to which every write is refused (R333): the map stays where it was
written until the partition is reset, or its die alone. -/
def inCoreMap (s : State) (a : Nat) : Bool :=
  s.parts.any fun e =>
    e.2.cfg.dies.contains (e.2.mapAt / 0x800000000) && e.2.mapAt ≤ a && a < e.2.mapAt + 0x10000

/-! ## Local memory (R112, R125) -/

/-- A hit for the owner of a watch (R27): into the slot's bit, waking a context that waits, or
into the image's event word by an atomic OR. DESIGN CHOICE: that OR is itself no store that records hits
(log entry 44). -/
def hitOwner (s : State) (k : Nat) : Owner → State
  | .slot x =>
    if (s.ctx k x).wait = some .watch then
      (s.modCtx k x fun c => { c with hit := true }).reply k x
    else s.modCtx k x fun c => { c with hit := true }
  | .image off =>
    let a := localLoc (coreOf k) (s.localBase (partOf k) + off + 0x1F8)
    { s with mem := s.mem.write a (s.mem.read a ||| 1) }

/-- The hits of a store of `n` bytes at offset `off` of the partition's part of a core (R112):
every watched word of which at least one byte is written. -/
def hits (s : State) (k off n : Nat) : State :=
  (s.core k).watches.foldl
    (fun s e => if e.1 < off + n && off < e.1 + 8 then s.hitOwner k e.2 else s) s

/-- Software's write into the overflow ring while it holds entries leaves them undefined (R111). -/
def spoilRing (s : State) (k off n : Nat) : State :=
  let c := s.core k
  let base := c.rqBase.toNat * 2048
  if !c.ring.isEmpty && base < off + n && off < base + 2048 then
    s.modCore k fun c => { c with ringBad := true }
  else s

/-- A store of the low `n` bytes of `v` to offset `off` of core `k`'s part; the word is written
before its hits are recorded (R27). -/
def storeLocal (s : State) (k off n v : Nat) : State :=
  let a := localLoc (coreOf k) (s.localBase (partOf k) + off)
  (({ s with mem := s.mem.writeNat a n v } : State).hits k off n).spoilRing k off n

/-- The `n` bytes at offset `off` of core `k`'s part. -/
def loadLocal (s : State) (k off n : Nat) : Nat :=
  s.mem.readNat (localLoc (coreOf k) (s.localBase (partOf k) + off)) n

/-- A store of the bytes of a line that a mask names into the window of core `k` at absolute
offset `abs`, with its hits byte by byte (R112, R126). -/
def storeWindow (s : State) (k abs : Nat) (mask : LineMask) (data : LineData) : State :=
  let s : State := { s with mem := s.mem.writeMask (localLoc (coreOf k) abs) mask data 128 }
  let s := s.spoilRing k (abs - s.localBase (partOf k)) 128
  (s.core k).watches.foldl
    (fun s e =>
      let o := s.localBase (partOf k) + e.1
      if (List.range 8).any fun j => abs ≤ o + j && mask.getLsbD (o + j - abs) then
        s.hitOwner k e.2
      else s) s

/-! ## Lines in memory and their keys (R26) -/

/-- The partition that a key ID is granted to (R294). -/
def keyPart (s : State) (key : Nat) : Option Nat :=
  (s.parts.find? fun e => e.2.cfg.keys.contains key).map (·.1)

/-- Two key IDs granted to one partition. -/
def sameOwner (s : State) (a b : Nat) : Bool := (s.keyPart a).isSome && s.keyPart a == s.keyPart b

/-- A line of memory as it stands at its home. -/
def memLine (s : State) (line : Nat) : LineData := s.mem.line (lineLoc line)

/-- What a partition last left in a line that another partition has written since (R290, R295), with
the key ID that it wrote it under. -/
def viewOf (s : State) (line key : Nat) : Option (Nat × LineData) :=
  (s.keyPart key).bind fun p => aget s.views (tagOf line p)

/-- The line's data as a read under key `key` finds it at the home: the plaintext; under another key
of the partition that wrote it last, the plaintext or its decryption, as `choices` says (R26); for
another partition, what that one last left there, or the decryption (R290, R295: log entry 45). -/
def lineUnder (s : State) (line key : Nat) : LineData :=
  let plain := s.memLine line
  match aget s.keys line with
  | none => plain
  | some k =>
    if k = key then plain
    else if s.sameOwner k key then (if s.choice then plain else Config.otherKey k key line plain)
    else
      match s.viewOf line key with
      | some (j, d) => if j = key then d else Config.otherKey j key line d
      | none => Config.otherKey k key line plain

/-- The choice of R26 is used up by an access that met it. -/
def usedChoice (s : State) (line key : Nat) : State :=
  match aget s.keys line with
  | some k => if k ≠ key ∧ s.sameOwner k key then s.dropChoice else s
  | none => s

/-- Before a partition writes a line, what another left there is kept for it (R295). -/
def keepView (s : State) (line key : Nat) : State :=
  match aget s.keys line with
  | some k =>
    if k = key ∨ s.sameOwner k key then s
    else
      let views := match s.keyPart key with
        | some p => adel s.views (tagOf line p)
        | none => s.views
      match s.keyPart k with
      | some q => { s with views := aset views (tagOf line q) (k, s.memLine line) }
      | none => { s with views := views }
  | none => s

/-- Bytes of a line merged into memory at its home under a key (R26). -/
def writeLine (s : State) (line key : Nat) (mask : LineMask) (data : LineData) : State :=
  if (aget s.keys line).all (· = key) then
    { s with
      mem := s.mem.writeMask (lineLoc line) mask data 128
      keys := aset s.keys line key }
  else
    let new := mergeLine (s.lineUnder line key) data mask
    let s := (s.usedChoice line key).keepView line key
    { s with
      mem := s.mem.writeMask (lineLoc line) (BitVec.allOnes 128) new 128
      keys := aset s.keys line key }

/-! ## The responsible hub (R165, R179) -/

end State

/-- The XOR of the bits of a line address (R165). The last argument counts the bits. -/
def parity (line : Nat) : Nat → Nat
  | 0 => 0
  | n + 1 => (parity line n + line / 2 ^ n) % 2

/-- The hub that a line belongs to, a failed one included (R165). -/
def ownHub (line : Nat) : Nat := parity line 43

namespace State

/-- The hub that serves a line now (R179). -/
def hubOf (s : State) (line : Nat) : Nat :=
  match s.hubDown with
  | some h => 1 - h
  | none => ownHub line

/-- The module of a line of the pod window, 0 for a line of this module (MOD of R173). -/
def modOf (line : Nat) : Nat :=
  match place (lineLoc line) with
  | .pod m => m
  | _ => 0

/-! ## Copies at the dies (R167, R169) -/

/-- The die's copy of an exported line, as a partition matches it (R290). -/
def copyOf (s : State) (d p line : Nat) : Option LlcLine :=
  (s.die d).llc.find? fun l => l.line = line && l.part = p

/-- The die's copy replaced, or its first copy of the line. -/
def setCopy (s : State) (d : Nat) (l : LlcLine) : State :=
  s.modDie d fun e => { e with llc := l :: e.llc.filter fun m => ¬ (m.line = l.line ∧ m.part = l.part) }

/-- The die drops its copy. -/
def dropCopy (s : State) (d p line : Nat) : State :=
  s.modDie d fun e => { e with llc := e.llc.filter fun m => ¬ (m.line = line ∧ m.part = p) }

/-- Who makes the access that is being performed. -/
def asker (s : State) : Asker :=
  match s.cur.step with
  | some i => .step i
  | none => .ctx s.cur.key s.cur.slot

/-- What a die has received of a line for the access that is being performed, once (R162, R188). -/
def onceOf (s : State) (d p line : Nat) : Option LlcLine :=
  ((s.die d).once.find? fun o => o.copy.line = line && o.copy.part = p && o.asker = s.asker).map (·.copy)

/-- An access is over: what was received for it alone is gone (R162). -/
def doneWith (s : State) (a : Asker) : State :=
  { s with dies := s.dies.map fun e => (e.1, { e.2 with once := e.2.once.filter fun o => o.asker ≠ a }) }

/-- Whether the home serves the line directly (R166). -/
def isExported (s : State) (p line : Nat) : Bool := s.exported.contains (tagOf line p)

/-- A line that `SYN.LRW` or `SYN.SCR` uses (R140). -/
def isSync (s : State) (p line : Nat) : Bool := (s.syncLine p line).used

/-- The die whose agent acts at a line's home (R167): the home die, or for a line of another module the
first die of the partition (log entry 41). -/
def homeAgent (s : State) (p line : Nat) : Nat :=
  match place (lineLoc line) with
  | .dram d => d
  | _ => ((s.cfg p).dies.min?).getD 0

/-- The die at which an access of a die is performed: that die, but for a synchronisation line, which no
other die holds, its home (R140). -/
def agent (s : State) (d p line : Nat) : Nat := if s.isSync p line then s.homeAgent p line else d

/-- Whether a die is the home of a line that is not exported, and serves it directly (R166). -/
def atHome (s : State) (d p line : Nat) : Bool :=
  place (lineLoc line) == .dram d && !s.isExported p line

/-- A release makes a core the locus of a line (R143, R153). -/
def setLocus (s : State) (p line k : Nat) : State :=
  let l := s.syncLine p line
  s.setSync p line { l with locus := some k, rels := l.rels + 1 }

/-- A line that leaves a core's atomic line buffer: its value goes to the LLC level under its key ID, and a
pending locus becomes the line's locus (R26, R152, R153). -/
def albReturn (s : State) (d : Nat) (l : AlbLine) : State :=
  let d := s.agent d l.part l.line
  let s := match s.copyOf d l.part l.line with
    | some c => s.setCopy d { c with data := l.data, st := .m, key := l.key }
    | none => s.writeLine l.line l.key (BitVec.allOnes 128) l.data
  match l.pend with
  | some k => s.setLocus l.part l.line k
  | none => s

/-- The buffered line of a core. -/
def albLine (s : State) (c p line : Nat) : Option AlbLine :=
  (s.hwOf c).alb.find? fun l => l.line = line && l.part = p

/-- The line leaves a core's buffer. -/
def albDrop (s : State) (c p line : Nat) : State :=
  s.modHw c fun h => { h with alb := h.alb.filter fun m => ¬ (m.line = line ∧ m.part = p) }

/-- The line leaves the atomic line buffer of every core of a die (R152). -/
def albRecall (s : State) (d p line : Nat) : State :=
  s.hw.foldl (fun s e =>
    if dieOfCore e.1 = d then
      match s.albLine e.1 p line with
      | some l => (s.albDrop e.1 p line).albReturn d l
      | none => s
    else s) s

/-- A buffered line changed, and most recently used (R152). -/
def albSet (s : State) (c : Nat) (l : AlbLine) : State :=
  s.modHw c fun h => { h with alb := l :: h.alb.filter fun m => ¬ (m.line = l.line ∧ m.part = l.part) }

/-- The physical address that a migration in progress steers an address of its source frame to, under the
destination's key ID (R183). -/
def steerPa (s : State) (p pa : Nat) : Nat :=
  let m := (s.part p).mig
  let src := loc (m.src.toNat * 4096)
  if m.st != .idle && src ≤ loc pa && loc pa < src + m.bound * 128 then
    m.dst.toNat * 4096 + (loc pa - src)
  else pa

/-- The line of an address as accesses are steered (R183). -/
def steer (s : State) (p pa : Nat) : Nat := lineOf (s.steerPa p pa)

/-- The transaction numbers that a die has open toward the hub of a line (R172). -/
def openTxns (s : State) (d line : Nat) : List Nat :=
  ((s.die d).reqs.filter fun r => s.hubOf r.line = s.hubOf line).map (·.txn)

/-- A die's open request for a line. -/
def openReq (s : State) (d p line : Nat) : Option OpenReq :=
  (s.die d).reqs.find? fun r => r.line = line && r.part = p

/-- A die asks the responsible hub for a line, under a transaction number that is free (R158, R161,
R172). -/
def request (s : State) (d p line key : Nat) (excl : Bool) : State :=
  let used := s.openTxns d line
  let txn := ((List.range 4096).find? fun n => !used.contains n).getD 0
  let h : Hdr := ⟨⟨p, d, 32 + s.hubOf line, txn, key, false, modOf line⟩, d⟩
  let r : OpenReq := ⟨s.nextId, txn, false, line, p, key, excl, false, [], 0, none, none, none⟩
  (({ s with nextId := s.nextId + 1 } : State).modDie d fun e => { e with reqs := e.reqs ++ [r] }).post
    (if excl then .rdx h line else .rds h line)

end State

/-- A die asks for a line, unless it already has, and the access waits for it. An access that comes when
the open RdS is already marked waits for the next request: the marked one's data is older than what the Inv
or the forward announced (R162, R167; DEDUCED: log entry 32). A die with 4,096 transactions open toward the
hub waits for one to end (R172). -/
def awaitLine (d p line key : Nat) (excl : Bool) : M Unit := do
  let s ← get
  match s.openReq d p line with
  | some r => throw (.block (if r.marked then .late d line else .line d line))
  | none =>
    blockIf ((s.openTxns d line).length ≥ 4096) (.room d)
    set (s.request d p line key excl)
    throw (.block (.line d line))

/-- A die's read of a line at the LLC level (R166, R167): at the home while the line is not
exported, otherwise at the die's own copy, which the hub supplies. A copy matches under any key ID
(R26). -/
def readLine (d p pa : Nat) : M LineData := do
  let s ← get
  let pa := s.steerPa p pa
  let line := lineOf pa
  let d := s.agent d p line
  if s.atHome d p line then
    let s := s.albRecall d p line
    set (s.usedChoice line (keyId pa))
    return s.lineUnder line (keyId pa)
  else
    match s.copyOf d p line, s.onceOf d p line with
    | some _, _ =>
      let s := s.albRecall d p line
      set s
      return (s.copyOf d p line).elim 0 (·.data)
    | none, some c => if c.st = .none then throw .err else return c.data
    | none, none =>
      awaitLine d p line (keyId pa) false
      return 0

/-- A die obtains a line so that it may be written (R161, R167): nothing to do at the home of a
line not exported, else the state E or M. -/
def ownLine (d p pa : Nat) : M Unit := do
  let s ← get
  let pa := s.steerPa p pa
  let line := lineOf pa
  let d := s.agent d p line
  if s.atHome d p line then set (s.albRecall d p line)
  else
    if (s.copyOf d p line).any fun c => c.st = .e ∨ c.st = .m then set (s.albRecall d p line)
    else if (s.onceOf d p line).any (·.st = .none) then throw .err
    else awaitLine d p line (keyId pa) true

/-- The bytes of an owned line written at the LLC level under a key (R26, R128, R167). A write of the
whole line clears its poison, and an error of its memory (R188). -/
def State.mergeOwned (s : State) (d p pa : Nat) (mask : LineMask) (data : LineData) : State :=
  let pa := s.steerPa p pa
  let line := lineOf pa
  let d := s.agent d p line
  let s := if mask = BitVec.allOnes 128 then
      { s with
        poisoned := s.poisoned.filter (· ≠ tagOf line p), memErr := s.memErr.filter (· ≠ tagOf line p) }
    else s
  if s.atHome d p line then s.writeLine line (keyId pa) mask data
  else
    match s.copyOf d p line with
    | some c => s.setCopy d { c with st := .m, data := mergeLine c.data data mask, key := keyId pa }
    | none => s

/-- A die's write of some bytes of a line at the LLC level. -/
def writeLlc (d p pa : Nat) (mask : LineMask) (data : LineData) : M Unit := do
  ownLine d p pa
  modify fun s => s.mergeOwned d p pa mask data

/-! ## Translation (R271 to R274) -/

/-- A canonical Sv57 address: bits [63:56] all equal (R125). -/
def canonical (va : Word) : Bool := va.extractLsb' 56 8 = 0 || va.extractLsb' 56 8 = 0xFF

/-- Fields of a leaf (R127, R263, R272). -/
def leafR (pte : Word) : Bool := pte.getLsbD 1
def leafW (pte : Word) : Bool := pte.getLsbD 2
def leafX (pte : Word) : Bool := pte.getLsbD 3
def leafCow (pte : Word) : Bool := pte.getLsbD 56
def leafCls (pte : Word) : Option Cls :=
  match (pte.extractLsb' 54 2).toNat with
  | 0 => some .rc
  | 1 => some .so
  | 2 => some .uo
  | _ => none

/-- The physical address that a leaf at level `lv` gives for a VA (R272). -/
def leafPa (pte va : Word) (lv : Nat) : Nat :=
  (pte.extractLsb' 10 44).toNat * 4096 + va.toNat % 2 ^ (12 + 9 * lv)

/-- What a leaf says to an access (R273). -/
inductive Verdict where
  | ok | refused | cow
  deriving DecidableEq, Repr

def verdict (pte : Word) : Access → Verdict
  | .load | .sync | .jobRead => if leafR pte then .ok else .refused
  | .store | .jobWrite | .launch =>
    if leafW pte then .ok else if leafCow pte then .cow else .refused
  | .atomic =>
    if !leafR pte then .refused else if leafW pte then .ok else if leafCow pte then .cow else .refused
  | .fetch => if leafX pte then .ok else .refused

/-- A translated access: the physical address, its class, whether the leaf allows writing. -/
structure Xlated where
  pa  : Nat
  cls : Cls
  wr  : Bool
  deriving DecidableEq, Repr

/-- An access that may write. -/
def writes : Access → Bool
  | .store | .atomic | .jobWrite | .launch => true
  | .load | .sync | .jobRead | .fetch => false

/-- A fetch reaches neither a local-memory window nor a launch window (R260). -/
def fetchable (a : Nat) : Bool :=
  match place a with
  | .dram _ | .pod _ => true
  | _ => false

/-- The translation slice of a die that an access uses (R272): the XOR of the 7-bit groups of the
identifier and of the page number. -/
def xlatSlice (asid : BitVec 16) (va : Word) : Nat :=
  let page := va.toNat / 4096 % 2 ^ 45
  ((List.range 7).map fun i => page / 2 ^ (7 * i) % 128).foldl (· ^^^ ·)
    (asid.toNat % 128 ^^^ asid.toNat / 128 % 128 ^^^ asid.toNat / 2 ^ 14)

/-- Whether a cached leaf covers a VA under the tags of an access (R274). -/
def XEntry.covers (e : XEntry) (p : Nat) (asid : BitVec 16) (va : Word) : Bool :=
  e.part = p && e.asid = asid && va.toNat / 2 ^ (12 + 9 * e.level) % 2 ^ (45 - 9 * e.level) = e.page

/-- The leaf that the translation slice of a die's access to a VA has cached (R272, R274). -/
def State.cachedLeaf (s : State) (d p : Nat) (asid : BitVec 16) (va : Word) : Option XEntry :=
  ((s.die d).xlat.find? fun e => e.1 = xlatSlice asid va && e.2.covers p asid va).map (·.2)

/-- A slice loses a leaf that it cached. -/
def State.dropLeaf (s : State) (d : Nat) (asid : BitVec 16) (va : Word) (e : XEntry) : State :=
  s.modDie d fun y => { y with xlat := y.xlat.filter (· ≠ (xlatSlice asid va, e)) }

/-- The local address, key ID included, that the pod export table gives for an address of this module's own part of
the pod window (R24, R186): nothing where the hub answers ERR, for an entry that is not valid, is another
partition's, or may only be read. -/
def State.podExport (s : State) (p a : Nat) (reads : Bool) : Option Nat :=
  let off := (a - 0x1000000000000) % 0x4000000000
  (aget s.podTable (off / 0x10000000)).bind fun e =>
    if e.getLsbD 63 && (e.extractLsb' 56 6).toNat = p && (!e.getLsbD 62 || reads) then
      some ((e.extractLsb' 28 28).toNat * 0x10000000 + off % 0x10000000)
    else none

/-- What an address names (R24): in this module's own part of the pod window what the export table says, where
the address's own key ID is granted too (R26); every other address names itself. -/
def State.podResolve (s : State) (p : Nat) (acc : Access) (pa : Nat) : Option Nat :=
  match place (loc pa) with
  | .pod m =>
    if m = s.podModule.toNat then
      if (s.cfg p).keys.contains (keyId pa) then s.podExport p (loc pa) (!writes acc) else none
    else some pa
  | _ => some pa

/-- What a cached or fresh leaf makes of an access: the translation, or nothing where the slice
must walk (once more) or refuse (R25, R26, R126, R273, R274, R333). -/
def State.useLeaf (s : State) (p : Nat) (va : Word) (acc : Access) (pte : Word) (lv : Nat) :
    Option Xlated :=
  match leafCls pte, s.podResolve p acc (leafPa pte va lv) with
  | none, _ => none
  | _, none => none
  | some cls, some pa =>
    if verdict pte acc = .ok && s.admits p pa && (acc != .fetch || fetchable (loc pa))
        && !(writes acc && s.inCoreMap (loc pa)) then
      some ⟨pa, cls, leafW pte && !s.inCoreMap (loc pa)⟩
    else none

/-- The issuing context's translation of a VA (R126, R272): from the leaf that the slice has cached, else
a request to the translation slice, for which the context waits. `twin` is the other part of a split
access. -/
def translateFor (va : Word) (acc : Access) (twin : Option Twin) : M Xlated := do
  let s ← get
  trapIf (!canonical va) 0x04 va
  let walk : M Xlated := do
    let s ← get
    set (s.post (.translationWalk
      ⟨.ctx s.key s.slot, s.myDie, s.myPart, s.me.asid.toNat, va, acc, twin⟩))
    throw (.block .walk)
  match s.cachedLeaf s.myDie s.myPart s.me.asid va with
  | some e =>
    if s.choice then
      set (s.dropChoice.dropLeaf s.myDie s.me.asid va e)
      walk
    else
      set s.dropChoice
      match s.useLeaf s.myPart va acc e.pte e.level with
      | some x => return x
      | none => walk
  | none => walk

/-- The translation of an access that is not split. -/
def translate (va : Word) (acc : Access) : M Xlated := translateFor va acc none

/-! ## The slice L1 (R128) -/

/-- A core's L1 line that covers a VA under a partition and an identifier. -/
def State.l1At (s : State) (c p : Nat) (asid : BitVec 16) (va : Word) : Option L1Line :=
  (s.hwOf c).l1.find? fun l => l.part = p && l.asid = asid && l.va = va.toNat / 128

/-- The issuing core's L1 line that covers a VA under the issuer's tags. -/
def State.l1Line (s : State) (va : Word) : Option L1Line := s.l1At s.myCore s.myPart s.me.asid va

/-- The bytes of a line that a load may hit: dirty ones, and valid ones of a current line (R123,
R128). -/
def L1Line.current (l : L1Line) (gen : BitVec 4) : LineMask :=
  l.dirty ||| if l.cls = .uo ∨ l.stamp = gen then l.valid else 0

/-- A load of `n` bytes from byte `o` hits when every byte may be hit. -/
def L1Line.loadHits (l : L1Line) (gen : BitVec 4) (o n : Nat) : Bool :=
  maskOf o n &&& l.current gen = maskOf o n

/-- A line replaced in, or added to, a core's L1. -/
def State.setL1 (s : State) (c : Nat) (l : L1Line) : State :=
  s.modHw c fun h =>
    { h with l1 := l :: h.l1.filter fun m => ¬ (m.part = l.part ∧ m.asid = l.asid ∧ m.va = l.va) }

/-- A line leaves a core's L1. -/
def State.dropL1 (s : State) (c : Nat) (l : L1Line) : State :=
  s.modHw c fun h =>
    { h with l1 := h.l1.filter fun m => ¬ (m.part = l.part ∧ m.asid = l.asid ∧ m.va = l.va) }

/-- The bytes written into a line, which are then dirty and valid; a stale line first drops its
clean bytes (R128). -/
def L1Line.write (l : L1Line) (gen : BitVec 4) (mask : LineMask) (data : LineData) : L1Line :=
  let valid := if l.cls ≠ .uo ∧ l.stamp ≠ gen then l.valid &&& l.dirty else l.valid
  { l with
    data := mergeLine l.data data mask
    dirty := l.dirty ||| mask
    valid := valid ||| mask
    stamp := gen }

/-- Where the echo of a posted write of a die comes from (R132, R154), and the hub that the write travels
through: for a line homed on another die, one that is exported, or one of another module (R180). -/
def State.homeOf (s : State) (die p pa : Nat) : Home :=
  let pa := s.steerPa p pa
  let line := lineOf pa
  match place (loc pa) with
  | .lcl _ _ | .window _ _ => .window
  | .pod m => .pod m (s.hubOf line)
  | _ => .die (homeDie line) (if s.atHome die p line then none else some (s.hubOf line))

/-- The write-back of a line's dirty bytes (R128): posted to its home, the line stays clean. -/
def State.writeBack (s : State) (c : Nat) (l : L1Line) (by_ : Poster) : State :=
  if l.dirty = 0 then s
  else
    (s.setL1 c { l with dirty := 0 }).post
      (.postedWriteArrival ⟨by_, s.homeOf (dieOfCore c) l.part l.pa, dieOfCore c, l.part, l.pa, l.dirty, l.data⟩)

/-- An evicted line (R128): its dirty bytes are written back and it leaves the L1. -/
def State.evictL1 (s : State) (c : Nat) (l : L1Line) : State :=
  (s.writeBack c l (.evict c)).dropL1 c l

/-- The lines that an L1 has room for: 1,536 KiB (R15). -/
def l1Lines : Nat := 12288

/-- A line enters a core's L1. Past its size a line is evicted: DESIGN CHOICE: the one that was filled or written
longest ago (R15 gives no order; log entry 44). -/
def State.enterL1 (s : State) (c : Nat) (l : L1Line) : State :=
  let s := s.setL1 c l
  match (s.hwOf c).l1[l1Lines]? with
  | some old => s.evictL1 c old
  | none => s

/-- A write-back of core `c`: of an eviction or a write-back request, or of `MEM.WB` or `MEM.INV`. -/
def writeBackOf (w : Posted) (c : Nat) : Bool :=
  match w.by_ with
  | .evict d => d = c
  | .maint k _ => coreOf k = c
  | .store _ _ => false

/-- The steps under way. -/
def State.steps (s : State) : List Instr := s.urgent ++ s.flight ++ s.parked

/-- Whether a write-back of the line by core `c` is still on its way to its home (R128). -/
def State.evictionInFlight (s : State) (c p line : Nat) : Bool :=
  s.steps.any fun i =>
    match i with
    | .postedWriteArrival w => writeBackOf w c && w.part = p && s.steer p w.pa = line
    | _ => false

/-- Whether a write-back that core `c` sent for a partition is still on its way to its home (R146). -/
def State.writeBacksInFlight (s : State) (c p : Nat) : Bool :=
  s.steps.any fun i =>
    match i with
    | .postedWriteArrival w => writeBackOf w c && w.part = p
    | _ => false

/-! ## Posted writes (R132, R133) -/

/-- The bit of sr.touched that a posted write sets (R132, R144): none for a local-memory window. DESIGN
CHOICE: nor for a launch window, of which the spec does not say it (log entry 44). -/
def touchedBit (pa : Nat) : Word :=
  match place (loc pa) with
  | .lcl _ _ | .window _ _ => 0
  | .pod _ => BitVec.ofNat 64 (2 ^ 63)
  | _ => BitVec.ofNat 64 (2 ^ (sliceOf (lineOf pa) % 63))

/-- The posted write of some bytes of one line by a core of a partition. -/
def State.posting (s : State) (k : Nat) (by_ : Poster) (pa : Nat) (mask : LineMask) (data : LineData) : Posted :=
  let d := dieOfCore (coreOf k)
  ⟨by_, s.homeOf d (partOf k) pa, d, partOf k, pa / 128 * 128, mask, data⟩

/-- A context owes the echo of a posted write, which is counted in sr.touched under the home slice that the write
is steered to (R132, R144, R183). -/
def State.owes (s : State) (k : Nat) (x : Slot) (w : Posted) : State :=
  s.modCtx k x fun c => { c with
    posted := c.posted ++ [w.home], touched := c.touched ||| touchedBit (s.steerPa w.part w.pa) }

/-- A posted write for which context (k, x) will have an echo (R132, R136). -/
def State.postWrite (s : State) (k : Nat) (x : Slot) (by_ : Poster) (pa : Nat) (mask : LineMask)
    (data : LineData) : State :=
  let w := s.posting k by_ pa mask data
  (s.owes k x w).post (.postedWriteArrival w)

/-- A posted store of the issuing context. -/
def State.postStore (s : State) (pa : Nat) (mask : LineMask) (data : LineData) : State :=
  s.postWrite s.key s.slot (.store s.key s.slot) pa mask data

/-! ## Device reads (R298) -/

/-- A register of a launch window: the 8-byte word at an offset that is a multiple of 8. -/
def Window.word (w : Window) (pend : Nat) (off : Nat) : Nat :=
  if off < 0x8000 then w.slots.readNat off 8
  else if off = 0x8008 then pend
  else if off = 0x8010 then w.lasid.toNat
  else if 0x9000 ≤ off ∧ off < 0xA000 then (aget w.lstat ((off - 0x9000) / 8)).getD 0xFE
  else if off = 0xA000 then w.wasid.toNat
  else if off = 0xA008 then w.wva.toNat
  else if off = 0xA010 then w.whpa.toNat
  else if off = 0xA020 then w.wres
  else if off = 0xB000 then w.akey.toNat
  else 0

/-- The number of submitted slots not yet answered (R298, LPEND). -/
def Window.pending (w : Window) : Nat := (w.lstat.filter fun e => e.2 = 0xFF).length

/-- `n` bytes of a launch window from an offset. -/
def Window.readNat (w : Window) (off : Nat) : Nat → Nat
  | 0 => 0
  | n + 1 => Window.readNat w off n +
      w.word w.pending ((off + n) / 8 * 8) / 256 ^ ((off + n) % 8) % 256 * 256 ^ n

/-! ## G-space accesses (R126, R128, R131 to R134) -/

/-- How a part of an access will be made: a hit in the L1, or at a physical address. -/
inductive Route where
  | hit (l : L1Line)
  | phys (x : Xlated)
  deriving DecidableEq, Repr

/-- A line of another module that the partition can no longer reach (R25, R188). -/
def State.outOfReach (s : State) (p pa : Nat) : Bool := isPodLine (lineOf pa) && !s.admits p pa

/-- The issuer's L1 line of a VA. No access finds a synchronisation line in an L1 (R140), and a line that can no
longer be reached is looked up afresh, to be refused (R188). -/
def State.l1Look (s : State) (va : Word) : Option L1Line :=
  (s.l1Line va).filter fun l => !s.isSync l.part (s.steer l.part l.pa) && !s.outOfReach l.part l.pa

/-- The class under which a partition's access is made: a synchronisation line is reached as an SO page is (R140). -/
def State.clsAt (s : State) (p : Nat) (x : Xlated) : Cls := if s.isSync p (s.steer p x.pa) then .so else x.cls

/-- The class under which the issuer's access is made. -/
def State.clsOf (s : State) (x : Xlated) : Cls := s.clsAt s.myPart x

/-- A part of a split access as the walk of the other part knows it: by its route, or by the line of the L1 that
it will hit (R42, R134). -/
def Route.twin (va : Word) : Route → Twin
  | .hit l => .known va l.pa false
  | .phys x => .known va x.pa true

def hitTwin (va : Word) : Option L1Line → Twin
  | some l => .known va l.pa false
  | none => .walk va

/-- The route of a load of `n` bytes within one line. -/
def loadRoute (va : Word) (n : Nat) (twin : Option Twin) : M Route := do
  let s ← get
  match s.l1Look va with
  | some l =>
    if l.loadHits s.mine.gen (va.toNat % 128) n then return .hit l
    else return .phys (← translateFor va .load twin)
  | none => return .phys (← translateFor va .load twin)

/-- The route of a store: a hit needs only a line that was filled with write allowed. -/
def storeRoute (va : Word) (twin : Option Twin) : M Route := do
  let s ← get
  match s.l1Look va with
  | some l => if l.wr then return .hit l else return .phys (← translateFor va .store twin)
  | none => return .phys (← translateFor va .store twin)

/-- A core's L1 line of a VA that has been translated afresh stays only where the translation names the same
physical line on an RC or UO page; otherwise it is written back and leaves (R128, R140). -/
def State.freshen (s : State) (c p : Nat) (asid : BitVec 16) (va : Word) (x : Xlated) : State :=
  match s.l1At c p asid va with
  | some l =>
    let cached := match place (loc x.pa) with
      | .lcl _ _ | .window _ _ => false
      | _ => true
    if cached && s.clsAt p x != .so && l.pa = x.pa / 128 * 128 then s else s.evictL1 c l
  | none => s

/-- The same for an access of the issuer. -/
def State.freshFrame (s : State) (va : Word) (x : Xlated) : State :=
  s.freshen s.myCore s.myPart s.me.asid va x

/-- A poisoned line (R188), or, for an access that reads, one whose memory returns an uncorrectable error
(R280). -/
def State.badLine (s : State) (p pa : Nat) (reads : Bool) : Bool :=
  s.poisoned.contains (tagOf (s.steer p pa) p) || (reads && s.memErr.contains (tagOf (s.steer p pa) p))

/-- An access to such a line traps (R188, R280). -/
def poisonCheck (va : Word) (pa : Nat) (reads : Bool) : M Unit := do
  let s ← get
  trapIf (s.badLine s.myPart pa reads) 0x0D va

/-- The check of poison before a part of an access is made (R42). A hit reads no memory, but no access uses a
poisoned line (R188). -/
def routeCheck (va : Word) (reads : Bool) : Route → M Unit
  | .hit l => poisonCheck va l.pa false
  | .phys x =>
    match place (loc x.pa) with
    | .lcl _ _ | .window _ _ => pure ()
    | _ => poisonCheck va x.pa reads

/-- What an access of a line at the LLC level waits for: the echoes of R133 on an SO page, and a write-back
of the line that is on its way (R128). -/
def lineReady (va : Word) (x : Xlated) : M Unit := do
  modify fun s => s.freshFrame va x
  let s ← get
  if s.clsOf x = .so then waitEchoes
  let line := s.steer s.myPart x.pa
  blockIf (s.evictionInFlight s.myCore s.myPart line) (.evicted line)

/-- A line that a load has fetched enters the L1: its dirty bytes stay over the fetched copy, all bytes are
valid, and it takes the stamp (R128). -/
def State.fillL1 (s : State) (va : Word) (x : Xlated) (fetched : LineData) : State :=
  let l : L1Line :=
    match s.l1Line va with
    | some l => { l with data := mergeLine fetched l.data l.dirty, cls := x.cls, wr := x.wr }
    | none => ⟨s.myPart, s.me.asid, va.toNat / 128, x.pa / 128 * 128, x.cls, x.wr, 0, 0, 0, fetched⟩
  s.enterL1 s.myCore { l with valid := BitVec.allOnes 128, stamp := s.mine.gen }

/-- A load of `n` bytes within one line by its route. -/
def loadPart (va : Word) (n : Nat) : Route → M Nat
  | .hit l => return sliceNat l.data (va.toNat % 128) n
  | .phys x => do
    match place (loc x.pa) with
    | .lcl _ _ =>
      modify fun s => s.freshFrame va x
      waitEchoes
      awaitReply
      return (← get).mem.readNat (loc x.pa) n
    | .window p off =>
      modify fun s => s.freshFrame va x
      waitEchoes
      return ((← get).part p).win.readNat off n
    | _ =>
      lineReady va x
      let s ← get
      match s.albLine s.myCore s.myPart (s.steer s.myPart x.pa) with
      | some b =>
        set (s.albSet s.myCore b)
        return sliceNat b.data (x.pa % 128) n
      | none =>
        awaitReply
        let fetched ← orTrap va (readLine s.myDie s.myPart x.pa)
        let s ← get
        if s.clsOf x = .so then return sliceNat fetched (x.pa % 128) n
        let s := s.fillL1 va x fetched
        set s
        return sliceNat ((s.l1Line va).elim 0 (·.data)) (va.toNat % 128) n

/-- What must hold before a store by a route is performed (R128, R132, R133): no echo outstanding
for an SO store, no write-back of the line on its way. -/
def storeReady (va : Word) : Route → M Unit
  | .hit _ => pure ()
  | .phys x =>
    match place (loc x.pa) with
    | .lcl _ _ | .window _ _ => do
      modify fun s => s.freshFrame va x
      waitEchoes
    | _ => lineReady va x

/-- A store of some bytes of one line by its route, once it is ready. DESIGN CHOICE: the bytes of one
line, a whole line of `MEM.ZERO` too, are written in one step (log entry 44). -/
def State.storeVia (s : State) (va : Word) (mask : LineMask) (data : LineData) : Route → State
  | .hit l => s.setL1 s.myCore (l.write s.mine.gen mask data)
  | .phys x =>
    match place (loc x.pa) with
    | .lcl _ _ | .window _ _ => s.postStore x.pa mask data
    | _ =>
      match s.albLine s.myCore s.myPart (s.steer s.myPart x.pa) with
      | some b =>
        s.albSet s.myCore
          { b with data := mergeLine b.data data mask, key := keyId (s.steerPa s.myPart x.pa) }
      | none =>
        if s.clsOf x = .so then s.postStore x.pa mask data
        else
          let l : L1Line :=
            match s.l1Line va with
            | some l => { l with cls := x.cls, wr := x.wr }
            | none => ⟨s.myPart, s.me.asid, va.toNat / 128, x.pa / 128 * 128, x.cls, x.wr,
                s.mine.gen, 0, 0, 0⟩
          s.enterL1 s.myCore (l.write s.mine.gen mask data)

/-- How many of `n` bytes from a VA lie in its line (R134). -/
def headBytes (va : Word) (n : Nat) : Nat := min n (128 - va.toNat % 128)

/-- A G-space load of `n` bytes at a VA (R126, R131, R134): both parts of a split access are
translated and checked before either is performed, and the checks come in the order of R42. DESIGN CHOICE: a second part that begins at a
non-canonical VA traps with that VA (log entry 44). -/
def loadG (va : Word) (n : Nat) : M Nat := do
  trapIf (!canonical va) 0x04 va
  let h := headBytes va n
  if h = n then
    let r ← loadRoute va n none
    routeCheck va true r
    loadPart va n r
  else
    let va2 := va + BitVec.ofNat 64 h
    trapIf (!canonical va2) 0x04 va2
    let s ← get
    let hit := (s.l1Look va2).filter fun l => l.loadHits s.mine.gen (va2.toNat % 128) (n - h)
    let r1 ← loadRoute va h (some (hitTwin va2 hit))
    let r2 ← loadRoute va2 (n - h) (some (r1.twin va))
    routeCheck va true r1
    routeCheck va2 true r2
    let lo ← loadPart va h r1
    let hi ← loadPart va2 (n - h) r2
    return lo + 256 ^ h * hi

/-- A G-space store of the low `n` bytes of `v` at a VA (R126, R131, R134). -/
def storeG (va : Word) (n v : Nat) : M Unit := do
  trapIf (!canonical va) 0x04 va
  let h := headBytes va n
  let o := va.toNat % 128
  if h = n then
    let r ← storeRoute va none
    routeCheck va false r
    storeReady va r
    modify fun s => s.storeVia va (maskOf o n) (placed o (v % 256 ^ n)) r
  else
    let va2 := va + BitVec.ofNat 64 h
    trapIf (!canonical va2) 0x04 va2
    let r1 ← storeRoute va (some (hitTwin va2 (((← get).l1Look va2).filter (·.wr))))
    let r2 ← storeRoute va2 (some (r1.twin va))
    routeCheck va false r1
    routeCheck va2 false r2
    storeReady va r1
    storeReady va2 r2
    modify fun s => (s.storeVia va (maskOf o h) (placed o (v % 256 ^ h)) r1).storeVia va2
      (maskOf 0 (n - h)) (placed 0 (v / 256 ^ h % 256 ^ (n - h))) r2

/-! ## The four spaces (R125) -/

/-- The effective address of the mem format (R125). -/
def effAddr (base : Word) (off : BitVec 11) (size : Nat) : Word :=
  base + BitVec.ofInt 64 (off.toInt * size)

/-- The checks of the own local memory (R125). -/
def checkL (e : Word) (n : Nat) : M Unit := do
  let s ← get
  trapIf (e.toNat % n != 0) 0x03 e
  trapIf (e.toNat + n > s.window s.myPart) 0x04 e

/-- The checks of the operand store (R125). -/
def checkO (e : Word) (n : Nat) : M Unit := do
  trapIf (e.toNat % n != 0) 0x03 e
  trapIf (e.toNat + n > 32768) 0x04 e

/-- The core and the offset of a C-space address (R125). -/
def cCore (e : Word) : Nat := (e.extractLsb' 19 18).toNat
def cOff (e : Word) : Nat := (e.extractLsb' 0 19).toNat

/-- The checks of another core's local memory (R125). -/
def checkC (e : Word) (n : Nat) : M Unit := do
  let s ← get
  trapIf (cOff e % n != 0) 0x03 e
  trapIf (e.extractLsb' 37 27 != 0 || !s.presentCore s.myPart (cCore e)
    || cOff e + n > s.window s.myPart) 0x04 e

/-- `Read(space, e, n)` (R8, R125, R126, R132). -/
def readSpace (sp : Space) (e : Word) (n : Nat) : M Nat :=
  match sp with
  | .g => loadG e n
  | .l => do
    checkL e n
    let s ← get
    return s.loadLocal s.key e.toNat n
  | .o => do
    checkO e n
    return (← get).mine.ostore.readNat e.toNat n
  | .c => do
    checkC e n
    let s ← get
    if cCore e ≠ s.myCore then
      waitEchoes
      awaitReply
    let s ← get
    return s.loadLocal (keyOf (cCore e) s.myPart) (cOff e) n

/-- A store to an operand store; bytes that MMAs already issued may yet read keep their old value
beside them (R235). -/
def Core.storeO (c : Core) (off n v : Nat) : Core :=
  let old := (List.range n).map fun j => Dirty.mk (off + j) (c.ostore.read (off + j)) c.mqueue.length
  { c with
    ostore := c.ostore.writeNat off n v
    mdirty := if c.mqueue.isEmpty then [] else c.mdirty ++ old }

/-- `Write(space, e, n, v)` (R8, R125, R126, R132). -/
def writeSpace (sp : Space) (e : Word) (n v : Nat) : M Unit :=
  match sp with
  | .g => storeG e n v
  | .l => do
    checkL e n
    modify fun s => s.storeLocal s.key e.toNat n v
  | .o => do
    checkO e n
    modify fun s => s.modMine fun c => c.storeO e.toNat n v
  | .c => do
    checkC e n
    let s ← get
    if cCore e ≠ s.myCore then
      waitEchoes
      awaitReply
    modify fun s => s.storeLocal (keyOf (cCore e) s.myPart) (cOff e) n v

/-! ## Instruction fetch (R78, R260) -/

/-- The tag under which a line is fetched (R260). -/
def FetchLine.tagged (f : FetchLine) (p : Nat) (asid : BitVec 16) (va line : Nat) : Bool :=
  f.part = p && f.asid = asid && f.va = va && f.line = line

/-- A fetched line enters the line buffer of a core, of 4 lines, the least recently used leaving. -/
def CoreHw.buffer (h : CoreHw) (f : FetchLine) : CoreHw :=
  { h with lbuf := (f :: h.lbuf.filter fun g => ¬ (g.part = f.part ∧ g.asid = f.asid ∧ g.va = f.va)).take 4 }

/-- A fetched line enters the L1 instruction cache of a core, of 16 KiB. -/
def CoreHw.cacheI (h : CoreHw) (f : FetchLine) : CoreHw :=
  { h with l1i := (f :: h.l1i.filter fun g => ¬ (g.part = f.part ∧ g.asid = f.asid ∧ g.va = f.va)).take 128 }

/-- The quad store drops lines, and with each the lines of the four L1 instruction caches (R260). -/
def State.quadDrop (s : State) (q : Nat) (gone : FetchLine → Bool) : State :=
  let s : State := { s with fetch := s.fetch.filter fun e => ¬ (e.1 = q ∧ gone e.2) }
  (List.range 4).foldl (fun s i => s.modHw (q * 4 + i) fun h => { h with l1i := h.l1i.filter fun f => !gone f }) s

/-- A fetched line enters the quad's store, of 64 KiB. -/
def State.quadFill (s : State) (q : Nat) (f : FetchLine) : State :=
  let s := s.quadDrop q fun g => g.part = f.part && g.asid = f.asid && g.va = f.va
  let s : State := { s with fetch := (q, f) :: s.fetch }
  match (s.fetch.filter fun e => e.1 = q)[512]? with
  | some old => s.quadDrop q fun g => g == old.2
  | none => s

/-- The word at an address, as an instruction fetch (R78, R260): translated as a read that needs X (R275),
then taken from the first level that holds the line, else from the LLC level. At each level that holds it,
`choices` says whether the level has lost it. No level gives a word of a poisoned line (R188), and none
keeps a line that serves the check of a target once, after a flush perhaps (R162, R262). -/
def fetchWordOf (twin : Option Twin) (va : Word) : M W32 := do
  let x ← translateFor va .fetch twin
  poisonCheck va x.pa false
  let s ← get
  let c := s.myCore
  let word := fun (l : LineData) => BitVec.ofNat 32 (sliceNat l (va.toNat % 128) 4)
  let mine := fun (f : FetchLine) => f.tagged s.myPart s.me.asid (va.toNat / 128) (x.pa / 128)
  match (s.hwOf c).lbuf.find? mine with
  | some f =>
    if !s.choice then
      set (s.dropChoice.modHw c fun h => h.buffer f)
      return word f.data
    set (s.dropChoice.modHw c fun h => { h with lbuf := h.lbuf.filter fun f => !mine f })
  | none => pure ()
  let s ← get
  match (s.hwOf c).l1i.find? mine with
  | some f =>
    if !s.choice then
      set (s.dropChoice.modHw c fun h => (h.cacheI f).buffer f)
      return word f.data
    set (s.dropChoice.modHw c fun h => { h with l1i := h.l1i.filter fun f => !mine f })
  | none => pure ()
  let s ← get
  match s.fetch.find? fun e => e.1 = quadOf c && mine e.2 with
  | some (_, f) =>
    if !s.choice then
      set (s.dropChoice.modHw c fun h => (h.cacheI f).buffer f)
      return word f.data
    set (s.dropChoice.quadDrop (quadOf c) mine)
  | none => pure ()
  poisonCheck va x.pa true
  let s ← get
  let line := s.steer s.myPart x.pa
  let home := s.homeAgent s.myPart line
  let data ← orTrap va (readLine home s.myPart x.pa)
  let f : FetchLine := ⟨s.myPart, s.me.asid, va.toNat / 128, x.pa / 128, data⟩
  if s.me.fetched.isNone || (s.onceOf home s.myPart line).isNone then
    modify fun s => (s.quadFill (quadOf c) f).modHw c fun h => (h.cacheI f).buffer f
  return word data

/-- An instruction fetch of an instruction that meets nothing else. -/
def fetchWord (va : Word) : M W32 := fetchWordOf none va

/-- R78: the target of an indirect transfer must be a legal CTL.LPAD with the expected label. -/
def checkTargetOf (twin : Option Twin) (t : Word) (label : BitVec 16) : M Unit := do
  trapIf (t.extractLsb' 0 2 != 0) 0x03 t
  let w ← fetchWordOf twin t
  trapIf (w.extractLsb' 26 6 != 0x1F || fCf w != 0xF || (fD w).extractLsb' 4 1 != 0 || fA w != 0
    || ((fD w).extractLsb' 0 4 ++ fK12 w) != label) 0x02 t

/-- The same for an instruction that meets nothing else. -/
def checkTarget (t : Word) (label : BitVec 16) : M Unit := checkTargetOf none t label

end Sys2Proof.Machine
end

