-- ==== Sys2Proof/Machine/Operands.lean ====
section
/-! DEFINITION. The operand forms: immediates (R32, R72), bit fields (R71), branch targets (R74 to
R76), and the vector and mask forms (R210 to R214). -/

namespace Sys2Proof.Machine

/-- A 16-bit immediate, sign-extended (R72). -/
def imm16 (i : BitVec 16) : Word := i.signExtend 64

/-- A 32-bit immediate, sign-extended (R73). -/
def imm32 (i : BitVec 32) : Word := i.signExtend 64

/-- A branch or jump displacement in words, as bytes (R74, R75). -/
def disp {w : Nat} (o : BitVec w) : Word := o.signExtend 64 * 4

/-- The field that g[b] describes (R71): its lowest bit. -/
def fieldLo (x : Word) : Nat := (x.extractLsb' 0 6).toNat

/-- The field that g[b] describes (R71): its width, cut at bit 63. -/
def fieldWidth (x : Word) : Nat := min ((x.extractLsb' 8 6).toNat + 1) (64 - fieldLo x)

/-- Extraction of a field, sign-extended (R71). -/
def extractField (x f : Word) : Word :=
  let w := fieldWidth f
  ((x >>> fieldLo f) <<< (64 - w)).sshiftRight (64 - w)

/-- Extraction of a field, zero-extended (R71). -/
def extractFieldU (x f : Word) : Word :=
  let w := fieldWidth f
  ((x >>> fieldLo f) <<< (64 - w)) >>> (64 - w)

/-- Insertion of the low bits of `x` into a field of `old` (R71). -/
def insertField (old x f : Word) : Word :=
  let m : Word := BitVec.ofNat 64 ((2 ^ fieldWidth f - 1) * 2 ^ fieldLo f)
  (old &&& ~~~m) ||| ((x <<< fieldLo f) &&& m)

/-- How many of the top bits of `x` are zero, looking at `n` bits from the top (R71). -/
def clz (x : Word) : Nat → Nat
  | 0 => 0
  | n + 1 => if x.getLsbD n then 0 else 1 + clz x n

/-- How many of the low bits of `x` are zero, from bit `i`, looking at `n` bits (R71). -/
def ctz (x : Word) (i : Nat) : Nat → Nat
  | 0 => 0
  | n + 1 => if x.getLsbD i then 0 else 1 + ctz x (i + 1) n

/-- How many of the low `n` bits are one (R71). -/
def popcount (x : Word) : Nat → Nat
  | 0 => 0
  | n + 1 => popcount x n + if x.getLsbD n then 1 else 0

/-- The bytes in reverse order (R71). -/
def bswap (x : Word) : Word :=
  x.extractLsb' 0 8 ++ x.extractLsb' 8 8 ++ x.extractLsb' 16 8 ++ x.extractLsb' 24 8 ++
  x.extractLsb' 32 8 ++ x.extractLsb' 40 8 ++ x.extractLsb' 48 8 ++ x.extractLsb' 56 8

/-- The size of a mem-format access in bytes (R32). -/
def sizeBytes : MSize → Nat
  | .b => 1 | .h => 2 | .w => 4 | .d => 8

/-- The size of an atomic in bytes (R151). -/
def asizeBytes : ASize → Nat
  | .w => 4 | .d => 8

/-- Lane `i` of a vector register (R210). -/
def lane (v : LineData) (i : Nat) : W32 := v.extractLsb' (32 * i) 32

/-- A vector register from its lanes: the first `n` of them from `f`. -/
def lanesOf (f : Nat → W32) : Nat → Nat
  | 0 => 0
  | n + 1 => lanesOf f n + (f n).toNat * 2 ^ (32 * n)

/-- A vector register whose 32 lanes are given (R210). -/
def ofLanes (f : Nat → W32) : LineData := BitVec.ofNat 1024 (lanesOf f 32)

/-- A mask register whose 32 bits are given (R210). -/
def ofBits (f : Nat → Bool) : W32 :=
  BitVec.ofNat 32 ((List.range 32).foldl (fun a i => a + if f i then 2 ^ i else 0) 0)

end Sys2Proof.Machine
end

