-- ==== Sys2Proof/Machine/Control.lean ====
section
/-! DEFINITION. Branches, jumps, long control forms, landing pads, tables and loops (R74 to R84). -/

namespace Sys2Proof.Machine

/-- The PC of the instruction that executes. -/
def State.pc (s : State) : Word := s.me.pc

/-! Branches and jumps (R74, R75). -/

def execBrcEq (a b : Reg) (o : BitVec 16) (s : State) : Out :=
  issue [a, b] s fun s => if s.rg a = s.rg b then s.jump (s.pc + disp o) else s.seq
def execBrcNe (a b : Reg) (o : BitVec 16) (s : State) : Out :=
  issue [a, b] s fun s => if s.rg a ≠ s.rg b then s.jump (s.pc + disp o) else s.seq
def execJmp (o : BitVec 26) (s : State) : Out := issue [] s fun s => s.jump (s.pc + disp o)

/-! Long control forms (R76). -/

def execLngCall (d : Reg) (i : BitVec 32) (s : State) : Out :=
  issue [d] s fun s => (s.wg d (s.pc + 8)).jump (s.pc + imm32 i)
def execLngJmp (i : BitVec 32) (s : State) : Out := issue [] s fun s => s.jump (s.pc + imm32 i)
def execLngLa (d : Reg) (i : BitVec 32) (s : State) : Out :=
  issue [d] s fun s => s.result d (s.pc + imm32 i)

/-! Indirect transfers (R77 to R80). -/

def execCtlJr (a : Reg) (k : BitVec 12) (s : State) : Out :=
  issueM [a] s do
    let t := (← get).rg a
    checkTarget t (k.setWidth 16)
    modify fun s => s.jump t
def execCtlCallr (d a : Reg) (k : BitVec 12) (s : State) : Out :=
  issueM [d, a] s do
    let t := (← get).rg a
    checkTarget t (k.setWidth 16)
    modify fun s => (s.wg d (s.pc + 4)).jump t
def execCtlRet (k : BitVec 12) (s : State) : Out :=
  issueM [1] s do
    let t := (← get).rg 1
    checkTarget t (k.setWidth 16)
    modify fun s => s.jump t
def execCtlJt (d a : Reg) (s : State) : Out :=
  issueM [d, a] s do
    let s ← get
    let base := s.rg a
    trapIf (base.extractLsb' 0 3 != 0) 0x03 base
    let hdr := BitVec.ofNat 64 (← loadG base 8)
    let n := (hdr.extractLsb' 32 32).toNat
    trapIf (n == 0) 0x02 base
    let idx := if (s.rg d).toNat < n then (s.rg d).toNat else 0
    let e ← loadG (base + 8 + BitVec.ofNat 64 (4 * idx)) 4
    let t := base + imm32 (BitVec.ofNat 32 e)
    checkTarget t (hdr.extractLsb' 0 16)
    modify fun s => s.jump t

/-! Loops (R81 to R84). -/

/-- One loop level set (R82). -/
def Ctx.setLoop (c : Ctx) : Level → Loop → Ctx
  | .l0, l => { c with loop0 := l }
  | .l1, l => { c with loop1 := l }

/-- The count of one loop level set (R82, R84). -/
def Ctx.setCount (c : Ctx) : Level → Word → Ctx
  | .l0, n => { c with loop0 := { c.loop0 with count := n } }
  | .l1, n => { c with loop1 := { c.loop1 with count := n } }

/-- A LOOP whose count is nonzero is sequential and R83 applies to it with the loop registers it
has just set; one whose count is zero is a transfer past the body (R82). -/
def execCtlLoop (d : Reg) (l : Level) (n : BitVec 11) (s : State) : Out :=
  issueM [d] s do
    let s ← get
    let cnt := s.rg d
    let e := s.pc + BitVec.ofNat 64 (4 * n.toNat)
    if cnt = 0 then
      let w ← fetchWord e
      modify fun s => (s.modMe fun c => c.setCount l 0).jump (e + BitVec.ofNat 64 (wordLength w))
    else
      modify fun s => (s.modMe fun c => c.setLoop l ⟨s.pc + 4, e, cnt⟩).seq

def execCtlLexit (s : State) : Out :=
  issue [] s fun s =>
    (s.modMe fun c => if c.loop1.count ≠ 0 then c.setCount .l1 0 else c.setCount .l0 0).seq

/-- A landing pad executed in sequence has no effect (R77). -/
def execCtlLpad (_label : BitVec 16) (s : State) : Out := issue [] s fun s => s.seq

end Sys2Proof.Machine
end

