-- ==== Sys2Proof/Machine/Flags.lean ====
section
/-! DEFINITION. Flags. The machine has no flag register: comparisons write a general register or a mask
register (R70, R215, R217), and no floating-point operation keeps a flag (R198). What the spec calls a
flag is a bit of a register of its own: the events of R97 and the bits of sr.cause, sr.icmiss and
sr.touched. Their tests stand here. -/

namespace Sys2Proof.Machine

/-- An event of a core (R97). -/
def Core.hasEvent (c : Core) (n : Nat) : Bool := c.event.getLsbD n

/-- The result of an integer comparison as a register holds it (R70). -/
def flagWord (b : Bool) : Word := ofBool b

end Sys2Proof.Machine
end

