-- ==== Sys2Proof/Machine/Integer.lean ====
section
/-! DEFINITION. Integer arithmetic: ALU (R68), MUL (R69), CMP (R70), BIT (R71), ALI (R72) and the
long arithmetic forms (R73). -/

namespace Sys2Proof.Machine

/-- g[d] := f(g[a], g[b]), in sequence (R67). -/
def binary (d a b : Reg) (f : Word → Word → Word) (s : State) : Out :=
  issue [d, a, b] s fun s => s.result d (f (s.rg a) (s.rg b))

/-- g[d] := f(g[a]), in sequence (R67). -/
def unary (d a : Reg) (f : Word → Word) (s : State) : Out :=
  issue [d, a] s fun s => s.result d (f (s.rg a))

/-- S(x) ≤ S(y) and so on choose one of two registers (R68). -/
def pick (b : Bool) (x y : Word) : Word := if b then x else y

/-! ALU (R68). -/

def execAluAdd (d a b : Reg) (s : State) : Out := binary d a b (fun x y => x + y) s
def execAluSub (d a b : Reg) (s : State) : Out := binary d a b (fun x y => x - y) s
def execAluAnd (d a b : Reg) (s : State) : Out := binary d a b (fun x y => x &&& y) s
def execAluOr (d a b : Reg) (s : State) : Out := binary d a b (fun x y => x ||| y) s
def execAluXor (d a b : Reg) (s : State) : Out := binary d a b (fun x y => x ^^^ y) s
def execAluAndn (d a b : Reg) (s : State) : Out := binary d a b (fun x y => x &&& ~~~y) s
/-- A shift count is g[b][5:0] for 64-bit shifts (R68). -/
def count6 (y : Word) : Nat := (y.extractLsb' 0 6).toNat
/-- A shift count is g[b][4:0] for W forms (R68). -/
def count5 (y : Word) : Nat := (y.extractLsb' 0 5).toNat
def execAluShl (d a b : Reg) (s : State) : Out := binary d a b (fun x y => x <<< count6 y) s
def execAluShr (d a b : Reg) (s : State) : Out := binary d a b (fun x y => x >>> count6 y) s
def execAluSar (d a b : Reg) (s : State) : Out := binary d a b (fun x y => x.sshiftRight (count6 y)) s
def execAluAddw (d a b : Reg) (s : State) : Out := binary d a b (fun x y => se32 (x + y)) s
def execAluSubw (d a b : Reg) (s : State) : Out := binary d a b (fun x y => se32 (x - y)) s
def execAluShlw (d a b : Reg) (s : State) : Out := binary d a b (fun x y => se32 (x <<< count5 y)) s
def execAluShrw (d a b : Reg) (s : State) : Out :=
  binary d a b (fun x y => se32 (zext (x.extractLsb' 0 32) >>> count5 y)) s
def execAluSarw (d a b : Reg) (s : State) : Out :=
  binary d a b (fun x y => se32 ((se32 x).sshiftRight (count5 y))) s
def execAluMin (d a b : Reg) (s : State) : Out := binary d a b (fun x y => pick (x.sle y) x y) s
def execAluMax (d a b : Reg) (s : State) : Out := binary d a b (fun x y => pick (y.sle x) x y) s
def execAluMinu (d a b : Reg) (s : State) : Out := binary d a b (fun x y => pick (x.ule y) x y) s
def execAluMaxu (d a b : Reg) (s : State) : Out := binary d a b (fun x y => pick (y.ule x) x y) s
def execAluSel (d a b : Reg) (s : State) : Out :=
  issue [d, a, b] s fun s => s.result d (if s.rg d ≠ 0 then s.rg a else s.rg b)

/-! MUL (R69). -/

/-- Bits [127:64] of an exact product. -/
def high64 (p : Int) : Word := BitVec.ofInt 64 (p / 2 ^ 64)

/-- S(g[a]) ÷ S(g[b]) truncated toward zero, with the two fixed results of R69. -/
def divide (x y : Word) : Word := if y = 0 then BitVec.allOnes 64 else BitVec.ofInt 64 (x.toInt.tdiv y.toInt)

/-- The remainder, whose sign follows the dividend (R69). -/
def remainder (x y : Word) : Word := if y = 0 then x else BitVec.ofInt 64 (x.toInt - y.toInt * x.toInt.tdiv y.toInt)

def divideU (x y : Word) : Word := if y = 0 then BitVec.allOnes 64 else x / y
def remainderU (x y : Word) : Word := if y = 0 then x else x % y

def execMulMul (d a b : Reg) (s : State) : Out := binary d a b (fun x y => x * y) s
def execMulMulh (d a b : Reg) (s : State) : Out := binary d a b (fun x y => high64 (x.toInt * y.toInt)) s
def execMulMulhu (d a b : Reg) (s : State) : Out := binary d a b (fun x y => high64 (x.toNat * y.toNat)) s
def execMulMulw (d a b : Reg) (s : State) : Out := binary d a b (fun x y => se32 (x * y)) s
def execMulDiv (d a b : Reg) (s : State) : Out := binary d a b divide s
def execMulDivu (d a b : Reg) (s : State) : Out := binary d a b divideU s
def execMulRem (d a b : Reg) (s : State) : Out := binary d a b remainder s
def execMulRemu (d a b : Reg) (s : State) : Out := binary d a b remainderU s

/-! CMP (R70). -/

def execCmpEq (d a b : Reg) (s : State) : Out := binary d a b (fun x y => ofBool (x == y)) s
def execCmpNe (d a b : Reg) (s : State) : Out := binary d a b (fun x y => ofBool (x != y)) s
def execCmpLt (d a b : Reg) (s : State) : Out := binary d a b (fun x y => ofBool (x.slt y)) s
def execCmpLtu (d a b : Reg) (s : State) : Out := binary d a b (fun x y => ofBool (x.ult y)) s
def execCmpLe (d a b : Reg) (s : State) : Out := binary d a b (fun x y => ofBool (x.sle y)) s
def execCmpLeu (d a b : Reg) (s : State) : Out := binary d a b (fun x y => ofBool (x.ule y)) s

/-! BIT (R71). -/

def execBitExt (d a b : Reg) (s : State) : Out := binary d a b extractField s
def execBitExtu (d a b : Reg) (s : State) : Out := binary d a b extractFieldU s
def execBitIns (d a b : Reg) (s : State) : Out :=
  issue [d, a, b] s fun s => s.result d (insertField (s.rg d) (s.rg a) (s.rg b))
def execBitClz (d a : Reg) (s : State) : Out := unary d a (fun x => BitVec.ofNat 64 (clz x 64)) s
def execBitCtz (d a : Reg) (s : State) : Out := unary d a (fun x => BitVec.ofNat 64 (ctz x 0 64)) s
def execBitPop (d a : Reg) (s : State) : Out := unary d a (fun x => BitVec.ofNat 64 (popcount x 64)) s
def execBitBswap (d a : Reg) (s : State) : Out := unary d a bswap s

/-! ALI (R72). -/

def execAliAdd (d a : Reg) (i : BitVec 16) (s : State) : Out := unary d a (fun x => x + imm16 i) s
def execAliAnd (d a : Reg) (i : BitVec 16) (s : State) : Out := unary d a (fun x => x &&& zext i) s
def execAliOr (d a : Reg) (i : BitVec 16) (s : State) : Out := unary d a (fun x => x ||| zext i) s
def execAliXor (d a : Reg) (i : BitVec 16) (s : State) : Out := unary d a (fun x => x ^^^ zext i) s
def execAliShl (d a : Reg) (i : BitVec 6) (s : State) : Out := unary d a (fun x => x <<< i.toNat) s
def execAliShr (d a : Reg) (i : BitVec 6) (s : State) : Out := unary d a (fun x => x >>> i.toNat) s
def execAliSar (d a : Reg) (i : BitVec 6) (s : State) : Out := unary d a (fun x => x.sshiftRight i.toNat) s
def execAliAddw (d a : Reg) (i : BitVec 16) (s : State) : Out := unary d a (fun x => se32 (x + imm16 i)) s
def execAliLui (d : Reg) (i : BitVec 16) (s : State) : Out :=
  issue [d] s fun s => s.result d (se32 (zext i <<< 16))
def execAliSlt (d a : Reg) (i : BitVec 16) (s : State) : Out := unary d a (fun x => ofBool (x.slt (imm16 i))) s

/-! LNG arithmetic (R73). -/

def execLngLi (d : Reg) (i : BitVec 32) (s : State) : Out := issue [d] s fun s => s.result d (imm32 i)
def execLngLih (d a : Reg) (i : BitVec 32) (s : State) : Out := unary d a (fun x => i ++ x.extractLsb' 0 32) s
def execLngAdd (d a : Reg) (i : BitVec 32) (s : State) : Out := unary d a (fun x => x + imm32 i) s
def execLngAnd (d a : Reg) (i : BitVec 32) (s : State) : Out := unary d a (fun x => x &&& imm32 i) s
def execLngOr (d a : Reg) (i : BitVec 32) (s : State) : Out := unary d a (fun x => x ||| zext i) s
def execLngXor (d a : Reg) (i : BitVec 32) (s : State) : Out := unary d a (fun x => x ^^^ zext i) s

end Sys2Proof.Machine
end

