-- ==== Sys2Proof/Machine/LoadStore.lean ====
section
/-! DEFINITION. Loads and stores (R131), and cache maintenance (R136 to R138). -/

namespace Sys2Proof.Machine

/-- The address a mem-format access forms (R125). -/
def memAddr (s : State) (a : Reg) (sz : MSize) (o : BitVec 11) : Word := effAddr (s.rg a) o (sizeBytes sz)

/-- A value of `n` bytes, sign-extended (R131). -/
def signed (n x : Nat) : Word := (BitVec.ofNat (8 * n) x).signExtend 64

def execMemLd (d a : Reg) (sz : MSize) (sp : Space) (o : BitVec 11) (s : State) : Out :=
  issueM [d, a] s do
    let x ← readSpace sp (memAddr (← get) a sz o) (sizeBytes sz)
    modify fun s => s.result d (BitVec.ofNat 64 x)

def execMemLds (d a : Reg) (sz : MSize) (sp : Space) (o : BitVec 11) (s : State) : Out :=
  issueM [d, a] s do
    let x ← readSpace sp (memAddr (← get) a sz o) (sizeBytes sz)
    modify fun s => s.result d (signed (sizeBytes sz) x)

def execMemSt (d a : Reg) (sz : MSize) (sp : Space) (o : BitVec 11) (s : State) : Out :=
  issueM [d, a] s do
    let s ← get
    writeSpace sp (memAddr s a sz o) (sizeBytes sz) ((s.rg d).toNat % 256 ^ (sizeBytes sz))
    modify fun s => s.seq

/-! Maintenance -/

/-- R136: the lines of the issuer's tags that overlap [base, base + len). -/
def State.covered (s : State) (base : Word) (len : Nat) : List L1Line :=
  (s.hwOf s.myCore).l1.filter fun l =>
    l.part = s.myPart && l.asid = s.me.asid && base.toNat ≤ l.va * 128 + 127
      && l.va * 128 < base.toNat + len

/-- The write-back of one line on behalf of the issuing context (R133, R136): posted, with an
echo owed, and counted in sr.touched. -/
def State.writeBackPosted (s : State) (l : L1Line) : State :=
  if l.dirty = 0 then s
  else (s.setL1 s.myCore { l with dirty := 0 }).postWrite s.key s.slot (.maint s.key s.slot) l.pa l.dirty l.data

/-- The range check of R136. -/
def rangeCheck (base : Word) (len : Word) : M Unit :=
  trapIf (len.toNat > 0x10000 || !canonical base || !canonical (base + len - 1)) 0x04 base

/-- Write-backs of the core that are already on their way are waited for (R128, R149, R262).
DEDUCED: log entry 31. -/
def execMemWb (a b : Reg) (s : State) : Out :=
  issueM [a, b] s do
    let s ← get
    if s.rg b = 0 then set s.seq
    else
      rangeCheck (s.rg a) (s.rg b)
      blockIf (s.writeBacksInFlight s.myCore s.myPart) .written
      modify fun s =>
        ((s.covered (s.rg a) (s.rg b).toNat).foldl (fun s l => s.writeBackPosted l) s).seq

def execMemInv (a b : Reg) (s : State) : Out :=
  issueM [a, b] s do
    let s ← get
    if s.rg b = 0 then set s.seq
    else
      rangeCheck (s.rg a) (s.rg b)
      blockIf (s.writeBacksInFlight s.myCore s.myPart) .written
      modify fun s =>
        ((s.covered (s.rg a) (s.rg b).toNat).foldl
          (fun s l => (s.writeBackPosted l).dropL1 s.myCore l) s).seq

/-- R137: the line that MEM.PF asks for comes when the core takes the request and the line can be
had without a fault and without a wait, for a write-back of what the L1 holds too (R128); the request is dropped
otherwise. `choices` says whether the core takes it. -/
def State.prefetch (s : State) (va : Word) : State :=
  if s.choice then
    let s := s.dropChoice
    match s.cachedLeaf s.myDie s.myPart s.me.asid va with
    | some e =>
      match s.useLeaf s.myPart va .load e.pte e.level with
      | some x =>
        let line := s.steer s.myPart x.pa
        let held := (s.l1Line va).any fun l => l.cls = .uo || l.stamp = s.mine.gen
        match place (loc x.pa) with
        | .dram _ =>
          if s.clsOf x = .so ∨ held ∨ s.badLine s.myPart x.pa true
              ∨ (s.albLine s.myCore s.myPart line).isSome
              ∨ s.evictionInFlight s.myCore s.myPart line ∨ !canonical va then s
          else
            let s := s.freshFrame va x
            if s.evictionInFlight s.myCore s.myPart line then s
            else
              match readLine s.myDie s.myPart x.pa s with
              | .ok data s' => s'.fillL1 va x data
              | .error _ _ => s
        | _ => s
      | none => s
    | none => s
  else s.dropChoice

def execMemPf (a : Reg) (s : State) : Out := issue [a] s fun s => (s.prefetch (s.rg a)).seq

/-- The line that an access uses is poisoned no more (R188). -/
def State.unpoison (s : State) (p pa : Nat) : State :=
  { s with poisoned := s.poisoned.filter (· ≠ tagOf (s.steer p pa) p) }

/-- The physical address that a part of an access uses. -/
def Route.pa : Route → Nat
  | .hit l => l.pa
  | .phys x => x.pa

/-- A store of 128 zero bytes (R138), which clears the poison of the line (R188). -/
def execMemZero (a : Reg) (s : State) : Out :=
  issueM [a] s do
    let va := (← get).rg a
    trapIf (va.extractLsb' 0 7 != 0) 0x03 va
    trapIf (!canonical va) 0x04 va
    let r ← storeRoute va none
    storeReady va r
    modify fun s => ((s.unpoison s.myPart r.pa).storeVia va (BitVec.allOnes 128) 0 r).seq

end Sys2Proof.Machine
end

