-- ==== Sys2Proof/Machine/Ndear.lean ====
section
/-! DEFINITION. Ndear (R254 to R258): the operations of a portable image's `.text`, when it is valid, and when
native code is its finalisation. The last is a check of the code, block by block: it follows what every register
and stack slot holds and what the branches say about it, and asks that each access, call and transfer is performed by
its native form (R256), on the values it names and in the function's order, with the calling convention of R87. -/

namespace Sys2Proof

/-- A value of native code that is a constant. -/
def Sym.isInt (x : Sym) : Bool := x.base == .zero

namespace Machine

/-- A number of `w` bits read as signed. -/
def signedNat (w v : Nat) : Int := if v < 2 ^ (w - 1) then v else v - 2 ^ w

/-! ## Fields (R255) -/

/-- An unsigned LEB128 field: at most 10 bytes and 64 bits (R255). The first argument counts the bytes left. -/
def uleb : Nat → List Byte → Option (Nat × List Byte)
  | 0, _ => none
  | _, [] => none
  | n + 1, b :: t =>
    if b.toNat < 128 then some (b.toNat, t)
    else (uleb n t).map fun r => (b.toNat - 128 + 128 * r.1, r.2)

def uleb64 (f : List Byte) : Option (Nat × List Byte) := (uleb 10 f).filter fun r => r.1 < 2 ^ 64

/-- A signed LEB128 field (R255). -/
def sleb : Nat → List Byte → Option (Int × List Byte)
  | 0, _ => none
  | _, [] => none
  | n + 1, b :: t =>
    if b.toNat < 128 then some (signedNat 7 b.toNat, t)
    else (sleb n t).map fun r => ((b.toNat - 128 : Nat) + 128 * r.1, r.2)

def sleb64 (f : List Byte) : Option (Int × List Byte) := (sleb 10 f).filter fun r => -2 ^ 63 ≤ r.1 ∧ r.1 < 2 ^ 63

/-- `n` unsigned fields one after another. -/
def ulebs : Nat → List Byte → Option (List Nat × List Byte)
  | 0, f => some ([], f)
  | n + 1, f => do
    let (v, f) ← uleb64 f
    let (vs, f) ← ulebs n f
    return (v :: vs, f)

def fileByte : List Byte → Option (Nat × List Byte)
  | [] => none
  | b :: t => some (b.toNat, t)

/-! ## Operations (R256) -/

/-- An operation of a block, its operands as R256 names them: `alu` is ADD to REMU and EQ to LEU by opcode. -/
inductive NdearOp where
  | const (imm : Int)
  | addr (sym : Nat) (addend : Int)
  | get (var : Nat)
  | set (var k : Nat)
  | alu (op k1 k2 : Nat)
  | sel (kc k1 k2 : Nat)
  | load (mode k : Nat) (off : Int)
  | loads (mode k : Nat) (off : Int)
  | store (mode k kv : Nat) (off : Int)
  | atomic (code k kx : Nat) (kc : Option Nat)
  | fence (scope : Nat)
  | br (b : Nat)
  | brif (k bt bf : Nat)
  | switch (k : Nat) (bs : List Nat)
  | call (sym : Nat) (ks : List Nat)
  | ret (k : Nat)
  deriving DecidableEq, Repr

namespace NdearOp

/-- The distances that it names; RET names none with 0. -/
def dists : NdearOp → List Nat
  | .set _ k | .load _ k _ | .loads _ k _ | .brif k _ _ | .switch k _ => [k]
  | .alu _ k1 k2 | .store _ k1 k2 _ => [k1, k2]
  | .sel kc k1 k2 => [kc, k1, k2]
  | .atomic _ k kx kc => k :: kx :: kc.toList
  | .call _ ks => ks
  | .ret k => if k = 0 then [] else [k]
  | .const _ | .addr _ _ | .get _ | .fence _ | .br _ => []

/-- The blocks that it names. -/
def blocks : NdearOp → List Nat
  | .br b => [b]
  | .brif _ bt bf => [bt, bf]
  | .switch _ bs => bs
  | _ => []

/-- The variables that it names. -/
def vars : NdearOp → List Nat
  | .get v | .set v _ => [v]
  | _ => []

/-- The symbols that it names. -/
def syms : NdearOp → List Nat
  | .addr y _ | .call y _ => [y]
  | _ => []

/-- Whether it produces a value. -/
def value : NdearOp → Bool
  | .set _ _ | .store _ _ _ _ | .fence _ | .br _ | .brif _ _ _ | .switch _ _ | .ret _ => false
  | _ => true

/-- Whether it ends a block (R254). -/
def ends : NdearOp → Bool
  | .br _ | .brif _ _ _ | .switch _ _ | .ret _ => true
  | _ => false

end NdearOp

/-- One operation by its opcode, from its operands: nothing where an opcode or a field is invalid. -/
def ndearOp (op : Nat) (f : List Byte) : Option (NdearOp × List Byte) :=
  if op = 0x08 then (sleb64 f).map fun r => (.const r.1, r.2)
  else if op = 0x09 then do
    let (y, f) ← uleb64 f
    let (a, f) ← sleb64 f
    return (.addr y a, f)
  else if op = 0x0A then (uleb64 f).map fun r => (.get r.1, r.2)
  else if op = 0x0B then do
    let (v, f) ← uleb64 f
    let (k, f) ← uleb64 f
    return (.set v k, f)
  else if (0x10 ≤ op ∧ op ≤ 0x1C) ∨ (0x20 ≤ op ∧ op ≤ 0x25) then do
    let (k1, f) ← uleb64 f
    let (k2, f) ← uleb64 f
    return (.alu op k1 k2, f)
  else if op = 0x26 then do
    let (kc, f) ← uleb64 f
    let (k1, f) ← uleb64 f
    let (k2, f) ← uleb64 f
    return (.sel kc k1 k2, f)
  else if op = 0x30 ∨ op = 0x31 then do
    let (mode, f) ← fileByte f
    let (k, f) ← uleb64 f
    let (off, f) ← sleb64 f
    if op = 0x30 ∧ mode < 16 then return (.load mode k off, f)
    else if op = 0x31 ∧ mode < 12 then return (.loads mode k off, f)
    else none
  else if op = 0x32 then do
    let (mode, f) ← fileByte f
    let (k, f) ← uleb64 f
    let (kv, f) ← uleb64 f
    let (off, f) ← sleb64 f
    if mode < 16 then return (.store mode k kv off, f) else none
  else if op = 0x38 then do
    let (code, f) ← fileByte f
    let (k, f) ← uleb64 f
    let (kx, f) ← uleb64 f
    if code / 8 = 1 then
      let (kc, f) ← uleb64 f
      return (.atomic code k kx (some kc), f)
    else if code / 8 < 10 then return (.atomic code k kx none, f)
    else none
  else if op = 0x39 then do
    let (scope, f) ← fileByte f
    if scope < 5 then return (.fence scope, f) else none
  else if op = 0x40 then (uleb64 f).map fun r => (.br r.1, r.2)
  else if op = 0x41 then do
    let (k, f) ← uleb64 f
    let (bt, f) ← uleb64 f
    let (bf, f) ← uleb64 f
    return (.brif k bt bf, f)
  else if op = 0x42 then do
    let (k, f) ← uleb64 f
    let (n, f) ← uleb64 f
    if 1 ≤ n ∧ n ≤ 4096 then
      let (bs, f) ← ulebs n f
      return (.switch k bs, f)
    else none
  else if op = 0x48 then do
    let (y, f) ← uleb64 f
    let (n, f) ← uleb64 f
    if n ≤ 4 then
      let (ks, f) ← ulebs n f
      return (.call y ks, f)
    else none
  else if op = 0x49 then (uleb64 f).map fun r => (.ret r.1, r.2)
  else none

/-! ## Functions (R254, R257) -/

/-- A function: the offset of its FUNC byte, and its blocks. -/
structure NdearFunc where
  start  : Nat
  nargs  : Nat
  nvars  : Nat
  blocks : List (List NdearOp)
  deriving DecidableEq, Repr

/-- The operations of a block, to its terminator. The first argument counts the operations that may follow. -/
def ndearBlock : Nat → List Byte → Option (List NdearOp × List Byte)
  | 0, _ => none
  | _, [] => none
  | n + 1, b :: t => do
    let (o, f) ← ndearOp b.toNat t
    if o.ends then return ([o], f)
    else
      let (os, f) ← ndearBlock n f
      return (o :: os, f)

/-- The blocks of a function, to its END. -/
def ndearBlocks : Nat → List Byte → Option (List (List NdearOp) × List Byte)
  | 0, _ => none
  | _, [] => none
  | n + 1, b :: t =>
    if b = 0x03 then some ([], t)
    else if b = 0x02 then do
      let (os, f) ← ndearBlock n t
      let (bs, f) ← ndearBlocks n f
      return (os :: bs, f)
    else none

/-- The functions of a `.text` of `size` bytes. -/
def ndearFuncs (size : Nat) : Nat → List Byte → Option (List NdearFunc)
  | 0, _ => none
  | _, [] => some []
  | n + 1, b :: t =>
    if b = 0x01 then do
      let (nargs, f) ← uleb64 t
      let (nvars, f) ← uleb64 f
      let (bs, f) ← ndearBlocks n f
      let fs ← ndearFuncs size n f
      return ⟨size - t.length - 1, nargs, nvars, bs⟩ :: fs
    else none

def ndearText (text : List Byte) : Option (List NdearFunc) := ndearFuncs text.length (text.length + 1) text

/-- The operations of a block name values before them, and what else the function and the image have (R257).
`made` says which positions so far produce a value, the last first. -/
def NdearFunc.opsOk (f : NdearFunc) (syms : Nat) : List Bool → List NdearOp → Bool
  | _, [] => true
  | made, o :: t =>
    o.dists.all (fun k => k != 0 && made.getD (k - 1) false) && o.vars.all (· < f.nvars) &&
    o.blocks.all (· < f.blocks.length) && o.syms.all (· < syms) && f.opsOk syms (o.value :: made) t

/-- A function is valid (R257). DESIGN CHOICE: so is none that has no block, which could not be entered (log entry
44). -/
def NdearFunc.ok (f : NdearFunc) (syms : Nat) : Bool :=
  f.nargs ≤ 4 && f.nargs ≤ f.nvars && f.nvars ≤ 64 && !f.blocks.isEmpty && f.blocks.all (f.opsOk syms [])

/-! ## Values of native code -/

/-- A constant. -/
def symInt (v : Word) : Sym := ⟨.zero, v⟩

def symPlus (x : Sym) (v : Word) : Sym := { x with off := x.off + v }

/-- What a numbered value is: an operation of R256 on others, by opcode, or what an access or a call answered,
below `top` where it is that of fewer than 8 bytes. -/
inductive Num where
  | op (op : Nat) (xs : List Sym)
  | read (top : Option Nat)
  deriving DecidableEq, Repr

/-- What an operation of R256 answers for constants (R68 to R70): opcodes 0x10 to 0x1C and 0x20 to 0x25. -/
def aluConst (op : Nat) (x y : Word) : Word :=
  match op with
  | 0x10 => x + y
  | 0x11 => x - y
  | 0x12 => x &&& y
  | 0x13 => x ||| y
  | 0x14 => x ^^^ y
  | 0x15 => x <<< count6 y
  | 0x16 => x >>> count6 y
  | 0x17 => x.sshiftRight (count6 y)
  | 0x18 => x * y
  | 0x19 => divide x y
  | 0x1A => divideU x y
  | 0x1B => remainder x y
  | 0x1C => remainderU x y
  | 0x20 => ofBool (x == y)
  | 0x21 => ofBool (x != y)
  | 0x22 => ofBool (x.slt y)
  | 0x23 => ofBool (x.ult y)
  | 0x24 => ofBool (x.sle y)
  | _ => ofBool (x.ule y)

/-- What is known at a point of native code: what each place holds, what the operations of the block so far
produced (the last first), the variables, the operations still to be performed, the numbered values (the last
first), and which comparisons among them are known to hold or not to hold here. -/
structure FinalAt where
  holds : List (Loc × Sym)
  made  : List (Option Sym)
  vars  : List Sym
  todo  : List NdearOp
  nums  : List Num
  facts : List (Nat × Bool)
  deriving DecidableEq, Repr

namespace FinalAt

/-! Numbers: one value has one number, and sums with a constant and a few equal forms are brought to one. -/

def num? (c : FinalAt) (p : Nat) : Option Num := if p < c.nums.length then c.nums[c.nums.length - 1 - p]? else none

/-- The operation that a value is the result of. -/
def opOf (c : FinalAt) (x : Sym) : Option (Nat × List Sym) :=
  match x with
  | ⟨.val p, off⟩ =>
    match c.num? p with
    | some (.op op xs) => if off = 0 then some (op, xs) else none
    | _ => none
  | _ => none

/-- The number of an operation's result, a new one where it has none. -/
def number (c : FinalAt) (op : Nat) (xs : List Sym) : FinalAt × Sym :=
  match c.nums.findIdx? (· = .op op xs) with
  | some i => (c, ⟨.val (c.nums.length - 1 - i), 0⟩)
  | none => ({ c with nums := .op op xs :: c.nums }, ⟨.val c.nums.length, 0⟩)

/-- A value that no operation on others gives. -/
def fresh (c : FinalAt) (top : Option Nat) : FinalAt × Sym :=
  ({ c with nums := .read top :: c.nums }, ⟨.val c.nums.length, 0⟩)

/-- Two values in one order. -/
def sorted (x y : Sym) : List Sym :=
  let key := fun (s : Sym) => match s.base with
    | .zero => (3, 0)
    | .val p => (0, p)
    | .var v => (1, v)
    | .init r => (2, r.toNat)
  let (a, b) := (key x, key y)
  if a.1 < b.1 ∨ (a.1 = b.1 ∧ (a.2 < b.2 ∨ (a.2 = b.2 ∧ x.off.toNat ≤ y.off.toNat))) then [x, y] else [y, x]

/-- AND, OR, XOR or MUL with a constant. -/
def withInt (c : FinalAt) (op : Nat) (x : Sym) (k : Word) : FinalAt × Sym :=
  match c.opOf x with
  | some (op', [y, z]) => if op' = op && z.isInt then go y (aluConst op z.off k) else go x k
  | _ => go x k
where
  go (x : Sym) (k : Word) : FinalAt × Sym :=
    if k = (if op = 0x12 then BitVec.allOnes 64 else if op = 0x18 then 1 else 0) then (c, x)
    else if (op = 0x12 ∨ op = 0x18) ∧ k = 0 then (c, symInt 0)
    else if op = 0x18 then
      let (c, v) := c.number op [{ x with off := 0 }, symInt k]
      (c, symPlus v (x.off * k))
    else c.number op [x, symInt k]

/-- The opposite of a comparison. -/
def negated (e : FinalAt × Sym) : FinalAt × Sym :=
  if e.2.isInt then (e.1, symInt (e.2.off ^^^ 1)) else e.1.withInt 0x14 e.2 1

/-- A value that is 0 or 1: a comparison, or the opposite of one. -/
def isBool (c : FinalAt) (x : Sym) : Bool :=
  match c.opOf x with
  | some (op, [y, z]) => 0x20 ≤ op || (op == 0x14 && z == symInt 1 && (c.opOf y).any (0x20 ≤ ·.1))
  | _ => false

/-- EQ of two values. -/
def equal (c : FinalAt) (x y : Sym) : FinalAt × Sym :=
  if x.base = y.base then (c, symInt (ofBool (x.off == y.off)))
  else
    match sorted x y with
    | [x, y] =>
      if y.isInt && c.isBool x && (y.off = 0 || y.off = 1) then if y.off = 1 then (c, x) else negated (c, x)
      else c.number 0x20 [{ x with off := 0 }, symPlus y (-x.off)]
    | _ => (c, symInt 0)

/-- LT (0x22) or LTU (0x23) of two values. -/
def less (c : FinalAt) (rel : Nat) (x y : Sym) : FinalAt × Sym :=
  if x = y then (c, symInt 0)
  else if x.isInt then
    if x.off = (if rel = 0x22 then BitVec.intMax 64 else BitVec.allOnes 64) then (c, symInt 0)
    else if rel = 0x23 ∧ x.off = 0 then negated (c.equal y (symInt 0))
    else negated (c.number rel [y, symInt (x.off + 1)])
  else if y = symInt (if rel = 0x22 then BitVec.intMin 64 else 0) then (c, symInt 0)
  else if rel = 0x23 ∧ y = symInt 1 then c.equal x (symInt 0)
  else c.number rel [x, y]

/-- What an operation of R256 gives for two values. -/
def alu (c : FinalAt) (op : Nat) (x y : Sym) : FinalAt × Sym :=
  if x.isInt && y.isInt then (c, symInt (aluConst op x.off y.off))
  else
    match op with
    | 0x10 =>
      if y.isInt then (c, symPlus x y.off)
      else if x.isInt then (c, symPlus y x.off)
      else if x.base = y.base then
        let (c, v) := c.withInt 0x18 { x with off := 0 } 2
        (c, symPlus v (x.off + y.off))
      else
        let (c, v) := c.number op (sorted { x with off := 0 } { y with off := 0 })
        (c, symPlus v (x.off + y.off))
    | 0x11 =>
      if y.isInt then (c, symPlus x (-y.off))
      else if x.base = y.base then (c, symInt (x.off - y.off))
      else
        let (c, v) := c.number op [{ x with off := 0 }, { y with off := 0 }]
        (c, symPlus v (x.off - y.off))
    | 0x12 | 0x13 | 0x14 | 0x18 =>
      if y.isInt then c.withInt op x y.off
      else if x.isInt then c.withInt op y x.off
      else if x = y ∧ op ≠ 0x18 then (c, if op = 0x14 then symInt 0 else x)
      else c.number op (sorted x y)
    | 0x15 => if y.isInt then c.withInt 0x18 x (1 <<< count6 y.off) else c.number op [x, y]
    | 0x16 | 0x17 =>
      if y.isInt then if count6 y.off = 0 then (c, x) else c.number op [x, symInt (BitVec.ofNat 64 (count6 y.off))]
      else c.number op [x, y]
    | 0x1A | 0x1C =>
      match (if y.isInt then (List.range 64).find? fun j => y.off.toNat = 2 ^ j else none) with
      | some j =>
        if op = 0x1C then c.withInt 0x12 x (y.off - 1)
        else if j = 0 then (c, x)
        else c.number 0x16 [x, symInt (BitVec.ofNat 64 j)]
      | none => c.number op [x, y]
    | 0x20 => c.equal x y
    | 0x21 => negated (c.equal x y)
    | 0x22 | 0x23 => c.less op x y
    | 0x24 | 0x25 => negated (c.less (op - 2) y x)
    | _ => c.number op [x, y]

/-- SEL of three values. -/
def sel (c : FinalAt) (z x y : Sym) : FinalAt × Sym :=
  if z.isInt then (c, if z.off ≠ 0 then x else y) else if x = y then (c, x) else c.number 0x26 [z, x, y]

/-! Facts: what a branch that was or was not taken says. -/

/-- The value of an expression when a base has a value, where that decides it. The first argument bounds its
depth. -/
def evalAt (c : FinalAt) (b : SymBase) (v : Word) : Nat → Sym → Option Word
  | 0, _ => none
  | n + 1, x =>
    if x.base = b then some (v + x.off)
    else
      match x.base with
      | .zero => some x.off
      | .val p =>
        match c.num? p with
        | some (.op op xs) =>
          match xs with
          | [y, z] => (evalAt c b v n y).bind fun y => (evalAt c b v n z).map fun z => aluConst op y z + x.off
          | [t, y, z] => (evalAt c b v n t).bind fun t => (evalAt c b v n (if t ≠ 0 then y else z)).map (· + x.off)
          | _ => none
        | _ => none
      | _ => none

/-- What is known allows a base this value. -/
def allows (c : FinalAt) (b : SymBase) (v : Word) : Bool :=
  c.facts.all fun f => (c.evalAt b v (c.nums.length + 1) ⟨.val f.1, 0⟩).all fun r => r == ofBool f.2

/-- One known comparison decides another with the same left side, both with constants: x < j decides x < k. -/
def decides (c : FinalAt) (rel : Nat) (x : Sym) (k : Word) (f : Nat × Bool) : Option Bool :=
  match c.opOf ⟨.val f.1, 0⟩ with
  | some (rel', [y, z]) =>
    if rel' = rel && y = x && z.isInt then
      let le := if rel = 0x22 then z.off.sle k else z.off.ule k
      let ge := if rel = 0x22 then k.sle z.off else k.ule z.off
      if f.2 && le then some true else if !f.2 && ge then some false else none
    else none
  | _ => none

/-- Whether a comparison is known to hold. -/
def known (c : FinalAt) (p : Nat) : Option Bool :=
  match c.facts.find? (·.1 = p) with
  | some f => some f.2
  | none =>
    match c.opOf ⟨.val p, 0⟩ with
    | some (rel, [x, y]) =>
      if !y.isInt then none
      else if rel = 0x20 then if c.allows x.base (y.off - x.off) then none else some false
      else if rel = 0x22 ∨ rel = 0x23 then c.facts.findSome? (c.decides rel x y.off)
      else none
    | _ => none

/-- Whether a value that is 0 or 1 is known. -/
def knownBool (c : FinalAt) (x : Sym) : Option Bool :=
  match x.base, c.opOf x with
  | .zero, _ => some (x.off != 0)
  | .val p, some (op, xs) =>
    if 0x20 ≤ op ∧ op ≤ 0x25 then c.known p
    else
      match xs with
      | [⟨.val q, 0⟩, z] => if op = 0x14 && z = symInt 1 && c.isBool x then (c.known q).map (!·) else none
      | _ => none
  | _, _ => none

/-- Whether a value is known to be nonzero, or zero. -/
def truth (c : FinalAt) (x : Sym) : Option Bool :=
  if x.isInt || c.isBool x then c.knownBool x
  else
    let (c, e) := c.equal x (symInt 0)
    (c.knownBool e).map (!·)

/-- A value as what is known gives it: the constant that it is known to equal, or the value that a SEL chose. The
first argument bounds the SELs within one another. -/
def resolve (c : FinalAt) : Nat → Sym → Sym
  | 0, x => x
  | n + 1, x =>
    let eq := c.facts.findSome? fun f =>
      match f.2, c.opOf ⟨.val f.1, 0⟩ with
      | true, some (0x20, [y, z]) => if y.base = x.base && z.isInt then some (symInt (z.off - y.off + x.off)) else none
      | _, _ => none
    match eq with
    | some v => v
    | none =>
      match c.opOf { x with off := 0 } with
      | some (0x26, [t, y, z]) =>
        match c.truth (resolve c n t) with
        | some b => resolve c n (symPlus (if b then y else z) x.off)
        | none => x
      | _ =>
        if c.isBool x then ((c.knownBool x).map fun b => symInt (ofBool b)).getD x else x

def value (c : FinalAt) (x : Sym) : Sym := c.resolve (c.nums.length + 1) x

/-- Two places or operations are known, and known to hold the same. -/
def same (c : FinalAt) (x y : Option Sym) : Bool := x.isSome && x.map c.value == y.map c.value

/-- A comparison now known to hold, or not to. -/
def learn (c : FinalAt) (x : Sym) (t : Bool) : FinalAt :=
  match c.opOf x, x.base with
  | some (0x14, [⟨.val q, 0⟩, ⟨.zero, 1⟩]), _ => if c.isBool x then { c with facts := (q, !t) :: c.facts } else c
  | some _, .val p => if c.isBool x then { c with facts := (p, t) :: c.facts } else c
  | _, _ => c

/-- A value is known to be below `n`, unsigned. -/
def below (c : FinalAt) (x : Sym) (n : Nat) : Bool :=
  (match c.opOf x with
    | some (0x12, [_, k]) => k.isInt && k.off.toNat < n
    | some (0x16, [_, k]) => k.isInt && 2 ^ (64 - count6 k.off) ≤ n
    | some (0x1C, [_, k]) => k.isInt && k.off ≠ 0 && k.off.toNat ≤ n
    | _ => (c.isBool x && 2 ≤ n) ||
      match x with
      | ⟨.val p, 0⟩ =>
        match c.num? p with
        | some (.read (some t)) => t ≤ n
        | _ => false
      | _ => false) ||
  c.facts.any fun f =>
    match f.2, c.opOf ⟨.val f.1, 0⟩ with
    | true, some (rel, [y, k]) =>
      y == x && k.isInt &&
        ((rel == 0x23 && k.off.toNat ≤ n) ||
          (rel == 0x22 && k.off.toInt ≤ n && c.facts.any fun g =>
            !g.2 && c.opOf ⟨.val g.1, 0⟩ == some (0x22, [x, symInt 0])))
    | _, _ => false

/-! Places. -/

def at_ (c : FinalAt) (l : Loc) : Option Sym :=
  if l = .reg 0 then some (symInt 0) else (c.holds.find? fun e => e.1 = l).map (·.2)

def reg (c : FinalAt) (r : Reg) : Option Sym := c.at_ (.reg r)

/-- The value at a distance (R255). -/
def val (c : FinalAt) (k : Nat) : Option Sym := (c.made.getD (k - 1) none).filter fun _ => k ≠ 0

/-- A place holds the value at a distance. -/
def reads (c : FinalAt) (r : Reg) (k : Nat) : Bool := c.same (c.reg r) (c.val k)

/-- A place holds a value; what is not known is forgotten. -/
def put (c : FinalAt) (l : Loc) (v : Option Sym) : FinalAt :=
  { c with holds := (v.toList.map fun x => (l, x)) ++ c.holds.filter fun e => e.1 ≠ l }

/-- A register written: never g3, which is reserved to the resident system (R87). -/
def write (c : FinalAt) (r : Reg) (v : Option Sym) : Option FinalAt := if r = 3 then none else some (c.put (.reg r) v)

/-- A register that takes what an operation gives for two values, where they are known. -/
def compute (c : FinalAt) (d : Reg) (op : Nat) (x y : Option Sym) : Option FinalAt :=
  match x, y with
  | some x, some y =>
    let (c, v) := c.alu op (c.value x) (c.value y)
    c.write d (some v)
  | _, _ => c.write d none

/-- An operation that produces `v`, or nothing, is done. -/
def push (c : FinalAt) (v : Option Sym) : FinalAt := { c with made := v :: c.made, todo := c.todo.tail }

/-- Operations whose effect is their value alone: constants, addresses, variables and arithmetic. Code may compute
them at any point before what uses them. `addr` is a symbol's loaded address. -/
def absorb (addr : Nat → Option Nat) : Nat → FinalAt → FinalAt
  | 0, c => c
  | n + 1, c =>
    match c.todo with
    | .const v :: _ => absorb addr n (c.push (some (symInt (BitVec.ofInt 64 v))))
    | .addr y a :: _ => absorb addr n (c.push ((addr y).map fun v => symInt (BitVec.ofInt 64 (v + a))))
    | .get v :: _ => absorb addr n (c.push c.vars[v]?)
    | .set v k :: _ =>
      match c.val k with
      | some x => absorb addr n { c.push none with vars := c.vars.set v x }
      | none => c
    | .alu op k1 k2 :: _ =>
      match c.val k1, c.val k2 with
      | some x, some y =>
        let (c, v) := c.alu op (c.value x) (c.value y)
        absorb addr n (c.push (some v))
      | _, _ => c
    | .sel kc k1 k2 :: _ =>
      match c.val kc, c.val k1, c.val k2 with
      | some z, some x, some y =>
        let (c, v) := c.sel (c.value z) (c.value x) (c.value y)
        absorb addr n (c.push (some v))
      | _, _, _ => c
    | _ => c

end FinalAt

/-! ## Native forms (R256) -/

/-- The instruction as an arithmetic operation of Ndear: its opcode, and d, a and b. -/
def aluForm : Instr → Option (Nat × Reg × Reg × Reg)
  | .aluAdd d a b => some (0x10, d, a, b)
  | .aluSub d a b => some (0x11, d, a, b)
  | .aluAnd d a b => some (0x12, d, a, b)
  | .aluOr d a b => some (0x13, d, a, b)
  | .aluXor d a b => some (0x14, d, a, b)
  | .aluShl d a b => some (0x15, d, a, b)
  | .aluShr d a b => some (0x16, d, a, b)
  | .aluSar d a b => some (0x17, d, a, b)
  | .mulMul d a b => some (0x18, d, a, b)
  | .mulDiv d a b => some (0x19, d, a, b)
  | .mulDivu d a b => some (0x1A, d, a, b)
  | .mulRem d a b => some (0x1B, d, a, b)
  | .mulRemu d a b => some (0x1C, d, a, b)
  | .cmpEq d a b => some (0x20, d, a, b)
  | .cmpNe d a b => some (0x21, d, a, b)
  | .cmpLt d a b => some (0x22, d, a, b)
  | .cmpLtu d a b => some (0x23, d, a, b)
  | .cmpLe d a b => some (0x24, d, a, b)
  | .cmpLeu d a b => some (0x25, d, a, b)
  | _ => none

/-- The instruction as such an operation with a constant (R72, R73). -/
def immForm : Instr → Option (Nat × Reg × Reg × Word)
  | .aliAdd d a i => some (0x10, d, a, imm16 i)
  | .aliAnd d a i => some (0x12, d, a, zext i)
  | .aliOr d a i => some (0x13, d, a, zext i)
  | .aliXor d a i => some (0x14, d, a, zext i)
  | .aliShl d a i => some (0x15, d, a, zext i)
  | .aliShr d a i => some (0x16, d, a, zext i)
  | .aliSar d a i => some (0x17, d, a, zext i)
  | .aliSlt d a i => some (0x22, d, a, imm16 i)
  | .lngAdd d a i => some (0x10, d, a, imm32 i)
  | .lngAnd d a i => some (0x12, d, a, imm32 i)
  | .lngOr d a i => some (0x13, d, a, zext i)
  | .lngXor d a i => some (0x14, d, a, zext i)
  | _ => none

/-- The instruction as an atomic: the code of R256, and d, a and b. -/
def atmForm : Instr → Option (Nat × Reg × Reg × Reg)
  | .atmSwap d a b sz mo => some (go 0 sz mo, d, a, b)
  | .atmCas d a b sz mo => some (go 1 sz mo, d, a, b)
  | .atmAdd d a b sz mo => some (go 2 sz mo, d, a, b)
  | .atmAnd d a b sz mo => some (go 3 sz mo, d, a, b)
  | .atmOr d a b sz mo => some (go 4 sz mo, d, a, b)
  | .atmXor d a b sz mo => some (go 5 sz mo, d, a, b)
  | .atmMin d a b sz mo => some (go 6 sz mo, d, a, b)
  | .atmMax d a b sz mo => some (go 7 sz mo, d, a, b)
  | .atmMinu d a b sz mo => some (go 8 sz mo, d, a, b)
  | .atmMaxu d a b sz mo => some (go 9 sz mo, d, a, b)
  | _ => none
where go (op : Nat) (sz : ASize) (mo : MOrder) : Nat := op * 8 + sz.code.toNat * 4 + mo.code.toNat

/-- The mode of an access, and the byte distance of its offset (R32). -/
def memMode (sz : MSize) (sp : Space) : Nat := sz.code.toNat * 4 + sp.code.toNat
def memDist (sz : MSize) (o : BitVec 11) : Word := o.signExtend 64 * BitVec.ofNat 64 (2 ^ sz.code.toNat)

namespace FinalAt

/-- Register `a` and an offset form the address that an access of the value at `k` and `off` names. -/
def addresses (c : FinalAt) (a : Reg) (dist : Word) (k : Nat) (off : Int) : Bool :=
  c.same ((c.reg a).map (symPlus · dist)) ((c.val k).map (symPlus · (BitVec.ofInt 64 off)))

/-- An instruction performs an access, an atomic or a fence: the register it writes, if any, with the bound of
what it reads there. -/
def form (c : FinalAt) (o : NdearOp) (i : Instr) : Option (Option (Reg × Option Nat)) :=
  match o with
  | .load mode k off =>
    match i with
    | .memLd d a sz sp o =>
      if mode = memMode sz sp && c.addresses a (memDist sz o) k off then
        some (some (d, if mode < 12 then some (2 ^ (8 * 2 ^ (mode / 4))) else none))
      else none
    | _ => none
  | .loads mode k off =>
    match i with
    | .memLds d a sz sp o =>
      if mode = memMode sz sp && c.addresses a (memDist sz o) k off then some (some (d, none)) else none
    | _ => none
  | .store mode k kv off =>
    match i with
    | .memSt d a sz sp o =>
      if mode = memMode sz sp && c.reads d kv && c.addresses a (memDist sz o) k off then some none else none
    | _ => none
  | .atomic code k kx kc => (atmForm i).bind fun f =>
      if f.1 = code && c.reads f.2.2.1 k && c.reads f.2.2.2 kx && kc.all (c.reads f.2.1) then some (some (f.2.1, none))
      else none
  | .fence scope =>
    match i with
    | .synFence x => if scope = x.code.toNat then some none else none
    | _ => none
  | .const _ | .addr _ _ | .get _ | .set _ _ | .alu _ _ _ | .sel _ _ _ | .br _ | .brif _ _ _ | .switch _ _
  | .call _ _ | .ret _ => none

/-- A stack slot of the function: from its stack pointer up to the one it was entered with (R87). -/
def slotAt (c : FinalAt) (x : Option Sym) : Option Word :=
  match x, c.reg 2 with
  | some ⟨.init 2, off⟩, some ⟨.init 2, sp⟩ =>
    if off.toNat % 8 = 0 ∧ sp.toInt ≤ off.toInt ∧ off.toInt < 0 then some off else none
  | _, _ => none

/-- An instruction that accesses nothing but the function's own stack slots: it moves values or computes them. `pc`
is its address. -/
def move (c : FinalAt) (pc : Nat) (i : Instr) : Option FinalAt :=
  match aluForm i, immForm i with
  | some (op, d, a, b), _ => c.compute d op (c.reg a) (c.reg b)
  | none, some (op, d, a, k) => c.compute d op (c.reg a) (some (symInt k))
  | none, none =>
    match i with
    | .aluSel d a b =>
      match c.reg d, c.reg a, c.reg b with
      | some z, some x, some y =>
        let (c, v) := c.sel (c.value z) (c.value x) (c.value y)
        c.write d (some v)
      | _, _, _ => c.write d none
    | .lngLi d i => c.write d (some (symInt (imm32 i)))
    | .lngLih d a i => c.write d ((c.reg a).bind fun x =>
        let x := c.value x
        if x.isInt then some (symInt (i ++ x.off.extractLsb' 0 32)) else none)
    | .aliLui d i => c.write d (some (symInt (se32 (zext i <<< 16))))
    | .lngLa d i => c.write d (some (symInt (BitVec.ofNat 64 pc + imm32 i)))
    | .memLd d a .d .g o =>
      (c.slotAt ((c.reg a).map (symPlus · (memDist .d o)))).bind fun l => c.write d (c.at_ (.slot l))
    | .memSt d a .d .g o => (c.slotAt ((c.reg a).map (symPlus · (memDist .d o)))).map fun l => c.put (.slot l) (c.reg d)
    | .ctlLpad _ => some c
    | _ => none

/-- A call of the function at `target`: its arguments stand in g4 and up, the stack pointer is aligned, and what
it preserves stays (R87). -/
def called (c : FinalAt) (d : Reg) (ks : List Nat) : Option FinalAt :=
  match c.reg 2 with
  | some ⟨.init 2, sp⟩ =>
    if d = 1 && sp.toNat % 16 = 0 && sp.toInt ≤ 0 &&
        (List.range ks.length).all (fun j => c.reads (BitVec.ofNat 5 (4 + j)) (ks.getD j 0)) then
      let (c, v) := c.fresh none
      some (({ c with holds := c.holds.filter fun e =>
        match e.1 with
        | .reg r => r = 2 || r = 3 || 16 ≤ r.toNat
        | .slot off => sp.toInt ≤ off.toInt }.put (.reg 4) (some v)).push (some v))
    else none
  | _ => none

/-- A return: the result in g4, and what a call preserves as it was (R87). -/
def returns (c : FinalAt) (k : Nat) : Bool :=
  (k == 0 || c.reads 4 k) &&
  (1 :: 2 :: 3 :: (List.range 16).map (· + 16)).all fun r =>
    c.reg (BitVec.ofNat 5 r) == some ⟨.init (BitVec.ofNat 5 r), 0⟩

/-- A block may be entered: every place holds what its code expects there. -/
def enters (c : FinalAt) (b : FinalBlock) : Bool :=
  b.holds.all fun e =>
    match e.2.base with
    | .val _ => false
    | .var v => c.same (c.at_ e.1) ((c.vars[v]?).map (symPlus · e.2.off))
    | _ => c.same (c.at_ e.1) (some e.2)

/-- What is known makes block `b` the one that the terminator names: all of the operations before it are done, and
every value that is still possible leads there. -/
def leads (c : FinalAt) (b : Nat) : Bool :=
  match c.todo with
  | [.br x] => x = b
  | [.brif k bt bf] =>
    match (c.val k).bind fun x => c.truth (c.value x) with
    | some t => (if t then bt else bf) = b
    | none => bt = b && bf = b
  | [.switch k bs] =>
    match c.val k with
    | none => false
    | some x =>
      let x := c.value x
      if x.isInt then bs.getD (if x.off.toNat < bs.length then x.off.toNat else 0) 0 = b
      else
        (List.range bs.length).all (fun j =>
          bs.getD j 0 == b || !c.allows x.base (BitVec.ofNat 64 j - x.off)) &&
        (bs.getD 0 0 == b || c.below x bs.length)
  | _ => false

/-- The value `x` is `j`: what is known then, where it is possible. -/
def whenEqual (c : FinalAt) (x : Sym) (j : Nat) (t : Bool) : Option FinalAt :=
  let (c, e) := c.equal x (symInt (BitVec.ofNat 64 j))
  match if e.isInt then some (e.off != 0) else c.knownBool e with
  | some r => if r = t then some c else none
  | none => some (c.learn e t)

/-- The value `x` selects entry `j` of a jump table of `n`: what is known then, where it is possible (R80). -/
def whenEntry (c : FinalAt) (x : Sym) (n j : Nat) : Option FinalAt :=
  if j = 0 then (List.range' 1 (n - 1)).foldlM (fun c i => c.whenEqual x i false) c else c.whenEqual x j true

end FinalAt

/-! ## Finalisation (R258) -/

/-- The code of a `.text` at address `base` with the plan of one function. -/
structure FinalCode where
  text   : List Byte
  base   : Nat
  blocks : List FinalBlock
  deriving DecidableEq, Repr

namespace FinalCode

/-- The instructions that native code of Ndear is made of, by their majors (R35): integer, memory, atomics,
fences, transfers and the long forms. -/
def decodePlain (w imm : W32) : Dec :=
  let d := fD w
  let a := fA w
  let i := fImm w
  let shift := fun (x : Instr) => zeroed (i.extractLsb' 6 10) (.ok x)
  match (fOp w).toNat with
  | 0x01 => decodeAlu w
  | 0x02 => decodeMul w
  | 0x03 => decodeCmp w
  | 0x05 => .ok (.aliAdd d a i)
  | 0x06 => .ok (.aliAnd d a i)
  | 0x07 => .ok (.aliOr d a i)
  | 0x08 => .ok (.aliXor d a i)
  | 0x09 => shift (.aliShl d a (i.extractLsb' 0 6))
  | 0x0A => shift (.aliShr d a (i.extractLsb' 0 6))
  | 0x0B => shift (.aliSar d a (i.extractLsb' 0 6))
  | 0x0D => zeroed a (.ok (.aliLui d i))
  | 0x0E => .ok (.aliSlt d a i)
  | 0x10 => decodeMem .memLd w
  | 0x11 => decodeMem .memLds w
  | 0x12 => decodeMem .memSt w
  | 0x18 => decodeAtm w
  | 0x19 => decodeSyn w
  | 0x1C => .ok (.brcEq d a i)
  | 0x1D => .ok (.brcNe d a i)
  | 0x1E => .ok (.jmp (fOff26 w))
  | 0x1F => decodeCtl w
  | 0x3C => decodeLng w imm
  | 0x3D => decodeLngCtl w imm
  | _ => .error .major

/-- The word at an offset. -/
def word (t : FinalCode) (o : Nat) : Option W32 :=
  match t.text.drop o with
  | b0 :: b1 :: b2 :: b3 :: _ => some (word32 b0 b1 b2 b3)
  | _ => none

/-- The instruction at an offset, and the offset after it: nothing where the code ends, or where the word is none
of these or is not well formed. -/
def fetch (t : FinalCode) (pc : Nat) : Option (Instr × Nat) :=
  (t.word pc).bind fun w =>
    match decodePlain w ((t.word (pc + 4)).getD 0) with
    | .ok i => if i.wf && pc + wordLength w ≤ t.text.length then some (i, pc + wordLength w) else none
    | .error _ => none

/-- The offset of an address in the code, whole words into it. -/
def offset (t : FinalCode) (a : Word) : Option Nat :=
  if t.base ≤ a.toNat ∧ (a.toNat - t.base) % 4 = 0 ∧ a.toNat - t.base < t.text.length then some (a.toNat - t.base)
  else none

/-- A jump table in the code itself (R80): its label and the addresses of its entries. -/
def table (t : FinalCode) (a : Word) : Option (BitVec 16 × List Word) := do
  let o ← t.offset a
  let label ← t.word o
  let n ← t.word (o + 4)
  if a.toNat % 8 = 0 ∧ n ≠ 0 ∧ o + 8 + 4 * n.toNat ≤ t.text.length then
    return (label.extractLsb' 0 16, (List.range n.toNat).map fun j =>
      a + imm32 ((t.word (o + 8 + 4 * j)).getD 0))
  else none

/-- A block that the terminator names begins at an offset, may be entered, and is the one to enter. -/
def arrives (t : FinalCode) (c : FinalAt) (pc : Nat) : Bool :=
  (c.todo.head?.toList.flatMap NdearOp.blocks).any fun b =>
    (t.blocks[b]?).any fun x => x.start = pc && c.leads b && c.enters x

/-- The code from an offset on performs the operations that are to do, each in its turn, and then enters the
blocks that the last one names, whichever way its branches go. The first argument counts the instructions that may
follow. -/
def performs (t : FinalCode) (addr : Nat → Option Nat) : Nat → Nat → FinalAt → Bool
  | 0, _, _ => false
  | n + 1, pc, c =>
    let c := c.absorb addr c.todo.length
    if t.arrives c pc then true
    else
      match t.fetch pc with
      | none => false
      | some (i, next) =>
        let goes := fun (c : FinalAt) (d : Word) =>
          (t.offset (BitVec.ofNat 64 (t.base + pc) + d)).any fun pc => t.performs addr n pc c
        let branch := fun (a b : Reg) (taken : Bool) (d : Word) =>
          match c.reg a, c.reg b with
          | some x, some y =>
            let (c, e) := c.alu 0x20 (c.value x) (c.value y)
            match if e.isInt then some (e.off != 0) else c.knownBool e with
            | some r => if r = taken then goes c d else t.performs addr n next c
            | none => goes (c.learn e taken) d && t.performs addr n next (c.learn e !taken)
          | _, _ => goes c d && t.performs addr n next c
        match i with
        | .jmp o => goes c (disp o)
        | .lngJmp o => o.toNat % 4 == 0 && goes c (imm32 o)
        | .brcEq a b o => branch a b true (disp o)
        | .brcNe a b o => branch a b false (disp o)
        | .ctlJt d a =>
          match c.reg d, (c.reg a).map c.value with
          | some x, some ⟨.zero, at_⟩ =>
            (t.table at_).any fun e => (List.range e.2.length).all fun j =>
              (c.whenEntry (c.value x) e.2.length j).all fun c =>
                (t.offset (e.2.getD j 0)).any fun pc =>
                  (t.fetch pc).any (fun r => r.1 = .ctlLpad e.1) && t.performs addr n pc c
          | _, _ => false
        | .ctlRet k =>
          match c.todo with
          | [.ret v] => k == 0 && c.returns v
          | _ => false
        | .lngCall d o =>
          match c.todo with
          | .call y ks :: _ =>
            (addr y).any (fun v => BitVec.ofNat 64 v = BitVec.ofNat 64 (t.base + pc) + imm32 o) &&
            (t.fetch next).any (fun e => e.1 = .ctlLpad 0) && (c.called d ks).any (t.performs addr n next)
          | _ => false
        | i =>
          match c.todo.head?.bind fun o => c.form o i with
          | some none => t.performs addr n next (c.push none)
          | some (some (d, top)) =>
            let (c, v) := c.fresh top
            ((c.push (some v)).write d (some v)).any (t.performs addr n next)
          | none => (c.move (t.base + pc) i).any (t.performs addr n next)

/-- The code of a function: its entry label, then what enters block 0 with the arguments and zeros as its
variables (R254), and every block. -/
def function (t : FinalCode) (addr : Nat → Option Nat) (f : NdearFunc) (start : Nat) : Bool :=
  let n := t.text.length + 1
  let entry : FinalAt :=
    { holds := (List.range 32).map fun r => (.reg (BitVec.ofNat 5 r), ⟨.init (BitVec.ofNat 5 r), 0⟩)
      made := [], nums := [], facts := [], todo := [.br 0]
      vars := (List.range f.nvars).map fun v =>
        if v < f.nargs then ⟨.init (BitVec.ofNat 5 (4 + v)), 0⟩ else symInt 0 }
  start % 4 = 0 && (t.fetch start).any (fun e => e.1 = .ctlLpad 1) && t.performs addr n start entry &&
  t.blocks.length == f.blocks.length && (List.range f.blocks.length).all fun b =>
    (t.blocks[b]?).any fun x => x.start % 4 == 0 && t.performs addr n x.start
      { holds := x.holds, made := [], nums := [], facts := [], todo := f.blocks.getD b []
        vars := (List.range f.nvars).map fun v => ⟨.var v, 0⟩ }

end FinalCode

/-- Native code at `base` is a finalisation of these functions (R258). -/
def finalises (text : List Byte) (base : Nat) (plan : List FinalFunc) (addr : Nat → Option Nat)
    (fs : List NdearFunc) : Bool :=
  plan.length == fs.length && fs.all (fun f => f.blocks.all fun os => os.all fun o => o.syms.all fun y =>
    (addr y).isSome) &&
  (fs.zip plan).all fun e => FinalCode.function ⟨text, base, e.2.blocks⟩ addr e.1 e.2.start

end Machine

end Sys2Proof
end

