-- ==== Sys2Proof/Machine/Image.lean ====
section
/-! DEFINITION. Boot images: the object file (R61 to R65), the choice among its images (R252, R253), the finalised
form of a portable image (R258), relocation and placement (R64, R66), and the tables that map a boot image
(R330). -/

namespace Sys2Proof.Machine

/-! ## Bytes of a file (R3) -/

def leFile : List Byte → Nat
  | [] => 0
  | b :: t => b.toNat + 256 * leFile t

def leBytesOf : Nat → Nat → List Byte
  | 0, _ => []
  | n + 1, v => BitVec.ofNat 8 v :: leBytesOf n (v / 256)

/-- `n` bytes from an offset: nothing where the file ends before. -/
def fileBytes (f : List Byte) (off n : Nat) : Option (List Byte) :=
  if off + n ≤ f.length then some ((f.drop off).take n) else none

def fileNat (f : List Byte) (off n : Nat) : Option Nat := (fileBytes f off n).map leFile

/-- `n` bytes replaced at an offset. -/
def putFile (f : List Byte) (off n v : Nat) : List Byte := f.take off ++ leBytesOf n v ++ f.drop (off + n)

/-! ## The object file (R61 to R63) -/

/-- An entry of the image table (R62). -/
structure PloEntry where
  kind     : Nat
  major    : Nat
  minor    : Nat
  offset   : Nat
  length   : Nat
  features : Nat
  deriving DecidableEq, Repr

def ploEntry (f : List Byte) (at_ : Nat) : Option PloEntry := do
  return ⟨← fileNat f at_ 1, ← fileNat f (at_ + 2) 2, ← fileNat f (at_ + 4) 2, ← fileNat f (at_ + 8) 8,
    ← fileNat f (at_ + 16) 8, ← fileNat f (at_ + 32) 32⟩

/-- The image table of a file (R61). DESIGN CHOICE: a file whose magic, version, number of images or size is another
than R61 gives does not load (log entry 44). -/
def ploTable (f : List Byte) : Option (List PloEntry) := do
  let magic ← fileNat f 0 4
  let version ← fileNat f 4 2
  let n ← fileNat f 6 2
  let itab ← fileNat f 8 8
  let size ← fileNat f 16 8
  if magic = 0x1A4F4C50 ∧ version = 1 ∧ 1 ≤ n ∧ n ≤ 255 ∧ itab % 8 = 0 ∧ size = f.length then
    (List.range n).mapM fun i => ploEntry f (itab + 64 * i)
  else none

/-- A relocation (R64). -/
structure Reloc where
  place  : Nat
  addend : Int
  sym    : Nat
  kind   : Nat
  deriving DecidableEq, Repr

/-- A section: its name, 1 text, 2 rodata, 3 data, 4 local, 5 opstore, its class and log2 alignment (R63). -/
structure PloSection where
  name   : Nat
  kind   : Nat
  cls    : Nat
  align  : Nat
  data   : List Byte
  relocs : List Reloc
  deriving DecidableEq, Repr

/-- A symbol: binding 0 local, 1 global, 2 hidden, 3 external (R63). -/
structure PloSymbol where
  name    : Nat
  sec     : Nat
  binding : Nat
  value   : Nat
  deriving DecidableEq, Repr

/-- A note (R65): a site, a card or a launch record, each by its section and the offset in it. -/
inductive PloNote where
  | site (sec kind id off : Nat)
  | card (sec off : Nat)
  | launch (sec off : Nat)
  deriving DecidableEq, Repr

structure PloImage where
  sections : List PloSection
  symbols  : List PloSymbol
  notes    : List PloNote
  strings  : List Byte
  deriving DecidableEq, Repr

def ploReloc (i : List Byte) (at_ : Nat) : Option Reloc := do
  return ⟨← fileNat i at_ 8, signedNat 64 (← fileNat i (at_ + 8) 8), ← fileNat i (at_ + 16) 4,
    ← fileNat i (at_ + 20) 2⟩

/-- A table starts at a multiple of 8 (R61). DESIGN CHOICE: one that does not makes the load fail, since the spec
does not say what a loader does with it (log entry 44). -/
def aligned8 (at_ : Nat) : Option Nat := if at_ % 8 = 0 then some at_ else none

/-- The class of a section as its type has it (R53, R63): `.local` and `.opstore` have class 3; the others have
one of the three classes, and `.text` has only UO. DESIGN CHOICE: a type, a class or an alignment that R63 does not
list makes the load fail, and so does a `.text` of class RC or SO: the spec says only what the listed ones mean (log
entry 44). -/
def sectionOk (x : PloSection) : Bool :=
  2 ≤ x.align && x.align ≤ 12 &&
  match x.kind with
  | 1 => x.cls == 2
  | 2 | 3 => x.cls < 3
  | 4 | 5 => x.cls == 3
  | _ => false

def ploSection (i : List Byte) (at_ : Nat) : Option PloSection := do
  let name ← fileNat i at_ 4
  let kind ← fileNat i (at_ + 4) 1
  let cls ← fileNat i (at_ + 5) 1
  let align ← fileNat i (at_ + 6) 1
  let data ← fileBytes i (← fileNat i (at_ + 16) 8) (← fileNat i (at_ + 8) 8)
  let table ← aligned8 (← fileNat i (at_ + 24) 8)
  let relocs ← (List.range (← fileNat i (at_ + 32) 4)).mapM fun n => ploReloc i (table + 24 * n)
  let x : PloSection := ⟨name, kind, cls, align, data, relocs⟩
  if sectionOk x then return x else none

def ploSymbol (i : List Byte) (at_ : Nat) : Option PloSymbol := do
  return ⟨← fileNat i at_ 4, ← fileNat i (at_ + 4) 2, ← fileNat i (at_ + 6) 1, ← fileNat i (at_ + 8) 8⟩

/-- The payload of a note of one of the three types (R65). DESIGN CHOICE: a payload of another size, and a site ID with
a bit of [31:24] set, make the load fail, since the spec says only that the bits are zero (log entry 44). -/
def ploNote (kind : Nat) (f : List Byte) : Option PloNote := do
  let sec ← fileNat f 0 2
  let off ← fileNat f 8 8
  if f.length ≠ 16 then none
  else if kind = 1 then
    let id ← fileNat f 4 4
    if id < 2 ^ 24 then return .site sec (← fileNat f 2 1) id off else none
  else if kind = 2 then return .card sec off
  else return .launch sec off

/-- The notes of an area, each with an 8-byte head and a payload padded to a multiple of 8 (R65). Another type is
skipped by its size. DESIGN CHOICE: an area that ends within a note does not load (log entry 44). The first argument
counts the notes that may follow. -/
def ploNotes : Nat → List Byte → Option (List PloNote)
  | 0, _ => none
  | _, [] => some []
  | n + 1, f => do
    let kind ← fileNat f 0 2
    let size ← fileNat f 4 4
    let payload ← fileBytes f 8 size
    let _ ← fileBytes f 8 ((size + 7) / 8 * 8)
    let rest ← ploNotes n (f.drop (8 + (size + 7) / 8 * 8))
    if 1 ≤ kind ∧ kind ≤ 3 then return (← ploNote kind payload) :: rest else return rest

/-- The string table (R63): strings that each end in a 0 byte, the first of them empty. DESIGN CHOICE: another one makes
the load fail (log entry 44). -/
def stringsOk (f : List Byte) : Bool := f.head? == some 0 && f.getLast? == some 0

/-- No number twice. -/
def distinct : List Nat → Bool
  | [] => true
  | a :: t => !t.contains a && distinct t

/-- An image read from its bytes; offsets count from its start, and every table starts at a multiple of 8
(R61, R63). There is at most one section of each name (R53), and symbol 0 is all zero. What its reserved byte
holds is not looked at (R6). DESIGN CHOICE: another nonzero byte of symbol 0, and a name outside the string table,
make the load fail, and a binding above 3 counts as one of a symbol that the image defines: the spec does not say
what a loader does with such a file (log entry 44). -/
def ploImage (i : List Byte) : Option PloImage := do
  let sections ← aligned8 (← fileNat i 8 8)
  let symbols ← aligned8 (← fileNat i 16 8)
  let notes ← aligned8 (← fileNat i 24 8)
  let table ← aligned8 (← fileNat i 40 8)
  let ss ← (List.range (← fileNat i 0 4)).mapM fun n => ploSection i (sections + 40 * n)
  let count ← fileNat i 4 4
  let ys ← (List.range count).mapM fun n => ploSymbol i (symbols + 16 * n)
  let area ← fileBytes i notes (← fileNat i 32 8)
  let ns ← ploNotes (area.length + 1) area
  let strings ← fileBytes i table (← fileNat i 48 8)
  let named := fun (n : Nat) => n < strings.length
  if stringsOk strings && distinct (ss.map (·.kind)) && ss.all (named ·.name) && ys.all (named ·.name) &&
      (count = 0 || (fileBytes i symbols 16).any fun b => (b.take 7 ++ b.drop 8).all (· = 0)) then
    return ⟨ss, ys, ns, strings⟩
  else none

/-! ## The choice (R252, R253, R338) -/

/-- The features of a partition as a set (R251): the eleven of R249 but the masked ones. -/
def featuresOf (mask : BitVec 11) : Nat := (~~~mask).toNat

/-- A native image that runs on a partition of this device, whose ISA is 3.1 (R252, R253). -/
def PloEntry.eligible (e : PloEntry) (feats : Nat) : Bool :=
  e.kind == 0 && e.major == 3 && e.minor ≤ 1 && e.features &&& feats == e.features

/-- The image that the loader takes (R253), the first of the highest minor. A portable one needs Ndear 1.0. -/
def chooseImage (feats : Nat) (es : List PloEntry) : Option PloEntry :=
  let native := es.filter (·.eligible feats)
  match es.filter (·.kind = 1) with
  | _ :: _ :: _ => none
  | ps =>
    match native.find? fun e => native.all fun o => o.minor ≤ e.minor with
    | some e => some e
    | none => ps.find? fun e => e.major = 1 && e.minor = 0

/-! ## Portable images (R257, R258) -/

/-- The section that holds the code of an image, numbered from 0. -/
def PloImage.textAt (i : PloImage) : Option Nat :=
  (List.range i.sections.length).find? fun n => (i.sections[n]?).any (·.kind = 1)

/-- The functions of a portable image: none where it has no code, and nothing where it is invalid (R257). A
symbol that is called is a function of the image or an external reference. -/
def PloImage.functions (i : PloImage) : Option (List NdearFunc) :=
  match i.textAt with
  | none => some []
  | some t => do
    let fs ← ndearText ((i.sections[t]?).map (·.data) |>.getD [])
    let callee := fun (y : Nat) => (i.symbols[y]?).any fun s =>
      s.binding = 3 || (s.sec = t + 1 && fs.any (·.start = s.value))
    if fs.all fun f => f.ok i.symbols.length && f.blocks.all fun os => os.all fun o =>
        match o with
        | .call y _ => callee y
        | _ => true
    then return fs else none

/-- A portable image with native code in place of its own (R258): the symbol of a function takes the address of
its first native instruction, and everything else stays as it is. -/
def PloImage.withNative (i : PloImage) (fs : List NdearFunc) (native : List Byte) (plan : List FinalFunc) :
    PloImage :=
  match i.textAt with
  | none => i
  | some t =>
    { i with
      sections := i.sections.mapIdx fun n x => if n = t then { x with data := native, relocs := [] } else x
      symbols := i.symbols.map fun y =>
        if y.sec = t + 1 then
          match (fs.zip plan).find? fun e => e.1.start = y.value with
          | some e => { y with value := e.2.start }
          | none => y
        else y }

/-! ## Relocation (R64) -/

/-- A field of a word replaced: `n` bits from bit `lo`, two's complement. -/
def withField (w lo n : Nat) (v : Int) : Nat :=
  w - w / 2 ^ lo % 2 ^ n * 2 ^ lo + (v % 2 ^ n).toNat * 2 ^ lo

def within (lo hi : Int) (v : Int) : Bool := lo ≤ v && v < hi

/-- The range of the immediate of an instruction word (R50). -/
def imm16Ok (w : Nat) (v : Int) : Bool :=
  let op := w / 2 ^ 26
  if op = 0x05 ∨ op = 0x0C ∨ op = 0x0E then within (-0x8000) 0x8000 v
  else if 0x09 ≤ op ∧ op ≤ 0x0B then within 0 64 v
  else within 0 0x10000 v

/-- A distance in words, where it is one. -/
def inWords (v : Int) : Option Int := if v % 4 = 0 then some (v / 4) else none

/-- A section's bytes with one relocation applied: `s` is the symbol's value, `base` the section's loaded
address. Nothing where the result does not fit (R64). -/
def relocate (r : Reloc) (s : Int) (base : Nat) (d : List Byte) : Option (List Byte) := do
  let v := s + r.addend
  let rel := v - (base + r.place : Nat)
  let word ← fileNat d r.place 4
  let put := fun (n : Nat) (ok : Bool) (x : Int) =>
    if ok && r.place + n ≤ d.length then some (putFile d r.place n (x % 2 ^ (8 * n)).toNat) else none
  let imm := fun (ok : Bool) (x : Int) =>
    if ok && r.place + 8 ≤ d.length then some (putFile d (r.place + 4) 4 (x % 2 ^ 32).toNat) else none
  let field := fun (lo n : Nat) (ok : Bool) (x : Int) => put 4 ok (withField word lo n x)
  match r.kind with
  | 1 => put 8 (within (-2 ^ 63) (2 ^ 64) v) v
  | 2 => put 4 (within 0 (2 ^ 32) v) v
  | 3 => put 4 (within (-2 ^ 31) (2 ^ 31) rel) rel
  | 4 => let x ← inWords rel; field 0 16 (within (-0x8000) 0x8000 x) x
  | 5 => let x ← inWords rel; field 0 26 (within (-0x2000000) 0x2000000 x) x
  | 6 => let x ← inWords rel; field 0 11 (within 1 2048 x) x
  | 7 => field 0 16 (imm16Ok word v) v
  | 8 =>
    let sz := word / 2 ^ 13 % 8
    field 0 11 (sz < 4 && v % 2 ^ sz = 0 && within (-1024) 1024 (v / 2 ^ sz)) (v / 2 ^ sz)
  | 9 => imm (within (-2 ^ 31) (2 ^ 31) rel) rel
  | 10 => imm true v
  | 11 => imm true (v / 2 ^ 32)
  | _ => none

/-! ## Loading (R66) -/

/-- A section that has a virtual address; the others are loaded from offset 0 of their space (R53, R54). -/
def PloSection.isGlobal (x : PloSection) : Bool := x.kind ≤ 3

/-- The loaded address of a section. -/
def PloImage.baseOf (i : PloImage) (vas : List Nat) (n : Nat) : Nat :=
  if (i.sections[n]?).any (·.isGlobal) then vas.getD n 0 else 0

/-- A symbol's loaded value: nothing for one that no object defines. An absolute symbol's 8 bytes are read
unsigned, so that one whose top bit is set fits no field that a smaller number must fill (DESIGN CHOICE, log entry
44: R63 says only "the absolute value"); nor does a symbol index outside the table or a section index outside the
sections give a value, so that a load which needs it fails (DESIGN CHOICE: log entry 44; R64). -/
def PloImage.symbolValue (i : PloImage) (vas : List Nat) (n : Nat) : Option Nat :=
  if n = 0 then some 0
  else do
    let y ← i.symbols[n]?
    if y.binding = 3 then none
    else if y.sec = 0 then some y.value
    else if y.sec ≤ i.sections.length then some (i.baseOf vas (y.sec - 1) + y.value)
    else none

/-- A section's bytes with every relocation applied. -/
def PloImage.loaded (i : PloImage) (vas : List Nat) (n : Nat) : Option (List Byte) := do
  let x ← i.sections[n]?
  x.relocs.foldlM (fun d r => do relocate r (← i.symbolValue vas r.sym) (i.baseOf vas n) d) x.data

/-- The string at an offset of the string table is `boot`. -/
def isBoot (strings : List Byte) (at_ : Nat) : Bool := (strings.drop at_).take 5 == [0x62, 0x6F, 0x6F, 0x74, 0x00]

/-- The address of the global symbol `boot` (R330). DESIGN CHOICE: of a `boot` at no multiple of 4 the low bits are
dropped, since sr.npc holds none (R6, R284; log entry 44). -/
def PloImage.bootAt (i : PloImage) (vas : List Nat) : Option Nat := do
  let n ← (List.range i.symbols.length).find? fun n =>
    (i.symbols[n]?).any fun y => y.binding = 1 && isBoot i.strings y.name
  return (← i.symbolValue vas n) / 4 * 4

/-! ## The page table (R263, R271, R330) -/

/-- A table under construction: the frame of the table of each level and prefix, the frames left, and the entries
written. -/
structure Tables where
  nodes   : List ((Nat × Nat) × Nat)
  frames  : List Nat
  entries : List (Nat × Nat)
  deriving DecidableEq, Repr

/-- The frame of the table that maps a page at a level, with a pointer to it where it is new. -/
def Tables.node (key page : Nat) : Nat → Tables → Option (Nat × Tables)
  | up, t =>
    let go := fun (lv : Nat) (parent : Option Nat) (t : Tables) =>
      match t.nodes.find? fun e => e.1 = (lv, page / 512 ^ (lv + 1)) with
      | some e => some (e.2, t)
      | none =>
        match t.frames with
        | [] => none
        | f :: fs => some (f, ⟨((lv, page / 512 ^ (lv + 1)), f) :: t.nodes, fs,
            match parent with
            | none => t.entries
            | some p => (p * 4096 + 8 * (page / 512 ^ (lv + 1) % 512), (key * 2 ^ 38 + f) * 1024 + 1) :: t.entries⟩)
    match up with
    | 0 => go 4 none t
    | n + 1 => do
      let (p, t) ← Tables.node key page n t
      go (3 - n) (some p) t

/-- A leaf for one page. -/
def Tables.map (key page leaf : Nat) (t : Tables) : Option Tables := do
  let (f, t) ← Tables.node key page 4 t
  return { t with entries := (f * 4096 + 8 * (page % 512), leaf) :: t.entries }

/-- The leaf of a page of a section (R53, R263), in its section's class. -/
def leafFor (key frame : Nat) (x : PloSection) : Nat :=
  x.cls * 2 ^ 54 + (key * 2 ^ 38 + frame) * 1024 + (if x.kind = 1 then 0xB else if x.kind = 2 then 0x3 else 0x7)

def pagesOf (n : Nat) : Nat := (n + 4095) / 4096

/-- Every page of the global sections, each with its leaf. -/
def PloImage.pageTable (i : PloImage) (key : Nat) (places : List (Nat × Nat)) (frames : List Nat) : Option Tables :=
  ((List.range i.sections.length).flatMap fun n =>
      match i.sections[n]?, places[n]? with
      | some x, some (va, pa) =>
        if x.isGlobal then
          (List.range (pagesOf x.data.length)).map fun j =>
            ((va / 4096 + j) % 2 ^ 45, leafFor key (pa / 4096 + j) x)
        else []
      | _, _ => []).foldlM (fun t e => t.map key e.1 e.2) ⟨[], frames, []⟩

/-! ## A boot file placed (R330) -/

/-- Bytes with their addresses. -/
def bytesAt (a : Nat) : List Byte → List (Nat × Byte)
  | [] => []
  | b :: t => (a, b) :: bytesAt (a + 1) t

def sectionBytes (i : PloImage) (vas : List Nat) (kind : Nat) : Option (List Byte) :=
  match (List.range i.sections.length).find? fun n => (i.sections[n]?).any (·.kind = kind) with
  | none => some []
  | some n => i.loaded vas n

/-- Where a configuration's core map lies (R333): in the near memory of its lowest-numbered die. -/
def PartCfg.mapBase (c : PartCfg) : Nat := (c.dies.min?.getD 0) * 0x800000000 + c.num * 0x10000

/-- A location in the core map that a configuration leaves in near memory (R333). -/
def mapHas (c : PartCfg) (a : Nat) : Bool := PartCfg.mapBase c ≤ a && a < PartCfg.mapBase c + 0x10000

/-- The frames in which firmware places something for a configuration, the 128 of its address-space table among
them (R271, R330). -/
def PartCfg.frames (c : PartCfg) : List Nat :=
  c.image.map (·.1 / 4096) ++ List.range' (c.asidtab % 2 ^ 38) 128

/-- A frame of near memory of one of these dies, clear of the core map. -/
def frameOk (c : PartCfg) (f : Nat) : Bool :=
  f < 2 ^ 28 && c.dies.contains (f * 4096 / 0x800000000) && !mapHas c (f * 4096)

/-- The places are ones that a loader gives (R66): whole pages, no page and no frame twice, canonical. -/
def PloImage.placesOk (i : PloImage) (c : PartCfg) (b : BootFile) : Bool :=
  let pages := (List.range i.sections.length).flatMap fun n =>
    match i.sections[n]?, b.places[n]? with
    | some x, some (va, pa) =>
      if x.isGlobal then (List.range (pagesOf x.data.length)).map fun j => (va / 4096 + j, pa / 4096 + j) else []
    | _, _ => []
  let table := c.asidtab % 2 ^ 38
  b.places.length == i.sections.length && b.places.all (fun e => e.1 % 4096 == 0 && e.2 % 4096 == 0) &&
  pages.all (fun e => frameOk c e.2 && (e.1 < 2 ^ 44 || (2 ^ 52 - 2 ^ 44 ≤ e.1 && e.1 < 2 ^ 52))) &&
  b.tables.all (frameOk c) && (List.range 128).all (fun j => frameOk c (table + j)) &&
  distinct (pages.map (·.1)) &&
  distinct (pages.map (·.2) ++ b.tables) &&
  (pages.map (·.2) ++ b.tables).all fun f => !(table ≤ f && f < table + 128)

/-- The image that is loaded from a file: a native one, or a valid portable one finalised (R257, R258). -/
def bootImage (b : BootFile) (feat : BitVec 11) : Option PloImage := do
  let e ← chooseImage (featuresOf feat) (← ploTable b.bytes)
  let i ← ploImage (← fileBytes b.bytes e.offset e.length)
  if e.kind = 0 then return i
  else
    let fs ← i.functions
    let n := i.withNative fs b.native b.plan
    let vas := b.places.map (·.1)
    let base := (i.textAt.map (n.baseOf vas)).getD 0
    if finalises b.native base b.plan (n.symbolValue vas) fs then return n else none

/-- The lowest-numbered key of a partition. -/
def lowKey (c : PartCfg) : Nat := c.keys.min?.getD 0

/-- A configuration with its boot file placed: nothing where the load fails (R330). -/
def placeBoot (c : PartCfg) (b : BootFile) : Option PartCfg := do
  let i ← bootImage b c.feat
  let vas := b.places.map (·.1)
  let pc ← i.bootAt vas
  let locals ← sectionBytes i vas 4
  let opstore ← sectionBytes i vas 5
  let globals ← (List.range i.sections.length).mapM fun n => do
    let d ← i.loaded vas n
    return if (i.sections[n]?).any (·.isGlobal) then bytesAt (b.places.getD n (0, 0)).2 d else []
  let t ← i.pageTable (lowKey c) b.places b.tables
  let root ← b.tables.head?
  if i.placesOk c b && locals.length ≤ c.w && opstore.length ≤ 32768 then
    let words := (c.asidtab % 2 ^ 38 * 4096, 2 ^ 63 + (lowKey c * 2 ^ 38 + root) * 1024) :: t.entries
    return { c with
      bootPc := BitVec.ofNat 64 pc, boots := true
      image := globals.flatten ++ words.flatMap fun e => bytesAt e.1 (leBytesOf 8 e.2)
      locals := bytesAt 0 locals, opstore := bytesAt 0 opstore, file := none }
  else none

/-- What firmware places: the image of the file that the configuration includes (R330). -/
def resolved (c : PartCfg) : Option PartCfg := c.file.bind (placeBoot c)

end Sys2Proof.Machine
end

