-- ==== Sys2Proof/Machine/Sync.lean ====
section
/-! DEFINITION. Acquire and release (R121 to R123, R139 to R149), atomics (R151 to R153), fences
(R154, R155), waiting and waking (R156, R157), and the steps by which posted writes, reservations,
generations and buffered lines move. -/

namespace Sys2Proof.Machine

/-! ## Fences (R154, R155) -/

/-- Whether a fence of a scope has a home to probe (R154): every residue modulo 63 is a slice of
every die, so any touched slice gives a target within DIE, MOD and POD; CORE reaches none. -/
def probes (c : Scope) (t : Word) : Bool :=
  match c with
  | .core => false
  | .quad | .die | .mod => t &&& 0x7FFFFFFFFFFFFFFF != 0
  | .pod => t != 0

/-- The mask of touched homes after a fence (R154). -/
def clearedMask (c : Scope) (t : Word) : Word :=
  match c with
  | .mod => t &&& 0x8000000000000000
  | .pod => 0
  | _ => t

/-- sr.tval of a fence that lost writes (R155). -/
def lostVal (n m : Nat) : Word := BitVec.ofNat 64 (n * 2 ^ 32 + m % 1024)

/-- `Fence(scope)` (R154, R155), every echo that R133 waits for being in: the probes of the scope
go out and echo, the mask is cleared, and a lost write is reported. -/
def fence (c : Scope) : M Unit := do
  let s ← get
  if probes c s.me.touched && !(s.cur.used < s.me.replies) then
    set (s.post (.fenceProbe s.key s.slot))
    throw (.block (.fence c))
  else
    set (s.modMe fun t =>
      { t with touched := clearedMask c t.touched, lost := 0, lostMod := 0, replies := 0 })
    trapIf (s.me.lost != 0) 0x07 (lostVal s.me.lost s.me.lostMod)

/-- The scope POD is illegal where its feature is masked (R249). -/
def scopeMasked (s : State) (c : Scope) : Bool := c == .pod && s.masked s.myPart 7

/-- An instruction with a scope issues. -/
def issueScope (c : Scope) (rs : List Reg) (s : State) (body : M Unit) : Out :=
  if scopeMasked s c then .next s.illegal else issueM rs s body

def execSynFence (c : Scope) (s : State) : Out :=
  issueScope c [] s do
    waitEchoes
    fence c
    modify fun s => s.seq

/-! ## Synchronisation lines (R140 to R143) -/

/-- The checks that LRW and SCR share, and the translation of the line at `va` (R140, R142, R143): it
lies on an RC or SO page and has a home slice. DESIGN CHOICE: in a local-memory or launch window, which has
none, the access traps as on a UO page (log entry 44). -/
def syncTarget (va : Word) (acc : Access) : M Xlated := do
  trapIf (va.extractLsb' 0 7 != 0) 0x03 va
  let x ← translate va acc
  trapIf (x.cls = .uo) 0x04 va
  match place (loc x.pa) with
  | .dram _ => pure ()
  | .pod _ => pure ()
  | _ => throw (.trap 0x04 va)
  return x

/-- The access of the line itself, and its address as accesses are steered: a poisoned line traps (R188, R280), an L1
line of another frame leaves, and a write-back of this one that is on its way comes first (R128). -/
def syncReady (va : Word) (x : Xlated) : M Nat := do
  poisonCheck va x.pa true
  modify fun s => s.freshFrame va x
  let s ← get
  blockIf (s.evictionInFlight s.myCore s.myPart (s.steer s.myPart x.pa)) (.evicted (s.steer s.myPart x.pa))
  return s.steerPa s.myPart x.pa

/-- A transaction of the pod that a context's synchronisation waits for has failed: it traps with the VA that
its register a holds (R188). -/
def State.failCtx (s : State) (k : Nat) (x : Slot) : State :=
  let c := s.ctx k x
  s.trapOf k x 0x04 ((c.fetched.map fun w => c.rd (fA w.1)).getD 0)

/-- Bytes 0 to 7 of a line, read at its home under the key of the request (R26, R140). -/
def lineValue (p pa : Nat) : M Word := do
  let s ← get
  let d ← readLine (s.homeAgent p (s.steer p pa)) p pa
  return BitVec.ofNat 64 (sliceNat d 0 8)

/-- A die that two partitions share (R289). -/
def State.shared (s : State) (d : Nat) : Bool :=
  (s.parts.filter fun e => e.2.cfg.dies.contains d).length > 1

/-- Two partitions share the slices of a line's home (R291). -/
def State.sharesHome (s : State) (line : Nat) : Bool := !isPodLine line && s.shared (homeDie line)

/-- What other modules use of the slices of a line's home on another module is not seen from here: `choices` says
whether they have left room (log entry 41). -/
def State.takenAbroad (s : State) (line : Nat) : Bool := isPodLine line && s.choice

/-- That choice is used up. -/
def State.usedAbroad (s : State) (line : Nat) : State := if isPodLine line then s.dropChoice else s

/-- Of the entries of a line's home slice those of one partition alone are counted: two share its die (R291), or the
line is another module's, of which this one sees no other partition (R295). -/
def State.countsOwn (s : State) (line : Nat) : Bool := s.sharesHome line || isPodLine line

/-- The queue entries that a home slice has given out, or gives a partition when two share the die
(R141, R291). -/
def State.queueUsed (s : State) (p line : Nat) : Nat :=
  (s.sync.filter fun e => sliceOf (tagLine e.1) = sliceOf line && (!s.countsOwn line || partOf e.1 = p)).foldl
    (fun n e => n + e.2.queue.length) 0

def State.queueRoom (s : State) (p line : Nat) : Bool :=
  s.queueUsed p line < (if s.sharesHome line then 32 else 64) && !s.takenAbroad line

/-- The reservations of a context (R141). -/
def Core.heldBy (c : Core) (o : Owner) : List Nat := (c.resv.filter fun e => e.2 = o).map (·.1)

/-- The result that says a queue is full (R142). -/
def qfull : Word := 0x8000000000000001

/-- The acquire (R142). DESIGN CHOICE: a holder that acquires again takes the line's value as it stands, where another
instruction has set its bit 63 too; the core's table is looked at when the acquire issues, and not again when it is
granted (log entry 44). -/
def execSynLrw (d a : Reg) (s : State) : Out :=
  issueM [d, a] s do
    let va := (← get).rg a
    let x ← syncTarget va .sync
    let s ← get
    let line := s.steer s.myPart x.pa
    let held := s.mine.heldBy (.slot s.slot)
    if held.contains line then
      let pa ← syncReady va x
      waitEchoes
      let v ← orTrap va (lineValue s.myPart pa)
      modify fun s => s.result d v
    else
      trapIf (held.length ≥ 4) 0x04 va
      if s.mine.resv.length ≥ 64 then set (s.result d qfull)
      else
        let pa ← syncReady va x
        waitEchoes
        let s ← get
        if s.queueRoom s.myPart line then
          let l := s.syncLine s.myPart line
          let req := s.nextId
          let s := ({ s with nextId := req + 1 } : State).setSync s.myPart line
            { l with queue := l.queue ++ [⟨s.key, s.slot, req, false, false⟩] }
          set ((if l.queue.isEmpty then s.post (.reservationHead ⟨s.myPart, line⟩) else s).usedAbroad line)
          throw (.block (.lrw req line pa d))
        else set ((s.usedAbroad line).result d qfull)

def execSynScr (d a b : Reg) (s : State) : Out :=
  issueM [d, a, b] s do
    let va := (← get).rg a
    let x ← syncTarget va .atomic
    let s ← get
    if !(s.mine.heldBy (.slot s.slot)).contains (s.steer s.myPart x.pa) then set (s.result d 1)
    else if (s.rg b).getLsbD 63 then set (s.result d 2)
    else
      let pa ← syncReady va x
      waitEchoes
      let s ← get
      set (s.post (.scrHomeUpdate s.key s.slot pa (s.rg b)))
      throw (.block (.scr d))

/-- The head of a line's queue leaves and the next entry, if any, heads it (R143). -/
def State.passHead (s : State) (p line : Nat) : State :=
  let l := s.syncLine p line
  let s := s.setSync p line { l with queue := l.queue.tail }
  if l.queue.tail.isEmpty then s else s.post (.reservationHead ⟨p, line⟩)

/-- A waiter leaves a line's queue (R142), granted or not: when it was the head, the next heads the queue. -/
def State.leaveQueue (s : State) (p line req : Nat) : State :=
  let l := s.syncLine p line
  if l.queue.head?.any fun q => q.req = req then s.passHead p line
  else s.setSync p line { l with queue := l.queue.filter fun q => q.req ≠ req }

/-- A request with a step that waits for it. -/
def OpenReq.awaitedBy (q : OpenReq) (i : Instr) : OpenReq :=
  if i ∈ q.early then q else { q with early := q.early ++ [i] }

/-- A step that the data of a marked request may serve (R162): not the compare of a `SYN.WAIT`, which is one step at the
home with the registration (R157). It asks again. -/
def servedOnce : Instr → Bool
  | .waitHomeCompare _ _ _ _ _ _ => false
  | _ => true

/-- A step waits; where it waits for a line that a die has asked for, it counts among those that wait on the request
(R162). -/
def State.parkOn (s : State) (self : Instr) : Wait → State
  | .line d line =>
    (s.modDie d fun e => { e with
      reqs := e.reqs.map fun q => if q.line = line then q.awaitedBy self else q }).park self
  | _ => s.park self

/-- An event whose parts may have to wait for a line: what it asked for stays, and it is tried
again. `failed` is what follows where a transaction with the pod fails (R188). -/
def State.eventOr (s : State) (self : Instr) (m : M Unit) (failed : State → State) : State :=
  match m s with
  | .ok _ s' => s'
  | .error .err s' => failed s'
  | .error (.block w) s' => s'.parkOn self w
  | .error _ s' => s'.park self

/-- An event that reaches no other module. -/
def State.event (s : State) (self : Instr) (m : M Unit) : State := s.eventOr self m fun s => s.park self

/-- R121: the home acts on the locus for an acquire of context (k, x), which `req` numbers. -/
def State.locusAction (s : State) (k : Nat) (x : Slot) (line req : Nat) : State :=
  match (s.syncLine (partOf k) line).locus with
  | some l =>
    if l = k then s.post (.reservationGrant k x ⟨line, req⟩ false)
    else s.post (.writebackRequest l k x ⟨line, req⟩)
  | none => s.post (.reservationGrant k x ⟨line, req⟩ true)


/-- Every dirty RC line of a partition in a core's L1 is written to its home and stays, clean
(R122). -/
def State.writeBackRc (s : State) (owner : Nat) : State :=
  ((s.hwOf (coreOf owner)).l1.filter fun l =>
      l.part = partOf owner && l.cls = .rc && l.dirty ≠ 0).foldl
    (fun s l => s.writeBack (coreOf owner) l (.evict (coreOf owner))) s

def execWritebackRequest (owner k : Nat) (x : Slot) (a : Ask) (s : State) : Out :=
  done <| (s.writeBackRc owner).post (.writebackAcknowledgement owner (k, x) a)

/-- The releaser acknowledges only when every home has accepted its lines (R122, R146). -/
def execWritebackAcknowledgement (owner : Nat) (c : Nat × Slot) (a : Ask) (s : State) : Out :=
  done <|
    if s.writeBacksInFlight (coreOf owner) (partOf owner) then s.park (.writebackAcknowledgement owner c a)
    else s.post (.reservationGrant c.1 c.2 a true)

/-- The acquire that `req` numbers is complete (R142, R153): an LRW enters the line in the core's table and
takes the value (DESIGN CHOICE: past 64 entries too, where several acquires have waited: log entry 44); an ACQ atomic
executes again and finds its acquire done, with the releases that the home
acted on. An acquire withdrawn meanwhile has no effect. -/
def State.acquired (s : State) (k : Nat) (x : Slot) (req : Nat) (self : Instr) : State :=
  match (s.ctx k x).wait with
  | some (.lrw r line pa d) =>
    if r = req then
      s.eventOr self (do
        let v ← lineValue (partOf k) pa
        modify fun s =>
          (s.modCore k fun c => { c with resv := c.resv ++ [(line, .slot x)] }).finish k x d
            (v &&& 0x7FFFFFFFFFFFFFFF))
        fun s => (s.leaveQueue (partOf k) line req).failCtx k x
    else s
  | some (.acq r line rels) =>
    if r = req then (s.modCtx k x fun c => { c with acq := some (line, rels) }).reply k x else s
  | _ => s

/-- Whether a grant still concerns this context: it waits for the acquire that `req` numbers. -/
def Ctx.acquires (c : Ctx) (req : Nat) : Bool :=
  match c.wait with
  | some (.lrw r _ _ _) => r = req
  | some (.acq r _ _) => r = req
  | _ => false

/-- The home records the grant (R147). -/
def State.markGranted (s : State) (p line req : Nat) : State :=
  let l := s.syncLine p line
  s.setSync p line { l with queue := l.queue.map fun q => if q.req = req then { q with granted := true } else q }

/-- A request that the home has granted. -/
def State.isGranted (s : State) (p line req : Nat) : Bool :=
  (s.syncLine p line).queue.any fun q => q.req = req && q.granted

/-- A grant reaches the acquiring core (R147), and advances its generation once (R121). -/
def execReservationGrant (k : Nat) (x : Slot) (a : Ask) (adv : Bool) (s : State) : Out :=
  done <|
    if (s.ctx k x).acquires a.req && !(adv && s.isGranted (partOf k) a.at_ a.req) then
      let s := s.markGranted (partOf k) a.at_ a.req
      if adv then { s with urgent := s.urgent ++ [.generationAdvance k x a] }
      else s.acquired k x a.req (.reservationGrant k x a false)
    else s

/-- A context that waits for a line has asked for it before now (R145). -/
def Ctx.fills (c : Ctx) : Bool :=
  match c.wait with
  | some (.line _ _) | some (.late _ _) | some (.served _ _) => true
  | _ => false

/-- R145: fills in flight come first, and a wrap waits while a line of the partition carries the
next stamp; a sweep clears it. -/
def execGenerationAdvance (k : Nat) (x : Slot) (a : Ask) (s : State) : Out :=
  done <|
    let self := Instr.generationAdvance k x a
    let next := (s.core k).gen + 1
    if !(s.ctx k x).acquires a.req then s
    else if (List.finRange 16).any fun y => (s.ctx k y).fills then s.park self
    else if (s.hwOf (coreOf k)).l1.any fun l => l.part = partOf k && l.stamp = next then
      (s.post (.l1Sweep (coreOf k) (partOf k))).park self
    else
      (s.modCore k fun c => { c with gen := next }).acquired k x a.req (.reservationGrant k x a false)

/-- The background sweep (R145). -/
def sweepLine (part : Nat) (gen : BitVec 4) (l : L1Line) : L1Line :=
  if l.part = part ∧ l.stamp ≠ gen then
    { l with valid := if l.cls = .rc then l.valid &&& l.dirty else l.valid, stamp := gen }
  else l

def execL1Sweep (core part : Nat) (s : State) : Out :=
  done <| s.modHw core fun h =>
    let swept := h.l1.map (sweepLine part (s.core (keyOf core part)).gen)
    { h with l1 := swept.filter fun l => !(l.part = part && l.valid = 0) }

/-- The home's part of a release (R143), as one step. -/
def State.release (s : State) (k : Nat) (o : Owner) (line : Nat) : State :=
  ((s.setLocus (partOf k) line k).passHead (partOf k) line).modCore k fun c =>
    { c with resv := c.resv.filter fun e => ¬ (e.1 = line ∧ e.2 = o) }

def execScrHomeUpdate (k : Nat) (x : Slot) (pa : Nat) (v : Word) (s : State) : Out :=
  done <| s.eventOr (.scrHomeUpdate k x pa v) (do
    let line := s.steer (partOf k) pa
    writeLlc (s.homeAgent (partOf k) line) (partOf k) pa (maskOf 0 8) (placed 0 v.toNat)
    modify fun s =>
      let s := s.release k (.slot x) line
      match (s.ctx k x).wait with
      | some (.scr d) => s.finish k x d 0
      | _ => s)
    fun s => s.failCtx k x

/-- The LLC evicts a line with a locus after obtaining its write-back (R121). The line then has no locus,
and is no synchronisation line while no request is queued: an access of it is then an ordinary one until the next
`SYN.LRW` (DESIGN CHOICE: log entry 44). Where the end table of R124 lets such an eviction
happen without saying that the next acquire advances the generation, the model follows R121 (DEDUCED: log
entry 44). -/
def execLlcLocusEviction (l : Tagged) (s : State) : Out :=
  done <| match (s.syncLine l.part l.line).locus with
    | some o =>
      let s := s.writeBackRc o
      if s.writeBacksInFlight (coreOf o) (partOf o) then s.park (.llcLocusEviction l)
      else
        let m := s.syncLine l.part l.line
        s.setSync l.part l.line { m with locus := none, used := !m.queue.isEmpty }
    | none => s

/-! ## Atomics (R151 to R153) -/

/-- The operations of R151. -/
inductive AtmOp where
  | swap | cas | add | and | or | xor | min | max | minu | maxu
  deriving DecidableEq, Repr

/-- The value an atomic writes, from the old value, the operand and the comparand, all of `w`
bits; nothing where a CAS fails (R151, R152). -/
def atmNew {w : Nat} (op : AtmOp) (old x cmp : BitVec w) : Option (BitVec w) :=
  match op with
  | .swap => some x
  | .cas => if old = cmp then some x else none
  | .add => some (old + x)
  | .and => some (old &&& x)
  | .or => some (old ||| x)
  | .xor => some (old ^^^ x)
  | .min => some (if old.sle x then old else x)
  | .max => some (if x.sle old then old else x)
  | .minu => some (if old.ule x then old else x)
  | .maxu => some (if x.ule old then old else x)

/-- The same on numbers of `n` bytes. -/
def atmApply (op : AtmOp) (n old x cmp : Nat) : Option Nat :=
  (atmNew op (BitVec.ofNat (8 * n) old) (BitVec.ofNat (8 * n) x) (BitVec.ofNat (8 * n) cmp)).map
    (·.toNat)

def MOrder.acquires : MOrder → Bool
  | .acq | .ar => true
  | _ => false

def MOrder.releases : MOrder → Bool
  | .rel | .ar => true
  | _ => false

/-- The lines of the core's L1 on a physical line, as accesses are steered, are written back and leave
(R152, R183). -/
def State.expel (s : State) (line : Nat) : State :=
  ((s.hwOf s.myCore).l1.filter fun l => l.part = s.myPart && s.steer l.part l.pa = line).foldl
    (fun s l => s.evictL1 s.myCore l) s

/-- A line enters the issuing core's buffer; a seventeenth sends the least recently used home
(R152). -/
def State.albTake (s : State) (l : AlbLine) : State :=
  let s := s.albSet s.myCore l
  let alb := (s.hwOf s.myCore).alb
  match alb[16]? with
  | some old => (s.modHw s.myCore fun h => { h with alb := h.alb.take 16 }).albReturn s.myDie old
  | none => s

/-- The line that an atomic works on, in the core's buffer (R152, R153): already there, under the key ID that last
filled or wrote it (R26), or obtained from its home, with the acquire that the order asks for. The queue and the locus of a synchronisation line
stand apart from it (R140). -/
def obtainLine (va : Word) (pa : Nat) (acq : Bool) : M AlbLine := do
  let s ← get
  let pa := s.steerPa s.myPart pa
  let line := lineOf pa
  match s.albLine s.myCore s.myPart line with
  | some l => return l
  | none =>
    set (s.expel line)
    blockIf ((← get).evictionInFlight s.myCore s.myPart line) (.evicted line)
    awaitReply
    orTrap va (ownLine s.myDie s.myPart pa)
    let s ← get
    let l := s.syncLine s.myPart line
    if acq && !l.used && s.me.acq != some (line, l.rels) then
      set (({ s with nextId := s.nextId + 1 } : State).locusAction s.key s.slot line s.nextId)
      throw (.block (.acq s.nextId line l.rels))
    let data ← orTrap va (readLine s.myDie s.myPart pa)
    return ⟨line, s.myPart, keyId pa, data, none⟩

/-- A write of a launch window that is on its way before anything else (R152). -/
def State.windowBusy (s : State) : Bool :=
  s.urgent.any fun i =>
    match i with
    | .postedWriteArrival w => w.home == .window
    | _ => false

/-- One indivisible step on the `n` bytes at a VA that translates to `x` (R151 to R153): `f` gives
what replaces them, or nothing. The old bytes are the answer. An atomic on a launch window writes before
anything else comes (log entry 44). -/
def atomicAt (va : Word) (x : Xlated) (n : Nat) (f : Nat → Option Nat) (mo : MOrder) : M Nat := do
  modify fun s => s.freshFrame va x
  match place (loc x.pa) with
  | .lcl c off =>
    awaitReply
    let s ← get
    let old := s.mem.readNat (loc x.pa) n
    match f old with
    | some new =>
      set (s.storeWindow (keyOf c s.myPart) (off / 128 * 128) (maskOf (off % 128) n)
        (placed (off % 128) new))
    | none => pure ()
    return old
  | .window p off =>
    awaitReply
    let s ← get
    if s.windowBusy then
      set (s.post (.replyArrival s.key s.slot))
      throw (.block .reply)
    let old := (s.part p).win.readNat off n
    match f old with
    | some new =>
      let w := s.posting s.key (.store s.key s.slot) x.pa (maskOf (off % 128) n) (placed (off % 128) new)
      let s := s.owes s.key s.slot w
      set ({ s with urgent := s.urgent ++ [.postedWriteArrival w] } : State)
    | none => pure ()
    return old
  | _ =>
    poisonCheck va x.pa true
    let l ← obtainLine va x.pa (MOrder.acquires mo)
    let s ← get
    let o := x.pa % 128
    let old := sliceNat l.data o n
    let l := match f old with
      | some new =>
        { l with data := mergeLine l.data (placed o new) (maskOf o n), key := keyId (s.steerPa s.myPart x.pa) }
      | none => l
    modify fun s =>
      let l := if MOrder.releases mo && !s.isSync l.part l.line then { l with pend := some s.key } else l
      let s := s.albTake l
      if s.clsOf x = .so then (s.albDrop s.myCore l.part l.line).albReturn s.myDie l else s
    return old

/-- An atomic of an ATM instruction (R151). -/
def atomic (op : AtmOp) (d a b : Reg) (sz : ASize) (mo : MOrder) (s : State) : Out :=
  issueM [d, a, b] s do
    let s ← get
    let va := s.rg a
    let n := asizeBytes sz
    trapIf (va.toNat % n != 0) 0x03 va
    let x ← translate va .atomic
    waitEchoes
    let operand := (s.rg b).toNat % 256 ^ n
    let comparand := (s.rg d).toNat % 256 ^ n
    let old ← atomicAt va x n (fun old => atmApply op n old operand comparand) mo
    modify fun s => s.result d (BitVec.ofNat 64 old)

def execAtmSwap (d a b : Reg) (sz : ASize) (mo : MOrder) (s : State) : Out := atomic .swap d a b sz mo s
def execAtmCas (d a b : Reg) (sz : ASize) (mo : MOrder) (s : State) : Out := atomic .cas d a b sz mo s
def execAtmAdd (d a b : Reg) (sz : ASize) (mo : MOrder) (s : State) : Out := atomic .add d a b sz mo s
def execAtmAnd (d a b : Reg) (sz : ASize) (mo : MOrder) (s : State) : Out := atomic .and d a b sz mo s
def execAtmOr (d a b : Reg) (sz : ASize) (mo : MOrder) (s : State) : Out := atomic .or d a b sz mo s
def execAtmXor (d a b : Reg) (sz : ASize) (mo : MOrder) (s : State) : Out := atomic .xor d a b sz mo s
def execAtmMin (d a b : Reg) (sz : ASize) (mo : MOrder) (s : State) : Out := atomic .min d a b sz mo s
def execAtmMax (d a b : Reg) (sz : ASize) (mo : MOrder) (s : State) : Out := atomic .max d a b sz mo s
def execAtmMinu (d a b : Reg) (sz : ASize) (mo : MOrder) (s : State) : Out := atomic .minu d a b sz mo s
def execAtmMaxu (d a b : Reg) (sz : ASize) (mo : MOrder) (s : State) : Out := atomic .maxu d a b sz mo s

/-! ## Waiting and waking (R156, R157) -/

/-- The physical address of the word of a wait or a wake: aligned, on an SO page, at a home slice
(R156). DESIGN CHOICE: in a local-memory or launch window, which has none, the access traps as on another page (log
entry 44). -/
def waitedWord (va : Word) : M Nat := do
  trapIf (va.extractLsb' 0 3 != 0) 0x03 va
  let x ← translate va .sync
  trapIf (x.cls ≠ .so) 0x04 va
  match place (loc x.pa) with
  | .dram _ | .pod _ => pure ()
  | _ => throw (.trap 0x04 va)
  poisonCheck va x.pa true
  return x.pa

def execSynWait (d a b : Reg) (c : Scope) (s : State) : Out :=
  issueScope c [d, a, b] s do
    let s ← get
    let va := s.rg a
    let pa ← waitedWord va
    waitEchoes
    fence c
    let s ← get
    set (({ s with nextId := s.nextId + 1 } : State).post
      (.waitHomeCompare s.key s.slot va.toNat ⟨pa, s.nextId⟩ (s.rg b) d))
    throw (.block (.synCompare s.nextId))

def execSynWake (d a b : Reg) (c : Scope) (s : State) : Out :=
  issueScope c [d, a, b] s do
    let s ← get
    let va := s.rg a
    let _ ← waitedWord va
    waitEchoes
    fence c
    let s ← get
    set (s.post (.wakeHome (.ctx s.key s.slot d) s.myPart s.me.asid.toNat va.toNat (s.rg b).toNat))
    throw (.block (.wake d))

/-- The wait-table entries that a home slice has given out, or gives a partition when two share the
die (R156, R291). -/
def State.waitsUsed (s : State) (p line : Nat) : Nat :=
  (s.waits.filter fun e => sliceOf e.line = sliceOf line && (!s.countsOwn line || e.part = p)).length

def State.waitRoom (s : State) (p line : Nat) : Bool :=
  s.waitsUsed p line < (if s.sharesHome line then 128 else 256) && !s.takenAbroad line

def execWaitHomeCompare (k : Nat) (x : Slot) (va : Nat) (a : Ask) (expect : Word) (d : Reg)
    (s : State) : Out :=
  done <|
    if (s.ctx k x).wait = some (.synCompare a.req) then
      s.eventOr (.waitHomeCompare k x va a expect d) (do
        let line := s.steer (partOf k) a.at_
        let data ← readLine (s.homeAgent (partOf k) line) (partOf k) a.at_
        modify fun s =>
          if BitVec.ofNat 64 (sliceNat data (va % 128) 8) ≠ expect then s.finish k x d 1
          else if s.waitRoom (partOf k) line then
            ({ s.modCtx k x fun c => c.blocked (.synWait va d) with
              waits := s.waits ++ [⟨partOf k, (s.ctx k x).asid, va, line, .device k x⟩] } : State).usedAbroad line
          else (s.usedAbroad line).finish k x d 2)
        fun s => s.failCtx k x
    else s

/-- The wake record of a host registration (R157). -/
def wakeRecord (asid : BitVec 16) (count : BitVec 32) : Word := (0 : BitVec 16) ++ asid ++ count

/-- Removes and wakes the device entries of a word, oldest first, at most `max` of them when `max`
is not 0, counting from `n` (R157). -/
def State.wakeDevices (part asid va max : Nat) : List WaitEntry → Nat → State → State × Nat
  | [], n, s => (s, n)
  | e :: es, n, s =>
    match e.who with
    | .device k x =>
      if e.part = part ∧ e.asid.toNat = asid ∧ e.va = va ∧ (max = 0 ∨ n < max) then
        let s := { s with waits := s.waits.erase e }
        let s := match (s.ctx k x).wait with
          | some (.synWait _ d) => s.finish k x d 0
          | _ => s
        State.wakeDevices part asid va max es (n + 1) s
      else State.wakeDevices part asid va max es n s
    | .host _ _ => State.wakeDevices part asid va max es n s

/-- Posts the wake record of each host registration of a word (R157). -/
def State.wakeHosts (s : State) (part asid va : Nat) : State :=
  let hit := fun (e : WaitEntry) => e.part = part && e.asid.toNat = asid && e.va = va
  let bump := fun (e : WaitEntry) =>
    match e.who with
    | .host hpa n => if hit e then { e with who := .host hpa (n + 1) } else e
    | .device _ _ => e
  let waits := s.waits.map bump
  { s with
    waits := waits
    hostOut := s.hostOut ++ waits.filterMap fun e =>
      match e.who with
      | .host hpa n => if hit e then some (.wakeRecord hpa (wakeRecord e.asid n)) else none
      | .device _ _ => none }

def execWakeHome (who : WakeBy) (part asid va max : Nat) (s : State) : Out :=
  done <|
    let (s, n) := State.wakeDevices part asid va max s.waits 0 s
    let s := s.wakeHosts part asid va
    match who with
    | .ctx k x d => if (s.ctx k x).wait = some (.wake d) then s.finish k x d (BitVec.ofNat 64 n) else s
    | .device => s

/-! ## Posted writes, echoes and fences on their way -/

/-- A context whose echoes have come in goes on (R133). -/
def State.echoesIn (s : State) (k : Nat) (x : Slot) : State :=
  if (s.ctx k x).wait = some .echo ∧ (s.ctx k x).posted.isEmpty then s.reply k x else s

/-- A lost write is kept for the context's next fence (R133, R155). -/
def Ctx.loses (c : Ctx) (n m : Nat) : Ctx :=
  { c with
    lost := c.lost + n
    lostMod := if n = 0 then c.lostMod else if c.lost = 0 then m else min c.lostMod m }

def execStoreEcho (k : Nat) (x : Slot) (home : Home) (lost : Option Nat) (s : State) : Out :=
  done <|
    (s.modCtx k x fun c =>
      let c := { c with posted := c.posted.erase home }
      match lost with
      | some m => c.loses 1 m
      | none => c).echoesIn k x

/-- The probes of a fence echo, every earlier posted write of the context being performed (R133,
R154). -/
def execFenceProbe (k : Nat) (x : Slot) (s : State) : Out :=
  done <| match (s.ctx k x).wait with
    | some (.fence _) => s.reply k x
    | _ => s

def execL1Eviction (core part asid vline : Nat) (s : State) : Out :=
  done <| match (s.hwOf core).l1.find? fun l =>
      l.part = part && l.asid.toNat = asid && l.va = vline with
    | some l => s.evictL1 core l
    | none => s

/-- The home recalls a line from the atomic line buffer of a core (R152). -/
def execAtomicLineRecall (core line : Nat) (s : State) : Out :=
  done <| match (s.hwOf core).alb.find? fun l => l.line = line with
    | some l => (s.albDrop core l.part line).albReturn (dieOfCore core) l
    | none => s

/-- An echo comes from another module. -/
def ofModule (m : Nat) (h : Home) : Bool :=
  match h with
  | .pod n _ => n = m
  | _ => false

/-- Outstanding writes that a test of their homes selects are lost, as writes to module `m` (R155, R180):
neither they nor their echoes arrive. -/
def State.loseHomes (s : State) (lost : Home → Bool) (m : Nat) : State :=
  let keep := fun (i : Instr) =>
    match i with
    | .postedWriteArrival w => !lost w.home
    | .storeEcho _ _ home _ => !lost home
    | _ => true
  let s : State := { s with
    flight := s.flight.filter keep, parked := s.parked.filter keep, urgent := s.urgent.filter keep }
  s.cores.foldl (fun s e => (List.finRange 16).foldl (fun s x =>
    let n := ((s.ctx e.1 x).posted.filter lost).length
    if n = 0 then s
    else (s.modCtx e.1 x fun c =>
      { c.loses n m with posted := c.posted.filter fun h => !lost h }).echoesIn e.1 x) s) s

end Sys2Proof.Machine
end

