-- ==== Sys2Proof/Machine/Threads.lean ====
section
/-! DEFINITION. Contexts, context 0 and its events, engines, semaphores, spill and fill, tasks,
watches, messages, spawns and barriers (R89 to R116). -/

namespace Sys2Proof.Machine

/-! ## Starting and ending contexts (R95, R96) -/

/-- A context as START, a spawn or a launch begins it (R96): only the pending-event bit of the
slot is kept. -/
def Ctx.started (old : Ctx) (pc ra a4 a5 a6 a7 : Word) (asid : BitVec 16) (rights origin : Bool)
    (launch : Option (Nat × Nat)) : Ctx :=
  { Ctx.reset with
    st := .run
    pc := pc
    g := ((((Ctx.reset.g.set 1 ra).set 4 a4).set 5 a5).set 6 a6).set 7 a7
    asid := asid
    rights := rights
    origin := origin
    launch := launch
    hit := old.hit }

/-- The lowest FREE context of a core other than context 0 (R114, R119). -/
def Core.freeCtx (c : Core) : Option Slot :=
  (List.finRange 16).find? fun x => x ≠ 0 && c.ctxs[x].st = .free

/-- The engine of a binding code (R103). -/
def Core.engine (c : Core) (code : Nat) : Engine :=
  if code = 1 then c.vecEng else if code = 2 then c.mtxEng else c.cpyEng

def Core.setEngine (c : Core) (code : Nat) (e : Engine) : Core :=
  if code = 1 then { c with vecEng := e }
  else if code = 2 then { c with mtxEng := e }
  else if code = 3 then { c with cpyEng := e }
  else c

/-- The release of an engine leaves the identifier of its last bind (R103). -/
def Core.freeEngine (c : Core) (code : Nat) : Core :=
  if code = 0 then c else c.setEngine code { c.engine code with owner := none }

/-- A withdrawn instruction gives up its queue or table entry, with no effect (R101, R106). A
context that asked for a spawn goes on waiting until the withdrawal decides (R114). -/
def State.withdraw (s : State) (k : Nat) (x : Slot) : State :=
  let clear := fun (s : State) => s.modCtx k x Ctx.settled
  match (s.ctx k x).wait with
  | some .watch => clear s
  | some (.semp n) =>
    clear (s.modCore k fun c =>
      if h : n < 8 then
        { c with sems := c.sems.set n { c.sems[n] with queue := c.sems[n].queue.filter (· ≠ x) } }
      else c)
  | some (.barWait o _) =>
    let q := quadOf (coreOf k)
    let o : Slot := Fin.ofNat 16 o
    let b := (s.quadObjs q (partOf k))[o]
    clear (s.setObj q (partOf k) o { b with waiters := b.waiters.filter (· ≠ (k, x)) })
  | some (.barSync _ _ _ _) =>
    let chans := s.chans.map fun c => { c with arrived := c.arrived.filter (· ≠ (k, x)) }
    clear { s with chans := chans.filter fun c => !c.arrived.isEmpty }
  | some (.synWait _ _) =>
    clear { s with waits := s.waits.filter fun e => e.who ≠ .device k x }
  | some (.lrw req line _ _) => clear (s.leaveQueue (partOf k) line req)
  | some (.fpwait _ _) | some (.synCompare _) | some (.power _) => clear s
  | some (.spawn id target d _) =>
    (s.modCtx k x fun c => { c with wait := some (.spawn id target d true), deadline := none }).post
      (.spawnWithdrawal k x id target)
  | _ => s

/-- Whether everything that an ending or a spill waits for is over (R95, R106). -/
def Ctx.quiet (c : Ctx) : Bool := c.pend = 0 && !c.outstanding && c.posted.isEmpty

/-- The reservations of an ending context are released, their values unchanged (R141). -/
def State.releaseAll (s : State) (k : Nat) (o : Owner) : State :=
  ((s.core k).heldBy o).foldl (fun s line => s.release k o line) s

/-- An abandoned job leaves the window and releases its holds (R245, R248). -/
def Job.abandoned (j : Job) (tok : Reg) : Job := { j with st := .leaving, tok := tok, result := 3 }

/-- The FAILED jobs of an ending context are abandoned (R248). -/
def State.abandonAll (s : State) (k : Nat) (o : Owner) : State :=
  ((s.core k).jobs.filter fun j => j.st = .failed && j.owner = o).foldl
    (fun s j => (s.modCore k fun c => { c with
        jobs := c.jobs.map fun i => if i.id = j.id then i.abandoned 0 else i }).post (.jobComplete k j.id))
    s

/-- A share's context has ended (R119, R120); the last one of a share lets its quad report. -/
def State.shareEnds (s : State) (k : Nat) (l : Option (Nat × Nat)) (stopped : Bool) : State :=
  match l with
  | none => s
  | some (id, inst) =>
    let launches := s.launches.map fun e =>
      if e.id = id then
        { e with shares := e.shares.map fun h =>
            if h.core = coreOf k ∧ h.inst = inst then
              { h with live := h.live - 1, stops := h.stops + if stopped then 1 else 0 }
            else h }
      else e
    ({ s with launches := launches } : State).post (.launchQuadReport id (quadOf (coreOf k)) inst)

/-- The end of a context (R95), once everything it waited for is over: its reservations and its
binding are released, and it becomes EXITED or FREE. -/
def State.endContext (s : State) (k : Nat) (x : Slot) : State :=
  let c := s.ctx k x
  let s := (s.releaseAll k (.slot x)).abandonAll k (.slot x)
  let s := s.modCore k fun e => e.freeEngine c.bind.toNat
  let s := s.modCtx k x fun c =>
    { c.settled with
      st := if c.origin then .free else .exited
      bind := 0
      ending := false
      endStop := false
      launch := none }
  let s := s.shareEnds k c.launch c.endStop
  if c.origin then s else s.raise k evExit

/-- An ending context ends now, or waits out of rotation (R95). -/
def State.tryEnd (s : State) (k : Nat) (x : Slot) : State :=
  let c := s.ctx k x
  if !c.ending then s
  else if c.quiet && (c.bind.toNat != 2 || (s.core k).mqueue.isEmpty) then s.endContext k x
  else s.park (.contextEnd k x)

/-- THR.EXIT, or a second THR.STOP, begins the end of a context (R95). -/
def State.beginEnd (s : State) (k : Nat) (x : Slot) (stop : Bool) : State :=
  ((s.modCtx k x fun c => { c with ending := true, endStop := stop }).withdraw k x).tryEnd k x

def execContextEnd (k : Nat) (x : Slot) (s : State) : Out := done (s.tryEnd k x)

/-- The context number that START, STOP, CONT, SPILL and FILL name: 1 to 15 (R89). -/
def target (v : Word) : M Slot := do
  trapIf (v.toNat = 0 || v.toNat > 15) 0x04 v
  return Fin.ofNat 16 v.toNat

def execThrStart (d a : Reg) (s : State) : Out :=
  issueM [d, a, 4, 5, 6, 7] s do
    let s ← get
    let pc := s.rg a
    trapIf (pc.extractLsb' 0 2 != 0) 0x03 pc
    onlyContext0
    let x ← target (s.rg d)
    trapIf ((s.ctx s.key x).st ≠ .free) 0x04 (s.rg d)
    modify fun s =>
      (s.modCtx s.key x fun c => c.started pc s.mine.spexit (s.rg 4) (s.rg 5) (s.rg 6) (s.rg 7)
        s.me.asid s.me.rights false none).seq

/-- A VLS instruction of the context is under way (R223). -/
def Ctx.inVls (c : Ctx) : Bool :=
  c.wait.any (!·.isToken) && c.fetched.any fun w => fOp w.1 = 0x23

/-- A stop that waited for a VLS instruction takes effect once that is over (R224). -/
def Ctx.vlsOver (c : Ctx) : Ctx :=
  if c.stopping && c.fetched.isNone then
    { c with stopping := false, st := if c.st = .run then .stopped else c.st }
  else c

/-- THR.STOP acts on a context by its state (R95). One whose end is under way is not stopped (DESIGN
CHOICE: log entry 44). In a VLS instruction, which no stop cuts short, the stop waits (R224; DEDUCED: log
entry 44). -/
def State.stop (s : State) (k : Nat) (x : Slot) : State :=
  let c := s.ctx k x
  if c.ending then s
  else if c.st = .blocked ∧ c.inVls then s.modCtx k x fun c => { c with stopping := true }
  else
    match c.st with
    | .run | .blocked => s.modCtx k x fun c => { c with st := .stopped }
    | .stopped | .trapped => s.beginEnd k x true
    | _ => s

def execThrStop (d : Reg) (s : State) : Out :=
  issueM [d] s do
    onlyContext0
    let x ← target ((← get).rg d)
    modify fun s => (s.stop s.key x).seq

/-- R281: resumption past the trapping instruction, or at sr.npc. The writes of the window that waited take
effect, unless an instruction is still outstanding (R282). -/
def Ctx.continued (c : Ctx) : Ctx :=
  let c := if c.outstanding then c else c.flushed
  let c' :=
    if c.skip then
      match c.tlen with
      | some n =>
        if c.pc = c.epc then { c.advance n with vprog := 0 }
        else { c with vprog := 0, skipping := true }
      | none => { c with vprog := 0, skipping := true }
    else c
  { c' with
    skip := false
    trapRec := false
    st := if c.wait.isSome then .blocked else .run }

/-- A context resumes (R95). DESIGN CHOICE: one whose end is under way is not resumed (log entry 44). -/
def execThrCont (d : Reg) (s : State) : Out :=
  issueM [d] s do
    onlyContext0
    let x ← target ((← get).rg d)
    modify fun s =>
      let c := s.ctx s.key x
      (if (c.st = .stopped ∨ c.st = .trapped) ∧ !c.ending then s.modCtx s.key x Ctx.continued
        else s).seq

/-- The end of the issuer's own context (R95). DESIGN CHOICE: out of rotation, until what it waits for is over, it is
BLOCKED (log entry 44). -/
def execThrExit (s : State) : Out :=
  issueM [] s do
    notContext0
    modify fun s =>
      (s.modMe fun c => { c.settled with st := .blocked }).beginEnd s.key s.slot false

def execThrYield (s : State) : Out :=
  issueM [] s do
    notContext0
    modify fun s => (s.seq.modMe fun c => { c with st := .stopped }).raise s.key evYield

/-! ## Context 0 (R97 to R99) -/

/-- Context 0 leaves rotation, and is redirected in its next owned cycle once an event is there (R98). -/
def execThrIdle (s : State) : Out :=
  issueM [] s do
    onlyContext0
    modify fun s => (s.modMine fun c => { c with delivery := true }).modMe fun c => { c.settled with st := .blocked }

/-- The redirect saves no return address and clears no event bit (R98). DESIGN CHOICE: delivery stays on for an idle
context 0 that an uncorrectable error makes TRAPPED (R277), and the next event returns it to RUN (log entry 44). -/
def execEventRedirect (k : Nat) (s : State) : Out :=
  done <|
    let c := s.core k
    if c.delivery ∧ c.event ≠ 0 then
      (s.modCore k fun c => { c with delivery := false }).modCtx k 0 fun x =>
        { x with st := .run, pc := c.evec }
    else s

def execTimerArm (k n : Nat) (s : State) : Out :=
  done (s.modCore k fun c => { c with timer := BitVec.ofNat 32 n })

def execTimerDisarm (k : Nat) (s : State) : Out := done (s.modCore k fun c => { c with timer := 0 })

def execTimerExpiry (k : Nat) (s : State) : Out :=
  done ((s.modCore k fun c => { c with timer := 0 }).raise k evTimer)

/-- Lowest EXITED context (R111). -/
def Core.exitedCtx (c : Core) : Option Slot :=
  (List.finRange 16).find? fun x => c.ctxs[x].st = .exited

def execThrReap (d : Reg) (s : State) : Out :=
  issueM [d] s do
    onlyContext0
    modify fun s =>
      match s.mine.exitedCtx with
      | some x => (s.modCtx s.key x fun c => { c with st := .free }).result d (BitVec.ofNat 64 x.val)
      | none => s.result d 0

/-! ## Blocking, replies and timeouts -/

/-- A timed wait has lasted longer than sr.blkto (R101): the instruction is withdrawn and the
context traps, a spawn only once its withdrawal has found it unanswered (R114). -/
def execBlockTimeout (k : Nat) (x : Slot) (s : State) : Out :=
  done <|
    match (s.ctx k x).wait with
    | some w =>
      if w.timed then
        match w with
        | .spawn _ _ _ true => s
        | .spawn _ _ _ false => s.withdraw k x
        | _ => (s.withdraw k x).trapOf k x 0x08 0
      else s
    | none => s

/-- A reply reaches a context that waits for one (R92). -/
def execReplyArrival (k : Nat) (x : Slot) (s : State) : Out :=
  done (if (s.ctx k x).wait = some .reply then s.reply k x else s)

/-! ## Engines and semaphores (R103, R104) -/

/-- The registers of an engine zeroed (R103, R229). -/
def Core.zeroEngine (c : Core) (code : Nat) : Core :=
  if code = 1 then { c with v := Vector.replicate 32 0, q := Vector.replicate 4 0 }
  else if code = 2 then
    { c with z := Vector.replicate 4 (Vector.replicate 256 0), mcfg := 0xF0F }
  else c

/-- The bind itself (R103): under another identifier than the last, the registers are zeroed. -/
def Core.bindTo (c : Core) (code : Nat) (x : Slot) (asid : BitVec 16) : Core :=
  let c := if (c.engine code).last = some asid then c else c.zeroEngine code
  c.setEngine code ⟨some (.slot x), some asid⟩

def execThrBind (d a : Reg) (s : State) : Out :=
  issueM [d, a] s do
    let s ← get
    let code := (s.rg a).toNat
    if code > 3 then set (s.result d 2)
    else
      let other := match (s.mine.engine code).owner with
        | some o => o != .slot s.slot
        | none => false
      if code != 0 && other then set (s.result d 1)
      else
        blockIf (s.me.bind = 2 && !s.mine.mqueue.isEmpty) .matrix
        let s := s.modMine fun c => c.freeEngine s.me.bind.toNat
        let s := if code = 0 then s else s.modMine fun c => c.bindTo code s.slot s.me.asid
        set ((s.modMe fun c => { c with bind := BitVec.ofNat 2 code }).result d 0)

def execThrSemp (d : Reg) (s : State) : Out :=
  issueM [d] s do
    let s ← get
    let n := s.rg d
    if h : n.toNat < 8 then
      let e := s.mine.sems[n.toNat]
      if e.count ≠ 0 then
        set (s.modMine fun c => { c with sems := c.sems.set n.toNat { e with count := e.count - 1 } }).seq
      else
        set (s.modMine fun c => { c with sems := c.sems.set n.toNat { e with queue := e.queue ++ [s.slot] } })
        throw (.block (.semp n.toNat))
    else throw (.trap 0x04 n)

def execThrSemv (d : Reg) (s : State) : Out :=
  issueM [d] s do
    let s ← get
    let n := s.rg d
    if h : n.toNat < 8 then
      waitEchoes
      let e := s.mine.sems[n.toNat]
      match e.queue with
      | x :: q =>
        modify fun s =>
          ((s.modMine fun c => { c with sems := c.sems.set n.toNat { e with queue := q } }).finish
            s.key x 0 0).seq
      | [] =>
        let e := { e with count := if e.count = 0xFFFF then e.count else e.count + 1 }
        modify fun s => (s.modMine fun c => { c with sems := c.sems.set n.toNat e }).seq
    else throw (.trap 0x04 n)

/-! ## Spill and fill (R105 to R108) -/

/-- The status word of an image (R105). -/
def Ctx.status (c : Ctx) (x : Slot) : Nat :=
  c.bind.toNat + (if c.trapRec then 4 else 0) + (if c.rights then 8 else 0) + 16 * x.val
    + (if c.origin then 256 else 0)

/-- The words of an image but the event word, at their offsets in order from 0x000 (R105). -/
def Ctx.imageWords (c : Ctx) (x : Slot) : List Nat :=
  (List.finRange 32).map (fun (r : Fin 32) => (c.rd (BitVec.ofFin r)).toNat) ++
  [c.pc.toNat, c.loop0.start.toNat, c.loop0.last.toNat, c.loop0.count.toNat,
   c.loop1.start.toNat, c.loop1.last.toNat, c.loop1.count.toNat,
   c.round.toNat, c.touched.toNat, c.vprog.toNat,
   c.cause.toNat + (if c.skip || c.skipping then 0x10000 else 0), c.epc.toNat, c.tval.toNat,
   c.icmiss.toNat, c.blkto.toNat, c.status x, c.asid.toNat]
  ++ List.replicate 14 0

/-- Words stored one after another from an offset of a core's local memory (R106). -/
def State.storeWords (s : State) (k : Nat) : Nat → List Nat → State
  | _, [] => s
  | off, w :: ws => (s.storeLocal k off 8 w).storeWords k (off + 8) ws

/-- What an owner has in the tables of a core goes to another owner (R106, R107, R141, R245). -/
def Core.reown (c : Core) (o n : Owner) : Core :=
  let own := fun (e : Engine) => if e.owner = some o then { e with owner := some n } else e
  { c with
    watches := c.watches.map fun e => if e.2 = o then (e.1, n) else e
    resv := c.resv.map fun e => if e.2 = o then (e.1, n) else e
    jobs := c.jobs.map fun j => if j.owner = o then { j with owner := n } else j
    vecEng := own c.vecEng
    mtxEng := own c.mtxEng
    cpyEng := own c.cpyEng }

/-- What has no place in an image follows it (R120, R133, R155). -/
def Core.keep (e : Core) (off : Nat) (c : Ctx) : Core :=
  { e with kept := if c.lost = 0 ∧ c.launch = none then adel e.kept off
      else aset e.kept off ⟨c.lost, c.lostMod, c.launch⟩ }

/-- A spill begins (R106): the context is SPILLING, and its withdrawable waits are withdrawn. -/
def State.beginSpill (s : State) (k : Nat) (x : Slot) (off : Nat) (tok : Option Reg) : State :=
  let s := s.modCtx k x fun c =>
    { c with st := .spilling, trapRec := c.st = .trapped, image := off }
  let s := s.modCore k fun c => { c with spills := c.spills ++ [⟨x, off, tok⟩] }
  (s.withdraw k x).post (.spillImageWrite k x)

/-- The end of an automatic spill into image `i` of the area: USED[i] and ASPILL are set (R108). -/
def State.autoSpilled (s : State) (k i : Nat) : State :=
  (s.modCore k fun c => { c with used := c.used ||| BitVec.ofNat 8 (2 ^ i) }).raise k evAspill

/-- The image written, its event word last, whose hits from then on go to the image; what the slot owned is
the image's; the slot is FREE (R27, R106). -/
def State.writeImage (s : State) (k : Nat) (x : Slot) : State :=
  let s := s.modCtx k x Ctx.flushed
  let c := s.ctx k x
  let s := s.storeWords k c.image (c.imageWords x)
  let c := s.ctx k x
  let s := s.modCore k fun e => (e.reown (.slot x) (.image c.image)).keep c.image c
  let s := s.storeLocal k (c.image + 0x1F8) 8 (if c.hit then 1 else 0)
  let mv := (s.core k).spills.find? fun m => m.slot = x
  let s := s.modCore k fun e => { e with spills := e.spills.filter fun m => m.slot ≠ x }
  let s := s.setCtx k x Ctx.reset
  match mv with
  | some ⟨_, _, some d⟩ => s.token k 0 d 0
  | some ⟨_, off, none⟩ => s.autoSpilled k (off % 8192 / 512)
  | none => s

def execSpillImageWrite (k : Nat) (x : Slot) (s : State) : Out :=
  done <|
    let c := s.ctx k x
    if c.st = .spilling then
      if c.quiet then s.writeImage k x else s.park (.spillImageWrite k x)
    else s

/-- The checks of an image offset (R106, step 1). -/
def imageOffset (v : Word) : M Unit := do
  trapIf (v.toNat % 512 != 0) 0x03 v
  trapIf (v.toNat + 512 > (← get).window (← get).myPart) 0x04 v

/-- A spill begins (R106). DESIGN CHOICE: a context whose end is under way is not spilled, and g[d] := 1 as for a
context in another state (log entry 44). -/
def execThrSpill (d a b : Reg) (s : State) : Out :=
  issueM [d, a, b] s do
    let s ← get
    let off := s.rg b
    trapIf (off.toNat % 512 != 0) 0x03 off
    onlyContext0
    let x ← target (s.rg a)
    imageOffset off
    modify fun s =>
      let c := s.ctx s.key x
      if (c.st = .stopped ∨ c.st = .trapped) ∧ !c.ending then
        ((s.setPending d).beginSpill s.key x off.toNat (some d)).seq
      else s.result d 1

/-- A context as an image describes it (R105, R107); the event word is ORed into the slot's bits as
the last step. DESIGN CHOICE: a rounding mode that sr.round reserves is taken as it stands (log entry 36). -/
def Ctx.ofImage (old : Ctx) (w : Nat → Nat) : Ctx :=
  let r := fun (i : Nat) => BitVec.ofNat 64 (w (8 * i))
  let addr := fun (i : Nat) => r i &&& 0xFFFFFFFFFFFFFFFC
  let status := r 47
  { Ctx.reset with
    st := if status.getLsbD 2 then .trapped else .stopped
    trapRec := status.getLsbD 2
    g := Vector.ofFn fun (i : Fin 32) => if i = 0 then 0 else r i.val
    pc := addr 32
    loop0 := ⟨addr 33, addr 34, r 35⟩
    loop1 := ⟨addr 36, addr 37, r 38⟩
    round := (r 39).extractLsb' 0 5
    touched := r 40
    vprog := (r 41).extractLsb' 0 5
    cause := (r 42).extractLsb' 0 8
    skip := (r 42).getLsbD 16
    epc := r 43
    tval := r 44
    icmiss := r 45 &&& 0x03FFFFFFFFFFFFFF
    blkto := (r 46).extractLsb' 0 32
    bind := status.extractLsb' 0 2
    rights := status.getLsbD 3
    origin := status.getLsbD 8
    asid := (r 48).extractLsb' 0 16
    hit := old.hit || (r 63).getLsbD 0 }

/-- The binding that an image records is the slot's (R107). DESIGN CHOICE: where the engine is bound to nobody, it
is bound to the slot as it stands, its registers not zeroed and its last identifier kept (log entry 44). -/
def Core.fillBinding (c : Core) (code : Nat) (x : Slot) : Core :=
  if code = 0 then c else c.setEngine code { c.engine code with owner := some (.slot x) }

def execThrFill (d a b : Reg) (s : State) : Out :=
  issueM [d, a, b] s do
    let s ← get
    let off := s.rg b
    trapIf (off.toNat % 512 != 0) 0x03 off
    onlyContext0
    let x ← target (s.rg a)
    imageOffset off
    modify fun s =>
      let o := off.toNat
      let status := s.loadLocal s.key (o + 0x178) 8
      let ident := s.loadLocal s.key (o + 0x180) 8
      let other := match (s.mine.engine (status % 4)).owner with
        | some n => n != .image o
        | none => false
      if (s.ctx s.key x).st ≠ .free then s.result d 1
      else if status ≥ 512 ∨ ident ≥ 65536 then s.result d 2
      else if status % 4 != 0 && other then s.result d 3
      else
        let s := s.setPending d
        let s := s.modMine fun c =>
          (c.reown (.image o) (.slot x)).fillBinding (status % 4) x
        let s := s.modMine fun c => { c with fills := c.fills ++ [⟨x, o, some d⟩] }
        ((s.modCtx s.key x fun c => { c with st := .filling }).post (.fillComplete s.key x)).seq

/-- The image has been read into the slot (R107). DESIGN CHOICE: a context that becomes TRAPPED so has entered that
state before, and TRAP is not raised again (R97; log entry 44). -/
def execFillComplete (k : Nat) (x : Slot) (s : State) : Out :=
  done <|
    match (s.core k).fills.find? fun m => m.slot = x with
    | some m =>
      if (s.ctx k x).st = .filling then
        let kept := (aget (s.core k).kept m.off).getD ⟨0, 0, none⟩
        let s := s.modCtx k x fun c =>
          { c.ofImage (fun i => s.loadLocal k (m.off + i) 8) with
            lost := kept.lost, lostMod := kept.lostMod, launch := kept.launch }
        let s := s.modCore k fun c =>
          { c with
            fills := c.fills.filter fun f => f.slot ≠ x
            kept := adel c.kept m.off }
        match m.tok with
        | some d => s.token k 0 d 0
        | none => s
      else s
    | none => s

/-- The automatic spill of R108: the lowest STOPPED context into the lowest unused image, but none whose end is
under way (DESIGN CHOICE: log entry 44). -/
def State.autoSpill (s : State) (k : Nat) : Option State :=
  let c := s.core k
  match (List.finRange 16).find? fun x => c.ctxs[x].st = .stopped && !c.ctxs[x].ending,
      (List.range 8).find? fun i => !c.used.getLsbD i with
  | some x, some i =>
    if c.aspill then some (s.beginSpill k x (c.area.toNat * 8192 + 512 * i) none) else none
  | _, _ => none

/-- Whether an automatic spill of the core is under way. -/
def Core.autoSpilling (c : Core) : Bool := c.spills.any fun m => m.tok.isNone

/-! ## Tasks and the ready queue (R109 to R111) -/

/-- `QueueFull` (R111). -/
def Core.queueFull (c : Core) (p : Fin 4) : Bool :=
  c.ready[p].length ≥ 64 && (!c.rqEn || c.ring.length ≥ 256)

/-- The lowest slot of the ring that no task occupies. -/
def Core.ringSlot (c : Core) : Nat :=
  ((List.range 256).find? fun i => !c.ring.any fun e => e.2 = i).getD 0

/-- The local offset of a ring slot (R99, R111). -/
def Core.ringOff (c : Core) (i : Nat) : Nat := c.rqBase.toNat * 2048 + 8 * i

/-- A task is appended to its priority (R110, R111): to the hardware queue, or past its 64 entries
to the ring. -/
def State.append (s : State) (k : Nat) (p : Fin 4) (task : BitVec 16) : State :=
  let c := s.core k
  if c.ready[p].length < 64 then
    s.modCore k fun c => { c with ready := c.ready.set p (c.ready[p] ++ [task]) }
  else
    let i := c.ringSlot
    let bad := c.ringBad
    let s := s.storeLocal k (c.ringOff i) 8 (p.val * 0x10000 + task.toNat)
    s.modCore k fun c => { c with ring := c.ring ++ [(BitVec.ofFin p, i)], ringBad := bad }

/-- The oldest entry of a priority moves from the ring to the hardware queue (R111). What the slot
holds then is not defined: a free value stands there, which no store wrote. -/
def State.refill (s : State) (k : Nat) (p : Fin 4) : State :=
  let c := s.core k
  match c.ring.find? fun e => e.1 = BitVec.ofFin p with
  | some e =>
    let w : BitVec 64 := if c.ringBad then (Config.ringUndefined s.fresh).setWidth 64
      else BitVec.ofNat 64 (s.loadLocal k (c.ringOff e.2) 8)
    let rest := c.ring.erase e
    let s := s.modCore k fun c =>
      { c with
        ring := rest
        ringBad := c.ringBad && !rest.isEmpty
        ready := c.ready.set p (c.ready[p] ++ [w.extractLsb' 0 16]) }
    let a := localLoc (coreOf k) (s.localBase (partOf k) + c.ringOff e.2)
    { s with mem := s.mem.writeNat a 8 (Config.ringStale s.fresh).toNat, fresh := s.fresh + 1 }
  | none => s

def execThrRqpop (d : Reg) (s : State) : Out :=
  issueM [d] s do
    onlyContext0
    modify fun s =>
      match (List.finRange 4).find? fun p => !(s.mine.ready[p]).isEmpty with
      | some p =>
        let task := (s.mine.ready[p]).headD 0
        let s := s.modMine fun c => { c with ready := c.ready.set p (c.ready[p]).tail }
        ((s.refill s.key p).result d (BitVec.ofNat 64 (p.val * 0x10000 + task.toNat)))
      | none => s.result d 0

/-- The checks of a message at issue (R110, R113). -/
def messageCheck (core off : Word) : M Nat := do
  let s ← get
  trapIf (off.extractLsb' 0 3 != 0) 0x03 off
  trapIf (!s.presentCore s.myPart core.toNat) 0x04 core
  trapIf (off.toNat + 8 > s.window s.myPart) 0x04 off
  waitEchoes
  return keyOf core.toNat s.myPart

def execMsgDec (d a : Reg) (s : State) : Out :=
  issueM [d, a] s do
    let s ← get
    let k ← messageCheck (s.rg d) (s.rg a)
    modify fun t => (t.post (.msgDecApply (tidOf t.key t.slot) k (s.rg a).toNat)).seq

def execMsgInc (d a : Reg) (s : State) : Out :=
  issueM [d, a] s do
    let s ← get
    let k ← messageCheck (s.rg d) (s.rg a)
    modify fun t => (t.post (.msgIncApply (tidOf t.key t.slot) k (s.rg a).toNat)).seq

def execMsgPut (d a b : Reg) (s : State) : Out :=
  issueM [d, a, b] s do
    let s ← get
    let k ← messageCheck (s.rg a) (s.rg b)
    modify fun t => (t.post (.msgPutApply (tidOf t.key t.slot) k (s.rg b).toNat (s.rg d))).seq

/-- A decrement at its target (R110), as one step. -/
def execMsgDecApply (_src k off : Nat) (s : State) : Out :=
  done <|
    let old : Word := BitVec.ofNat 64 (s.loadLocal k off 8)
    let n := old.extractLsb' 0 32
    if n = 0 then s
    else
      let w := old - 1
      let p : Fin 4 := ⟨((old.extractLsb' 48 2).toNat), (old.extractLsb' 48 2).isLt⟩
      let task := old.extractLsb' 32 16
      if n = 1 ∧ task ≠ 0 then
        if (s.core k).queueFull p then
          (s.raise k evRqovf).storeLocal k off 8 (w ||| 0x8000000000000000).toNat
        else ((s.append k p task).raise k evReady).storeLocal k off 8 w.toNat
      else s.storeLocal k off 8 w.toNat

/-- An increment at its target (R110), as one step. -/
def execMsgIncApply (_src k off : Nat) (s : State) : Out :=
  done <|
    let old : Word := BitVec.ofNat 64 (s.loadLocal k off 8)
    if old.extractLsb' 0 32 = 0xFFFFFFFF then s else s.storeLocal k off 8 (old + 1).toNat

def execMsgPutApply (_src k off : Nat) (v : Word) (s : State) : Out :=
  done (s.storeLocal k off 8 v.toNat)

/-! ## Watches (R112) -/

def execThrWatch (d : Reg) (s : State) : Out :=
  issueM [d] s do
    let s ← get
    let off := s.rg d
    trapIf (off.extractLsb' 0 3 != 0) 0x03 off
    trapIf (off.toNat + 8 > s.window s.myPart) 0x04 off
    let mine := s.mine.watches.filter fun e => e.2 = .slot s.slot
    if mine.any fun e => e.1 = off.toNat then set s.seq
    else
      trapIf (mine.length ≥ 4 || s.mine.watches.length ≥ 64) 0x04 off
      set (s.modMine fun c => { c with watches := c.watches ++ [(off.toNat, .slot s.slot)] }).seq

def execThrUnwatch (d : Reg) (s : State) : Out :=
  issue [d] s fun s =>
    (s.modMine fun c =>
      { c with watches := c.watches.filter (· ≠ ((s.rg d).toNat, Owner.slot s.slot)) }).seq

def execThrWait (s : State) : Out :=
  issueM [] s do
    let s ← get
    blockIf (!s.me.hit) .watch
    set (s.modMe fun c => { c with hit := false }).seq

/-! ## Spawning (R114) -/

/-- A started child in a FREE slot, and the answer on its way. -/
def State.acceptSpawn (s : State) (r : SpawnReq) (x : Slot) : State :=
  (s.modCtx r.target x fun c => c.started r.entry (s.core r.target).spexit r.a4 r.a5 r.a6 r.a7
    (BitVec.ofNat 16 r.asid) r.rights true none).post
    (.spawnAnswerArrival r.src r.slot r.id (some x.val))

/-- The offset of an inbox entry (R99, R114). -/
def Core.inboxOff (c : Core) (i : Nat) : Nat := c.area.toNat * 8192 + 4096 + 64 * i

def execSpawnRequestArrival (r : SpawnReq) (s : State) : Out :=
  done <|
    let k := r.target
    let c := s.core k
    let refuse := s.post (.spawnAnswerArrival r.src r.slot r.id none)
    if c.auto then
      match c.freeCtx with
      | some x => s.acceptSpawn r x
      | none =>
        if c.autoSpilling then s.park (.spawnRequestArrival r)
        else
          match s.autoSpill k with
          | some s' => s'.park (.spawnRequestArrival r)
          | none => refuse
    else if c.inbox.length < 4 then
      let i := ((List.range 4).map fun j => (c.inboxAt + j) % 4).find? fun i =>
        !c.inbox.any fun e => e.1 = i
      let i := i.getD 0
      let s := s.storeWords k (c.inboxOff i)
        [r.tid.toNat, r.entry.toNat, r.a4.toNat, r.a5.toNat, r.a6.toNat, r.a7.toNat, r.asid, 1]
      (s.modCore k fun c =>
        { c with inbox := c.inbox ++ [(i, r)], inboxAt := (i + 1) % 4 }).raise k evSpawn
    else refuse

/-- Context 0 answers the oldest request of the inbox (R114), whose valid bit is then clear, as that of a
withdrawn one is (DESIGN CHOICE: log entry 44). -/
def State.answerSpawn (s : State) (k : Nat) (x : Slot) : State :=
  match (s.core k).inbox with
  | [] => s
  | (i, r) :: rest =>
    let s := s.modCore k fun c => { c with inbox := rest }
    let s := s.storeLocal k ((s.core k).inboxOff i + 56) 8 0
    if x ≠ 0 ∧ (s.ctx k x).st = .free then s.acceptSpawn r x
    else s.post (.spawnAnswerArrival r.src r.slot r.id none)

def execSpawnAnswer (k c : Nat) (s : State) : Out := done (s.answerSpawn k (Fin.ofNat 16 c))

/-- The answer at the issuer (R114): the child's thread ID, or the child inline, at g[b] as it was before
g[d] and g1 are written (DESIGN CHOICE: log entry 44). -/
def execSpawnAnswerArrival (k : Nat) (x : Slot) (id : Nat) (ans : Option Nat) (s : State) : Out :=
  done <|
    let c := s.ctx k x
    match c.wait with
    | some (.spawn i t d _) =>
      if i = id then
        match ans with
        | some n => s.finish k x d (BitVec.ofNat 64 (coreOf t * 16 + n))
        | none =>
          let entry := match c.fetched with
            | some (w, _) => c.rd (fB w)
            | none => 0
          s.modCtx k x fun c =>
            { ((c.woken.wr d 0).wr 1 (c.pc + 4)).settled with pc := entry }
      else s
    | _ => s

/-- The request is still on its way to the target. -/
def State.spawnInFlight (s : State) (id : Nat) : Bool :=
  (s.urgent ++ s.flight ++ s.parked).any fun i =>
    match i with
    | .spawnRequestArrival r => r.id = id
    | _ => false

/-- A withdrawal at the target (R114): an unanswered request is removed, and the issuer traps, or
is free of its wait when it is being spilled or is ending. -/
def execSpawnWithdrawal (k : Nat) (x : Slot) (id tgt : Nat) (s : State) : Out :=
  done <|
    let waiting := (s.core tgt).inbox.find? fun e => e.2.id = id
    let drop := fun (i : Instr) =>
      match i with
      | .spawnRequestArrival r => r.id ≠ id
      | _ => true
    let freed := fun (s : State) =>
      let c := s.ctx k x
      let s := s.modCtx k x Ctx.settled
      if c.st = .spilling ∨ c.ending then s else s.trapOf k x 0x08 0
    if s.spawnInFlight id then
      freed { s with
        flight := s.flight.filter drop
        parked := s.parked.filter drop
        urgent := s.urgent.filter drop }
    else
      match waiting with
      | some e =>
        let s := s.modCore tgt fun c => { c with inbox := c.inbox.filter fun f => f.2.id ≠ id }
        freed (s.storeLocal tgt ((s.core tgt).inboxOff e.1 + 56) 8 0)
      | none => s

/-- A spawn (R114). A core that is not there traps once the target's pad has been checked, whatever that takes
(R42). -/
def execThrSpawn (d a b : Reg) (s : State) : Out :=
  issueM [d, a, b, 1, 4, 5, 6, 7] s do
    let s ← get
    let core := s.rg a
    if s.presentCore s.myPart core.toNat then checkTarget (s.rg b) 0x0001
    else
      match checkTargetOf (some (.trap 0x04 core)) (s.rg b) 0x0001 s with
      | .error (.trap 0x02 v) _ => throw (.trap 0x02 v)
      | .error (.trap 0x03 v) _ => throw (.trap 0x03 v)
      | .error (.block w) s =>
        set s
        throw (.block w)
      | _ => throw (.trap 0x04 core)
    waitEchoes
    let s ← get
    let k := keyOf core.toNat s.myPart
    set (({ s with nextId := s.nextId + 1 } : State).post (.spawnRequestArrival
      ⟨s.nextId, s.key, s.slot, k, BitVec.ofNat 64 (tidOf s.key s.slot), s.rg b, s.rg 4, s.rg 5,
        s.rg 6, s.rg 7, s.me.asid.toNat, s.me.rights⟩))
    throw (.block (.spawn s.nextId k d false))

/-! ## Barriers (R115, R116) -/

/-- The instance of a scope that a core belongs to (R21, R22). -/
def scopeInst (c : Scope) (core : Nat) : Nat :=
  match c with
  | .core => core
  | .quad => quadOf core
  | .die => dieOfCore core
  | .mod | .pod => 0

/-- Every context that has arrived completes with a code (R115). -/
def State.finishAll (s : State) (l : List (Nat × Slot)) (v : Word) : State :=
  l.foldl (fun s e =>
    match (s.ctx e.1 e.2).wait with
    | some (.barSync _ _ _ d) => s.finish e.1 e.2 d v
    | some (.barWait _ d) => s.finish e.1 e.2 d v
    | _ => s) s

def execBarSync (d a b : Reg) (c : Scope) (s : State) : Out :=
  issueScope c [d, a, b] s do
    let s ← get
    trapIf ((s.rg a).toNat > 3) 0x04 (s.rg a)
    trapIf ((s.rg b).toNat = 0 || (s.rg b).toNat > 2 ^ 22) 0x04 (s.rg b)
    waitEchoes
    let s ← get
    let inst := scopeInst c s.myCore
    let ch := (s.rg a).toNat
    let count := (s.rg b).toNat
    let same := fun (e : SyncChan) => e.scope = c && e.inst = inst && e.part = s.myPart && e.ch = ch
    let rest := s.chans.filter fun e => !same e
    match s.chans.find? same with
    | some e =>
      if e.count ≠ count then
        set ((({ s with chans := rest } : State).finishAll e.arrived 1).result d 1)
      else if e.arrived.length + 1 = count then
        set ((({ s with chans := rest } : State).finishAll e.arrived 0).result d 0)
      else
        set { s with chans := { e with arrived := e.arrived ++ [(s.key, s.slot)] } :: rest }
        throw (.block (.barSync c inst ch d))
    | none =>
      if count = 1 then set (s.result d 0)
      else
        set { s with chans := ⟨c, inst, s.myPart, ch, count, [(s.key, s.slot)]⟩ :: rest }
        throw (.block (.barSync c inst ch d))

/-- The flip of an object (R116): its waiters are released with a result. -/
def State.flip (s : State) (q p : Nat) (o : Slot) (abort : Bool) : State :=
  let b := (s.quadObjs q p)[o]
  (s.setObj q p o
    { b with phase := !b.phase, abort := abort, left := b.arr, bytes := 0, bytesIn := 0,
             inst := b.inst + 1, waiters := [] }).finishAll b.waiters (ofBool abort)

/-- `Check` (R116). -/
def State.checkObj (s : State) (q p : Nat) (o : Slot) : State :=
  let b := (s.quadObjs q p)[o]
  if b.left = 0 ∧ b.bytesIn = b.bytes then s.flip q p o false else s

/-- The object that a register names, 0 to 15 (R116). -/
def objOf (v : Word) : M Slot := do
  trapIf (v.toNat > 15) 0x04 v
  return Fin.ofNat 16 v.toNat

/-- The quad of the issuing core. -/
def State.myQuad (s : State) : Nat := quadOf s.myCore

/-- An object of the issuing core's quad. -/
def State.myObj (s : State) (o : Slot) : BarObj := (s.quadObjs s.myQuad s.myPart)[o]

def execBarInit (d a : Reg) (s : State) : Out :=
  issueM [d, a] s do
    let s ← get
    let o ← objOf (s.rg d)
    let n := s.rg a
    trapIf (n.toNat = 0 || n.toNat > 65535) 0x04 n
    let b := s.myObj o
    set ((s.setObj s.myQuad s.myPart o
      ⟨false, b.abort, n.setWidth 16, n.setWidth 16, 0, 0, b.inst + 1, []⟩).finishAll b.waiters 1).seq

def execBarExpect (d a : Reg) (s : State) : Out :=
  issueM [d, a] s do
    let s ← get
    let o ← objOf (s.rg d)
    let b := s.myObj o
    trapIf (b.bytes + (s.rg a).toNat ≥ 2 ^ 48) 0x04 (s.rg a)
    set (s.setObj s.myQuad s.myPart o { b with bytes := b.bytes + (s.rg a).toNat }).seq

def execBarArrive (d a : Reg) (s : State) : Out :=
  issueM [d, a] s do
    let s ← get
    let o ← objOf (s.rg a)
    trapIf ((s.myObj o).left = 0) 0x04 (s.rg a)
    waitEchoes
    let s ← get
    let b := s.myObj o
    let s := s.result d (ofBool b.phase)
    set ((s.setObj s.myQuad s.myPart o { b with left := b.left - 1 }).checkObj s.myQuad s.myPart o)

def execBarWait (d a b : Reg) (s : State) : Out :=
  issueM [d, a, b] s do
    let s ← get
    let o ← objOf (s.rg a)
    let obj := s.myObj o
    if obj.phase ≠ (s.rg b).getLsbD 0 then set (s.result d (ofBool obj.abort))
    else
      set (s.setObj s.myQuad s.myPart o { obj with waiters := obj.waiters ++ [(s.key, s.slot)] })
      throw (.block (.barWait o.val d))

def execBarAbort (d : Reg) (s : State) : Out :=
  issueM [d] s do
    let s ← get
    let o ← objOf (s.rg d)
    set (s.flip s.myQuad s.myPart o true).seq

end Sys2Proof.Machine
end

