-- ==== Sys2Proof/Machine/Faults.lean ====
section
/-! DEFINITION. Translation slices and the table walk (R271 to R274), fault records and their replies
(R264, R266, R269, R276), machine checks (R277, R278), and illegal words (R39, R40). -/

namespace Sys2Proof.Machine

/-! ## The walk (R271, R272) -/

/-- What a walk finds. -/
inductive Walked where
  | leaf (pte : Word) (level pa : Nat)
  | absent (pte : Word) (level pa : Nat)
  | refused
  | poison
  deriving DecidableEq, Repr

/-- A leaf that refuses every access (R263, R272). -/
def badLeaf (pte : Word) (lv : Nat) : Bool :=
  pte.extractLsb' 57 7 != 0 || pte.extractLsb' 54 2 == 3 || pte.extractLsb' 1 2 == 2
    || (pte.getLsbD 56 && pte.getLsbD 2) || (pte.toNat / 1024 % 2 ^ (9 * lv) != 0)

/-- `ReadHome` (R272): an 8-byte read at the home, here or on another module, or nothing where the partition has
no memory there (R24 to R26). -/
def readHome (p pa : Nat) : M (Option Word) := do
  let s ← get
  match s.podResolve p .load pa with
  | none => return none
  | some pa =>
    if fetchable (loc pa) && s.admits p pa then
      let d ← readLine (s.homeAgent p (s.steer p pa)) p pa
      return some (BitVec.ofNat 64 (sliceNat d (pa % 128) 8))
    else return none

/-- One level of the walk (R272): what it finds, or the table below. -/
def walkLevel (p : Nat) (va : Word) (t lv : Nat) : M (Walked ⊕ Nat) := do
  let pa := t + 8 * (va.toNat / 2 ^ (12 + 9 * lv) % 512)
  if (← get).badLine p pa true then return .inl .poison
  match ← readHome p pa with
  | none => return .inl .refused
  | some pte =>
    if !pte.getLsbD 0 then return .inl (.absent pte lv pa)
    else if pte.extractLsb' 1 3 = 0 then
      if lv = 0 || pte.extractLsb' 54 10 != 0 then return .inl .refused
      else return .inr ((pte.extractLsb' 10 44).toNat * 4096)
    else if badLeaf pte lv then return .inl .refused
    else return .inl (.leaf pte lv pa)

/-- The walk from a table at `t` and a level (R272). -/
def walkFrom (p : Nat) (va : Word) : Nat → Nat → M Walked
  | 0, t => do
    match ← walkLevel p va t 0 with
    | .inl w => return w
    | .inr _ => return .refused
  | lv + 1, t => do
    match ← walkLevel p va t (lv + 1) with
    | .inl w => return w
    | .inr t => walkFrom p va lv t

/-- `Walk(asid, va)` (R271, R272). -/
def walkTable (p asid : Nat) (va : Word) : M Walked := do
  let ea := ((← get).part p).asidtab.toNat * 4096 + 8 * asid
  if (← get).badLine p ea true then return .poison
  match ← readHome p ea with
  | none => return .refused
  | some e =>
    if !e.getLsbD 63 || e.extractLsb' 54 9 != 0 || e.extractLsb' 0 10 != 0 then return .refused
    else walkFrom p va 4 ((e.extractLsb' 10 44).toNat * 4096)

/-! ## What a walk leads to -/

/-- The service core of a partition, the supervisors of its dies, and the supervisor of a die (R265,
R276), as core and ring. -/
def lrsOf (c : PartCfg) (d : Nat) : Option (Nat × Nat) :=
  (c.lrs.find? fun e => e.1 = d).map (·.2)
def isLrs (c : PartCfg) (core : Nat) : Bool := c.lrs.any fun e => e.2.1 = core

/-- The core that makes an access, and the thread ID its record carries (R266). -/
def whoCore : Who → Option Nat
  | .ctx k _ | .job k _ => some (coreOf k)
  | .launch _ _ => none

def State.whoTid (s : State) : Who → Nat
  | .ctx k x => tidOf k x
  | .job k id => match (s.core k).jobs.find? fun j => j.id = id with
    | some j => tidOf k j.src
    | none => tidOf k 0
  | .launch _ _ => 0x400000

/-- A job of a core changed. -/
def State.modJob (s : State) (k id : Nat) (f : Job → Job) : State :=
  s.modCore k fun c => { c with jobs := c.jobs.map fun j => if j.id = id then f j else j }

/-- A job's access is refused with a DETAIL (R240), or may go on: its step is tried again. -/
def State.jobAnswer (s : State) (k id : Nat) (detail : Option Nat) : State :=
  (s.modJob k id fun j => { j with asking := false, refused := detail }).unpark

/-- Whether the instruction that a context waits in is a JOB.SUBMIT (R227). -/
def Ctx.submits (c : Ctx) : Bool :=
  c.fetched.any fun w => w.1.extractLsb' 26 6 == 0x2D && w.1.extractLsb' 0 8 == 2

/-- An access of a context is refused: it traps, but for the header of an owner that a JOB.SUBMIT
reaches for, which rejects the card (R126, R243). -/
def State.refuseCtx (s : State) (k : Nat) (x : Slot) (acc : Access) (cause : Nat) (va : Word) : State :=
  if acc = .atomic && (s.ctx k x).submits then
    (s.modCtx k x fun c => { c with refused := some va }).reply k x
  else s.trapOf k x cause va

/-- The refusal of a translated access (R126, R240, R273); a trap that its instruction takes anyway comes first
(R42, R114). -/
def State.refuse (s : State) (r : XReq) (cause : Nat) : State :=
  match r.who with
  | .ctx k x =>
    if (s.ctx k x).wait = some .walk then
      match r.twin with
      | some (.trap c v) => s.refuseCtx k x r.acc c v
      | _ => s.refuseCtx k x r.acc cause r.va
    else s
  | .job k id => s.jobAnswer k id (some cause)
  | .launch _ _ => s

/-- The physical checks of a leaf (R25, R26, R127, R260, R272). -/
def State.reachable (s : State) (r : XReq) (pte : Word) (lv : Nat) : Bool :=
  match leafCls pte, s.podResolve r.part r.acc (leafPa pte r.va lv) with
  | some _, some pa => s.admits r.part pa && (r.acc != .fetch || fetchable (loc pa))
      && !(writes r.acc && s.inCoreMap (loc pa))
  | _, _ => false

/-- The leaf of a page, as a cache keeps it (R274). -/
def leafEntry (r : XReq) (pte : Word) (lv : Nat) : XEntry :=
  ⟨r.part, BitVec.ofNat 16 r.asid, r.va.toNat / 2 ^ (12 + 9 * lv) % 2 ^ (45 - 9 * lv), lv, pte⟩

/-- A fresh leaf enters the cache of the slice that walked, in place of what the slice had cached for the
VA; of more than 4,096 the oldest leaves (R272, R274). -/
def State.cacheLeaf (s : State) (r : XReq) (pte : Word) (lv : Nat) : State :=
  let asid := BitVec.ofNat 16 r.asid
  let h := xlatSlice asid r.va
  s.modDie r.die fun d =>
    let rest := d.xlat.filter fun o => !(o.1 = h && o.2.covers r.part asid r.va)
    let xlat := (h, leafEntry r pte lv) :: rest
    match (xlat.filter fun o => o.1 = h)[4096]? with
    | some old => { d with xlat := xlat.filter (· ≠ old) }
    | none => { d with xlat := xlat }

/-- The access waits for a record's reply (R94, R266). -/
def State.faulted (s : State) (r : XReq) (kind lv pa : Nat) (pte : Word) : State :=
  let s := match r.who with
    | .ctx k x => s.modCtx k x fun c => { c with wait := some .fault }
    | _ => s
  s.post (.faultRecordPost ⟨r, kind, lv, pa, pte, 0, 0⟩)

/-- Whether the access that a walk serves still waits for it. -/
def State.wants (s : State) : Who → Bool
  | .ctx k x => (s.ctx k x).wait = some .walk
  | .job k id => (s.core k).jobs.any fun j => j.id = id && j.asking
  | .launch _ _ => true

/-- What a walk's leaf refuses an access for, if anything (R25, R26, R273, R280). -/
def State.leafRefusal (s : State) (r : XReq) (pte : Word) (lv : Nat) : Option Nat :=
  if verdict pte r.acc = .refused || !s.reachable r pte lv then some 0x04 else none

/-- The trap that a part at a physical address takes for its line's poison, or for its memory where it is read
(R188, R280). -/
def State.poisonAt (s : State) (r : XReq) (va : Word) (pa : Nat) (fresh : Bool) : Option (Nat × Word) :=
  if s.badLine r.part pa (fresh && !writes r.acc) then some (0x0D, va) else none

/-- The trap that the other part of a split access takes, if any, before this one's page fault (R42, R134): by the
leaf that the slice has cached for it where that admits it, else by a walk. -/
def twinRefusal (r : XReq) : M (Option (Nat × Word)) := do
  match r.twin with
  | none => return none
  | some (.trap cause va) => return some (cause, va)
  | some (.known va pa fresh) => return (← get).poisonAt r va pa fresh
  | some (.walk va) =>
    let s ← get
    let cached := (s.cachedLeaf r.die r.part (BitVec.ofNat 16 r.asid) va).bind fun e =>
      s.useLeaf r.part va r.acc e.pte e.level
    match cached with
    | some x => return s.poisonAt r va x.pa true
    | none =>
      match ← walkTable r.part r.asid va with
      | .refused => return some (0x04, va)
      | .poison => return some (0x0D, va)
      | .absent _ _ _ => return none
      | .leaf pte lv _ =>
        let s ← get
        match s.leafRefusal { r with va := va } pte lv with
        | some cause => return some (cause, va)
        | none => return (s.podResolve r.part r.acc (leafPa pte va lv)).bind fun pa => s.poisonAt r va pa true

/-- A page fault posts its record (R266), unless the other part of a split access traps. -/
def walkFault (r : XReq) (kind lv pa : Nat) (pte : Word) : M Unit := do
  match ← twinRefusal r with
  | some (cause, va) => modify fun s => s.refuse { r with va := va } cause
  | none => modify fun s => s.faulted r kind lv pa pte

/-- A walk (R272); one that a failed transaction with the pod ends is refused (R188). -/
def execTranslationWalk (r : XReq) (s : State) : Out :=
  done <|
    if !s.wants r.who then s
    else s.eventOr (.translationWalk r) (do
      match ← walkTable r.part r.asid r.va with
      | .refused => modify fun s => s.refuse r 0x04
      | .poison =>
        match ← twinRefusal r with
        | some (0x04, va) => modify fun s => s.refuse { r with va := va } 0x04
        | _ => modify fun s => s.refuse r 0x0D
      | .absent pte lv pa => walkFault r 1 lv pa pte
      | .leaf pte lv pa =>
        match (← get).leafRefusal r pte lv with
        | some cause => modify fun s => s.refuse r cause
        | none =>
          if verdict pte r.acc = .cow then walkFault r 2 lv pa pte
          else
            modify fun s =>
              let s := s.cacheLeaf r pte lv
              match r.who with
              | .ctx k x => s.reply k x
              | .job k id => s.jobAnswer k id none
              | .launch _ _ => s)
      fun s => s.refuse r 0x04

/-! ## Records (R266, R276, R278) -/

/-- The number of an access in a record (R266); the release of a hold counts as a job's write (R304). -/
def accessCode : Access → Nat
  | .load => 1 | .store => 2 | .atomic | .sync => 3 | .fetch => 4 | .jobRead => 5 | .jobWrite => 6 | .launch => 7

def XReq.code (r : XReq) : Nat :=
  match r.who, r.acc with
  | .job _ _, .atomic => accessCode .jobWrite
  | _, a => accessCode a

/-- The words of a record (R266). -/
def State.recordWords (s : State) (f : FaultRec) : List Nat :=
  [f.kind + 256 * XReq.code f.req + 65536 * f.req.asid + 2 ^ 32 * f.level,
   s.whoTid f.req.who, f.req.va.toNat, f.pte, f.value.toNat, 0, 0, 0]

/-- The ring that a record goes to, as core and ring number (R266, R276); nothing where posting it is
a fatal machine check (R278). -/
def State.ringFor (s : State) (p : Nat) (core : Option Nat) : Option (Nat × Nat) :=
  let c := s.cfg p
  match core with
  | some n =>
    if isLrs c n then none
    else if n = c.svcCore then lrsOf c (dieOfCore n)
    else some (c.svcCore, c.svcRing)
  | none => some (c.svcCore, c.svcRing)

/-- A record is written into a ring, PRODUCED last (R266); nothing while the ring is full. -/
def State.postRecord (s : State) (k ring : Nat) (words : List Nat) : Option (State × Nat) :=
  let base := ring * 4096
  let n := s.loadLocal k base 8
  let c := s.loadLocal k (base + 8) 8
  if (n + 2 ^ 64 - c) % 2 ^ 64 < 63 then
    let slot := base + 64 * (1 + n % 63)
    some ((s.storeWords k slot words).storeLocal k base 8 ((n + 1) % 2 ^ 64), slot)
  else none

def execFaultRecordPost (f : FaultRec) (s : State) : Out :=
  done <|
    match s.ringFor f.req.part (whoCore f.req.who) with
    | none => s.post (.fatalMachineCheck f.req.part)
    | some (core, ring) =>
      let k := keyOf core f.req.part
      match s.postRecord k ring (s.recordWords f) with
      | some (s, slot) => { s with faults := s.faults ++ [{ f with ring := k, slot := slot }] }
      | none => s.park (.faultRecordPost f)

/-! ## Replies (R120, R269) -/

/-- A launch changed. -/
def State.modLaunch (s : State) (id : Nat) (f : Launch → Launch) : State :=
  { s with launches := s.launches.map fun l => if l.id = id then f l else l }

/-- The record of an instance is written or dropped; the next one may follow, and after the last the
launch is over (R120). -/
def State.recordOver (s : State) (id : Nat) : State :=
  match s.launches.find? fun l => l.id = id with
  | none => s
  | some l =>
    if l.next + 1 ≥ l.record.count then { s with launches := s.launches.filter fun e => e.id ≠ id }
    else
      (s.modLaunch id fun l =>
        { l with
          next := l.next + 1
          holding := false
          shares := l.shares.filter fun h => h.inst > l.next
          moved := l.moved.filter fun m => m.inst > l.next
          quads := l.quads.filter fun q => q.2 > l.next
          dies := l.dies.filter fun d => d.2 > l.next }).post (.launchCompletionWrite id (l.next + 1))

/-- A record and its wake are dropped: counted, and SVC raised (R120). -/
def State.recordDropped (s : State) (id : Nat) : State :=
  match s.launches.find? fun l => l.id = id with
  | none => s
  | some l => ((s.log (.record l.record.part)).raiseSvc l.record.part).recordOver id

def execFaultReply (f : FaultRec) (code : Nat) (s : State) : Out :=
  done <|
    match f.req.who with
    | .ctx k x =>
      if (s.ctx k x).wait = some .fault then
        if code = 0 then s.reply k x else s.refuseCtx k x f.req.acc 0x04 f.req.va
      else s
    | .job k id => s.jobAnswer k id (if code = 0 then none else some 0x05)
    | .launch id inst =>
      if code = 0 then
        (s.modLaunch id fun l => { l with holding := false }).post (.launchCompletionWrite id inst)
      else s.recordDropped id

/-! ## Machine checks (R277, R278) -/

/-- The words of a record of KIND 3 (R277). -/
def checkWords (k : Nat) (x : Slot) (c : CheckOf) : List Nat :=
  [3 + 256 * c.source + 65536 * c.asid, tidOf k x, c.cause, c.epc, c.tval, 0, 0, 0]

def execMachineCheck (k : Nat) (x : Slot) (c : CheckOf) (s : State) : Out :=
  done <|
    let p := partOf k
    if isLrs (s.cfg p) (coreOf k) then s.post (.fatalMachineCheck p)
    else
      match lrsOf (s.cfg p) (dieOfCore (coreOf k)) with
      | none => s.post (.fatalMachineCheck p)
      | some (core, ring) =>
        let sk := keyOf core p
        match s.postRecord sk ring (checkWords k x c) with
        | some (s, slot) => { s with checks := s.checks ++ [⟨k, x, c.source, sk, slot⟩] }
        | none => s.park (.machineCheck k x c)

def execMachineCheckReply (k : Nat) (x : Slot) (source code : Nat) (s : State) : Out :=
  done <|
    if source = 1 then
      if code = 0 then
        let s := s.modCore k fun c => { c with delivery := false, event := c.event ||| 0x100 }
        s.modCtx k x fun c =>
          { c.settled with st := .run, pc := (s.core k).evec, trapRec := false, skip := false }
      else s.modCore k fun c => { c with halted := true }
    else s

/-- Every core of the partition leaves rotation and its jobs stop (R278). -/
def State.stopPart (s : State) (p : Nat) : State := s.modPart p fun e => { e with stopped := true }

def execFatalMachineCheck (p : Nat) (s : State) : Out :=
  done ((s.stopPart p).log (.fatal p))

/-- The context that an error in a unit of a core concerns (R277, SOURCE 2): the slot's, or the one bound to
the engine, in its slot or spilled. -/
def Core.errorCtx (c : Core) : Unit2 → Option Owner
  | .slot x => some (.slot x)
  | .vector => c.vecEng.owner
  | .matrix => c.mtxEng.owner
  | .entry _ | .memory _ | .other _ => none

def unitEngine : Unit2 → Nat
  | .vector => 1
  | .matrix => 2
  | _ => 0

/-- The trap of an uncorrectable error (R277): the record says SOURCE 2, of context 0 too. -/
def State.errorTrap (s : State) (k : Nat) (x : Slot) : State :=
  let c := s.ctx k x
  if c.st = .free ∨ c.st = .exited ∨ c.st = .filling then s
  else
    let s := s.modCtx k x fun c => c.trapped 0x0D 0 (s.trapLen k x)
    if x = 0 then s else s.raise k evTrap

/-- The same of a context spilled to an image, where its trap is recorded and its binding released (R95,
R105, R277). -/
def State.errorImage (s : State) (k off : Nat) : State :=
  let pc := s.loadLocal k (off + 0x100) 8
  let status := s.loadLocal k (off + 0x178) 8
  let s := ((s.storeLocal k (off + 0x150) 8 0x0D).storeLocal k (off + 0x158) 8 pc).storeLocal k (off + 0x160) 8 0
  (s.storeLocal k (off + 0x178) 8 (status / 8 * 8 + 4)).raise k evTrap

/-- Whom an error in a unit of a core concerns: a context that a slot is being filled with is still in its image. -/
def Core.errorOf (c : Core) (u : Unit2) : Option Owner :=
  match c.errorCtx u with
  | some (.slot x) =>
    match c.fills.find? fun m => m.slot = x with
    | some m => some (.image m.off)
    | none => some (.slot x)
  | w => w

/-- The slot that an image's context is being filled into, else the one that it was spilled from. -/
def State.imageSlot (s : State) (k off : Nat) : Slot :=
  match (s.core k).fills.find? fun m => m.off = off with
  | some m => m.slot
  | none => Fin.ofNat 16 (s.loadLocal k (off + 0x178) 8 / 16)

/-- What a machine check tells of a context in an image (R105, R277). -/
def State.imageCheck (s : State) (k off source : Nat) : CheckOf :=
  let w := fun (o : Nat) => s.loadLocal k (off + o) 8
  ⟨source, w 0x180 % 65536, w 0x150, w 0x158, w 0x160⟩

/-- A unit has failed, and is retired at the next boot (R331; DEDUCED: log entry 24). -/
def State.fails (s : State) (f : Failure) : State := { s with failed := s.failed.filter (· ≠ f) ++ [f] }

/-- An error in a core (R277): the context that it concerns traps, an engine's registers are zeroed and its
binding is released, and the supervisor is told what the context then holds. The core has failed. One that concerns no
context names context 0 (DESIGN CHOICE: log entry 44). -/
def State.coreError (s : State) (k : Nat) (u : Unit2) : State :=
  let code := unitEngine u
  let who := (s.core k).errorOf u
  let s := s.fails (.core (coreOf k))
  let s := match who with
    | some (.slot x) =>
      let s := s.errorTrap k x
      if code = 0 then s else s.modCtx k x fun c => { c with bind := 0 }
    | some (.image off) => s.errorImage k off
    | none => s
  let s := if code = 0 then s else s.modCore k fun c => (c.zeroEngine code).freeEngine code
  match who with
  | some (.slot x) => s.post (.machineCheck k x ((s.ctx k x).check 2))
  | some (.image off) => s.post (.machineCheck k (s.imageSlot k off) (s.imageCheck k off 2))
  | none => s.post (.machineCheck k 0 ((s.ctx k 0).check 2))

/-- What has failed where a line's memory has: a near-memory channel, an LPDDR-6 channel, or slice DRAM (R331). -/
def memoryFailure (line : Nat) : Option Failure :=
  match place (lineLoc line) with
  | .dram d => some (if lineLoc line < 0x10000000000 then .die d else .lpddr d)
  | .lcl c _ => some (.core c)
  | _ => none

/-- An error of a line's memory, which every partition that holds the die meets (R280, R295). -/
def State.memoryError (s : State) (line : Nat) : State :=
  let s := match memoryFailure line with
    | some f => s.fails f
    | none => s
  let tags := (s.parts.filter fun e => e.2.cfg.dies.contains (homeDie line)).map fun e => tagOf line e.1
  { s with memErr := s.memErr ++ tags.filter fun t => !s.memErr.contains t }

/-- An error that hardware cannot correct: in a core (R277), in a directory entry, which CHK reports when it
is read next (R178), in a line of memory (R280), or in another unit, of which the spec names no other effect (R331). -/
def execUncorrectableError (k : Nat) (u : Unit2) (s : State) : Out :=
  done <|
    match u with
    | .entry line =>
      match aget s.dir (tagOf line (partOf k)) with
      | some e => { s with dir := aset s.dir (tagOf line (partOf k)) { e with chk := 2 } }
      | none => s
    | .memory line => s.memoryError line
    | .other f => s.fails f
    | u => s.coreError k u

/-! ## Illegal words (R39, R40) -/

def execIllegalInstruction (w0 w1 : W32) (s : State) : Out :=
  .next (s.trap 0x01 (illegalVal w0 w1))

end Sys2Proof.Machine
end

