-- ==== Sys2Proof/Machine/Launch.lean ====
section
/-! DEFINITION. Launches: records, shares, windows and completion records (R117 to R120), the launch
window and its registers (R298), and writes at their homes. -/

namespace Sys2Proof.Machine

/-! ## Records (R117, R118) -/

/-- A field of `n` bytes at offset `o` of a record read as a number. -/
def fieldAt (raw o n : Nat) : Nat := raw / 256 ^ o % 256 ^ n

/-- The record in 64 bytes (R117). -/
def recordOf (raw : Nat) : LaunchRec where
  diemask := BitVec.ofNat 32 (fieldAt raw 0 4)
  qfirst := fieldAt raw 4 2
  qlast := fieldAt raw 6 2
  coremask := BitVec.ofNat 4 (fieldAt raw 8 1)
  ctx := fieldAt raw 8 1 / 16
  policy := fieldAt raw 9 1 % 4
  part := fieldAt raw 10 1 % 64
  count := fieldAt raw 12 4
  entry := BitVec.ofNat 64 (fieldAt raw 16 8)
  start := fieldAt raw 24 8
  window := fieldAt raw 32 4
  period := fieldAt raw 36 4
  done := BitVec.ofNat 64 (fieldAt raw 40 8)
  a0 := BitVec.ofNat 32 (fieldAt raw 48 4)
  a1 := BitVec.ofNat 32 (fieldAt raw 52 4)
  a2 := BitVec.ofNat 32 (fieldAt raw 56 4)
  a3 := BitVec.ofNat 32 (fieldAt raw 60 4)

/-- The conditions of code 1 that need no translation (R118). DESIGN CHOICE: no partition holds a retired die, so a
diemask that names one names a die outside the partition (log entry 44). -/
def State.badRecord (s : State) (p raw : Nat) : Bool :=
  let r := recordOf raw
  fieldAt raw 9 1 ≥ 4 || fieldAt raw 10 1 ≥ 64 || fieldAt raw 11 1 != 0 || r.part != p
    || (List.range 32).any (fun d => r.diemask.getLsbD d && !(s.cfg p).dies.contains d)
    || r.qfirst > r.qlast || r.qlast > 2047 || r.coremask == 0 || r.ctx == 0 || r.count == 0
    || (r.count > 1 && (r.period == 0 || r.window > r.period)) || r.policy == 3
    || r.entry.extractLsb' 0 2 != 0 || r.done.extractLsb' 0 4 != 0

/-- The code of a submission reaches the submitter (R118, R298). -/
def State.answerLaunch (s : State) (by_ : Submitter) (code : Nat) : State :=
  match by_ with
  | .token k x d => s.token k x d (BitVec.ofNat 64 code)
  | .window p slot => s.modPart p fun e =>
      { e with win := { e.win with lstat := aset e.win.lstat slot code } }

/-- The dies a launch is aimed at; retired ones are left out (R118). -/
def State.launchDies (s : State) (l : Launch) : List Nat :=
  (List.range 32).filter fun d => l.record.diemask.getLsbD d && !s.retiredDies.contains d

/-- A submission: refused at once, or sent to its dies (R118). Where no die is left to answer, one of
the partition's checks the record all the same. -/
def State.submit (s : State) (by_ : Submitter) (p : Nat) (asid : BitVec 16) (raw : Nat) : State :=
  if s.badRecord p raw then s.answerLaunch by_ 1
  else
    let l : Launch := ⟨s.nextId, by_, asid, recordOf raw, [], false, [], [], [], [], 0, false⟩
    let s : State := { s with nextId := s.nextId + 1, launches := s.launches ++ [l] }
    let dies := s.launchDies l
    let dies := if dies.isEmpty then [(s.cfg p).dies.headD 0] else dies
    dies.foldl (fun s d => s.post (.launchDieAccept l.id d)) s

def execThrLaunch (d a : Reg) (s : State) : Out :=
  if s.masked s.myPart 8 then .next s.illegal
  else
    issueM [d, a] s do
      let s ← get
      let va := s.rg a
      trapIf (va.extractLsb' 0 6 != 0) 0x03 va
      trapIf (!s.me.rights) 0x04 0
      waitEchoes
      let raw ← loadG va 64
      let s ← get
      set ((s.setPending d).seq.submit (.token s.key s.slot d) s.myPart s.me.asid raw)

/-! ## Completion records (R118, R120) -/

/-- The page of a completion record (R118, R120). -/
inductive DonePage where
  | ok (pa : Nat)
  | fault (kind level entry : Nat) (pte : Word)
  | refused
  deriving DecidableEq, Repr

/-- The page of `done`, translated in the launch's identifier: R and W, of class SO. -/
def donePage (l : Launch) : M DonePage := do
  let p := l.record.part
  let va := l.record.done
  if !canonical va then return .refused
  let w ← walkTable p l.asid.toNat va
  let s ← get
  let r : XReq := ⟨.launch l.id l.next, 0, p, l.asid.toNat, va, .launch, none⟩
  match w with
  | .refused | .poison => return .refused
  | .absent pte lv pa => return .fault 1 lv pa pte
  | .leaf pte lv pa =>
    if !leafR pte || verdict pte .launch = .refused || !s.reachable r pte lv then return .refused
    else if verdict pte .launch = .cow then return .fault 2 lv pa pte
    else if leafCls pte != some .so then return .refused
    else
      match s.podResolve p .launch (leafPa pte va lv) with
      | some pa => return .ok pa
      | none => return .refused

/-- How many records of a partition a die holds active: accepted, and something left on the die. -/
def State.activeOn (s : State) (p d : Nat) : Nat :=
  (s.launches.filter fun l =>
    l.record.part = p && l.answers.any (fun a => a.1 = d && a.2 = 0)
      && (l.dies.filter fun e => e.1 = d).length < l.record.count - l.next).length

/-- The cores of a quad of a die that a launch is aimed at. -/
def State.launchQuad (s : State) (l : Launch) (d q : Nat) : List Nat :=
  ((List.range 4).filter fun c => l.record.coremask.getLsbD c).filterMap fun c =>
    let n := d * 8192 + q * 4 + c
    if s.presentCore l.record.part n then some n else none

/-- The quads of a die, by number over the module, that hold a target core. -/
def State.launchQuads (s : State) (l : Launch) (d : Nat) : List Nat :=
  ((List.range' l.record.qfirst (l.record.qlast + 1 - l.record.qfirst)).filter fun q =>
    !(s.launchQuad l d q).isEmpty).map fun q => d * 2048 + q

/-- Every target core. -/
def State.launchCores (s : State) (l : Launch) : List Nat :=
  (s.launchDies l).flatMap fun d =>
    (List.range' l.record.qfirst (l.record.qlast + 1 - l.record.qfirst)).flatMap (s.launchQuad l d)

/-- Every target die has answered: the launch is accepted or refused as a whole (R118). -/
def State.concludeLaunch (s : State) (l : Launch) : State :=
  let code := if l.answers.any (fun a => a.2 = 1) then 1
    else if l.answers.any (fun a => a.2 = 2) then 2 else 0
  if code = 0 then
    let s := (s.modLaunch l.id fun l => { l with active := true }).answerLaunch l.by_ 0
    let s := (s.launchCores l).foldl (fun s c => s.post (.launchShareStart l.id c 0)) s
    (s.post (.launchWindowClose l.id 0)).post (.launchCompletionWrite l.id 0)
  else
    ({ s with launches := s.launches.filter fun e => e.id ≠ l.id } : State).answerLaunch l.by_ code

/-- A die has checked a launch (R118): `bad` says that its completion record has no page. -/
def State.checkedBy (s : State) (l : Launch) (die : Nat) (bad : Bool) : State :=
  let target := (s.launchDies l).contains die
  let code := if bad then 1 else if target && s.activeOn l.record.part die ≥ 64 then 2 else 0
  let l := { l with answers := l.answers ++ [(die, code)] }
  let s := s.modLaunch l.id fun _ => l
  if l.answers.length ≥ (s.launchDies l).length then s.concludeLaunch l else s

def execLaunchDieAccept (id die : Nat) (s : State) : Out :=
  done <|
    match s.launches.find? fun l => l.id = id with
    | none => s
    | some l => s.eventOr (.launchDieAccept id die) (do
        let bad ← if l.record.done = 0 then pure false else
          match ← donePage l with
          | .ok _ => pure false
          | _ => pure true
        modify fun s => s.checkedBy l die bad)
      fun s => s.checkedBy l die true

/-! ## Shares and windows (R119) -/

/-- When the window of an instance opens and closes, in module time (R119). -/
def LaunchRec.opens (r : LaunchRec) (k : Nat) : Nat := r.start + k * r.period
def LaunchRec.closes (r : LaunchRec) (k : Nat) : Nat := r.opens k + r.window

/-- The share of a core in an instance, once it has started or been skipped. -/
def Launch.share (l : Launch) (core inst : Nat) : Option Share :=
  l.shares.find? fun h => h.core = core && h.inst = inst

/-- The move of a share past its own window. -/
def Launch.move (l : Launch) (core inst : Nat) : Option Moved :=
  l.moved.find? fun m => m.core = core && m.inst = inst

/-- A share that has missed its window starts at any time: under LATE, and under NEXT where no later
window comes. -/
def LaunchRec.anyTime (r : LaunchRec) : Bool := r.policy == 1 || r.period == 0

/-- Whether a partition runs on a die now and has not been stopped (R278, R292). -/
def State.runsOn (s : State) (p d : Nat) : Bool :=
  !(s.part p).stopped && (s.die d).powered && (s.die d).running.all fun r => r == p

/-- The core is not halted, and its partition runs (R277, R278, R292). -/
def State.mayRun (s : State) (k : Nat) : Bool :=
  !(s.core k).halted && s.runsOn (partOf k) (dieOfCore (coreOf k))

/-- The next share of a core follows (R119). -/
def State.nextShare (s : State) (l : Launch) (core inst : Nat) : State :=
  if inst + 1 < l.record.count then s.post (.launchShareStart l.id core (inst + 1)) else s

/-- The FREE contexts of a core other than context 0, lowest first. -/
def Core.freeCtxs (c : Core) : List Slot :=
  (List.finRange 16).filter fun x => x ≠ 0 && c.ctxs[x].st = .free

/-- A share starts: its contexts begin together (R96, R119). -/
def State.startShare (s : State) (l : Launch) (core inst : Nat) (xs : List Slot) : State :=
  let k := keyOf core l.record.part
  let r := l.record
  let s := xs.foldl (fun s x => s.modCtx k x fun c =>
    c.started r.entry (s.core k).spexit (r.a0.signExtend 64) (r.a1.signExtend 64)
      (r.a2.signExtend 64) (r.a3.signExtend 64) l.asid false true (some (l.id, inst))) s
  let late := (l.move core inst).isSome
  (s.modLaunch l.id fun l =>
    { l with shares := l.shares ++ [⟨core, inst, xs.length, false, late, 0⟩] }).nextShare l core inst

def execLaunchShareStart (id core inst : Nat) (s : State) : Out :=
  done <|
    match s.launches.find? fun l => l.id = id with
    | none => s
    | some l =>
      let r := l.record
      let k := keyOf core r.part
      let wait := s.park (.launchShareStart id core inst)
      if (l.share core inst).isSome then s.nextShare l core inst
      else
        let w := ((l.move core inst).map (·.into)).getD inst
        let open_ := s.time ≥ r.opens w &&
          (s.time ≤ r.closes w || ((l.move core inst).isSome && r.anyTime))
        if !open_ || !s.runsOn r.part (dieOfCore core) || (s.core k).halted then wait
        else
          let free := (s.core k).freeCtxs
          if free.length ≥ r.ctx then s.startShare l core inst (free.take r.ctx)
          else if free.isEmpty && !(s.core k).autoSpilling then
            match s.autoSpill k with
            | some s => s.park (.launchShareStart id core inst)
            | none => wait
          else wait

/-- A share of instance `inst` is skipped (R119). -/
def State.skipShare (s : State) (l : Launch) (core inst : Nat) : State :=
  (s.modLaunch l.id fun l => { l with shares := l.shares ++ [⟨core, inst, 0, true, false, 0⟩] }).post
    (.launchQuadReport l.id (quadOf core) inst)

/-- A share that has not started when window `w` closes follows the policy (R119). -/
def State.missShare (s : State) (l : Launch) (w core inst : Nat) : State :=
  let r := l.record
  if r.policy = 0 then s.skipShare l core inst
  else
    let into := if r.anyTime then w else w + 1
    s.modLaunch l.id fun l =>
      { l with moved := l.moved.filter (fun m => !(m.core = core && m.inst = inst)) ++ [⟨core, inst, into⟩] }

/-- The instances whose share of a core is still to start in window `w`. -/
def Launch.unstarted (l : Launch) (core w : Nat) : List Nat :=
  let own := if w < l.record.count ∧ w ≥ l.next ∧ l.share core w = none ∧ l.move core w = none
    then [w] else []
  let moved := (l.moved.filter fun m => m.core = core && m.into = w && (l.share core m.inst).isNone
    && !l.record.anyTime).map (·.inst)
  moved ++ own

def execLaunchWindowClose (id w : Nat) (s : State) : Out :=
  done <|
    match s.launches.find? fun l => l.id = id with
    | none => s
    | some l =>
      if s.time ≤ l.record.closes w then s.park (.launchWindowClose id w)
      else
        let s := (s.launchCores l).foldl (fun s c =>
          (l.unstarted c w).foldl (fun s i => s.missShare l w c i) s) s
        let more := w + 1 < l.record.count || (s.launches.any fun e =>
          e.id = id && e.moved.any fun m => m.into = w + 1 && !e.record.anyTime)
        (if more then s.post (.launchWindowClose id (w + 1)) else s).unpark

/-! ## Reports (R120) -/

def execLaunchQuadReport (id quad inst : Nat) (s : State) : Out :=
  done <|
    match s.launches.find? fun l => l.id = id with
    | none => s
    | some l =>
      let d := quad / 2048
      let all := (s.launchQuad l d (quad % 2048)).all fun c => (l.share c inst).any fun h => h.live = 0
      if all && !l.quads.contains (quad, inst) && inst ≥ l.next then
        (s.modLaunch id fun l => { l with quads := l.quads ++ [(quad, inst)] }).post
          (.launchDieReport id d inst)
      else s

def execLaunchDieReport (id die inst : Nat) (s : State) : Out :=
  done <|
    match s.launches.find? fun l => l.id = id with
    | none => s
    | some l =>
      let all := (s.launchQuads l die).all fun q => l.quads.contains (q, inst)
      if all && !l.dies.contains (die, inst) && inst ≥ l.next then
        (s.modLaunch id fun l => { l with dies := l.dies ++ [(die, inst)] }).post
          (.launchCompletionWrite id inst)
      else s

/-- Every target die has reported an instance; one that has nothing to run waits for its window. -/
def State.reported (s : State) (l : Launch) (inst : Nat) : Bool :=
  s.time ≥ l.record.opens inst && (s.launchDies l).all fun d =>
    (s.launchQuads l d).isEmpty || l.dies.contains (d, inst)

/-- The 16 bytes of a completion record (R120). -/
def Launch.doneRecord (l : Launch) (inst : Nat) : Nat :=
  let sh := l.shares.filter fun h => h.inst = inst
  let stops := (sh.map (·.stops)).foldl (· + ·) 0
  let skipped := (sh.filter (·.skipped)).length
  let late := (sh.filter (·.late)).length
  (inst + 1) % 2 ^ 32 + 2 ^ 32 * (stops % 2 ^ 32) + 2 ^ 64 * skipped + 2 ^ 96 * late

/-! ## The launch window (R298) -/

/-- A write to LDOOR (R298). -/
def State.ring (s : State) (p slot : Nat) : State :=
  let w := (s.part p).win
  if aget w.lstat slot = some 0xFF then s
  else
    let raw := w.slots.readNat (slot * 64) 64
    (s.modPart p fun e => { e with win := { e.win with lstat := aset e.win.lstat slot 0xFF } }).submit
      (.window p slot) p w.lasid raw

/-- A register of a launch window written with an 8-byte value (R298). -/
def State.windowReg (s : State) (p off : Nat) (v : Word) : State :=
  let mod := fun (f : Window → Window) => s.modPart p fun e => { e with win := f e.win }
  if off = 0x8000 then s.ring p (v.extractLsb' 0 9).toNat
  else if off = 0x8010 then mod fun w => { w with lasid := v.extractLsb' 0 16 }
  else if off = 0xA000 then mod fun w => { w with wasid := v.extractLsb' 0 16 }
  else if off = 0xA008 then mod fun w => { w with wva := v }
  else if off = 0xA010 then mod fun w => { w with whpa := v }
  else if off = 0xA018 then
    let add := fun (i : Instr) => { mod (fun w => { w with wres := 0xFF }) with urgent := s.urgent ++ [i] }
    match (v.extractLsb' 0 2).toNat with
    | 1 => add (.wcmdAdd p)
    | 2 => add (.wcmdRemove p)
    | _ => s
  else if off = 0xB000 then mod fun w => { w with akey := v.extractLsb' 0 6 }
  else s

/-- The bytes of a line that a mask names, written into a launch window at a multiple of 128: slots
byte by byte, registers word by word, each with the bytes not written as they read. The last argument
counts the words. -/
def State.windowWrite (s : State) (p off : Nat) (mask : LineMask) (data : LineData) : Nat → State
  | 0 => s
  | n + 1 =>
    let s := s.windowWrite p off mask data n
    let o := off + 8 * n
    let m := mask.extractLsb' (8 * n) 8
    if m = 0 then s
    else if o < 0x8000 then
      s.modPart p fun e => { e with win := { e.win with
        slots := e.win.slots.writeMask o (m.setWidth 128) ((data.extractLsb' (64 * n) 64).setWidth 1024) 8 } }
    else
      let old := (s.part p).win.word (s.part p).win.pending o
      let new := mergeLine (BitVec.ofNat 1024 old) ((data.extractLsb' (64 * n) 64).setWidth 1024)
        (m.setWidth 128)
      s.windowReg p o (new.setWidth 64)

/-- A write of some bytes of one line is performed where its address lies (R23, R127, R132); to a module that
the partition no longer reaches it is lost (R155, R181). -/
def performAt (die p pa : Nat) (mask : LineMask) (data : LineData) : M Unit :=
  match place (loc pa) with
  | .lcl c off => modify fun s => s.storeWindow (keyOf c p) (off / 128 * 128) mask data
  | .window q off => modify fun s => s.windowWrite q (off / 128 * 128) mask data 16
  | .dram _ => writeLlc die p pa mask data
  | .pod m => do
    if !(← get).cutOff p m then writeLlc die p pa mask data
  | .unmapped => pure ()

/-- The host port is on hub 0 (R181, R297). -/
def State.hostUp (s : State) : Bool := s.hubDown != some 0

def execLdoor (p slot : Nat) (s : State) : Out := done (if s.hostUp then s.ring p (slot % 512) else s)

/-- A message to the host, the network or management. -/
def State.send (s : State) (m : HostMsg) : State := { s with hostOut := s.hostOut ++ [m] }

/-- The low `n` bytes of a value written into a launch window, from one line into the next where they cross it. -/
def State.windowBytes (s : State) (p off n v : Nat) : State :=
  let h := min n (128 - off % 128)
  let s := s.windowWrite p (off / 128 * 128) (maskOf (off % 128) h) (placed (off % 128) (v % 256 ^ h)) 16
  if h < n then s.windowWrite p ((off + h) / 128 * 128) (maskOf 0 (n - h)) (placed 0 (v / 256 ^ h % 256 ^ (n - h))) 16
  else s

/-- The host's writes of up to 8 bytes through BAR0, and its reads (R297, R298). -/
def execLaunchWindowWrite (p off n : Nat) (v : Option Word) (s : State) : Out :=
  done <|
    if !s.hostUp then s
    else if off + n > 0x10000 then s.send .unsupported
    else
      match v with
      | some v => s.windowBytes p off (min n 8) v.toNat
      | none => s.send (.readData ((s.part p).win.readNat off n))

/-- The word that WASID and WVA name, as its home line (R156, R298): nothing where it is not an aligned word on an
SO page, of near memory, LPDDR-6 or another module's memory. -/
def hostWord (p : Nat) : M (Option Nat) := do
  let s ← get
  let w := (s.part p).win
  if w.wva.extractLsb' 0 3 != 0 || !canonical w.wva then return none
  match ← walkTable p w.wasid.toNat w.wva with
  | .leaf pte lv _ =>
    let s ← get
    let r : XReq := ⟨.launch 0 0, 0, p, w.wasid.toNat, w.wva, .load, none⟩
    if leafCls pte != some .so || !leafR pte || !s.reachable r pte lv then return none
    match s.podResolve p .load (leafPa pte w.wva lv) with
    | some pa =>
      match place (loc pa) with
      | .dram _ | .pod _ => return some (s.steer p pa)
      | _ => return none
    | none => return none
  | _ => return none

def State.setWres (s : State) (p v : Nat) : State :=
  s.modPart p fun e => { e with win := { e.win with wres := v } }

/-- A host registration of a partition's window matches an entry (R157). -/
def isRegistration (p : Nat) (w : Window) (e : WaitEntry) : Bool :=
  e.part = p && e.asid = w.wasid && e.va = w.wva.toNat &&
    match e.who with
    | .host hpa _ => hpa == w.whpa
    | .device _ _ => false

/-- A command at the home of the word that WASID and WVA name (R298): 3 where there is no such word. DEDUCED: where
it cannot be told because the table cannot be read, too (log entry 35). -/
def State.wcmd (s : State) (p : Nat) (i : Instr) (f : Nat → State → State) : State :=
  (s.setWres p 0xFF).eventOr i (do
    match ← hostWord p with
    | some line => modify (f line)
    | none => modify fun s => s.setWres p 3)
    fun s => s.setWres p 3

def execWcmdAdd (p : Nat) (s : State) : Out :=
  done <| s.wcmd p (.wcmdAdd p) fun line s =>
    let w := (s.part p).win
    if s.waits.any (isRegistration p w) then s.setWres p 0
    else if s.waitRoom p line then
      ({ s.setWres p 0 with
        waits := s.waits ++ [⟨p, w.wasid, w.wva.toNat, line, .host w.whpa 0⟩] } : State).usedAbroad line
    else (s.usedAbroad line).setWres p 1

def execWcmdRemove (p : Nat) (s : State) : Out :=
  done <| s.wcmd p (.wcmdRemove p) fun _ s =>
    let w := (s.part p).win
    if s.waits.any (isRegistration p w) then
      { s.setWres p 0 with waits := s.waits.filter fun e => !isRegistration p w e }
    else s.setWres p 2

/-! ## The module writes a record (R120) -/

def execLaunchCompletionWrite (id inst : Nat) (s : State) : Out :=
  done <|
    match s.launches.find? fun l => l.id = id with
    | none => s
    | some l =>
      if inst ≠ l.next || l.holding then s
      else if !s.reported l inst then
        (if (s.launchCores l).isEmpty then s.park (.launchCompletionWrite id inst) else s)
      else if l.record.done = 0 then s.recordOver id
      else s.eventOr (.launchCompletionWrite id inst) (do
        match ← donePage l with
        | .refused => modify fun s => s.recordDropped id
        | .fault kind lv entry pte =>
          modify fun s => (s.modLaunch id fun l => { l with holding := true }).post
            (.faultRecordPost ⟨⟨.launch id inst, 0, l.record.part, l.asid.toNat, l.record.done,
              .launch, none⟩, kind, lv, entry, pte, 0, 0⟩)
        | .ok pa =>
          let o := loc pa % 128
          let s ← get
          performAt (s.homeAgent l.record.part (s.steer l.record.part pa)) l.record.part pa (maskOf o 16) (placed o (l.doneRecord inst))
          modify fun s => (s.post
            (.wakeHome .device l.record.part l.asid.toNat l.record.done.toNat 0)).recordOver id)
        fun s => s.recordDropped id

end Sys2Proof.Machine
end

