-- ==== Sys2Proof/Machine/Coherence.lean ====
section
/-! DEFINITION. Posted writes at their homes (R127, R132), the messages of the directory (R172, R173), the hubs'
entries and what they do with each message (R158 to R160, R168 to R171, R174, R178, R187), the dies' copies of
exported lines (R161 to R163, R175 to R177, R339), the homes (R166), and failures (R179 to R181, R188). -/

namespace Sys2Proof.Machine

/-! ## Posted writes -/

/-- This module's own pod number, or 0 outside a pod (R180). -/
def State.ownModule (s : State) : Nat := if s.podMember then s.podModule.toNat else 0

/-- A posted write has reached its home, or `failed` there (R127, R128): the echo goes back to a context, saying that
the write is lost where its module cannot be reached or refuses it (R155, R186), and what waits for a write-back goes
on. An eviction that fails is a dirty copy lost (R188; DEDUCED: log entry 44). -/
def State.arrived (s : State) (w : Posted) (failed : Bool) : State :=
  let lost := match w.home with
    | .pod m _ => if failed || s.cutOff w.part m then some m else none
    | _ => if failed then some s.ownModule else none
  let s := match w.by_ with
    | .store k x | .maint k x => s.post (.storeEcho k x w.home lost)
    | .evict _ =>
      if lost.isSome then (s.modPart w.part fun e => { e with lostCopies := e.lostCopies + 1 }).raiseSvc w.part
      else s
  (s.replyAll fun k v => partOf k = w.part && (v == .evicted (s.steer w.part w.pa) || v == .written)).unpark

def execPostedWriteArrival (w : Posted) (s : State) : Out :=
  done <| s.eventOr (.postedWriteArrival w) (do
    performAt w.die w.part w.pa w.mask w.data
    modify fun s => s.arrived w false)
    fun s => s.arrived w true

/-! ## Messages (R172, R173) -/

/-- The header and the line of a message of the directory. -/
def message : Instr → Option (Hdr × Nat)
  | .rds h l | .rdx h l | .wbd h l _ | .notice h l | .rcl h l _ _ | .probe h l | .hrd h l _ _ | .hwb h ⟨l, _⟩ _ _
  | .hclr h ⟨l, _⟩ | .probeack h l _ _ _ | .hack h ⟨l, _⟩ | .grant h l _ | .wback h l _ | .rel h l => some (h, l)
  | .fwds r q l _ _ | .fwdx r q l _ _ | .inv r q l | .data r q l _ _ _ _ | .invack r q l | .nodata r q l _ _ _ =>
    some (⟨r, q⟩, l)
  | _ => none

/-- A message with another header and line. -/
def readdressed (f : Hdr → Nat → Hdr × Nat) (i : Instr) : Instr :=
  match i with
  | .rds h l => .rds (f h l).1 (f h l).2
  | .rdx h l => .rdx (f h l).1 (f h l).2
  | .wbd h l d => .wbd (f h l).1 (f h l).2 d
  | .notice h l => .notice (f h l).1 (f h l).2
  | .fwds r q l st a => (f ⟨r, q⟩ l).1.fwds (f ⟨r, q⟩ l).2 st a
  | .fwdx r q l st a => (f ⟨r, q⟩ l).1.fwdx (f ⟨r, q⟩ l).2 st a
  | .inv r q l => (f ⟨r, q⟩ l).1.inv (f ⟨r, q⟩ l).2
  | .rcl h l st a => .rcl (f h l).1 (f h l).2 st a
  | .probe h l => .probe (f h l).1 (f h l).2
  | .hrd h l excl counts => .hrd (f h l).1 (f h l).2 excl counts
  | .hwb h ⟨l, why⟩ d clear => .hwb (f h l).1 ⟨(f h l).2, why⟩ d clear
  | .hclr h ⟨l, why⟩ => .hclr (f h l).1 ⟨(f h l).2, why⟩
  | .hack h ⟨l, why⟩ => .hack (f h l).1 ⟨(f h l).2, why⟩
  | .data r q l d dirty ack excl => (f ⟨r, q⟩ l).1.data (f ⟨r, q⟩ l).2 d dirty ack excl
  | .invack r q l => (f ⟨r, q⟩ l).1.invack (f ⟨r, q⟩ l).2
  | .nodata r q l k st a => (f ⟨r, q⟩ l).1.nodata (f ⟨r, q⟩ l).2 k st a
  | .probeack h l st d p => .probeack (f h l).1 (f h l).2 st d p
  | .grant h l n => .grant (f h l).1 (f h l).2 n
  | .wback h l d => .wback (f h l).1 (f h l).2 d
  | .rel h l => .rel (f h l).1 (f h l).2
  | i => i

/-- The receiver of a message sends another of the same transaction (R173). -/
def onward (h : Hdr) (dst : Nat) : Hdr := { h with src := h.dst, dst := dst }

/-- The receiver of a message answers its sender. -/
def backTo (h : Hdr) : Hdr := onward h h.src

/-- A hub, as requester of a transaction of its own. -/
def isHub (u : Nat) : Bool := u == 32 || u == 33

namespace State

/-- The header of a message that the responsible hub sends on its own account. -/
def hubHdr (s : State) (p line key dst : Nat) : Hdr :=
  ⟨⟨p, 32 + s.hubOf line, dst, 0, key, false, modOf line⟩, 32 + s.hubOf line⟩

/-- The header of a message that a die sends to the responsible hub. -/
def dieHdr (s : State) (p d line key : Nat) : Hdr := ⟨⟨p, d, 32 + s.hubOf line, 0, key, false, modOf line⟩, d⟩

/-- How the switch names a line (R186, R187): a line homed here by its address in this module's part of the pod
window. -/
def outLine (s : State) (p line : Nat) : Nat :=
  if isPodLine line then line
  else
    match s.podTable.find? fun e => e.2.getLsbD 63 && (e.2.extractLsb' 56 6).toNat = p &&
        (e.2.extractLsb' 28 22).toNat = lineLoc line / 0x10000000 with
    | some e =>
      (0x1000000000000 + s.podModule.toNat * 0x4000000000 + e.1 * 0x10000000 + lineLoc line % 0x10000000) / 128
    | none => line

/-- The scale-up port of a partition that a line's traffic leaves by (R187). -/
def podPort (s : State) (p line : Nat) : Nat :=
  let l := s.portsOf p
  (l[Config.portHash line % l.length]?).getD 0

/-- A message as the switch takes it (R173, R187): about the line as the pod names it, with its module. -/
def outward (s : State) (i : Instr) : Instr :=
  readdressed (fun h l => ({ h with mod := modOf (s.outLine h.part l) }, s.outLine h.part l)) i

/-- A message leaves for its receiver; one for the switch leaves the module. -/
def emit (s : State) (i : Instr) : State :=
  match message i with
  | some (h, line) =>
    if h.dst = 34 then
      { s with switchOut := s.switchOut ++ [(s.podPort h.part (s.outLine h.part line), s.outward i)] }
    else s.post i
  | none => s.post i

/-- The tag of a message agrees with the ends of its links and with the home of its line (R173): a link of the switch is
a scale-up port, which its partition holds. -/
def tagged (s : State) (h : Hdr) (line : Nat) : Bool :=
  let mine := fun (u : Nat) =>
    isHub u || (u == 34 && !(s.cfg h.part).ports.isEmpty) || (s.cfg h.part).dies.contains u
  mine h.src && mine h.dst && mine h.req &&
    match place (lineLoc line) with
    | .dram d => mine d
    | .pod _ => true
    | _ => false

/-! ## Entries (R159, R168, R171) -/

def entryAt (s : State) (p line : Nat) : Option DirEntry := aget s.dir (tagOf line p)

/-- An entry written, with its check bits (R168), as the most recently used of its set (R171). -/
def setEntry (s : State) (line : Nat) (e : DirEntry) : State :=
  { s with
    dir := aset s.dir (tagOf line e.part) { e with chk := 0, used := s.nextId }
    nextId := s.nextId + 1 }

/-- An entry freed. -/
def freeEntry (s : State) (p line : Nat) : State := { s with dir := adel s.dir (tagOf line p) }

/-- A line without an entry that belonged to the hub that failed is U (R181). -/
def unknown (s : State) (line : Nat) : Bool := s.hubDown == some (ownHub line)

/-- What the hub is doing with a line. -/
def busyWith (s : State) (p line : Nat) : Option HubLine := s.hub.find? fun b => b.line = line && b.part = p

def setBusy (s : State) (b : HubLine) : State :=
  if (s.busyWith b.part b.line).isSome then
    { s with hub := s.hub.map fun o => if o.line = b.line ∧ o.part = b.part then b else o }
  else { s with hub := s.hub ++ [b] }

def clearBusy (s : State) (p line : Nat) : State :=
  { s with hub := s.hub.filter fun o => ¬ (o.line = line ∧ o.part = p) }

end State

def pairBit (d : Nat) : Nat := 2 ^ (d / 2)

/-- The dies that an entry's record names, in die order (R159, R160). -/
def State.recorded (s : State) (e : DirEntry) : List Nat :=
  (List.range 32).filter fun d =>
    if e.coarse then e.vec / pairBit d % 2 = 1 && (s.cfg e.part).dies.contains d else e.ptrs.contains d

/-- A record with a die added (R159). -/
def DirEntry.add (e : DirEntry) (d : Nat) : DirEntry :=
  if e.coarse then (if e.vec / pairBit d % 2 = 1 then e else { e with vec := e.vec + pairBit d })
  else if e.ptrs.contains d then e
  else if e.ptrs.length < 4 then { e with ptrs := e.ptrs ++ [d] }
  else
    let pairs := (List.range 16).filter fun k => (e.ptrs ++ [d]).any fun x => x / 2 = k
    { e with coarse := true, ptrs := [], vec := (pairs.map fun k => 2 ^ k).foldl (· + ·) 0 }

/-- A record built from a list of dies, in ascending order (R178). -/
def DirEntry.addAll (e : DirEntry) (l : List Nat) : DirEntry := l.foldl DirEntry.add e

/-- A record with a requester: the switch sets POD for a line homed here and joins no record (R187). -/
def DirEntry.join (e : DirEntry) (r line : Nat) : DirEntry :=
  if r = 34 then { e with pod := e.pod || !isPodLine line } else e.add r

/-- A record without a die; of the switch, POD (R163, R187). -/
def DirEntry.drop (e : DirEntry) (d : Nat) : DirEntry :=
  if d = 34 then { e with pod := false }
  else if e.coarse then e
  else { e with ptrs := e.ptrs.filter (· ≠ d) }

/-- Nothing is left of a record that no die and no other module is in. -/
def DirEntry.empty (e : DirEntry) : Bool := !e.coarse && e.ptrs.isEmpty && !e.pod

/-- A fresh entry. -/
def entryOf (st : HState) (owner part : Nat) (ov : Bool) (ptrs : List Nat) : DirEntry :=
  ⟨st, owner, ov, false, ptrs, 0, false, part, 0, 0⟩

/-- Who may hold data newer than memory: the owner, or the pod (R168, R169). -/
def DirEntry.keeper (e : DirEntry) : Option Nat :=
  if e.st = .s then none else if e.ov then some e.owner else if e.pod then some 34 else none

/-- The state in which an entry names a die (R175): a sharer of an O line holds it clean. -/
def DirEntry.namedState (e : DirEntry) (d : Nat) : HState :=
  if e.st = .o ∧ e.keeper ≠ some d then .s else e.st

namespace State

/-- Everyone else whom an entry names. -/
def othersOf (s : State) (e : DirEntry) : List Nat :=
  ((s.recorded e) ++ if e.pod then [34] else []).filter fun d => e.keeper ≠ some d

/-- The number of a die's open RdX that the hub has handled, 0 where there is none (R339). -/
def granted (s : State) (p d line : Nat) : Nat :=
  (((s.die d).reqs.find? fun q => q.line = line && q.part = p && q.excl && q.seen).map (·.id)).getD 0

/-- A change of the open request of a die for a line. -/
def modReq (s : State) (d p line : Nat) (f : OpenReq → OpenReq) : State :=
  s.modDie d fun e => { e with
    reqs := e.reqs.map fun q => if q.line = line ∧ q.part = p then f q else q }

/-- The hub handles a die's request. -/
def handled (s : State) (h : Hdr) (line : Nat) : State :=
  s.modReq h.req h.part line fun q => { q with seen := true }

/-- The switch must answer for a request: with data, or with an acknowledgement only. -/
def awaitsPod (s : State) (h : Hdr) (line : Nat) (data : Bool) : State :=
  s.modReq h.req h.part line fun q => { q with pod := some data }

/-! ## Home operations (R166, R187) -/

/-- The home is read for a requester: by HRd, or at the switch for a line of another module. -/
def readHome (s : State) (h : Hdr) (line : Nat) (excl counts : Bool) : State :=
  if isPodLine line then
    (s.awaitsPod h line true).emit (if excl then .rdx (onward h 34) line else .rds (onward h 34) line)
  else s.emit (.hrd (onward h (homeDie line)) line excl counts)

/-- Dirty data goes home: by HWb, or as a WbD to the switch, which the hub need not wait for. -/
def sendHome (s : State) (p line key : Nat) (data : LineData) (clear : Bool) (why : HWhy) : State :=
  if isPodLine line then
    (s.emit (.wbd (s.hubHdr p line key 34) line data)).post (.hack (backTo (s.hubHdr p line key 34)) ⟨line, why⟩)
  else s.emit (.hwb (s.hubHdr p line key (homeDie line)) ⟨line, why⟩ data clear)

/-- The exported bit is cleared: by HClr; the switch is told that the module has dropped its line. -/
def clearHome (s : State) (p line : Nat) (why : HWhy) : State :=
  if isPodLine line then
    (s.emit (.notice (s.hubHdr p line 0 34) line)).post (.hack (backTo (s.hubHdr p line 0 34)) ⟨line, why⟩)
  else s.emit (.hclr (s.hubHdr p line 0 (homeDie line)) ⟨line, why⟩)

/-! ## Recalls (R171, R187) -/

/-- Inv to everyone that an entry names, and Rcl to its keeper. -/
def takeBack (s : State) (p line : Nat) (e : DirEntry) : State :=
  let s := (s.othersOf e).foldl (fun s d => s.emit ((s.hubHdr p line 0 d).inv line)) s
  match e.keeper with
  | some o => s.emit (.rcl (s.hubHdr p line 0 o) line (e.namedState o) (s.granted p o line))
  | none => s

/-- Steps 5 and 6 of a recall, once every answer is in (R171). -/
def finishRecall (s : State) (p line : Nat) : State :=
  match s.busyWith p line with
  | some b =>
    match b.busy with
    | .recall [] false dirty =>
      let s := s.setBusy { b with busy := .hack }
      match dirty with
      | some (d, key) => s.sendHome p line key d true .recall
      | none => s.clearHome p line .recall
    | _ => s
  | none => s

/-- The probe of a line whose entry is not known, which holds messages meanwhile (R178). -/
def startProbe (s : State) (p line : Nat) (held : List Instr) (own : Option Nat) : State :=
  let dies := (s.cfg p).dies.filter fun d => !s.retiredDies.contains d
  let s := s.setBusy ⟨line, p, .probe dies [] own, held⟩
  dies.foldl (fun s d => s.emit (.probe (s.hubHdr p line 0 d) line)) s

/-- An entry that CHK does not let the hub read (R168, R178). -/
def unreadable (e : DirEntry) : Bool := e.st == .u || e.chk ≥ 2

/-- A recall begins (R171), with what the hub holds for the line; an entry that is not known is probed for. -/
def startRecall (s : State) (p line : Nat) : State :=
  let held := ((s.busyWith p line).map (·.held)).getD []
  match s.entryAt p line with
  | none => s
  | some e =>
    if unreadable e then (s.setEntry line { e with st := .u }).startProbe p line held none
    else
      let s := s.setBusy ⟨line, p, .recall (s.othersOf e) e.keeper.isSome none, held⟩
      (s.takeBack p line e).finishRecall p line

/-! ## Ways (R170, R171) -/

/-- Two lines share a set of one hub (R170). -/
def sameSet (s : State) (a b : Nat) : Bool := a % 2 ^ 24 = b % 2 ^ 24 && s.hubOf a = s.hubOf b

/-- The live entries of the set of a line. -/
def setOf (s : State) (line : Nat) : List (Nat × DirEntry) := s.dir.filter fun e => s.sameSet (tagLine e.1) line

/-- The lines of a set whose hub work a test selects. -/
def busyIn (s : State) (line : Nat) (f : HubLine → Bool) : List HubLine :=
  s.hub.filter fun b => s.sameSet b.line line && f b

/-- Whether a way is free, those that an install in progress will fill counted as taken. -/
def roomFor (s : State) (line : Nat) : Bool :=
  (s.setOf line).length + (s.busyIn line fun b =>
    match b.busy with
    | .install _ => (s.entryAt b.part b.line).isNone
    | _ => false).length < 8

/-- A message of a line is under way, or a request for it that the hub has handled is open. -/
def transacting (s : State) (p line : Nat) : Bool :=
  s.steps.any (fun i => (message i).any fun m => m.2 = line && m.1.part = p) ||
  s.dies.any fun e => e.2.reqs.any fun q => q.line = line && q.part = p && q.seen

/-- A transaction of a line is in progress (R171): the hub is at work on it too. -/
def inProgress (s : State) (p line : Nat) : Bool := (s.busyWith p line).isSome || s.transacting p line

/-- The least recently used entry of a set with no transaction in progress (R171), as a tagged line. -/
def victim (s : State) (line : Nat) : Option Nat :=
  let free := (s.setOf line).filter fun e => !s.inProgress (partOf e.1) (tagLine e.1)
  (free.foldl (fun best e =>
    match best with
    | some (l, u) => if e.2.used < u then some (e.1, e.2.used) else some (l, u)
    | none => some (e.1, e.2.used)) none).map (·.1)

/-- A line waits for a way. -/
def waitsForWay (b : HubLine) : Bool :=
  match b.busy with
  | .alloc | .rebuild _ => true
  | _ => false

/-- A way is on its way to being freed. -/
def freesWay (s : State) (b : HubLine) : Bool :=
  (s.entryAt b.part b.line).isSome &&
  match b.busy with
  | .recall _ _ _ | .hack => true
  | _ => false

/-- One way is recalled for each line that waits for one in a set (R171). -/
def makeRoom (s : State) (line : Nat) : State :=
  if (s.busyIn line s.freesWay).length < (s.busyIn line waitsForWay).length then
    match s.victim line with
    | some t => s.startRecall (partOf t) (tagLine t)
    | none => s
  else s

/-- A request for a line with no entry: the home is read and the entry installed before the data goes
on (R158, R174); without a free way the request is held (R171). -/
def install (s : State) (h : Hdr) (line : Nat) (excl : Bool) (i : Instr) : State :=
  if s.roomFor line then
    ((if excl then s.handled h line else s).setBusy ⟨line, h.part, .install h.req, []⟩).readHome h line excl false
  else (s.setBusy ⟨line, h.part, .alloc, [i]⟩).makeRoom line

end State

/-! ## Requests at the hub (R160, R174, R187) -/

/-- `RdS` against an entry (R174). -/
def State.resolveRds (s : State) (h : Hdr) (line : Nat) (e : DirEntry) : State :=
  let ask := fun (s : State) (o : Nat) =>
    (if o = 34 then s.awaitsPod h line true else s).emit
      ((onward h o).fwds line (e.namedState o) (s.granted h.part o line))
  match e.st with
  | .e => ask (s.setEntry line (({ e with st := .s, ptrs := [e.owner] } : DirEntry).join h.req line)) e.owner
  | .m =>
    let e' : DirEntry := { e with st := .o, ptrs := if e.ov then [e.owner] else [] }
    ask (s.setEntry line (e'.join h.req line)) (e.keeper.getD 34)
  | .s =>
    let s := s.setEntry line (e.join h.req line)
    if e.ov then ask s e.owner else s.readHome h line false false
  | .o => ask (s.setEntry line (e.join h.req line)) (e.keeper.getD 34)
  | .u => s

/-- The dies that must give a line up for an RdX (R160, step 1). -/
def State.rdxTargets (s : State) (r : Nat) (e : DirEntry) : List Nat :=
  let holders := match e.st with
    | .e | .m => if e.ov then [e.owner] else []
    | _ => s.recorded e
  holders.filter (· ≠ r)

/-- Who sends the requester of an RdX the data (R160, steps 1 and 2): the supplier, the first target, the switch where
another module owns the line, or, where there is nobody, the home. -/
def DirEntry.supplier (e : DirEntry) (r : Nat) (targets : List Nat) : Option Nat :=
  if e.ov ∧ targets.contains e.owner then some e.owner
  else
    match targets with
    | d :: _ => some d
    | [] => e.keeper.filter fun o => o = 34 ∧ r ≠ 34

/-- `RdX` against an entry (R160, R174, R187); `got` says that the home's data is already on its way. The switch is
no target: where the pod may hold the line it acknowledges, and the count is one more. -/
def State.resolveRdx (s : State) (h : Hdr) (line : Nat) (e : DirEntry) (got : Bool) : State :=
  let r := h.req
  let targets := s.rdxTargets r e
  let abroad := e.pod && r ≠ 34
  let supplier := e.supplier r targets
  let new : DirEntry := { e with
    st := .m, owner := if r = 34 then 0 else r, ov := r ≠ 34, coarse := false, ptrs := [], vec := 0,
    pod := r == 34 }
  let s := (s.handled h line).setEntry line new
  let s := if abroad then s.awaitsPod h line (supplier == some 34) else s
  let s := match supplier with
    | some d => s.emit ((onward h d).fwdx line (e.namedState d) (s.granted h.part d line))
    | none => if got then s else s.readHome h line true false
  let told := targets ++ if abroad then [34] else []
  let s := (told.filter fun d => some d ≠ supplier).foldl (fun s d => s.emit ((onward h d).inv line)) s
  s.emit (.grant (onward h r) line told.length)

/-- The home's data has come to a die that has asked to own a line. -/
def State.hasData (s : State) (h : Hdr) (line : Nat) : Bool :=
  (s.die h.req).reqs.any fun q => q.line = line && q.part = h.part && q.data.isSome

/-- A local request to own a line of another module that the module shares is first made at the switch (R187). -/
def State.resolveOwn (s : State) (h : Hdr) (line : Nat) (e : DirEntry) : State :=
  let got := s.hasData h line
  if isPodLine line && h.req ≠ 34 && !got && (e.st == .s || e.st == .o) then
    ((s.handled h line).setBusy ⟨line, h.part, .install h.req, []⟩).readHome h line true false
  else s.resolveRdx h line e got

/-- An entry in S after a die has left it: freed with HClr when its pointer record is empty (R174). -/
def State.afterLeaving (s : State) (line : Nat) (e : DirEntry) : State :=
  if e.empty then (s.freeEntry e.part line).clearHome e.part line .plain else s.setEntry line e

/-- `Notice` against an entry (R163, R174). -/
def State.noticeAt (s : State) (h : Hdr) (line : Nat) (e : DirEntry) : State :=
  match e.st with
  | .e | .m =>
    if e.keeper = some h.src then (s.freeEntry h.part line).clearHome h.part line .plain else s
  | .s =>
    let e := if e.ov ∧ e.owner = h.src then { e with ov := false } else e
    s.afterLeaving line (e.drop h.src)
  | .o => if e.keeper = some h.src then s else s.setEntry line (e.drop h.src)
  | .u => s

/-- A WbD whose data is dropped (R177). -/
def State.dropWbd (s : State) (h : Hdr) (line : Nat) : State := s.emit (.wback (backTo h) line true)

/-- `WbD` against an entry (R174, R177). -/
def State.wbdAt (s : State) (h : Hdr) (line : Nat) (data : LineData) (e : DirEntry) : State :=
  match e.st with
  | .e | .m =>
    if e.keeper = some h.src then
      (s.freeEntry h.part line).sendHome h.part line h.key data true (.wbd h.src)
    else s.dropWbd h line
  | .o | .s =>
    if (e.ov ∧ e.owner = h.src) ∨ e.keeper = some h.src then
      (s.sendHome h.part line h.key data false (.wbd h.src)).afterLeaving line
        (({ e with st := .s, ov := false } : DirEntry).drop h.src)
    else s.dropWbd h line
  | .u => s

/-! ## The switch's own forwards (R187) -/

/-- The module answers the switch that it does not hold a line. -/
def State.absent (s : State) (pend : Bool) (i : Instr) : State :=
  match i with
  | .inv r q l => s.emit ((backTo ⟨r, q⟩).invack l)
  | .fwds r q l st a => s.emit ((backTo ⟨r, q⟩).nodata l .fwdS st a)
  | .fwdx r q l st a => s.emit ((backTo ⟨r, q⟩).nodata l .fwdX st a)
  | .rcl h l st a => s.emit ((backTo h).nodata l .rcl st a)
  | .probe h l => s.emit (.probeack (backTo h) l .none 0 pend)
  | _ => s

/-- The switch's message is answered when every die of the module has given its line up: with the dirty data, or
as the module that does not hold the line. -/
def State.finishServe (s : State) (p line : Nat) : State :=
  match s.busyWith p line with
  | some b =>
    match b.busy, b.held with
    | .serve [] false dirty own, i :: rest =>
      let s := s.freeEntry p line
      let s := match i, dirty with
        | .fwdx r q l _ _, some (d, key) => s.emit (({ backTo ⟨r, q⟩ with key := key } : Hdr).data l d true true true)
        | .rcl h l _ _, some (d, key) => s.emit (({ backTo h with key := key } : Hdr).data l d true false true)
        | i, _ => s.absent own.isSome i
      match own with
      | some r => s.setBusy { b with busy := .install r, held := rest }
      | none => s.setBusy { b with busy := .hack, held := rest }
    | _, _ => s
  | none => s

/-- A forward, an invalidation, a recall or a probe of the switch against the module's entry, as a die's request
would be resolved; `own` is the die whose request the hub has at the switch, `rest` what the hub holds. A FwdS finds
no supplier where the module's copies have the switch's own, and an entry that CHK does not let the hub read is
probed for (R178). -/
def State.fromSwitch (s : State) (i : Instr) (own : Option Nat) (rest : List Instr) : State :=
  match message i with
  | none => s
  | some (h, line) =>
    match s.entryAt h.part line with
    | none => s.absent own.isSome i
    | some e =>
      if unreadable e then (s.setEntry line { e with st := .u }).startProbe h.part line (rest ++ [i]) own
      else
      match i with
      | .fwds r _ line _ _ => if e.st == .s && !e.ov then s.absent own.isSome i else s.resolveRds ⟨r, 34⟩ line e
      | .probe h line =>
        match e.st with
        | .s => s.emit (.probeack (backTo h) line .s 0 own.isSome)
        | _ => s.emit (.probe (onward { h with req := 34 } (e.keeper.getD 34)) line)
      | _ =>
        let s := s.setBusy ⟨line, h.part, .serve (s.othersOf e) e.keeper.isSome none own, i :: rest⟩
        (s.takeBack h.part line e).finishServe h.part line

/-! ## Messages in their order at the hub (R158, R171, R174) -/

/-- A message for a line that the hub is at work on. -/
def State.whileBusy (s : State) (b : HubLine) (i : Instr) : State :=
  let hold := s.setBusy { b with held := b.held ++ [i] }
  match i with
  | .notice _ _ =>
    match b.busy with
    | .recall _ _ _ | .hack | .serve _ _ _ _ => s
    | _ => hold
  | .wbd h line _ =>
    match b.busy with
    | .recall _ _ _ | .hack | .serve _ _ _ _ => s.dropWbd h line
    | _ => hold
  | .rds _ _ | .rdx _ _ => hold
  | i =>
    match b.busy with
    | .install r => s.fromSwitch i (some r) b.held
    | _ => hold

/-! ## Open requests of a die (R161, R172, R180) -/

/-- The accesses of a partition that wait on a line at a die, or for room there, go on: contexts first, then
steps tried again (R172, R339). -/
def State.lineArrived (s : State) (d p line : Nat) : State :=
  (s.replyAll fun k w =>
    (partOf k = p && (w == .line d line || w == .late d line)) || w == .room d).unpark

/-- A number that a die may give a request toward the hub of a line (R172). -/
def State.freeTxn (s : State) (d line : Nat) : Option Nat :=
  (List.range 4096).find? fun n => !(s.openTxns d line).contains n

/-- A request is sent under a new number, or waits for one (R172, R180). -/
def State.sendAgain (s : State) (d : Nat) (q : OpenReq) : State :=
  match s.freeTxn d q.line with
  | none => s.modReq d q.part q.line fun q => { q with txn := 4096 }
  | some n =>
    let h : Hdr := { s.dieHdr q.part d q.line q.key with txn := n }
    (s.modReq d q.part q.line fun q => { q with txn := n }).emit (if q.excl then .rdx h q.line else .rds h q.line)

/-- The first request that waits for a number is sent where there is one. -/
def State.sendWaiting (s : State) (d : Nat) : State :=
  match (s.die d).reqs.find? fun q => q.txn = 4096 && (s.freeTxn d q.line).isSome with
  | some q => s.sendAgain d q
  | none => s

/-- An open request closed. -/
def State.closeReq (s : State) (d p line : Nat) : State :=
  (s.modDie d fun e => { e with reqs := e.reqs.filter fun q => ¬ (q.line = line ∧ q.part = p) }).sendWaiting d

/-- A request for a line that has moved is made again, by the die, for the line at its new place (R183, R184); one for
a synchronisation line is made at its home (R140). -/
def State.sentOn (s : State) (h : Hdr) (line : Nat) : State :=
  (s.closeReq h.req h.part line).lineArrived h.req h.part line

/-- A request of the switch for a line that has moved is one for the line at its new place, under the key ID of that
(R183, R184). -/
def State.switchSteered (s : State) (h : Hdr) (line : Nat) : Bool :=
  h.req = 34 && s.steer h.part (lineLoc line) ≠ line

def State.readdress (s : State) (i : Instr) : State :=
  let j := readdressed (fun h l =>
    let pa := s.steerPa h.part (lineLoc l)
    ({ h with key := keyId pa, dst := 32 + s.hubOf (lineOf pa) }, lineOf pa)) i
  { s with urgent := s.urgent ++ [j] }

/-- A request of a die for a line that it must ask for elsewhere (R140, R183). -/
def State.misplaced (s : State) (h : Hdr) (line : Nat) : Bool :=
  h.req < 32 && (s.steer h.part (lineLoc line) ≠ line || (!isPodLine line && s.isSync h.part line))

/-- A message that a hub does not hold while migration waits for the transactions of a line (R184, step 1). -/
def passesHold (b : HubLine) (i : Instr) : Bool :=
  b.busy == .hold && match i with
    | .rds _ _ | .rdx _ _ => false
    | _ => true

/-- A message for a line against its entry; `known` says that a line without one is free for certain. -/
def State.atHub (known : Bool) (s : State) (i : Instr) : State :=
  match message i with
  | none => s
  | some (h, line) =>
    match (s.busyWith h.part line).filter fun b => !passesHold b i with
    | some b => s.whileBusy b i
    | none =>
      match s.entryAt h.part line with
      | some e =>
        if unreadable e then
          let held := ((s.busyWith h.part line).map (·.held)).getD []
          (s.setEntry line { e with st := .u }).startProbe h.part line (held ++ [i]) none
        else
          match i with
          | .rds h line => s.resolveRds h line e
          | .rdx h line => s.resolveOwn h line e
          | .notice h line => s.noticeAt h line e
          | .wbd h line data => s.wbdAt h line data e
          | i => s.fromSwitch i none []
      | none =>
        if s.unknown line && !known then s.startProbe h.part line [i] none
        else
          match i with
          | .rds h line =>
            if s.misplaced h line then s.sentOn h line
            else if s.switchSteered h line then s.readdress i else s.install h line false i
          | .rdx h line =>
            if s.misplaced h line then s.sentOn h line
            else if s.switchSteered h line then s.readdress i else s.install h line true i
          | .notice _ _ => s
          | .wbd h line _ => s.dropWbd h line
          | i => s.fromSwitch i none []

/-- The hub is done with a line: the messages it held are handled, in their order (R158, R171). -/
def State.releaseLine (s : State) (p line : Nat) (known : Bool) : State :=
  let held := ((s.busyWith p line).map (·.held)).getD []
  (held.foldl (State.atHub known) (s.clearBusy p line)).unpark

/-! ## The rebuilt entry (R178, R181) -/

/-- The entry that the answers to a probe give: nothing where the line is free. -/
def rebuilt (p : Nat) (answers : List ProbeAns) : Option DirEntry :=
  let sharers := (List.range 32).filter fun d => answers.any fun a => a.die = d && a.st == .s
  match answers.find? fun a => a.st == .e || a.st == .o || a.st == .m with
  | some a =>
    let hs : HState := match a.st with
      | .e => .e
      | .o => .o
      | _ => .m
    let record := (List.range 32).filter fun d => d = a.die || sharers.contains d
    some ((entryOf hs a.die p true []).addAll (if hs = .o then record else []))
  | none =>
    match sharers with
    | [] => none
    | d :: _ =>
      if answers.any fun a => a.st == .buffered then some ((entryOf .s 0 p false []).addAll sharers)
      else some ((entryOf .s d p true []).addAll sharers)

/-- Data of the switch that came while the hub probed (R187). -/
def isData : Instr → Bool
  | .data _ _ _ _ _ _ _ => true
  | _ => false

/-- What the hub held while it probed is handled (R178): with the request that it has at the switch still under way,
or as the line's next messages. -/
def State.resume (s : State) (p line : Nat) : Option Nat → State
  | none => s.releaseLine p line true
  | some r =>
    let held := ((s.busyWith p line).map (·.held)).getD []
    let s := (held.filter fun i => !isData i).foldl (State.atHub true) (s.setBusy ⟨line, p, .install r, []⟩)
    { s with urgent := s.urgent ++ held.filter isData }

/-- A Rel to a die for each of its answers from its buffer (R176, R178). -/
def State.relAll (s : State) (p line : Nat) (answers : List ProbeAns) : State :=
  answers.foldl (fun s a =>
    (List.range a.bufs).foldl (fun s _ => s.emit (.rel (s.hubHdr p line 0 a.die) line)) s) s

/-- The hub acts on the answers (R178): a Rel to every die for its buffered copy, a buffered copy that is newest
written home, the entry installed or freed, and the held messages handled. -/
def State.rebuild (s : State) (p line : Nat) (answers : List ProbeAns) (own : Option Nat) : State :=
  let bufs := answers.filter fun a => a.st == .buffered
  let s := s.relAll p line answers
  let owned := answers.any fun a => a.st == .e || a.st == .o || a.st == .m
  let entry := rebuilt p answers
  let s := match owned, bufs with
    | false, a :: _ => s.sendHome p line a.key a.data entry.isNone .plain
    | _, _ => if entry.isNone then s.clearHome p line .plain else s
  let s := match entry with
    | some e => s.setEntry line e
    | none => s.freeEntry p line
  s.resume p line own

/-- The rebuilt entry is installed where it needs no way or has one, else it waits for one (R181). -/
def State.tryRebuild (s : State) (b : HubLine) (answers : List ProbeAns) (own : Option Nat) : State :=
  if (rebuilt b.part answers).isNone || (s.entryAt b.part b.line).isSome || s.roomFor b.line then
    s.rebuild b.part b.line answers own
  else (s.setBusy { b with busy := .rebuild answers }).makeRoom b.line

/-- The hub has answered the switch about a line, and waits for no acknowledgement. -/
def State.served (s : State) (b : HubLine) : Bool :=
  isPodLine b.line && (s.entryAt b.part b.line).isNone && !s.steps.any fun i =>
    match i with
    | .hack h ⟨l, .recall⟩ => l = b.line && h.part = b.part
    | _ => false

/-- What waits for a way is tried again, in order (R171); a line with which a hub has served the switch is free for
the messages held. -/
def State.serve (s : State) : State :=
  s.hub.foldl (fun s o =>
    match s.busyWith o.part o.line with
    | some b =>
      match b.busy with
      | .alloc => if s.roomFor b.line then s.releaseLine b.part b.line true else s.makeRoom b.line
      | .rebuild answers => s.tryRebuild b answers none
      | .hack => if s.served b then s.releaseLine b.part b.line true else s
      | _ => s
    | none => s) s

/-- Whether the hub holds a request of a die for a line: among the messages for it, or at the switch. -/
def holdsRequest (b : HubLine) (own : Option Nat) (die : Nat) : Bool :=
  own == some die || b.held.any fun i =>
    match i with
    | .rds h _ | .rdx h _ => h.req == die
    | _ => false

/-- The answers to a probe with one more; the die's answers from its buffer are counted (R176). -/
def withAnswer (answers : List ProbeAns) (die : Nat) (st : PState) (data : LineData) (key : Nat) : List ProbeAns :=
  let before := ((answers.find? fun a => a.die = die).map (·.bufs)).getD 0
  answers.filter (fun a => a.die ≠ die) ++ [⟨die, st, data, key, before + if st == .buffered then 1 else 0⟩]

/-- An answer to a probe (R178): of the hub's own, or of the switch's. -/
def State.probeackAt (s : State) (h : Hdr) (line : Nat) (st : PState) (data : LineData) (pend : Bool) : State :=
  if h.req = 34 then
    let s := if st == .buffered then s.emit (.rel (backTo h) line) else s
    s.emit (.probeack (onward h 34) line st data pend)
  else
    match s.busyWith h.part line with
    | some b =>
      match b.busy with
      | .probe waiting answers own =>
        let answers := withAnswer answers h.src st data h.key
        if pend && !holdsRequest b own h.src then
          (s.setBusy { b with busy := .probe waiting answers own }).emit (.probe (backTo h) line)
        else
          let waiting := waiting.filter (· ≠ h.src)
          if waiting.isEmpty then s.tryRebuild b answers own
          else s.setBusy { b with busy := .probe waiting answers own }
      | _ => s
    | none => s

/-! ## Forwards at a die (R162, R174 to R176, R339) -/

namespace State

def buffered (s : State) (d p line : Nat) : Option WbLine :=
  (s.die d).wbuf.find? fun w => w.line = line && w.part = p
def setBuffered (s : State) (d : Nat) (w : WbLine) : State :=
  s.modDie d fun e => { e with wbuf := w :: e.wbuf.filter fun o => ¬ (o.line = w.line ∧ o.part = w.part) }

/-- A line leaves the write-back buffer when every message it awaits has arrived (R176). -/
def settleBuffer (s : State) (d p line : Nat) : State :=
  match s.buffered d p line with
  | some w =>
    if !w.wbAck && w.rels = 0 && (!w.dropped || w.answered) then
      s.modDie d fun e => { e with wbuf := e.wbuf.filter fun o => ¬ (o.line = line ∧ o.part = p) }
    else s
  | none => s

/-- An answer given from the buffer, or that puts a dirty line there: a Rel is awaited (R176). -/
def answeredFrom (s : State) (d p line key : Nat) (data : LineData) : State :=
  match s.buffered d p line with
  | some w => s.setBuffered d { w with rels := w.rels + 1, answered := true, data := data, key := key }
  | none => s.setBuffered d ⟨line, p, key, data, false, false, 1, true⟩

/-- An answer to Inv, FwdS or FwdX marks an open RdS for the line (R162). -/
def markOpen (s : State) (d p line : Nat) : State :=
  s.modReq d p line fun q => if q.excl then q else { q with marked := true }

/-- A forward that the hub sent after it had handled the die's own RdX, which is still open: the die's
access performs first, whatever older copy it holds (R167, R339). -/
def awaits (s : State) (d p line after : Nat) : Bool :=
  (s.die d).reqs.any fun q => q.line = line && q.part = p && q.excl && q.id = after

end State

/-- A die's copy is newer than memory (R169). -/
def dirtySt : PState → Bool
  | .o | .m | .buffered => true
  | _ => false

/-- The header of an answer with data: to a hub's recall, with the key ID that the data is under. -/
def withKey (h : Hdr) (key : Nat) : Hdr := if isHub h.req then { backTo h with key := key } else backTo h

/-- FwdS at a die (R174, R175). -/
def State.fwdsAt (s : State) (h : Hdr) (line : Nat) (st : HState) (after : Nat) : State :=
  let o := h.dst
  let s := (s.albRecall o h.part line).markOpen o h.part line
  if s.awaits o h.part line after then s.emit ((backTo h).nodata line .fwdS st after)
  else
    match s.copyOf o h.part line with
    | some c =>
      let kept : PState := match c.st with
        | .m | .o => .o
        | _ => .s
      (s.setCopy o { c with st := kept }).emit ((withKey h c.key).data line c.data (dirtySt c.st) false false)
    | none =>
      match s.buffered o h.part line with
      | some w => s.emit ((withKey h w.key).data line w.data true false false)
      | none => s.emit ((backTo h).nodata line .fwdS st after)

/-- The answer to FwdX and Rcl: the copy leaves, its data goes on, dirty data stays in the buffer until its Rel
(R162, R176). -/
def State.giveUp (s : State) (h : Hdr) (line : Nat) (ack : Bool) (after : Nat) (nodata : Instr) : State :=
  let o := h.dst
  if s.awaits o h.part line after then s.emit nodata
  else
    match s.copyOf o h.part line with
    | some c =>
      let s := s.dropCopy o h.part line
      let s := if dirtySt c.st then s.answeredFrom o h.part line c.key c.data else s
      s.emit ((withKey h c.key).data line c.data (dirtySt c.st) ack true)
    | none =>
      match s.buffered o h.part line with
      | some w =>
        (s.answeredFrom o h.part line w.key w.data).emit ((withKey h w.key).data line w.data true ack true)
      | none => s.emit nodata

def State.fwdxAt (s : State) (h : Hdr) (line : Nat) (st : HState) (after : Nat) : State :=
  ((s.albRecall h.dst h.part line).markOpen h.dst h.part line).giveUp h line true after
    ((backTo h).nodata line .fwdX st after)

def State.rclAt (s : State) (h : Hdr) (line : Nat) (st : HState) (after : Nat) : State :=
  (s.albRecall h.dst h.part line).giveUp h line false after ((backTo h).nodata line .rcl st after)

def State.invAt (s : State) (h : Hdr) (line : Nat) : State :=
  (((s.albRecall h.dst h.part line).markOpen h.dst h.part line).dropCopy h.dst h.part line).emit
    ((backTo h).invack line)

/-- A probe at a die (R178). -/
def State.probeAt (s : State) (h : Hdr) (line : Nat) : State :=
  let d := h.dst
  let s := s.albRecall d h.part line
  let pend := (s.openReq d h.part line).isSome
  match s.copyOf d h.part line with
  | some c => s.emit (.probeack { backTo h with key := c.key } line c.st c.data pend)
  | none =>
    match s.buffered d h.part line with
    | some w =>
      (s.answeredFrom d h.part line w.key w.data).emit
        (.probeack { backTo h with key := w.key } line .buffered w.data pend)
    | none => s.emit (.probeack (backTo h) line .none 0 pend)

/-! ## The home (R166) -/

def State.clearExported (s : State) (p line : Nat) : State :=
  { s with exported := s.exported.filter (· ≠ tagOf line p) }

/-- HRd at the home: the exported bit is set and the data returned, as the key of the request reads it (R26). -/
def State.hrdAt (s : State) (h : Hdr) (line : Nat) (excl counts : Bool) : State :=
  let s := s.albRecall h.dst h.part line
  let s : State := { s with
    exported := if s.isExported h.part line then s.exported else s.exported ++ [tagOf line h.part] }
  (s.usedChoice line h.key).emit ((backTo h).data line (s.lineUnder line h.key) false counts excl)

/-- HWb at the home: the memory copy is current again. -/
def State.hwbAt (s : State) (h : Hdr) (line : Nat) (data : LineData) (clear : Bool) (why : HWhy) : State :=
  let s := s.writeLine line h.key (BitVec.allOnes 128) data
  (if clear then s.clearExported h.part line else s).emit (.hack (backTo h) ⟨line, why⟩)

def State.hclrAt (s : State) (h : Hdr) (line : Nat) (why : HWhy) : State :=
  (s.clearExported h.part line).emit (.hack (backTo h) ⟨line, why⟩)

/-- A FwdS that die `d` has not answered with data is under way (R339). -/
def State.fwdsOut (s : State) (p d line : Nat) : Bool :=
  s.steps.any fun i =>
    match i with
    | .fwds r _ l _ _ => l = line && r.part = p && r.dst = d
    | .nodata r _ l .fwdS _ _ => l = line && r.part = p && r.src = d
    | _ => false

/-- A line that the migration engine of its partition is about to move, or to move another to (R184). -/
def State.moving (s : State) (p line : Nat) : Bool :=
  let m := (s.part p).mig
  m.st == .run && (line = lineOf (m.src.toNat * 4096) + m.bound || line = lineOf (m.dst.toNat * 4096) + m.bound)

/-- A line whose first `SYN.LRW` waits until it is home (R140, R167). -/
def State.claimed (s : State) (p line : Nat) : Bool :=
  let l := s.syncLine p line
  !l.used && !l.queue.isEmpty && !isPodLine line

/-- The home's acknowledgement at the hub: a recalled way is free, and a line that migration or a `SYN.LRW` waits for
stays held (R140, R171, R184); a write-back is acknowledged (R174). -/
def State.hackAt (s : State) (h : Hdr) (line : Nat) (why : HWhy) : State :=
  match why with
  | .plain => s
  | .recall =>
    let s := s.freeEntry h.part line
    if s.moving h.part line || s.claimed h.part line then s.unpark else s.releaseLine h.part line true
  | .wbd die => s.emit (.wback (s.hubHdr h.part line h.key die) line false)

/-! ## Completion at the requester (R161, R162) -/

/-- The contexts of a partition that wait on a die's request for a line, over the cores listed. -/
def State.waitersOf (s : State) (d p line : Nat) : List (Nat × Slot) :=
  s.cores.flatMap fun e =>
    if partOf e.1 = p then
      ((List.finRange 16).filter fun x => e.2.ctxs[x].wait == some (.line d line)).map fun x => (e.1, x)
    else []

/-- What a die has received serves each access that waited on the request once (R162, R188): the contexts, of which
one that may not run now keeps it until it may (R293), and these steps. -/
def State.serveOnce (s : State) (d : Nat) (l : LlcLine) (steps : List Instr) : State :=
  let ctxs := s.waitersOf d l.part l.line
  let s := s.modDie d fun e => { e with
    once := e.once ++ (ctxs.map fun c => Once.mk (.ctx c.1 c.2) l) ++ steps.map fun i => Once.mk (.step i) l }
  let s := ctxs.foldl (fun s c =>
    if s.mayRun c.1 then s.reply c.1 c.2
    else s.modCtx c.1 c.2 fun t => { t with wait := some (.served d l.line) }) s
  (({ s with
    urgent := s.urgent ++ s.parked.filter steps.contains
    parked := s.parked.filter fun i => !steps.contains i } : State).lineArrived d l.part l.line)

/-- A transaction that fails (R186, R188): the accesses that waited for it are refused. -/
def State.failReq (s : State) (d : Nat) (q : OpenReq) : State :=
  (s.closeReq d q.part q.line).serveOnce d ⟨q.line, q.part, q.key, .none, 0⟩ q.early

/-- `RdS` completes with its data; a marked one serves the waiting accesses once, is not installed, and the hub
is told (R162, R163). -/
def State.completeRds (s : State) (d : Nat) (q : OpenReq) (data : LineData) (excl : Bool) : State :=
  let s := s.closeReq d q.part q.line
  if q.marked then
    (s.emit (.notice (s.dieHdr q.part d q.line q.key) q.line)).serveOnce d ⟨q.line, q.part, q.key, .s, data⟩
      (q.early.filter servedOnce)
  else
    (s.setCopy d ⟨q.line, q.part, q.key, if excl then .e else .s, data⟩).lineArrived d q.part q.line

/-- `RdX` completes when the Grant is in and the count equals its n (R161). A copy that the die still
holds is the newest. -/
def State.tryRdx (s : State) (d p line : Nat) : State :=
  match s.openReq d p line with
  | some q =>
    match q.grant, q.data with
    | some n, some (data, _) =>
      if q.excl && q.acks = n then
        let data := ((s.copyOf d p line).map (·.data)).getD data
        ((s.closeReq d p line).setCopy d ⟨line, p, q.key, .m, data⟩).lineArrived d p line
      else s
    | _, _ => s
  | none => s

/-- A message of a transaction at the die that has it open, by its number (R172, R173). -/
def State.counted (s : State) (h : Hdr) (line : Nat) (f : OpenReq → OpenReq) : State :=
  (s.modReq h.dst h.part line fun q => if q.excl ∧ q.txn = h.txn then f q else q).tryRdx h.dst h.part line

/-- A Data message at the requesting die. Data of the pod does not replace dirty data of a die. -/
def State.dataAt (s : State) (h : Hdr) (line : Nat) (data : LineData) (dirty ack excl : Bool) : State :=
  match s.openReq h.dst h.part line with
  | none => s
  | some q =>
    if q.txn ≠ h.txn then s
    else if h.err then s.failReq h.dst q
    else if q.excl then
      s.counted h line fun q => { q with
        data := if q.data.any (·.2) && !dirty then q.data else some (data, dirty)
        acks := q.acks + if ack then 1 else 0 }
    else s.completeRds h.dst q data excl

/-! ## Data and acknowledgements at the hub (R158, R171, R174) -/

/-- The answer of a line's keeper to a recall, or to the switch's taking of the line. -/
def State.recalled (s : State) (p line : Nat) (dirty : Option (LineData × Nat)) : State :=
  match s.busyWith p line with
  | some b =>
    match b.busy with
    | .recall acks _ _ => (s.setBusy { b with busy := .recall acks false dirty }).finishRecall p line
    | .serve acks _ _ own => (s.setBusy { b with busy := .serve acks false dirty own }).finishServe p line
    | _ => s
  | none => s

/-- An InvAck that the hub collects itself. -/
def State.ackAtHub (s : State) (h : Hdr) (line : Nat) : State :=
  match s.busyWith h.part line with
  | some b =>
    let without := fun (acks : List Nat) => acks.filter (· ≠ h.src)
    match b.busy with
    | .recall acks o dirty =>
      (s.setBusy { b with busy := .recall (without acks) o dirty }).finishRecall h.part line
    | .serve acks o dirty own =>
      (s.setBusy { b with busy := .serve (without acks) o dirty own }).finishServe h.part line
    | _ => s
  | none => s

/-- The data that an install waits for is in (R158, R174): the entry first, then the requester. -/
def State.installed (s : State) (h : Hdr) (line : Nat) (data : LineData) (excl : Bool) : State :=
  let r := h.req
  let want := if r = 34 then excl else ((s.openReq r h.part line).map (·.excl)).getD excl
  let pass := fun (s : State) (excl : Bool) => s.emit ((onward h r).data line data false false excl)
  match s.entryAt h.part line with
  | some e =>
    -- the pod has given up a line that the module shares
    if unreadable e then
      let held := ((s.busyWith h.part line).map (·.held)).getD []
      ((pass s excl).setEntry line { e with st := .u }).startProbe h.part line (.rdx h line :: held) none
    else ((pass s excl).resolveRdx h line e true).releaseLine h.part line true
  | none =>
    let e := entryOf (if want then .m else if excl || !isPodLine line then .e else .s) r h.part true
      (if want || excl || !isPodLine line then [] else [r])
    let e := if r = 34 then { e with st := if want then .m else .s, owner := 0, ov := false, pod := true } else e
    let s := pass (s.setEntry line e) (r ≠ 34 && (excl || !isPodLine line) || want)
    let s := if want then s.emit (.grant (onward h r) line 0) else s
    s.releaseLine h.part line true

/-- Dirty data of the supplier of a line in S makes it O, before the data goes on (R174); an entry that CHK does not
let the hub read becomes U (R178). -/
def State.noteDirty (s : State) (h : Hdr) (line : Nat) (dirty ack : Bool) : State :=
  if dirty && !ack then
    match s.entryAt h.part line with
    | some e =>
      if unreadable e then s.setEntry line { e with st := .u }
      else if e.st == .s && e.ov && e.owner == h.src then s.setEntry line { e with st := .o }
      else s
    | none => s
  else s

/-- A Data message at the hub (R158, R171, R174). The Rel for dirty data goes out with it, and arrives when the
requester has the data (R176). -/
def State.dataAtHub (s : State) (h : Hdr) (line : Nat) (data : LineData) (dirty ack excl : Bool) : State :=
  let s := if dirty && h.src < 32 && (ack || isHub h.req) then s.emit (.rel (backTo h) line) else s
  if isHub h.req then s.recalled h.part line (if dirty then some (data, h.key) else none)
  else
    let s := if h.src = 34 then s.modReq h.req h.part line fun q => { q with pod := none } else s
    let pass := fun (s : State) => s.emit ((onward h h.req).data line data dirty ack excl)
    match s.busyWith h.part line with
    | some b =>
      match b.busy with
      | .install q =>
        if q ≠ h.req then pass s
        else if h.err then (pass s).releaseLine h.part line true
        else s.installed h line data excl
      | .probe waiting answers (some r) =>
        if h.src = 34 && h.req = r then
          s.setBusy { b with
            busy := .probe waiting answers (some r), held := b.held ++ [h.data line data dirty ack excl] }
        else pass s
      | .hold => pass (s.noteDirty h line dirty ack)
      | _ => pass s
    | none => pass (s.noteDirty h line dirty ack)

/-- An InvAck: counted by the hub, or passed on to the requester (R161). -/
def State.invackAt (s : State) (h : Hdr) (line : Nat) : State :=
  if h.dst < 32 then s.counted h line fun q => { q with acks := q.acks + 1 }
  else if isHub h.req then s.ackAtHub h line
  else
    let s := if h.src = 34 then s.modReq h.req h.part line fun q => { q with pod := none } else s
    s.emit ((onward h h.req).invack line)

/-! ## Crossings (R175 to R177) -/

/-- The forward or recall that a NoData answers, as it was sent. -/
def forward (h : Hdr) (line : Nat) (st : HState) (after : Nat) : FwdKind → Instr
  | .fwdS => h.fwds line st after
  | .fwdX => h.fwdx line st after
  | .rcl => .rcl h line st after

/-- A NoData at the hub (R175). A die that the entry named in M or O is asked again until it answers with data. Of a
poisoned line there is no data that could come: the request fails (R188; DEDUCED: log entry 33). The module answers the
switch's own FwdS for a line of another module as a die does (R187). -/
def State.nodataAt (s : State) (h : Hdr) (line : Nat) (f : FwdKind) (st : HState) (after : Nat) : State :=
  if h.src < 32 && s.awaits h.src h.part line after then s.emit (forward (backTo h) line st after f)
  else
    match st with
    | .e | .s | .u =>
      match f with
      | .fwdS =>
        if h.req = 34 && isPodLine line then s.emit ((onward h 34).nodata line .fwdS st after)
        else s.readHome h line false false
      | .fwdX => s.readHome h line true true
      | .rcl => s.recalled h.part line none
    | .m | .o =>
      if !s.poisoned.contains (tagOf line h.part) then s.emit (forward (backTo h) line st after f)
      else if isHub h.req then s.recalled h.part line none
      else s.emit (({ onward h h.req with err := true } : Hdr).data line 0 false false false)

def State.wbackAt (s : State) (h : Hdr) (line : Nat) (dropped : Bool) : State :=
  match s.buffered h.dst h.part line with
  | some w =>
    (s.setBuffered h.dst { w with wbAck := false, dropped := w.dropped || dropped }).settleBuffer
      h.dst h.part line
  | none => s

def State.relAt (s : State) (h : Hdr) (line : Nat) : State :=
  match s.buffered h.dst h.part line with
  | some w => (s.setBuffered h.dst { w with rels := w.rels - 1 }).settleBuffer h.dst h.part line
  | none => s

/-! ## Receiving (R173) -/

/-- A message at its receiver. -/
def State.handle (s : State) (i : Instr) : State :=
  match i with
  | .rds _ _ | .rdx _ _ | .wbd _ _ _ | .notice _ _ => s.atHub false i
  | .fwds r q l st a => if r.dst < 32 then s.fwdsAt ⟨r, q⟩ l st a else s.atHub false i
  | .fwdx r q l st a => if r.dst < 32 then s.fwdxAt ⟨r, q⟩ l st a else s.atHub false i
  | .inv r q l => if r.dst < 32 then s.invAt ⟨r, q⟩ l else s.atHub false i
  | .rcl h l st a => if h.dst < 32 then s.rclAt h l st a else s.atHub false i
  | .probe h l => if h.dst < 32 then s.probeAt h l else s.atHub false i
  | .hrd h l excl counts => s.hrdAt h l excl counts
  | .hwb h ⟨l, why⟩ d clear => s.hwbAt h l d clear why
  | .hclr h ⟨l, why⟩ => s.hclrAt h l why
  | .data r q l d dirty ack excl =>
    if r.dst < 32 then s.dataAt ⟨r, q⟩ l d dirty ack excl else s.dataAtHub ⟨r, q⟩ l d dirty ack excl
  | .invack r q l => s.invackAt ⟨r, q⟩ l
  | .nodata r q l f st a => s.nodataAt ⟨r, q⟩ l f st a
  | .probeack h l st d p => s.probeackAt h l st d p
  | .hack h ⟨l, why⟩ => s.hackAt h l why
  | .grant h l n => if h.dst < 32 then s.counted h l fun q => { q with grant := some n } else s
  | .wback h l dropped => s.wbackAt h l dropped
  | .rel h l => s.relAt h l
  | _ => s

/-- A request for a line that is to be written, or a write of it. -/
def writesLine : Instr → Bool
  | .rdx _ _ | .wbd _ _ _ => true
  | _ => false

/-- A message of the switch about this module's part of the pod window is about the line that the export table
gives, as a migration steers it, under the key of where it lies (R183, R186, R187): nothing where the hub answers
ERR, as it does for a retired range (R332) and for a write of a core map (R333). -/
def State.inward (s : State) (i : Instr) : Option Instr :=
  match message i with
  | some (h, line) =>
    if isPodLine line && modOf line = s.podModule.toNat then
      let reads := match i with
        | .rdx _ _ => false
        | _ => true
      ((s.podExport h.part (lineLoc line) reads).map (s.steerPa h.part)).bind fun pa =>
        if s.retiredAt (loc pa) || (writesLine i && s.inCoreMap (loc pa)) then none
        else some (readdressed (fun h _ => ({ h with key := keyId pa, mod := 0 }, lineOf pa)) i)
    else some i
  | none => some i

/-- The answer to a request of the switch that the export table refuses (R186). -/
def State.refusePod (s : State) (i : Instr) : State :=
  match i with
  | .rds h l | .rdx h l => s.emit (({ backTo h with err := true } : Hdr).data l 0 false false false)
  | .wbd h l _ => s.emit (.wback { backTo h with err := true } l true)
  | _ => s

/-- A packet at ingress (R173): dropped and logged where its tag is not that of the link end or the line; then
handled, and what waits for a way in the directory looks again. -/
def State.receive (s : State) (i : Instr) : State :=
  match message i with
  | none => s
  | some (h, _) =>
    match if h.src = 34 then s.inward i else some i with
    | none => s.refusePod i
    | some j =>
      match message j with
      | some (g, line) =>
        if s.tagged g line then (s.handle j).serve else s.log (.packet h.part)
      | none => s

def execRds (h : Hdr) (line : Nat) (s : State) : Out := done (s.receive (.rds h line))
def execRdx (h : Hdr) (line : Nat) (s : State) : Out := done (s.receive (.rdx h line))
def execWbd (h : Hdr) (line : Nat) (data : LineData) (s : State) : Out := done (s.receive (.wbd h line data))
def execNotice (h : Hdr) (line : Nat) (s : State) : Out := done (s.receive (.notice h line))
def execFwds (r : Envelope) (req line : Nat) (st : HState) (after : Nat) (s : State) : Out :=
  done (s.receive (.fwds r req line st after))
def execFwdx (r : Envelope) (req line : Nat) (st : HState) (after : Nat) (s : State) : Out :=
  done (s.receive (.fwdx r req line st after))
def execInv (r : Envelope) (req line : Nat) (s : State) : Out := done (s.receive (.inv r req line))
def execRcl (h : Hdr) (line : Nat) (st : HState) (after : Nat) (s : State) : Out :=
  done (s.receive (.rcl h line st after))
def execProbe (h : Hdr) (line : Nat) (s : State) : Out := done (s.receive (.probe h line))
def execHrd (h : Hdr) (line : Nat) (excl counts : Bool) (s : State) : Out :=
  done (s.receive (.hrd h line excl counts))
def execHwb (h : Hdr) (o : HomeOp) (data : LineData) (clear : Bool) (s : State) : Out :=
  done (s.receive (.hwb h o data clear))
def execHclr (h : Hdr) (o : HomeOp) (s : State) : Out := done (s.receive (.hclr h o))
def execData (r : Envelope) (req line : Nat) (data : LineData) (dirty ack excl : Bool) (s : State) : Out :=
  done (s.receive (.data r req line data dirty ack excl))
def execInvack (r : Envelope) (req line : Nat) (s : State) : Out := done (s.receive (.invack r req line))
def execNodata (r : Envelope) (req line : Nat) (f : FwdKind) (st : HState) (after : Nat) (s : State) : Out :=
  done (s.receive (.nodata r req line f st after))
def execProbeack (h : Hdr) (line : Nat) (st : PState) (data : LineData) (pend : Bool) (s : State) : Out :=
  done (s.receive (.probeack h line st data pend))
def execHack (h : Hdr) (o : HomeOp) (s : State) : Out := done (s.receive (.hack h o))
def execGrant (h : Hdr) (line n : Nat) (s : State) : Out := done (s.receive (.grant h line n))

/-- What a hub must see before it sends a Rel (R176): the requester has taken the data of the answer, or, of a recall
or a probe, the home has; and no FwdS that the die is still to answer is out (DEDUCED: log entry 33). -/
def State.relWaits (s : State) (h : Hdr) (line : Nat) : Bool :=
  s.fwdsOut h.part h.dst line ||
  s.steps.any (fun i =>
    match i with
    | .data r q l _ _ _ _ =>
      l = line && r.part = h.part && r.src = h.src && r.dst = h.req && q = h.req && r.txn = h.txn
    | .hwb g ⟨l, _⟩ _ _ => isHub h.req && l = line && g.part = h.part
    | _ => false) ||
  (s.busyWith h.part line).any fun b =>
    match b.busy with
    | .recall _ _ (some _) | .serve _ _ (some _) _ => isHub h.req
    | _ => false

/-- A WbAck: one that says that the data was written waits until the die has answered what FwdS are out to it
(DEDUCED: log entry 33). A packet with a wrong tag is dropped as it comes in (R173). -/
def execWback (h : Hdr) (line : Nat) (dropped : Bool) (s : State) : Out :=
  done (if s.tagged h line && !dropped && s.fwdsOut h.part h.dst line then s.park (.wback h line dropped)
    else s.receive (.wback h line dropped))

def execRel (h : Hdr) (line : Nat) (s : State) : Out :=
  done (if s.tagged h line && s.relWaits h line then s.park (.rel h line) else s.receive (.rel h line))

/-- A die drops a copy (R163, R176). A line already in the buffer stays in the LLC, and so does one that the die has a request open for. -/
def execLlcEviction (die : Nat) (l : Tagged) (s : State) : Out :=
  done <|
    let part := l.part
    let line := l.line
    let s := s.albRecall die part line
    match s.copyOf die part line with
    | none => s
    | some c =>
      if (s.openReq die part line).isSome then s
      else if dirtySt c.st then
        if (s.buffered die part line).isSome then s
        else
          ((s.dropCopy die part line).setBuffered die ⟨line, part, c.key, c.data, true, false, 0, false⟩).emit
            (.wbd (s.dieHdr part die line c.key) line c.data)
      else
        (s.dropCopy die part line).emit (.notice (s.dieHdr part die line c.key) line)

/-! ## Bringing a line home (R140, R171, R184) -/

/-- The hub holds every request for a line (R184, step 1), once it is done with what it is at work on. -/
def State.holdLine (s : State) (p line : Nat) : State :=
  if (s.busyWith p line).isSome then s else s.setBusy ⟨line, p, .hold, []⟩

/-- The hub is at work on a line, but for what it holds of it. -/
def State.atWork (s : State) (p line : Nat) : Bool :=
  match s.busyWith p line with
  | some b =>
    match b.busy with
    | .hold | .alloc => false
    | .hack => (s.entryAt p line).isSome
    | _ => true
  | none => false

/-- A line is at its home, and nothing is under way that would take it from there (R184). -/
def State.isHome (s : State) (p line : Nat) : Bool :=
  !s.isExported p line && (s.entryAt p line).isNone && !s.atWork p line

/-- A line on its way back to its home: recalled once its transactions are over, or what still travels awaited (R184,
steps 1 and 2). The hub keeps what it holds for it until `self` lets it go. -/
def State.bringHome (s : State) (p line : Nat) (self : Instr) : State :=
  if s.atWork p line then s.park self
  else if (s.entryAt p line).isSome then
    let s := s.holdLine p line
    (if s.transacting p line then s else s.startRecall p line).park self
  else if s.unknown line then
    (s.startProbe p line (((s.busyWith p line).map (·.held)).getD []) none).park self
  else s.park self

/-- The hub holds a line for nothing but a `SYN.LRW` that has gone (R142): as it was brought home, or before its recall
began. -/
def State.heldFor (s : State) (p line : Nat) : Bool :=
  !isPodLine line && !s.moving p line && (s.busyWith p line).any fun b =>
    b.busy == .hold || (b.busy == .hack && s.isHome p line)

/-- A request heads its line's queue (R121). The home has acted on the locus for it once; before a line's first
`SYN.LRW` it is brought home, from where no die takes it then (R140, R167). -/
def execReservationHead (l : Tagged) (s : State) : Out :=
  done <|
    let m := s.syncLine l.part l.line
    match m.queue with
    | q :: rest =>
      if q.asked then s
      else if !m.used && !isPodLine l.line && !s.isHome l.part l.line then
        s.bringHome l.part l.line (.reservationHead l)
      else
        let s := s.setSync l.part l.line { m with used := true, queue := { q with asked := true } :: rest }
        (if m.used then s else s.releaseLine l.part l.line true).locusAction q.k q.x l.line q.req
    | [] => if !m.used && s.heldFor l.part l.line then s.releaseLine l.part l.line true else s

/-! ## Failures (R155, R179 to R181, R188) -/

/-- Whether a step is a message of the traffic of a hub. -/
def throughHub (h : Nat) (i : Instr) : Bool := (message i).any fun m => ownHub m.2 == h

/-- Steps that a test selects are lost. -/
def State.loseSteps (s : State) (gone : Instr → Bool) : State :=
  { s with
    flight := s.flight.filter fun i => !gone i
    parked := s.parked.filter fun i => !gone i
    urgent := s.urgent.filter fun i => !gone i }

/-- R180, steps 1 to 3, for one die: requests open with the failed hub are sent again under new numbers, in their
order and as far as there are numbers, dirty data received stays in the buffer, and write-backs still unacknowledged
are sent again. -/
def State.abandon (s : State) (d h : Nat) : State :=
  let mine := (s.die d).reqs.filter fun q => ownHub q.line = h
  let s := mine.foldl (fun s q =>
    let s := match q.data with
      | some (data, true) =>
        match s.buffered d q.part q.line with
        | some w => s.setBuffered d { w with data := data, key := q.key }
        | none => s.setBuffered d ⟨q.line, q.part, q.key, data, false, true, 0, false⟩
      | _ => s
    s.modReq d q.part q.line fun q => { q with
      txn := 4096, seen := false, marked := false, acks := 0, grant := none, data := none, pod := none }) s
  let s := mine.foldl (fun s q => s.sendAgain d q) s
  let waiting := (s.die d).wbuf.filter fun w => ownHub w.line = h
  waiting.foldl (fun s w =>
    if w.wbAck then
      (s.setBuffered d { w with rels := 0 }).emit (.wbd (s.dieHdr w.part d w.line w.key) w.line w.data)
    else if w.rels ≠ 0 then s.setBuffered d { w with rels := 0, dropped := true, answered := false }
    else s) s

/-- A posted write travels through a hub (R180). -/
def homeHub (h : Nat) : Home → Bool
  | .die _ (some g) | .pod _ g => g = h
  | _ => false

/-- Writes are lost (R155, R180), and what waits for write-backs among them goes on. -/
def State.losing (s : State) (lost : Home → Bool) (m : Nat) : State :=
  ((s.loseHomes lost m).replyAll fun _ w =>
    match w with
    | .evicted _ | .written => true
    | _ => false).unpark

/-- A line of a partition is poisoned (R188). -/
def State.poison (s : State) (p line : Nat) : State := { s with poisoned := s.poisoned ++ [tagOf line p] }

/-- The switch no longer shares a line homed here (R188): POD is cleared, a line that the pod owned is poisoned
and its copies are gone. DESIGN CHOICE: so is one of which dies here hold clean copies beside the pod's owner, O with
OV = 0, which the rule does not name (log entry 44). An entry that CHK does not let the hub read becomes U (R178). -/
def State.unpod (s : State) (t : Nat) (e : DirEntry) : State :=
  let p := partOf t
  let line := tagLine t
  if unreadable e then s.setEntry line { e with st := .u }
  else if !e.pod then s
  else if e.keeper = some 34 then
    let s := (s.recorded e).foldl (fun s d => s.dropCopy d p line) s
    ((s.freeEntry p line).clearExported p line).poison p line
  else s.setEntry line { e with pod := false }

/-- A step of a transaction of the switch about a line of this module that is homed here. -/
def ofSwitch (p line : Nat) (i : Instr) : Bool :=
  (message i).any fun m => m.1.req = 34 && m.1.part = p && m.2 = line

/-- The requests of the switch for a line homed here that the hub holds, or reads the home for, are gone (R188). -/
def State.dropSwitch (s : State) (b : HubLine) : State :=
  if isPodLine b.line then s
  else
    let b := { b with held := b.held.filter fun i =>
      match i with
      | .rds h _ | .rdx h _ => h.req != 34
      | _ => true }
    match b.busy with
    | .install 34 =>
      ((s.loseSteps (ofSwitch b.part b.line)).setBusy { b with busy := .hack }).clearHome b.part b.line .recall
    | .alloc => if b.held.isEmpty then s.clearBusy b.part b.line else s.setBusy b
    | _ => s.setBusy b

/-- The hub no longer waits for the switch in a recall (R171, R188). -/
def State.unwait (s : State) (b : HubLine) : State :=
  match b.busy with
  | .recall acks o dirty =>
    let pod := o && ((s.entryAt b.part b.line).bind (·.keeper)) == some 34
    let s := if pod then s.poison b.part b.line else s
    (s.setBusy { b with busy := .recall (acks.filter (· ≠ 34)) (o && !pod) dirty }).finishRecall b.part b.line
  | _ => s

/-- A request that has lost the data of its line, which the pod owned (R188): it fails, and the line, homed here, is
poisoned. -/
def State.failData (s : State) (d : Nat) (q : OpenReq) : State :=
  let s := s.failReq d q
  if q.excl && !isPodLine q.line then
    ((s.freeEntry q.part q.line).clearExported q.part q.line).poison q.part q.line
  else s

/-- A request that lacks the switch's acknowledgement only (R188): the accesses that waited for it are refused. The
die, to which the line has been granted, then has it (DEDUCED: log entry 33). -/
def State.failAck (s : State) (d : Nat) (q : OpenReq) : State :=
  let s := (s.modReq d q.part q.line fun q => { q with pod := none }).serveOnce d
    ⟨q.line, q.part, q.key, .none, 0⟩ q.early
  let h : Hdr := { s.hubHdr q.part q.line q.key d with txn := q.txn, req := d }
  { s with urgent := s.urgent ++ [h.invack q.line] }

/-- The requests of a die that wait for the switch complete with ERR (R188). -/
def State.failOpen (s : State) (gone : Nat → Nat → Bool) (hit : Nat → Bool) (d : Nat) : State :=
  (s.die d).reqs.foldl (fun s q =>
    if gone q.part q.line then s.failReq d q
    else if hit q.part && q.pod == some true then s.failData d q
    else if hit q.part && q.pod == some false then s.failAck d q
    else s) s

/-- A core of a die holds newer data of the die's copy in its atomic line buffer (R152). -/
def State.newerInAlb (s : State) (d : Nat) (c : LlcLine) : Bool :=
  s.hw.any fun e => dieOfCore e.1 = d && e.2.alb.any fun l => l.line = c.line && l.part = c.part && l.data ≠ c.data

/-- The local copies of lines of unreachable modules are dropped, and counted where they are dirty (R188). -/
def State.dropPodCopies (s : State) (gone : Nat → Nat → Bool) : State :=
  let dirty := fun (p : Nat) => (s.dies.map fun e =>
    (e.2.llc.filter fun l => l.part = p && gone p l.line && (dirtySt l.st || s.newerInAlb e.1 l)).length +
      (e.2.wbuf.filter fun w => w.part = p && gone p w.line).length).sum
  { s with
    parts := s.parts.map fun e => (e.1, { e.2 with lostCopies := e.2.lostCopies + dirty e.1 })
    dies := s.dies.map fun e => (e.1, { e.2 with
      llc := e.2.llc.filter fun l => !gone l.part l.line
      wbuf := e.2.wbuf.filter fun w => !gone w.part w.line })
    hw := s.hw.map fun e => (e.1, { e.2 with alb := e.2.alb.filter fun l => !gone l.part l.line })
    dir := s.dir.filter fun e => !gone (partOf e.1) (tagLine e.1)
    hub := s.hub.filter fun b => !gone b.part b.line }

/-- The `BAR.SYNC` episodes of scope POD of some partitions have lost a module (R115). -/
def State.breakEpisodes (s : State) (hit : Nat → Bool) : State :=
  let broken := fun (c : SyncChan) => c.scope == .pod && hit c.part
  let lost := s.chans.filter broken
  lost.foldl (fun s c => s.finishAll c.arrived 2) { s with chans := s.chans.filter fun c => !broken c }

/-- The partitions that reach the pod. -/
def State.podParts (s : State) (p : Nat) : Bool := !(s.cfg p).dies.isEmpty && !(s.cfg p).ports.isEmpty

/-- R188 for some modules and some partitions. -/
def State.podLost (s : State) (mods : List Nat) (hit : Nat → Bool) : State :=
  let gone := fun (p line : Nat) => hit p && isPodLine line && mods.contains (modOf line)
  let asked := fun (i : Instr) =>
    match i with
    | .rds h l | .rdx h l => h.req = 34 && hit h.part && !isPodLine l
    | _ => false
  let s := s.loseSteps fun i => asked i || (message i).any fun m => gone m.1.part m.2
  let s := (s.dies.map (·.1)).foldl (fun s d => s.failOpen gone hit d) s
  let s := s.dropPodCopies gone
  let s := (s.hub.filter fun b => hit b.part).foldl State.dropSwitch s
  let s := (s.hub.filter fun b => hit b.part).foldl State.unwait s
  let s := (s.dir.filter fun e => hit (partOf e.1)).foldl (fun s e => s.unpod e.1 e.2) s
  let s := s.breakEpisodes hit
  (s.parts.filter fun e => hit e.1).foldl (fun s e => s.raiseSvc e.1) s

/-- Modules can no longer be reached (R155, R188): the writes outstanding to each are lost. -/
def State.modulesLost (s : State) (mods : List Nat) : State :=
  let s : State := { s with unreachable := s.unreachable ++ mods.filter fun m => !s.unreachable.contains m }
  (mods.foldl (fun s m => s.losing (ofModule m) m) s).podLost mods s.podParts

def execHubFailureReport (hub : Nat) (s : State) : Out :=
  done <|
    if s.hubDown.isSome then s
    else
      let s : State := { (s.losing (homeHub hub) s.ownModule).loseSteps (throughHub hub) with
        hubDown := some hub
        hubFailed := some hub
        dir := s.dir.filter fun e => ownHub (tagLine e.1) ≠ hub
        hub := s.hub.filter fun b => ownHub b.line ≠ hub }
      let s := s.dies.foldl (fun s e => (s.modDie e.1 fun d => { d with moved := true }).abandon e.1 hub) s
      let cut := fun (p : Nat) => s.podParts p && (s.portsOf p).isEmpty
      (s.podLost s.podModules cut).raiseAllSvc

def execHubFailureDeclaration (die hub : Nat) (s : State) : Out :=
  done <|
    let s := s.modDie die fun d => { d with linkDown := d.linkDown ++ [hub], moved := true }
    { s with urgent := s.urgent ++ [.hubFailureReport hub] }

def execSwitchFailure (mods : List Nat) (s : State) : Out := done (s.modulesLost mods)

/-- A link that stays down beyond the recovery limit is declared down (R155, R188). -/
def execLinkRecoveryTimeout (m : Nat) (s : State) : Out := done (s.modulesLost [m])

end Sys2Proof.Machine
end

