-- ==== Sys2Proof/Machine/Numbers.lean ====
section
/-! DEFINITION. Number formats, rounding and conversion (R196 to R209), and FP32 arithmetic (R215,
R216), on exact values. -/

namespace Sys2Proof.Machine

/-- An exact value: a NaN, an infinity, or (−1)^neg × m × 2^e; a zero keeps its sign. -/
inductive Val where
  | nan
  | inf (neg : Bool)
  | fin (neg : Bool) (m : Nat) (e : Int)
  deriving DecidableEq, Repr

/-- A floating-point layout (R196): widths, bias, the encodings without sign of the largest finite
value, of infinity and of the default NaN. -/
structure FloatFmt where
  ew   : Nat
  mw   : Nat
  bias : Nat
  top  : Nat
  inf  : Option Nat
  nan  : Option Nat
  deriving DecidableEq, Repr

def f32 : FloatFmt := ⟨8, 23, 127, 0x7F7FFFFF, some 0x7F800000, some 0x7FC00000⟩
def f16 : FloatFmt := ⟨5, 10, 15, 0x7BFF, some 0x7C00, some 0x7E00⟩
def bf16 : FloatFmt := ⟨8, 7, 127, 0x7F7F, some 0x7F80, some 0x7FC0⟩
def e4m3 : FloatFmt := ⟨4, 3, 7, 0x7E, none, some 0x7F⟩
def e5m2 : FloatFmt := ⟨5, 2, 15, 0x7B, some 0x7C, some 0x7E⟩
def e2m3 : FloatFmt := ⟨2, 3, 1, 0x1F, none, none⟩
def e3m2 : FloatFmt := ⟨3, 2, 3, 0x1F, none, none⟩
def e2m1 : FloatFmt := ⟨2, 1, 1, 0x7, none, none⟩

/-- The floating-point layout of a format code (R38, R196). -/
def floatOf : Nat → Option FloatFmt
  | 0x0 => some f32 | 0x1 => some f16 | 0x2 => some bf16 | 0x3 => some e4m3
  | 0x4 => some e5m2 | 0x5 => some e2m3 | 0x6 => some e3m2 | 0x7 => some e2m1 | _ => none

/-- The sign bit's weight. -/
def FloatFmt.sign (f : FloatFmt) : Nat := 2 ^ (f.ew + f.mw)

/-- The exponent of the least subnormal (R197): 1 − bias − mw. -/
def FloatFmt.emin (f : FloatFmt) : Int := 1 - f.bias - f.mw

/-- The formats whose subnormals FZ flushes (R206). -/
def FloatFmt.flushed (f : FloatFmt) : Bool := f == f32 || f == f16 || f == bf16

/-- The value of an encoding (R197). -/
def FloatFmt.decode (f : FloatFmt) (bits : Nat) : Val :=
  let neg := bits / f.sign % 2 = 1
  let mag := bits % f.sign
  let ef := mag / 2 ^ f.mw
  let m := mag % 2 ^ f.mw
  if mag ≤ f.top then
    if ef = 0 then .fin neg m f.emin else .fin neg (m + 2 ^ f.mw) (f.emin + ef - 1)
  else if f.inf = some mag then .inf neg
  else .nan

/-- The value that an operand is read as: FZ makes a subnormal FP32, FP16 or BF16 a zero (R206). -/
def FloatFmt.read (f : FloatFmt) (fz : Bool) (bits : Nat) : Val :=
  match f.decode bits with
  | .fin neg m e => if fz && f.flushed && m < 2 ^ f.mw then .fin neg 0 e else .fin neg m e
  | v => v

/-- The rounding register's fields (R201). -/
structure Mode where
  rm  : Nat
  fz  : Bool
  sat : Bool
  deriving DecidableEq, Repr

def modeOf (r : BitVec 5) : Mode := ⟨(r.extractLsb' 0 3).toNat, r.getLsbD 3, r.getLsbD 4⟩

/-- To nearest with ties to even, no flush: `RoundFP32(x, RNE)` (R8). -/
def rne : Mode := ⟨0, false, false⟩

/-- Whether a magnitude between n0 and n0 + 1 units rounds up (R201): `rem` of `2^sh` lies above
n0, and something more when `sticky`. -/
def roundsUp (rm : Nat) (neg : Bool) (n0 rem sh : Nat) (sticky : Bool) : Bool :=
  let inexact := rem != 0 || sticky
  match rm with
  | 1 => false
  | 2 => neg && inexact
  | 3 => !neg && inexact
  | 4 => sh != 0 && rem ≥ 2 ^ (sh - 1)
  | _ => sh != 0 && (rem > 2 ^ (sh - 1) || (rem == 2 ^ (sh - 1) && (sticky || n0 % 2 == 1)))

/-- A magnitude m × 2^e, or a little more when `sticky`, rounded to a multiple of 2^q. -/
def roundAt (rm : Nat) (neg : Bool) (m : Nat) (e q : Int) (sticky : Bool) : Nat :=
  if q ≤ e then m * 2 ^ (e - q).toNat + if roundsUp rm neg 0 0 0 sticky then 1 else 0
  else
    let sh := (q - e).toNat
    let n0 := m / 2 ^ sh
    if roundsUp rm neg n0 (m % 2 ^ sh) sh sticky then n0 + 1 else n0

/-- The encoding without sign of a magnitude m × 2^e (m above 0) rounded to the format's mantissa
width, with its subnormal spacing and no upper limit (R203). -/
def FloatFmt.roundMag (f : FloatFmt) (rm : Nat) (neg : Bool) (m : Nat) (e : Int) (sticky : Bool) :
    Nat :=
  let q := max f.emin (m.log2 + e - f.mw)
  (q - f.emin).toNat * 2 ^ f.mw + roundAt rm neg m e q sticky

/-- The sign put on an encoding. -/
def FloatFmt.signed (f : FloatFmt) (neg : Bool) (mag : Nat) : Nat := if neg then mag + f.sign else mag

/-- `DefaultNaN(F)`, or +0 in a format without one (R198, R203). -/
def FloatFmt.defaultNan (f : FloatFmt) : Nat := f.nan.getD 0

/-- `Overflow(s, F, sr, v)` (R205). -/
def FloatFmt.overflow (f : FloatFmt) (mo : Mode) (neg finite : Bool) : Nat :=
  let bounded := finite && (mo.rm == 1 || (mo.rm == 2 && !neg) || (mo.rm == 3 && neg))
  if bounded || mo.sat then f.signed neg f.top
  else
    match f.inf with
    | some i => f.signed neg i
    | none =>
      match f.nan with
      | some n => n
      | none => f.signed neg f.top

/-- `Convert(x, F, sr)` (R203), for a value a little above m × 2^e when `sticky`. -/
def FloatFmt.convertSticky (f : FloatFmt) (mo : Mode) (v : Val) (sticky : Bool) : Nat :=
  match v with
  | .nan => f.defaultNan
  | .inf neg => f.overflow mo neg false
  | .fin neg m e =>
    if m = 0 then f.signed neg 0
    else if mo.fz && f.flushed && m.log2 + e < 1 - f.bias then f.signed neg 0
    else
      let mag := f.roundMag mo.rm neg m e sticky
      if mag > f.top then f.overflow mo neg true else f.signed neg mag

def FloatFmt.convert (f : FloatFmt) (mo : Mode) (v : Val) : Nat := f.convertSticky mo v false

/-! ## Exact operations -/

/-- The signed integer m at exponent `q` below or at `e`. -/
def scaled (neg : Bool) (m : Nat) (e q : Int) : Int :=
  let n : Int := m * 2 ^ (e - q).toNat
  if neg then -n else n

/-- Exact sum of two finite values; an exact zero is −0 only under RDN, or where both are −0
(R198). -/
def addFin (rm : Nat) (n1 : Bool) (m1 : Nat) (e1 : Int) (n2 : Bool) (m2 : Nat) (e2 : Int) : Val :=
  let q := min e1 e2
  let t := scaled n1 m1 e1 q + scaled n2 m2 e2 q
  if t = 0 then
    .fin (if m1 = 0 ∧ m2 = 0 ∧ n1 = n2 then n1 else rm == 2) 0 q
  else .fin (t < 0) t.natAbs q

def Val.add (rm : Nat) : Val → Val → Val
  | .nan, _ | _, .nan => .nan
  | .inf a, .inf b => if a = b then .inf a else .nan
  | .inf a, .fin _ _ _ | .fin _ _ _, .inf a => .inf a
  | .fin n1 m1 e1, .fin n2 m2 e2 => addFin rm n1 m1 e1 n2 m2 e2

def Val.neg : Val → Val
  | .nan => .nan
  | .inf a => .inf !a
  | .fin n m e => .fin (!n) m e

def Val.mul : Val → Val → Val
  | .nan, _ | _, .nan => .nan
  | .inf a, .inf b => .inf (a != b)
  | .inf a, .fin n m _ | .fin n m _, .inf a => if m = 0 then .nan else .inf (a != n)
  | .fin n1 m1 e1, .fin n2 m2 e2 => .fin (n1 != n2) (m1 * m2) (e1 + e2)

/-- A quotient to 64 more bits than the dividend, and whether something remains (R216). -/
def Val.div : Val → Val → Val × Bool
  | .nan, _ | _, .nan => (.nan, false)
  | .inf _, .inf _ => (.nan, false)
  | .inf a, .fin n _ _ => (.inf (a != n), false)
  | .fin n _ _, .inf a => (.fin (n != a) 0 0, false)
  | .fin n1 m1 e1, .fin n2 m2 e2 =>
    if m2 = 0 then (if m1 = 0 then (.nan, false) else (.inf (n1 != n2), false))
    else (.fin (n1 != n2) (m1 * 2 ^ 64 / m2) (e1 - e2 - 64), m1 * 2 ^ 64 % m2 != 0)

/-- Newton's steps toward the integer square root from above, at most `fuel` of them. -/
def isqrtStep (n : Nat) : Nat → Nat → Nat
  | 0, r => r
  | fuel + 1, r =>
    let r' := (r + n / r) / 2
    if r' < r then isqrtStep n fuel r' else r

/-- The integer square root, rounded down. -/
def isqrt (n : Nat) : Nat := if n = 0 then 0 else isqrtStep n 64 (2 ^ (n.log2 / 2 + 1))

/-- A square root to 64 bits below, and whether something remains (R216). -/
def Val.sqrt : Val → Val × Bool
  | .nan => (.nan, false)
  | .inf a => (if a then .nan else .inf false, false)
  | .fin neg m e =>
    if m = 0 then (.fin neg 0 e, false)
    else if neg then (.nan, false)
    else
      let odd := e % 2
      let n := m * 2 ^ (128 + odd.toNat)
      let r := isqrt n
      (.fin false r ((e - odd) / 2 - 64), r * r != n)

/-! ## Powers of two (R216) -/

/-- The product of 2^(2^−i) over the bits of a fraction: `t` bits of `f` from the top, with the root
for the next bit. All to 320 bits. -/
def exp2Bits (f : Nat) : Nat → Nat → Nat → Nat
  | 0, _, acc => acc
  | t + 1, root, acc =>
    let root := isqrt (root * 2 ^ 320)
    exp2Bits f t root (if f / 2 ^ t % 2 = 1 then acc * root / 2 ^ 320 else acc)

/-- 2^x for x = (−1)^neg × m × 2^e, a finite value of FP32: exact for an integer, else 2^⌊x⌋ times
2^(x − ⌊x⌋) in [1, 2) to 320 bits, which is never a rounding boundary. -/
def exp2Fin (neg : Bool) (m : Nat) (e : Int) : Val × Bool :=
  if 0 ≤ e then (.fin false 1 (scaled neg (min m 512) (min e 9) 0), false)
  else
    let t := (-e).toNat
    let x : Int := if neg then -m else m
    let whole := x / 2 ^ t
    let f := (x % 2 ^ t).toNat
    if f = 0 then (.fin false 1 whole, false)
    else (.fin false (exp2Bits f t (2 ^ 321) (2 ^ 320)) (whole - 320), true)

def Val.exp2 : Val → Val × Bool
  | .nan => (.nan, false)
  | .inf a => (if a then .fin false 0 0 else .inf false, false)
  | .fin neg m e => if m = 0 then (.fin false 1 0, false) else exp2Fin neg m e

/-! ## FP32 lanes (R215, R216) -/

/-- FP32 arithmetic overflows whatever SAT holds (R205). -/
def Mode.arith (mo : Mode) : Mode := { mo with sat := false }

/-- `Round(x, sr.round)` (R8). -/
def roundF32 (mo : Mode) (v : Val) (sticky : Bool) : W32 :=
  BitVec.ofNat 32 (f32.convertSticky mo.arith v sticky)

/-- An FP32 operand. -/
def readF32 (mo : Mode) (x : W32) : Val := f32.read mo.fz x.toNat

def fpAdd (mo : Mode) (x y : W32) : W32 := roundF32 mo (Val.add mo.rm (readF32 mo x) (readF32 mo y)) false
def fpSub (mo : Mode) (x y : W32) : W32 :=
  roundF32 mo (Val.add mo.rm (readF32 mo x) (readF32 mo y).neg) false
def fpMul (mo : Mode) (x y : W32) : W32 := roundF32 mo ((readF32 mo x).mul (readF32 mo y)) false
def fpFma (mo : Mode) (x y z : W32) : W32 :=
  roundF32 mo (Val.add mo.rm ((readF32 mo x).mul (readF32 mo y)) (readF32 mo z)) false
def fpFms (mo : Mode) (x y z : W32) : W32 :=
  roundF32 mo (Val.add mo.rm (readF32 mo z) ((readF32 mo x).mul (readF32 mo y)).neg) false
def fpDiv (mo : Mode) (x y : W32) : W32 :=
  let r := (readF32 mo x).div (readF32 mo y)
  roundF32 mo r.1 r.2
def fpSqrt (mo : Mode) (x : W32) : W32 :=
  let r := (readF32 mo x).sqrt
  roundF32 mo r.1 r.2
def fpExp2 (mo : Mode) (x : W32) : W32 :=
  let r := (readF32 mo x).exp2
  roundF32 mo r.1 r.2

/-- An FP32 NaN. -/
def isNan (x : W32) : Bool := (x.extractLsb' 0 31).toNat > 0x7F800000

/-- The bits an operand is read as: a subnormal is the zero of its sign under FZ (R206). -/
def flushBits (mo : Mode) (x : W32) : W32 :=
  if mo.fz && (x.extractLsb' 23 8) = 0 then x &&& 0x80000000 else x

/-- The place of a number in the order that has −0 below +0 (R216). -/
def order (x : W32) : Int :=
  let m : Int := (x.extractLsb' 0 31).toNat
  if x.getLsbD 31 then -m - 1 else m

/-- The place of a number in the order of values, where the zeros are equal. -/
def valueOrder (x : W32) : Int :=
  let m : Int := (x.extractLsb' 0 31).toNat
  if x.getLsbD 31 then -m else m

def nan32 : W32 := 0x7FC00000

def fpMin (mo : Mode) (x y : W32) : W32 :=
  let x := flushBits mo x
  let y := flushBits mo y
  if isNan x || isNan y then nan32 else if order x ≤ order y then x else y
def fpMax (mo : Mode) (x y : W32) : W32 :=
  let x := flushBits mo x
  let y := flushBits mo y
  if isNan x || isNan y then nan32 else if order y ≤ order x then x else y
def fpAbs (mo : Mode) (x : W32) : W32 :=
  if isNan x then nan32 else flushBits mo x &&& 0x7FFFFFFF
def fpNeg (mo : Mode) (x : W32) : W32 :=
  if isNan x then nan32 else flushBits mo x ^^^ 0x80000000

/-- A comparison of two operands as they are read; a NaN makes it false. -/
def fpCompare (mo : Mode) (r : Int → Int → Bool) (x y : W32) : Bool :=
  !isNan x && !isNan y && r (valueOrder (flushBits mo x)) (valueOrder (flushBits mo y))

/-! ## Conversions (R203 to R209) -/

/-- An integer type of R200: its width and whether it is signed. -/
def intOf : Nat → Option (Nat × Bool)
  | 0x8 => some (8, true) | 0x9 => some (8, false) | 0xA => some (16, true)
  | 0xB => some (16, false) | 0xC => some (32, true) | 0xD => some (32, false) | _ => none

def intLow (w : Nat) (sgn : Bool) : Int := if sgn then -(2 ^ (w - 1) : Int) else 0
def intHigh (w : Nat) (sgn : Bool) : Int := if sgn then 2 ^ (w - 1) - 1 else 2 ^ w - 1

/-- Clamped to the range of a type. -/
def clampInt (w : Nat) (sgn : Bool) (n : Int) : Int := max (intLow w sgn) (min (intHigh w sgn) n)

/-- An integer's bits in `w` bits. -/
def intBits (w : Nat) (n : Int) : Nat := (n % 2 ^ w).toNat

/-- A value rounded to an integer type under RM; out of range gives the nearest end, NaN 0 (R207). -/
def toInt (mo : Mode) (w : Nat) (sgn : Bool) : Val → Nat
  | .nan => 0
  | .inf neg => intBits w (if neg then intLow w sgn else intHigh w sgn)
  | .fin neg m e =>
    let n : Int := roundAt mo.rm neg m e 0 false
    intBits w (clampInt w sgn (if neg then -n else n))

/-- FP32 to E8M0 (R208): the exponent of the value as its bits give it, FZ playing no part. -/
def toE8m0 : Val → Nat
  | .nan | .inf _ => 0xFF
  | .fin _ m e =>
    if m = 0 then 0
    else
      let n := m.log2 + e + 127
      if n < 0 then 0 else n.toNat

/-- The value of an E8M0 scale (R199). -/
def e8m0 (n : Nat) : Val := if n = 0xFF then .nan else .fin false 1 (n - 127 : Int)

/-- The value of a plain element of a format code, as a source (R197, R199, R200, R206). -/
def elemValue (mo : Mode) (code bits : Nat) : Val :=
  match floatOf code with
  | some f => f.read mo.fz bits
  | none =>
    match intOf code with
    | some (w, sgn) =>
      let n : Int := if sgn ∧ bits ≥ 2 ^ (w - 1) then bits - 2 ^ w else bits
      .fin (n < 0) n.natAbs 0
    | none => e8m0 bits

/-- The width of a format in bits (R221). -/
def widthOf : Nat → Nat
  | 0x0 | 0xC | 0xD => 32
  | 0x1 | 0x2 | 0xA | 0xB => 16
  | 0x5 | 0x6 => 6
  | 0x7 => 4
  | _ => 8

/-- The conversion of one element between two formats (R203, R207, R208). -/
def convertElem (mo : Mode) (src dst bits : Nat) : Nat :=
  match floatOf dst with
  | some f => f.convert mo (elemValue mo src bits)
  | none =>
    match intOf dst with
    | some (w, sgn) =>
      match intOf src with
      | some _ =>
        match elemValue mo src bits with
        | .fin neg m _ =>
          let n : Int := if neg then -m else m
          intBits w (if mo.sat then clampInt w sgn n else n)
        | _ => 0
      | none => toInt mo w sgn (elemValue mo src bits)
    | none => toE8m0 (elemValue ⟨mo.rm, false, false⟩ src bits)

/-- A value times a power of two, exactly. -/
def Val.scale (v : Val) (s : Int) : Val :=
  match v with
  | .fin n m e => .fin n m (e + s)
  | v => v

/-- The value of an element of an MX operand before its scale (R199). -/
def mxValue (code bits : Nat) : Val :=
  if code = 0x8 then (elemValue rne 0x8 bits).scale (-6) else elemValue rne code bits

end Sys2Proof.Machine
end

