-- ==== Sys2Proof/Machine/Vector.lean ====
section
/-! DEFINITION. The vector unit: floating-point lanes (R215, R216), integer lanes (R217), moves and
masks (R218), reductions (R219, R220), conversions (R221) and lane accesses (R222 to R225). -/

namespace Sys2Proof.Machine

/-! ## Lanes, masks and groups (R210 to R214) -/

/-- Whether lane `l` is active under the governing mask (R211). -/
def Core.active (c : Core) (q : BitVec 2) (l : Nat) : Bool := q = 0 || (c.q[q.toFin]).getLsbD l

/-- Lane `l` of vector register `r`. -/
def Core.lane (c : Core) (r : Reg) (l : Nat) : W32 := Machine.lane c.v[r.toFin] l

/-- A vector register written under a mask (R211). -/
def Core.setLanes (c : Core) (q : BitVec 2) (d : Reg) (f : Nat → W32) : Core :=
  { c with v := c.v.set d.toFin (ofLanes fun l => if c.active q l then f l else c.lane d l) }

/-- A mask register written: every bit, inactive lanes 0 (R215). -/
def Core.setMask (c : Core) (q d : BitVec 2) (f : Nat → Bool) : Core :=
  { c with q := c.q.set d.toFin (ofBits fun l => c.active q l && f l) }

/-- Register `r + k` of a group (R214). -/
def member (r : Reg) (k : Nat) : Reg := r + BitVec.ofNat 5 k

/-- A group of members (R214): `f` makes lane `l` of member `k` from the registers before. -/
def Core.group (c : Core) (q : BitVec 2) (d : Reg) (f : Nat → Nat → W32) : Nat → Core
  | 0 => c
  | n + 1 =>
    let e := c.group q d f n
    let new := ofLanes fun l => if c.active q l then f n l else c.lane (member d n) l
    { e with v := e.v.set (member d n).toFin new }

/-- An instruction of the vector unit that completes in its slot (R103, R212): `rs` are the general
registers it names. -/
def vector (rs : List Reg) (s : State) (body : State → State) : Out :=
  issueM rs s do
    needBind 1
    modify fun s => (body s).seq

/-- The rounding register as the issuing context has it (R202). -/
def State.mode (s : State) : Mode := modeOf s.me.round

/-- A grouped function of the lanes of v[a], v[b] and v[d] (R214). -/
def ternary (d a b : Reg) (q : BitVec 2) (grp : BitVec 3) (f : Mode → W32 → W32 → W32 → W32)
    (s : State) : Out :=
  vector [] s fun s => s.modMine fun c => c.group q d
    (fun k l => f s.mode (c.lane (member a k) l) (c.lane (member b k) l) (c.lane (member d k) l))
    (grp.toNat + 1)

def binaryV (d a b : Reg) (q : BitVec 2) (grp : BitVec 3) (f : Mode → W32 → W32 → W32) (s : State) :
    Out := ternary d a b q grp (fun mo x y _ => f mo x y) s

def unaryV (d a : Reg) (q : BitVec 2) (grp : BitVec 3) (f : Mode → W32 → W32) (s : State) : Out :=
  ternary d a a q grp (fun mo x _ _ => f mo x) s

/-- A compare of lanes into a mask register (R215, R217). -/
def compareV (d : QReg) (a b : Reg) (q : BitVec 2) (f : Mode → W32 → W32 → Bool) (s : State) : Out :=
  vector [] s fun s => s.modMine fun c =>
    c.setMask q d fun l => f s.mode (c.lane a l) (c.lane b l)

/-- An instruction of feature VMATH (R249). -/
def vmath (s : State) (go : Out) : Out := if s.masked s.myPart 6 then .next s.illegal else go

/-! ## VFP (R215, R216) -/

def execVfpAdd (d a b : Reg) (q : BitVec 2) (grp : BitVec 3) (s : State) : Out := binaryV d a b q grp fpAdd s
def execVfpSub (d a b : Reg) (q : BitVec 2) (grp : BitVec 3) (s : State) : Out := binaryV d a b q grp fpSub s
def execVfpMul (d a b : Reg) (q : BitVec 2) (grp : BitVec 3) (s : State) : Out := binaryV d a b q grp fpMul s
def execVfpFma (d a b : Reg) (q : BitVec 2) (grp : BitVec 3) (s : State) : Out := ternary d a b q grp fpFma s
def execVfpFms (d a b : Reg) (q : BitVec 2) (grp : BitVec 3) (s : State) : Out := ternary d a b q grp fpFms s
def execVfpMin (d a b : Reg) (q : BitVec 2) (grp : BitVec 3) (s : State) : Out := binaryV d a b q grp fpMin s
def execVfpMax (d a b : Reg) (q : BitVec 2) (grp : BitVec 3) (s : State) : Out := binaryV d a b q grp fpMax s
def execVfpAbs (d a : Reg) (q : BitVec 2) (grp : BitVec 3) (s : State) : Out := unaryV d a q grp fpAbs s
def execVfpNeg (d a : Reg) (q : BitVec 2) (grp : BitVec 3) (s : State) : Out := unaryV d a q grp fpNeg s
def execVfpDiv (d a b : Reg) (q : BitVec 2) (grp : BitVec 3) (s : State) : Out :=
  vmath s (binaryV d a b q grp fpDiv s)
def execVfpSqrt (d a : Reg) (q : BitVec 2) (grp : BitVec 3) (s : State) : Out :=
  vmath s (unaryV d a q grp fpSqrt s)
def execVfpExp2 (d a : Reg) (q : BitVec 2) (grp : BitVec 3) (s : State) : Out :=
  vmath s (unaryV d a q grp fpExp2 s)
def execVfpCeq (d : QReg) (a b : Reg) (q : BitVec 2) (s : State) : Out :=
  compareV d a b q (fun mo x y => fpCompare mo (fun i j => i == j) x y) s
def execVfpClt (d : QReg) (a b : Reg) (q : BitVec 2) (s : State) : Out :=
  compareV d a b q (fun mo x y => fpCompare mo (fun i j => i < j) x y) s
def execVfpCle (d : QReg) (a b : Reg) (q : BitVec 2) (s : State) : Out :=
  compareV d a b q (fun mo x y => fpCompare mo (fun i j => i ≤ j) x y) s

/-! ## VIN (R217) -/

/-- A grouped integer function of two lanes. -/
def intV (d a b : Reg) (q : BitVec 2) (grp : BitVec 3) (f : W32 → W32 → W32) (s : State) : Out :=
  binaryV d a b q grp (fun _ x y => f x y) s

/-- A shift count is y[4:0] (R217). -/
def count32 (y : W32) : Nat := (y.extractLsb' 0 5).toNat

/-- An exact result clamped to int32 (R217). -/
def sat32 (n : Int) : W32 := BitVec.ofInt 32 (clampInt 32 true n)

def execVinAdd (d a b : Reg) (q : BitVec 2) (grp : BitVec 3) (s : State) : Out := intV d a b q grp (fun x y => x + y) s
def execVinSub (d a b : Reg) (q : BitVec 2) (grp : BitVec 3) (s : State) : Out := intV d a b q grp (fun x y => x - y) s
def execVinMul (d a b : Reg) (q : BitVec 2) (grp : BitVec 3) (s : State) : Out := intV d a b q grp (fun x y => x * y) s
def execVinMulh (d a b : Reg) (q : BitVec 2) (grp : BitVec 3) (s : State) : Out :=
  intV d a b q grp (fun x y => BitVec.ofInt 32 (x.toInt * y.toInt / 2 ^ 32)) s
def execVinAnd (d a b : Reg) (q : BitVec 2) (grp : BitVec 3) (s : State) : Out := intV d a b q grp (fun x y => x &&& y) s
def execVinOr (d a b : Reg) (q : BitVec 2) (grp : BitVec 3) (s : State) : Out := intV d a b q grp (fun x y => x ||| y) s
def execVinXor (d a b : Reg) (q : BitVec 2) (grp : BitVec 3) (s : State) : Out := intV d a b q grp (fun x y => x ^^^ y) s
def execVinShl (d a b : Reg) (q : BitVec 2) (grp : BitVec 3) (s : State) : Out := intV d a b q grp (fun x y => x <<< count32 y) s
def execVinShr (d a b : Reg) (q : BitVec 2) (grp : BitVec 3) (s : State) : Out := intV d a b q grp (fun x y => x >>> count32 y) s
def execVinSar (d a b : Reg) (q : BitVec 2) (grp : BitVec 3) (s : State) : Out := intV d a b q grp (fun x y => x.sshiftRight (count32 y)) s
def execVinMin (d a b : Reg) (q : BitVec 2) (grp : BitVec 3) (s : State) : Out := intV d a b q grp (fun x y => if x.sle y then x else y) s
def execVinMax (d a b : Reg) (q : BitVec 2) (grp : BitVec 3) (s : State) : Out := intV d a b q grp (fun x y => if y.sle x then x else y) s
def execVinMinu (d a b : Reg) (q : BitVec 2) (grp : BitVec 3) (s : State) : Out := intV d a b q grp (fun x y => if x.ule y then x else y) s
def execVinMaxu (d a b : Reg) (q : BitVec 2) (grp : BitVec 3) (s : State) : Out := intV d a b q grp (fun x y => if y.ule x then x else y) s
def execVinAdds (d a b : Reg) (q : BitVec 2) (grp : BitVec 3) (s : State) : Out := intV d a b q grp (fun x y => sat32 (x.toInt + y.toInt)) s
def execVinSubs (d a b : Reg) (q : BitVec 2) (grp : BitVec 3) (s : State) : Out := intV d a b q grp (fun x y => sat32 (x.toInt - y.toInt)) s
def execVinCeq (d : QReg) (a b : Reg) (q : BitVec 2) (s : State) : Out := compareV d a b q (fun _ x y => x == y) s
def execVinClt (d : QReg) (a b : Reg) (q : BitVec 2) (s : State) : Out := compareV d a b q (fun _ x y => x.slt y) s
def execVinCltu (d : QReg) (a b : Reg) (q : BitVec 2) (s : State) : Out := compareV d a b q (fun _ x y => x.ult y) s

/-! ## VMV (R218) -/

/-- The lane a general register names: bits [4:0]. -/
def laneOf (x : Word) : Nat := (x.extractLsb' 0 5).toNat

def execVmvMov (d a : Reg) (q : BitVec 2) (s : State) : Out :=
  vector [] s fun s => s.modMine fun c => c.setLanes q d fun l => c.lane a l
def execVmvBcast (d a : Reg) (q : BitVec 2) (s : State) : Out :=
  vector [a] s fun s => s.modMine fun c => c.setLanes q d fun _ => (s.rg a).truncate 32
def execVmvSel (d a b : Reg) (q : BitVec 2) (s : State) : Out :=
  vector [] s fun s => s.modMine fun c =>
    c.setLanes 0 d fun l => if c.active q l then c.lane a l else c.lane b l
def execVmvPerm (d a b : Reg) (q : BitVec 2) (s : State) : Out :=
  vector [] s fun s => s.modMine fun c => c.setLanes q d fun l => c.lane a (count32 (c.lane b l))
def execVmvRot (d a b : Reg) (q : BitVec 2) (s : State) : Out :=
  vector [b] s fun s => s.modMine fun c =>
    c.setLanes q d fun l => c.lane a ((l + laneOf (s.rg b)) % 32)
def execVmvIns (d a b : Reg) (s : State) : Out :=
  vector [a, b] s fun s => s.modMine fun c =>
    c.setLanes 0 d fun l => if l = laneOf (s.rg b) then (s.rg a).truncate 32 else c.lane d l
def execVmvExt (d a b : Reg) (s : State) : Out :=
  vector [d, b] s fun s => s.wg d (zext (s.mine.lane a (laneOf (s.rg b))))

/-- A mask register computed from two. -/
def maskOp (d a b : QReg) (f : W32 → W32 → W32) (s : State) : Out :=
  vector [] s fun s => s.modMine fun c =>
    { c with q := c.q.set d.toFin (f c.q[a.toFin] c.q[b.toFin]) }

def execVmvQand (d a b : QReg) (s : State) : Out := maskOp d a b (fun x y => x &&& y) s
def execVmvQor (d a b : QReg) (s : State) : Out := maskOp d a b (fun x y => x ||| y) s
def execVmvQnot (d a : QReg) (s : State) : Out := maskOp d a a (fun x _ => ~~~x) s
def execVmvQrd (d : Reg) (a : QReg) (s : State) : Out :=
  vector [d] s fun s => s.wg d (zext s.mine.q[a.toFin])
def execVmvQwr (d : QReg) (a : Reg) (s : State) : Out :=
  vector [a] s fun s => s.modMine fun c => { c with q := c.q.set d.toFin ((s.rg a).truncate 32) }

/-! ## VRD (R219, R220) -/

/-- The active lanes of a register, from lane 0. -/
def Core.activeLanes (c : Core) (q : BitVec 2) (a : Reg) : List W32 :=
  ((List.range 32).filter fun l => c.active q l).map fun l => c.lane a l

/-- A reduction of the active lanes from a value for none. -/
def reduce {α : Type} (d a : Reg) (q : BitVec 2) (init : α) (f : Mode → α → W32 → α) (out : α → Word)
    (s : State) : Out :=
  vector [d] s fun s => s.wg d (out ((s.mine.activeLanes q a).foldl (f s.mode) init))

/-- One level of the tree of R220. -/
def treeLevel (mo : Mode) : List (Option W32) → List (Option W32)
  | x :: y :: t =>
    (match x, y with
      | some x, some y => some (fpAdd mo x y)
      | some x, none => some x
      | none, y => y) :: treeLevel mo t
  | l => l

/-- The sum of R220 over 32 lanes. -/
def treeSum (mo : Mode) (l : List (Option W32)) : W32 :=
  ((treeLevel mo (treeLevel mo (treeLevel mo (treeLevel mo (treeLevel mo l))))).headD none).getD 0

def execVrdFsum (d a : Reg) (q : BitVec 2) (s : State) : Out :=
  vector [d] s fun s =>
    let c := s.mine
    s.wg d (zext (treeSum s.mode
      ((List.range 32).map fun l => if c.active q l then some (c.lane a l) else none)))
def execVrdFmax (d a : Reg) (q : BitVec 2) (s : State) : Out :=
  reduce d a q (0xFF800000 : W32) (fun mo x y => fpMax mo x y) zext s
def execVrdFmin (d a : Reg) (q : BitVec 2) (s : State) : Out :=
  reduce d a q (0x7F800000 : W32) (fun mo x y => fpMin mo x y) zext s
def execVrdIsum (d a : Reg) (q : BitVec 2) (s : State) : Out :=
  reduce d a q (0 : Word) (fun _ x y => x + y.signExtend 64) id s
def execVrdImax (d a : Reg) (q : BitVec 2) (s : State) : Out :=
  reduce d a q (0x80000000 : W32) (fun _ x y => if x.sle y then y else x) (fun x => x.signExtend 64) s
def execVrdImin (d a : Reg) (q : BitVec 2) (s : State) : Out :=
  reduce d a q (0x7FFFFFFF : W32) (fun _ x y => if y.sle x then y else x) (fun x => x.signExtend 64) s
def execVrdImaxu (d a : Reg) (q : BitVec 2) (s : State) : Out :=
  reduce d a q (0 : W32) (fun _ x y => if x.ule y then y else x) zext s
def execVrdIminu (d a : Reg) (q : BitVec 2) (s : State) : Out :=
  reduce d a q (0xFFFFFFFF : W32) (fun _ x y => if y.ule x then y else x) zext s

/-! ## VCV (R221) -/

/-- `w` bits of a register from bit `p`, and the register with them replaced. -/
def bitsAt (x : LineData) (p w : Nat) : Nat := x.toNat / 2 ^ p % 2 ^ w
def putBits (x : LineData) (p w v : Nat) : LineData :=
  (x &&& ~~~(BitVec.ofNat 1024 ((2 ^ w - 1) * 2 ^ p))) ||| BitVec.ofNat 1024 (v % 2 ^ w * 2 ^ p)

/-- The features that withdraw a format code (R249). -/
def formatFeature : Nat → Option Nat
  | 0x3 | 0x4 => some 0
  | 0x5 | 0x6 => some 1
  | 0x7 => some 2
  | _ => none

/-- Whether a format is masked for a partition (R249). -/
def State.formatMasked (s : State) (p code : Nat) : Bool := (formatFeature code).any fun f => s.masked p f

/-- The first `n` elements converted from `x` into `d`, the active ones. -/
def convertInto (mo : Mode) (act : Nat → Bool) (src dst : Nat) (x d : LineData) : Nat → LineData
  | 0 => d
  | n + 1 =>
    let d := convertInto mo act src dst x d n
    if act n then
      putBits d (widthOf dst * n) (widthOf dst)
        (convertElem mo src dst (bitsAt x (widthOf src * n) (widthOf src)))
    else d

def execVcv (d a : Reg) (q : BitVec 2) (src dst : Fmt) (s : State) : Out :=
  let sc := (Fmt.code src).toNat
  let dc := (Fmt.code dst).toNat
  if s.formatMasked s.myPart sc || s.formatMasked s.myPart dc then .next s.illegal
  else
    vector [] s fun s => s.modMine fun c =>
      let new := convertInto s.mode (c.active q) sc dc c.v[a.toFin] c.v[d.toFin] 32
      { c with v := c.v.set d.toFin new }

/-! ## VLS (R222 to R225) -/

/-- A lane is behind: NEXT moves past it, and the next lane waits for replies of its own (R223,
R224). -/
def State.passLane (s : State) (l : Nat) : State :=
  let s := s.modMe fun c => { c with vprog := BitVec.ofNat 5 (l + 1), replies := 0, acq := none }
  { s with cur := { s.cur with used := 0 } }

/-- The lanes of a list, from `sr.vprog`.NEXT on (R223). -/
def lanes (act : Nat → Bool) (one : Nat → M Unit) : List Nat → M Unit
  | [] => modify fun s => (s.modMe fun c => { c with vprog := 0 }).seq
  | l :: ls => do
    if l ≥ (← get).me.vprog.toNat then
      if act l then one l
      modify fun s => s.passLane l
    lanes act one ls

/-- One lane's load (R222, R225). -/
def loadLane (sp : Space) (d : Reg) (e : Word) (l : Nat) : M Unit := do
  trapIf (e.extractLsb' 0 2 != 0) 0x03 e
  let x ← readSpace sp e 4
  modify fun s => s.modMine fun c =>
    c.setLanes 0 d fun i => if i = l then BitVec.ofNat 32 x else c.lane d i

/-- One lane's store (R222, R225). -/
def storeLane (sp : Space) (d : Reg) (e : Word) (l : Nat) : M Unit := do
  trapIf (e.extractLsb' 0 2 != 0) 0x03 e
  writeSpace sp e 4 ((← get).mine.lane d l).toNat

/-- A VLS instruction: `addr` gives each lane's address from the registers (R222). -/
def vls (rs : List Reg) (q : BitVec 2) (addr : State → Nat → Word) (one : Word → Nat → M Unit)
    (s : State) : Out :=
  issueM rs s do
    needBind 1
    let s ← get
    lanes (s.mine.active q) (fun l => one (addr s l) l) (List.range 32)

/-- e(l) of a row of consecutive words, at a stride, and at offsets (R222). -/
def rowAddr (a : Reg) (s : State) (l : Nat) : Word := s.rg a + BitVec.ofNat 64 (4 * l)
def strideAddr (a b : Reg) (s : State) (l : Nat) : Word := s.rg a + BitVec.ofNat 64 l * s.rg b
def offsetAddr (a b : Reg) (s : State) (l : Nat) : Word := s.rg a + zext (s.mine.lane b l)

/-- An instruction of feature GATHER (R249). -/
def gatherFeat (s : State) (go : Out) : Out := if s.masked s.myPart 5 then .next s.illegal else go

def execVlsLd (d a : Reg) (q : BitVec 2) (sp : Space) (s : State) : Out :=
  vls [a] q (rowAddr a) (loadLane sp d) s
def execVlsSt (d a : Reg) (q : BitVec 2) (sp : Space) (s : State) : Out :=
  vls [a] q (rowAddr a) (storeLane sp d) s
def execVlsLds (d a b : Reg) (q : BitVec 2) (sp : Space) (s : State) : Out :=
  vls [a, b] q (strideAddr a b) (loadLane sp d) s
def execVlsSts (d a b : Reg) (q : BitVec 2) (sp : Space) (s : State) : Out :=
  vls [a, b] q (strideAddr a b) (storeLane sp d) s
def execVlsGath (d a b : Reg) (q : BitVec 2) (sp : Space) (s : State) : Out :=
  gatherFeat s (vls [a] q (offsetAddr a b) (loadLane sp d) s)
def execVlsScat (d a b : Reg) (q : BitVec 2) (sp : Space) (s : State) : Out :=
  gatherFeat s (vls [a] q (offsetAddr a b) (storeLane sp d) s)

end Sys2Proof.Machine
end

