-- ==== Sys2Proof/Machine/Matrix.lean ====
section
/-! DEFINITION. The matrix unit: descriptors (R190, R230, R231, R233), its queue (R228, R235), block
sums (R192, R232) and its instructions (R193, R226 to R234). -/

namespace Sys2Proof.Machine

/-! ## Descriptors -/

/-- The fields of a descriptor register, with the scale offset of the second one (R190). -/
def descOf (r : Word) (soff : Nat) : Desc where
  fmt := (r.extractLsb' 52 4).toNat
  bs := r.getLsbD 56
  rot := (r.extractLsb' 48 4).toNat
  tilep := (r.extractLsb' 32 16).toNat
  rowp := (r.extractLsb' 16 16).toNat
  base := (r.extractLsb' 0 16).toNat
  soff := soff

/-- The features that withdraw a format as a matrix operand or MX format (R249). -/
def mxFeature (code : Nat) : Option Nat := if code = 0x8 then some 3 else formatFeature code

/-- Whether a format is accepted by MMA for a partition (R189, R190). -/
def State.mmaFormat (s : State) (p code : Nat) : Bool :=
  1 ≤ code && code ≤ 8 && !(mxFeature code).any fun f => s.masked p f

/-- BS agrees with FMT (R190). -/
def bsAgrees (fmt : Nat) (bs : Bool) : Bool :=
  if 5 ≤ fmt ∧ fmt ≤ 8 then bs else if fmt = 1 ∨ fmt = 2 then !bs else true

/-- The tile and its scales lie in the operand store, for `kb` + 1 blocks (R230). -/
def Desc.inRange (x : Desc) (kb : Nat) : Bool :=
  x.base + kb * x.tilep + 15 * x.rowp + 4 * widthOf x.fmt ≤ 32768 &&
    (!x.bs || x.soff + 16 * (kb + 1) ≤ 32768)

/-- The checks of one operand of an MMA (R190, R230). -/
def operand (r0 r1 : Word) (kb : Nat) : M Desc := do
  let s ← get
  let x := descOf r0 (r1.extractLsb' 0 16).toNat
  trapIf (r0.extractLsb' 57 7 != 0 || r1.extractLsb' 16 48 != 0 || !s.mmaFormat s.myPart x.fmt
    || !bsAgrees x.fmt x.bs || !x.inRange kb) 0x04 r0
  return x

/-- The class of a format (R231). -/
def mmaClass (code : Nat) : Nat :=
  if code = 4 then 3 else if code = 6 then 5 else code

/-- The formats of a pair belong together (R231). -/
def paired (f1 f2 : Nat) (b1 b2 : Bool) : Bool := mmaClass f1 == mmaClass f2 && b1 == b2

/-! ## The queue (R228) -/

/-- An instruction enters the queue, waiting for room (R228). -/
def enqueue (e : MEntry) : M Unit := do
  let s ← get
  blockIf (s.mine.mqueue.length ≥ 4) .matrix
  set ((s.modMine fun c => { c with mqueue := c.mqueue ++ [e] }).post (.mtxEntryExecute s.key)).seq

/-- The second register of a pair. -/
def pairOf (r : Reg) : Reg := r + 1

def execMtxMma (a b : Reg) (z : AccReg) (s : State) : Out :=
  issueM [a, pairOf a, b, pairOf b] s do
    needBind 2
    let s ← get
    let kb := (s.mine.mcfg.extractLsb' 6 2).toNat
    let x ← operand (s.rg a) (s.rg (pairOf a)) kb
    let y ← operand (s.rg b) (s.rg (pairOf b)) kb
    trapIf (!paired x.fmt y.fmt x.bs y.bs) 0x04 (s.rg a)
    enqueue (.mma x y z s.mine.mcfg)

/-- The bytes of `n` vector registers from register `r` (R233). -/
def Core.vectorBytes (c : Core) (r : Nat) : Nat → List Byte
  | 0 => []
  | n + 1 => (List.range 128).map (fun j => (c.v[Fin.ofNat 32 r]).extractLsb' (8 * j) 8)
      ++ c.vectorBytes (r + 1) n

def execMtxMmav (a b : Reg) (z : AccReg) (s : State) : Out :=
  if s.masked s.myPart 4 then .next s.illegal
  else
    issueM [a, pairOf a, b] s do
      needBind 2
      let s ← get
      let x ← operand (s.rg a) (s.rg (pairOf a)) 0
      let r := s.rg b
      let fmt := (r.extractLsb' 52 4).toNat
      let bs := r.getLsbD 56
      let vb := (r.extractLsb' 0 5).toNat
      let n := widthOf fmt / 2 + if bs then 1 else 0
      trapIf (r.extractLsb' 57 7 != 0 || r.extractLsb' 5 47 != 0 || !s.mmaFormat s.myPart fmt
        || !bsAgrees fmt bs || vb + n > 32 || s.mine.vecEng.last != some s.me.asid) 0x04 r
      trapIf (!paired x.fmt fmt x.bs bs) 0x04 (s.rg a)
      enqueue (.mmav x fmt bs (s.mine.vectorBytes vb n) z s.mine.mcfg)

def execMtxLd (a : Reg) (z : AccReg) (s : State) : Out :=
  issueM [a] s do
    needBind 2
    let r := (← get).rg a
    let x := descOf r 0
    trapIf (r.extractLsb' 57 7 != 0 || x.fmt != 0 || x.bs || x.rot != 0 || x.tilep != 0
      || x.base + 15 * x.rowp + 64 > 32768) 0x04 r
    enqueue (.load x.base x.rowp z)

def execMtxZero (z : AccReg) (s : State) : Out :=
  issueM [] s do
    needBind 2
    enqueue (.zero z)

def execMtxDrain (s : State) : Out :=
  issueM [] s do
    needBind 2
    blockIf (!(← get).mine.mqueue.isEmpty) .matrix
    modify fun s => s.seq

def execMtxCfg (d a : Reg) (s : State) : Out :=
  issueM [d, a] s do
    needBind 2
    let s ← get
    let x := s.rg a
    trapIf (x.extractLsb' 12 52 != 0) 0x04 x
    set ((s.modMine fun c => { c with mcfg := x.extractLsb' 0 12 }).result d (zext s.mine.mcfg))

/-! ## Block sums (R191, R192, R230, R232) -/

/-- What an MMA reads of the operand store: each byte as it is, or, where a later store has changed
it, as it was before (R235); `choices` says which, byte by byte. -/
def viewOf (mem : Memory) : List Dirty → List Bool → Nat → Byte
  | [], _, a => mem.read a
  | e :: es, ch, a =>
    if e.off = a && ch.headD false then e.old else viewOf mem es ch.tail a

/-- A byte's place in the operand store (R230). -/
def rotated (o i rot : Nat) : Nat :=
  if rot = 0 then o else o % 2048 + (o / 2048 + i * rot) % 16 * 2048

/-- `n` bytes of row or column `i` from nominal offset `o`, as a number. -/
def rowBits (view : Nat → Byte) (i rot o : Nat) : Nat → Nat
  | 0 => 0
  | n + 1 => rowBits view i rot o n + (view (rotated (o + n) i rot)).toNat * 256 ^ n

/-- The 32 elements packed in a number (R191). -/
def elements (fmt bits : Nat) : List Val :=
  (List.range 32).map fun k => mxValue fmt (bits / 2 ^ (widthOf fmt * k) % 2 ^ widthOf fmt)

/-- A row or column of a block: its elements and its scale byte (127 where there is none). -/
structure Row where
  elems : List Val
  scale : Nat

/-- Row or column `i` of block `t` (R230). -/
def Desc.row (x : Desc) (view : Nat → Byte) (t i : Nat) : Row where
  elems := elements x.fmt
    (rowBits view i x.rot (x.base + t * x.tilep + i * x.rowp) (4 * widthOf x.fmt))
  scale := if x.bs then (view (x.soff + 16 * t + i)).toNat else 127

/-- Column `j` of the B that an MMAV captured (R233). -/
def captured (fmt : Nat) (bs : Bool) (bytes : List Byte) (j : Nat) : Row where
  elems := elements fmt
    (rowBits (fun o => bytes.getD o 0) 0 0 (4 * widthOf fmt * j) (4 * widthOf fmt))
  scale := if bs then (bytes.getD (64 * widthOf fmt + j) 0).toNat else 127

/-- The exact sum of the products of two rows, from +0 (R192). -/
def dot : List Val → List Val → Val → Val
  | x :: xs, y :: ys, acc => dot xs ys (Val.add 0 acc (x.mul y))
  | _, _, acc => acc

/-- The block partial (R192): one rounding of the exact scaled sum. -/
def partialOf (x y : Row) : W32 :=
  if x.scale = 255 ∨ y.scale = 255 then nan32
  else
    let v := dot x.elems y.elems (.fin false 0 0)
    BitVec.ofNat 32 (f32.convert rne (v.scale (x.scale + y.scale - 254 : Int)))

/-- The partial as NEG has it (R232): its sign inverted, a NaN the default NaN. -/
def negated (neg : Bool) (p : W32) : W32 := if neg && !isNan p then p ^^^ 0x80000000 else p

/-- One output element through the blocks (R232). -/
def accumulate (neg ovr : Bool) (z : W32) : List (Row × Row) → W32
  | [] => z
  | (x, y) :: t =>
    let p := negated neg (partialOf x y)
    accumulate neg false (if ovr then p else fpAdd rne z p) t

/-- The multiply-accumulate of an entry (R232): `rows` and `cols` hold, for each row or column, its
blocks in order. -/
def multiply (cfg : BitVec 12) (rows cols : List (List Row)) (z : Vector W32 256) : Vector W32 256 :=
  Vector.ofFn fun n =>
    let i := n.val / 16
    let j := n.val % 16
    if i ≤ (cfg.extractLsb' 0 4).toNat ∧ j ≤ (cfg.extractLsb' 8 4).toNat then
      accumulate (cfg.getLsbD 5) (cfg.getLsbD 4) z[n] ((rows.getD i []).zip (cols.getD j []))
    else z[n]

/-- The rows or columns of an operand in the operand store, block by block. -/
def Desc.rows (x : Desc) (view : Nat → Byte) (kb : Nat) : List (List Row) :=
  (List.range 16).map fun i => (List.range (kb + 1)).map fun t => x.row view t i

/-- What an entry leaves in its accumulator. -/
def MEntry.run (view : Nat → Byte) (z : Vector (Vector W32 256) 4) : MEntry → Vector (Vector W32 256) 4
  | .mma a b r cfg =>
    let kb := (cfg.extractLsb' 6 2).toNat
    z.set r.toFin (multiply cfg (a.rows view kb) (b.rows view kb) z[r.toFin])
  | .mmav a fmt bs bytes r cfg =>
    z.set r.toFin (multiply cfg (a.rows view 0)
      ((List.range 16).map fun j => [captured fmt bs bytes j]) z[r.toFin])
  | .load base rowp r =>
    let new : Vector W32 256 := Vector.ofFn fun n =>
      BitVec.ofNat 32 (rowBits view 0 0 (base + n.val / 16 * rowp + 4 * (n.val % 16)) 4)
    z.set r.toFin new
  | .zero r => z.set r.toFin (Vector.replicate 256 0)

/-- The oldest entry executes and retires; the stores that later entries may yet miss are kept
(R228, R235). -/
def Core.retire (c : Core) (ch : List Bool) : Core :=
  match c.mqueue with
  | [] => c
  | e :: rest =>
    { c with
      z := e.run (viewOf c.ostore c.mdirty ch) c.z
      mqueue := rest
      mdirty := (c.mdirty.map fun e => { e with count := e.count - 1 }).filter fun e => e.count ≠ 0 }

/-- The oldest entry of a core's queue executes. Contexts that wait for the queue go on, and steps that
wait for it are tried again. -/
def State.runMatrix (s : State) (k : Nat) : State :=
  let used := (s.core k).mdirty.length
  let s := s.modCore k fun c => c.retire s.choices
  let s : State := { s with choices := s.choices.drop used }
  (s.replyAll fun k' w => k' = k && w == .matrix).unpark

def execMtxEntryExecute (k : Nat) (s : State) : Out := done (s.runMatrix k)

/-! ## `MTX.ST` (R193, R234) -/

/-- The product of an element and the two tensor scales, rounded once, in the output format. -/
def storedElement (mo : Mode) (fmt : Nat) (z tsa tsb : W32) : Nat :=
  let t := roundF32 mo (((readF32 mo z).mul (readF32 mo tsa)).mul (readF32 mo tsb)) false
  if fmt = 0 then t.toNat else convertElem mo 0 fmt t.toNat

/-- The elements stored one after another, `n` of them (R193). -/
def Core.storeTile (c : Core) (x : Desc) (f : Nat → Nat) : Nat → Core
  | 0 => c
  | n + 1 =>
    let size := widthOf x.fmt / 8
    (c.storeTile x f n).storeO (x.base + n / 16 * x.rowp + n % 16 * size) size (f n)

def execMtxSt (a b : Reg) (z : AccReg) (s : State) : Out :=
  issueM [a, b] s do
    needBind 2
    let s ← get
    let r := s.rg a
    let x := descOf r 0
    trapIf (r.extractLsb' 57 7 != 0 || x.fmt > 4 || x.bs || x.rot != 0 || x.tilep != 0
      || s.formatMasked s.myPart x.fmt
      || x.base + 15 * x.rowp + 2 * widthOf x.fmt > 32768) 0x04 r
    blockIf (!s.mine.mqueue.isEmpty) .matrix
    let acc := s.mine.z[z.toFin]
    set (s.modMine fun c => c.storeTile x
      (fun n => storedElement s.mode x.fmt (acc[n]?.getD 0) ((s.rg b).extractLsb' 0 32)
        ((s.rg b).extractLsb' 32 32)) 256).seq

end Sys2Proof.Machine
end

