-- ==== Sys2Proof/Machine/Jobs.lean ====
section
/-! DEFINITION. The copy engine: the job window (R236), cards (R237, R238), what a job copies (R239,
R209), its accesses (R150), its end (R240, R243, R247), the holds on owner objects and the reclaim ring
(R304 to R306), and the JOB instructions (R241 to R246). -/

namespace Sys2Proof.Machine

/-! ## Cards (R237, R238, R241) -/

def spaceOf : Nat → Space
  | 0 => .g | 1 => .l | 2 => .o | _ => .c

/-- Region `k` of the card in 128 bytes. -/
def regionOf (raw k : Nat) : Region where
  base := BitVec.ofNat 64 (fieldAt raw (32 + 24 * k) 8)
  len := fieldAt raw (40 + 24 * k) 4
  space := spaceOf (fieldAt raw (44 + 24 * k) 1 % 4)
  write := fieldAt raw (44 + 24 * k) 1 / 4 % 2 = 1
  obj := BitVec.ofNat 64 (fieldAt raw (48 + 24 * k) 8)

/-- The card in 128 bytes (R237). -/
def cardOf (raw : Nat) : Card where
  kind := fieldAt raw 0 1
  bound := fieldAt raw 1 1 % 2 = 1
  sfmt := fieldAt raw 2 1 % 16
  dfmt := fieldAt raw 2 1 / 16
  bar := fieldAt raw 3 1 % 16
  jid := fieldAt raw 4 4
  rows := fieldAt raw 8 4
  rowlen := fieldAt raw 12 4
  spitch := fieldAt raw 16 4
  dpitch := fieldAt raw 20 4
  scpitch := fieldAt raw 24 4
  rot := fieldAt raw 28 1 % 16
  regions := (List.range 4).map (regionOf raw)

/-- A pair of format codes that R38 assigns to VCV. -/
def vcvCodes (s t : Nat) : Bool :=
  s != t && s < 15 && t < 15 && (s == 0 || t == 0 || (8 ≤ s && s ≤ 13 && 8 ≤ t && t ≤ 13))

/-- An MX format is masked for a partition (R249). -/
def State.mxMasked (s : State) (p code : Nat) : Bool := (mxFeature code).any fun f => s.masked p f

/-- The card offset at which the formats or the row length break the rule of the kind (R238). DESIGN CHOICE: the
reserved code 0xF is no format, for a plain byte copy either (log entry 44). -/
def State.formatRule (s : State) (p kind sf df rowlen : Nat) : Option Nat :=
  if kind = 2 ∨ kind = 3 then
    let fp := if kind = 2 then sf else df
    let mx := if kind = 2 then df else sf
    if fp > 2 ∨ mx < 3 ∨ mx > 8 ∨ s.mxMasked p mx then some 2
    else if rowlen % (4 * widthOf sf) ≠ 0 then some 12 else none
  else if s.formatMasked p sf || s.formatMasked p df || sf == 15 || df == 15 then some 2
  else if sf = df then none
  else if !vcvCodes sf df then some 2
  else if 8 * rowlen % widthOf sf ≠ 0 ∨ 8 * rowlen / widthOf sf * widthOf df % 8 ≠ 0 then some 12
  else none

/-- An offset where a check fails. -/
def failing (bad : Bool) (off : Nat) : List Nat := if bad then [off] else []

/-- The offsets at which region `k` breaks a check (R237, R238). -/
def regionFaults (raw kind k : Nat) : List Nat :=
  let o := 32 + 24 * k
  let r := regionOf raw k
  let flags := fieldAt raw (o + 12) 1
  failing (k < 2 && r.len == 0 || k == 2 && kind != 1 && r.len == 0) (o + 8) ++
  failing (flags / 8 != 0 || k == 0 && r.write || k == 1 && !r.write
    || k == 2 && kind == 2 && !r.write || k == 2 && kind == 3 && r.write) (o + 12) ++
  failing (fieldAt raw (o + 13) 3 != 0) (o + 13) ++
  failing (fieldAt raw (o + 16) 1 % 16 != 0) (o + 16)

/-- The byte offset of the first field that fails, if any (R238). -/
def State.cardFault (s : State) (p raw : Nat) : Option Nat :=
  let c := cardOf raw
  let all :=
    failing (c.kind == 0 || c.kind > 3) 0 ++
    failing (fieldAt raw 1 1 / 2 != 0) 1 ++
    (s.formatRule p c.kind c.sfmt c.dfmt c.rowlen).toList ++
    failing (fieldAt raw 3 1 / 16 != 0) 3 ++
    failing (c.rows == 0 || c.rows * c.rowlen ≥ 2 ^ 32) 8 ++
    failing (fieldAt raw 28 1 / 16 != 0) 28 ++
    failing (fieldAt raw 29 3 != 0) 29 ++
    (List.range 4).flatMap (regionFaults raw c.kind)
  all.min?

/-- The length of a plain copy or of its converted data. -/
def convertedLen (sf df n : Nat) : Nat := if sf = df then n else n * widthOf df / widthOf sf

/-- The card of a register-form copy (R241). -/
def registerCard (src ctl dst : Word) (bound : Bool) (bar : Nat) : Card :=
  let n := (ctl.extractLsb' 0 32).toNat
  let sf := (ctl.extractLsb' 48 4).toNat
  let df := (ctl.extractLsb' 44 4).toNat
  ⟨1, bound, sf, df, bar, 0, 1, n, 0, 0, 0, 0,
    [⟨src, n, spaceOf (ctl.extractLsb' 32 2).toNat, false, 0⟩,
     ⟨dst, convertedLen sf df n, spaceOf (ctl.extractLsb' 34 2).toNat, true, 0⟩]⟩

/-! ## The window (R236) -/

/-- Where a region lies: its space, an L region being a C region of the own core, and its first
byte (R236). -/
def Region.extent (r : Region) (core : Nat) (asid : BitVec 16) : Nat × Nat :=
  match r.space with
  | .g => (asid.toNat, r.base.toNat)
  | .l => (65536, core * 0x80000 + r.base.toNat)
  | .c => (65536, r.base.toNat)
  | .o => (65537, r.base.toNat)

/-- Two regions share a byte; an empty one shares none. -/
def overlap (a b : Nat × Nat) (m n : Nat) : Bool :=
  a.1 == b.1 && 0 < m && 0 < n && a.2 < b.2 + n && b.2 < a.2 + m

/-- Two jobs of a core conflict (R236). -/
def conflict (core : Nat) (a b : Job) : Bool :=
  a.card.regions.any fun x => b.card.regions.any fun y =>
    (x.write || y.write) && overlap (x.extent core a.asid) (y.extent core b.asid) x.len y.len

/-- The jobs in the window: those that are leaving have left it (R243, R245). -/
def Core.window (c : Core) : List Job := c.jobs.filter fun j => j.st ≠ .leaving

/-- A job is held back by an earlier one that it conflicts with (R236). -/
def Core.heldBack (c : Core) (core : Nat) (j : Job) : Bool :=
  (c.window.takeWhile fun i => i.id ≠ j.id).any fun i => conflict core i j

/-- A job has not come to an end. -/
def JobSt.active : JobSt → Bool
  | .waiting | .running => true
  | _ => false

/-- The result of a wait for jobs, once none of them is active: that of the earliest FAILED one, else
0 (R244). -/
def Core.waitedJobs (c : Core) (ids : List Nat) : Option Word :=
  let js := c.window.filter fun j => ids.contains j.id
  if js.any fun j => j.st.active then none
  else some (((js.find? fun j => j.st = .failed).map fun j => BitVec.ofNat 64 j.result).getD 0)

/-- The window has changed: contexts that wait for room or for jobs go on, and held jobs are tried
again (R236, R244). -/
def State.windowChanged (s : State) (k : Nat) : State :=
  let s := (s.replyAll fun k' w => k' = k && w == .jobRoom).unpark
  (List.finRange 16).foldl (fun s x =>
    match (s.ctx k x).wait with
    | some (.fpwait ids d) =>
      match (s.core k).waitedJobs ids with
      | some v => s.finish k x d v
      | none => s
    | _ => s) s

/-! ## Ends (R240, R243, R247) -/

/-- The result of a job reaches its token register (R240): of a slot; an image's jobs have no token
pending (R248). -/
def State.jobToken (s : State) (k : Nat) (j : Job) (v : Nat) : State :=
  match j.owner with
  | .slot x => s.token k x j.tok (BitVec.ofNat 64 v)
  | .image _ => s

/-- The destination bytes of a whole job, scale bytes included (R247). -/
def Card.written (c : Card) : Nat :=
  let n := c.rows * convertedLen c.sfmt c.dfmt c.rowlen
  if c.kind = 2 then n + c.rows * (c.rowlen / (4 * widthOf c.sfmt)) else n

/-- What a completed job adds to its barrier object, while the phase is the one it recorded (R116,
R247). -/
def State.contribute (s : State) (k inst bytes : Nat) (bar : Nat) : State :=
  let q := quadOf (coreOf k)
  let p := partOf k
  let o : Slot := Fin.ofNat 16 bar
  let b := (s.quadObjs q p)[o]
  if b.inst = inst then (s.setObj q p o { b with bytesIn := b.bytesIn + bytes }).checkObj q p o else s

/-- A job whose holds are released leaves, and its token receives its result (R240, R243, R245). -/
def State.jobEnds (s : State) (k : Nat) (j : Job) : State :=
  let s := s.modCore k fun c => { c with jobs := c.jobs.filter fun i => i.id ≠ j.id }
  let s := if j.st ≠ .leaving && j.card.bound then s.contribute k j.inst j.card.written j.card.bar else s
  (s.jobToken k j (if j.st = .leaving then j.result else 0)).windowChanged k

def execJobComplete (k id : Nat) (s : State) : Out :=
  done <|
    match (s.core k).jobs.find? fun j => j.id = id with
    | some j => if j.holds.isEmpty then s.jobEnds k j else s.post (.holdRelease k id)
    | none => s

/-- A job becomes FAILED: its bytes, its holds and its place in the window stay (R240). -/
def execJobFault (k id detail : Nat) (s : State) : Out :=
  done <|
    match (s.core k).jobs.find? fun j => j.id = id with
    | some j =>
      let v := j.prog * 2 ^ 32 + detail * 256 + 9
      let s := s.modJob k id fun j => { j with st := .failed, result := v }
      (s.jobToken k j v).windowChanged k
    | none => s

/-! ## Accesses of a job (R126, R150, R239) -/

/-- A leaf enters the cache of a copy engine, of 64 leaves (R274). -/
def CoreHw.cacheLeaf (h : CoreHw) (e : XEntry) : CoreHw :=
  { h with xjob := (e :: h.xjob.filter (· ≠ e)).take 64 }

/-- The translation of an access of a job (R272, R274): from the copy engine's own leaves, else from the slice,
which fills them; else the job waits for a walk. A leaf of the engine that does not let the access pass leaves it. -/
def jobTranslate (k : Nat) (j : Job) (va : Word) (acc : Access) : M Xlated := do
  trapIf (!canonical va) 0x04 va
  let s ← get
  let c := coreOf k
  let p := partOf k
  let ask : M Xlated := do
    modify fun s => (s.modJob k j.id fun j => { j with asking := true }).post
      (.translationWalk ⟨.job k j.id, dieOfCore c, p, j.asid.toNat, va, acc, none⟩)
    throw (.block .walk)
  let use := fun (e : XEntry) => s.useLeaf p va acc e.pte e.level
  match ((s.hwOf c).xjob.find? fun e => e.covers p j.asid va).bind use with
  | some x => return x
  | none =>
    let s := s.modHw c fun h => { h with xjob := h.xjob.filter fun e => !e.covers p j.asid va }
    set s
    match s.cachedLeaf (dieOfCore c) p j.asid va with
    | some e =>
      match use e with
      | some x =>
        set (s.modHw c fun h => h.cacheLeaf e)
        return x
      | none => ask
    | none => ask

/-- What makes a line refuse an access of a job (R188, R280). -/
def jobPoison (k : Nat) (va : Word) (pa : Nat) (reads : Bool) : M Unit := do
  trapIf ((← get).badLine (partOf k) pa reads) 0x0D va

/-- A read of `n` bytes within one line (R150): RC and UO data through the core's L1, in which a line of another frame
than the translation names does not stay (R128). -/
def jobLoad (k : Nat) (j : Job) (va : Word) (n : Nat) : M Nat := do
  let x ← jobTranslate k j va .jobRead
  let p := partOf k
  let c := coreOf k
  match place (loc x.pa) with
  | .lcl _ _ => return (← get).mem.readNat (loc x.pa) n
  | .window w off => return ((← get).part w).win.readNat off n
  | _ =>
    modify fun s => s.freshen c p j.asid va x
    let s ← get
    let line := s.steer p x.pa
    let own := s.l1At c p j.asid va
    match own.filter fun l => l.loadHits (s.core k).gen (va.toNat % 128) n with
    | some l => return sliceNat l.data (va.toNat % 128) n
    | none =>
      jobPoison k va x.pa true
      match (← get).albLine c p line with
      | some b => return sliceNat b.data (x.pa % 128) n
      | none =>
        blockIf ((← get).evictionInFlight c p line) (.evicted line)
        let fetched ← readLine (dieOfCore c) p x.pa
        let data := match own with
          | some l => mergeLine fetched l.data l.dirty
          | none => fetched
        return sliceNat data (x.pa % 128) n

/-- Where a checked write of a job will go. -/
inductive Target where
  | g (pa : Nat)
  | l (k off : Nat)
  | o (off : Nat)
  deriving DecidableEq, Repr

/-- The same, `i` bytes on in the same line or part. -/
def Target.plus (i : Nat) : Target → Target
  | .g pa => .g (pa + i)
  | .l k off => .l k (off + i)
  | .o off => .o (off + i)

/-- The lines of a core's L1 on a physical line are written back and leave (R150). -/
def State.expelFrom (s : State) (c p line : Nat) : State :=
  ((s.hwOf c).l1.filter fun l => l.part = p && s.steer p l.pa = line).foldl (fun s l => s.evictL1 c l) s

/-- The die at which a core's job writes a line; the stores to the reclaim ring are made at the home (R167). -/
def State.writer (s : State) (k pa : Nat) (ring : Bool) : Nat :=
  if ring then s.homeAgent (partOf k) (s.steer (partOf k) pa) else dieOfCore (coreOf k)

/-- A physical line made ready for a write of a job (R150); what the core's L1 holds of the VA under another frame
leaves (R128). -/
def jobOwn (k : Nat) (j : Job) (va : Word) (x : Xlated) (ring : Bool) : M Unit := do
  let p := partOf k
  modify fun s => s.freshen (coreOf k) p j.asid va x
  match place (loc x.pa) with
  | .dram _ | .pod _ =>
    jobPoison k va x.pa false
    let line := (← get).steer p x.pa
    modify fun s => s.expelFrom (coreOf k) p line
    blockIf ((← get).evictionInFlight (coreOf k) p line) (.evicted line)
    ownLine ((← get).writer k x.pa ring) p x.pa
  | _ => pure ()

/-- The checks of `n` bytes in C space (R125). -/
def cReady (k : Nat) (e : Word) (n : Nat) : M Target := do
  let s ← get
  trapIf (e.extractLsb' 37 27 != 0 || !s.presentCore (partOf k) (cCore e)
    || cOff e + n > s.window (partOf k)) 0x04 e
  return .l (keyOf (cCore e) (partOf k)) (cOff e)

/-- A write within one line made ready: translated, checked, its line obtained (R125,
R239). -/
def jobReady (k : Nat) (j : Job) (sp : Space) (e : Word) (n : Nat) : M Target := do
  match sp with
  | .g =>
    let x ← jobTranslate k j e .jobWrite
    jobOwn k j e x false
    return .g x.pa
  | .l =>
    trapIf (e.toNat + n > (← get).window (partOf k)) 0x04 e
    return .l k e.toNat
  | .c => cReady k e n
  | .o =>
    trapIf (e.toNat + n > 32768) 0x04 e
    return .o e.toNat

/-- A write of the low `n` bytes of `v` to a physical address, its line being owned by the die that writes. -/
def State.jobStoreAt (s : State) (ring : Bool) (k pa n v : Nat) : State :=
  let p := partOf k
  let o := loc pa % 128
  let mask := maskOf o n
  let data := placed o (v % 256 ^ n)
  match place (loc pa) with
  | .lcl c off => s.storeWindow (keyOf c p) (off / 128 * 128) mask data
  | .window q off => s.windowWrite q (off / 128 * 128) mask data 16
  | _ => s.mergeOwned (s.writer k pa ring) p pa mask data

def State.jobStoreG (s : State) (k pa n v : Nat) : State := s.jobStoreAt false k pa n v

/-- The bytes that a mask names of which two lines differ. The last argument counts the bytes. -/
def differing (mask : LineMask) (a b : LineData) : Nat → Nat
  | 0 => 0
  | n + 1 => differing mask a b n +
      if mask.getLsbD n && a.extractLsb' (8 * n) 8 != b.extractLsb' (8 * n) 8 then 2 ^ n else 0

/-- Bytes of 128 of the operand store, where a mask names them. The last argument counts the bytes. -/
def Core.storeMask (c : Core) (base : Nat) (mask : LineMask) (data : LineData) : Nat → Core
  | 0 => c
  | n + 1 =>
    let c := c.storeMask base mask data n
    if mask.getLsbD n then c.storeO (base + n) 1 (data.extractLsb' (8 * n) 8).toNat else c

/-- What a job has written of a line, with a write that it makes now. -/
def State.jobBytesOf (s : State) (k id key : Nat) (mask : LineMask) (data : LineData) : LineMask × LineData :=
  let old := (((s.core k).jobs.find? fun j => j.id = id).bind fun j => aget j.wrote key).getD (0, 0)
  (old.1 ||| mask, mergeLine old.2 data mask)

/-- 128 bytes of the operand store, as the number of a line. -/
def storeKey (off : Nat) : Nat := 2 ^ 50 + off / 128

/-- A write of `n` bytes of one line at a physical address by a job. With it the job writes again what else it has
written of the line, so that a store of a thread meanwhile comes before all of it (R150); in local memory only bytes
that such a store has changed. A launch window has no such lines. -/
def State.jobMerge (s : State) (k id pa n v : Nat) : State :=
  let o := loc pa % 128
  let w := s.jobBytesOf k id (lineOf pa) (maskOf o n) (placed o (v % 256 ^ n))
  let t := s.modJob k id fun j => { j with wrote := aset j.wrote (lineOf pa) w }
  match place (loc pa) with
  | .dram _ | .pod _ => t.mergeOwned (s.writer k pa false) (partOf k) pa w.1 w.2
  | .lcl c off =>
    t.storeWindow (keyOf c (partOf k)) (off / 128 * 128)
      (maskOf o n ||| BitVec.ofNat 128 (differing w.1 (s.memLine (lineOf pa)) w.2 128)) w.2
  | _ => s.jobStoreG k pa n v

/-- The same of G space, of a core's local memory, or of 128 bytes of the operand store. -/
def State.jobPut (s : State) (k id n v : Nat) : Target → State
  | .g pa => s.jobMerge k id pa n v
  | .l k' off => s.jobMerge k id (localLoc (coreOf k') (s.localBase (partOf k') + off)) n v
  | .o off =>
    let o := off % 128
    let w := s.jobBytesOf k id (storeKey off) (maskOf o n) (placed o (v % 256 ^ n))
    let base := off / 128 * 128
    let now := (s.core k).ostore.line base
    (s.modJob k id fun j => { j with wrote := aset j.wrote (storeKey off) w }).modCore k fun c =>
      c.storeMask base (maskOf o n ||| BitVec.ofNat 128 (differing w.1 now w.2 128)) w.2 128

/-- `n` bytes of the operand store, with the bank rotation of row `r` (R230, R239). -/
def State.jobRotated (s : State) (k id r rot off v : Nat) : Nat → State
  | 0 => s
  | n + 1 => (s.jobRotated k id r rot off v n).jobPut k id 1 (v / 256 ^ n % 256) (.o (rotated (off + n) r rot % 32768))

/-- A ready write made, in one line or from one into the next. -/
def State.jobStore (s : State) (k id r rot n v : Nat) : Target → State
  | .g pa => s.jobPut k id n v (.g pa)
  | .l k' off =>
    let h := min n (128 - off % 128)
    let s := s.jobPut k id h v (.l k' off)
    if h < n then s.jobPut k id (n - h) (v / 256 ^ h) (.l k' (off + h)) else s
  | .o off => s.jobRotated k id r rot off v n

/-- A read of `n` bytes at an address of a space, in one or two lines (R125, R126). -/
def jobRead (k : Nat) (j : Job) (sp : Space) (e : Word) (n : Nat) : M Nat := do
  match sp with
  | .g =>
    let h := headBytes e n
    let lo ← jobLoad k j e h
    if h = n then return lo
    let hi ← jobLoad k j (e + BitVec.ofNat 64 h) (n - h)
    return lo + 256 ^ h * hi
  | .l =>
    trapIf (e.toNat + n > (← get).window (partOf k)) 0x04 e
    return (← get).loadLocal k e.toNat n
  | .c =>
    match ← cReady k e n with
    | .l k' off => return (← get).loadLocal k' off n
    | _ => return 0
  | .o =>
    trapIf (e.toNat + n > 32768) 0x04 e
    return ((← get).core k).ostore.readNat e.toNat n

/-- A write of `n` bytes at an address of a space, made ready in one or two lines. -/
def jobReadyAll (k : Nat) (j : Job) (sp : Space) (e : Word) (n : Nat) : M (List (Target × Nat)) := do
  let h := if sp = .g then headBytes e n else n
  let t ← jobReady k j sp e h
  if h = n then return [(t, n)]
  let u ← jobReady k j sp (e + BitVec.ofNat 64 h) (n - h)
  return [(t, h), (u, n - h)]

/-- The parts of a ready write made, in order. -/
def State.jobStoreAll (s : State) (k id r rot v : Nat) : List (Target × Nat) → State
  | [] => s
  | (t, n) :: rest => (s.jobStore k id r rot n v t).jobStoreAll k id r rot (v / 256 ^ n) rest

/-! ## What a job writes (R209, R239) -/

/-- Elements converted one by one. -/
def convertAll (mo : Mode) (sf df bits : Nat) : Nat → Nat
  | 0 => 0
  | n + 1 => convertAll mo sf df bits n +
      convertElem mo sf df (bits / 2 ^ (widthOf sf * n) % 2 ^ widthOf sf) * 2 ^ (widthOf df * n)

/-- emax of an MX element format (R239). -/
def emaxOf : Nat → Int
  | 3 => 8 | 4 => 15 | 5 => 2 | 6 => 4 | 7 => 2 | _ => 0

/-- The exponent of the largest magnitude of a block: none where every value is 0. -/
def blockExp : List Val → Option Int
  | [] => none
  | .fin _ m e :: t =>
    if m = 0 then blockExp t
    else
      match blockExp t with
      | some n => some (max n (m.log2 + e))
      | none => some (m.log2 + e)
  | _ :: t => blockExp t

/-- A block holds a NaN or an infinity. -/
def blockBad (l : List Val) : Bool := l.any fun v =>
  match v with
  | .fin _ _ _ => false
  | _ => true

/-- An element of an MX block (R209). -/
def mxElem (mo : Mode) (df : Nat) (sc : Int) (v : Val) : Nat :=
  match floatOf df with
  | some f => f.convert mo (v.scale (-sc))
  | none => toInt mo 8 true (v.scale (6 - sc))

/-- Numbers packed at `w` bits each, the first lowest. -/
def packed (w : Nat) : List Nat → Nat
  | [] => 0
  | x :: t => x + 2 ^ w * packed w t

/-- TOMX of a block (R209, R239): its elements and its scale byte. -/
def toBlock (mo : Mode) (sf df bits : Nat) : Nat × Nat :=
  let vals := (List.range 32).map fun i =>
    elemValue mo sf (bits / 2 ^ (widthOf sf * i) % 2 ^ widthOf sf)
  if blockBad vals then (0, 0xFF)
  else
    let sc : Int := match blockExp vals with
      | some n => max (-127) (min 127 (n - emaxOf df))
      | none => -127
    (packed (widthOf df) (vals.map (mxElem mo df sc)), (sc + 127).toNat)

/-- FROMMX of a block (R209). -/
def fromBlock (mo : Mode) (sf df bits scale : Nat) : Nat :=
  match floatOf df with
  | none => 0
  | some f =>
    packed (widthOf df) ((List.range 32).map fun i =>
      if scale = 0xFF then f.defaultNan
      else f.convert mo ((mxValue sf (bits / 2 ^ (widthOf sf * i) % 2 ^ widthOf sf)).scale (scale - 127)))

/-- The elements of a group (R239). -/
def Card.groupElems (c : Card) : Nat :=
  if c.kind ≠ 1 then 32
  else if widthOf c.sfmt = 6 ∨ widthOf c.dfmt = 6 then 4
  else if widthOf c.sfmt = 4 ∨ widthOf c.dfmt = 4 then 2
  else 1

/-- A plain byte copy. -/
def Card.plain (c : Card) : Bool := c.kind == 1 && c.sfmt == c.dfmt

/-- The source and destination bytes of a group. -/
def Card.groupIn (c : Card) : Nat := if c.plain then 1 else c.groupElems * widthOf c.sfmt / 8
def Card.groupOut (c : Card) : Nat := if c.plain then 1 else c.groupElems * widthOf c.dfmt / 8

/-- A region of a card; an absent one is empty. -/
def Card.region (c : Card) (k : Nat) : Region := c.regions.getD k ⟨0, 0, .g, false, 0⟩

/-- The next piece of a job (R239): its row, its source and destination addresses, its groups; a plain
copy takes as many bytes as stay within one line of each. -/
structure Piece where
  row : Nat
  src : Word
  dst : Word
  n   : Nat
  deriving DecidableEq, Repr

def Job.piece (j : Job) : Piece :=
  let c := j.card
  let r := j.prog / c.rowlen
  let o := j.prog % c.rowlen
  let src := (c.region 0).base + BitVec.ofNat 64 (r * c.spitch + o)
  let dst := (c.region 1).base + BitVec.ofNat 64 (r * c.dpitch + o / c.groupIn * c.groupOut)
  ⟨r, src, dst, if c.plain then min (c.rowlen - o) (min (128 - src.toNat % 128) (128 - dst.toNat % 128)) else 1⟩

/-- The address of the scale byte of a piece (R239). -/
def Job.scaleAt (j : Job) (r : Nat) : Word :=
  (j.card.region 2).base + BitVec.ofNat 64 (j.prog % j.card.rowlen / j.card.groupIn * j.card.scpitch + r)

/-- The bank rotation of a job's destination. -/
def Card.dstRot (c : Card) : Nat := if (c.region 1).space = .o then c.rot else 0

/-- More source bytes of a job are written (R239). -/
def State.jobWritten (s : State) (k id n : Nat) : State := s.modJob k id fun i => { i with prog := i.prog + n }

/-- The bytes of a piece of a plain copy, one after another: each is read when those before it have been written
(R239). The last argument counts the bytes left. -/
def jobBytes (k : Nat) (j : Job) (p : Piece) (t : Target) : Nat → M Unit
  | 0 => pure ()
  | m + 1 => do
    let i := p.n - (m + 1)
    let v ← jobRead k j (j.card.region 0).space (p.src + BitVec.ofNat 64 i) 1
    modify fun s => (s.jobStore k j.id p.row j.card.dstRot 1 v (t.plus i)).jobWritten k j.id 1
    jobBytes k j p t m

/-- The source of a group read, all of its destination made ready, and the group written (R239). -/
def jobGroup (k : Nat) (j : Job) (p : Piece) : M Unit := do
  let c := j.card
  let mo := modeOf j.round
  let bits ← jobRead k j (c.region 0).space p.src c.groupIn
  let dsp := (c.region 1).space
  if c.kind = 2 then
    let (out, sc) := toBlock mo c.sfmt c.dfmt bits
    let t ← jobReadyAll k j dsp p.dst c.groupOut
    let u ← jobReadyAll k j (c.region 2).space (j.scaleAt p.row) 1
    modify fun s => ((s.jobStoreAll k j.id p.row c.dstRot out t).jobStoreAll k j.id 0 0 sc u).jobWritten k j.id c.groupIn
  else
    let out ← if c.kind = 3 then do
        let sc ← jobRead k j (c.region 2).space (j.scaleAt p.row) 1
        pure (fromBlock mo c.sfmt c.dfmt bits sc)
      else pure (convertAll mo c.sfmt c.dfmt bits c.groupElems)
    let t ← jobReadyAll k j dsp p.dst c.groupOut
    modify fun s => (s.jobStoreAll k j.id p.row c.dstRot out t).jobWritten k j.id c.groupIn

/-- The next piece of a job (R239): the bytes of a plain copy within one line of its source and of its destination,
which are read and made ready together before the first is written, or one group. -/
def jobAdvance (k : Nat) (j : Job) : M Unit := do
  let p := j.piece
  if j.card.plain then
    let _ ← jobRead k j (j.card.region 0).space p.src p.n
    match ← jobReadyAll k j (j.card.region 1).space p.dst p.n with
    | (t, _) :: _ => jobBytes k j p t p.n
    | [] => pure ()
  else jobGroup k j p

/-- The source bytes of a job. -/
def Card.total (c : Card) : Nat := c.rows * c.rowlen

/-- A step of a job: it waits while its partition does not run (R248, R278) or while it has asked for a
translation; a refusal is handled as `bad` says. -/
def State.jobPart (s : State) (k id : Nat) (self : Instr) (m : Job → M Unit)
    (bad : Job → Nat → State → State) : State :=
  match (s.core k).jobs.find? fun j => j.id = id with
  | none => s
  | some j =>
    if j.asking || !s.runsOn (partOf k) (dieOfCore (coreOf k)) then s.park self
    else
      match j.refused with
      | some d => bad j d (s.modJob k id fun j => { j with refused := none })
      | none =>
        match m j s with
        | .ok _ s => s
        | .error (.trap d _) s => bad j d s
        | .error (.block w) s => s.parkOn self w
        | .error .err s => bad j 0x04 s

/-- A store that a context of the core made is still on its way (R150). -/
def State.storesInFlight (s : State) (core : Nat) : Bool :=
  s.steps.any fun i =>
    match i with
    | .postedWriteArrival w =>
      match w.by_ with
      | .store k _ | .maint k _ => coreOf k == core
      | .evict _ => false
    | _ => false

/-- A job is done: its end follows, else its next piece. -/
def State.jobOn (s : State) (k id : Nat) : State :=
  s.post (if ((s.core k).jobs.find? fun j => j.id = id).any fun j => j.prog < j.card.total then .jobStart k id
    else .jobComplete k id)

/-- A job starts, and goes on piece by piece until it is done (R236, R239); a refusal of a piece ends it. -/
def execJobStart (k id : Nat) (s : State) : Out :=
  done <| s.jobPart k id (.jobStart k id)
    (fun j => do
      if j.st.active then
        let s ← get
        blockIf (j.st = .waiting && ((s.core k).heldBack (coreOf k) j || s.storesInFlight (coreOf k))) .jobRoom
        set (s.modJob k id fun j => { j with st := .running })
        if j.prog < j.card.total then jobAdvance k j
        modify fun s => s.jobOn k id)
    (fun _ d s => { s with urgent := s.urgent ++ [.jobFault k id d] })

/-! ## Holds and the reclaim ring (R304, R305) -/

/-- Word 0 of an owner object's header (R302): HOLD and DEFER. -/
def holdOf (w : Nat) : Nat := w / 2 ^ 48
def deferOf (w : Nat) : Bool := w / 2 ^ 32 % 2 = 1

/-- The header of an owner translated for the core, as an atomic is, which needs R and W (R273, R304). -/
def headerAt (k : Nat) (j : Job) (va : Word) : M Nat := do
  let x ← jobTranslate k j va .atomic
  jobOwn k j va x false
  return x.pa

/-- The word at an owned physical address. -/
def ownedWord (k pa : Nat) (ring : Bool) : M Nat := do
  match place (loc pa) with
  | .lcl _ _ => return (← get).mem.readNat (loc pa) 8
  | .window p off => return ((← get).part p).win.readNat off 8
  | _ => return sliceNat (← readLine ((← get).writer k pa ring) (partOf k) pa) (pa % 128) 8

/-- The first hold of a job is behind: the next one follows, or the end of the job. -/
def State.nextRelease (s : State) (k id : Nat) : State :=
  let s := s.modJob k id fun j => { j with holds := j.holds.tail }
  s.post (.jobComplete k id)

/-- sr.reclaim of an address space (R305). -/
def State.reclaimOf (s : State) (p : Nat) (asid : BitVec 16) : Word :=
  (aget (s.part p).reclaim asid.toNat).getD 0

/-- The memory error, poison or refusal of a release is counted and reported (R304). -/
def State.holdDropped (s : State) (k : Nat) : State := (s.log (.hold (partOf k))).raiseSvc (partOf k)

def execHoldRelease (k id : Nat) (s : State) : Out :=
  done <| s.jobPart k id (.holdRelease k id)
    (fun j =>
      match j.holds with
      | [] => modify fun s => s.post (.jobComplete k id)
      | va :: _ => do
        let pa ← headerAt k j va
        jobPoison k va pa true
        let w ← ownedWord k pa false
        modify fun s =>
          let s := s.jobStoreG k pa 8 (BitVec.ofNat 64 w - 0x0001000000000000).toNat
          if holdOf w = 1 ∧ deferOf w then s.post (.reclaimPush k id (va ||| 1)) else s.nextRelease k id)
    (fun _ _ s => (s.holdDropped k).nextRelease k id)

/-- A deferred object is pushed (R304, R305) while EN is set: its entry, PRODUCED and the wake, in one step of the
ring; DEFER is then cleared, which a value with bit 1 set stands for. A refusal drops the push, or leaves DEFER. -/
def execReclaimPush (k id : Nat) (v : Word) (s : State) : Out :=
  done <| s.jobPart k id (.reclaimPush k id v)
    (fun j => do
      let p := partOf k
      let r := (← get).reclaimOf p j.asid
      if v.getLsbD 1 then
        let pa ← headerAt k j (v &&& 0xFFFFFFFFFFFFFFF8)
        let w ← ownedWord k pa false
        modify fun s => (s.jobStoreG k pa 8 (BitVec.ofNat 64 w &&& 0xFFFFFFFEFFFFFFFF).toNat).nextRelease k id
      else if !r.getLsbD 0 then modify fun s => s.nextRelease k id
      else
        let base := r &&& 0xFFFFFFFFFFFFF000
        let ring ← jobTranslate k j base .jobWrite
        jobOwn k j base ring true
        let n ← ownedWord k ring.pa true
        let c ← ownedWord k (ring.pa + 8) true
        blockIf (BitVec.ofNat 64 n - BitVec.ofNat 64 c == 510) .jobRoom
        let entry := ring.pa + 0x10 + 8 * (n % 510)
        jobOwn k j (base + BitVec.ofNat 64 (entry - ring.pa)) { ring with pa := entry } true
        modify fun s =>
          let s := s.jobStoreAt true k entry 8 v.toNat
          let s := s.jobStoreAt true k ring.pa 8 ((n + 1) % 2 ^ 64)
          { s with urgent := s.urgent ++
              [.wakeHome .device p j.asid.toNat base.toNat 0, .reclaimPush k id (v ||| 2)] })
    (fun _ _ s => s.nextRelease k id)

/-! ## Issuing (R241 to R243) -/

/-- Room for a job (R236): true when it may enter; false where every entry is FAILED; else the
context waits. -/
def jobRoom : M Bool := do
  let js := (← get).mine.window
  if js.length < 32 then return true
  if js.all fun j => j.st = .failed then return false
  throw (.block .jobRoom)

/-- A job of the issuing context enters the window, and its token is pending (R236). -/
def State.enterJob (s : State) (d : Reg) (card : Card) (holds : List Word) : State :=
  let inst := (s.myObj (Fin.ofNat 16 card.bar)).inst
  let j : Job := ⟨s.nextId, card, s.me.round, s.me.asid, 0, .waiting, .slot s.slot, s.slot, d, inst, holds,
    0, false, none, []⟩
  let s : State := { s with nextId := s.nextId + 1 }
  ((s.setPending d).modMine fun c => { c with jobs := c.jobs ++ [j] }).seq.post (.jobStart s.key j.id)

/-- A register-form copy (R241). -/
def registerCopy (d a b : Reg) (bound : Bool) (bar : Slot) : M Unit := do
  let s ← get
  let ctl := s.rg (pairOf a)
  let card := registerCard (s.rg a) ctl (s.rg b) bound bar.val
  if card.rowlen = 0 then
    let s := s.result d 0
    set (if bound then s.checkObj s.myQuad s.myPart bar else s)
  else
    let room ← jobRoom
    if !room then modify fun s => s.result d 4
    else if ctl.extractLsb' 52 12 != 0 || ctl.extractLsb' 36 8 != 0
        || (s.formatRule s.myPart 1 card.sfmt card.dfmt card.rowlen).isSome then
      modify fun s => s.result d 0xFE01
    else modify fun s => s.enterJob d card []

def execJobCopy (d a b : Reg) (s : State) : Out :=
  issueM [d, a, pairOf a, b] s do
    needBind 3
    registerCopy d a b false 0

def execJobCopyb (d a b : Reg) (s : State) : Out :=
  issueM [d, a, pairOf a, b, pairOf b] s do
    needBind 3
    let bar ← objOf ((← get).rg (pairOf b))
    registerCopy d a b true bar

/-- A submission ends without a job: the holds it has taken are released before its token receives the
result (R240, R243). -/
def State.endSubmit (s : State) (d : Reg) (taken : List Word) (v : Nat) : State :=
  if taken.isEmpty then s.result d (BitVec.ofNat 64 v)
  else
    let j : Job := ⟨s.nextId, registerCard 0 0 0 false 0, 0, s.me.asid, 0, .leaving, .slot s.slot, s.slot, d, 0,
      taken, v, false, none, []⟩
    let s : State := { s with nextId := s.nextId + 1 }
    ((s.setPending d).modMine fun c => { c with jobs := c.jobs ++ [j] }).seq.post (.jobComplete s.key j.id)

/-- What a submission awaited is behind: the next home has replies of its own (R92). -/
def State.afresh (s : State) (f : Ctx → Ctx) : State :=
  { s.modMe fun c => { f c with replies := 0 } with cur := { s.cur with used := 0 } }

/-- One hold taken (R243): whether there was room for it. -/
def takeHold (va : Word) : M Bool := do
  let x ← translate va .atomic
  waitEchoes
  let old ← atomicAt va x 8 (fun w => if holdOf w = 65535 then none else some (w + 2 ^ 48)) .rlx
  return holdOf old != 65535

/-- A part whose trap is an answer: true where it succeeds with true. -/
def succeeds (m : M Bool) : M Bool := fun s =>
  match m s with
  | .ok b s => .ok b s
  | .error (.trap _ _) s => .ok false s
  | .error (.block w) s => .error (.block w) s
  | .error .err s => .ok false s

/-- The owners that a card names, each with the offset of its field, in order. -/
def Card.owners (c : Card) : List (Nat × Word) :=
  ((List.range 4).map fun k => (48 + 24 * k, (c.region k).obj)).filter fun e => e.2 ≠ 0

/-- The holds of a card taken from the first not yet taken (R243), then the job enters the window. -/
def takeHolds (d : Reg) (card : Card) : List (Nat × Word) → M Unit
  | [] => modify fun s => s.enterJob d card (card.owners.map (·.2))
  | (off, va) :: rest => do
    let s ← get
    let ok ← if s.me.refused.isSome then pure false else succeeds (takeHold va)
    if ok then
      modify fun s => s.afresh fun c => { c with taken := c.taken + 1 }
      takeHolds d card rest
    else
      modify fun s => s.endSubmit d ((card.owners.take s.me.taken).map (·.2)) (off * 256 + 1)

/-- The card of a submission, read once (R242). -/
def submitCard (va : Word) : M Nat := do
  match (← get).me.card with
  | some l => return l.toNat
  | none =>
    let raw ← loadG va 128
    modify fun s => s.afresh fun c => { c with card := some (BitVec.ofNat 1024 raw) }
    return raw

def execJobSubmit (d a : Reg) (s : State) : Out :=
  issueM [d, a] s do
    needBind 3
    let va := (← get).rg a
    trapIf (va.extractLsb' 0 7 != 0) 0x03 va
    let room ← jobRoom
    let s ← get
    if !room then
      let held := (s.me.card.map fun l => ((cardOf l.toNat).owners.take s.me.taken).map (·.2)).getD []
      set (s.endSubmit d held 4)
    else
      let raw ← submitCard va
      let s ← get
      match s.cardFault s.myPart raw with
      | some off => set (s.endSubmit d [] (off * 256 + 1))
      | none => takeHolds d (cardOf raw) ((cardOf raw).owners.drop s.me.taken)

/-! ## Waiting, resuming, polling (R244 to R246) -/

/-- The jobs of the window that touch a region (R244): those that write it, or with `mode` also those
that read it. -/
def State.touching (s : State) (r : Region) (mode : Bool) : List Nat :=
  (s.mine.window.filter fun j => j.card.regions.any fun x =>
    (x.write || mode) && overlap (x.extent s.myCore j.asid) (r.extent s.myCore s.me.asid) x.len r.len).map
    (·.id)

def execJobFpwait (d a b : Reg) (s : State) : Out :=
  issueM [d, a, b] s do
    needBind 3
    let s ← get
    let w := s.rg b
    trapIf (w.extractLsb' 35 29 != 0) 0x04 w
    let r : Region := ⟨s.rg a, (w.extractLsb' 0 32).toNat, spaceOf (w.extractLsb' 33 2).toNat, false, 0⟩
    let ids := s.touching r (w.getLsbD 32)
    match s.mine.waitedJobs ids with
    | some v => set (s.result d v)
    | none => throw (.block (.fpwait ids d))

def execJobResume (d a b : Reg) (s : State) : Out :=
  issueM [d, b] s do
    needBind 3
    let s ← get
    let w := s.rg b
    trapIf (w.toNat > 1) 0x04 w
    match s.mine.jobs.find? fun j => j.st = .failed && j.owner = .slot s.slot && j.tok = a with
    | none => set (s.result d 2)
    | some j =>
      let s := s.setPending d
      if w = 0 then
        set ((s.modJob s.key j.id fun j => { j with st := .waiting, tok := d }).seq.post (.jobStart s.key j.id))
      else
        set (((s.modJob s.key j.id fun j => j.abandoned d).seq.post (.jobComplete s.key j.id)).windowChanged
          s.key)

def execJobPoll (d a : Reg) (s : State) : Out :=
  issueM [d, a] s do
    needBind 3
    let s ← get
    let jid := ((s.rg a).extractLsb' 0 32).toNat
    let j := s.mine.window.reverse.find? fun j => j.card.jid = jid
    let v : Word := match j with
      | some j => if jid = 0 then 0 else if j.st = .failed then 2 else 1
      | none => 0
    set (s.result d v)

end Sys2Proof.Machine
end

