-- ==== Sys2Proof/Machine/Dyn.lean ====
section
/-! DEFINITION. The DYN instructions: values (R310 to R312), shapes (R315), the inline cache (R319 to
R321), guards (R307), invalidation (R308), reference counts (R303) and dispatch (R324). -/

namespace Sys2Proof.Machine

/-- An instruction of the feature DYN issues (R249, R311). -/
def issueDyn (rs : List Reg) (s : State) (body : M Unit) : Out :=
  if s.masked s.myPart 9 then .next s.illegal else issueM rs s body

/-! ## Values (R310, R312) -/

/-- The tag of a value. -/
def valueTag (v : Word) : BitVec 3 := v.extractLsb' 0 3

/-- The address of a heap object (R302, R310). -/
def objectAddr (v : Word) : Word := v &&& 0xFFFFFFFFFFFFFFF8

def execDynTag (d a : Reg) (s : State) : Out :=
  issueDyn [d, a] s do modify fun s => s.result d (zext (valueTag (s.rg a)))

def execDynBoxi (d a : Reg) (s : State) : Out :=
  issueDyn [d, a] s do
    let v := (← get).rg a
    trapIf (v.toInt < -(2 ^ 60) || v.toInt > 2 ^ 60 - 1) 0x0E v
    modify fun s => s.result d (v <<< 3)

def execDynUnboxi (d a : Reg) (s : State) : Out :=
  issueDyn [d, a] s do
    let v := (← get).rg a
    trapIf (valueTag v != 0) 0x0E v
    modify fun s => s.result d (v.sshiftRight 3)

def execDynBoxf (d a : Reg) (s : State) : Out :=
  issueDyn [d, a] s do modify fun s => s.result d ((s.rg a <<< 32) ||| 3)

def execDynUnboxf (d a : Reg) (s : State) : Out :=
  issueDyn [d, a] s do
    let v := (← get).rg a
    trapIf (v.extractLsb' 0 32 != 3) 0x0E v
    modify fun s => s.result d (v >>> 32)

/-- The shape of a heap object: an ordinary G load of its header (R314, R315). -/
def readShape (v : Word) : M (BitVec 32) := do
  let va := objectAddr v
  trapIf (va.getLsbD 3) 0x03 va
  return BitVec.ofNat 32 (← loadG va 8)

def execDynShape (d a : Reg) (s : State) : Out :=
  issueDyn [d, a] s do
    let v := (← get).rg a
    if valueTag v ≠ 1 then modify fun s => s.result d 0
    else
      let shape ← readShape v
      modify fun s => s.result d (zext shape)

/-! ## The inline cache (R319) -/

/-- The set of an entry. -/
def icSet (site : BitVec 24) (shape : BitVec 32) : BitVec 8 :=
  site.extractLsb' 0 8 ^^^ shape.extractLsb' 0 8

/-- The key fields of an entry equal the issuing context's and these. -/
def State.icKey (s : State) (site : BitVec 24) (shape : BitVec 32) (e : IcEntry) : Bool :=
  e.part == s.myPart && e.asid == s.me.asid && e.ctx == s.slot && e.site == site && e.shape == shape

/-- The entry that a lookup matches. -/
def State.icMatch (s : State) (site : BitVec 24) (shape : BitVec 32) : Option IcEntry :=
  (s.hwOf s.myCore).ic.find? (s.icKey site shape)

/-- An entry made the most recently used. -/
def State.icTouch (s : State) (e : IcEntry) : State :=
  s.modHw s.myCore fun h => { h with ic := e :: h.ic.filter (· ≠ e) }

/-- Removes the least recently used entry of a set that has four or more. -/
def icEvict (set : BitVec 8) (l : List IcEntry) : List IcEntry :=
  let mine := l.filter fun e => icSet e.site e.shape = set
  if mine.length < 4 then l
  else
    match mine.getLast? with
    | some old => l.filter (· ≠ old)
    | none => l

/-- A key word that breaks the layout (R320, R321). -/
def badKey (w : Word) : Bool := w.extractLsb' 58 6 != 0 || w.getLsbD 56

def siteOf (w : Word) : BitVec 24 := w.extractLsb' 32 24
def shapeOf (w : Word) : BitVec 32 := w.extractLsb' 0 32

def execDynIclook (d a : Reg) (s : State) : Out :=
  issueDyn [d, a] s do
    let w := (← get).rg a
    trapIf (badKey w) 0x04 w
    modify fun s =>
      match s.icMatch (siteOf w) (shapeOf w) with
      | some e => (s.icTouch e).result d (zext e.value)
      | none => s.result d 0x8000000000000000

def execDynIcfill (a b : Reg) (s : State) : Out :=
  issueDyn [a, b] s do
    let s ← get
    let w := s.rg a
    trapIf (badKey w) 0x04 w
    trapIf ((s.rg b).getLsbD 63) 0x04 (s.rg b)
    let e : IcEntry := ⟨s.myPart, s.me.asid, s.slot, siteOf w, shapeOf w, (s.rg b).extractLsb' 0 63⟩
    set (s.modHw s.myCore fun h =>
      let rest := h.ic.filter fun o => !s.icKey (siteOf w) (shapeOf w) o
      { h with ic := e :: icEvict (icSet e.site e.shape) rest }).seq

/-- A core's entries for a shape leave (R308). -/
def IcRemoval.apply (r : IcRemoval) (h : CoreHw) : CoreHw :=
  { h with ic := h.ic.filter fun o => !(o.part == partOf r.k && o.asid == r.asid && o.shape == r.shape) }

/-- The removals that the issuer still waits for. -/
def State.icPending (s : State) (k : Nat) (x : Slot) : Bool := s.icinv.any fun r => r.k == k && r.x == x

/-- Every core of the partition that may hold entries is asked to remove those for a shape (R308). -/
def State.icAsk (s : State) (shape : BitVec 32) : State :=
  let cores := (s.hw.map (·.1)).filter fun c => (s.cfg s.myPart).dies.contains (dieOfCore c)
  { s with icinv := s.icinv ++ cores.map fun c => ⟨c, s.key, s.slot, s.me.asid, shape⟩ }

/-- Each removal that is due is made, at its core's own moment: `choices` may put it off (R308). The issuers look
again when all of theirs are made. -/
def State.icRemove (s : State) : State :=
  if s.icinv.isEmpty then s
  else
    let asked := s.icinv
    let s := asked.foldl (fun s r =>
      if s.choice then s.dropChoice
      else
        let s := s.dropChoice.modHw r.core r.apply
        { s with icinv := s.icinv.erase r }) s
    asked.foldl (fun s r =>
      if (s.ctx r.k r.x).wait = some .acks ∧ !s.icPending r.k r.x then s.reply r.k r.x else s) s

def execDynIcinv (a : Reg) (s : State) : Out :=
  issueDyn [a] s do
    let w := (← get).rg a
    trapIf (w.extractLsb' 32 32 != 0) 0x04 w
    waitEchoes
    let s ← get
    if s.me.taken = 0 then set ((s.modMe fun c => { c with taken := 1 }).icAsk (shapeOf w))
    blockIf ((← get).icPending s.key s.slot) .acks
    modify fun s => s.seq

/-! ## Guards (R307) -/

/-- A guard word that breaks the layout (R307). -/
def badGuard (w : Word) : Bool :=
  w.extractLsb' 58 6 != 0 || (w.getLsbD 56 && (w.getLsbD 57 || w.extractLsb' 3 29 != 0))

/-- sr.icmiss after a failing guard. -/
def missWord (w : Word) (ent : Bool) (obs : BitVec 32) : Word :=
  (if ent then 0x0200000000000000 else 0) ||| (w &&& 0x01FFFFFF00000000) ||| zext obs

/-- A guard fails: sr.icmiss says why, and the branch is taken. -/
def State.guardFails (s : State) (w : Word) (ent : Bool) (obs : BitVec 32) (o : BitVec 16) : State :=
  (s.modMe fun c => { c with icmiss := missWord w ent obs }).jump (s.me.pc + disp o)

def execDynGuard (a b : Reg) (o : BitVec 16) (s : State) : Out :=
  issueDyn [a, b] s do
    let s ← get
    let v := s.rg a
    let w := s.rg b
    trapIf (badGuard w) 0x04 w
    if w.getLsbD 56 then
      let obs := (valueTag v).setWidth 32
      set (if obs = shapeOf w then s.seq else s.guardFails w false obs o)
    else if valueTag v ≠ 1 then set (s.guardFails w false 0 o)
    else
      let obs ← readShape v
      modify fun s =>
        if obs ≠ shapeOf w then s.guardFails w false obs o
        else if !w.getLsbD 57 then s.seq
        else
          match s.icMatch (siteOf w) obs with
          | some e => (s.icTouch e).seq
          | none => s.guardFails w true obs o

/-! ## Reference counts (R303) -/

/-- Word 0 and word 1 of a header as one number of 16 bytes. -/
def countOf (h : Nat) : Nat := h / 2 ^ 64 % 2 ^ 32

/-- The header with another count. -/
def withCount (h c : Nat) : Nat := h / 2 ^ 96 * 2 ^ 96 + c * 2 ^ 64 + h % 2 ^ 64

/-- RCINC on a header: nothing where it traps. -/
def incHeader (h : Nat) : Option Nat :=
  let c := countOf h
  if c = 0 ∨ c = 0xFFFFFFFF then none else some (withCount h (c + 1))

/-- RCDEC on a header (R303): a deferred object gets its DEFER bit. -/
def decHeader (h : Nat) : Option Nat :=
  let c := countOf h
  if c = 0 then none
  else
    let h' := withCount h (c - 1)
    if c = 1 ∧ h / 2 ^ 48 % 2 ^ 16 ≠ 0 ∧ h / 2 ^ 32 % 2 = 0 then some (h' + 2 ^ 32) else some h'

/-- The result of RCDEC. -/
def decResult (h : Nat) : Word :=
  if countOf h ≠ 1 then 0 else if h / 2 ^ 48 % 2 ^ 16 = 0 then 1 else 2

/-- A count changed by a relaxed atomic on a header (R303). -/
def recount (d a : Reg) (f : Nat → Option Nat) (r : Nat → Word) (s : State) : Out :=
  issueDyn [d, a] s do
    let v := (← get).rg a
    if valueTag v ≠ 1 then modify fun s => s.result d 0
    else
      let va := objectAddr v
      trapIf (va.getLsbD 3) 0x03 va
      let x ← translate va .atomic
      waitEchoes
      let old ← atomicAt va x 16 f .rlx
      trapIf (f old).isNone 0x0E v
      modify fun s => s.result d (r old)

def execDynRcinc (d a : Reg) (s : State) : Out := recount d a incHeader (fun _ => 0) s
def execDynRcdec (d a : Reg) (s : State) : Out := recount d a decHeader decResult s

/-! ## Dispatch (R323, R324) -/

/-- sr.bctab of an address space. -/
def State.bctabOf (s : State) (p : Nat) (asid : BitVec 16) : Word :=
  (aget (s.part p).bctab asid.toNat).getD 0

def execDynNext (d a : Reg) (s : State) : Out :=
  issueDyn [d, a] s do
    let s ← get
    let pc := s.rg a
    trapIf (pc.extractLsb' 0 2 != 0) 0x03 pc
    let u ← loadG pc 4
    let base := s.bctabOf s.myPart s.me.asid
    let hdr ← loadG base 8
    let n := hdr / 2 ^ 32
    trapIf (n == 0) 0x02 base
    let i := if u % 256 ≥ n then 0 else u % 256
    let off ← loadG (base + BitVec.ofNat 64 (8 + 4 * i)) 4
    let t := base + (BitVec.ofNat 32 off).signExtend 64
    checkTarget t (BitVec.ofNat 16 (hdr + i / 16))
    modify fun s => ((s.wg a (pc + 4)).wg d (BitVec.ofNat 64 u)).jump t

end Sys2Proof.Machine
end

