-- ==== Sys2Proof/Machine/System.lean ====
section
/-! DEFINITION. The state registers (R282 to R284) and what a write of one starts (R99, R114, R182,
R323), the system instructions (R189, R251, R261, R267 to R269, R285) and the page migration engine (R182
to R185). -/

namespace Sys2Proof.Machine

/-! ## Who may reach a register (R282) -/

/-- The issuer is a context of the service core. -/
def State.onSvc (s : State) : Bool := s.myCore == (s.cfg s.myPart).svcCore

/-- Indexes that only contexts of the service core reach. -/
def svcOnly (i : Nat) : Bool := i == 0x083 || (0x088 ≤ i && i ≤ 0x08A)

/-- An index of the feature MIGRATE (R249). -/
def migIndex (i : Nat) : Bool := 0x088 ≤ i && i ≤ 0x08A

/-- A window index, and the registers of the selected context that it reaches. -/
def inWindow (i : Nat) : Bool := 0x100 ≤ i && i < 0x140

/-- The selected context is in a state in which the window acts. -/
def windowOpen : CtxSt → Bool
  | .free | .stopped | .trapped | .exited => true
  | _ => false

/-- The context that sr.sel selects. -/
def State.selected (s : State) : Slot := ⟨s.mine.sel.toNat, s.mine.sel.isLt⟩

/-- A read or a write of an index is refused with cause 0x04. -/
def State.refusesRead (s : State) (i : Nat) : Bool :=
  if inWindow i then s.slot != 0 || !windowOpen (s.ctx s.key s.selected).st
  else svcOnly i && !s.onSvc

/-- The registers of a context that nothing writes. -/
def readOnly (r : Nat) : Bool :=
  r == 0x000 || r == 0x001 || r == 0x009 || r == 0x00A || r == 0x00E

def State.refusesWrite (s : State) (i : Nat) : Bool :=
  if inWindow i then s.refusesRead i || (i < 0x120 && readOnly (i - 0x100))
  else if i < 0x020 then
    readOnly i || i == 0x004 || i == 0x008 || ((i == 0x002 || i == 0x003) && s.slot != 0)
  else if i = 0x040 ∨ i = 0x049 ∨ i = 0x080 ∨ i = 0x081 ∨ i = 0x082 ∨ i = 0x084 then true
  else s.slot != 0 || (svcOnly i && !s.onSvc)

/-! ## Reading (R283, R284) -/

/-- The code of a context's state (R94). -/
def stateCode : CtxSt → Nat
  | .free => 0 | .run => 1 | .blocked => 2 | .stopped => 3
  | .trapped => 4 | .exited => 5 | .spilling => 6 | .filling => 7

/-- sr.ctxst (R94): the last argument counts the contexts. -/
def Core.states (c : Core) : Nat → Nat
  | 0 => 0
  | n + 1 => c.states n + stateCode (c.ctxs[Fin.ofNat 16 n]).st * 16 ^ n

/-- Register 0x000 to 0x01F of a context (R282). -/
def State.ctxReg (s : State) (k : Nat) (x : Slot) (r : Nat) : Word :=
  let c := s.ctx k x
  match r with
  | 0x000 => BitVec.ofNat 64 (coreOf k)
  | 0x001 => BitVec.ofNat 64 (tidOf k x)
  | 0x002 => zext c.asid
  | 0x003 => ofBool c.rights
  | 0x004 => c.pc &&& 0xFFFFFFFFFFFFFFFC
  | 0x005 => zext c.blkto
  | 0x008 => zext c.cause ||| if c.skip then 0x10000 else 0
  | 0x009 => c.epc
  | 0x00A => c.tval
  | 0x00C => zext c.round
  | 0x00D => zext c.vprog
  | 0x00E => c.touched
  | 0x010 => c.loop0.start
  | 0x011 => c.loop0.last
  | 0x012 => c.loop0.count
  | 0x014 => c.loop1.start
  | 0x015 => c.loop1.last
  | 0x016 => c.loop1.count
  | 0x018 => c.icmiss
  | 0x019 => s.bctabOf (partOf k) c.asid
  | 0x01A => s.reclaimOf (partOf k) c.asid
  | _ => 0

/-- The state of a migration engine (R182). -/
def migCode : MigSt → Nat
  | .idle => 0 | .run => 1 | .done => 2 | .error => 3

/-- A register of a core, a die or the partition (R99, R144, R182, R250, R265, R284). -/
def State.sharedReg (s : State) (i : Nat) : Word :=
  let c := s.mine
  let f := s.cfg s.myPart
  let m := (s.part s.myPart).mig
  match i with
  | 0x040 => BitVec.ofNat 64 (c.states 16)
  | 0x041 => zext c.event
  | 0x042 => c.evec
  | 0x043 => zext c.timer
  | 0x044 => c.spexit
  | 0x045 => (zext c.area <<< 13) ||| (zext c.used <<< 5) ||| (ofBool c.aspill <<< 1) ||| ofBool c.auto
  | 0x046 => BitVec.ofNat 64 c.inbox.length
  | 0x047 => (zext c.rqBase <<< 11) ||| ofBool c.rqEn
  | 0x048 => zext c.sel
  | 0x049 => zext c.gen
  | 0x080 => zext f.feat
  | 0x081 => BitVec.ofNat 64 (f.svcRing % 128 * 2 ^ 18 + f.svcCore % 2 ^ 18)
  | 0x082 => BitVec.ofNat 64 (f.frametab % 2 ^ 44 * 2 ^ 12)
  | 0x083 => zext (s.part s.myPart).asidtab <<< 12
  | 0x084 =>
    match lrsOf f s.myDie with
    | some (core, ring) => BitVec.ofNat 64 (ring % 128 * 2 ^ 18 + core % 2 ^ 18)
    | none => 0
  | 0x088 => zext m.src <<< 12
  | 0x089 => zext m.dst <<< 12
  | 0x08A => BitVec.ofNat 64 (m.bound * 256 + m.err * 16 + migCode m.st * 4)
  | _ => 0

/-- The register at an index as the issuer reads it: through the window as the writes that wait for the selected
context's next issue will leave it (R282; log entry 46). -/
def State.readReg (s : State) (i : Nat) : Word :=
  if i < 0x020 then s.ctxReg s.key s.slot i
  else if inWindow i then
    let t := s.modCtx s.key s.selected Ctx.flushed
    if 0x120 ≤ i then (t.ctx s.key s.selected).rd (BitVec.ofNat 5 (i - 0x120))
    else t.ctxReg s.key s.selected (i - 0x100)
  else s.sharedReg i

/-- An access of a state register issues: the feature MIGRATE may be masked (R249). -/
def issueReg (d : Reg) (idx : BitVec 12) (s : State) (body : M Unit) : Out :=
  if migIndex idx.toNat && s.masked s.myPart 10 then .next s.illegal else issueM [d] s body

def execSysSrrd (d : Reg) (idx : BitVec 12) (s : State) : Out :=
  issueReg d idx s do
    let s ← get
    trapIf (s.refusesRead idx.toNat) 0x04 (zext idx)
    set (s.result d (s.readReg idx.toNat))

/-! ## Writing (R5, R6, R283) -/

/-- The bits of a register that are not reserved (R6). -/
def legalBits : Nat → Word
  | 0x002 => 0xFFFF
  | 0x003 => 1
  | 0x004 => 0xFFFFFFFFFFFFFFFC
  | 0x005 => 0xFFFFFFFF
  | 0x008 => 0x100FF
  | 0x00C => 0x1F
  | 0x00D => 0x1F
  | 0x010 | 0x011 | 0x014 | 0x015 => 0xFFFFFFFFFFFFFFFC
  | 0x012 | 0x016 => 0xFFFFFFFFFFFFFFFF
  | 0x018 => 0x03FFFFFFFFFFFFFF
  | 0x019 => 0xFFFFFFFFFFFFFFF8
  | 0x01A => 0xFFFFFFFFFFFFF001
  | 0x041 => 0x1FF
  | 0x042 | 0x044 => 0xFFFFFFFFFFFFFFFC
  | 0x043 => 0xFFFFFFFF
  | 0x045 => 0x7FFE3
  | 0x046 => 0xF
  | 0x047 => 0x7F801
  | 0x048 => 0xF
  | 0x083 | 0x088 | 0x089 => 0x00FFFFFFFFFFF000
  | 0x08A => 0xFFFF
  | _ => 0

/-- The index a window register takes its layout from; the general registers have none. -/
def layoutOf (i : Nat) : Nat := if inWindow i then i - 0x100 else i

/-- A value that sets a reserved bit or that the map forbids (R6, R201). -/
def badValue (i : Nat) (v : Word) : Bool :=
  if 0x120 ≤ i ∧ i < 0x140 then false
  else v &&& ~~~legalBits (layoutOf i) != 0 || (layoutOf i == 0x00C && v.extractLsb' 0 3 > 4)

/-- A step that a write starts, before anything else. -/
def State.start (s : State) (i : Instr) : State := { s with urgent := s.urgent ++ [i] }

/-- The command in a write of sr.migctl (R182). -/
def State.migCommand (s : State) (cmd : Nat) : State :=
  match (s.part s.myPart).mig.st with
  | .idle => if cmd = 1 then s.start (.migStart s.myPart) else s
  | .done => if cmd = 2 then s.start (.migRelease s.myPart) else s
  | .error => if cmd = 2 then s.start (.migClear s.myPart) else s
  | .run => s

/-- A register of a core or of the partition with a new value (R97, R99, R182, R284). -/
def State.setShared (s : State) (i : Nat) (v : Word) : State :=
  let p := s.myPart
  match i with
  | 0x041 => s.modMine fun c => { c with event := c.event &&& ~~~(v.extractLsb' 0 9) }
  | 0x042 => s.modMine fun c => { c with evec := v }
  | 0x043 => s.start (if v = 0 then .timerDisarm s.key else .timerArm s.key v.toNat)
  | 0x044 => s.modMine fun c => { c with spexit := v }
  | 0x045 => s.modMine fun c =>
      { c with area := v.extractLsb' 13 6, used := v.extractLsb' 5 8, aspill := v.getLsbD 1, auto := v.getLsbD 0 }
  | 0x046 => s.start (.spawnAnswer s.key v.toNat)
  | 0x047 => s.modMine fun c =>
      if c.ring.isEmpty then { c with rqBase := v.extractLsb' 11 8, rqEn := v.getLsbD 0 } else c
  | 0x048 => s.modMine fun c => { c with sel := v.extractLsb' 0 4 }
  | 0x083 => s.modPart p fun e => { e with asidtab := v.extractLsb' 12 44 }
  | 0x088 => s.modPart p fun e =>
      if e.mig.st = .idle then { e with mig := { e.mig with src := v.extractLsb' 12 44 } } else e
  | 0x089 => s.modPart p fun e =>
      if e.mig.st = .idle then { e with mig := { e.mig with dst := v.extractLsb' 12 44 } } else e
  | 0x08A => s.migCommand (v.extractLsb' 0 2).toNat
  | _ => s

/-- A spill area or ring that would reach past W (R99). -/
def State.areaFaults (s : State) (i : Nat) (v : Word) : Bool :=
  let w := s.window s.myPart
  (i == 0x045 && (v.extractLsb' 13 6).toNat * 8192 + 8192 > w) ||
  (i == 0x047 && v.getLsbD 0 && (v.extractLsb' 11 8).toNat * 2048 + 2048 > w)

/-- A write of sr.bctab or sr.reclaim of an identifier: the writer waits until every die holds it
(R323). -/
def tableWrite (r : Nat) (asid : BitVec 16) (v : Word) : M Unit := do
  let s ← get
  set (s.start (if r = 0x019 then .bctabWrite s.key s.slot asid.toNat v
    else .reclaimWrite s.key s.slot asid.toNat v))
  throw (.block .acks)

/-- The issuer's own loop registers take their values after the instruction's own end check (R83, R86). A bound that the
value passes is found before a value that the map forbids: only an encoding's cause 0x01 comes from decoding (R42). -/
def execSysSrwr (d : Reg) (idx : BitVec 12) (s : State) : Out :=
  issueReg d idx s do
    let s ← get
    let i := idx.toNat
    let v := s.rg d
    let sel := s.selected
    trapIf (s.refusesWrite i) 0x04 (zext idx)
    trapIf (s.areaFaults i v) 0x04 (zext idx)
    trapIf (badValue i v) 0x01 (illegalVal s.cur.w0 s.cur.w1)
    if i = 0x019 ∨ i = 0x01A then tableWrite i s.me.asid v
    else if i = 0x119 ∨ i = 0x11A then tableWrite (i - 0x100) (s.ctx s.key sel).flushed.asid v
    else if i < 0x020 then set (s.seq.modMe fun c => c.setReg i v)
    else if inWindow i then set ((s.modCtx s.key sel fun c => c.throughWindow idx v).seq)
    else set ((s.setShared i v).seq)

/-! ## Values per address space (R323) -/

/-- A table that holds 0 for what it does not list. -/
def setOrDrop (l : List (Nat × Word)) (k : Nat) (v : Word) : List (Nat × Word) :=
  if v = 0 then adel l k else aset l k v

/-- Every die holds the value: the writer completes. -/
def State.acknowledged (s : State) (k : Nat) (x : Slot) : State :=
  if (s.ctx k x).wait = some .acks then s.finish k x 0 0 else s

def execBctabWrite (k : Nat) (x : Slot) (asid : Nat) (v : Word) (s : State) : Out :=
  done ((s.modPart (partOf k) fun e => { e with bctab := setOrDrop e.bctab asid v }).acknowledged k x)

def execReclaimWrite (k : Nat) (x : Slot) (asid : Nat) (v : Word) (s : State) : Out :=
  done ((s.modPart (partOf k) fun e => { e with reclaim := setOrDrop e.reclaim asid v }).acknowledged k x)

/-! ## Time and capabilities (R189, R251, R285) -/

def execSysNow (d : Reg) (s : State) : Out :=
  issue [d] s fun s => s.result d (BitVec.ofNat 64 (s.time + (Config.dieSkew s.myDie).val))

/-- Bits 0 to n − 1 of a mask given by a test. -/
def maskBits (f : Nat → Bool) : Nat → Nat
  | 0 => 0
  | n + 1 => maskBits f n + if f n then 2 ^ n else 0

/-- The present dies of a partition, and its present cores (R12). -/
def State.presentDies (s : State) (p : Nat) : List Nat :=
  (s.cfg p).dies.filter fun d => !s.retiredDies.contains d
def State.presentCores (s : State) (p : Nat) : Nat :=
  ((s.presentDies p).map fun d => 8192 - ((s.retiredCores.filter fun c => dieOfCore c = d).eraseDups).length).foldl
    (· + ·) 0

/-- A capability (R189, R251). -/
def State.capability (s : State) (p i : Nat) : Word :=
  match i with
  | 0x0000 => 0x0000010000030001
  | 0x0001 => 0x7FF &&& ~~~(zext (s.cfg p).feat)
  | 0x0002 | 0x0003 | 0x0004 => 0
  | 0x0008 => BitVec.ofNat 64 (s.presentCores p)
  | 0x0009 => BitVec.ofNat 64 (maskBits (fun d => (s.presentDies p).contains d) 32)
  | 0x000A => 16
  | 0x000B => BitVec.ofNat 64 (s.window p)
  | 0x000C => BitVec.ofNat 64 p
  | 0x000D => if s.podMember then 0x8000000000000000 ||| zext s.podModule else 0
  | 0x0010 => BitVec.ofNat 64 (maskBits (s.mmaFormat p) 16)
  | 0x0011 => BitVec.ofNat 64 (maskBits (fun f => !s.formatMasked p f) 15)
  | 0x0018 => 32
  | 0x0019 => 4
  | _ => 0xFFFFFFFFFFFFFFFF

def execSysCapq (d a : Reg) (s : State) : Out :=
  issue [d, a] s fun s => s.result d (s.capability s.myPart (s.rg a).toNat)

/-! ## Calls (R285) -/

def execSysScall (a : Reg) (s : State) : Out := issue [a] s fun s => s.trap 0x0B (s.rg a)
def execSysBrk (s : State) : Out := issue [] s fun s => s.trap 0x0A 0

/-! ## Fetch levels (R261) -/

/-- Every level of fetch loses what it holds of a partition. -/
def State.dropFetched (s : State) (p : Nat) : State :=
  { s with
    fetch := s.fetch.filter fun f => f.2.part ≠ p
    hw := s.hw.map fun e => (e.1, { e.2 with
      lbuf := e.2.lbuf.filter fun f => f.part ≠ p
      l1i := e.2.l1i.filter fun f => f.part ≠ p }) }

/-- A fetch of a context is under way, and no instruction. -/
def Ctx.fetching (c : Ctx) : Bool := c.fetched.isNone && c.wait.isSome

/-- What a die has received for a fetch is no more used, and one that waits for data which may be older than the
flush asks again (R162, R262). -/
def State.fetchAgain (s : State) (k : Nat) (x : Slot) : State :=
  if !(s.ctx k x).outstanding then s.doneWith (.ctx k x)
  else if (s.ctx k x).fetching then
    match (s.ctx k x).wait with
    | some (.line d l) =>
      let marked := (s.openReq d (partOf k) l).any (·.marked)
      (if marked then s.modCtx k x fun c => { c with wait := some (.late d l) } else s).doneWith (.ctx k x)
    | some (.served _ _) => (s.doneWith (.ctx k x)).modCtx k x Ctx.woken
    | _ => s.doneWith (.ctx k x)
  else s

/-- Every fetch of a partition that is under way. -/
def State.fetchesAgain (s : State) (p : Nat) : State :=
  (s.cores.filter fun e => partOf e.1 = p).foldl
    (fun s e => (List.finRange 16).foldl (fun s x => s.fetchAgain e.1 x) s) s

def execSysIflush (s : State) : Out :=
  issueM [] s do
    waitEchoes
    modify fun s => (s.seq.dropFetched s.myPart).fetchesAgain s.myPart

/-! ## The service core's instructions (R266 to R269) -/

/-- The issuer runs on the service core or on a last-resort supervisor, else cause 0x04. -/
def onlyService : M Unit := do
  let s ← get
  trapIf (!s.onSvc && !isLrs (s.cfg s.myPart) s.myCore) 0x04 0

/-- The level of the largest page that XINV covers at a VA, of the leaves that slices and copy engines hold
(R268, R274). -/
def State.cachedLevel (s : State) (p asid : Nat) (va : Word) : Nat :=
  let held := ((s.cfg p).dies.flatMap fun d => (s.die d).xlat.map (·.2)) ++
    (s.hw.filter fun e => (s.cfg p).dies.contains (dieOfCore e.1)).flatMap fun e => e.2.xjob
  ((held.filter fun e => e.covers p (BitVec.ofNat 16 asid) va).map (·.level)).foldl max 0

/-- A page at one level overlaps the page at another that holds a VA. -/
def samePage (page level : Nat) (va : Word) (lv : Nat) : Bool :=
  let top := max level lv
  page * 2 ^ (9 * level) / 2 ^ (9 * top) == va.toNat % 2 ^ 57 / 2 ^ (12 + 9 * top)

/-- The translations and the L1 lines that XINV covers leave; dirty bytes are written back (R268). A
level of 5 covers every page of the identifier. -/
def State.invalidate (s : State) (p asid : Nat) (va : Word) (lv : Nat) : State :=
  let gone := fun (x : XEntry) => x.part = p && x.asid.toNat = asid && samePage x.page x.level va lv
  let s : State := { s with dies := s.dies.map fun e =>
    if (s.cfg p).dies.contains e.1 then
      (e.1, { e.2 with xlat := e.2.xlat.filter fun x => !gone x.2 })
    else e }
  s.hw.foldl (fun s e =>
    if (s.cfg p).dies.contains (dieOfCore e.1) then
      let s := s.modHw e.1 fun h => { h with xjob := h.xjob.filter fun x => !gone x }
      ((s.hwOf e.1).l1.filter fun l =>
        l.part = p && l.asid.toNat = asid && samePage (l.va / 32 % 2 ^ 45) 0 va lv).foldl
        (fun s l => s.evictL1 e.1 l) s
    else s) s

/-- An acquire that waits in a queue has been translated with a leaf that XINV covers (R142, R268, R275). -/
def State.queuedUnder (s : State) (p asid : Nat) (va : Word) (lv : Nat) : Bool :=
  s.cores.any fun e => partOf e.1 = p && e.2.ctxs.toList.any fun c =>
    match c.wait, c.fetched with
    | some (.lrw _ _ _ _), some (w, _) => c.asid.toNat = asid && samePage ((c.rd (fA w)).toNat / 4096 % 2 ^ 45) 0 va lv
    | _, _ => false

/-- A walk of a page that XINV covers is in progress, for an access or for the other part of one (R268). -/
def State.walksUnder (s : State) (p asid : Nat) (va : Word) (lv : Nat) : Bool :=
  let covered := fun (v : Word) => samePage (v.toNat / 4096 % 2 ^ 45) 0 va lv
  s.steps.any fun i =>
    match i with
    | .translationWalk r => r.part = p && r.asid = asid &&
        (covered r.va || match r.twin with
          | some (.walk v) => covered v
          | _ => false)
    | _ => false

/-- Accesses of a partition that have been translated are still on their way to their homes (R275). -/
def State.underWay (s : State) (p : Nat) : Bool :=
  s.steps.any fun i =>
    match i with
    | .postedWriteArrival w => w.part == p
    | .scrHomeUpdate k _ _ _ | .waitHomeCompare k _ _ _ _ _ => partOf k == p
    | _ => false

/-- A table that cannot be read, as one that refuses, leaves the pages that the translation caches hold (R268). -/
def execSysXinv (d a : Reg) (s : State) : Out :=
  issueM [d, a] s do
    onlyService
    let s ← get
    let w := s.rg d
    let va := s.rg a
    let p := s.myPart
    let asid := (w.extractLsb' 0 16).toNat
    trapIf (w.extractLsb' 17 47 != 0) 0x04 w
    trapIf (!w.getLsbD 16 && !canonical va) 0x04 va
    waitEchoes
    let lv ←
      if w.getLsbD 16 then pure 5
      else do
        match ← tryCatch (walkTable p asid va) fun e => if e = .err then pure .refused else throw e with
        | .leaf _ lv _ => pure (max lv (s.cachedLevel p asid va))
        | _ => pure (s.cachedLevel p asid va)
    let s ← get
    if s.walksUnder p asid va lv then throw (.block (.xinv asid va lv false))
    let s := s.invalidate p asid va lv
    set s
    blockIf (s.underWay p || s.queuedUnder p asid va lv) (.xinv asid va lv true)
    modify fun s => s.seq

/-- A `SYS.XINV` that waits looks again: the caches drop what it covers once no covered walk is in progress (R268),
and it is over when what has been translated before is performed (R275). -/
def State.xinvOn (s : State) (k : Nat) (x : Slot) : State :=
  let p := partOf k
  match (s.ctx k x).wait with
  | some (.xinv asid va lv false) =>
    if s.walksUnder p asid va lv then s
    else
      let lv := max lv (s.cachedLevel p asid va)
      (s.invalidate p asid va lv).modCtx k x fun c => { c with wait := some (.xinv asid va lv true) }
  | some (.xinv asid va lv true) => if s.underWay p || s.queuedUnder p asid va lv then s else s.finish k x 0 0
  | _ => s

/-- Frame(pa) (R265). -/
def frameOf (pa : Nat) : Nat :=
  if loc pa < 0x10000000000 then loc pa / 4096 else 0x10000000 + loc pa / 4096 - 0x100000000

/-- The new entry of a frame whose count changes by `n`, where it stays in range (R267). -/
def adjusted (e : Nat) (n : Int) : Option Nat :=
  let c : Int := (e % 2 ^ 24 : Nat) + n
  if 0 ≤ c ∧ c ≤ 0xFFFFFF then some (e / 2 ^ 24 * 2 ^ 24 + c.toNat) else none

/-- A frame's count adjusted (R267). The partition must reach the frame table's entry, as every address (R25, R26,
R332). -/
def execSysPgref (d a : Reg) (s : State) : Out :=
  issueM [d, a] s do
    let s ← get
    let pa := s.rg a
    let n := (s.rg d).toInt
    let p := s.myPart
    trapIf (pa.extractLsb' 0 12 != 0) 0x03 pa
    onlyService
    let own := match place (loc pa.toNat) with
      | .dram h => (s.cfg p).dies.contains h
      | _ => false
    let e := (s.cfg p).frametab * 4096 + 4 * frameOf pa.toNat
    trapIf (!own || !s.admits p e || s.inCoreMap (loc e)) 0x04 pa
    trapIf (n < -0xFFFFFF || n > 0xFFFFFF) 0x04 (s.rg d)
    waitEchoes
    awaitReply
    poisonCheck pa e true
    let home := s.homeAgent p (s.steer p e)
    orTrap pa (ownLine home p e)
    let old := sliceNat (← orTrap pa (readLine home p e)) (e % 128) 4
    match adjusted old n with
    | some new => modify fun s =>
        (s.mergeOwned home p e (maskOf (e % 128) 4) (placed (e % 128) new)).result d (BitVec.ofNat 64 new)
    | none => modify fun s => s.result d (0x8000000000000000 + BitVec.ofNat 64 old)

/-- The rings that a core answers: the fault ring and the supervisor rings (R265, R276). -/
def ringsOf (c : PartCfg) (core : Nat) : List Nat :=
  (if c.svcCore = core then [c.svcRing] else []) ++ (c.lrs.filter fun e => e.2.1 = core).map (·.2.2)

/-- An offset is a record slot of one of these rings (R266). -/
def isRecord (rings : List Nat) (off : Nat) : Bool :=
  rings.any fun r => r * 4096 + 64 ≤ off && off < r * 4096 + 4096 && off % 64 == 0

/-- The reply to the newest record posted in a slot goes to its access (R269, R277). -/
def State.sendReply (s : State) (off code : Nat) : State :=
  match s.faults.reverse.find? fun f => f.ring = s.key && f.slot = off with
  | some f => ({ s with faults := s.faults.erase f } : State).post (.faultReply f code)
  | none =>
    match s.checks.reverse.find? fun m => m.ring = s.key && m.slot = off with
    | some m => ({ s with checks := s.checks.erase m } : State).post (.machineCheckReply m.k m.x m.source code)
    | none => s

def execSysFreply (d a : Reg) (s : State) : Out :=
  issueM [d, a] s do
    onlyService
    let s ← get
    let off := (s.rg a).toNat
    let code := s.rg d
    trapIf (!isRecord (ringsOf (s.cfg s.myPart) s.myCore) off || off + 64 > s.window s.myPart) 0x04 (s.rg a)
    trapIf (s.loadLocal s.key (off + 56) 8 != 0) 0x04 (s.rg a)
    trapIf (code.toNat > 1) 0x04 code
    waitEchoes
    modify fun s =>
      ((s.storeLocal s.key (off + 56) 8 (0x8000000000000000 + code).toNat).sendReply off code.toNat).seq

/-! ## Page migration (R182 to R185) -/

/-- The migration engine of a partition changed. -/
def State.modMig (s : State) (p : Nat) (f : Mig → Mig) : State := s.modPart p fun e => { e with mig := f e.mig }

/-- The error that the check of both frames finds (R182): a frame of a retired range is refused, and a core map as the
destination, which a migration writes, as one outside (R332, R333). -/
def State.frameError (s : State) (p : Nat) (m : Mig) : Nat :=
  let bad := fun (f : BitVec 44) =>
    let a := loc (f.toNat * 4096)
    match place a with
    | .dram d => !(s.cfg p).dies.contains d || s.retiredAt a
    | _ => true
  let noKey := fun (f : BitVec 44) => !(s.cfg p).keys.contains (keyId (f.toNat * 4096))
  if bad m.src || bad m.dst || s.inCoreMap (loc (m.dst.toNat * 4096)) then 1
  else if noKey m.src || noKey m.dst then 2
  else if loc (m.src.toNat * 4096) = loc (m.dst.toNat * 4096) then 3
  else 0

def execMigStart (p : Nat) (s : State) : Out :=
  done <|
    let m := (s.part p).mig
    if m.st ≠ .idle then s
    else
      let e := s.frameError p m
      if e ≠ 0 then s.modMig p fun m => { m with st := .error, err := e }
      else (s.modMig p fun m => { m with st := .run, err := 0, bound := 0 }).post (.migLineMove p)

def execMigClear (p : Nat) (s : State) : Out :=
  done (s.modMig p fun m => if m.st = .error then { m with st := .idle, err := 0 } else m)

/-- A wait whose line has moved. -/
def Wait.moved (a b pa : Nat) : Wait → Wait
  | .lrw req l q d => if l = a then .lrw req b (pa + q % 128) d else .lrw req l q d
  | .acq req l rels => .acq req (if l = a then b else l) rels
  | w => w

/-- A step about a synchronisation line that has moved. -/
def relinked (p a b : Nat) (i : Instr) : Instr :=
  let m := fun (q l : Nat) => if q = p ∧ l = a then b else l
  let tagged := fun (t : Tagged) => { t with line := m t.part t.line }
  let ask := fun (k : Nat) (r : Ask) => { r with at_ := m (partOf k) r.at_ }
  match i with
  | .reservationHead t => .reservationHead (tagged t)
  | .writebackRequest o k x r => .writebackRequest o k x (ask k r)
  | .writebackAcknowledgement o (k, x) r => .writebackAcknowledgement o (k, x) (ask k r)
  | .reservationGrant k x r v => .reservationGrant k x (ask k r) v
  | .generationAdvance k x r => .generationAdvance k x (ask k r)
  | .llcLocusEviction t => .llcLocusEviction (tagged t)
  | i => i

/-- The locus, queue and wait entries of line `a` become those of line `b`, whose first byte is at `pa`, and what
names `a` names `b` (R184, step 4). -/
def State.moveSync (s : State) (p a b pa : Nat) : State :=
  let m := fun (l : Nat) => if l = a then b else l
  let l := s.syncLine p a
  let s := if l = .reset then s else (s.setSync p b l).setSync p a .reset
  { s with
    waits := s.waits.map fun e => if e.part = p then { e with line := m e.line } else e
    cores := s.cores.map fun e => if partOf e.1 = p then (e.1, { e.2 with
      resv := e.2.resv.map fun r => (m r.1, r.2)
      ctxs := e.2.ctxs.map fun c => { c with
        wait := c.wait.map (Wait.moved a b pa)
        acq := c.acq.map fun q => (m q.1, q.2) } }) else e
    urgent := s.urgent.map (relinked p a b)
    flight := s.flight.map (relinked p a b)
    parked := s.parked.map (relinked p a b)
    poisoned := s.poisoned.map fun t => if t = tagOf a p then tagOf b p else t
    memErr := s.memErr.map fun t => if t = tagOf a p then tagOf b p else t }

/-- The destination's home slice has room for what a line carries (R184, step 3). -/
def State.moveRoom (s : State) (p a b : Nat) : Bool :=
  let sh := s.sharesHome b
  s.queueUsed p b + (s.syncLine p a).queue.length ≤ (if sh then 32 else 64) &&
  s.waitsUsed p b
    + (s.waits.filter fun e => e.part = p && e.line = a).length ≤ (if sh then 128 else 256)

/-- Line `i` moves in one step (R184, steps 4 and 5): read under the source's key ID (R26), and written under the
destination's. -/
def State.moveLine (s : State) (p a b pa : Nat) : State :=
  let s := s.albRecall (homeDie a) p a
  let key := keyId ((s.part p).mig.src.toNat * 4096)
  let data := s.lineUnder a key
  let s := ((s.usedChoice a key).writeLine b (keyId pa) (BitVec.allOnes 128) data).moveSync p a b pa
  let s := s.modMig p fun m => { m with bound := m.bound + 1 }
  let s := if (s.part p).mig.bound ≥ 32 then (s.modMig p fun m => { m with st := .done }).raiseSvc p
    else s.post (.migLineMove p)
  (s.releaseLine p a true).releaseLine p b true

/-- The next line moves when neither it nor its destination is exported, and nothing that would export it is under
way. -/
def execMigLineMove (p : Nat) (s : State) : Out :=
  done <|
    let m := (s.part p).mig
    if m.st ≠ .run then s
    else
      let a := lineOf (m.src.toNat * 4096) + m.bound
      let b := lineOf (m.dst.toNat * 4096) + m.bound
      if !s.isHome p a then s.bringHome p a (.migLineMove p)
      else if !s.isHome p b then s.bringHome p b (.migLineMove p)
      else
        let s := (s.holdLine p a).holdLine p b
        if !s.moveRoom p a b then s.park (.migLineMove p)
        else s.moveLine p a b (m.dst.toNat * 4096 + m.bound * 128)

/-- An L1 line lies in the source frame of a migration. -/
def inFrame (m : Mig) (pa : Nat) : Bool := loc pa / 4096 == loc (m.src.toNat * 4096) / 4096

def execMigRelease (p : Nat) (s : State) : Out :=
  done <|
    let m := (s.part p).mig
    if m.st ≠ .done ∨ m.releasing then s
    else
      let s := s.hw.foldl (fun s e =>
        ((s.hwOf e.1).l1.filter fun l => l.part = p && inFrame m l.pa).foldl
          (fun s l => s.evictL1 e.1 l) s) s
      (s.modMig p fun m => { m with releasing := true }).post (.migReleaseComplete p)

def execMigReleaseComplete (p : Nat) (s : State) : Out :=
  done <|
    let m := (s.part p).mig
    if !m.releasing then s
    else if s.underWay p then s.park (.migReleaseComplete p)
    else s.modMig p fun m => { m with st := .idle, bound := 0, releasing := false }

end Sys2Proof.Machine
end

