-- ==== Sys2Proof/Machine/Platform.lean ====
section
/-! DEFINITION. What firmware, the host, the network and the power controller do: swaps (R292), the
configuration and the reset of partitions (R289, R296, R330, R333), the host port (R297), SPDM, TDISP and
IDE (R297, R299), module time (R300, R301), boot (R329), power and temperature (R334 to R337). -/

namespace Sys2Proof.Machine

/-! ## Power (R20, R334, R335) -/

/-- What each die has spent in the interval (R334). -/
def State.meters (s : State) : List Nat := (List.range 32).map fun d => (s.die d).meter

/-- The module's draw in the interval (R334). -/
def State.drawn (s : State) : Nat := Config.staticDraw + s.meters.sum

/-- What the dies of a partition have spent. -/
def State.spentBy (s : State) (c : PartCfg) : Nat := (c.dies.map fun d => (s.die d).meter).sum

/-- Whether the limits of the module and of each partition leave room for one more start in this interval (R20,
R334). -/
def State.recap (s : State) : State :=
  { s with
    capped := decide (s.moduleLimit < s.drawn + Config.headroom)
    parts := s.parts.map fun e => (e.1, { e.2 with capped := decide (e.2.limit < s.spentBy e.2.cfg + Config.headroom) }) }

/-- What a die may spend: half its budget while it is hot (R336), which without a budget of its own is the
module's limit. -/
def State.budgetOf (s : State) (d : Nat) : Option Nat :=
  if (s.die d).halved then some ((((s.die d).budget).getD s.moduleLimit) / 2) else (s.die d).budget

/-- A die starts nothing more in this interval (R20, R334): it has spent its budget, or the meter of the module, or of a
partition that holds it, has reached its limit. -/
def State.spent (s : State) (d : Nat) : Bool :=
  (s.budgetOf d).any (· ≤ (s.die d).meter) || s.capped ||
    s.parts.any fun e => e.2.capped && e.2.cfg.dies.contains d

/-- What a die has spent grows (R334). -/
def State.spend (s : State) (d n : Nat) : State := (s.modDie d fun e => { e with meter := e.meter + n }).recap

/-- A die holds back a start, which counts toward its demand (R334). -/
def State.holdsBack (s : State) (d n : Nat) : State := s.modDie d fun e => { e with want := max e.want n }

/-- What each die demands of the next interval, as far as this one tells (R334). -/
def State.demands (s : State) : List Nat := (List.range 32).map fun d => (s.die d).meter + (s.die d).want

/-- What dies demand of the next interval (R334). -/
def demandOf (demand dies : List Nat) : Nat := (dies.map fun d => demand.getD d 0).sum

/-- A die's part of a limit on some dies, in proportion to its demand, where the draw projected for them exceeds
it, rounded up. `fixed` is the part of the draw that no budget lowers. -/
def budgetShare (limit fixed projected : Nat) (demand dies : List Nat) (d : Nat) : Option Nat :=
  let total := demandOf demand dies
  if limit < projected then some (((limit - fixed) * demand.getD d 0 + (total - 1)) / total) else none

/-- The lower of two budgets. -/
def tighter (a b : Option Nat) : Option Nat :=
  match a, b with
  | some x, some y => some (min x y)
  | some x, none => some x
  | none, b => b

/-- A die's budget for the next interval, by the limit of the module and those of the partitions that
hold it. -/
def State.budgetFor (s : State) (projected : Nat) (demand : List Nat) (d : Nat) : Option Nat :=
  (s.parts.filter fun e => e.2.cfg.dies.contains d).foldl
    (fun n e => tighter n (budgetShare e.2.limit 0 (demandOf demand e.2.cfg.dies) demand e.2.cfg.dies d))
    (budgetShare s.moduleLimit Config.staticDraw projected demand (List.range 32) d)

/-- The contexts that wait for what their die may draw, over the cores listed. -/
def State.heldBack (s : State) : List (Nat × Slot) :=
  s.cores.flatMap fun e => ((List.finRange 16).filter fun x =>
    match e.2.ctxs[x].wait with
    | some (.power _) => true
    | _ => false).map fun x => (e.1, x)

/-- The end of an interval: the draw is computed from the meters, every die has its budget for the next one, and
the meters begin afresh; what a budget held back goes on. -/
def execPowerInterval (projected : Nat) (demand : List Nat) (s : State) : Out :=
  done <|
    let t := (List.range 32).foldl (fun (t : State) d =>
      t.modDie d fun e => { e with budget := s.budgetFor projected demand d, meter := 0, want := 0 })
      { s with draw := s.drawn }
    { t.recap.unpark with retry := s.retry ++ s.heldBack }

/-- What an entry of a matrix queue spends (R334): its blocks by class. -/
def MEntry.cost : MEntry → Nat
  | .mma a _ _ cfg => Config.mmaEnergy (mmaClass a.fmt) * ((cfg.extractLsb' 6 2).toNat + 1)
  | .mmav a _ _ _ _ _ => Config.mmaEnergy (mmaClass a.fmt)
  | .load _ _ _ | .zero _ => 0

/-! ## Swaps (R292) -/

/-- The matrix queue of a core drains, as far as its die may draw (R334): the last argument counts the entries. -/
def State.drain (s : State) (k : Nat) : Nat → State
  | 0 => s
  | n + 1 =>
    let d := dieOfCore (coreOf k)
    match (s.core k).mqueue.head? with
    | none => s
    | some e => if s.spent d then s.holdsBack d e.cost else ((s.runMatrix k).spend d e.cost).drain k n

/-- The lines of a partition in a core's atomic line buffer return to their homes (R152, R292). -/
def State.returnAlb (s : State) (core p : Nat) : State :=
  ((s.hwOf core).alb.filter fun l => l.part = p).foldl
    (fun s l => (s.albDrop core p l.line).albReturn (dieOfCore core) l) s

/-- The other partition of a shared die. -/
def State.otherOn (s : State) (d p : Nat) : Option Nat :=
  (s.parts.find? fun e => e.1 ≠ p && e.2.cfg.dies.contains d).map (·.1)

/-- The state of each partition is kept under its own keys, so a swap changes which of them runs. An instruction
whose reply came while its partition was swapped out completes, with the data of a line that has come for it alone
(R162, R293). A swap whose queues a budget holds back goes on
when the die may draw again (R334). -/
def execPartitionSwap (die : Nat) (s : State) : Out :=
  done <|
    match (s.die die).running with
    | none => s
    | some p =>
      match s.otherOn die p with
      | none => s
      | some q =>
        let out := (s.cores.map (·.1)).filter fun k => partOf k = p && dieOfCore (coreOf k) = die
        let s := out.foldl (fun s k => s.drain k 4) s
        if out.any fun k => !(s.core k).mqueue.isEmpty then s.park (.partitionSwap die)
        else
        let s := (s.hw.map (·.1)).foldl (fun s c => if dieOfCore c = die then s.returnAlb c p else s) s
        let back := (s.cores.filter fun e => partOf e.1 = q && dieOfCore (coreOf e.1) = die).flatMap fun e =>
          ((List.finRange 16).filter fun x => e.2.ctxs[x].wait.isNone && e.2.ctxs[x].fetched.isSome).map fun x =>
            (e.1, x)
        let s : State := { (s.modDie die fun e => { e with running := some q }).unpark with retry := s.retry ++ back }
        s.replyAll fun k w => partOf k = q && dieOfCore (coreOf k) = die && w.isServed

/-! ## Configuration (R289, R291, R330, R333) -/

/-- A partition that holds dies. -/
def Part.configured (e : Part) : Bool := !e.cfg.dies.isEmpty

/-- The other configured partitions. -/
def State.others (s : State) (p : Nat) : List (Nat × Part) :=
  s.parts.filter fun e => e.1 ≠ p && e.2.configured

/-- A present core of the configuration. -/
def State.coreFor (s : State) (c : PartCfg) (n : Nat) : Bool :=
  c.dies.contains (dieOfCore n) && !s.retiredCores.contains n && !s.retiredDies.contains (dieOfCore n)

/-- Two configurations share a die. -/
def sharesDie (c o : PartCfg) : Bool := c.num != o.num && c.dies.any o.dies.contains

/-- The placement of the local-memory part (R291): the whole of a core's where the partition shares no die. -/
def partFits (cs : List PartCfg) (c : PartCfg) : Bool :=
  match cs.filter (sharesDie c) with
  | [] => c.w == 0x80000 && c.base == 0
  | os =>
    0 < c.w && c.w % 0x10000 == 0 && (c.base == 0 || c.base + c.w == 0x80000) && c.w ≤ 0x80000 &&
    os.all fun o => if c.num < o.num then c.base == 0 && c.w ≤ o.base else o.base == 0 && o.w ≤ c.base

/-- The swap period (R292): 100 µs to 1 s, one for a pair. -/
def periodFits (cs : List PartCfg) (c : PartCfg) : Bool :=
  (cs.filter (sharesDie c)).all fun o => 100000 ≤ c.period && c.period ≤ 1000000000 && o.period == c.period

/-- The supervisors (R289): one on each die of the partition and none elsewhere, no service core among them, each
with its ring in the local-memory part. -/
def State.supervised (s : State) (c : PartCfg) : Bool :=
  c.dies.all (fun d => c.lrs.any (·.1 == d)) && distinct (c.lrs.map (·.1)) &&
  c.lrs.all fun e => c.dies.contains e.1 && dieOfCore e.2.1 == e.1 && s.coreFor c e.2.1 && e.2.1 != c.svcCore
    && e.2.2 * 4096 + 4096 ≤ c.w

/-- The shares of each hub's links and buffers that partitions hold are parts of a whole (R172, R289). -/
def State.shareFits (s : State) (c : PartCfg) : Bool :=
  distinct (c.shares.map (·.1)) && [0, 1].all fun h =>
    (((s.others c.num).map (·.2.cfg)).foldl (fun n o => n + (aget o.shares h).getD 0) 0)
      + (aget c.shares h).getD 0 ≤ 1000

/-- What firmware places keeps off every core map and off what another partition has placed (R330, R333). -/
def State.placeFits (s : State) (cs : List PartCfg) (c : PartCfg) : Bool :=
  (PartCfg.frames c).all fun f => !cs.any (mapHas · (f * 4096)) && !s.inCoreMap (f * 4096) &&
    !(s.others c.num).any fun o => (PartCfg.frames o.2.cfg).contains f

/-- What SYS.CAPQ tells of the pod stands while a partition is configured (R251): the module joins a pod, or another
one, only while none is. -/
def State.podFits (s : State) (c : PartCfg) : Bool :=
  c.pod.all fun m => (s.podMember && s.podModule == m) || (s.others c.num).isEmpty

/-- Firmware accepts a configuration among those it makes together (R66, R289, R291, R292, R294): a die that a
partition holds already is in no other's reach before its reset (R296). The boot ROM, the firmware and the key
generator run on hub 0 (R329). -/
def State.accepts (s : State) (cs : List PartCfg) (c : PartCfg) : Bool :=
  c.num < 32 && !(s.part c.num).configured && s.hubDown != some 0 &&
  !c.keys.isEmpty && !c.dies.isEmpty && distinct c.dies &&
  c.keys.all (fun k => k < 64 && !(s.others c.num).any fun e => e.2.cfg.keys.contains k) &&
  c.dies.all (fun d => d < 32 && !s.retiredDies.contains d &&
    (s.others c.num).all (fun e => !e.2.cfg.dies.contains d || cs.any (·.num == e.1)) &&
    (cs.filter fun o => o.dies.contains d).length ≤ 2) &&
  s.supervised c && s.coreFor c c.svcCore && (c.svcRing + 2) * 4096 ≤ c.w &&
  partFits cs c && periodFits cs c && s.shareFits c && s.placeFits cs c && s.podFits c && c.limit ≤ 18000 &&
  c.keys.contains (keyId (c.asidtab * 4096)) &&
  c.locals.all (fun e => e.1 < c.w) && c.opstore.all (fun e => e.1 < 32768)

/-- The present cores of a configuration. -/
def State.coresOf (s : State) (c : PartCfg) : List Nat :=
  c.dies.flatMap fun d => (List.range' (d * 8192) 8192).filter (s.coreFor c)

/-- Context 0 as step 6 of the boot starts it (R330). -/
def Ctx.booted (pc : Word) : Ctx := { Ctx.reset with st := .run, pc := pc &&& 0xFFFFFFFFFFFFFFFC }

/-- Bytes written one after another. -/
def Memory.writeAll (m : Memory) (base : Nat) : List (Nat × Byte) → Memory
  | [] => m
  | (a, b) :: t => (m.write (base + a) b).writeAll base t

/-- A core as the boot leaves it, with the image's local and operand-store sections. -/
def State.bootCore (s : State) (c : PartCfg) (n : Nat) : State :=
  let k := keyOf n c.num
  let core := { Core.reset with ostore := Memory.writeAll [] 0 c.opstore }
  let core := if c.boots then { core with ctxs := core.ctxs.set 0 (Ctx.booted c.bootPc) } else core
  { s.setCore k core with mem := s.mem.writeAll (localLoc n c.base) c.locals }

/-- Channel k of die d is bit 6d + k. A die's LPDDR-6 is retired as a whole. -/
def State.lpddrPresent (s : State) (d : Nat) : Bool :=
  !s.retiredRanges.any fun r => r.1 ≤ 0x100000000000 + d * 0x4000000000 &&
    0x100000000000 + d * 0x4000000000 < r.2

/-- The core map of a partition as one number (R333). -/
def State.coreMap (s : State) (p : Nat) : Nat :=
  let dies := s.presentDies p
  s.presentCores p + 256 ^ 8 * maskBits (fun d => dies.contains d) 32
    + 256 ^ 0x10 * maskBits (fun i => dies.contains (i / 6) && s.lpddrPresent (i / 6)) 192
    + 256 ^ 0x40 * maskBits (s.presentCore p) 262144

/-- An entry of the pod export table that the hubs take (R186): its range lies in the memory of the partition's
dies, under a key of the partition. Its reserved bits say nothing (R6). -/
def exportOk (c : PartCfg) (e : Nat × Word) : Bool :=
  let base := (e.2.extractLsb' 28 28).toNat * 0x10000000
  e.1 < 1024 && (e.2.extractLsb' 56 6).toNat == c.num && c.keys.contains (keyId base) &&
    match place (loc base) with
    | .dram d => c.dies.contains d
    | _ => false

/-- The module joins its pod (R24), and the pod export table takes the entries of a partition (R186). -/
def State.exportPod (s : State) (c : PartCfg) : State :=
  match c.pod with
  | none => s
  | some m =>
    { s with podMember := true, podModule := m
             podModules := s.podModules ++ c.modules.filter fun n => !s.podModules.contains n
             podTable := (c.exports.filter (exportOk c)).foldl (fun t e => aset t e.1 e.2) s.podTable }

/-- A die that two partitions share runs the one that had it first until the next period boundary. -/
def State.shareDies (s : State) (c : PartCfg) : State :=
  c.dies.foldl (fun s d =>
    match s.otherOn d c.num with
    | some q => s.modDie d fun e => if e.running.isNone then { e with running := some q } else e
    | none => s) s

/-- What firmware writes into near memory stands there under the partition's lowest-numbered key (R330), but for
the address-space table, whose base names its own. -/
def State.placeImage (s : State) (c : PartCfg) : State :=
  let table := c.asidtab * 4096
  { s with
    mem := s.mem.writeAll 0 c.image
    keys := (c.image.map fun e => e.1 / 128).foldl
      (fun ks l => aset ks l (if l = lineOf table then keyId table else lowKey c)) s.keys }

/-- The core map, which no key encrypts (R333). -/
def State.placeMap (s : State) (c : PartCfg) : State :=
  { s with
    mem := s.mem.writeNat (PartCfg.mapBase c) 0x10000 (s.coreMap c.num)
    keys := s.keys.filter fun e => !mapHas c (lineLoc e.1) }

/-- A location in the memory of one of these dies (R23). -/
def onDies (dies : List Nat) (a : Nat) : Bool :=
  match place a with
  | .dram d => dies.contains d
  | .lcl c _ => dies.contains (dieOfCore c)
  | _ => false

/-- A line in the memory of one of these dies. -/
def homedOn (dies : List Nat) (line : Nat) : Bool := onDies dies (lineLoc line)

/-- What a core of another die holds of lines of these dies is dropped. -/
def CoreHw.without (h : CoreHw) (dies : List Nat) : CoreHw :=
  { h with
    l1 := h.l1.filter fun l => !homedOn dies (lineOf l.pa)
    alb := h.alb.filter fun l => !homedOn dies l.line
    lbuf := h.lbuf.filter fun f => !homedOn dies (f.line % 2 ^ 43)
    l1i := h.l1i.filter fun f => !homedOn dies (f.line % 2 ^ 43) }

/-- Everything that dies hold is zeroed (R296). -/
def State.scrub (s : State) (dies : List Nat) : State :=
  let home := homedOn dies
  { s with
    cores := s.cores.filter fun e => !dies.contains (dieOfCore (coreOf e.1))
    hw := (s.hw.filter fun e => !dies.contains (dieOfCore e.1)).map fun e => (e.1, e.2.without dies)
    objs := s.objs.filter fun e => !dies.contains (coreOf e.1 / 2048)
    fetch := s.fetch.filter fun f => !dies.contains (f.1 / 2048) && !home (f.2.line % 2 ^ 43)
    dies := s.dies.map fun e =>
      (e.1, if dies.contains e.1 then
          { Die.reset with linkDown := e.2.linkDown, moved := e.2.moved, budget := e.2.budget, meter := e.2.meter,
                           want := e.2.want, halved := e.2.halved, powered := e.2.powered }
        else { e.2 with
          llc := e.2.llc.filter fun l => !home l.line
          once := e.2.once.filter fun o => !home o.copy.line
          reqs := e.2.reqs.filter fun q => !home q.line
          wbuf := e.2.wbuf.filter fun w => !home w.line })
    dir := s.dir.filter fun e => !home (tagLine e.1)
    hub := s.hub.filter fun h => !home h.line
    mem := s.mem.filter fun c => !onDies dies c.1
    keys := s.keys.filter fun e => !home e.1
    views := s.views.filter fun e => !home (tagLine e.1)
    exported := s.exported.filter fun t => !home (tagLine t)
    poisoned := s.poisoned.filter fun t => !home (tagLine t)
    memErr := s.memErr.filter fun t => !home (tagLine t)
    sync := s.sync.filter fun e => !home (tagLine e.1)
    waits := s.waits.filter fun e => !home e.line
    icinv := s.icinv.filter fun r => !dies.contains (dieOfCore r.core) }

/-- One configuration of those that are made together, with its boot file placed: nothing where the load of the
file fails or firmware refuses it (R289, R330). -/
def State.configure (s : State) (cs : List PartCfg) (c : PartCfg) : Option State := do
  let r ← resolved c
  if s.accepts cs r then
    let hash := Config.measurement 0 (((c.file.map (·.bytes)).getD []).map (·.toNat))
    let s := s.setPart r.num { State.emptyPart with
      cfg := r, asidtab := BitVec.ofNat 44 r.asidtab, tdi := (s.part r.num).tdi,
      ideKey := (s.part r.num).ideKey, limit := r.limit, mapAt := PartCfg.mapBase r
      measured := Config.measurement 4 (r.dies ++ 64 :: r.keys ++ [64, r.feat.toNat, r.w, r.base, r.period,
        hash.toNat]) }
    let s := (s.placeImage r).placeMap r
    return (((s.coresOf r).foldl (fun s n => s.bootCore r n) s).exportPod r).shareDies r
  else none

/-- Firmware configures partitions together: their dies, which no other holds, are scrubbed (R296, R329), and
where one is refused, or its file does not load, none of them is configured. -/
def execPartitionConfigure (cs : List PartCfg) (s : State) : Out :=
  let free := (cs.flatMap fun c => c.dies).filter fun d => !s.parts.any fun e => e.2.cfg.dies.contains d
  done ((cs.foldlM (fun (t : State) c => t.configure cs c) (s.scrub free)).getD s)

/-! ## Reset of a partition or a die (R296, R297) -/

/-- The key that a step of the machine belongs to, or the partition of one that has no core. -/
def stepKey (i : Instr) : Option Nat :=
  match i with
  | .timerArm k _ | .timerDisarm k | .spawnAnswer k _ | .bctabWrite k _ _ _ | .reclaimWrite k _ _ _
  | .timerExpiry k | .eventRedirect k | .blockTimeout k _ | .replyArrival k _ | .storeEcho k _ _ _
  | .spillImageWrite k _ | .fillComplete k _ | .contextEnd k _ | .msgDecApply _ k _ | .msgIncApply _ k _
  | .msgPutApply _ k _ _ | .spawnAnswerArrival k _ _ _ | .spawnWithdrawal k _ _ _
  | .writebackRequest _ k _ _ | .writebackAcknowledgement _ (k, _) _ | .reservationGrant k _ _ _
  | .generationAdvance k _ _ | .scrHomeUpdate k _ _ _ | .fenceProbe k _ | .waitHomeCompare k _ _ _ _ _
  | .mtxEntryExecute k | .jobStart k _ | .jobComplete k _ | .jobFault k _ _ | .holdRelease k _
  | .reclaimPush k _ _ | .uncorrectableError k _ | .machineCheck k _ _ | .machineCheckReply k _ _ _ => some k
  | .spawnRequestArrival r => some r.target
  | .migStart p | .migRelease p | .migClear p | .migLineMove p | .migReleaseComplete p
  | .fatalMachineCheck p | .wcmdAdd p | .wcmdRemove p | .wakeHome _ p _ _ _ | .reservationHead ⟨p, _⟩
  | .llcLocusEviction ⟨p, _⟩ | .llcEviction _ ⟨p, _⟩ | .hostBar2Write p _ _ _ | .hostBar2Read p _ _
  | .ldoor p _ | .l1Sweep _ p | .l1Eviction _ p _ _ => some (keyOf 0 p)
  | .postedWriteArrival w => some (keyOf 0 w.part)
  | .translationWalk r => some (keyOf 0 r.part)
  | .faultRecordPost f | .faultReply f _ => some (keyOf 0 f.req.part)
  | i => (message i).map fun m => keyOf 0 m.1.part

/-- The step belongs to a partition. -/
def stepOf (p : Nat) (i : Instr) : Bool := (stepKey i).any fun k => partOf k == p

/-- The keys are destroyed: a line still written under one reads under no later key of its number
(R294, R296). -/
def State.destroyKeys (s : State) (ks : List Nat) : State :=
  { s with keys := s.keys.map fun e => if ks.contains e.2 then (e.1, e.2 + 64) else e }

/-- What the directory and the dies hold of a partition's exported lines is forgotten. -/
def State.forgetLines (s : State) (p : Nat) : State :=
  ({ s with
    dies := s.dies.map fun e => (e.1, { e.2 with
      llc := e.2.llc.filter fun l => l.part ≠ p
      once := e.2.once.filter fun o => o.copy.part ≠ p
      reqs := e.2.reqs.filter fun q => q.part ≠ p
      wbuf := e.2.wbuf.filter fun w => w.part ≠ p })
    dir := s.dir.filter fun e => partOf e.1 ≠ p
    hub := s.hub.filter fun h => h.part ≠ p
    exported := s.exported.filter fun t => partOf t ≠ p } : State).loseSteps
      fun i => (message i).any fun m => m.1.part = p

/-- What the machine holds for a partition outside its dies is forgotten. -/
def State.forget (s : State) (p : Nat) : State :=
  let s := s.forgetLines p
  { s.loseSteps (stepOf p) with
    cores := s.cores.filter fun e => partOf e.1 ≠ p
    objs := s.objs.filter fun e => partOf e.1 ≠ p
    chans := s.chans.filter fun c => c.part ≠ p
    fetch := s.fetch.filter fun f => f.2.part ≠ p
    hw := s.hw.map fun e => (e.1,
      { l1 := e.2.l1.filter fun l => l.part ≠ p, alb := e.2.alb.filter fun l => l.part ≠ p
        ic := e.2.ic.filter fun i => i.part ≠ p, lbuf := e.2.lbuf.filter fun f => f.part ≠ p
        l1i := e.2.l1i.filter fun f => f.part ≠ p, xjob := e.2.xjob.filter fun x => x.part ≠ p })
    dies := s.dies.map fun e => (e.1, { e.2 with
      xlat := e.2.xlat.filter fun x => x.2.part ≠ p
      running := if e.2.running = some p then none else e.2.running })
    views := s.views.filter fun e => partOf e.1 ≠ p
    poisoned := s.poisoned.filter fun t => partOf t ≠ p
    memErr := s.memErr.filter fun t => partOf t ≠ p
    sync := s.sync.filter fun e => partOf e.1 ≠ p
    waits := s.waits.filter fun e => e.part ≠ p
    faults := s.faults.filter fun f => f.req.part ≠ p
    checks := s.checks.filter fun m => partOf m.k ≠ p
    launches := s.launches.filter fun l => l.record.part ≠ p
    podTable := s.podTable.filter fun e => (e.2.extractLsb' 56 6).toNat ≠ p
    icinv := s.icinv.filter fun r => partOf r.k ≠ p
    retry := s.retry.filter fun r => partOf r.1 ≠ p }

/-- What is left of a partition after its reset: its TDI, which leaves RUN for ERROR (R297). -/
def Part.afterReset (e : Part) : Part :=
  { State.emptyPart with tdi := if e.tdi = .run then .error else e.tdi, ideKey := e.ideKey }

/-- The partitions that hold one of these dies, whose keys a reset destroys (R296). -/
def State.affected (s : State) (dies : List Nat) : List (Nat × Part) :=
  s.parts.filter fun e => dies.any fun d => e.2.cfg.dies.contains d

/-- The keys of the partitions that a reset affects are destroyed, and granted to none of them (R296). -/
def State.revoke (s : State) (hit : List (Nat × Part)) : State :=
  hit.foldl (fun s e => s.modPart e.1 fun o => { o with cfg := { o.cfg with keys := [] } })
    (s.destroyKeys (hit.flatMap fun e => e.2.cfg.keys))

/-- A partition gives up a die that is reset: what waits for lines goes on, and is refused; what is posted to the
die is gone, and echoed. -/
def State.dropDie (s : State) (p d : Nat) : State :=
  let gone := s.steps.filterMap fun i =>
    match i with
    | .postedWriteArrival w => if w.part = p && onDies [d] (loc w.pa) then some w else none
    | _ => none
  let lost := fun (i : Instr) =>
    stepOf p i && ((stepKey i).any (fun k => dieOfCore (coreOf k) = d && k ≠ keyOf 0 p) ||
      gone.any fun w => i = .postedWriteArrival w)
  let s := (s.loseSteps lost).forgetLines p
  let s := gone.foldl (fun s w => s.arrived w false) s
  let s : State := { s with
    chans := s.chans.map fun (c : SyncChan) =>
      if c.part = p then { c with arrived := c.arrived.filter fun a => dieOfCore (coreOf a.1) ≠ d } else c
    launches := s.launches.filter fun l => l.record.part ≠ p || !l.record.diemask.getLsbD d }
  (s.modPart p fun e => { e with cfg := { e.cfg with dies := e.cfg.dies.filter (· ≠ d) } }).replyAll fun k w =>
    partOf k = p &&
      match w with
      | .line _ _ | .late _ _ | .served _ _ | .room _ => true
      | _ => false

/-- A reset of a partition, or of one of its dies alone (R296): everything there is zeroed, the keys of every
affected partition are destroyed, and the die belongs to none. -/
def execPartitionReset (r : ResetOf) (s : State) : Out :=
  done <|
    match r with
    | .part p =>
      let dies := (s.cfg p).dies
      let hit := s.affected dies
      let s := ((s.scrub dies).revoke hit).forget p
      ((hit.filter fun e => e.1 ≠ p).foldl (fun s e =>
        (dies.filter e.2.cfg.dies.contains).foldl (fun s d => s.dropDie e.1 d) s) s).modPart p Part.afterReset
    | .die d =>
      let hit := s.affected [d]
      hit.foldl (fun s e => s.dropDie e.1 d) ((s.scrub [d]).revoke hit)

/-! ## Boot (R329, R331) -/

/-- The cores that a failure retires (R331). -/
def retiredBy : Failure → List Nat
  | .core c => [c]
  | .quad q => (List.range 4).map (4 * q + ·)
  | _ => []

/-- The LPDDR-6 range of a die (R23). -/
def lpddrRange (d : Nat) : Nat × Nat := (0x100000000000 + d * 0x4000000000, 0x100000000000 + (d + 1) * 0x4000000000)

/-- The hub without which a module that boots runs, in broadcast mode (R181, R329). -/
def failedHub (tests : List Failure) : Option Nat := if tests.contains (.hub 1) then some 1 else none

/-- A hub is in service: neither failed nor, where the boot ended at hub 0, never released (R329). -/
def State.hubUp (s : State) (h : Nat) : Bool := s.booted && h < 2 && s.hubDown != some h

/-- The units that have failed while the module ran, which the next boot retires (R331). DEDUCED: a hub that was
declared failed, or, where `choices` says that the hub is whole, the dies whose links to it stayed down (log entry
24). Hub 0 is never retired: its own test says whether it boots (R329). -/
def State.failures (s : State) : List Failure :=
  s.failed.filter (· ≠ .hub 0) ++
    match s.hubFailed with
    | none => []
    | some h =>
      let links := (s.dies.filter fun e => e.2.linkDown.contains h).map fun e => Failure.die e.1
      if s.choice && !links.isEmpty then links else if h = 1 then [.hub 1] else []

/-- What a module that boots keeps: what it has sent, what is still to come from outside, and the model's own
counters. -/
def State.rebooted (s t : State) : State :=
  { t with
    hostOut := s.hostOut
    switchOut := s.switchOut
    inputs := s.inputs
    sched := s.sched
    choices := s.choices.tail
    fresh := s.fresh + 1
    nextId := s.nextId }

/-- The boot of a module whose tests find this: the state of reset, with what they find failed retired
(R331). Where hub 0 is among it, the boot ends there: hub 1 and the dies are not released (R329). -/
def State.boot (s : State) (tests : List Failure) : State :=
  s.rebooted <|
    if tests.contains (.hub 0) then { State.reset with booted := false, hubDown := some 0 }
    else
      { State.reset with
        tests := tests
        retiredCores := (tests.flatMap retiredBy).eraseDups
        retiredDies := (tests.filterMap fun f => match f with
          | .die d => some d
          | _ => none).eraseDups
        retiredRanges := (tests.filterMap fun f => match f with
          | .lpddr d => some (lpddrRange d)
          | _ => none).eraseDups
        hubDown := failedHub tests }

/-- After power-on or a module reset the module boots (R329), and retires what has failed since the last boot (R331);
the spec does not say what else its tests find. -/
def execModuleReset (s : State) : Out := done (s.boot (s.failures ++ Config.bootTests s.fresh))

/-! ## The host's aperture (R297) -/

/-- The naturally aligned part of up to 8 bytes that an access begins with. -/
def hostPart (off n : Nat) : Nat :=
  if off % 8 = 0 ∧ 8 ≤ n then 8 else if off % 4 = 0 ∧ 4 ≤ n then 4 else if off % 2 = 0 ∧ 2 ≤ n then 2 else 1

/-- The parts of an access, as address and length. The first argument counts them. -/
def hostParts : Nat → Nat → Nat → List (Nat × Nat)
  | 0, _, _ => []
  | f + 1, off, n =>
    if n = 0 then [] else (off, hostPart off n) :: hostParts f (off + hostPart off n) (n - hostPart off n)

/-- One of some parts, in no defined order: the choices of the state say which. -/
def pickPart : List (Nat × Nat) → State → Option (Nat × Nat) × State
  | [], s => (none, s)
  | [a], s => (some a, s)
  | a :: t, s => if s.choice then pickPart t s.dropChoice else (some a, s.dropChoice)

/-- Where the offsets of an access that has been accepted begin: it names its physical address. -/
def hostBase : Nat := 2 ^ 56

/-- A location of memory that a partition's aperture reaches: on a die of the partition that is there, powered, and
not of a retired range (R297, R336). -/
def State.apertureHas (s : State) (p a : Nat) : Bool :=
  match place a with
  | .dram d => (s.cfg p).dies.contains d && !s.retiredDies.contains d && !s.retiredAt a && (s.die d).powered
  | _ => false

/-- The physical address of `n` bytes at an offset of BAR2: nothing where the access is unsupported, which is where one
of its parts is. -/
def State.aperture (s : State) (p off n : Nat) : Option Nat :=
  let key := (s.part p).win.akey.toNat
  if off + n ≤ 0x200000000000 && (s.cfg p).keys.contains key &&
      (hostParts n off n).all fun a => s.apertureHas p a.1
  then some (key * 2 ^ 50 + off) else none

/-- A part of a write is performed at its home as an SO store (R127, R297). -/
def hostStore (p pa n v : Nat) : M Unit := do
  let home := (← get).homeAgent p ((← get).steer p pa)
  ownLine home p pa
  modify fun s => s.mergeOwned home p pa (maskOf (pa % 128) n) (placed (pa % 128) (v % 256 ^ n))

/-- The parts of a write go on their way, in no defined order. The first argument counts them. -/
def State.hostSplit (p base off v : Nat) : Nat → List (Nat × Nat) → State → State
  | 0, _, s => s
  | f + 1, ps, s =>
    match pickPart ps s with
    | (some a, s) =>
      State.hostSplit p base off v f (ps.filter (· ≠ a))
        (s.post (.hostBar2Write p (hostBase + base + a.1) a.2 (v / 256 ^ (a.1 - off) % 256 ^ a.2)))
    | (none, s) => s

/-- A host write: accepted or unsupported as a whole, then performed by its parts. -/
def execHostBar2Write (p off n v : Nat) (s : State) : Out :=
  done <|
    if hostBase ≤ off then s.event (.hostBar2Write p off n v) (hostStore p (off - hostBase) n v)
    else if !s.hostUp || n == 0 then s
    else
      match s.aperture p off n with
      | none => s.send .unsupported
      | some pa =>
        if (hostParts n off n).any fun a => s.inCoreMap a.1 then s.send .unsupported
        else State.hostSplit p (pa - off) off v n (hostParts n off n) s

/-- A host write of the partition is still to be performed, which a later read does not pass. -/
def State.hostWrites (s : State) (p : Nat) : Bool :=
  s.steps.any fun i => match i with
    | .hostBar2Write q _ _ _ => p == q
    | _ => false

/-- A part of a read is performed as an SO load (R297). -/
def hostLoad (p pa n : Nat) : M Nat := do
  let s ← get
  return sliceNat (← readLine (s.homeAgent p (s.steer p pa)) p pa) (pa % 128) n

/-- A host read: its parts are performed one by one, in no defined order, and `got` holds those that have been. -/
def execHostBar2Read (p off : Nat) (r : HostRead) (s : State) : Out :=
  done <|
    if hostBase ≤ off then
      let ps := (hostParts r.len off r.len).filter fun a => (aget r.got a.1).isNone
      if s.hostWrites p then s.park (.hostBar2Read p off r)
      else
        match pickPart ps s with
        | (none, s) =>
          s.send (.readData (r.got.foldl (fun v e => v + e.2 * 256 ^ (e.1 - off)) 0))
        | (some a, s) => s.event (.hostBar2Read p off r) do
          let v ← hostLoad p (a.1 - hostBase) a.2
          modify fun s => s.post (.hostBar2Read p off { r with got := aset r.got a.1 v })
    else if !s.hostUp || r.len == 0 then s
    else
      match s.aperture p off r.len with
      | none => s.send .unsupported
      | some pa => s.post (.hostBar2Read p (hostBase + pa) ⟨r.len, []⟩)

/-! ## SPDM, TDISP and IDE (R297, R299) -/

/-- The number of a function's connection with a responder: each function has its own (R295; DEDUCED: log entry
26). -/
def connOf (u : Asked) : Nat :=
  keyOf u.unit (match u.via with
    | .mgmt => 63
    | .tdi p => p)

/-- Units 0 to 31 are the dies, 32 and 33 the hubs. -/
def State.responder (s : State) (u : Asked) : Responder := (aget s.responders (connOf u)).getD .reset
def State.setResponder (s : State) (u : Asked) (r : Responder) : State :=
  { s with responders := aset s.responders (connOf u) r }

/-- The sessions of a responder, over all its connections. -/
def State.sessionsOf (s : State) (unit : Nat) : List (Nat × Bool) :=
  (s.responders.filter fun e => coreOf e.1 = unit).flatMap fun e => e.2.sessions

/-- A request reaches a responder that exists, through the host port: from function 0 every one, from a TDI those
of its partition's dies (R299). -/
def State.reaches (s : State) (u : Nat) (via : Via) : Bool :=
  s.hostUp && (if u < 32 then !s.retiredDies.contains u && (s.die u).powered else u < 34 && s.hubUp (u - 32)) &&
    match via with
    | .mgmt => true
    | .tdi p => u < 32 && (s.cfg p).dies.contains u

/-- A responder answers, or reports an error where the request is out of order or not supported. What it answers is
of its own identity, and the same each time but for a challenge or a session, which has a count of its own. -/
def State.answer (s : State) (u : Asked) (kind : Nat) (ok : Bool) (f : Responder → Responder) : State :=
  if !s.reaches u.unit u.via then s
  else if ok then
    let count := if kind < 6 then 0 else s.fresh + 1
    { (s.setResponder u (f (s.responder u))).send
        (.spdm u.unit kind (Config.spdmCode (Config.identity u.unit) kind count)) with
      fresh := s.fresh + 1 }
  else s.send (.spdmError u.unit)

def execGetVersion (u : Asked) (s : State) : Out :=
  done (s.answer u 1 true fun _ => ⟨true, false, false, []⟩)
def execGetCapabilities (u : Asked) (s : State) : Out :=
  done (s.answer u 2 (s.responder u).version fun r => { r with caps := true })
def execNegotiateAlgorithms (u : Asked) (ecdsaP256 sha256 : Bool) (s : State) : Out :=
  done (s.answer u 3 ((s.responder u).caps && ecdsaP256 && sha256) fun r => { r with algs := true })
def execGetDigests (u : Asked) (s : State) : Out := done (s.answer u 4 (s.responder u).algs id)
def execGetCertificate (u : Asked) (slot : Nat) (s : State) : Out :=
  done (s.answer u 5 ((s.responder u).algs && slot == 0) id)
def execChallenge (u : Asked) (slot : Nat) (s : State) : Out :=
  done (s.answer u 6 ((s.responder u).algs && slot == 0) id)

/-- The measurement blocks that a function may ask for (R299): block 4 is that of the TDI's partition, and of
every configured one for function 0. -/
def State.blocksFor (s : State) (via : Via) : List (Nat × BitVec 256) :=
  s.blocks ++ match via with
    | .mgmt => (s.parts.filter (·.2.configured)).map fun e => (4, e.2.measured)
    | .tdi p => [(4, (s.part p).measured)]

/-- Measurement blocks 1 to 5 (R299); index 0 asks for their number and 255 for all of them. -/
def execGetMeasurements (u : Asked) (index : Nat) (s : State) : Out :=
  done <|
    if !s.reaches u.unit u.via then s
    else if (s.responder u).algs && (index ≤ 5 || index == 255) then
      if index = 0 then s.send (.spdm u.unit 7 5)
      else s.send (.measurements u.unit ((s.blocksFor u.via).filter fun b => index = 255 || b.1 = index))
    else s.send (.spdmError u.unit)

/-- A new session, of which a responder has at most 4, under certificate slot 0. -/
def execKeyExchange (a : KeyAsk) (s : State) : Out :=
  done <|
    let u := a.toAsked
    let r := s.responder u
    let open_ := s.sessionsOf u.unit
    if !s.reaches u.unit u.via then s
    else if r.algs && a.slot == 0 && open_.length < 4 then
      let n := ((List.range 4).find? fun i => !open_.any fun e => e.1 = i).getD 0
      (s.setResponder u { r with sessions := r.sessions ++ [(n, false)] }).send (.session u.unit n)
    else s.send (.spdmError u.unit)

def execFinish (u : Asked) (session : Nat) (s : State) : Out :=
  done (s.answer u 8 ((s.responder u).sessions.contains (session, false)) fun r =>
    { r with sessions := r.sessions.map fun e => if e.1 = session then (session, true) else e })

def execEndSession (u : Asked) (session : Nat) (s : State) : Out :=
  done (s.answer u 9 ((s.responder u).sessions.contains (session, true)) fun r =>
    { r with sessions := r.sessions.filter fun e => e.1 ≠ session })

/-- The state a TDI goes to on a request. -/
def tdiNext : TdiSt → TdispReq → Option TdiSt
  | .unlocked, .lock => some .locked
  | .locked, .start => some .run
  | _, .stop => some .unlocked
  | _, _ => none

def execTdispRequest (p : Nat) (r : TdispReq) (s : State) : Out :=
  done <|
    if !s.hostUp then s
    else
      match tdiNext (s.part p).tdi r with
      | some t => (s.modPart p fun e => { e with tdi := t }).send (.tdisp p t)
      | none => s.send (.tdispError p)

/-- IDE keys, of the stream of a TDI or of function 0, are programmed only inside a session with hub 0. -/
def execIdeKeyProgram (f : Via) (session : Nat) (s : State) : Out :=
  done <|
    if !s.hostUp then s
    else if (s.responder ⟨32, .mgmt⟩).sessions.contains (session, true) then
      match f with
      | .mgmt => ({ s with ideMgmt := true } : State).send (.ideAck 63)
      | .tdi p => (s.modPart p fun e => { e with ideKey := true }).send (.ideAck p)
    else s.send (.spdmError 32)

/-! ## Time (R297, R300, R301) -/

def execPtmRequest (s : State) : Out := done (if s.hostUp then s.send (.ptm s.time) else s)

/-- The shared dies whose pair swaps as module time goes on to `t` (R292): each boundary of the period on the way
is a swap, and two of them leave a die as it was. -/
def State.swapsBy (s : State) (t : Nat) : List Nat :=
  s.parts.flatMap fun e =>
    if 0 < e.2.cfg.period && (t / e.2.cfg.period - s.time / e.2.cfg.period) % 2 == 1 then
      e.2.cfg.dies.filter fun d => (s.otherOn d e.1).any (e.1 < ·)
    else []

/-- Module time goes on to `t`, and never back (R301); shared dies swap at the boundaries that it passes. -/
def State.advanceTo (s : State) (t : Nat) : State :=
  { s with time := max s.time t
           urgent := s.urgent ++ (s.swapsBy (max s.time t)).map .partitionSwap }

/-- The times that a port has taken of this module's clock, after that has stepped forward. -/
def PtpPort.stepped (p : PtpPort) (n : Nat) : PtpPort :=
  { p with synced := p.synced + n, asked := p.asked + n, back := p.back + n }

/-- Module time is brought toward that of its source: more than 1 ms behind it steps forward; otherwise it slews
(R301). -/
def State.follow (s : State) (src source : Nat) : State :=
  let s : State := { s with timeSrc := src }
  if source > s.time + 1000000 then
    (({ s with slew := 0, ptp := s.ptp.map fun e => (e.1, e.2.stepped (source - s.time)) } : State).advanceTo
      source).unpark
  else { s with slew := (source : Int) - s.time }

/-- A correction from a configured IEEE 1588 port; or from PTM, which is the source only where no such port is
(R301). -/
def execModuleTimeCorrection (t : SourceTime) (s : State) : Out :=
  done <|
    if !t.ptm then s.follow 1 t.time
    else if s.timeSrc = 1 || !s.hostUp then s
    else s.follow 2 t.time

def execTimeSourceLoss (s : State) : Out :=
  done (({ s with timeSrc := 3, slew := 0 } : State).raiseAllSvc)

/-- The record of an IEEE 1588 port. -/
def State.ptpPort (s : State) (a : PtpAt) : PtpPort := (aget s.ptp (4 * a.hub + a.port)).getD ⟨0, 0, 0, 0, 0⟩
def State.setPtp (s : State) (a : PtpAt) (p : PtpPort) : State :=
  { s with ptp := aset s.ptp (4 * a.hub + a.port) p }

/-- Half of what a difference comes to, as a delay. -/
def halfOf (a b : Nat) : Nat := (a - b) / 2

/-- A message of IEEE 1588 at a port, timestamped there (R300), as the role of the module's clock takes it. A master
sends Sync when its interval is over, with
the time in a message that follows, and answers a Delay_Req. A receiver measures the path, end to end or peer to
peer as the choice says, and follows its master: the request leaves after that, and a step of the time moves what it
has timed before. Either end answers a Pdelay_Req, in two steps. -/
def execIeee1588Message (a : PtpAt) (m : PtpMsg) (s : State) : Out :=
  done <|
    if !(s.hubUp a.hub && a.port < 4) then s
    else
      let p := s.ptpPort a
      let say := fun (s : State) (m : PtpMsg) => s.send (.ieee1588 a.hub a.port m)
      match m, s.clockReceiver with
      | .pdelayReq, _ => say (say s (.pdelayResp s.time)) (.pdelayFollowUp s.time)
      | .sync, false => say (say s .sync) (.followUp s.time)
      | .delayReq, false => say s (.delayResp s.time)
      | .sync, true => s.setPtp a { p with synced := s.time }
      | .followUp t, true =>
        let s := s.follow 1 (t + p.delay + (s.time - p.synced))
        let s := s.setPtp a { s.ptpPort a with asked := s.time, reached := t }
        say s.dropChoice (if s.choice then .pdelayReq else .delayReq)
      | .delayResp t, true =>
        s.setPtp a { p with delay := halfOf (p.synced + t) (p.reached + p.asked) }
      | .pdelayResp t, true => s.setPtp a { p with reached := t, back := s.time }
      | .pdelayFollowUp t, true => s.setPtp a { p with delay := halfOf (p.reached + p.back) (p.asked + t) }
      | _, _ => s

/-! ## Temperature (R336) -/

/-- A junction sensor, of a die or of hub 32 or 33, is above the bound: a die's budget is halved. -/
def execTemperatureHigh (die : Nat) (s : State) : Out :=
  done <|
    if die < 32 then s.modDie die fun e => { e with halved := true }
    else { s with hotHubs := s.hotHubs.filter (· ≠ die - 32) ++ [die - 32] }

def execDieBelow100c (die : Nat) (s : State) : Out :=
  done <|
    if die < 32 then s.modDie die fun e => { e with halved := false }
    else { s with hotHubs := s.hotHubs.filter (· ≠ die - 32) }

/-- Every partition stops as on a fatal machine check, the cause is logged and the compute dies are
powered down (R278, R336). -/
def State.shutDown (s : State) (cause : LogEntry) : State :=
  let s := s.parts.foldl (fun s e => s.stopPart e.1) s
  ((List.range 32).foldl (fun s d => s.modDie d fun e => { e with powered := false }) s).log cause

def execThermalTrip (u : Nat) (s : State) : Out := done (s.shutDown (.thermal u))
def execCoolantFlowLoss (s : State) : Out := done (s.shutDown .coolant)

/-! ## Management (R337) -/

/-- What the tests found, as numbers. -/
def failureCode : Failure → List Nat
  | .hub h => [0, h]
  | .core c => [1, c]
  | .quad q => [2, q]
  | .die d => [3, d]
  | .lpddr d => [4, d]

/-- An entry of the error log, as numbers. -/
def LogEntry.code : LogEntry → List Nat
  | .packet p => [0, p]
  | .fatal p => [1, p]
  | .record p => [2, p]
  | .hold p => [3, p]
  | .thermal u => [4, u]
  | .coolant => [5]

/-- The units that the boot has retired (R331), coded as failures are: hub 1, the cores, the dies and the dies without LPDDR-6. -/
def State.retirements (s : State) : List Failure :=
  (if s.tests.contains (.hub 1) then [.hub 1] else []) ++ s.retiredCores.map .core ++ s.retiredDies.map .die ++
    ((List.range 32).filter fun d => !s.lpddrPresent d).map .lpddr

/-- What management reads: a core map while it is the partition's, whose lowest die it lies on; of a sensor, of the dies and then of the hubs, whether it is above the bound of R336. -/
def State.reading (s : State) : MgmtItem → List Nat
  | .tests => s.tests.flatMap failureCode
  | .retired => s.retirements.flatMap failureCode
  | .coreMap p =>
    let map := (s.part p).mapAt
    if (s.cfg p).dies.contains (map / 0x800000000) then [s.mem.readNat map 0x10000] else []
  | .meters => s.draw :: s.meters
  | .limits => s.moduleLimit :: (s.parts.flatMap fun e => [e.1, e.2.limit]) ++ s.rates.flatMap fun e => [e.1, e.2]
  | .sensors =>
    ((List.range 32).map fun d => if (s.die d).halved then 1 else 0) ++
      [0, 1].map fun h => if s.hotHubs.contains h then 1 else 0
  | .errors => s.errlog.flatMap LogEntry.code

/-- Management reads, through function 0 or a hub's Ethernet ports, and sets lower limits: of power below the fused
18 kW, of a link or port below its fused rate (R296, R334, R337). -/
def execManagementSetLimit (ethernet : Option Nat) (r : Mgmt) (s : State) : Out :=
  done <|
    let up := match ethernet with
      | none => s.hostUp
      | some h => s.hubUp h
    if !up then s
    else
      match r with
      | .limit p w =>
        if w > 18000 then s
        else
          (match p with
          | none => { s with moduleLimit := w }
          | some p => s.modPart p fun e => { e with limit := w }).recap
      | .clock r => { s with clockReceiver := r }
      | .rate link w => if w > Config.fusedRate link then s else { s with rates := aset s.rates link w }
      | .read i => s.send (.mgmt i (s.reading i))

end Sys2Proof.Machine
end

