-- ==== Sys2Proof/Machine/Dispatch.lean ====
section
/-! DEFINITION. The dispatch: one arm per constructor of Instr, one call of its meaning. -/

namespace Sys2Proof.Machine

def exec (i : Instr) (s : State) : Host.Outcome State Fault Refusal :=
  match i with
  | .timerArm k n => Sys2Proof.Machine.execTimerArm k n s
  | .timerDisarm k => Sys2Proof.Machine.execTimerDisarm k s
  | .spawnAnswer k c => Sys2Proof.Machine.execSpawnAnswer k c s
  | .bctabWrite k x asid v => Sys2Proof.Machine.execBctabWrite k x asid v s
  | .reclaimWrite k x asid v => Sys2Proof.Machine.execReclaimWrite k x asid v s
  | .migStart p => Sys2Proof.Machine.execMigStart p s
  | .migRelease p => Sys2Proof.Machine.execMigRelease p s
  | .migClear p => Sys2Proof.Machine.execMigClear p s
  | .migLineMove p => Sys2Proof.Machine.execMigLineMove p s
  | .migReleaseComplete p => Sys2Proof.Machine.execMigReleaseComplete p s
  | .timerExpiry k => Sys2Proof.Machine.execTimerExpiry k s
  | .eventRedirect k => Sys2Proof.Machine.execEventRedirect k s
  | .blockTimeout k x => Sys2Proof.Machine.execBlockTimeout k x s
  | .replyArrival k x => Sys2Proof.Machine.execReplyArrival k x s
  | .storeEcho k x home lost => Sys2Proof.Machine.execStoreEcho k x home lost s
  | .postedWriteArrival w => Sys2Proof.Machine.execPostedWriteArrival w s
  | .spillImageWrite k x => Sys2Proof.Machine.execSpillImageWrite k x s
  | .fillComplete k x => Sys2Proof.Machine.execFillComplete k x s
  | .contextEnd k x => Sys2Proof.Machine.execContextEnd k x s
  | .msgDecApply src k off => Sys2Proof.Machine.execMsgDecApply src k off s
  | .msgIncApply src k off => Sys2Proof.Machine.execMsgIncApply src k off s
  | .msgPutApply src k off v => Sys2Proof.Machine.execMsgPutApply src k off v s
  | .spawnRequestArrival r => Sys2Proof.Machine.execSpawnRequestArrival r s
  | .spawnAnswerArrival k x id ans => Sys2Proof.Machine.execSpawnAnswerArrival k x id ans s
  | .spawnWithdrawal k x id target => Sys2Proof.Machine.execSpawnWithdrawal k x id target s
  | .launchDieAccept id die => Sys2Proof.Machine.execLaunchDieAccept id die s
  | .launchShareStart id core inst => Sys2Proof.Machine.execLaunchShareStart id core inst s
  | .launchWindowClose id inst => Sys2Proof.Machine.execLaunchWindowClose id inst s
  | .launchQuadReport id quad inst => Sys2Proof.Machine.execLaunchQuadReport id quad inst s
  | .launchDieReport id die inst => Sys2Proof.Machine.execLaunchDieReport id die inst s
  | .launchCompletionWrite id inst => Sys2Proof.Machine.execLaunchCompletionWrite id inst s
  | .reservationHead l => Sys2Proof.Machine.execReservationHead l s
  | .writebackRequest owner k x a => Sys2Proof.Machine.execWritebackRequest owner k x a s
  | .writebackAcknowledgement owner c a => Sys2Proof.Machine.execWritebackAcknowledgement owner c a s
  | .reservationGrant k x a adv => Sys2Proof.Machine.execReservationGrant k x a adv s
  | .generationAdvance k x a => Sys2Proof.Machine.execGenerationAdvance k x a s
  | .scrHomeUpdate k x pa v => Sys2Proof.Machine.execScrHomeUpdate k x pa v s
  | .l1Sweep core part => Sys2Proof.Machine.execL1Sweep core part s
  | .llcLocusEviction l => Sys2Proof.Machine.execLlcLocusEviction l s
  | .l1Eviction core part asid vline => Sys2Proof.Machine.execL1Eviction core part asid vline s
  | .atomicLineRecall core line => Sys2Proof.Machine.execAtomicLineRecall core line s
  | .fenceProbe k x => Sys2Proof.Machine.execFenceProbe k x s
  | .linkRecoveryTimeout m => Sys2Proof.Machine.execLinkRecoveryTimeout m s
  | .waitHomeCompare k x va a expect d => Sys2Proof.Machine.execWaitHomeCompare k x va a expect d s
  | .wakeHome who part asid va max => Sys2Proof.Machine.execWakeHome who part asid va max s
  | .rds h line => Sys2Proof.Machine.execRds h line s
  | .rdx h line => Sys2Proof.Machine.execRdx h line s
  | .wbd h line data => Sys2Proof.Machine.execWbd h line data s
  | .notice h line => Sys2Proof.Machine.execNotice h line s
  | .fwds r req line st after => Sys2Proof.Machine.execFwds r req line st after s
  | .fwdx r req line st after => Sys2Proof.Machine.execFwdx r req line st after s
  | .inv r req line => Sys2Proof.Machine.execInv r req line s
  | .rcl h line st after => Sys2Proof.Machine.execRcl h line st after s
  | .probe h line => Sys2Proof.Machine.execProbe h line s
  | .hrd h line excl counts => Sys2Proof.Machine.execHrd h line excl counts s
  | .hwb h o data clear => Sys2Proof.Machine.execHwb h o data clear s
  | .hclr h o => Sys2Proof.Machine.execHclr h o s
  | .data r req line data dirty ack excl => Sys2Proof.Machine.execData r req line data dirty ack excl s
  | .invack r req line => Sys2Proof.Machine.execInvack r req line s
  | .nodata r req line f st after => Sys2Proof.Machine.execNodata r req line f st after s
  | .probeack h line st data pend => Sys2Proof.Machine.execProbeack h line st data pend s
  | .hack h o => Sys2Proof.Machine.execHack h o s
  | .grant h line n => Sys2Proof.Machine.execGrant h line n s
  | .wback h line dropped => Sys2Proof.Machine.execWback h line dropped s
  | .rel h line => Sys2Proof.Machine.execRel h line s
  | .hubFailureDeclaration die hub => Sys2Proof.Machine.execHubFailureDeclaration die hub s
  | .hubFailureReport hub => Sys2Proof.Machine.execHubFailureReport hub s
  | .switchFailure mods => Sys2Proof.Machine.execSwitchFailure mods s
  | .mtxEntryExecute k => Sys2Proof.Machine.execMtxEntryExecute k s
  | .jobStart k id => Sys2Proof.Machine.execJobStart k id s
  | .jobComplete k id => Sys2Proof.Machine.execJobComplete k id s
  | .jobFault k id detail => Sys2Proof.Machine.execJobFault k id detail s
  | .holdRelease k id => Sys2Proof.Machine.execHoldRelease k id s
  | .reclaimPush k id v => Sys2Proof.Machine.execReclaimPush k id v s
  | .translationWalk r => Sys2Proof.Machine.execTranslationWalk r s
  | .faultRecordPost f => Sys2Proof.Machine.execFaultRecordPost f s
  | .faultReply f code => Sys2Proof.Machine.execFaultReply f code s
  | .uncorrectableError k u => Sys2Proof.Machine.execUncorrectableError k u s
  | .machineCheck k x c => Sys2Proof.Machine.execMachineCheck k x c s
  | .machineCheckReply k x source code => Sys2Proof.Machine.execMachineCheckReply k x source code s
  | .fatalMachineCheck p => Sys2Proof.Machine.execFatalMachineCheck p s
  | .partitionSwap die => Sys2Proof.Machine.execPartitionSwap die s
  | .partitionConfigure cs => Sys2Proof.Machine.execPartitionConfigure cs s
  | .partitionReset r => Sys2Proof.Machine.execPartitionReset r s
  | .hostBar2Write p off n v => Sys2Proof.Machine.execHostBar2Write p off n v s
  | .hostBar2Read p off r => Sys2Proof.Machine.execHostBar2Read p off r s
  | .ldoor p slot => Sys2Proof.Machine.execLdoor p slot s
  | .wcmdAdd p => Sys2Proof.Machine.execWcmdAdd p s
  | .wcmdRemove p => Sys2Proof.Machine.execWcmdRemove p s
  | .launchWindowWrite p off n v => Sys2Proof.Machine.execLaunchWindowWrite p off n v s
  | .getVersion u => Sys2Proof.Machine.execGetVersion u s
  | .getCapabilities u => Sys2Proof.Machine.execGetCapabilities u s
  | .negotiateAlgorithms u ecdsaP256 sha256 => Sys2Proof.Machine.execNegotiateAlgorithms u ecdsaP256 sha256 s
  | .getDigests u => Sys2Proof.Machine.execGetDigests u s
  | .getCertificate u slot => Sys2Proof.Machine.execGetCertificate u slot s
  | .challenge u slot => Sys2Proof.Machine.execChallenge u slot s
  | .getMeasurements u index => Sys2Proof.Machine.execGetMeasurements u index s
  | .keyExchange u => Sys2Proof.Machine.execKeyExchange u s
  | .finish u session => Sys2Proof.Machine.execFinish u session s
  | .endSession u session => Sys2Proof.Machine.execEndSession u session s
  | .ptmRequest => Sys2Proof.Machine.execPtmRequest s
  | .moduleTimeCorrection t => Sys2Proof.Machine.execModuleTimeCorrection t s
  | .timeSourceLoss => Sys2Proof.Machine.execTimeSourceLoss s
  | .moduleReset => Sys2Proof.Machine.execModuleReset s
  | .powerInterval projected demand => Sys2Proof.Machine.execPowerInterval projected demand s
  | .temperatureHigh die => Sys2Proof.Machine.execTemperatureHigh die s
  | .thermalTrip u => Sys2Proof.Machine.execThermalTrip u s
  | .coolantFlowLoss => Sys2Proof.Machine.execCoolantFlowLoss s
  | .managementSetLimit ethernet r => Sys2Proof.Machine.execManagementSetLimit ethernet r s
  | .illegalInstruction w0 w1 => Sys2Proof.Machine.execIllegalInstruction w0 w1 s
  | .llcEviction die l => Sys2Proof.Machine.execLlcEviction die l s
  | .tdispRequest p r => Sys2Proof.Machine.execTdispRequest p r s
  | .ideKeyProgram f session => Sys2Proof.Machine.execIdeKeyProgram f session s
  | .ieee1588Message p m => Sys2Proof.Machine.execIeee1588Message p m s
  | .dieBelow100c die => Sys2Proof.Machine.execDieBelow100c die s
  | .aluAdd d a b => Sys2Proof.Machine.execAluAdd d a b s
  | .aluSub d a b => Sys2Proof.Machine.execAluSub d a b s
  | .aluAnd d a b => Sys2Proof.Machine.execAluAnd d a b s
  | .aluOr d a b => Sys2Proof.Machine.execAluOr d a b s
  | .aluXor d a b => Sys2Proof.Machine.execAluXor d a b s
  | .aluAndn d a b => Sys2Proof.Machine.execAluAndn d a b s
  | .aluShl d a b => Sys2Proof.Machine.execAluShl d a b s
  | .aluShr d a b => Sys2Proof.Machine.execAluShr d a b s
  | .aluSar d a b => Sys2Proof.Machine.execAluSar d a b s
  | .aluAddw d a b => Sys2Proof.Machine.execAluAddw d a b s
  | .aluSubw d a b => Sys2Proof.Machine.execAluSubw d a b s
  | .aluShlw d a b => Sys2Proof.Machine.execAluShlw d a b s
  | .aluShrw d a b => Sys2Proof.Machine.execAluShrw d a b s
  | .aluSarw d a b => Sys2Proof.Machine.execAluSarw d a b s
  | .aluMin d a b => Sys2Proof.Machine.execAluMin d a b s
  | .aluMax d a b => Sys2Proof.Machine.execAluMax d a b s
  | .aluMinu d a b => Sys2Proof.Machine.execAluMinu d a b s
  | .aluMaxu d a b => Sys2Proof.Machine.execAluMaxu d a b s
  | .aluSel d a b => Sys2Proof.Machine.execAluSel d a b s
  | .mulMul d a b => Sys2Proof.Machine.execMulMul d a b s
  | .mulMulh d a b => Sys2Proof.Machine.execMulMulh d a b s
  | .mulMulhu d a b => Sys2Proof.Machine.execMulMulhu d a b s
  | .mulMulw d a b => Sys2Proof.Machine.execMulMulw d a b s
  | .mulDiv d a b => Sys2Proof.Machine.execMulDiv d a b s
  | .mulDivu d a b => Sys2Proof.Machine.execMulDivu d a b s
  | .mulRem d a b => Sys2Proof.Machine.execMulRem d a b s
  | .mulRemu d a b => Sys2Proof.Machine.execMulRemu d a b s
  | .cmpEq d a b => Sys2Proof.Machine.execCmpEq d a b s
  | .cmpNe d a b => Sys2Proof.Machine.execCmpNe d a b s
  | .cmpLt d a b => Sys2Proof.Machine.execCmpLt d a b s
  | .cmpLtu d a b => Sys2Proof.Machine.execCmpLtu d a b s
  | .cmpLe d a b => Sys2Proof.Machine.execCmpLe d a b s
  | .cmpLeu d a b => Sys2Proof.Machine.execCmpLeu d a b s
  | .bitExt d a b => Sys2Proof.Machine.execBitExt d a b s
  | .bitExtu d a b => Sys2Proof.Machine.execBitExtu d a b s
  | .bitIns d a b => Sys2Proof.Machine.execBitIns d a b s
  | .bitClz d a => Sys2Proof.Machine.execBitClz d a s
  | .bitCtz d a => Sys2Proof.Machine.execBitCtz d a s
  | .bitPop d a => Sys2Proof.Machine.execBitPop d a s
  | .bitBswap d a => Sys2Proof.Machine.execBitBswap d a s
  | .aliAdd d a j => Sys2Proof.Machine.execAliAdd d a j s
  | .aliAnd d a j => Sys2Proof.Machine.execAliAnd d a j s
  | .aliOr d a j => Sys2Proof.Machine.execAliOr d a j s
  | .aliXor d a j => Sys2Proof.Machine.execAliXor d a j s
  | .aliShl d a j => Sys2Proof.Machine.execAliShl d a j s
  | .aliShr d a j => Sys2Proof.Machine.execAliShr d a j s
  | .aliSar d a j => Sys2Proof.Machine.execAliSar d a j s
  | .aliAddw d a j => Sys2Proof.Machine.execAliAddw d a j s
  | .aliLui d j => Sys2Proof.Machine.execAliLui d j s
  | .aliSlt d a j => Sys2Proof.Machine.execAliSlt d a j s
  | .lngLi d j => Sys2Proof.Machine.execLngLi d j s
  | .lngLih d a j => Sys2Proof.Machine.execLngLih d a j s
  | .lngAdd d a j => Sys2Proof.Machine.execLngAdd d a j s
  | .lngAnd d a j => Sys2Proof.Machine.execLngAnd d a j s
  | .lngOr d a j => Sys2Proof.Machine.execLngOr d a j s
  | .lngXor d a j => Sys2Proof.Machine.execLngXor d a j s
  | .lngCall d j => Sys2Proof.Machine.execLngCall d j s
  | .lngJmp j => Sys2Proof.Machine.execLngJmp j s
  | .lngLa d j => Sys2Proof.Machine.execLngLa d j s
  | .brcEq a b o => Sys2Proof.Machine.execBrcEq a b o s
  | .brcNe a b o => Sys2Proof.Machine.execBrcNe a b o s
  | .jmp o => Sys2Proof.Machine.execJmp o s
  | .ctlJr a k => Sys2Proof.Machine.execCtlJr a k s
  | .ctlCallr d a k => Sys2Proof.Machine.execCtlCallr d a k s
  | .ctlRet k => Sys2Proof.Machine.execCtlRet k s
  | .ctlJt d a => Sys2Proof.Machine.execCtlJt d a s
  | .ctlLoop d l n => Sys2Proof.Machine.execCtlLoop d l n s
  | .ctlLexit => Sys2Proof.Machine.execCtlLexit s
  | .ctlLpad label => Sys2Proof.Machine.execCtlLpad label s
  | .memLd d a sz sp o => Sys2Proof.Machine.execMemLd d a sz sp o s
  | .memLds d a sz sp o => Sys2Proof.Machine.execMemLds d a sz sp o s
  | .memSt d a sz sp o => Sys2Proof.Machine.execMemSt d a sz sp o s
  | .memWb a b => Sys2Proof.Machine.execMemWb a b s
  | .memInv a b => Sys2Proof.Machine.execMemInv a b s
  | .memPf a => Sys2Proof.Machine.execMemPf a s
  | .memZero a => Sys2Proof.Machine.execMemZero a s
  | .atmSwap d a b sz mo => Sys2Proof.Machine.execAtmSwap d a b sz mo s
  | .atmCas d a b sz mo => Sys2Proof.Machine.execAtmCas d a b sz mo s
  | .atmAdd d a b sz mo => Sys2Proof.Machine.execAtmAdd d a b sz mo s
  | .atmAnd d a b sz mo => Sys2Proof.Machine.execAtmAnd d a b sz mo s
  | .atmOr d a b sz mo => Sys2Proof.Machine.execAtmOr d a b sz mo s
  | .atmXor d a b sz mo => Sys2Proof.Machine.execAtmXor d a b sz mo s
  | .atmMin d a b sz mo => Sys2Proof.Machine.execAtmMin d a b sz mo s
  | .atmMax d a b sz mo => Sys2Proof.Machine.execAtmMax d a b sz mo s
  | .atmMinu d a b sz mo => Sys2Proof.Machine.execAtmMinu d a b sz mo s
  | .atmMaxu d a b sz mo => Sys2Proof.Machine.execAtmMaxu d a b sz mo s
  | .synLrw d a => Sys2Proof.Machine.execSynLrw d a s
  | .synScr d a b => Sys2Proof.Machine.execSynScr d a b s
  | .synFence c => Sys2Proof.Machine.execSynFence c s
  | .synWait d a b c => Sys2Proof.Machine.execSynWait d a b c s
  | .synWake d a b c => Sys2Proof.Machine.execSynWake d a b c s
  | .thrStart d a => Sys2Proof.Machine.execThrStart d a s
  | .thrStop d => Sys2Proof.Machine.execThrStop d s
  | .thrCont d => Sys2Proof.Machine.execThrCont d s
  | .thrSpill d a b => Sys2Proof.Machine.execThrSpill d a b s
  | .thrFill d a b => Sys2Proof.Machine.execThrFill d a b s
  | .thrExit => Sys2Proof.Machine.execThrExit s
  | .thrReap d => Sys2Proof.Machine.execThrReap d s
  | .thrRqpop d => Sys2Proof.Machine.execThrRqpop d s
  | .thrWatch d => Sys2Proof.Machine.execThrWatch d s
  | .thrUnwatch d => Sys2Proof.Machine.execThrUnwatch d s
  | .thrWait => Sys2Proof.Machine.execThrWait s
  | .thrIdle => Sys2Proof.Machine.execThrIdle s
  | .thrSpawn d a b => Sys2Proof.Machine.execThrSpawn d a b s
  | .thrLaunch d a => Sys2Proof.Machine.execThrLaunch d a s
  | .thrBind d a => Sys2Proof.Machine.execThrBind d a s
  | .thrSemp d => Sys2Proof.Machine.execThrSemp d s
  | .thrSemv d => Sys2Proof.Machine.execThrSemv d s
  | .thrYield => Sys2Proof.Machine.execThrYield s
  | .msgDec d a => Sys2Proof.Machine.execMsgDec d a s
  | .msgPut d a b => Sys2Proof.Machine.execMsgPut d a b s
  | .msgInc d a => Sys2Proof.Machine.execMsgInc d a s
  | .barSync d a b c => Sys2Proof.Machine.execBarSync d a b c s
  | .barInit d a => Sys2Proof.Machine.execBarInit d a s
  | .barArrive d a => Sys2Proof.Machine.execBarArrive d a s
  | .barWait d a b => Sys2Proof.Machine.execBarWait d a b s
  | .barExpect d a => Sys2Proof.Machine.execBarExpect d a s
  | .barAbort d => Sys2Proof.Machine.execBarAbort d s
  | .sysSrrd d idx => Sys2Proof.Machine.execSysSrrd d idx s
  | .sysSrwr d idx => Sys2Proof.Machine.execSysSrwr d idx s
  | .sysNow d => Sys2Proof.Machine.execSysNow d s
  | .sysCapq d a => Sys2Proof.Machine.execSysCapq d a s
  | .sysXinv d a => Sys2Proof.Machine.execSysXinv d a s
  | .sysPgref d a => Sys2Proof.Machine.execSysPgref d a s
  | .sysIflush => Sys2Proof.Machine.execSysIflush s
  | .sysScall a => Sys2Proof.Machine.execSysScall a s
  | .sysBrk => Sys2Proof.Machine.execSysBrk s
  | .sysFreply d a => Sys2Proof.Machine.execSysFreply d a s
  | .vfpAdd d a b q grp => Sys2Proof.Machine.execVfpAdd d a b q grp s
  | .vfpSub d a b q grp => Sys2Proof.Machine.execVfpSub d a b q grp s
  | .vfpMul d a b q grp => Sys2Proof.Machine.execVfpMul d a b q grp s
  | .vfpFma d a b q grp => Sys2Proof.Machine.execVfpFma d a b q grp s
  | .vfpFms d a b q grp => Sys2Proof.Machine.execVfpFms d a b q grp s
  | .vfpMin d a b q grp => Sys2Proof.Machine.execVfpMin d a b q grp s
  | .vfpMax d a b q grp => Sys2Proof.Machine.execVfpMax d a b q grp s
  | .vfpAbs d a q grp => Sys2Proof.Machine.execVfpAbs d a q grp s
  | .vfpNeg d a q grp => Sys2Proof.Machine.execVfpNeg d a q grp s
  | .vfpDiv d a b q grp => Sys2Proof.Machine.execVfpDiv d a b q grp s
  | .vfpSqrt d a q grp => Sys2Proof.Machine.execVfpSqrt d a q grp s
  | .vfpExp2 d a q grp => Sys2Proof.Machine.execVfpExp2 d a q grp s
  | .vfpCeq d a b q => Sys2Proof.Machine.execVfpCeq d a b q s
  | .vfpClt d a b q => Sys2Proof.Machine.execVfpClt d a b q s
  | .vfpCle d a b q => Sys2Proof.Machine.execVfpCle d a b q s
  | .vinAdd d a b q grp => Sys2Proof.Machine.execVinAdd d a b q grp s
  | .vinSub d a b q grp => Sys2Proof.Machine.execVinSub d a b q grp s
  | .vinMul d a b q grp => Sys2Proof.Machine.execVinMul d a b q grp s
  | .vinMulh d a b q grp => Sys2Proof.Machine.execVinMulh d a b q grp s
  | .vinAnd d a b q grp => Sys2Proof.Machine.execVinAnd d a b q grp s
  | .vinOr d a b q grp => Sys2Proof.Machine.execVinOr d a b q grp s
  | .vinXor d a b q grp => Sys2Proof.Machine.execVinXor d a b q grp s
  | .vinShl d a b q grp => Sys2Proof.Machine.execVinShl d a b q grp s
  | .vinShr d a b q grp => Sys2Proof.Machine.execVinShr d a b q grp s
  | .vinSar d a b q grp => Sys2Proof.Machine.execVinSar d a b q grp s
  | .vinMin d a b q grp => Sys2Proof.Machine.execVinMin d a b q grp s
  | .vinMax d a b q grp => Sys2Proof.Machine.execVinMax d a b q grp s
  | .vinMinu d a b q grp => Sys2Proof.Machine.execVinMinu d a b q grp s
  | .vinMaxu d a b q grp => Sys2Proof.Machine.execVinMaxu d a b q grp s
  | .vinAdds d a b q grp => Sys2Proof.Machine.execVinAdds d a b q grp s
  | .vinSubs d a b q grp => Sys2Proof.Machine.execVinSubs d a b q grp s
  | .vinCeq d a b q => Sys2Proof.Machine.execVinCeq d a b q s
  | .vinClt d a b q => Sys2Proof.Machine.execVinClt d a b q s
  | .vinCltu d a b q => Sys2Proof.Machine.execVinCltu d a b q s
  | .vmvMov d a q => Sys2Proof.Machine.execVmvMov d a q s
  | .vmvBcast d a q => Sys2Proof.Machine.execVmvBcast d a q s
  | .vmvSel d a b q => Sys2Proof.Machine.execVmvSel d a b q s
  | .vmvPerm d a b q => Sys2Proof.Machine.execVmvPerm d a b q s
  | .vmvRot d a b q => Sys2Proof.Machine.execVmvRot d a b q s
  | .vmvIns d a b => Sys2Proof.Machine.execVmvIns d a b s
  | .vmvExt d a b => Sys2Proof.Machine.execVmvExt d a b s
  | .vmvQand d a b => Sys2Proof.Machine.execVmvQand d a b s
  | .vmvQor d a b => Sys2Proof.Machine.execVmvQor d a b s
  | .vmvQnot d a => Sys2Proof.Machine.execVmvQnot d a s
  | .vmvQrd d a => Sys2Proof.Machine.execVmvQrd d a s
  | .vmvQwr d a => Sys2Proof.Machine.execVmvQwr d a s
  | .vrdFsum d a q => Sys2Proof.Machine.execVrdFsum d a q s
  | .vrdFmax d a q => Sys2Proof.Machine.execVrdFmax d a q s
  | .vrdFmin d a q => Sys2Proof.Machine.execVrdFmin d a q s
  | .vrdIsum d a q => Sys2Proof.Machine.execVrdIsum d a q s
  | .vrdImax d a q => Sys2Proof.Machine.execVrdImax d a q s
  | .vrdImin d a q => Sys2Proof.Machine.execVrdImin d a q s
  | .vrdImaxu d a q => Sys2Proof.Machine.execVrdImaxu d a q s
  | .vrdIminu d a q => Sys2Proof.Machine.execVrdIminu d a q s
  | .vcv d a q src dst => Sys2Proof.Machine.execVcv d a q src dst s
  | .vlsLd d a q sp => Sys2Proof.Machine.execVlsLd d a q sp s
  | .vlsSt d a q sp => Sys2Proof.Machine.execVlsSt d a q sp s
  | .vlsLds d a b q sp => Sys2Proof.Machine.execVlsLds d a b q sp s
  | .vlsSts d a b q sp => Sys2Proof.Machine.execVlsSts d a b q sp s
  | .vlsGath d a b q sp => Sys2Proof.Machine.execVlsGath d a b q sp s
  | .vlsScat d a b q sp => Sys2Proof.Machine.execVlsScat d a b q sp s
  | .mtxMma a b z => Sys2Proof.Machine.execMtxMma a b z s
  | .mtxMmav a b z => Sys2Proof.Machine.execMtxMmav a b z s
  | .mtxCfg d a => Sys2Proof.Machine.execMtxCfg d a s
  | .mtxSt a b z => Sys2Proof.Machine.execMtxSt a b z s
  | .mtxLd a z => Sys2Proof.Machine.execMtxLd a z s
  | .mtxZero z => Sys2Proof.Machine.execMtxZero z s
  | .mtxDrain => Sys2Proof.Machine.execMtxDrain s
  | .jobCopy d a b => Sys2Proof.Machine.execJobCopy d a b s
  | .jobCopyb d a b => Sys2Proof.Machine.execJobCopyb d a b s
  | .jobSubmit d a => Sys2Proof.Machine.execJobSubmit d a s
  | .jobFpwait d a b => Sys2Proof.Machine.execJobFpwait d a b s
  | .jobResume d a b => Sys2Proof.Machine.execJobResume d a b s
  | .jobPoll d a => Sys2Proof.Machine.execJobPoll d a s
  | .dynIclook d a => Sys2Proof.Machine.execDynIclook d a s
  | .dynIcfill a b => Sys2Proof.Machine.execDynIcfill a b s
  | .dynIcinv a => Sys2Proof.Machine.execDynIcinv a s
  | .dynNext d a => Sys2Proof.Machine.execDynNext d a s
  | .dynRcinc d a => Sys2Proof.Machine.execDynRcinc d a s
  | .dynRcdec d a => Sys2Proof.Machine.execDynRcdec d a s
  | .dynTag d a => Sys2Proof.Machine.execDynTag d a s
  | .dynShape d a => Sys2Proof.Machine.execDynShape d a s
  | .dynBoxf d a => Sys2Proof.Machine.execDynBoxf d a s
  | .dynUnboxf d a => Sys2Proof.Machine.execDynUnboxf d a s
  | .dynBoxi d a => Sys2Proof.Machine.execDynBoxi d a s
  | .dynUnboxi d a => Sys2Proof.Machine.execDynUnboxi d a s
  | .dynGuard a b o => Sys2Proof.Machine.execDynGuard a b o s

end Sys2Proof.Machine
end

