-- ==== Sys2Proof/Machine/Issue.lean ====
section
/-! DEFINITION. What a step does: completions (R92, R339), steps of the machine under way, what comes from
outside, the clock (R91, R99, R101), and the fetch and issue of a context's instruction (R29, R39, R91). -/

namespace Sys2Proof.Machine

/-! ## Issue (R29, R39, R91) -/

/-- An instruction with the words it was read from. -/
def State.running (s : State) (k : Nat) (x : Slot) (w0 w1 : W32) : State :=
  { s with cur := ⟨k, x, w0, w1, 0, none⟩ }

/-- The words at an address: the second is fetched only for a long form (R29). DESIGN CHOICE: also for one that its first
word makes illegal, whose second word's fetch may then be what stops it (R40; log entry 44). -/
def fetchWords (pc : Word) : M (W32 × W32) := do
  let w0 ← fetchWord pc
  if isLong w0 then return (w0, ← fetchWord (pc + 4)) else return (w0, 0)

/-- The fetch that a context waits to perform: for a resumption past an instruction only of its first word (R281). -/
def fetchNeeded (c : Ctx) : M Unit := do
  if c.skipping then let _ ← fetchWord c.pc else let _ ← fetchWords c.pc

/-- A resumption past an instruction whose length the fetch has now given (R281). -/
def Ctx.skipped (c : Ctx) (len : Nat) : Ctx := { c.advance len with skipping := false }

/-! ## What is metered (R334) -/

/-- The bytes of its slice that a word's instruction accesses. DESIGN CHOICE: a line for maintenance and for a vector
access (log entry 47). -/
def sliceBytes (w : W32) : Nat :=
  let fn := (fFn w).toNat
  match (fOp w).toNat with
  | 0x10 | 0x11 | 0x12 => if fSp w = 2 then 0 else 2 ^ ((fSz w).toNat % 4)
  | 0x13 => 128
  | 0x1F => if fCf w = 3 then 12 else 0
  | 0x23 => if (fFn9 w).extractLsb' 0 2 = 2 then 0 else 128
  | 0x18 => if (fFn w).getLsbD 4 then 8 else 4
  | 0x19 => if fn / 8 = 2 then 0 else 8
  | 0x2D => if fn % 256 = 2 then 128 else 0
  | 0x30 => if fn = 0xD then 64 else 0
  | 0x34 => if fn = 4 ∨ fn = 5 then 16 else if fn = 7 then 8 else 0
  | 0x35 => 8
  | _ => 0

/-- A vector operation (R35). -/
def isVector (w : W32) : Bool := 0x20 ≤ (fOp w).toNat && (fOp w).toNat ≤ 0x25

/-- A word whose issue starts a vector operation or a transfer of the slice. -/
def metered (w : W32) : Bool := isVector w || 0 < sliceBytes w

/-- The core whose slice an instruction of the issuer accesses in C space, by its first address (DESIGN
CHOICE: log entry 47). -/
def State.sliceCore (s : State) (i : Instr) : Nat :=
  match i with
  | .memLd _ a sz .c o | .memLds _ a sz .c o | .memSt _ a sz .c o => cCore (effAddr (s.rg a) o (sizeBytes sz))
  | .vlsLd _ a _ .c | .vlsSt _ a _ .c | .vlsLds _ a _ _ .c | .vlsSts _ a _ _ .c | .vlsGath _ a _ _ .c
  | .vlsScat _ a _ _ .c => cCore (s.rg a)
  | _ => s.myCore

/-- What a word spends that decodes to `i`, and on which die: the weight of a vector operation, and that of the bytes of
a slice. -/
def State.charges (s : State) (i : Instr) (w : W32) : List (Nat × Nat) :=
  (if isVector w then [(s.myDie, Config.vectorEnergy)] else []) ++
    if 0 < sliceBytes w then [(dieOfCore (s.sliceCore i), Config.sliceEnergy * sliceBytes w)] else []

/-- A die on which something is spent may draw no more. -/
def State.anySpent (s : State) (l : List (Nat × Nat)) : Bool := l.any fun e => s.spent e.1

/-- All of it is spent, or counts toward demand. -/
def State.spendAll (s : State) (l : List (Nat × Nat)) : State := l.foldl (fun s e => s.spend e.1 e.2) s
def State.holdsBackAll (s : State) (l : List (Nat × Nat)) : State := l.foldl (fun s e => s.holdsBack e.1 e.2) s

/-- How far a job has come. -/
def State.progress (s : State) (k id : Nat) : Nat :=
  (((s.core k).jobs.find? fun j => j.id = id).map (·.prog)).getD 0

/-- The state of a context that a step ends has gone. -/
def State.left (s t : State) (k : Nat) (x : Slot) (c : CtxSt) : Bool := (s.ctx k x).st == c && (t.ctx k x).st != c

/-- The bytes of an image of a context (R106). -/
def imageBytes : Nat := 512

/-- The bytes of a slice that a step from `s` to `t` accesses: of a core, a word for a message, and another for a task
that goes to the ring; an entry of the inbox, or its valid bit (R110, R111, R114). -/
def State.stepBytes (s t : State) : Instr → Option (Nat × Nat)
  | .msgDecApply _ k _ => some (k, if (s.core k).ring.length < (t.core k).ring.length then 16 else 8)
  | .msgIncApply _ k _ | .msgPutApply _ k _ _ => some (k, 8)
  | .spawnRequestArrival r =>
    some (r.target, if (s.core r.target).inbox.length < (t.core r.target).inbox.length then 64 else 0)
  | .spawnAnswer k _ => some (k, if (s.core k).inbox.isEmpty then 0 else 8)
  | .spillImageWrite k x => some (k, if s.left t k x .spilling then imageBytes else 0)
  | .fillComplete k x => some (k, if s.left t k x .filling then imageBytes else 0)
  | _ => none

/-- The die on which a step from `s` to `t` spends, and what (R334): an entry of a matrix queue, a piece of a job, and
what is written or read in a slice. -/
def State.costOf (s t : State) : Instr → Option (Nat × Nat)
  | .mtxEntryExecute k => some (dieOfCore (coreOf k), (((s.core k).mqueue.head?).map MEntry.cost).getD 0)
  | .jobStart k id =>
    some (dieOfCore (coreOf k), (t.progress k id - s.progress k id) * (Config.copyEnergy + Config.sliceEnergy))
  | i => (s.stepBytes t i).map fun b => (dieOfCore (coreOf b.1), Config.sliceEnergy * b.2)

/-- An outcome's next state changed. -/
def onNext (f : State → State) : Out → Out
  | .next t => .next (f t)
  | o => o

/-- The die that performs a step of the machine, which does nothing while it is powered down (R336). -/
def State.stepDie (s : State) (i : Instr) : Option Nat :=
  let line := fun (l : Nat) => if isPodLine l then none else some (homeDie l)
  match i with
  | .timerArm k _ | .timerDisarm k | .spawnAnswer k _ | .bctabWrite k _ _ _ | .reclaimWrite k _ _ _
  | .mtxEntryExecute k | .jobStart k _ | .jobComplete k _ | .jobFault k _ _ | .holdRelease k _ | .reclaimPush k _ _
  | .timerExpiry k | .eventRedirect k | .blockTimeout k _ | .replyArrival k _ | .storeEcho k _ _ _
  | .spillImageWrite k _ | .fillComplete k _ | .contextEnd k _ | .msgDecApply _ k _ | .msgIncApply _ k _
  | .msgPutApply _ k _ _ | .spawnAnswerArrival k _ _ _ | .spawnWithdrawal _ _ _ k | .writebackRequest k _ _ _
  | .writebackAcknowledgement k _ _ | .reservationGrant k _ _ _ | .generationAdvance k _ _ | .fenceProbe k _
  | .machineCheck k _ _ | .machineCheckReply k _ _ _ | .uncorrectableError k _ => some (dieOfCore (coreOf k))
  | .spawnRequestArrival r => some (dieOfCore (coreOf r.target))
  | .launchShareStart _ core _ | .l1Sweep core _ | .l1Eviction core _ _ _ | .atomicLineRecall core _ =>
    some (dieOfCore core)
  | .launchDieAccept _ d | .launchDieReport _ d _ | .llcEviction d _ | .partitionSwap d | .hubFailureDeclaration d _ =>
    some d
  | .launchQuadReport _ q _ => some (q / 2048)
  | .postedWriteArrival w => some w.die
  | .translationWalk r => some r.die
  | .scrHomeUpdate _ _ pa _ => line (lineOf pa)
  | .waitHomeCompare _ _ _ a _ _ => line (lineOf a.at_)
  | .reservationHead l | .llcLocusEviction l => line l.line
  | .migLineMove p => line (lineOf ((s.part p).mig.src.toNat * 4096))
  | .faultRecordPost f => (s.ringFor f.req.part (whoCore f.req.who)).map fun r => dieOfCore r.1
  | i => (message i).bind fun m => if m.1.dst < 32 then some m.1.dst else none

def State.asleep (s : State) (i : Instr) : Bool := (s.stepDie i).any fun d => !(s.die d).powered

/-- What a step of the machine does, as the access that it makes: what a die has received for it alone stays while it
waits (R162). -/
def execStep (i : Instr) (s : State) : Out :=
  onNext (fun t =>
    let t : State := { t with cur := { t.cur with step := none } }
    if i ∈ t.parked then t else t.doneWith (.step i)) (exec i { s with cur := { s.cur with step := some i } })

/-- A step of the machine is performed. One that starts what its die may not draw now is not, and waits (R20, R334); so
does one of a die that is powered down (R336). -/
def perform (i : Instr) (s : State) : Out :=
  if s.asleep i then .next (s.park i)
  else
    onNext (fun t =>
      match s.costOf t i with
      | none => t
      | some (d, n) => if s.spent d && n ≠ 0 then (s.holdsBack d n).park i else t.spend d n) (execStep i s)

/-! ## A context's words -/

/-- What an instruction has done is no start of a command or a transfer: it waits for a token and has not issued, or it
is illegal, as a masked one is (R41). -/
def Ctx.unstarted (c : Ctx) : Bool := c.wait.any Wait.isToken || (c.st == .trapped && c.cause == 1)

/-- The words of a context execute: the instruction they decode to, or an illegal one (R39). What is metered is spent;
where a die that it draws on may draw no more, it is not started, and the state is `held`, with what it would have
spent (R334). -/
noncomputable def startWords (k : Nat) (x : Slot) (w0 w1 : W32) (held s : State) : Out :=
  let r := s.running k x w0 w1
  match decode w0 w1 with
  | .error _ => exec (.illegalInstruction w0 w1) r
  | .ok i =>
    let o := exec i r
    let l := r.charges i w0
    if !metered w0 then o
    else if s.anySpent l then onNext (fun t => if (t.ctx k x).unstarted then t else held.holdsBackAll l) o
    else onNext (fun t => if (t.ctx k x).unstarted then t else t.spendAll l) o

/-- A word whose wait sr.blkto times from its start: SYN.LRW and SYN.WAIT (R101, R335). -/
def timedWord (w : W32) : Bool := (fOp w).toNat == 0x19 && ((fFn w).toNat / 8 == 0 || (fFn w).toNat / 8 == 3)

/-- A context leaves rotation until what it draws on may be drawn on again. -/
def State.heldWords (s : State) (k : Nat) (x : Slot) (w0 w1 : W32) : State :=
  (s.running k x w0 w1).block (.power (timedWord w0))

noncomputable def runWords (k : Nat) (x : Slot) (w0 w1 : W32) (s : State) : Out :=
  startWords k x w0 w1 (s.heldWords k x w0 w1) s

/-- What becomes of a context whose fetch did not give its words. -/
def fetchStops (k : Nat) (x : Slot) (e : Stop) (s : State) : State :=
  match e with
  | .trap c v => (s.trap c v).modCtx k x fun t => { t with tlen := none }
  | .block w => (s.block w).modCtx k x fun c => { c with fetched := none, deadline := none }
  | .err => (s.trap 0x04 (s.ctx k x).pc).modCtx k x fun t => { t with tlen := none }

/-- A context fetches and executes its next instruction, with the writes of the window that waited for that
(R282). A resumption past an instruction needs only its first word (R281). -/
noncomputable def runContext (k : Nat) (x : Slot) (s : State) : Out :=
  let s := (s.modCtx k x Ctx.flushed).running k x 0 0
  if (s.ctx k x).skipping then
    match fetchWord (s.ctx k x).pc s with
    | .ok w0 s => .next (s.modCtx k x fun c => c.skipped (wordLength w0))
    | .error e s => .next (fetchStops k x e s)
  else
    match fetchWords (s.ctx k x).pc s with
    | .ok (w0, w1) s => runWords k x w0 w1 s
    | .error e s => .next (fetchStops k x e s)

/-- A context may issue in its cycle: it is in rotation, with no instruction that is still to be over (R91). -/
def State.mayIssue (s : State) (k : Nat) (x : Slot) : Bool :=
  (s.ctx k x).st == .run && (s.ctx k x).fetched.isNone && s.mayRun k

/-- The context that owns this cycle (R91). -/
def State.owner (s : State) : Slot := Fin.ofNat 16 s.cycle

/-! ## The clock (R91, R99, R101, R301) -/

/-- One cycle less of a timer, for a core whose partition runs (R293). -/
def State.tickTimer (s : State) (k : Nat) : State :=
  let n := (s.core k).timer
  if n = 0 then s
  else if n = 1 then (s.modCore k fun c => { c with timer := 0 }).start (.timerExpiry k)
  else s.modCore k fun c => { c with timer := n - 1 }

/-- One cycle less of a block timeout (R101): it expires in the wait that it times. -/
def State.tickWait (s : State) (k : Nat) (x : Slot) : State :=
  let c := s.ctx k x
  match c.deadline with
  | none => s
  | some n =>
    if n ≤ 1 && c.wait.any Wait.timed then
      (s.modCtx k x fun c => { c with deadline := none }).start (.blockTimeout k x)
    else s.modCtx k x fun c => { c with deadline := some (n - 1) }

/-- The nanoseconds that a cycle adds to module time, at 3.3 GHz, and what is then left of a correction: a
nanosecond more or less in every two thousand while the time slews, so at most 500 ppm (R301). -/
def State.nanoseconds (s : State) : Nat × Int :=
  let a := s.cycle * 10 / 33
  let b := (s.cycle + 1) * 10 / 33
  if b = a ∨ b % 2000 ≠ 0 ∨ s.slew = 0 then (b - a, s.slew)
  else if 0 < s.slew then (b - a + 1, s.slew - 1)
  else (b - a - 1, s.slew + 1)

/-- Module time goes on (R301). Every microsecond the power controller acts: it projects that the next interval
draws what this one did and what it held back (R334). -/
def State.tickTime (s : State) : State :=
  let t := ({ s with slew := s.nanoseconds.2 } : State).advanceTo (s.time + s.nanoseconds.1)
  let b := (s.cycle + 1) * 10 / 33
  if b ≠ s.cycle * 10 / 33 ∧ b % 1000 = 0 then
    t.start (.powerInterval (Config.staticDraw + t.demands.sum) t.demands)
  else t

/-- An access is still made, or waits. -/
def State.pendingAccess (s : State) : Asker → Bool
  | .ctx k x => (s.ctx k x).outstanding
  | .step i => s.steps.contains i

/-- What dies have received for an access that is no longer made is gone (R162). -/
def State.clearOnce (s : State) : State :=
  { s with dies := s.dies.map fun e => (e.1, { e.2 with once := e.2.once.filter fun o => s.pendingAccess o.asker }) }

/-- Every `SYS.XINV` that waits looks again (R268, R275). -/
def State.tickXinv (s : State) : State :=
  s.cores.foldl (fun s e => (List.finRange 16).foldl (fun s x => s.xinvOn e.1 x) s) s

/-- The end of a cycle: the next context owns the next one. What waits for a way of a directory is looked at
again, and removals of inline-cache entries and of translations are made (R171, R268, R308). -/
def State.tick (s : State) : State :=
  let s := s.tickTime
  let s := s.cores.foldl (fun s e =>
    if s.runsOn (partOf e.1) (dieOfCore (coreOf e.1)) then
      (List.finRange 16).foldl (fun s x => s.tickWait e.1 x) (s.tickTimer e.1)
    else s) s
  { s.serve.icRemove.tickXinv.clearOnce with cycle := s.cycle + 1, turn := 0 }.unpark

/-- An event is there for an idle context 0 (R98). -/
def State.redirects (s : State) (k : Nat) (x : Slot) : Bool :=
  x == 0 && (s.core k).delivery && (s.core k).event != 0 && s.mayRun k

/-- The core whose turn it is issues, if the context that owns the cycle may, or redirects its idle context 0; after
the last core the cycle ends. -/
noncomputable def issueTurn (s : State) : Out :=
  match s.cores[s.turn]? with
  | none => .next s.tick
  | some (k, _) =>
    let s' : State := { s with turn := s.turn + 1 }
    if s.mayIssue k s.owner then runContext k s.owner s'
    else if s.redirects k s.owner then exec (.eventRedirect k) s'
    else .next s'

/-! ## Completions (R92, R339) -/

/-- The instructions that a spill or an end withdraws while they wait (R95, R106). -/
def withdrawable : Instr → Bool
  | .thrWait | .thrSemp _ | .thrSpawn _ _ _ | .barWait _ _ _ | .barSync _ _ _ _ | .synWait _ _ _ _ | .synLrw _ _
  | .jobFpwait _ _ _ => true
  | _ => false

/-- An instruction whose wait is over executes again with the words it was read from. One that has not begun its
own wait when its context is spilled or ended is withdrawn instead, with no effect (R95, R106). A fetch whose line has
come is performed with it, into the buffers of its core (R162), and the context issues in a cycle that it owns (R91).
One that may not run waits until it may (R277, R278, R293), and one that its die held back starts if the die may draw
again (R334). -/
noncomputable def retryContext (k : Nat) (x : Slot) (s : State) : Out :=
  let c := s.ctx k x
  let served := fun (t : State) => if (t.ctx k x).outstanding then t else t.doneWith (.ctx k x)
  let ended := onNext fun t => served (t.modCtx k x Ctx.vlsOver)
  if !s.mayRun k then .next s
  else
    match c.wait, c.fetched with
    | some (.power _), some (w0, w1) =>
      ended (startWords k x w0 w1 s (s.modCtx k x Ctx.woken))
    | some _, _ => .next s
    | none, none =>
      match fetchNeeded c (s.running k x 0 0) with
      | .ok _ t => .next (served t)
      | .error e t => .next (served (if c.st = .run then fetchStops k x e t else s))
    | none, some (w0, w1) =>
      match decode w0 w1 with
      | .ok i =>
        if (c.st == .spilling || c.ending) && withdrawable i then .next (served (s.modCtx k x Ctx.settled).unpark)
        else ended (exec i (s.running k x w0 w1))
      | .error _ => exec (.illegalInstruction w0 w1) (s.running k x w0 w1)

/-! ## Steps under way -/

/-- The class of a message, which has a network of its own (R172, R173). -/
def classOf : Instr → Nat
  | .rds _ _ | .rdx _ _ | .wbd _ _ _ | .notice _ _ => 0
  | .fwds _ _ _ _ _ | .fwdx _ _ _ _ _ | .inv _ _ _ | .rcl _ _ _ _ | .probe _ _ | .hrd _ _ _ _ | .hwb _ _ _ _
  | .hclr _ _ => 1
  | .grant _ _ _ | .wback _ _ _ | .rel _ _ => 3
  | _ => 2

/-- The channel on which a message travels, in whose order its messages arrive (R110, R128, R172, R339), and that
of the host's writes of a partition (R127, R297): steps without one are in no order. -/
def channel (i : Instr) : Option (List Nat) :=
  match i with
  | .msgDecApply src k _ | .msgIncApply src k _ | .msgPutApply src k _ _ => some [0, src, k]
  | .postedWriteArrival w =>
    match w.by_ with
    | .store k _ | .maint k _ => some [1, coreOf k, lineOf w.pa]
    | .evict c => some [1, c, lineOf w.pa]
  | .hostBar2Write p _ _ _ => some [2, p]
  | i => (message i).map fun m => [3, classOf i, m.1.src, m.1.dst]

/-- The steps under way that may be taken next: none whose channel an earlier one holds. -/
def eligible : List (List Nat) → List Instr → List Instr
  | _, [] => []
  | seen, i :: t =>
    match channel i with
    | some c => if seen.contains c then eligible seen t else i :: eligible (c :: seen) t
    | none => i :: eligible seen t

/-- The channel that a parked step holds. One whose answer a die holds back has left its channel (R176). -/
def heldChannel : Instr → Option (List Nat)
  | .rel _ _ | .wback _ _ _ => none
  | i => channel i

/-- A step under way is taken. -/
def deliver (i : Instr) (s : State) : Out := perform i { s with flight := s.flight.erase i }

/-- What `sched` says is next: 0 the turn of a core, n + 1 the n-th step that may be taken; with nothing
said, the oldest such step, or the turn of a core. -/
noncomputable def scheduled (s : State) : Out :=
  let can := eligible (s.parked.filterMap heldChannel) s.flight
  match s.sched with
  | [] =>
    match can with
    | i :: _ => deliver i s
    | [] => issueTurn s
  | 0 :: t => issueTurn { s with sched := t }
  | (n + 1) :: t =>
    match can[n]? with
    | some i => deliver i { s with sched := t }
    | none => issueTurn { s with sched := t }

/-! ## What comes from outside -/

/-- The steps that the outside, firmware and the autonomous hardware take: the rest of the machine's steps
follow from these, from instructions and from the clock. Messages of the pod come from the switch (R187). -/
def isInput (i : Instr) : Bool :=
  match i with
  | .l1Sweep _ _ | .llcLocusEviction _ | .l1Eviction _ _ _ _ | .atomicLineRecall _ _ | .llcEviction _ _
  | .linkRecoveryTimeout _ | .hubFailureDeclaration _ _ | .switchFailure _ | .uncorrectableError _ _
  | .partitionConfigure _ | .partitionReset _ | .ldoor _ _ | .wcmdAdd _ | .wcmdRemove _
  | .launchWindowWrite _ _ _ _ | .getVersion _ | .getCapabilities _ | .negotiateAlgorithms _ _ _
  | .getDigests _ | .getCertificate _ _ | .challenge _ _ | .getMeasurements _ _ | .keyExchange _
  | .finish _ _ | .endSession _ _ | .ptmRequest | .moduleTimeCorrection _ | .timeSourceLoss
  | .moduleReset | .temperatureHigh _ | .thermalTrip _ | .coolantFlowLoss | .managementSetLimit _ _
  | .tdispRequest _ _ | .ideKeyProgram _ _ | .ieee1588Message _ _ | .dieBelow100c _ => true
  | .hostBar2Write _ off _ _ | .hostBar2Read _ off _ => off < hostBase
  | i => (message i).any fun m => m.1.src = 34

/-- An input is taken. What a die that is powered down would do by itself does not happen (R336). -/
def takeInput (i : Instr) (s : State) : Out :=
  if !isInput i then .fault .notAnInput else if s.asleep i then .next s else execStep i s

/-- The first input, if its cycle has come. -/
def State.dueInput (s : State) : Option (Instr × State) :=
  match s.inputs with
  | (n, i) :: t => if n ≤ s.cycle then some (i, { s with inputs := t }) else none
  | [] => none

/-- One step: a completion, a step that nothing may come before, an input that is due, or what the
schedule says. -/
noncomputable def stepOnce (s : State) : Out :=
  match s.retry with
  | (k, x) :: t => retryContext k x { s with retry := t }
  | [] =>
    match s.urgent with
    | i :: t => perform i { s with urgent := t }
    | [] =>
      match s.dueInput with
      | some (i, s') => takeInput i s'
      | none => scheduled s

/-! ## A program placed from outside -/

/-- Where `placed` puts a program: a page of die 0 above the core map. -/
def programAt : Nat := 0x20000

/-- A partition of die 0 alone, under key 0. -/
def programCfg : PartCfg :=
  { State.emptyCfg with dies := [0], keys := [0], w := 0x80000, svcCore := 1, lrs := [(0, 2, 0)], limit := 18000 }

/-- A leaf that allows reading and executing the page at `programAt`. -/
def programLeaf : Word := BitVec.ofNat 64 (programAt / 4096 * 1024 + 0xCB)

/-- The line at `programAt` is held by no buffer of a core, and core 0 has fetched nothing of partition 0. -/
def CoreHw.readied (c : Nat) (h : CoreHw) : CoreHw :=
  let keep := fun (f : FetchLine) => ¬ (c = 0 ∧ f.part = 0)
  { h with
    alb := h.alb.filter fun l => l.line ≠ programAt / 128
    lbuf := h.lbuf.filter keep
    l1i := h.l1i.filter keep }

/-- Context 0 of core 0 ready to issue at `programAt` in the next step. -/
def State.ready (s : State) : State :=
  let s := s.setPart 0 { State.emptyPart with cfg := programCfg }
  let c := s.ctx 0 0
  let s := s.setCtx 0 0 { c with
    st := .run, pc := BitVec.ofNat 64 programAt, wait := none, fetched := none, skipping := false, ending := false
    stopping := false, wwrites := [] }
  let s := s.modCore 0 fun c => { c with halted := false }
  let s : State := { s with capped := false, parts := s.parts.map fun e => (e.1, { e.2 with capped := false }) }
  let leaf : XEntry := ⟨0, c.asid, programAt / 4096, 0, programLeaf⟩
  let s := s.modDie 0 fun d => { d with
    xlat := (xlatSlice c.asid (BitVec.ofNat 64 programAt), leaf) :: d.xlat
    running := none, powered := true, budget := none, halved := false }
  let line := programAt / 128
  { s with
    hw := s.hw.map fun e => (e.1, e.2.readied e.1)
    fetch := s.fetch.filter fun f => !(f.1 = 0 && f.2.part = 0)
    exported := s.exported.filter (· ≠ tagOf line 0)
    sync := adel s.sync (tagOf line 0)
    keys := adel s.keys line
    poisoned := s.poisoned.filter (· ≠ tagOf line 0)
    memErr := s.memErr.filter (· ≠ tagOf line 0)
    retiredDies := s.retiredDies.filter (· ≠ 0)
    retiredRanges := []
    retry := []
    urgent := []
    inputs := []
    sched := 0 :: s.sched
    choices := []
    cycle := s.cycle / 16 * 16
    turn := 0 }

/-- The words of an instruction at `programAt`, little-endian (R3). -/
def State.placed (s : State) (w : Nat) : State :=
  { s.ready with mem := s.ready.mem.writeNat programAt 8 (w % 2 ^ 64) }

end Sys2Proof.Machine
end

