-- ==== Sys2Proof/Safety.lean ====
section
/-! DEFINITION. The terms in which claims are stated: the canonical form of every memory, what an
instruction leaves alone, and what it is to be ready to complete. -/

namespace Sys2Proof.Machine

/-! ## The invariant -/

/-- Every sparse memory of the machine is in its canonical form: near memory and local memories, each
core's operand store, each partition's launch slots. -/
def State.wf (s : State) : Bool :=
  s.mem.wf && s.cores.all (fun e => e.2.ostore.wf) && s.parts.all (fun e => e.2.win.slots.wf)

/-! ## Frames -/

/-- Context `e` is context `c` but for its general registers, its PC, the two loop counts that the end
check writes (R83), its state, and what it held for the instruction that is over or still waits (R92). -/
def Ctx.keeps (c e : Ctx) : Prop :=
  e = { c with
    g := e.g, pc := e.pc, st := e.st
    loop0 := { c.loop0 with count := e.loop0.count }
    loop1 := { c.loop1 with count := e.loop1.count }
    wait := e.wait, deadline := e.deadline, fetched := e.fetched, replies := e.replies
    acq := e.acq, refused := e.refused, card := e.card, taken := e.taken }

/-- From `s` to `t` nothing changes but the issuing context. -/
def State.onlyMe (s t : State) : Prop := t = s.setMe t.me

/-- The frame of an instruction whose only destination is general register `d` (g0 for none). -/
def registerFrame (d : Reg) (s t : State) : Prop :=
  s.onlyMe t ∧ s.me.keeps t.me ∧ ∀ r : Reg, r ≠ d → t.rg r = s.rg r

/-- The destination of each instruction that changes one general register and nothing else but the PC and
the loop counts, and never traps (R68 to R73, R76, R285): g0 for a branch or a landing pad (R74, R75, R77). -/
def registerOnly : Instr → Option Reg
  | .aluAdd d _ _ | .aluSub d _ _ | .aluAnd d _ _ | .aluOr d _ _ | .aluXor d _ _ | .aluAndn d _ _
  | .aluShl d _ _ | .aluShr d _ _ | .aluSar d _ _ | .aluAddw d _ _ | .aluSubw d _ _ | .aluShlw d _ _
  | .aluShrw d _ _ | .aluSarw d _ _ | .aluMin d _ _ | .aluMax d _ _ | .aluMinu d _ _ | .aluMaxu d _ _
  | .aluSel d _ _ => some d
  | .mulMul d _ _ | .mulMulh d _ _ | .mulMulhu d _ _ | .mulMulw d _ _ | .mulDiv d _ _ | .mulDivu d _ _
  | .mulRem d _ _ | .mulRemu d _ _ => some d
  | .cmpEq d _ _ | .cmpNe d _ _ | .cmpLt d _ _ | .cmpLtu d _ _ | .cmpLe d _ _ | .cmpLeu d _ _ => some d
  | .bitExt d _ _ | .bitExtu d _ _ | .bitIns d _ _ | .bitClz d _ | .bitCtz d _ | .bitPop d _
  | .bitBswap d _ => some d
  | .aliAdd d _ _ | .aliAnd d _ _ | .aliOr d _ _ | .aliXor d _ _ | .aliShl d _ _ | .aliShr d _ _
  | .aliSar d _ _ | .aliAddw d _ _ | .aliLui d _ | .aliSlt d _ _ => some d
  | .lngLi d _ | .lngLih d _ _ | .lngAdd d _ _ | .lngAnd d _ _ | .lngOr d _ _ | .lngXor d _ _
  | .lngLa d _ | .lngCall d _ => some d
  | .sysNow d | .sysCapq d _ => some d
  | .brcEq _ _ _ | .brcNe _ _ _ | .jmp _ | .lngJmp _ | .ctlLpad _ => some 0
  | _ => none

/-! ## Completion -/

/-- The instruction completes with result `v` in register `d`: sequentially, by the end check (R67, R83). -/
def gives (s : State) (i : Instr) (d : Reg) (v : Word) : Prop := exec i s = .next (s.result d v)

/-- The instruction, or the step, takes the machine from `s` to `t`. -/
def takes (i : Instr) (s t : State) : Prop := exec i s = .next t

/-- The instruction completes sequentially and writes lane `l` of member `k` of the group of `n` vector registers
from `d` with `f k l`, for every lane; no other vector register and nothing else changes (R210, R214). -/
def writesLanes (s : State) (i : Instr) (d : Reg) (n : Nat) (f : Nat → Nat → W32) : Prop :=
  ∃ c : Core, takes i s (s.modMine fun _ => c).seq ∧ c = { s.mine with v := c.v } ∧
    ∀ r : Reg, ∀ l < 32, c.lane r l = if (r - d).toNat < n then f (r - d).toNat l else s.mine.lane r l

/-- The instruction completes sequentially and writes bit `l` of mask register `d` with `f l`; no other mask
register and nothing else changes (R210, R215). -/
def writesMask (s : State) (i : Instr) (d : QReg) (f : Nat → Bool) : Prop :=
  ∃ c : Core, takes i s (s.modMine fun _ => c).seq ∧ c = { s.mine with q := c.q } ∧
    (∀ m : QReg, m ≠ d → c.q[m.toFin] = s.mine.q[m.toFin]) ∧ ∀ l < 32, (c.q[d.toFin]).getLsbD l = f l

/-- `U(x)` and `S(x)` of R67, and the two ways a number becomes a register value again. -/
abbrev U (x : Word) : Nat := x.toNat
abbrev S (x : Word) : Int := x.toInt
abbrev wrapU (n : Nat) : Word := BitVec.ofNat 64 n
abbrev wrapS (n : Int) : Word := BitVec.ofInt 64 n
abbrev wrap16 (n : Nat) : BitVec 16 := BitVec.ofNat 16 n

end Sys2Proof.Machine
end

