-- ==== Sys2Proof/Certificates/Slice0/Obligations.lean ====
section
/-! DEFINITION. The statements put to the provers: first how words stand for instructions and what a step
is, then the families of the opcode table in its order, then the further steps of the machine. -/

open Sys2Proof Sys2Proof.Machine

/-! ## Words and steps -/

/-- Words written out from the spec stand for the instructions that the spec says they are: the worked
encodings of the chapters. -/
def Obligations.WorkedEncodings : Prop :=
  decode 0x04A02801 0 = .ok (.aluSub 5 0 5) ∧
  decode 0x04000000 0 = .ok (.aluAdd 0 0 0) ∧
  decode 0x7C00F040 0 = .ok (.ctlLpad 0x0040) ∧
  decode 0x7C2E1030 0 = .ok (.ctlCallr 1 14 0x030) ∧
  decode 0xD1940000 0 = .ok (.dynIclook 12 20) ∧
  decode 0xD7540018 0 = .ok (.dynGuard 26 20 24) ∧
  decode 0xE1060001 0 = .ok (.sysCapq 8 6) ∧
  decode 0xE1490003 0 = .ok (.sysPgref 10 9) ∧
  decode 0xE0000004 0 = .ok .sysIflush ∧
  decode 0xDA800000 0 = .ok (.sysSrrd 20 0x000) ∧
  decode 0xDD000042 0 = .ok (.sysSrwr 8 0x042) ∧
  decode 0xB60A6001 0 = .ok (.jobCopyb 16 10 12)

/-- Every word of a well-formed instruction decodes to it: no bit of an operand is dropped or moved
(R29 to R38). -/
def Obligations.DecodeEncode : Prop :=
  ∀ i : Instr, i.wf = true → ∀ w rest, encode i = w :: rest →
    decode w (rest.headD 0) = .ok i ∧ rest.length = (if isLong w then 1 else 0)

/-- A word that decodes is the word of the instruction it decodes to: no two words stand for one
instruction, so every reserved bit is checked (R29 to R39); and a word of major 0x00, 0x3F or an unassigned
major is illegal, whatever its other bits (R35, R39). -/
def Obligations.EncodeDecode : Prop :=
  (∀ w imm i, decode w imm = .ok i → i.wf = true ∧ encode i = if isLong w then [w, imm] else [w]) ∧
  ∀ w imm : W32, (fOp w).toNat ∈ [0x00, 0x0F, 0x14, 0x15, 0x16, 0x17, 0x1A, 0x1B, 0x26, 0x27, 0x28, 0x29, 0x2A,
      0x2B, 0x2E, 0x2F, 0x33, 0x39, 0x3A, 0x3B, 0x3E, 0x3F] →
    decode w imm = .error .major

/-- When nothing is under way before it and it is the turn of a core whose context owns the cycle, a step
runs the instruction that the bytes at the PC decode to, and the illegal-instruction step for bytes that
decode to none (R29, R39, R91). The core whose turn it is passes it on before its context fetches, and the writes of
the window that waited for this issue are made first (R282). What is metered is spent, and where a die that it draws
on may draw no more it does not start: its context leaves rotation (R334; log entries 28 and 47); an instruction that waits for a token
and an illegal word spend nothing (R41, R93). -/
def Obligations.StepRunsTheDecodedInstruction : Prop :=
  ∀ (s s1 : State) (k : Nat) (c : Core) (rest : List Nat) (w0 w1 : W32),
    s.retry = [] → s.urgent = [] → s.dueInput = none → s.sched = 0 :: rest →
    s.cores[s.turn]? = some (k, c) →
    let before : State := { s with sched := rest, turn := s.turn + 1 }
    let x := before.owner
    let start := (before.modCtx k x Ctx.flushed).running k x 0 0
    before.mayIssue k x = true →
    (start.ctx k x).skipping = false →
    fetchWords (start.ctx k x).pc start = .ok (w0, w1) s1 →
    let run := s1.running k x w0 w1
    (∀ i, decode w0 w1 = .ok i →
      (metered w0 = false → step s = exec i run) ∧
      ∀ t, metered w0 = true → exec i run = .next t →
        let spends := run.charges i w0
        let held := (s1.heldWords k x w0 w1).holdsBackAll spends
        ((t.ctx k x).unstarted = true → step s = .next t) ∧
        ((t.ctx k x).unstarted = false →
          (run.anySpent spends = false → step s = .next (t.spendAll spends)) ∧
          (run.anySpent spends = true → step s = .next held ∧
            (held.ctx k x).wait = some (.power (timedWord w0))))) ∧
    (∀ e, decode w0 w1 = .error e → step s = exec (.illegalInstruction w0 w1) run)

/-- No instruction and no step of the machine ends in a fault or a refusal: each answers a next state, in
every state and for every operand, a trap being one (R39, R40, R92, R279). -/
def Obligations.ExecAlwaysAnswers : Prop := ∀ (i : Instr) (s : State), ∃ t, exec i s = .next t

/-- A step never refuses, and stops only on an input that the outside cannot give: illegal words trap (R39, R40). That a
word or an event that is no input stops the machine as `notAnInput` is the model's choice (log entry 40). -/
def Obligations.StepStopsOnlyOnAForeignInput : Prop :=
  ∀ s : State, (∀ r, step s ≠ .refused r) ∧
    (∀ r, step s = .fault r → r = .notAnInput ∧
      ∃ n i rest, s.inputs = (n, i) :: rest ∧ n ≤ s.cycle ∧ isInput i = false)

/-- The state after reset has every memory in canonical form, which is the model's own (log entry 6). -/
def Obligations.ResetIsCanonical : Prop := State.reset.wf = true

/-- Every step keeps every memory in canonical form: near memory and local memories, operand stores and
launch slots. The form, and that a byte which none has written reads 0, which R296 says of a reset, is the model's
choice (log entry 6). -/
def Obligations.StepKeepsMemoryCanonical : Prop :=
  ∀ s t : State, s.wf = true → step s = .next t → t.wf = true

/-! ## Integer instructions -/

/-- The ALU functions (R68). -/
def Obligations.AluFunctions : Prop :=
  ∀ (s : State) (d a b : Reg), s.pendingOf [d, a, b] = false →
    let x := s.rg a
    let y := s.rg b
    gives s (.aluAdd d a b) d (wrapU (U x + U y)) ∧
    gives s (.aluSub d a b) d (wrapS (S x - S y)) ∧
    gives s (.aluAnd d a b) d (x &&& y) ∧
    gives s (.aluOr d a b) d (x ||| y) ∧
    gives s (.aluXor d a b) d (x ^^^ y) ∧
    gives s (.aluAndn d a b) d (x &&& ~~~y) ∧
    gives s (.aluShl d a b) d (wrapU (U x * 2 ^ (U y % 64))) ∧
    gives s (.aluShr d a b) d (wrapU (U x / 2 ^ (U y % 64))) ∧
    gives s (.aluSar d a b) d (wrapS (S x / 2 ^ (U y % 64))) ∧
    gives s (.aluAddw d a b) d (se32 (wrapU (U x + U y))) ∧
    gives s (.aluSubw d a b) d (se32 (wrapS (S x - S y))) ∧
    gives s (.aluShlw d a b) d (se32 (wrapU (U x % 2 ^ 32 * 2 ^ (U y % 32)))) ∧
    gives s (.aluShrw d a b) d (se32 (wrapU (U x % 2 ^ 32 / 2 ^ (U y % 32)))) ∧
    gives s (.aluSarw d a b) d (se32 (wrapS (S (se32 x) / 2 ^ (U y % 32)))) ∧
    gives s (.aluMin d a b) d (if S x ≤ S y then x else y) ∧
    gives s (.aluMax d a b) d (if S x ≥ S y then x else y) ∧
    gives s (.aluMinu d a b) d (if U x ≤ U y then x else y) ∧
    gives s (.aluMaxu d a b) d (if U x ≥ U y then x else y) ∧
    gives s (.aluSel d a b) d (if s.rg d ≠ 0 then x else y)

/-- The MUL functions (R69), the two borderline cases included. -/
def Obligations.MulFunctions : Prop :=
  ∀ (s : State) (d a b : Reg), s.pendingOf [d, a, b] = false →
    let x := s.rg a
    let y := s.rg b
    gives s (.mulMul d a b) d (wrapU (U x * U y)) ∧
    gives s (.mulMulh d a b) d (wrapS (S x * S y / 2 ^ 64)) ∧
    gives s (.mulMulhu d a b) d (wrapU (U x * U y / 2 ^ 64)) ∧
    gives s (.mulMulw d a b) d (se32 (wrapU (U x % 2 ^ 32 * (U y % 2 ^ 32)))) ∧
    gives s (.mulDiv d a b) d (if y = 0 then 0xFFFFFFFFFFFFFFFF else wrapS ((S x).tdiv (S y))) ∧
    gives s (.mulDivu d a b) d (if y = 0 then 0xFFFFFFFFFFFFFFFF else wrapU (U x / U y)) ∧
    gives s (.mulRem d a b) d (if y = 0 then x else wrapS ((S x).tmod (S y))) ∧
    gives s (.mulRemu d a b) d (if y = 0 then x else wrapU (U x % U y)) ∧
    (x = 0x8000000000000000 → y = 0xFFFFFFFFFFFFFFFF →
      gives s (.mulDiv d a b) d 0x8000000000000000 ∧ gives s (.mulRem d a b) d 0)

/-- The CMP functions write 1 when their condition holds, and 0 otherwise (R70). -/
def Obligations.CompareFunctions : Prop :=
  ∀ (s : State) (d a b : Reg), s.pendingOf [d, a, b] = false →
    let x := s.rg a
    let y := s.rg b
    gives s (.cmpEq d a b) d (if x = y then 1 else 0) ∧
    gives s (.cmpNe d a b) d (if x ≠ y then 1 else 0) ∧
    gives s (.cmpLt d a b) d (if S x < S y then 1 else 0) ∧
    gives s (.cmpLtu d a b) d (if U x < U y then 1 else 0) ∧
    gives s (.cmpLe d a b) d (if S x ≤ S y then 1 else 0) ∧
    gives s (.cmpLeu d a b) d (if U x ≤ U y then 1 else 0)

/-- The BIT functions, bit by bit (R71): the field starts at bit g[b][5:0] and is g[b][13:8] + 1 bits wide,
cut at bit 63. -/
def Obligations.BitFunctions : Prop :=
  ∀ (s : State) (d a b : Reg), s.pendingOf [d, a, b] = false →
    let x := s.rg a
    let lo := U (s.rg b) % 64
    let w := min (U (s.rg b) / 256 % 64 + 1) (64 - lo)
    (∃ v, gives s (.bitExt d a b) d v ∧
      ∀ i < 64, v.getLsbD i = if i < w then x.getLsbD (lo + i) else x.getLsbD (lo + w - 1)) ∧
    (∃ v, gives s (.bitExtu d a b) d v ∧ ∀ i < 64, v.getLsbD i = if i < w then x.getLsbD (lo + i) else false) ∧
    (∃ v, gives s (.bitIns d a b) d v ∧
      ∀ i < 64, v.getLsbD i = if lo ≤ i ∧ i < lo + w then x.getLsbD (i - lo) else (s.rg d).getLsbD i) ∧
    (∃ n ≤ 64, gives s (.bitClz d a) d (wrapU n) ∧ (∀ i < n, x.getLsbD (63 - i) = false) ∧
      (n < 64 → x.getLsbD (63 - n) = true)) ∧
    (∃ n ≤ 64, gives s (.bitCtz d a) d (wrapU n) ∧ (∀ i < n, x.getLsbD i = false) ∧
      (n < 64 → x.getLsbD n = true)) ∧
    gives s (.bitPop d a) d (wrapU ((List.range 64).filter fun i => x.getLsbD i).length) ∧
    (∃ v, gives s (.bitBswap d a) d v ∧
      ∀ j < 8, ∀ i < 8, v.getLsbD (8 * j + i) = x.getLsbD (8 * (7 - j) + i))

/-- The immediate forms (R72), the long arithmetic forms (R73) and LNG.LA (R76). -/
def Obligations.ImmediateFunctions : Prop :=
  ∀ (s : State) (d a : Reg) (i : BitVec 16) (n : BitVec 6) (j : BitVec 32), s.pendingOf [d, a] = false →
    let x := s.rg a
    gives s (.aliAdd d a i) d (wrapS (S x + i.toInt)) ∧
    gives s (.aliAnd d a i) d (x &&& wrapU i.toNat) ∧
    gives s (.aliOr d a i) d (x ||| wrapU i.toNat) ∧
    gives s (.aliXor d a i) d (x ^^^ wrapU i.toNat) ∧
    gives s (.aliShl d a n) d (wrapU (U x * 2 ^ n.toNat)) ∧
    gives s (.aliShr d a n) d (wrapU (U x / 2 ^ n.toNat)) ∧
    gives s (.aliSar d a n) d (wrapS (S x / 2 ^ n.toNat)) ∧
    gives s (.aliAddw d a i) d (se32 (wrapS (S x + i.toInt))) ∧
    gives s (.aliLui d i) d (se32 (wrapU (i.toNat * 0x10000))) ∧
    gives s (.aliSlt d a i) d (if S x < i.toInt then 1 else 0) ∧
    gives s (.lngLi d j) d (wrapS j.toInt) ∧
    gives s (.lngLih d a j) d (wrapU (j.toNat * 2 ^ 32 + U x % 2 ^ 32)) ∧
    gives s (.lngAdd d a j) d (wrapS (S x + j.toInt)) ∧
    gives s (.lngAnd d a j) d (x &&& wrapS j.toInt) ∧
    gives s (.lngOr d a j) d (x ||| wrapU j.toNat) ∧
    gives s (.lngXor d a j) d (x ^^^ wrapU j.toNat) ∧
    gives s (.lngLa d j) d (s.me.pc + wrapS j.toInt)

/-- Branches and direct jumps: where each transfers to, and when a branch is sequential (R74 to R76). A
long form stands at an address that is a multiple of 4 with a displacement that is one (R39). -/
def Obligations.DirectTransfers : Prop :=
  ∀ (s : State) (d a b : Reg) (o : BitVec 16) (j : BitVec 26) (i : BitVec 32), s.pendingOf [d, a, b] = false →
    takes (.brcEq a b o) s (if s.rg a = s.rg b then s.jump (s.me.pc + wrapS (o.toInt * 4)) else s.seq) ∧
    takes (.brcNe a b o) s (if s.rg a ≠ s.rg b then s.jump (s.me.pc + wrapS (o.toInt * 4)) else s.seq) ∧
    takes (.jmp j) s (s.jump (s.me.pc + wrapS (j.toInt * 4))) ∧
    takes (.lngCall d i) s ((s.wg d (s.me.pc + 8)).jump (s.me.pc + wrapS i.toInt)) ∧
    takes (.lngJmp i) s (s.jump (s.me.pc + wrapS i.toInt)) ∧
    (s.jump (s.me.pc + wrapS i.toInt)).me.pc = s.me.pc + wrapS i.toInt

/-- What a register result is: the register reads the value unless it is g0, which reads 0 (R31, R67); the
PC goes where the end check sends it; no other register changes. -/
def Obligations.ResultWritesOneRegister : Prop :=
  ∀ (s : State) (d : Reg) (v : Word),
    (s.result d v).rg d = (if d = 0 then 0 else v) ∧ registerFrame d s (s.result d v) ∧
    (s.result d v).me.pc = s.seq.me.pc ∧
    (s.result d v).me.loop0 = s.seq.me.loop0 ∧ (s.result d v).me.loop1 = s.seq.me.loop1

/-- The end check of a sequential completion (R83): level 1 first, then level 0, each counting down at its
last instruction and looping back while its count stays nonzero; else the next address. -/
def Obligations.EndCheck : Prop :=
  ∀ s : State,
    let c := s.me
    let next := c.pc + wrapU s.len
    let t := s.seq.me
    let at1 := c.loop1.count ≠ 0 ∧ c.pc = c.loop1.last
    let at0 := c.loop0.count ≠ 0 ∧ c.pc = c.loop0.last
    (at1 ∧ c.loop1.count ≠ 1 → t.pc = c.loop1.start ∧ t.loop1.count = c.loop1.count - 1 ∧
      t.loop0.count = c.loop0.count) ∧
    (at1 ∧ c.loop1.count = 1 → t.loop1.count = 0) ∧
    (¬ at1 → t.loop1.count = c.loop1.count) ∧
    (¬ (at1 ∧ c.loop1.count ≠ 1) →
      (at0 ∧ c.loop0.count ≠ 1 → t.pc = c.loop0.start ∧ t.loop0.count = c.loop0.count - 1) ∧
      (at0 ∧ c.loop0.count = 1 → t.pc = next ∧ t.loop0.count = 0) ∧
      (¬ at0 → t.pc = next ∧ t.loop0.count = c.loop0.count)) ∧
    registerFrame 0 s s.seq ∧ (s.len = 4 ∨ s.len = 8)

/-- An instruction that changes one register, or only the PC, leaves everything else of the machine as it
was, whether it completes or waits for a pending register: every other register, special register and
context, every memory, and the rest of the state (R67, R93). -/
def Obligations.RegisterInstructionsFrame : Prop :=
  ∀ (i : Instr) (d : Reg), registerOnly i = some d → ∀ s t : State, exec i s = .next t → registerFrame d s t

/-- An instruction that names a register with a result still to come waits for it with nothing else changed, and
keeps its words to execute again (R92, R93): the integer families in every form, register, immediate, long and branch,
the transfers, the loads and stores, and the waiting instructions. -/
def Obligations.PendingRegisterBlocks : Prop :=
  ∀ (s : State) (d a b r : Reg) (i : BitVec 16) (n : BitVec 6) (j : BitVec 32) (k : BitVec 12) (o : BitVec 11)
    (sz : MSize) (sp : Space), r ≠ 0 → s.me.pend.getLsbD r.toNat = true →
    let waits := fun (q : Instr) => ∃ t, takes q s t ∧ (∃ n, t.me.wait = some (.token n) ∧ n.getLsbD r.toNat = true) ∧
      t.me.fetched = some (s.cur.w0, s.cur.w1) ∧ t.me.pc = s.me.pc ∧ registerFrame 0 s t ∧
      (s.me.st = .run → t.me.st = .blocked)
    (r ∈ [d, a, b] →
      ∀ q ∈ [Instr.aluAdd d a b, .aluSub d a b, .aluAnd d a b, .aluOr d a b, .aluXor d a b, .aluAndn d a b,
        .aluShl d a b, .aluShr d a b, .aluSar d a b, .aluAddw d a b, .aluSubw d a b, .aluShlw d a b,
        .aluShrw d a b, .aluSarw d a b, .aluMin d a b, .aluMax d a b, .aluMinu d a b, .aluMaxu d a b,
        .aluSel d a b, .mulMul d a b, .mulMulh d a b, .mulMulhu d a b, .mulMulw d a b, .mulDiv d a b,
        .mulDivu d a b, .mulRem d a b, .mulRemu d a b, .cmpEq d a b, .cmpNe d a b, .cmpLt d a b, .cmpLtu d a b,
        .cmpLe d a b, .cmpLeu d a b, .bitExt d a b, .bitExtu d a b, .bitIns d a b, .synScr d a b, .thrSpill d a b,
        .thrFill d a b, .thrSpawn d a b, .msgPut d a b, .barWait d a b, .jobFpwait d a b], waits q) ∧
    (r ∈ [d, a] →
      ∀ q ∈ [Instr.bitClz d a, .bitCtz d a, .bitPop d a, .bitBswap d a, .aliAdd d a i, .aliAnd d a i, .aliOr d a i,
        .aliXor d a i, .aliShl d a n, .aliShr d a n, .aliSar d a n, .aliAddw d a i, .aliSlt d a i, .lngLih d a j,
        .lngAdd d a j, .lngAnd d a j, .lngOr d a j, .lngXor d a j, .brcEq d a i, .brcNe d a i, .ctlCallr d a k,
        .ctlJt d a, .memLd d a sz sp o, .memLds d a sz sp o, .memSt d a sz sp o, .synLrw d a, .thrStart d a],
        waits q) ∧
    (r = d → ∀ q ∈ [Instr.aliLui d i, .lngLi d j, .lngLa d j, .lngCall d j, .ctlJr d k, .ctlLoop d .l0 o,
      .ctlLoop d .l1 o], waits q)

/-! ## Control (R77 to R84) -/

/-- The register transfers go to an aligned target at which the fetch finds the landing pad that carries
the expected label; CTL.CALLR also saves PC + 4 in its destination. A target that is no multiple of 4 raises cause
0x03, and any other word there cause 0x02 (R78, R79). CTL.JT reads the table's header and the entry of its index,
entry 0 for an index out of range, and transfers to the base plus that entry, where the header's label must stand; a
base that is no multiple of 8 raises cause 0x03, an empty table cause 0x02 (R80). -/
def Obligations.IndirectTransfers : Prop :=
  ∀ (s s1 s2 s3 : State) (d a : Reg) (k : BitVec 12) (w : W32) (h e : Nat), s.pendingOf [d, a] = false →
    let pad := encode (.ctlLpad (k.setWidth 16))
    (U (s.rg a) % 4 = 0 → fetchWord (s.rg a) s = .ok w s1 →
      (pad = [w] → takes (.ctlJr a k) s (s1.jump (s.rg a)) ∧
        takes (.ctlCallr d a k) s ((s1.wg d (s1.me.pc + 4)).jump (s.rg a))) ∧
      (pad ≠ [w] → takes (.ctlJr a k) s (s1.trap 0x02 (s.rg a)) ∧
        takes (.ctlCallr d a k) s (s1.trap 0x02 (s.rg a)))) ∧
    (U (s.rg a) % 4 ≠ 0 →
      takes (.ctlJr a k) s (s.trap 0x03 (s.rg a)) ∧ takes (.ctlCallr d a k) s (s.trap 0x03 (s.rg a))) ∧
    (s.pendingOf [1] = false → U (s.rg 1) % 4 = 0 → fetchWord (s.rg 1) s = .ok w s1 →
      (pad = [w] → takes (.ctlRet k) s (s1.jump (s.rg 1))) ∧
      (pad ≠ [w] → takes (.ctlRet k) s (s1.trap 0x02 (s.rg 1)))) ∧
    (s.pendingOf [1] = false → U (s.rg 1) % 4 ≠ 0 → takes (.ctlRet k) s (s.trap 0x03 (s.rg 1))) ∧
    (U (s.rg a) % 8 ≠ 0 → takes (.ctlJt d a) s (s.trap 0x03 (s.rg a))) ∧
    (U (s.rg a) % 8 = 0 → loadG (s.rg a) 8 s = .ok h s1 → h < 2 ^ 64 →
      (h / 2 ^ 32 = 0 → takes (.ctlJt d a) s (s1.trap 0x02 (s.rg a))) ∧
      (h / 2 ^ 32 ≠ 0 →
        let n := if U (s.rg d) < h / 2 ^ 32 then U (s.rg d) else 0
        let t := s.rg a + wrapS (BitVec.ofNat 32 e).toInt
        loadG (s.rg a + 8 + wrapU (4 * n)) 4 s1 = .ok e s2 → U t % 4 = 0 → fetchWord t s2 = .ok w s3 →
        encode (.ctlLpad (BitVec.ofNat 16 h)) = [w] → takes (.ctlJt d a) s (s3.jump t)))

/-- CTL.LOOP sets its level and goes on when its count is nonzero, else ends the level and passes the body;
CTL.LEXIT ends the innermost active level; a landing pad in sequence has no effect (R77, R82, R84). -/
def Obligations.LoopInstructions : Prop :=
  ∀ (s s1 : State) (d : Reg) (n : BitVec 11) (label : BitVec 16) (w : W32), s.pendingOf [d] = false →
    let c := s.me
    let last := c.pc + wrapU (4 * n.toNat)
    (s.rg d ≠ 0 →
      takes (.ctlLoop d .l0 n) s (s.setMe { c with loop0 := ⟨c.pc + 4, last, s.rg d⟩ }).seq ∧
      takes (.ctlLoop d .l1 n) s (s.setMe { c with loop1 := ⟨c.pc + 4, last, s.rg d⟩ }).seq) ∧
    (s.rg d = 0 → fetchWord last s = .ok w s1 →
      let next := last + if isLong w then 8 else 4
      takes (.ctlLoop d .l0 n) s
        ((s1.setMe { s1.me with loop0 := { s1.me.loop0 with count := 0 } }).jump next) ∧
      takes (.ctlLoop d .l1 n) s
        ((s1.setMe { s1.me with loop1 := { s1.me.loop1 with count := 0 } }).jump next)) ∧
    (c.loop1.count ≠ 0 → takes .ctlLexit s (s.setMe { c with loop1 := { c.loop1 with count := 0 } }).seq) ∧
    (c.loop1.count = 0 → takes .ctlLexit s (s.setMe { c with loop0 := { c.loop0 with count := 0 } }).seq) ∧
    takes (.ctlLpad label) s s.seq

/-! ## Loads, stores and maintenance (R125 to R138) -/

/-- Loads from the own local memory, the operand store and, in C space, the own core's local memory give the
bytes there, zero-extended by MEM.LD and sign-extended by MEM.LDS (R125, R131). -/
def Obligations.LoadsFromLocalMemories : Prop :=
  ∀ (s : State) (d a : Reg) (sz : MSize) (o : BitVec 11), s.pendingOf [d, a] = false →
    let n := sizeBytes sz
    let e := s.rg a + wrapS (o.toInt * n)
    let own := localLoc s.myCore (s.localBase s.myPart)
    (U e % n = 0 → U e + n ≤ s.window s.myPart →
      gives s (.memLd d a sz .l o) d (wrapU (s.mem.readNat (own + U e) n)) ∧
      gives s (.memLds d a sz .l o) d (wrapS (BitVec.ofNat (8 * n) (s.mem.readNat (own + U e) n)).toInt)) ∧
    (U e % n = 0 → U e + n ≤ 32768 →
      gives s (.memLd d a sz .o o) d (wrapU (s.mine.ostore.readNat (U e) n)) ∧
      gives s (.memLds d a sz .o o) d (wrapS (BitVec.ofNat (8 * n) (s.mine.ostore.readNat (U e) n)).toInt)) ∧
    (U e / 2 ^ 19 = s.myCore → s.presentCore s.myPart s.myCore = true → U e % 2 ^ 19 % n = 0 →
      U e % 2 ^ 19 + n ≤ s.window s.myPart →
      gives s (.memLd d a sz .c o) d (wrapU (s.mem.readNat (own + U e % 2 ^ 19) n)) ∧
      gives s (.memLds d a sz .c o) d
        (wrapS (BitVec.ofNat (8 * n) (s.mem.readNat (own + U e % 2 ^ 19) n)).toInt))

/-- A store to the own local memory, or to the operand store, writes exactly its bytes: the low bytes of the
register stand there afterwards and every other byte of memory reads as before, where no watch covers them; nothing
else of the machine changes but the PC, and that a written slot of the overflow ring is no longer defined (R111,
R131). In C space the own core's local memory is written at once, and that of another present core once its reply is in
(R92, R125). A store to a word that a context watches sets the context's event bit and wakes it (R27, R112). -/
def Obligations.StoresToLocalMemories : Prop :=
  ∀ (s : State) (d a : Reg) (sz : MSize) (o : BitVec 11), s.wf = true → s.pendingOf [d, a] = false →
    (∀ (k off m v w : Nat) (x : Slot), (s.core k).watches = [(w, .slot x)] → w < off + m → off < w + 8 →
      (s.core k).ring = [] →
      ((s.storeLocal k off m v).ctx k x).hit = true ∧
      ((s.ctx k x).wait = some .watch → (k, x) ∈ (s.storeLocal k off m v).retry) ∧
      (s.storeLocal k off m v).mem = s.mem.writeNat (localLoc (coreOf k) (s.localBase (partOf k) + off)) m v) ∧
    let n := sizeBytes sz
    let e := s.rg a + wrapS (o.toInt * n)
    let at_ := localLoc s.myCore (s.localBase s.myPart) + U e
    (U e % n = 0 → U e + n ≤ s.window s.myPart →
      (∀ w ∈ s.mine.watches, w.1 + 8 ≤ U e ∨ U e + n ≤ w.1) →
      ∃ m : Machine.Memory,
        takes (.memSt d a sz .l o) s ((({ s with mem := m } : State).spoilRing s.key (U e) n).seq) ∧
        m.readNat at_ n = U (s.rg d) % 256 ^ n ∧
        ∀ x, x < at_ ∨ at_ + n ≤ x → m.read x = s.mem.read x) ∧
    (U e % n = 0 → U e + n ≤ 32768 →
      ∃ t, takes (.memSt d a sz .o o) s t ∧ t.mem = s.mem ∧
        t.mine.ostore.readNat (U e) n = U (s.rg d) % 256 ^ n ∧
        (∀ x, x < U e ∨ U e + n ≤ x → t.mine.ostore.read x = s.mine.ostore.read x) ∧
        (∀ r, t.rg r = s.rg r) ∧ s.me.keeps t.me) ∧
    (let core := U e / 2 ^ 19
      let off := U e % 2 ^ 19
      let at_ := localLoc core (s.localBase s.myPart) + off
      U e < 2 ^ 37 → s.presentCore s.myPart core = true → off % n = 0 → off + n ≤ s.window s.myPart →
      (∀ w ∈ (s.core (keyOf core s.myPart)).watches, w.1 + 8 ≤ off ∨ off + n ≤ w.1) →
      (∀ r : State, (core = s.myCore ∧ r = s ∨ core ≠ s.myCore ∧ s.me.posted = [] ∧ s.cur.used < s.me.replies ∧
          r = { s with cur := { s.cur with used := s.cur.used + 1 } }) →
        ∃ m : Machine.Memory,
          takes (.memSt d a sz .c o) s (({ r with mem := m } : State).spoilRing (keyOf core s.myPart) off n).seq ∧
          m.readNat at_ n = U (s.rg d) % 256 ^ n ∧
          ∀ x, x < at_ ∨ at_ + n ≤ x → m.read x = s.mem.read x) ∧
      (core ≠ s.myCore → s.me.posted = [] → s.me.replies ≤ s.cur.used →
        takes (.memSt d a sz .c o) s ((s.post (.replyArrival s.key s.slot)).block .reply)))

/-- The checks of the local spaces: cause 0x03 for an address that is no multiple of the size, cause 0x04 for
bytes outside the part, the operand store or any present core (R125). -/
def Obligations.LocalAccessChecks : Prop :=
  ∀ (s : State) (d a : Reg) (sz : MSize) (o : BitVec 11), s.pendingOf [d, a] = false →
    let n := sizeBytes sz
    let e := s.rg a + wrapS (o.toInt * n)
    let stops := fun (sp : Space) (c : Nat) =>
      ∀ i ∈ [Instr.memLd d a sz sp o, .memLds d a sz sp o, .memSt d a sz sp o], takes i s (s.trap c e)
    (U e % n ≠ 0 → ∀ sp ∈ [Space.l, .o, .c],
      stops sp 0x03) ∧
    (U e % n = 0 → s.window s.myPart < U e + n → stops .l 0x04) ∧
    (U e % n = 0 → 32768 < U e + n → stops .o 0x04) ∧
    (U e % n = 0 → 2 ^ 37 ≤ U e ∨ s.presentCore s.myPart (U e / 2 ^ 19 % 2 ^ 18) = false ∨
        s.window s.myPart < U e % 2 ^ 19 + n → stops .c 0x04)

/-- A load or a store in G space that finds its bytes in the core's L1 takes them from, or puts them into,
that line, and touches no memory (R128, R131); an address that is not canonical raises cause 0x04 (R125), and a
poisoned line cause 0x0D (R188). -/
def Obligations.AccessesThatHitTheL1 : Prop :=
  ∀ (s : State) (d a : Reg) (sz : MSize) (o : BitVec 11) (l : L1Line), s.pendingOf [d, a] = false →
    let n := sizeBytes sz
    let e := s.rg a + wrapS (o.toInt * n)
    (canonical e = false →
      takes (.memLd d a sz .g o) s (s.trap 0x04 e) ∧ takes (.memSt d a sz .g o) s (s.trap 0x04 e)) ∧
    (canonical e = true → U e % 128 + n ≤ 128 → s.l1Look e = some l → s.badLine s.myPart l.pa false = true →
      (l.loadHits s.mine.gen (U e % 128) n = true →
        takes (.memLd d a sz .g o) s (s.trap 0x0D e) ∧ takes (.memLds d a sz .g o) s (s.trap 0x0D e)) ∧
      (l.wr = true → takes (.memSt d a sz .g o) s (s.trap 0x0D e))) ∧
    (canonical e = true → U e % 128 + n ≤ 128 → s.l1Look e = some l → s.badLine s.myPart l.pa false = false →
      (l.loadHits s.mine.gen (U e % 128) n = true →
        gives s (.memLd d a sz .g o) d (wrapU (l.data.toNat / 256 ^ (U e % 128) % 256 ^ n)) ∧
        gives s (.memLds d a sz .g o) d
          (wrapS (BitVec.ofNat (8 * n) (l.data.toNat / 256 ^ (U e % 128) % 256 ^ n)).toInt)) ∧
      (l.wr = true →
        takes (.memSt d a sz .g o) s
          ((s.setL1 s.myCore (l.write s.mine.gen (maskOf (U e % 128) n)
            (placed (U e % 128) (U (s.rg d) % 256 ^ n)))).seq)))

/-- In every space, a load or a store answers what the access answers: the value read, or its trap, or its
wait; so no form of the instructions is left out (R125, R126, R131 to R134). -/
def Obligations.EveryAccessIsItsInstruction : Prop :=
  ∀ (s s1 : State) (d a : Reg) (sz : MSize) (sp : Space) (o : BitVec 11), s.pendingOf [d, a] = false →
    let n := sizeBytes sz
    let e := s.rg a + wrapS (o.toInt * n)
    (∀ x, readSpace sp e n s = .ok x s1 →
      takes (.memLd d a sz sp o) s (s1.result d (wrapU x)) ∧
      takes (.memLds d a sz sp o) s (s1.result d (wrapS (BitVec.ofNat (8 * n) x).toInt))) ∧
    (∀ c v, readSpace sp e n s = .error (.trap c v) s1 →
      takes (.memLd d a sz sp o) s (s1.trap c v) ∧ takes (.memLds d a sz sp o) s (s1.trap c v)) ∧
    (∀ w, readSpace sp e n s = .error (.block w) s1 →
      takes (.memLd d a sz sp o) s (s1.block w) ∧ takes (.memLds d a sz sp o) s (s1.block w)) ∧
    (∀ u, writeSpace sp e n (U (s.rg d) % 256 ^ n) s = .ok u s1 → takes (.memSt d a sz sp o) s s1.seq) ∧
    (∀ c v, writeSpace sp e n (U (s.rg d) % 256 ^ n) s = .error (.trap c v) s1 →
      takes (.memSt d a sz sp o) s (s1.trap c v)) ∧
    (∀ w, writeSpace sp e n (U (s.rg d) % 256 ^ n) s = .error (.block w) s1 →
      takes (.memSt d a sz sp o) s (s1.block w))

/-- Maintenance: a length of 0 does nothing; MEM.WB writes the dirty bytes of a covered line home as a posted
write and keeps it clean, MEM.INV drops it too; a range past 0x10000 or not canonical raises cause 0x04;
MEM.PF changes no register, and nothing at all where the core does not take the request; MEM.ZERO writes 128
zero bytes at a multiple of 128 (R136 to R138). -/
def Obligations.MaintenanceInstructions : Prop :=
  ∀ (s : State) (a b : Reg) (l : L1Line), s.pendingOf [a, b] = false →
    let base := s.rg a
    let len := s.rg b
    (len = 0 → takes (.memWb a b) s s.seq ∧ takes (.memInv a b) s s.seq) ∧
    (len ≠ 0 → (0x10000 < U len ∨ canonical base = false ∨ canonical (base + len - 1) = false) →
      takes (.memWb a b) s (s.trap 0x04 base) ∧ takes (.memInv a b) s (s.trap 0x04 base)) ∧
    (len ≠ 0 → U len ≤ 0x10000 → canonical base = true → canonical (base + len - 1) = true →
      s.writeBacksInFlight s.myCore s.myPart = false → s.covered base (U len) = [l] → l.dirty ≠ 0 →
      let back := (s.setL1 s.myCore { l with dirty := 0 }).postWrite s.key s.slot (.maint s.key s.slot) l.pa l.dirty l.data
      takes (.memWb a b) s back.seq ∧ takes (.memInv a b) s (back.dropL1 s.myCore l).seq) ∧
    (s.choice = false → takes (.memPf a) s s.dropChoice.seq) ∧
    (∃ t, takes (.memPf a) s t ∧ t.cores = (s.seq).cores ∧ t.parts = s.parts) ∧
    (U base % 128 ≠ 0 → takes (.memZero a) s (s.trap 0x03 base)) ∧
    (U base % 128 = 0 → canonical base = true → s.l1Look base = some l → l.wr = true →
      takes (.memZero a) s (s.setL1 s.myCore (l.write s.mine.gen (BitVec.allOnes 128) 0)).seq)


/-! ## Synchronisation (R139 to R157) -/

/-- The atomics on a line that the core's atomic line buffer holds: the register receives the old value, and the
line takes the new one under the key of the access, or stays as it is where a CAS finds another value; a releasing order
leaves the issuer as the line's pending locus, unless it is a synchronisation line; a line of another frame at the
address leaves the L1, and nothing else changes (R26, R128, R151 to R153). An address that is no multiple of the size
raises cause 0x03. -/
def Obligations.AtomicOperations : Prop :=
  ∀ (s s1 s2 : State) (d a b : Reg) (sz : ASize) (mo : MOrder) (x : Xlated) (die : Nat) (l : AlbLine),
    s.pendingOf [d, a, b] = false →
    let n := asizeBytes sz
    let va := s.rg a
    let y := U (s.rg b) % 256 ^ n
    (U va % n ≠ 0 → ∀ i ∈ [Instr.atmSwap d a b sz mo, .atmCas d a b sz mo, .atmAdd d a b sz mo, .atmAnd d a b sz mo,
        .atmOr d a b sz mo, .atmXor d a b sz mo, .atmMin d a b sz mo, .atmMax d a b sz mo, .atmMinu d a b sz mo,
        .atmMaxu d a b sz mo], takes i s (s.trap 0x03 va)) ∧
    (U va % n = 0 → translate va .atomic s = .ok x s2 → s2.me.posted = [] → place (loc x.pa) = .dram die →
      s1 = s2.freshFrame va x →
      s1.badLine s1.myPart x.pa true = false → s1.clsOf x ≠ .so →
      s1.albLine s1.myCore s1.myPart (s1.steer s1.myPart x.pa) = some l →
      let o := x.pa % 128
      let old := l.data.toNat / 256 ^ o % 256 ^ n
      let sg := fun (v : Nat) => (BitVec.ofNat (8 * n) v).toInt
      let kept : AlbLine := { l with
        pend := if (mo = .rel ∨ mo = .ar) ∧ s1.isSync l.part l.line = false then some s1.key else l.pend }
      let into := fun (v : Nat) =>
        (s1.albTake { kept with
          key := keyId (s1.steerPa s1.myPart x.pa)
          data := mergeLine l.data (placed o v) (maskOf o n) }).result d (wrapU old)
      takes (.atmSwap d a b sz mo) s (into y) ∧
      (old = U (s.rg d) % 256 ^ n → takes (.atmCas d a b sz mo) s (into y)) ∧
      (old ≠ U (s.rg d) % 256 ^ n → takes (.atmCas d a b sz mo) s ((s1.albTake kept).result d (wrapU old))) ∧
      takes (.atmAdd d a b sz mo) s (into ((old + y) % 256 ^ n)) ∧
      takes (.atmAnd d a b sz mo) s (into (old &&& y)) ∧
      takes (.atmOr d a b sz mo) s (into (old ||| y)) ∧
      takes (.atmXor d a b sz mo) s (into (old ^^^ y)) ∧
      takes (.atmMin d a b sz mo) s (into (if sg old ≤ sg y then old else y)) ∧
      takes (.atmMax d a b sz mo) s (into (if sg old ≥ sg y then old else y)) ∧
      takes (.atmMinu d a b sz mo) s (into (min old y)) ∧
      takes (.atmMaxu d a b sz mo) s (into (max old y)))

/-- Reservations at the issuer: SYN.LRW of a line already held reads it again, of another line enters its queue
and waits, answers the full-queue result where there is no room, and raises cause 0x04 for a fifth; SYN.SCR
answers 1 for a line not held and 2 for a value with bit 63, and otherwise goes to the home and waits; a poisoned line
raises cause 0x0D where its access would begin, after those checks (R42, R188); SYN.FENCE with no home to probe clears the mask of its scope and goes on, or raises cause 0x07 for writes that were lost
(R140 to R143, R154, R155). -/
def Obligations.ReservationInstructions : Prop :=
  ∀ (s s1 s2 s3 : State) (d a b : Reg) (c : Scope) (x : Xlated) (pa : Nat) (v : Word), s.pendingOf [d, a, b] = false →
    let line := s1.steer s1.myPart x.pa
    let held := s1.mine.heldBy (.slot s1.slot)
    let poisoned := s1.badLine s1.myPart x.pa true = true
    (syncTarget (s.rg a) .sync s = .ok x s1 →
      (line ∈ held → syncReady (s.rg a) x s1 = .ok pa s2 → s2.me.posted = [] → lineValue s1.myPart pa s2 = .ok v s3 →
        takes (.synLrw d a) s (s3.result d v)) ∧
      (line ∈ held → poisoned → takes (.synLrw d a) s (s1.trap 0x0D (s.rg a))) ∧
      (line ∉ held → 4 ≤ held.length → takes (.synLrw d a) s (s1.trap 0x04 (s.rg a))) ∧
      (line ∉ held → held.length < 4 → 64 ≤ s1.mine.resv.length →
        takes (.synLrw d a) s (s1.result d 0x8000000000000001)) ∧
      (line ∉ held → held.length < 4 → s1.mine.resv.length < 64 →
        (poisoned → takes (.synLrw d a) s (s1.trap 0x0D (s.rg a))) ∧
        (syncReady (s.rg a) x s1 = .ok pa s2 → s2.me.posted = [] →
          (s2.queueRoom s2.myPart line = false →
            takes (.synLrw d a) s ((s2.usedAbroad line).result d 0x8000000000000001)) ∧
          (s2.queueRoom s2.myPart line = true →
            let l := s2.syncLine s2.myPart line
            let t := ({ s2 with nextId := s2.nextId + 1 } : State).setSync s2.myPart line
              { l with queue := l.queue ++ [⟨s2.key, s2.slot, s2.nextId, false, false⟩] }
            takes (.synLrw d a) s
              (((if l.queue = [] then t.post (.reservationHead ⟨s2.myPart, line⟩) else t).usedAbroad line).block
                (.lrw s2.nextId line pa d)))))) ∧
    (syncTarget (s.rg a) .atomic s = .ok x s1 →
      (line ∉ held → takes (.synScr d a b) s (s1.result d 1)) ∧
      (line ∈ held → (s1.rg b).getLsbD 63 = true → takes (.synScr d a b) s (s1.result d 2)) ∧
      (line ∈ held → (s1.rg b).getLsbD 63 = false →
        (poisoned → takes (.synScr d a b) s (s1.trap 0x0D (s.rg a))) ∧
        (syncReady (s.rg a) x s1 = .ok pa s2 → s2.me.posted = [] →
          takes (.synScr d a b) s
            ((s2.post (.scrHomeUpdate s2.key s2.slot pa (s2.rg b))).block (.scr d))))) ∧
    (s.me.posted = [] → probes c s.me.touched = false → scopeMasked s c = false →
      let t := s.setMe { s.me with touched := clearedMask c s.me.touched, lost := 0, lostMod := 0, replies := 0 }
      (s.me.lost = 0 → takes (.synFence c) s t.seq) ∧
      (s.me.lost ≠ 0 → takes (.synFence c) s (t.trap 0x07 (wrapU (s.me.lost * 2 ^ 32 + s.me.lostMod % 1024)))))

/-- How a reservation is granted and released: the home acts on the locus for the head of a queue, once, when the line
is at home, where its first acquire brings it; a releaser
writes its dirty lines back and acknowledges when they have arrived; the grant advances the generation of the
acquirer, which then holds the line and has its value; an answer to an acquire that was withdrawn does nothing; the
home's part of a release makes the releaser the locus, passes the queue's head on and completes the SYN.SCR with 0
(R121 to R123, R140 to R147). The LLC evicts a line with a locus once the locus has written back, and the line then has
no locus (R121); that it is a synchronisation line no more while its queue is empty is the model's choice (log entry
44). -/
def Obligations.ReservationSteps : Prop :=
  ∀ (s s1 : State) (k owner : Nat) (x : Slot) (line pa req : Nat) (d : Reg) (v : Word) (adv granted : Bool)
    (q : List QEntry),
    let p := partOf k
    ((s.syncLine p line).queue = ⟨k, x, req, true, granted⟩ :: q → takes (.reservationHead ⟨p, line⟩) s s) ∧
    ((s.syncLine p line).queue = ⟨k, x, req, false, granted⟩ :: q →
      let m := s.syncLine p line
      let asked := s.setSync p line { m with used := true, queue := ⟨k, x, req, true, granted⟩ :: q }
      let acts := fun (t : State) =>
        (m.locus = none → takes (.reservationHead ⟨p, line⟩) s (t.post (.reservationGrant k x ⟨line, req⟩ true))) ∧
        (m.locus = some k → takes (.reservationHead ⟨p, line⟩) s (t.post (.reservationGrant k x ⟨line, req⟩ false))) ∧
        (m.locus = some owner → owner ≠ k →
          takes (.reservationHead ⟨p, line⟩) s (t.post (.writebackRequest owner k x ⟨line, req⟩)))
      (m.used = true → acts asked) ∧
      (m.used = false → isPodLine line = false → s.isHome p line = false →
        ∃ t, takes (.reservationHead ⟨p, line⟩) s t ∧ .reservationHead ⟨p, line⟩ ∈ t.parked)) ∧
    takes (.writebackRequest owner k x ⟨line, req⟩) s
      ((s.writeBackRc owner).post (.writebackAcknowledgement owner (k, x) ⟨line, req⟩)) ∧
    (s.writeBacksInFlight (coreOf owner) (partOf owner) = false →
      takes (.writebackAcknowledgement owner (k, x) ⟨line, req⟩) s (s.post (.reservationGrant k x ⟨line, req⟩ true))) ∧
    (s.writeBacksInFlight (coreOf owner) (partOf owner) = true →
      takes (.writebackAcknowledgement owner (k, x) ⟨line, req⟩) s
        (s.park (.writebackAcknowledgement owner (k, x) ⟨line, req⟩))) ∧
    ((s.ctx k x).acquires req = false →
      takes (.reservationGrant k x ⟨line, req⟩ adv) s s ∧ takes (.generationAdvance k x ⟨line, req⟩) s s) ∧
    ((s.ctx k x).wait = some (.lrw req line pa d) →
      let g := s.markGranted p line req
      (s.isGranted p line req = false → takes (.reservationGrant k x ⟨line, req⟩ true) s
        { g with urgent := g.urgent ++ [.generationAdvance k x ⟨line, req⟩] }) ∧
      (s.isGranted p line req = true → takes (.reservationGrant k x ⟨line, req⟩ true) s s) ∧
      (lineValue p pa g = .ok v s1 →
        takes (.reservationGrant k x ⟨line, req⟩ false) s
          ((s1.modCore k fun c => { c with resv := c.resv ++ [(line, .slot x)] }).finish k x d
            (v &&& 0x7FFFFFFFFFFFFFFF))) ∧
      ((∀ y : Slot, (s.ctx k y).fills = false) →
        (∀ l ∈ (s.hwOf (coreOf k)).l1, l.part = p → l.stamp ≠ (s.core k).gen + 1) →
        lineValue p pa (s.modCore k fun c => { c with gen := (s.core k).gen + 1 }) = .ok v s1 →
        takes (.generationAdvance k x ⟨line, req⟩) s
          ((s1.modCore k fun c => { c with resv := c.resv ++ [(line, .slot x)] }).finish k x d
            (v &&& 0x7FFFFFFFFFFFFFFF)))) ∧
    ((s.ctx k x).wait = some (.scr d) →
      let home := s.steer p pa
      writeLlc (s.homeAgent p home) p pa (maskOf 0 8) (placed 0 v.toNat) s = .ok () s1 →
      ((s1.release k (.slot x) home).ctx k x).wait = some (.scr d) →
      takes (.scrHomeUpdate k x pa v) s ((s1.release k (.slot x) home).finish k x d 0)) ∧
    ((s.syncLine p line).locus = some owner →
      let t := s.writeBackRc owner
      t.writeBacksInFlight (coreOf owner) (partOf owner) = false →
      takes (.llcLocusEviction ⟨p, line⟩) s (t.setSync p line
        { t.syncLine p line with locus := none, used := !(t.syncLine p line).queue.isEmpty }))

/-- The hardware's own steps over a core's buffers complete in every state. The sweep restamps the stale lines of a
partition: of a stale RC line only the bytes that are valid and dirty stay valid, and a line of the partition without
a valid byte leaves. An eviction writes a line's dirty bytes back and drops it. A recalled atomic line goes home with
its value and its pending locus. A fence's probe lets the context go on. When a module can no longer be reached, the
writes outstanding to it are lost: each context that posted some counts them, with the lowest module number among
those it has lost writes to, and no longer waits for their echoes (R128, R133, R145, R152 to R155, R188). -/
def Obligations.BufferSteps : Prop :=
  ∀ (s : State) (core part asid vline line m k : Nat) (x : Slot),
    (let gen := (s.core (keyOf core part)).gen
      let swept := fun (e : L1Line) =>
        if e.part = part ∧ e.stamp ≠ gen then
          { e with stamp := gen, valid := if e.cls = .rc then e.valid &&& e.dirty else e.valid }
        else e
      exec (.l1Sweep core part) s = .next (s.setHw core { s.hwOf core with
        l1 := ((s.hwOf core).l1.map swept).filter fun e => !(e.part = part && e.valid = 0) })) ∧
    (let hit := (s.hwOf core).l1.find? fun e => e.part = part && e.asid.toNat = asid && e.va = vline;
      (hit = none → exec (.l1Eviction core part asid vline) s = .next s) ∧
      ∀ l, hit = some l →
        (l.dirty = 0 → exec (.l1Eviction core part asid vline) s = .next (s.dropL1 core l)) ∧
        (l.dirty ≠ 0 → exec (.l1Eviction core part asid vline) s = .next
          (((s.setL1 core { l with dirty := 0 }).post (.postedWriteArrival
            ⟨.evict core, s.homeOf (dieOfCore core) l.part l.pa, dieOfCore core, l.part, l.pa, l.dirty,
              l.data⟩)).dropL1 core l))) ∧
    (let hit := (s.hwOf core).alb.find? fun e => e.line = line;
      (hit = none → exec (.atomicLineRecall core line) s = .next s) ∧
      ∀ b, hit = some b → exec (.atomicLineRecall core line) s =
        .next ((s.albDrop core b.part line).albReturn (dieOfCore core) b)) ∧
    (∀ c, (s.ctx k x).wait = some (.fence c) → exec (.fenceProbe k x) s = .next (s.reply k x)) ∧
    ((∀ c, (s.ctx k x).wait ≠ some (.fence c)) → exec (.fenceProbe k x) s = .next s) ∧
    (∃ t, exec (.linkRecoveryTimeout m) s = .next t ∧
      t.unreachable = (if m ∈ s.unreachable then s.unreachable else s.unreachable ++ [m]) ∧ t.mem = s.mem ∧
      (∀ w, Instr.postedWriteArrival w ∈ t.flight → ofModule m w.home = false) ∧
      (let c := s.ctx k x
        let e := t.ctx k x
        let n := (c.posted.filter (ofModule m)).length
        e.lost = c.lost + n ∧ e.posted = c.posted.filter (fun h => !ofModule m h) ∧
        e.lostMod = if n = 0 then c.lostMod else if c.lost = 0 then m else min c.lostMod m))

/-- SYN.WAIT compares at the home: 1 where the word differs, 2 where the table has no room, else it waits until a
SYN.WAKE of that word, which answers how many it woke (R156, R157). The word is a multiple of 8 on an SO page, else
causes 0x03 and 0x04. A compare whose wait was withdrawn does nothing. SYN.WAKE removes the entries of the word, oldest
first and no more than it names where it names a number, and each waiter completes with 0. -/
def Obligations.WaitAndWake : Prop :=
  ∀ (s s1 s2 : State) (k part asid va n pa line req : Nat) (x : Slot) (d a b : Reg) (c : Scope) (data : LineData)
    (expect : Word),
    let hit := fun (e : WaitEntry) => e.part = part ∧ e.asid.toNat = asid ∧ e.va = va
    (s.pendingOf [d, a, b] = false → scopeMasked s c = false → waitedWord (s.rg a) s = .ok pa s1 →
      s1.me.posted = [] → fence c s1 = .ok () s2 →
      takes (.synWait d a b c) s
        ((({ s2 with nextId := s2.nextId + 1 } : State).post
          (.waitHomeCompare s2.key s2.slot (U (s.rg a)) ⟨pa, s2.nextId⟩ (s2.rg b) d)).block (.synCompare s2.nextId)) ∧
      takes (.synWake d a b c) s
        ((s2.post (.wakeHome (.ctx s2.key s2.slot d) s2.myPart s2.me.asid.toNat (U (s.rg a)) (U (s2.rg b)))).block
          (.wake d))) ∧
    (s.pendingOf [d, a, b] = false → scopeMasked s c = false →
      (U (s.rg a) % 8 ≠ 0 → takes (.synWait d a b c) s (s.trap 0x03 (s.rg a)) ∧
        takes (.synWake d a b c) s (s.trap 0x03 (s.rg a))) ∧
      (∀ y, U (s.rg a) % 8 = 0 → translate (s.rg a) .sync s = .ok y s1 → y.cls ≠ .so →
        takes (.synWait d a b c) s (s1.trap 0x04 (s.rg a)) ∧ takes (.synWake d a b c) s (s1.trap 0x04 (s.rg a)))) ∧
    ((s.ctx k x).wait ≠ some (.synCompare req) → takes (.waitHomeCompare k x va ⟨pa, req⟩ expect d) s s) ∧
    ((s.ctx k x).wait = some (.synCompare req) →
      let p := partOf k
      let home := s.steer p pa
      readLine (s.homeAgent p home) p pa s = .ok data s1 →
      let word := wrapU (data.toNat / 256 ^ (va % 128) % 2 ^ 64)
      (word ≠ expect → takes (.waitHomeCompare k x va ⟨pa, req⟩ expect d) s (s1.finish k x d 1)) ∧
      (word = expect → s1.waitRoom p home = false →
        takes (.waitHomeCompare k x va ⟨pa, req⟩ expect d) s ((s1.usedAbroad home).finish k x d 2)) ∧
      (word = expect → s1.waitRoom p home = true →
        takes (.waitHomeCompare k x va ⟨pa, req⟩ expect d) s
          (({ s1.modCtx k x fun e => e.blocked (.synWait va d) with
            waits := s1.waits ++ [⟨p, (s1.ctx k x).asid, va, home, .device k x⟩] } : State).usedAbroad home))) ∧
    (s.waits = [] → (s.ctx k x).wait = some (.wake d) →
      takes (.wakeHome (.ctx k x d) part asid va n) s (s.finish k x d 0)) ∧
    (s.waits.Nodup → (∀ e ∈ s.waits, ∀ r m, hit e → e.who ≠ .host r m) → (s.ctx k x).wait = some (.wake d) →
      let there := s.waits.filter fun e => hit e
      let woken := if n = 0 then there else there.take n
      let wake := fun (t : State) (e : WaitEntry) =>
        match e.who with
        | .device j y =>
          match (t.ctx j y).wait with
          | some (.synWait _ r) => t.finish j y r 0
          | _ => t
        | .host _ _ => t
      takes (.wakeHome (.ctx k x d) part asid va n) s
        ((woken.foldl wake { s with waits := s.waits.filter fun e => e ∉ woken }).finish k x d (wrapU woken.length))) ∧
    (∀ (y : Slot) (j : Nat) (e : Reg), s.waits = [⟨part, BitVec.ofNat 16 asid, va, line, .device j y⟩] → asid < 65536 →
      (s.ctx j y).wait = some (.synWait va e) →
      takes (.wakeHome .device part asid va n) s (({ s with waits := [] } : State).finish j y e 0))

/-! ## Contexts, messages and barriers (R89 to R116) -/

/-- Context 0 runs the others: START begins a FREE context with the PC, the return address, the arguments and
the identifier of its issuer and everything else as at reset; STOP and CONT take a context out of rotation and
back, and one that is BLOCKED inside a VLS stays so, to stop when the VLS is done (R224), which is the model's inference
(log entry 44); REAP frees the lowest EXITED one; RQPOP takes the first task of the best priority; IDLE waits for an event
with delivery on, and in the next cycle that its context owns, once an event is there, delivery is off and the context
runs at sr.evec, no event bit cleared (R95, R96, R98, R111). Anyone else who issues these traps with cause 0x04, and so does context 0 that
issues THR.EXIT or THR.YIELD or names a context outside 1 to 15 (R89). -/
def Obligations.ContextZeroInstructions : Prop :=
  ∀ (s : State) (d a b : Reg) (x : Slot), s.pendingOf [d, a, b] = false →
    let ready := s.pendingOf [4, 5, 6, 7] = false
    (s.slot ≠ 0 → (∀ i ∈ [Instr.thrStop d, .thrCont d, .thrReap d, .thrRqpop d, .thrIdle], takes i s (s.trap 0x04 0)) ∧
      (U (s.rg b) % 512 = 0 → takes (.thrSpill d a b) s (s.trap 0x04 0) ∧ takes (.thrFill d a b) s (s.trap 0x04 0)) ∧
      (ready → U (s.rg a) % 4 = 0 → takes (.thrStart d a) s (s.trap 0x04 0))) ∧
    (U (s.rg b) % 512 ≠ 0 → takes (.thrSpill d a b) s (s.trap 0x03 (s.rg b)) ∧
      takes (.thrFill d a b) s (s.trap 0x03 (s.rg b))) ∧
    (ready → U (s.rg a) % 4 ≠ 0 → takes (.thrStart d a) s (s.trap 0x03 (s.rg a))) ∧
    (s.slot = 0 → takes .thrExit s (s.trap 0x04 0) ∧ takes .thrYield s (s.trap 0x04 0) ∧
      (U (s.rg d) = 0 ∨ 15 < U (s.rg d) →
        takes (.thrStop d) s (s.trap 0x04 (s.rg d)) ∧ takes (.thrCont d) s (s.trap 0x04 (s.rg d)) ∧
        (ready → U (s.rg a) % 4 = 0 → takes (.thrStart d a) s (s.trap 0x04 (s.rg d)))) ∧
      (U (s.rg a) = 0 ∨ 15 < U (s.rg a) → U (s.rg b) % 512 = 0 →
        takes (.thrSpill d a b) s (s.trap 0x04 (s.rg a)) ∧ takes (.thrFill d a b) s (s.trap 0x04 (s.rg a)))) ∧
    (s.slot = 0 → x ≠ 0 →
    (s.rg d = wrapU x.val → ready → U (s.rg a) % 4 = 0 →
      ((s.ctx s.key x).st ≠ .free → takes (.thrStart d a) s (s.trap 0x04 (s.rg d))) ∧
      ((s.ctx s.key x).st = .free → ∃ e : Ctx, takes (.thrStart d a) s (s.setCtx s.key x e).seq ∧
        e = { Ctx.reset with
          st := .run, pc := s.rg a, g := e.g, asid := s.me.asid, rights := s.me.rights, hit := (s.ctx s.key x).hit } ∧
        e.rd 1 = s.mine.spexit ∧ ∀ r : Reg, e.rd r = if r = 1 then s.mine.spexit
          else if r = 4 ∨ r = 5 ∨ r = 6 ∨ r = 7 then s.rg r else 0)) ∧
    (s.rg d = wrapU x.val → (s.ctx s.key x).ending = false →
      ((s.ctx s.key x).st ∈ [CtxSt.free, .exited, .spilling, .filling] →
        takes (.thrStop d) s s.seq ∧ takes (.thrCont d) s s.seq) ∧
      ((s.ctx s.key x).st ∈ [CtxSt.run, .blocked] →
        ((s.ctx s.key x).st = .blocked → (s.ctx s.key x).inVls = true →
          takes (.thrStop d) s (s.setCtx s.key x { s.ctx s.key x with stopping := true }).seq) ∧
        ((s.ctx s.key x).st = .run ∨ (s.ctx s.key x).inVls = false →
          takes (.thrStop d) s (s.setCtx s.key x { s.ctx s.key x with st := .stopped }).seq) ∧
        takes (.thrCont d) s s.seq) ∧
      ((s.ctx s.key x).st ∈ [CtxSt.stopped, .trapped] →
        let e := if (s.ctx s.key x).outstanding then s.ctx s.key x else (s.ctx s.key x).flushed
        e.skip = false →
        takes (.thrCont d) s (s.setCtx s.key x { e with
          trapRec := false, st := if e.wait.isSome then .blocked else .run }).seq)) ∧
    ((∀ y : Slot, (s.mine.ctxs[y]).st ≠ .exited) → takes (.thrReap d) s (s.result d 0)) ∧
    ((∀ y : Slot, y < x → (s.mine.ctxs[y]).st ≠ .exited) → (s.mine.ctxs[x]).st = .exited →
      takes (.thrReap d) s
        ((s.setCtx s.key x { s.ctx s.key x with st := .free }).result d (wrapU x.val))) ∧
    ((∀ p : Fin 4, s.mine.ready[p] = []) → takes (.thrRqpop d) s (s.result d 0)) ∧
    (∀ (p : Fin 4) (t : BitVec 16) (l : List (BitVec 16)), (∀ o : Fin 4, o < p → s.mine.ready[o] = []) →
      s.mine.ready[p] = t :: l → s.mine.ring = [] →
      takes (.thrRqpop d) s ((s.modMine fun c => { c with ready := c.ready.set p l }).result d
        (wrapU (p.val * 0x10000 + t.toNat)))) ∧
    (∃ t, takes .thrIdle s t ∧ t.mine.delivery = true ∧ t.me.st = .blocked ∧ t.me.pc = s.me.pc ∧ t.mem = s.mem ∧
      t.mine.event = s.mine.event ∧ t.flight = s.flight ∧
      (s.mine.event ≠ 0 → t.mayRun s.key = true → t.redirects s.key 0 = true))) ∧
    (∀ (k : Nat) (rest : List Nat) (e : Core), s.retry = [] → s.urgent = [] → s.dueInput = none → s.sched = 0 :: rest →
      s.cores[s.turn]? = some (k, e) →
      let before : State := { s with sched := rest, turn := s.turn + 1 }
      before.mayIssue k 0 = false → before.owner = 0 → before.redirects k 0 = true →
      ∃ t, step s = .next t ∧ (t.core k).delivery = false ∧ (t.core k).event = (s.core k).event ∧
        (t.ctx k 0).st = .run ∧ (t.ctx k 0).pc = (s.core k).evec ∧ (t.ctx k 0).g = (s.ctx k 0).g)

/-- The end of a context and its yield: EXIT, and a second THR.STOP of a STOPPED or TRAPPED context, wait until
nothing of the context is under way and then end it: its reservations are released, its binding too, the engine
keeping the identifier of its last bind, and it is EXITED with EXIT raised, or FREE for a spawned one. YIELD stops
the context after the instruction and raises YIELD (R95, R99, R103, R141). -/
def Obligations.ContextEnds : Prop :=
  ∀ (s : State) (d : Reg) (k : Nat) (x : Slot),
    let ended := fun (k : Nat) (x : Slot) (c : Ctx) =>
      let r := ((s.core k).heldBy (.slot x)).foldl (fun t line => t.release k (.slot x) line) s
      let free := fun (n : Nat) (e : Engine) => if c.bind.toNat = n then { e with owner := none } else e
      let u := (r.modCore k fun e => { e with
          vecEng := free 1 e.vecEng, mtxEng := free 2 e.mtxEng, cpyEng := free 3 e.cpyEng }).setCtx k x
        { c.settled with
          st := if c.origin then .free else .exited
          bind := 0, ending := false, endStop := false }
      if c.origin then u else u.raise k 6
    let noJob := fun (k : Nat) (x : Slot) => ∀ j ∈ (s.core k).jobs, j.owner ≠ .slot x
    let allIn := fun (k : Nat) (x : Slot) =>
      let c := s.ctx k x
      c.pend = 0 ∧ c.posted = [] ∧ c.launch = none ∧ noJob k x ∧ (c.bind ≠ 2 ∨ (s.core k).mqueue = [])
    (s.slot ≠ 0 →
      (allIn s.key s.slot → takes .thrExit s (ended s.key s.slot s.me)) ∧
      (s.me.pend ≠ 0 → ∃ t, takes .thrExit s t ∧ t.me.ending = true ∧ t.me.st = .blocked ∧ t.me.pc = s.me.pc ∧
        Instr.contextEnd s.key s.slot ∈ t.parked) ∧
      takes .thrYield s ((s.setMe { s.seq.me with st := .stopped }).raise s.key 4)) ∧
    (s.slot = 0 → s.pendingOf [d] = false → x ≠ 0 → s.rg d = wrapU x.val →
      (s.ctx s.key x).st ∈ [CtxSt.stopped, .trapped] → (s.ctx s.key x).ending = false → (s.ctx s.key x).wait = none →
      (allIn s.key x → (s.ctx s.key x).fetched = none →
        takes (.thrStop d) s (ended s.key x (s.ctx s.key x)).seq) ∧
      ((s.ctx s.key x).pend ≠ 0 →
        takes (.thrStop d) s ((s.setCtx s.key x { s.ctx s.key x with ending := true, endStop := true }).park
          (.contextEnd s.key x)).seq)) ∧
    ((s.ctx k x).ending = false → takes (.contextEnd k x) s s) ∧
    ((s.ctx k x).ending = true → allIn k x → (s.ctx k x).wait = none → (s.ctx k x).fetched = none →
      takes (.contextEnd k x) s (ended k x (s.ctx k x))) ∧
    ((s.ctx k x).ending = true → (s.ctx k x).pend ≠ 0 → takes (.contextEnd k x) s (s.park (.contextEnd k x)))

/-- Spill and fill: THR.SPILL of a STOPPED or TRAPPED context makes it SPILLING, its token pending; when nothing of
the context is under way, the image is written, each register at its offset and the status word with the binding,
the recorded trap, the rights, the context's number and its origin, the event word last; the slot is FREE as at
reset, its watches the image's, and the token is 0. Of any other context THR.SPILL answers 1. THR.FILL into a slot
that is not FREE answers 1, of an image with a bad status or identifier 2, of one bound to an engine that another
owner has 3; else the context is FILLING, its token pending, and then what the image says, word by word, with the
event bit that came to the slot meanwhile, and the token is 0 (R105 to R107). -/
def Obligations.SpillAndFill : Prop :=
  ∀ (s : State) (d a b : Reg) (x : Slot),
    (s.pendingOf [d, a, b] = false → s.slot = 0 → x ≠ 0 → s.rg a = wrapU x.val →
      let off := U (s.rg b)
      let status := s.loadLocal s.key (off + 0x178) 8
      let ident := s.loadLocal s.key (off + 0x180) 8
      off % 512 = 0 → off + 512 ≤ s.window s.myPart → (s.ctx s.key x).ending = false →
      ((s.ctx s.key x).st ∉ [CtxSt.stopped, .trapped] → takes (.thrSpill d a b) s (s.result d 1)) ∧
      ((s.ctx s.key x).st ∈ [CtxSt.stopped, .trapped] → (s.ctx s.key x).wait = none →
        let t := (s.setPending d).beginSpill s.key x off (some d)
        takes (.thrSpill d a b) s t.seq ∧ (t.ctx s.key x).st = .spilling ∧ (t.ctx s.key x).image = off ∧
          Instr.spillImageWrite s.key x ∈ t.flight ∧ (d ≠ 0 → t.me.pend.getLsbD d.toNat = true)) ∧
      ((s.ctx s.key x).st ≠ .free → takes (.thrFill d a b) s (s.result d 1)) ∧
      ((s.ctx s.key x).st = .free → 512 ≤ status ∨ 65536 ≤ ident → takes (.thrFill d a b) s (s.result d 2)) ∧
      ((s.ctx s.key x).st = .free → status < 512 → ident < 65536 →
        let holder := (s.mine.engine (status % 4)).owner
        (∀ o, status % 4 ≠ 0 → holder = some o → o ≠ .image off → takes (.thrFill d a b) s (s.result d 3)) ∧
        (status % 4 = 0 ∨ holder = none ∨ holder = some (.image off) →
          ∃ t, takes (.thrFill d a b) s t ∧ (t.ctx s.key x).st = .filling ∧ Instr.fillComplete s.key x ∈ t.flight ∧
            t.mem = s.mem ∧ (d ≠ 0 → t.me.pend.getLsbD d.toNat = true)))) ∧
    (∀ (k : Nat) (y : Slot) (e : Reg) (m : Move),
      let c := s.ctx k y
      let off := c.image
      s.wf = true → y ≠ 0 → c.st = .spilling → c.quiet = true → c.wwrites = [] → (s.core k).spills = [m] → m.slot = y →
      m.tok = some e → (∀ w ∈ (s.core k).watches, w.1 + 8 ≤ off ∨ off + 512 ≤ w.1) →
      ∃ t, takes (.spillImageWrite k y) s t ∧
        (let word := fun (i : Nat) => t.loadLocal k (off + i) 8;
          (∀ r : Reg, word (8 * r.toNat) = U (c.rd r)) ∧
          word 0x100 = U c.pc ∧ word 0x108 = U c.loop0.start ∧ word 0x110 = U c.loop0.last ∧
          word 0x118 = U c.loop0.count ∧ word 0x120 = U c.loop1.start ∧ word 0x128 = U c.loop1.last ∧
          word 0x130 = U c.loop1.count ∧ word 0x138 = c.round.toNat ∧ word 0x140 = U c.touched ∧
          word 0x148 = c.vprog.toNat ∧
          word 0x150 = c.cause.toNat + (if c.skip = true ∨ c.skipping = true then 0x10000 else 0) ∧
          word 0x158 = U c.epc ∧ word 0x160 = U c.tval ∧ word 0x168 = U c.icmiss ∧ word 0x170 = c.blkto.toNat ∧
          word 0x178 = c.bind.toNat + (if c.trapRec then 4 else 0) + (if c.rights then 8 else 0) + 16 * y.val +
            (if c.origin then 256 else 0) ∧
          word 0x180 = c.asid.toNat ∧ word 0x1F8 = if c.hit then 1 else 0) ∧
        t.ctx k y = Ctx.reset ∧ (t.core k).spills = [] ∧
        (t.core k).watches = (s.core k).watches.map (fun w => if w.2 = .slot y then (w.1, .image off) else w) ∧
        (t.ctx k 0).rd e = 0 ∧ (e ≠ 0 → (t.ctx k 0).pend.getLsbD e.toNat = false)) ∧
    (∀ k (y : Slot) (m : Move) (e : Reg), (s.core k).fills = [m] → m.slot = y → m.tok = some e → y ≠ 0 →
      (s.core k).kept = [] → (s.ctx k y).st = .filling →
      ∃ t, takes (.fillComplete k y) s t ∧ t.mem = s.mem ∧ (t.core k).fills = [] ∧
        (t.ctx k 0).rd e = 0 ∧ (t.ctx k 0).pend.getLsbD e.toNat = false ∧
        let word := fun (i : Nat) => s.loadLocal k (m.off + i) 8
        let c := t.ctx k y
        c.pc = wrapU (word 0x100 / 4 * 4) ∧
        (∀ r : Reg, c.rd r = if r = 0 then 0 else wrapU (word (8 * r.toNat))) ∧
        c.loop0 = ⟨wrapU (word 0x108 / 4 * 4), wrapU (word 0x110 / 4 * 4), wrapU (word 0x118)⟩ ∧
        c.loop1 = ⟨wrapU (word 0x120 / 4 * 4), wrapU (word 0x128 / 4 * 4), wrapU (word 0x130)⟩ ∧
        (word 0x138 % 8 < 5 → c.round.toNat = word 0x138 % 32) ∧ c.touched = wrapU (word 0x140) ∧
        c.vprog.toNat = word 0x148 % 32 ∧ c.cause.toNat = word 0x150 % 256 ∧
        (c.skip = true ↔ word 0x150 / 2 ^ 16 % 2 = 1) ∧ c.epc = wrapU (word 0x158) ∧ c.tval = wrapU (word 0x160) ∧
        c.icmiss = wrapU (word 0x168 % 2 ^ 58) ∧ c.blkto.toNat = word 0x170 % 2 ^ 32 ∧
        c.asid.toNat = word 0x180 % 65536 ∧ c.bind.toNat = word 0x178 % 4 ∧
        (c.rights = true ↔ word 0x178 / 8 % 2 = 1) ∧ (c.origin = true ↔ word 0x178 / 256 % 2 = 1) ∧
        (c.hit = true ↔ (s.ctx k y).hit = true ∨ word 0x1F8 % 2 = 1) ∧
        c.st = if word 0x178 / 4 % 2 = 1 then .trapped else .stopped)

/-- Watches, waits, semaphores and engines (R103, R104, R112): WATCH adds the word to the issuer's, UNWATCH takes
it away, WAIT takes a hit or waits for one; SEMP counts down or queues; SEMV counts up to 0xFFFF or wakes the first
that waits; BIND answers 0, 1 for an engine that another holds and 2 for a code above 3. -/
def Obligations.WatchesSemaphoresEngines : Prop :=
  ∀ (s : State) (d a : Reg), s.pendingOf [d, a] = false →
    let v := s.rg d
    let mine := s.mine.watches.filter fun e => e.2 = .slot s.slot
    (U v % 8 ≠ 0 → takes (.thrWatch d) s (s.trap 0x03 v)) ∧
    (U v % 8 = 0 → s.window s.myPart < U v + 8 → takes (.thrWatch d) s (s.trap 0x04 v)) ∧
    (U v % 8 = 0 → U v + 8 ≤ s.window s.myPart →
      ((∃ e ∈ mine, e.1 = U v) → takes (.thrWatch d) s s.seq) ∧
      ((∀ e ∈ mine, e.1 ≠ U v) → (4 ≤ mine.length ∨ 64 ≤ s.mine.watches.length) →
        takes (.thrWatch d) s (s.trap 0x04 v)) ∧
      ((∀ e ∈ mine, e.1 ≠ U v) → mine.length < 4 → s.mine.watches.length < 64 →
        takes (.thrWatch d) s
          (s.modMine fun c => { c with watches := c.watches ++ [(U v, .slot s.slot)] }).seq)) ∧
    takes (.thrUnwatch d) s
      (s.modMine fun c => { c with watches := c.watches.filter (· ≠ (U v, Owner.slot s.slot)) }).seq ∧
    (s.me.hit = true → takes .thrWait s (s.setMe { s.me with hit := false }).seq) ∧
    (s.me.hit = false → takes .thrWait s (s.block .watch)) ∧
    (8 ≤ U v → takes (.thrSemp d) s (s.trap 0x04 v) ∧ takes (.thrSemv d) s (s.trap 0x04 v)) ∧
    (∀ n : Fin 8, v = wrapU n.val →
      let e := s.mine.sems[n]
      let with_ := fun (f : Sem) => s.modMine fun c => { c with sems := c.sems.set n f }
      (e.count ≠ 0 → takes (.thrSemp d) s (with_ { e with count := e.count - 1 }).seq) ∧
      (e.count = 0 → takes (.thrSemp d) s ((with_ { e with queue := e.queue ++ [s.slot] }).block (.semp n.val))) ∧
      (s.me.posted = [] → e.queue = [] →
        takes (.thrSemv d) s (with_ { e with count := wrap16 (min (e.count.toNat + 1) 0xFFFF) }).seq) ∧
      (∀ x q, s.me.posted = [] → e.queue = x :: q →
        takes (.thrSemv d) s ((with_ { e with queue := q }).finish s.key x 0 0).seq)) ∧
    (3 < U (s.rg a) → takes (.thrBind d a) s (s.result d 2)) ∧
    (∀ o : Owner, o ≠ .slot s.slot → s.rg a = 1 ∧ s.mine.vecEng.owner = some o ∨
        s.rg a = 2 ∧ s.mine.mtxEng.owner = some o ∨ s.rg a = 3 ∧ s.mine.cpyEng.owner = some o →
      takes (.thrBind d a) s (s.result d 1)) ∧
    (s.me.bind = 0 → s.rg a = 1 → s.mine.vecEng.owner = none →
      let keep := s.mine.vecEng.last = some s.me.asid
      let t := s.modMine fun c => { c with
        v := if keep then c.v else Vector.replicate 32 0, q := if keep then c.q else Vector.replicate 4 0,
        vecEng := ⟨some (.slot s.slot), some s.me.asid⟩ }
      takes (.thrBind d a) s ((t.setMe { t.me with bind := 1 }).result d 0)) ∧
    (s.me.bind = 0 → s.rg a = 2 → s.mine.mtxEng.owner = none →
      let keep := s.mine.mtxEng.last = some s.me.asid
      let t := s.modMine fun c => { c with
        z := if keep then c.z else Vector.replicate 4 (Vector.replicate 256 0), mcfg := if keep then c.mcfg else 0xF0F,
        mtxEng := ⟨some (.slot s.slot), some s.me.asid⟩ }
      takes (.thrBind d a) s ((t.setMe { t.me with bind := 2 }).result d 0)) ∧
    (s.me.bind = 0 → s.rg a = 3 → s.mine.cpyEng.owner = none →
      let t := s.modMine fun c => { c with cpyEng := ⟨some (.slot s.slot), some s.me.asid⟩ }
      takes (.thrBind d a) s ((t.setMe { t.me with bind := 3 }).result d 0)) ∧
    (s.me.bind = 1 → s.rg a = 0 →
      let t := s.modMine fun c => { c with vecEng := { c.vecEng with owner := none } }
      takes (.thrBind d a) s ((t.setMe { t.me with bind := 0 }).result d 0))

/-- Spawning (R42, R114): THR.SPAWN checks its entry and its core, sends the request and waits; for an absent core an
entry that is no pad raises its cause 0x02, which comes before 0x04, also where its fetch has to wait. The target answers
with a FREE context that it starts, or puts the request into its inbox for its context 0, or refuses, and then the
child runs inline; a withdrawn request traps with cause 0x08. That an inbox's valid word is cleared when its request is
answered, and that an inlined child's entry is the old g[b], is the model's choice (log entry 44). -/
def Obligations.Spawning : Prop :=
  ∀ (s s1 : State) (d a b : Reg), s.pendingOf [d, a, b, 1, 4, 5, 6, 7] = false →
    (s.presentCore s.myPart (U (s.rg a)) = true → checkTarget (s.rg b) 0x0001 s = .ok () s1 → s1.me.posted = [] →
      let k := U (s.rg a) * 64 + s1.myPart
      let r : SpawnReq := ⟨s1.nextId, s1.key, s1.slot, k, wrapU (s1.myCore * 16 + s1.slot.val), s1.rg b, s1.rg 4,
        s1.rg 5, s1.rg 6, s1.rg 7, s1.me.asid.toNat, s1.me.rights⟩
      takes (.thrSpawn d a b) s
        ((({ s1 with nextId := s1.nextId + 1 } : State).post (.spawnRequestArrival r)).block
          (.spawn s1.nextId k d false))) ∧
    (s.presentCore s.myPart (U (s.rg a)) = true → ∀ c v, checkTarget (s.rg b) 0x0001 s = .error (.trap c v) s1 →
      takes (.thrSpawn d a b) s (s1.trap c v)) ∧
    (s.presentCore s.myPart (U (s.rg a)) = false →
      let checked := checkTargetOf (some (.trap 0x04 (s.rg a))) (s.rg b) 0x0001 s
      (checked = .ok () s1 → takes (.thrSpawn d a b) s (s.trap 0x04 (s.rg a))) ∧
      (∀ v, checked = .error (.trap 0x02 v) s1 → takes (.thrSpawn d a b) s (s.trap 0x02 v)) ∧
      ∀ w, checked = .error (.block w) s1 → takes (.thrSpawn d a b) s (s1.block w)) ∧
    (∀ (r : SpawnReq) (x : Slot), (s.core r.target).auto = true → (s.core r.target).freeCtx = some x →
      takes (.spawnRequestArrival r) s (s.acceptSpawn r x) ∧
      Instr.spawnAnswerArrival r.src r.slot r.id (some x.val) ∈ (s.acceptSpawn r x).flight ∧
      ((s.acceptSpawn r x).ctx r.target x).st = .run ∧ ((s.acceptSpawn r x).ctx r.target x).pc = r.entry ∧
      ((s.acceptSpawn r x).ctx r.target x).origin = true) ∧
    (∀ (r : SpawnReq), (s.core r.target).auto = false → 4 ≤ (s.core r.target).inbox.length →
      takes (.spawnRequestArrival r) s (s.post (.spawnAnswerArrival r.src r.slot r.id none))) ∧
    (∀ r : SpawnReq, (s.core r.target).auto = false → (s.core r.target).inbox = [] → (s.core r.target).inboxAt = 0 →
      let at_ := (s.core r.target).area.toNat * 8192 + 4096
      let words := [r.tid.toNat, U r.entry, U r.a4, U r.a5, U r.a6, U r.a7, r.asid, 1]
      let stored := words.zipIdx.foldl (fun t e => t.storeLocal r.target (at_ + 8 * e.2) 8 e.1) s
      takes (.spawnRequestArrival r) s ((stored.modCore r.target fun c =>
        { c with inbox := c.inbox ++ [(0, r)], inboxAt := 1 }).raise r.target 3)) ∧
    (∀ (k i : Nat) (x : Slot) (r : SpawnReq) (l : List (Nat × SpawnReq)), (s.core k).inbox = (i, r) :: l → x ≠ 0 →
      let t := s.modCore k fun c => { c with inbox := l }
      ((t.storeLocal k ((s.core k).area.toNat * 8192 + 4096 + 64 * i + 56) 8 0).ctx k x).st = .free →
      takes (.spawnAnswer k x.val) s
        ((t.storeLocal k ((s.core k).area.toNat * 8192 + 4096 + 64 * i + 56) 8 0).acceptSpawn r x)) ∧
    (∀ (k id t n : Nat) (x : Slot) (w : Bool), (s.ctx k x).wait = some (.spawn id t d w) →
      takes (.spawnAnswerArrival k x id (some n)) s (s.finish k x d (wrapU (t / 64 * 16 + n))) ∧
      (∀ w0 w1, (s.ctx k x).fetched = some (w0, w1) → ∃ u, takes (.spawnAnswerArrival k x id none) s u ∧
        (u.ctx k x).pc = (s.ctx k x).rd (fB w0) ∧ (u.ctx k x).rd 1 = (s.ctx k x).pc + 4 ∧
        (u.ctx k x).wait = none ∧ (d ≠ 0 → d ≠ 1 → (u.ctx k x).rd d = 0))) ∧
    (∀ (k id t : Nat) (x : Slot) (w : Bool), (s.ctx k x).wait = some (.spawn id t d w) → (s.ctx k x).st = .blocked →
      (s.ctx k x).ending = false → s.spawnInFlight id = true →
      ∃ u, takes (.spawnWithdrawal k x id t) s u ∧ u.spawnInFlight id = false ∧
        (u.ctx k x).st = .trapped ∧ (u.ctx k x).cause = 0x08 ∧ (u.ctx k x).wait = none)

/-- Messages (R110, R113): they are checked at the issuer and go to their target in order; there an increment
stays at 2^32 − 1, a decrement of 0 does nothing, the one that reaches 0 queues its task and raises READY, past 64
tasks in the overflow ring (R111), in its lowest free slot, which is the model's choice (log entry 9), and a PUT stores
its 8 bytes. -/
def Obligations.Messages : Prop :=
  ∀ (s : State) (d a b : Reg), s.pendingOf [d, a, b] = false →
    (U (s.rg a) % 8 ≠ 0 → takes (.msgDec d a) s (s.trap 0x03 (s.rg a)) ∧ takes (.msgInc d a) s (s.trap 0x03 (s.rg a))) ∧
    (U (s.rg a) % 8 = 0 → s.presentCore s.myPart (U (s.rg d)) = false →
      takes (.msgDec d a) s (s.trap 0x04 (s.rg d)) ∧ takes (.msgInc d a) s (s.trap 0x04 (s.rg d))) ∧
    (U (s.rg a) % 8 = 0 → s.presentCore s.myPart (U (s.rg d)) = true → s.window s.myPart < U (s.rg a) + 8 →
      takes (.msgDec d a) s (s.trap 0x04 (s.rg a)) ∧ takes (.msgInc d a) s (s.trap 0x04 (s.rg a))) ∧
    (U (s.rg b) % 8 ≠ 0 → takes (.msgPut d a b) s (s.trap 0x03 (s.rg b))) ∧
    (U (s.rg b) % 8 = 0 → s.presentCore s.myPart (U (s.rg a)) = false →
      takes (.msgPut d a b) s (s.trap 0x04 (s.rg a))) ∧
    (U (s.rg b) % 8 = 0 → s.presentCore s.myPart (U (s.rg a)) = true → s.window s.myPart < U (s.rg b) + 8 →
      takes (.msgPut d a b) s (s.trap 0x04 (s.rg b))) ∧
    (U (s.rg a) % 8 = 0 → s.presentCore s.myPart (U (s.rg d)) = true → U (s.rg a) + 8 ≤ s.window s.myPart →
      s.me.posted = [] →
      let k := U (s.rg d) * 64 + s.myPart
      let me := s.myCore * 16 + s.slot.val
      takes (.msgDec d a) s (s.post (.msgDecApply me k (U (s.rg a)))).seq ∧
      takes (.msgInc d a) s (s.post (.msgIncApply me k (U (s.rg a)))).seq) ∧
    (U (s.rg b) % 8 = 0 → s.presentCore s.myPart (U (s.rg a)) = true → U (s.rg b) + 8 ≤ s.window s.myPart →
      s.me.posted = [] →
      takes (.msgPut d a b) s (s.post (.msgPutApply (s.myCore * 16 + s.slot.val) (U (s.rg a) * 64 + s.myPart)
        (U (s.rg b)) (s.rg d))).seq) ∧
    (∀ (src k off : Nat) (v : Word),
      let w := s.loadLocal k off 8
      (w % 2 ^ 32 = 0 → takes (.msgDecApply src k off) s s) ∧
      (2 ≤ w % 2 ^ 32 → takes (.msgDecApply src k off) s (s.storeLocal k off 8 (w - 1))) ∧
      (w % 2 ^ 32 = 1 → w / 2 ^ 32 % 2 ^ 16 = 0 → takes (.msgDecApply src k off) s (s.storeLocal k off 8 (w - 1))) ∧
      (∀ p : Fin 4, w % 2 ^ 32 = 1 → w / 2 ^ 32 % 2 ^ 16 ≠ 0 → p.val = w / 2 ^ 48 % 4 → (s.core k).ready[p].length < 64 →
        takes (.msgDecApply src k off) s (((s.modCore k fun c => { c with
          ready := c.ready.set p (c.ready[p] ++ [BitVec.ofNat 16 (w / 2 ^ 32)]) }).raise k 2).storeLocal k off 8
            (w - 1))) ∧
      (∀ p : Fin 4, w % 2 ^ 32 = 1 → w / 2 ^ 32 % 2 ^ 16 ≠ 0 → p.val = w / 2 ^ 48 % 4 →
        64 ≤ (s.core k).ready[p].length → (s.core k).rqEn = false →
        takes (.msgDecApply src k off) s ((s.raise k 5).storeLocal k off 8 ((w - 1) ||| 2 ^ 63))) ∧
      (∀ p : Fin 4, w % 2 ^ 32 = 1 → w / 2 ^ 32 % 2 ^ 16 ≠ 0 → p.val = w / 2 ^ 48 % 4 →
        64 ≤ (s.core k).ready[p].length → (s.core k).rqEn = true → (s.core k).ring = [] →
        let slot := (s.core k).rqBase.toNat * 2048
        takes (.msgDecApply src k off) s ((((s.storeLocal k slot 8 (p.val * 2 ^ 16 + w / 2 ^ 32 % 2 ^ 16)).modCore k
          fun c => { c with ring := c.ring ++ [(BitVec.ofFin p, 0)], ringBad := (s.core k).ringBad }).raise k 2).storeLocal
            k off 8 (w - 1))) ∧
      (w % 2 ^ 32 = 2 ^ 32 - 1 → takes (.msgIncApply src k off) s s) ∧
      (w % 2 ^ 32 ≠ 2 ^ 32 - 1 → takes (.msgIncApply src k off) s (s.storeLocal k off 8 (w + 1))) ∧
      takes (.msgPutApply src k off v) s (s.storeLocal k off 8 (U v)))

/-- Barriers (R115, R116, R249): an object above 15 or a channel above 3 raises cause 0x04, a masked scope is illegal; BAR.INIT sets an object up, EXPECT adds bytes,
ARRIVE answers the phase and counts down, the last arrival flips the phase and answers the waiters 0, WAIT answers
at once in another phase and otherwise waits, ABORT flips at once; the last arrival of a BAR.SYNC answers every
one 0, another count 1. -/
def Obligations.Barriers : Prop :=
  ∀ (s : State) (d a b : Reg) (c : Scope) (o : Slot), s.pendingOf [d, a, b] = false →
    let q := s.myCore / 4
    let p := s.myPart
    (15 < U (s.rg d) → takes (.barInit d a) s (s.trap 0x04 (s.rg d)) ∧ takes (.barExpect d a) s (s.trap 0x04 (s.rg d)) ∧
      takes (.barAbort d) s (s.trap 0x04 (s.rg d))) ∧
    (15 < U (s.rg a) → takes (.barArrive d a) s (s.trap 0x04 (s.rg a)) ∧
      takes (.barWait d a b) s (s.trap 0x04 (s.rg a))) ∧
    (scopeMasked s c = false → 3 < U (s.rg a) → takes (.barSync d a b c) s (s.trap 0x04 (s.rg a))) ∧
    (scopeMasked s c = true → takes (.barSync d a b c) s s.illegal) ∧
    (s.rg d = wrapU o.val →
      let e := s.myObj o
      (U (s.rg a) = 0 ∨ 65535 < U (s.rg a) → takes (.barInit d a) s (s.trap 0x04 (s.rg a))) ∧
      (0 < U (s.rg a) → U (s.rg a) ≤ 65535 →
        takes (.barInit d a) s ((s.setObj q p o
          ⟨false, e.abort, wrap16 (U (s.rg a)), wrap16 (U (s.rg a)), 0, 0, e.inst + 1, []⟩).finishAll e.waiters 1).seq) ∧
      (e.bytes + U (s.rg a) < 2 ^ 48 →
        takes (.barExpect d a) s (s.setObj q p o { e with bytes := e.bytes + U (s.rg a) }).seq) ∧
      takes (.barAbort d) s ((s.setObj q p o { e with
        phase := !e.phase, abort := true, left := e.arr, bytes := 0, bytesIn := 0, inst := e.inst + 1,
        waiters := [] }).finishAll e.waiters 1).seq) ∧
    (s.rg a = wrapU o.val →
      let e := s.myObj o
      (e.left = 0 → takes (.barArrive d a) s (s.trap 0x04 (s.rg a))) ∧
      (e.left ≠ 0 → (e.left ≠ 1 ∨ e.bytesIn ≠ e.bytes) → s.me.posted = [] →
        takes (.barArrive d a) s ((s.result d (if e.phase then 1 else 0)).setObj q p o { e with left := e.left - 1 })) ∧
      (e.left = 1 → e.bytesIn = e.bytes → s.me.posted = [] →
        takes (.barArrive d a) s (((s.result d (if e.phase then 1 else 0)).setObj q p o { e with
          phase := !e.phase, abort := false, left := e.arr, bytes := 0, bytesIn := 0, inst := e.inst + 1,
          waiters := [] }).finishAll e.waiters 0)) ∧
      (e.phase ≠ (s.rg b).getLsbD 0 → takes (.barWait d a b) s (s.result d (if e.abort then 1 else 0))) ∧
      (e.phase = (s.rg b).getLsbD 0 →
        takes (.barWait d a b) s ((s.setObj q p o { e with waiters := e.waiters ++ [(s.key, s.slot)] }).block
          (.barWait o.val d)))) ∧
    (scopeMasked s c = false → s.me.posted = [] → U (s.rg a) ≤ 3 →
      (s.rg b = 0 → takes (.barSync d a b c) s (s.trap 0x04 (s.rg b))) ∧
      (s.chans = [] → s.rg b = 1 → takes (.barSync d a b c) s (s.result d 0)) ∧
      (s.chans = [] → 1 < U (s.rg b) → U (s.rg b) ≤ 2 ^ 22 →
        takes (.barSync d a b c) s (({ s with chans := [⟨c, scopeInst c s.myCore, p, U (s.rg a), U (s.rg b),
          [(s.key, s.slot)]⟩] } : State).block (.barSync c (scopeInst c s.myCore) (U (s.rg a)) d))) ∧
      (∀ l, s.chans = [⟨c, scopeInst c s.myCore, p, U (s.rg a), l.length + 1, l⟩] →
        (U (s.rg b) = l.length + 1 → l.length < 2 ^ 22 →
          takes (.barSync d a b c) s ((({ s with chans := [] } : State).finishAll l 0).result d 0)) ∧
        (U (s.rg b) ≠ l.length + 1 → 0 < U (s.rg b) → U (s.rg b) ≤ 2 ^ 22 →
          takes (.barSync d a b c) s ((({ s with chans := [] } : State).finishAll l 1).result d 1))))

/-! ## Traps, state registers and system instructions (R251, R261, R267 to R269, R279 to R285) -/

/-- Trap entry (R279): the trapping instruction's context records cause, address and value, enters TRAPPED and
raises TRAP on its core; it changes no general register, no loop, no pending token and no other context, and no
memory. A context that is SPILLING stays so; a trap of context 0 becomes a machine check (R102). -/
def Obligations.TrapEntry : Prop :=
  ∀ (s : State) (n : Nat) (v : Word), n < 256 → s.me.ending = false →
    let t := s.trap n v
    t.me.cause.toNat = n ∧ t.me.skip = false ∧ t.me.epc = s.me.pc ∧ t.me.pc = s.me.pc ∧ t.me.tval = v ∧
    t.me.st = (if s.me.st = .spilling then .spilling else .trapped) ∧ t.me.trapRec = true ∧ t.me.wait = none ∧
    (∀ r, t.rg r = s.rg r) ∧ t.me.loop0 = s.me.loop0 ∧ t.me.loop1 = s.me.loop1 ∧ t.me.pend = s.me.pend ∧
    t.me.vprog = s.me.vprog ∧ t.me.posted = s.me.posted ∧ t.me.asid = s.me.asid ∧ t.me.bind = s.me.bind ∧
    (∀ x : Slot, x ≠ s.slot → t.ctx s.key x = s.ctx s.key x) ∧
    (∀ k, k ≠ s.key → t.core k = s.core k) ∧ t.mem = s.mem ∧ t.hw = s.hw ∧ t.parts = s.parts ∧
    (s.slot ≠ 0 → t.mine.event = (s.mine.event ||| 2) ∧ t.flight = s.flight) ∧
    (s.slot = 0 → t.mine.event = s.mine.event ∧
      t.flight = s.flight ++ [.machineCheck s.key 0 ⟨1, s.me.asid.toNat, n, U s.me.pc, U v⟩])

/-- SYS.SRRD answers each register's value, reserved bits 0, to whoever may read it, and cause 0x04 with the index
to everyone else: sr.asidtab and the registers of the migration engine to a core that is not the service core.
Index 0x100 + r is register r of the context that sr.sel names, and 0x120 + r its general register, as the writes
that wait for its next issue leave them (log entry 46; R94, R97, R99, R100, R144, R250, R265, R282 to R284). -/
def Obligations.StateRegisterReads : Prop :=
  ∀ (s : State) (d : Reg), s.pendingOf [d] = false →
    let c := s.me
    let f := s.cfg s.myPart
    (∀ e ∈ [((0x000 : BitVec 12), wrapU s.myCore), (0x001, wrapU (s.myCore * 16 + s.slot.val)),
        (0x002, wrapU c.asid.toNat), (0x003, if c.rights then 1 else 0), (0x004, wrapU (U c.pc / 4 * 4)), (0x005, wrapU c.blkto.toNat),
        (0x008, wrapU (c.cause.toNat + if c.skip then 0x10000 else 0)), (0x009, c.epc), (0x00A, c.tval),
        (0x00C, wrapU c.round.toNat), (0x00D, wrapU c.vprog.toNat), (0x00E, c.touched), (0x010, c.loop0.start),
        (0x011, c.loop0.last), (0x012, c.loop0.count), (0x014, c.loop1.start), (0x015, c.loop1.last),
        (0x016, c.loop1.count), (0x018, c.icmiss),
        (0x019, s.bctabOf s.myPart c.asid), (0x01A, s.reclaimOf s.myPart c.asid), (0x041, wrapU s.mine.event.toNat), (0x042, s.mine.evec),
        (0x043, wrapU s.mine.timer.toNat), (0x044, s.mine.spexit),
        (0x045, wrapU (s.mine.area.toNat * 2 ^ 13 + s.mine.used.toNat * 2 ^ 5 + (if s.mine.aspill then 2 else 0) +
          if s.mine.auto then 1 else 0)),
        (0x046, wrapU s.mine.inbox.length),
        (0x047, wrapU (s.mine.rqBase.toNat * 2 ^ 11 + if s.mine.rqEn then 1 else 0)), (0x048, wrapU s.mine.sel.toNat),
        (0x049, wrapU s.mine.gen.toNat), (0x080, wrapU f.feat.toNat),
        (0x081, wrapU (f.svcRing % 128 * 2 ^ 18 + f.svcCore % 2 ^ 18)), (0x082, wrapU (f.frametab % 2 ^ 44 * 2 ^ 12)),
        (0x040, wrapU (((List.finRange 16).map fun x : Slot => stateCode (s.mine.ctxs[x]).st * 16 ^ x.val).sum))],
      gives s (.sysSrrd d e.1) d e.2) ∧
    (s.myCore = f.svcCore → gives s (.sysSrrd d 0x083) d (wrapU ((s.part s.myPart).asidtab.toNat * 2 ^ 12))) ∧
    (s.myCore = f.svcCore → s.masked s.myPart 10 = false →
      let m := (s.part s.myPart).mig
      gives s (.sysSrrd d 0x088) d (wrapU (m.src.toNat * 2 ^ 12)) ∧
      gives s (.sysSrrd d 0x089) d (wrapU (m.dst.toNat * 2 ^ 12)) ∧
      gives s (.sysSrrd d 0x08A) d (wrapU (m.bound * 2 ^ 8 + m.err * 2 ^ 4 + migCode m.st * 2 ^ 2))) ∧
    (s.myCore ≠ f.svcCore → takes (.sysSrrd d 0x083) s (s.trap 0x04 0x083) ∧
      (s.masked s.myPart 10 = false → ∀ i ∈ [(0x088 : BitVec 12), 0x089, 0x08A],
        takes (.sysSrrd d i) s (s.trap 0x04 (wrapU i.toNat)))) ∧
    (∀ core ring, lrsOf f s.myDie = some (core, ring) →
      gives s (.sysSrrd d 0x084) d (wrapU (ring % 128 * 2 ^ 18 + core % 2 ^ 18))) ∧
    (lrsOf f s.myDie = none → gives s (.sysSrrd d 0x084) d 0) ∧
    (s.masked s.myPart 10 = true → ∀ i ∈ [(0x088 : BitVec 12), 0x089, 0x08A],
      takes (.sysSrrd d i) s s.illegal ∧ takes (.sysSrwr d i) s s.illegal) ∧
    (∀ r : BitVec 12, r < 0x40 → indexAssigned (0x100 + r).toNat = true →
      (s.slot ≠ 0 ∨ windowOpen (s.ctx s.key s.selected).st = false →
        takes (.sysSrrd d (0x100 + r)) s (s.trap 0x04 (0x100 + wrapU r.toNat))) ∧
      (s.slot = 0 → windowOpen (s.ctx s.key s.selected).st = true →
        let t := s.setCtx s.key s.selected (s.ctx s.key s.selected).flushed
        gives s (.sysSrrd d (0x100 + r)) d (if r < 0x20 then t.ctxReg s.key s.selected r.toNat
          else (t.ctx s.key s.selected).rd (BitVec.ofNat 5 (r.toNat - 0x20)))))

/-- SYS.SRWR writes the register and nothing else: a context its own registers, from its next instruction on (its own
end check has the old loop registers), context 0 those of its core and, through the window, those of another context,
at once or, while an instruction of that one is outstanding, for its next issue (log entry 46). Effects that the core's
own steps make are posted for before the next instruction (log entry 19). A register that the issuer may not write and
an area or ring past the window raise cause 0x04 with the index; a value with a reserved bit or that the map forbids raises
cause 0x01 (R5, R6, R42, R83, R86, R99, R282 to R284). That the issuer and the area come before a forbidden value, and
reserved bits with it, is the model's inference (log entry 20). -/
def Obligations.StateRegisterWrites : Prop :=
  ∀ (s : State) (d : Reg) (idx : BitVec 12), s.pendingOf [d] = false → s.masked s.myPart 10 = false →
    let v := s.rg d
    let c := s.me
    let own := fun (i : BitVec 12) (f : Ctx → Ctx) => takes (.sysSrwr d i) s (s.seq.setMe (f s.seq.me))
    let core := fun (i : BitVec 12) (f : Core → Core) => takes (.sysSrwr d i) s (s.modMine f).seq
    (U v < 2 ^ 32 → own 0x005 fun c => { c with blkto := BitVec.ofNat 32 (U v) }) ∧
    (U v < 32 → U v % 8 < 5 → own 0x00C fun c => { c with round := BitVec.ofNat 5 (U v) }) ∧
    (U v < 32 → own 0x00D fun c => { c with vprog := BitVec.ofNat 5 (U v) }) ∧
    (U v % 4 = 0 → own 0x010 (fun c => { c with loop0 := { c.loop0 with start := v } }) ∧
      own 0x011 (fun c => { c with loop0 := { c.loop0 with last := v } }) ∧
      own 0x014 (fun c => { c with loop1 := { c.loop1 with start := v } }) ∧
      own 0x015 fun c => { c with loop1 := { c.loop1 with last := v } }) ∧
    own 0x012 (fun c => { c with loop0 := { c.loop0 with count := v } }) ∧
    own 0x016 (fun c => { c with loop1 := { c.loop1 with count := v } }) ∧
    (U v < 2 ^ 58 → own 0x018 fun c => { c with icmiss := v }) ∧
    (s.slot = 0 → (U v < 2 ^ 16 → own 0x002 fun c => { c with asid := wrap16 (U v) }) ∧
      (U v < 2 → own 0x003 fun c => { c with rights := v = 1 }) ∧
      (U v < 2 ^ 9 → core 0x041 fun e => { e with event := e.event &&& ~~~(BitVec.ofNat 9 (U v)) }) ∧
      (U v % 4 = 0 → core 0x042 (fun e => { e with evec := v }) ∧ core 0x044 fun e => { e with spexit := v }) ∧
      (U v < 16 → core 0x048 fun e => { e with sel := BitVec.ofNat 4 (U v) }) ∧
      (0 < U v → U v < 2 ^ 32 → takes (.sysSrwr d 0x043) s
        ({ s with urgent := s.urgent ++ [.timerArm s.key (U v)] } : State).seq) ∧
      (U v < 16 → takes (.sysSrwr d 0x046) s
        ({ s with urgent := s.urgent ++ [.spawnAnswer s.key (U v)] } : State).seq) ∧
      (v &&& ~~~0x7FFE3 = 0 →
        (U v / 2 ^ 13 * 8192 + 8192 ≤ s.window s.myPart → core 0x045 fun e => { e with
          area := BitVec.ofNat 6 (U v / 2 ^ 13), used := BitVec.ofNat 8 (U v / 2 ^ 5), aspill := v.getLsbD 1,
          auto := v.getLsbD 0 }) ∧
        (s.window s.myPart < U v / 2 ^ 13 * 8192 + 8192 → takes (.sysSrwr d 0x045) s (s.trap 0x04 0x045))) ∧
      (v &&& ~~~0x7F801 = 0 →
        let fits := v.getLsbD 0 = false ∨ U v / 2 ^ 11 * 2048 + 2048 ≤ s.window s.myPart
        (fits → s.mine.ring = [] → core 0x047 fun e => { e with
          rqBase := BitVec.ofNat 8 (U v / 2 ^ 11), rqEn := v.getLsbD 0 }) ∧
        (fits → s.mine.ring ≠ [] → core 0x047 fun e => e) ∧
        (¬ fits → takes (.sysSrwr d 0x047) s (s.trap 0x04 0x047))) ∧
      (s.onSvc = true → v &&& ~~~0x00FFFFFFFFFFF000 = 0 →
        let part := fun (i : BitVec 12) (f : Part → Part) => takes (.sysSrwr d i) s (s.modPart s.myPart f).seq
        part 0x083 (fun e => { e with asidtab := BitVec.ofNat 44 (U v / 2 ^ 12) }) ∧
        ((s.part s.myPart).mig.st = .idle →
          part 0x088 (fun e => { e with mig := { e.mig with src := BitVec.ofNat 44 (U v / 2 ^ 12) } }) ∧
          part 0x089 fun e => { e with mig := { e.mig with dst := BitVec.ofNat 44 (U v / 2 ^ 12) } })) ∧
      (s.onSvc = true → v &&& ~~~0xFFFF = 0 →
        let begins := fun (i : Instr) =>
          takes (.sysSrwr d 0x08A) s ({ s with urgent := s.urgent ++ [i] } : State).seq
        ((s.part s.myPart).mig.st = .idle → U v % 4 = 1 → begins (.migStart s.myPart)) ∧
        ((s.part s.myPart).mig.st = .done → U v % 4 = 2 → begins (.migRelease s.myPart)) ∧
        ((s.part s.myPart).mig.st = .error → U v % 4 = 2 → begins (.migClear s.myPart)) ∧
        ((s.part s.myPart).mig.st = .run ∨ U v % 4 = 0 ∨ U v % 4 = 3 → takes (.sysSrwr d 0x08A) s s.seq)) ∧
      (s.onSvc = false → ∀ i ∈ [(0x083 : BitVec 12), 0x088, 0x089, 0x08A],
        takes (.sysSrwr d i) s (s.trap 0x04 (wrapU i.toNat))) ∧
      (v = 0 → takes (.sysSrwr d 0x043) s ({ s with urgent := s.urgent ++ [.timerDisarm s.key] } : State).seq)) ∧
    (s.slot ≠ 0 → ∀ i ∈ [(0x002 : BitVec 12), 0x003, 0x041, 0x042, 0x043, 0x044, 0x045, 0x046, 0x047, 0x048, 0x083],
      takes (.sysSrwr d i) s (s.trap 0x04 (wrapU i.toNat))) ∧
    (∀ i ∈ [(0x000 : BitVec 12), 0x001, 0x004, 0x008, 0x009, 0x00A, 0x00E, 0x040, 0x049, 0x080, 0x081, 0x082, 0x084],
      takes (.sysSrwr d i) s (s.trap 0x04 (wrapU i.toNat))) ∧
    (s.refusesWrite idx.toNat = false → s.areaFaults idx.toNat v = true →
      takes (.sysSrwr d idx) s (s.trap 0x04 (wrapU idx.toNat))) ∧
    (s.refusesWrite idx.toNat = false → s.areaFaults idx.toNat v = false → badValue idx.toNat v = true →
      takes (.sysSrwr d idx) s s.illegal) ∧
    (s.slot = 0 → windowOpen (s.ctx s.key s.selected).st = true →
      let x := s.ctx s.key s.selected
      let put := fun (i : BitVec 12) (e : Ctx) =>
        (x.wait = none → x.fetched = none → x.wwrites = [] →
          takes (.sysSrwr d i) s (s.setCtx s.key s.selected e).seq) ∧
        (x.wait ≠ none ∨ x.fetched ≠ none → takes (.sysSrwr d i) s
          (s.setCtx s.key s.selected { x with wwrites := x.wwrites ++ [(i, v)] }).seq)
      (∀ r : Reg, put (0x120 + r.setWidth 12) (x.wr r v)) ∧
      (U v % 4 = 0 → put 0x104 { x with pc := v, skipping := false }) ∧
      (v &&& ~~~0x100FF = 0 → put 0x108 { x with skip := v.getLsbD 16 })) ∧
    (U v % 8 = 0 → takes (.sysSrwr d 0x019) s
      (({ s with urgent := s.urgent ++ [.bctabWrite s.key s.slot c.asid.toNat v] } : State).block .acks)) ∧
    (U v % 4096 < 2 → takes (.sysSrwr d 0x01A) s
      (({ s with urgent := s.urgent ++ [.reclaimWrite s.key s.slot c.asid.toNat v] } : State).block .acks))

/-- The system instructions: the module time as the die sees it (log entry 16: within its skew), the capabilities, the
flush of the fetch levels, after which a fetch under way whose data may be older asks again (R162, R262), the system call and the breakpoint, whose effect is their trap (R189, R251, R261,
R285, R300). -/
def Obligations.SystemInstructions : Prop :=
  ∀ (s : State) (d a : Reg), s.pendingOf [d, a] = false →
    gives s (.sysNow d) d (wrapU (s.time + (Config.dieSkew s.myDie).val)) ∧
    (∃ v, gives s (.sysCapq d a) d v ∧
      (s.rg a = 0 → v = 0x0000010000030001) ∧
      (s.rg a = 1 → v.toNat = 0x7FF - (s.cfg s.myPart).feat.toNat % 0x800) ∧
      (s.rg a ∈ [(2 : Word), 3, 4] → v = 0) ∧
      (s.rg a = 8 → U v = ((s.presentDies s.myPart).map fun e =>
        8192 - (s.retiredCores.eraseDups.filter fun c => dieOfCore c = e).length).foldl (· + ·) 0 % 2 ^ 64) ∧
      (s.rg a = 9 → ∀ e < 64, v.getLsbD e = (decide (e < 32) && (s.presentDies s.myPart).contains e)) ∧
      (s.rg a = 0x10 → ∀ f < 64, v.getLsbD f = (decide (f < 16) && s.mmaFormat s.myPart f)) ∧
      (s.rg a = 0x11 → ∀ f < 64, v.getLsbD f = (decide (f < 15) && !s.formatMasked s.myPart f)) ∧
      (U (s.rg a) ∈ [5, 6, 7, 0xE, 0xF, 0x12, 0x13, 0x14, 0x15, 0x16, 0x17] → v = 0xFFFFFFFFFFFFFFFF) ∧
      (s.rg a = 0xA → v = 16) ∧ (s.rg a = 0xB → v = wrapU (s.window s.myPart)) ∧
      (s.rg a = 0xC → v = wrapU s.myPart) ∧
      (s.rg a = 0xD → v = if s.podMember then wrapU (2 ^ 63 + s.podModule.toNat) else 0) ∧
      (s.rg a = 0x18 → v = 32) ∧ (s.rg a = 0x19 → v = 4) ∧
      (0x19 < U (s.rg a) → v = 0xFFFFFFFFFFFFFFFF)) ∧
    (s.me.posted = [] →
      let t : State := { s.seq with
        fetch := s.fetch.filter fun f => f.2.part ≠ s.myPart
        hw := s.hw.map fun e => (e.1, { e.2 with
          lbuf := e.2.lbuf.filter fun f => f.part ≠ s.myPart
          l1i := e.2.l1i.filter fun f => f.part ≠ s.myPart }) }
      let u := t.fetchesAgain s.myPart
      takes .sysIflush s u ∧ u.fetch = t.fetch ∧ u.hw = t.hw ∧ u.mem = s.mem ∧ u.flight = s.flight ∧
      (∀ k x, (u.ctx k x).g = (t.ctx k x).g ∧ (u.ctx k x).pc = (t.ctx k x).pc) ∧
      ∀ (k e line : Nat) (x : Slot), partOf k = s.myPart → k ≠ s.key ∨ x ≠ s.slot → (s.ctx k x).fetched = none →
        (s.ctx k x).wait = some (.line e line) →
        (u.ctx k x).wait = some (if (s.openReq e (partOf k) line).any (·.marked) then .late e line else .line e line)) ∧
    takes (.sysScall a) s (s.trap 0x0B (s.rg a)) ∧
    takes .sysBrk s (s.trap 0x0A 0)

/-- The instructions of the service core and the last-resort supervisors, cause 0x04 for every other core: XINV
drops from every die and copy engine the translations of an identifier, or those that meet the largest page that holds
an address (a table that cannot be read gives no page: the model's inference, log entry 19), with the L1 lines there,
whose dirty bytes it writes back, and keeps every other; before it drops them it waits for walks of those pages, and
then for accesses under way; PGREF changes a frame's count, in an entry that the partition reaches and that is in no
core map, and answers the new entry, or bit 63 and the old one where the count leaves its range; FREPLY marks a record
answered and sends the reply (R25, R26, R266 to R269, R275, R333). -/
def Obligations.ServiceInstructions : Prop :=
  ∀ (s s1 s2 : State) (d a : Reg) (data : LineData), s.pendingOf [d, a] = false →
    let p := s.myPart
    let w := s.rg d
    let v := s.rg a
    (s.onSvc = false → isLrs (s.cfg p) s.myCore = false →
      takes (.sysXinv d a) s (s.trap 0x04 0) ∧ takes (.sysFreply d a) s (s.trap 0x04 0) ∧
      (U v % 4096 = 0 → takes (.sysPgref d a) s (s.trap 0x04 0))) ∧
    (U v % 4096 ≠ 0 → takes (.sysPgref d a) s (s.trap 0x03 v)) ∧
    (s.onSvc = true ∨ isLrs (s.cfg p) s.myCore = true → s.me.posted = [] →
      (2 ^ 17 ≤ U w → takes (.sysXinv d a) s (s.trap 0x04 w)) ∧
      let under := fun (t : State) (lv : Nat) => t.underWay p || t.queuedUnder p (U w % 2 ^ 16) v lv
      (let t := s.invalidate p (U w % 2 ^ 16) v 5
        let dropped := fun (x : XEntry) =>
          ¬ (x.part = p ∧ x.asid.toNat = U w % 2 ^ 16 ∧ x.level < 5 ∧ x.page * 2 ^ (9 * x.level) < 2 ^ 45)
        2 ^ 16 ≤ U w → U w < 2 ^ 17 →
        (s.walksUnder p (U w % 2 ^ 16) v 5 = true →
          takes (.sysXinv d a) s (s.block (.xinv (U w % 2 ^ 16) v 5 false))) ∧
        (s.walksUnder p (U w % 2 ^ 16) v 5 = false →
          (under t 5 = false → takes (.sysXinv d a) s t.seq) ∧
          (under t 5 = true → takes (.sysXinv d a) s (t.block (.xinv (U w % 2 ^ 16) v 5 true)))) ∧
        (∀ e ∈ t.dies, e.1 ∈ (s.cfg p).dies → ∀ x ∈ e.2.xlat, dropped x.2) ∧
        ∀ c, dieOfCore c ∈ (s.cfg p).dies → ∀ x ∈ (t.hwOf c).xjob, dropped x) ∧
      (U w < 2 ^ 16 → canonical v = false → takes (.sysXinv d a) s (s.trap 0x04 v)) ∧
      (U w < 2 ^ 16 → canonical v = true → ∀ r,
        walkTable p (U w) v s = .ok r s1 ∨ r = .refused ∧ walkTable p (U w) v s = .error .err s1 →
        let leaf := match r with
          | .leaf _ l _ => l
          | _ => 0
        let lv := max leaf (s.cachedLevel p (U w) v)
        let t := s1.invalidate p (U w) v lv
        (s1.walksUnder p (U w) v lv = true → takes (.sysXinv d a) s (s1.block (.xinv (U w) v lv false))) ∧
        (s1.walksUnder p (U w) v lv = false →
          (under t lv = false → takes (.sysXinv d a) s t.seq) ∧
          (under t lv = true → takes (.sysXinv d a) s (t.block (.xinv (U w) v lv true))))) ∧
      (U w < 2 ^ 16 → canonical v = true → ∀ e, walkTable p (U w) v s = .error (.block e) s1 →
        takes (.sysXinv d a) s (s1.block e)) ∧
      (∀ h, U v % 4096 = 0 → place (loc (U v)) = .dram h → h ∈ (s.cfg p).dies →
        let e := (s.cfg p).frametab * 4096 + 4 * frameOf (U v)
        s.admits p e = false ∨ s.inCoreMap (loc e) = true → takes (.sysPgref d a) s (s.trap 0x04 v)) ∧
      (∀ h, U v % 4096 = 0 → place (loc (U v)) = .dram h → h ∈ (s.cfg p).dies → -0xFFFFFF ≤ S w → S w ≤ 0xFFFFFF →
        let e := (s.cfg p).frametab * 4096 + 4 * frameOf (U v)
        s.admits p e = true → s.inCoreMap (loc e) = false →
        let home := s.homeAgent p (s.steer p e)
        let t : State := { s with cur := { s.cur with used := s.cur.used + 1 } }
        s.cur.used < s.me.replies → s.badLine p e true = false → ownLine home p e t = .ok () s1 →
        readLine home p e s1 = .ok data s2 →
        let old := data.toNat / 256 ^ (e % 128) % 2 ^ 32
        let n := (old % 2 ^ 24 : Nat) + S w
        (0 ≤ n → n ≤ 0xFFFFFF →
          let new := old / 2 ^ 24 * 2 ^ 24 + n.toNat
          takes (.sysPgref d a) s
            ((s2.mergeOwned home p e (maskOf (e % 128) 4) (placed (e % 128) new)).result d (wrapU new))) ∧
        (n < 0 ∨ 0xFFFFFF < n → takes (.sysPgref d a) s (s2.result d (wrapU (2 ^ 63 + old))))) ∧
      (isRecord (ringsOf (s.cfg p) s.myCore) (U v) = false → takes (.sysFreply d a) s (s.trap 0x04 v)) ∧
      (isRecord (ringsOf (s.cfg p) s.myCore) (U v) = true → U v + 64 ≤ s.window p →
        s.loadLocal s.key (U v + 56) 8 = 0 → U w ≤ 1 →
        takes (.sysFreply d a) s
          ((s.storeLocal s.key (U v + 56) 8 (2 ^ 63 + U w)).sendReply (U v) (U w)).seq)) ∧
    (∀ (u : State) (k id lv : Nat) (x : Slot) (va : Word), (u.ctx k x).wait = some (.xinv id va lv true) →
      (u.underWay (partOf k) = false → u.queuedUnder (partOf k) id va lv = false →
        u.xinvOn k x = u.finish k x 0 0) ∧
      (u.underWay (partOf k) = true ∨ u.queuedUnder (partOf k) id va lv = true → u.xinvOn k x = u)) ∧
    (∀ (u : State) (k id lv : Nat) (x : Slot) (va : Word), (u.ctx k x).wait = some (.xinv id va lv false) →
      (u.walksUnder (partOf k) id va lv = true → u.xinvOn k x = u) ∧
      (u.walksUnder (partOf k) id va lv = false →
        let top := max lv (u.cachedLevel (partOf k) id va)
        let t := u.invalidate (partOf k) id va top
        u.xinvOn k x = t.setCtx k x { t.ctx k x with wait := some (.xinv id va top true) })) ∧
    (∀ (u : State) (q id lv : Nat) (va : Word), lv ≤ 5 →
      let t := u.invalidate q id va lv
      let first := U va % 2 ^ 57 / 2 ^ (12 + 9 * lv) * 2 ^ (9 * lv)
      let meets := fun (page level : Nat) =>
        page * 2 ^ (9 * level) < first + 2 ^ (9 * lv) ∧ first < (page + 1) * 2 ^ (9 * level)
      let leaf := fun (x : XEntry) => x.part = q ∧ x.asid.toNat = id ∧ meets x.page x.level
      (∀ e ∈ t.dies, e.1 ∈ (u.cfg q).dies → ∀ x ∈ e.2.xlat, ¬ leaf x.2) ∧
      ∀ c, dieOfCore c ∈ (u.cfg q).dies → (∀ x ∈ (t.hwOf c).xjob, ¬ leaf x) ∧
        ∀ l : L1Line, let covered := l.part = q ∧ l.asid.toNat = id ∧ meets (l.va / 32 % 2 ^ 45) 0
          (covered → l ∉ (t.hwOf c).l1) ∧
          (l ∈ (u.hwOf c).l1 → ¬ covered → l ∈ (t.hwOf c).l1) ∧
          (l ∈ (u.hwOf c).l1 → covered → l.dirty ≠ 0 → ∃ h, Instr.postedWriteArrival
            ⟨.evict c, h, dieOfCore c, q, l.pa, l.dirty, l.data⟩ ∈ t.flight))

/-! ## The vector unit (R196 to R225) -/

/-- Grouped lane instructions: each active lane of each register of the group receives the function of the same
lane of the sources, an inactive lane keeps its value, and nothing else changes; a compare writes every bit of its
mask register, 0 for an inactive lane. Without the binding each traps with cause 0x06; DIV, SQRT and EXP2 are
illegal where VMATH is masked (R103, R211, R214 to R217, R249). -/
def Obligations.VectorLanes : Prop :=
  ∀ (s : State) (d a b : Reg) (m : QReg) (q : BitVec 2) (g : BitVec 3),
    let mo := s.mode
    let at_ := fun (r : Reg) (k l : Nat) => s.mine.lane (r + BitVec.ofNat 5 k) l
    let two : List (Instr × (W32 → W32 → W32)) :=
      [(.vfpAdd d a b q g, fpAdd mo), (.vfpSub d a b q g, fpSub mo), (.vfpMul d a b q g, fpMul mo),
       (.vfpMin d a b q g, fpMin mo), (.vfpMax d a b q g, fpMax mo),
       (.vinAdd d a b q g, fun x y => BitVec.ofInt 32 (x.toInt + y.toInt)),
       (.vinSub d a b q g, fun x y => BitVec.ofInt 32 (x.toInt - y.toInt)),
       (.vinMul d a b q g, fun x y => BitVec.ofInt 32 (x.toInt * y.toInt)),
       (.vinMulh d a b q g, fun x y => BitVec.ofInt 32 (x.toInt * y.toInt / 2 ^ 32)),
       (.vinAnd d a b q g, fun x y => x &&& y), (.vinOr d a b q g, fun x y => x ||| y),
       (.vinXor d a b q g, fun x y => x ^^^ y),
       (.vinShl d a b q g, fun x y => BitVec.ofNat 32 (x.toNat * 2 ^ (y.toNat % 32))),
       (.vinShr d a b q g, fun x y => BitVec.ofNat 32 (x.toNat / 2 ^ (y.toNat % 32))),
       (.vinSar d a b q g, fun x y => BitVec.ofInt 32 (x.toInt / 2 ^ (y.toNat % 32))),
       (.vinMin d a b q g, fun x y => if x.toInt ≤ y.toInt then x else y),
       (.vinMax d a b q g, fun x y => if x.toInt ≥ y.toInt then x else y),
       (.vinMinu d a b q g, fun x y => if x.toNat ≤ y.toNat then x else y),
       (.vinMaxu d a b q g, fun x y => if x.toNat ≥ y.toNat then x else y),
       (.vinAdds d a b q g, fun x y => BitVec.ofInt 32 (max (-2 ^ 31) (min (2 ^ 31 - 1) (x.toInt + y.toInt)))),
       (.vinSubs d a b q g, fun x y => BitVec.ofInt 32 (max (-2 ^ 31) (min (2 ^ 31 - 1) (x.toInt - y.toInt))))]
    let one : List (Instr × (W32 → W32)) := [(.vfpAbs d a q g, fpAbs mo), (.vfpNeg d a q g, fpNeg mo)]
    let masks : List (Instr × (W32 → W32 → Bool)) :=
      [(.vfpCeq m a b q, fpCompare mo fun i j => i == j), (.vfpClt m a b q, fpCompare mo fun i j => i < j),
       (.vfpCle m a b q, fpCompare mo fun i j => i ≤ j), (.vinCeq m a b q, fun x y => x = y),
       (.vinClt m a b q, fun x y => x.toInt < y.toInt), (.vinCltu m a b q, fun x y => x.toNat < y.toNat)]
    let sel := fun (k l : Nat) (x : W32) => if s.mine.active q l then x else at_ d k l
    (s.me.bind = 1 →
      (∀ e ∈ two, writesLanes s e.1 d (g.toNat + 1) fun k l => sel k l (e.2 (at_ a k l) (at_ b k l))) ∧
      (∀ e ∈ one, writesLanes s e.1 d (g.toNat + 1) fun k l => sel k l (e.2 (at_ a k l))) ∧
      writesLanes s (.vfpFma d a b q g) d (g.toNat + 1)
        (fun k l => sel k l (fpFma mo (at_ a k l) (at_ b k l) (at_ d k l))) ∧
      writesLanes s (.vfpFms d a b q g) d (g.toNat + 1)
        (fun k l => sel k l (fpFms mo (at_ a k l) (at_ b k l) (at_ d k l))) ∧
      (∀ e ∈ masks, writesMask s e.1 m fun l => s.mine.active q l && e.2 (s.mine.lane a l) (s.mine.lane b l)) ∧
      (s.masked s.myPart 6 = false →
        writesLanes s (.vfpDiv d a b q g) d (g.toNat + 1)
          (fun k l => sel k l (fpDiv mo (at_ a k l) (at_ b k l))) ∧
        writesLanes s (.vfpSqrt d a q g) d (g.toNat + 1) (fun k l => sel k l (fpSqrt mo (at_ a k l))) ∧
        writesLanes s (.vfpExp2 d a q g) d (g.toNat + 1) (fun k l => sel k l (fpExp2 mo (at_ a k l))))) ∧
    (s.me.bind ≠ 1 → (∀ e ∈ two, takes e.1 s (s.trap 0x06 0)) ∧ (∀ e ∈ one, takes e.1 s (s.trap 0x06 0)) ∧
      (∀ e ∈ masks, takes e.1 s (s.trap 0x06 0)) ∧ takes (.vfpFma d a b q g) s (s.trap 0x06 0) ∧
      takes (.vfpFms d a b q g) s (s.trap 0x06 0)) ∧
    (s.masked s.myPart 6 = true → ∀ i ∈ [Instr.vfpDiv d a b q g, .vfpSqrt d a q g, .vfpExp2 d a q g],
      takes i s s.illegal)

/-- Moves, masks, reductions and conversions: what each lane, mask or general register receives; the integer
reductions answer the exact sum and the extreme of the active lanes; FSUM answers the sum of R220's pairwise tree over
the active lanes, each pair's sum rounded as ADD rounds it, and a lane without its pair passed on; a conversion writes its active elements in
place (R218 to R221, R249). -/
def Obligations.VectorMoves : Prop :=
  ∀ (s : State) (d a b : Reg) (m n o : QReg) (q : BitVec 2) (src dst : Fmt), s.pendingOf [d, a, b] = false →
    s.me.bind = 1 →
    let ln := fun (r : Reg) (l : Nat) => s.mine.lane r l
    let act := fun (l : Nat) => s.mine.active q l
    let sel := fun (l : Nat) (x : W32) => if act l then x else ln d l
    let low := fun (x : Word) => BitVec.ofNat 32 (U x)
    writesLanes s (.vmvMov d a q) d 1 (fun _ l => sel l (ln a l)) ∧
    writesLanes s (.vmvBcast d a q) d 1 (fun _ l => sel l (low (s.rg a))) ∧
    writesLanes s (.vmvSel d a b q) d 1 (fun _ l => if act l then ln a l else ln b l) ∧
    writesLanes s (.vmvPerm d a b q) d 1 (fun _ l => sel l (ln a ((ln b l).toNat % 32))) ∧
    writesLanes s (.vmvRot d a b q) d 1 (fun _ l => sel l (ln a ((l + U (s.rg b) % 32) % 32))) ∧
    writesLanes s (.vmvIns d a b) d 1 (fun _ l => if l = U (s.rg b) % 32 then low (s.rg a) else ln d l) ∧
    gives s (.vmvExt d a b) d (wrapU (ln a (U (s.rg b) % 32)).toNat) ∧
    writesMask s (.vmvQand m n o) m (fun l => s.mine.q[n.toFin].getLsbD l && s.mine.q[o.toFin].getLsbD l) ∧
    writesMask s (.vmvQor m n o) m (fun l => s.mine.q[n.toFin].getLsbD l || s.mine.q[o.toFin].getLsbD l) ∧
    writesMask s (.vmvQnot m n) m (fun l => !s.mine.q[n.toFin].getLsbD l) ∧
    writesMask s (.vmvQwr m a) m (fun l => (s.rg a).getLsbD l) ∧
    gives s (.vmvQrd d n) d (wrapU s.mine.q[n.toFin].toNat) ∧
    gives s (.vrdIsum d a q) d
      (wrapS (((List.range 32).filter act).map fun l => (ln a l).toInt).sum) ∧
    (∃ v, gives s (.vrdImax d a q) d v ∧ (∀ l < 32, act l → (ln a l).toInt ≤ S v) ∧
      (S v = -2 ^ 31 ∨ ∃ l < 32, act l ∧ S v = (ln a l).toInt)) ∧
    (∃ v, gives s (.vrdImin d a q) d v ∧ (∀ l < 32, act l → S v ≤ (ln a l).toInt) ∧
      (S v = 2 ^ 31 - 1 ∨ ∃ l < 32, act l ∧ S v = (ln a l).toInt)) ∧
    (∃ v, gives s (.vrdImaxu d a q) d v ∧ (∀ l < 32, act l → (ln a l).toNat ≤ U v) ∧
      (U v = 0 ∨ ∃ l < 32, act l ∧ U v = (ln a l).toNat)) ∧
    (∃ v, gives s (.vrdIminu d a q) d v ∧ (∀ l < 32, act l → U v ≤ (ln a l).toNat) ∧
      (U v = 2 ^ 32 - 1 ∨ ∃ l < 32, act l ∧ U v = (ln a l).toNat)) ∧
    gives s (.vrdFmax d a q) d
      (wrapU ((((List.range 32).filter act).map (ln a)).foldl (fpMax s.mode) 0xFF800000).toNat) ∧
    gives s (.vrdFmin d a q) d
      (wrapU ((((List.range 32).filter act).map (ln a)).foldl (fpMin s.mode) 0x7F800000).toNat) ∧
    (∀ tree : Nat → Nat → Option W32,
      (∀ l < 32, tree 0 l = if act l then some (ln a l) else none) →
      (∀ k < 5, ∀ i < 32 / 2 ^ (k + 1), tree (k + 1) i =
        match tree k (2 * i), tree k (2 * i + 1) with
        | some x, some y => some (fpAdd s.mode x y)
        | some x, none => some x
        | none, y => y) →
      gives s (.vrdFsum d a q) d (wrapU ((tree 5 0).getD 0).toNat)) ∧
    (∃ v, gives s (.vrdFsum d a q) d v ∧ ((∀ l < 32, act l = false) → v = 0) ∧
      (∀ i < 32, (∀ l < 32, act l ↔ l = i) → v = wrapU (ln a i).toNat)) ∧
    (s.formatMasked s.myPart (Fmt.code src).toNat = false → s.formatMasked s.myPart (Fmt.code dst).toNat = false →
      let wi := widthOf (Fmt.code src).toNat
      let wo := widthOf (Fmt.code dst).toNat
      ∃ c : Core, takes (.vcv d a q src dst) s (s.modMine fun _ => c).seq ∧ c = { s.mine with v := c.v } ∧
        (∀ r : Reg, r ≠ d → c.v[r.toFin] = s.mine.v[r.toFin]) ∧
        ∀ l < 32, (c.v[d.toFin]).toNat / 2 ^ (wo * l) % 2 ^ wo =
          if act l then convertElem s.mode (Fmt.code src).toNat (Fmt.code dst).toNat
            ((s.mine.v[a.toFin]).toNat / 2 ^ (wi * l) % 2 ^ wi) % 2 ^ wo
          else (s.mine.v[d.toFin]).toNat / 2 ^ (wo * l) % 2 ^ wo) ∧
    (s.formatMasked s.myPart (Fmt.code src).toNat = true ∨ s.formatMasked s.myPart (Fmt.code dst).toNat = true →
      takes (.vcv d a q src dst) s s.illegal)

/-- In every floating-point format, a value that the format holds converts to its own encoding under every rounding
mode, an infinity too unless SAT holds; a NaN converts to the default NaN (R196 to R198, R203, R205). The lane functions
ADD, SUB, MUL, FMA, FMS, DIV and SQRT answer the exact result of their operands, as FZ reads them, rounded once under RM
to FP32, with an overflow, a flushed result and the sign of a zero as the rules give them; EXP2 is exact at an integer,
and elsewhere the rounding of a number within 2^−300 of 2^x, relatively; NaNs, infinities and zeros give the results
of R216, whatever SAT holds (R198, R201, R203, R205, R206, R215, R216). -/
def Obligations.FormatsRoundTrip : Prop :=
  (∀ (code : Nat) (f : FloatFmt) (mo : Mode) (bits : Nat), floatOf code = some f → mo.fz = false →
    bits < 2 ^ (1 + f.ew + f.mw) →
    (bits % 2 ^ (f.ew + f.mw) ≤ f.top → f.convert mo (f.decode bits) = bits) ∧
    (f.inf = some (bits % 2 ^ (f.ew + f.mw)) → mo.sat = false → f.convert mo (f.decode bits) = bits) ∧
    (f.decode bits = .nan → f.convert mo (f.decode bits) = f.nan.getD 0)) ∧
  ∀ (mo : Mode) (x y z : W32), mo.rm < 5 →
    let mag := fun (w : W32) => w.toNat % 2 ^ 31
    let neg := fun (w : W32) => w.getLsbD 31
    let isInf := fun (w : W32) => mag w = 0x7F800000
    let isNum := fun (w : W32) => mag w < 0x7F800000
    let zero := fun (w : W32) => mag w = 0 ∨ mo.fz = true ∧ mag w < 2 ^ 23
    let inf := fun (n : Bool) => if n then (0xFF800000 : W32) else 0x7F800000
    let nought := fun (n : Bool) => if n then (0x80000000 : W32) else 0
    -- the size of the encoding of magnitude `n`, with no upper limit (R197, R203), and the value of a lane (R206)
    let size : Nat → ℝ := fun n =>
      if n < 2 ^ 23 then n * 2 ^ (-149 : ℤ) else (n % 2 ^ 23 + 2 ^ 23 : ℕ) * 2 ^ ((n / 2 ^ 23 : ℕ) - 150 : ℤ)
    let value : W32 → ℝ := fun w =>
      if mo.fz = true ∧ mag w < 2 ^ 23 then 0 else (if neg w then -1 else 1) * size (mag w)
    -- `o` is the exact number `r` rounded once (R201, R203, R205, R206), with the sign `n` where `r` is 0
    let rounds : ℝ → Bool → W32 → Prop := fun r n o =>
      (r = 0 → o = nought n) ∧
      (r ≠ 0 → neg o = decide (r < 0) ∧
        (mo.fz = true → |r| < size (2 ^ 23) → mag o = 0) ∧
        (mo.fz = false ∨ size (2 ^ 23) ≤ |r| → ∃ c : Nat,
          let low := |r| - size c
          let gap := size (c + 1) - |r|
          let up : Prop := match mo.rm with
            | 0 => gap < low ∨ gap = low ∧ c % 2 = 1
            | 1 => False
            | 2 => r < 0
            | 3 => 0 < r
            | _ => gap ≤ low
          let away := mo.rm = 0 ∨ mo.rm = 4 ∨ mo.rm = 2 ∧ r < 0 ∨ mo.rm = 3 ∧ 0 < r
          let fits := fun (m : Nat) => (m ≤ 0x7F7FFFFF → mag o = m) ∧
            (0x7F7FFFFF < m → (away → mag o = 0x7F800000) ∧ (¬ away → mag o = 0x7F7FFFFF))
          0 ≤ low ∧ 0 < gap ∧ (0 < low ∧ up → fits (c + 1)) ∧ (¬ (0 < low ∧ up) → fits c)))
    (isNum x → isNum y → isNum z →
      rounds (value x + value y) (if zero x ∧ zero y ∧ neg x = neg y then neg x else mo.rm == 2) (fpAdd mo x y) ∧
      rounds (value x * value y) (neg x != neg y) (fpMul mo x y) ∧
      rounds (value x * value y + value z)
        (if (zero x ∨ zero y) ∧ zero z ∧ (neg x != neg y) = neg z then neg z else mo.rm == 2) (fpFma mo x y z) ∧
      (¬ zero y → rounds (value x / value y) (neg x != neg y) (fpDiv mo x y)) ∧
      (zero y → fpDiv mo x y = if zero x then nan32 else inf (neg x != neg y)) ∧
      (zero x → fpSqrt mo x = nought (neg x) ∧ fpExp2 mo x = 0x3F800000) ∧
      (¬ zero x → neg x = true → fpSqrt mo x = nan32) ∧
      (¬ zero x → neg x = false → rounds (Real.sqrt (value x)) false (fpSqrt mo x)) ∧
      (∀ n : ℤ, value x = n → rounds (2 ^ n) false (fpExp2 mo x)) ∧
      ∃ r : ℝ, |r - 2 ^ value x| ≤ 2 ^ value x * 2 ^ (-300 : ℤ) ∧ rounds r false (fpExp2 mo x)) ∧
    fpSub mo x y = fpAdd mo x (y ^^^ 0x80000000) ∧
    fpFms mo x y z = fpFma mo (x ^^^ 0x80000000) y z ∧
    (isNan x → fpSqrt mo x = nan32 ∧ fpExp2 mo x = nan32) ∧
    (isNan x ∨ isNan y → fpAdd mo x y = nan32 ∧ fpMul mo x y = nan32 ∧ fpDiv mo x y = nan32) ∧
    (isNan x ∨ isNan y ∨ isNan z → fpFma mo x y z = nan32) ∧
    (isInf x → fpSqrt mo x = (if neg x then nan32 else inf false) ∧ fpExp2 mo x = if neg x then 0 else inf false) ∧
    (isInf x → isNum y → fpAdd mo x y = x ∧ fpDiv mo x y = inf (neg x != neg y)) ∧
    (isNum x → isInf y → fpAdd mo x y = y ∧ fpDiv mo x y = nought (neg x != neg y)) ∧
    (isInf x → isInf y → fpAdd mo x y = (if neg x = neg y then x else nan32) ∧ fpDiv mo x y = nan32 ∧
      fpMul mo x y = inf (neg x != neg y)) ∧
    (isInf x ∧ isNum y ∨ isNum x ∧ isInf y →
      fpMul mo x y = if zero x ∨ zero y then nan32 else inf (neg x != neg y)) ∧
    (isInf x ∧ zero y ∨ zero x ∧ isInf y → fpFma mo x y z = nan32) ∧
    (isNum x → isNum y → isInf z → fpFma mo x y z = z) ∧
    (isInf x ∧ (isInf y ∨ isNum y ∧ ¬ zero y) ∨ isNum x ∧ ¬ zero x ∧ isInf y →
      (isNum z → fpFma mo x y z = inf (neg x != neg y)) ∧
      (isInf z → fpFma mo x y z = if (neg x != neg y) = neg z then z else nan32))

/-- The lane accesses in the own local memory: each active lane loads, or stores, the word at its address, at once
and in lane order; no other byte, lane or register changes; sr.vprog ends at 0. A lane whose address is no multiple
of 4 traps with cause 0x03, one outside the part with cause 0x04, and sr.vprog says which lane it was (R222 to R225). -/
def Obligations.LaneAccesses : Prop :=
  ∀ (s : State) (d a b : Reg) (q : BitVec 2), s.wf = true → s.pendingOf [a, b] = false → s.me.bind = 1 →
    s.me.vprog = 0 → s.masked s.myPart 5 = false → s.mine.watches = [] → s.mine.ring = [] →
    let own := localLoc s.myCore (s.localBase s.myPart)
    let act := fun (l : Nat) => s.mine.active q l
    let row := fun (l : Nat) => s.rg a + wrapU (4 * l)
    let stride := fun (l : Nat) => s.rg a + wrapU (l * U (s.rg b))
    let offset := fun (l : Nat) => s.rg a + wrapU (s.mine.lane b l).toNat
    let good := fun (e : Nat → Word) => ∀ l < 32, act l → U (e l) % 4 = 0 ∧ U (e l) + 4 ≤ s.window s.myPart
    (∀ i ∈ [(Instr.vlsLd d a q .l, row), (.vlsLds d a b q .l, stride), (.vlsGath d a b q .l, offset)], good i.2 →
      ∃ t, takes i.1 s t ∧ t.mem = s.mem ∧ t.me.vprog = 0 ∧ t.me.pc = s.seq.me.pc ∧ (∀ r, t.rg r = s.rg r) ∧
        t.mine.q = s.mine.q ∧
        ∀ r : Reg, ∀ l < 32, t.mine.lane r l =
          if r = d ∧ act l then BitVec.ofNat 32 (s.mem.readNat (own + U (i.2 l)) 4) else s.mine.lane r l) ∧
    (∀ i ∈ [(Instr.vlsSt d a q .l, row), (.vlsSts d a b q .l, stride), (.vlsScat d a b q .l, offset)], good i.2 →
      (∀ l < 32, ∀ m < 32, act l → act m → i.2 l = i.2 m → l = m) →
      ∃ t, takes i.1 s t ∧ t.me.vprog = 0 ∧ t.me.pc = s.seq.me.pc ∧ (∀ r, t.rg r = s.rg r) ∧ t.mine.v = s.mine.v ∧
        (∀ l < 32, act l → t.mem.readNat (own + U (i.2 l)) 4 = (s.mine.lane d l).toNat) ∧
        ∀ x, (∀ l < 32, act l → x < own + U (i.2 l) ∨ own + U (i.2 l) + 4 ≤ x) → t.mem.read x = s.mem.read x) ∧
    (∀ i ∈ [(Instr.vlsLd d a q .l, row), (.vlsLds d a b q .l, stride), (.vlsGath d a b q .l, offset)],
      ∀ n < 32, (∀ l < n, act l → U (i.2 l) % 4 = 0 ∧ U (i.2 l) + 4 ≤ s.window s.myPart) → act n →
      ∀ c, (U (i.2 n) % 4 ≠ 0 ∧ c = 0x03 ∨ U (i.2 n) % 4 = 0 ∧ s.window s.myPart < U (i.2 n) + 4 ∧ c = 0x04) →
      ∃ t : State, takes i.1 s (t.trap c (i.2 n)) ∧ t.me.vprog.toNat = n ∧ t.me.pc = s.me.pc ∧ t.mem = s.mem) ∧
    (∀ t : State, t.masked t.myPart 5 = true →
      takes (.vlsGath d a b q .l) t t.illegal ∧ takes (.vlsScat d a b q .l) t t.illegal)

/-! ## The matrix unit, the copy engine and objects (R189 to R195, R226 to R248, R302 to R324) -/

/-- The matrix unit: without the binding cause 0x06; CFG answers the old configuration and writes the new one, or
raises cause 0x04 for a reserved bit; LD, ZERO, MMA and MMAV enter the queue with what they read at issue, or wait
while it is full; DRAIN and ST wait until it is empty, and ST then stores each element of the accumulator times the two
tensor scales, rounded once, in FP32 or converted to FP16, BF16, E4M3 or E5M2 (R193), and cause 0x04 meets every other
format; the oldest entry loads,
zeroes or multiplies into its accumulator alone. Within the rows and columns of its configuration, an MMA adds the
block partials one after another, each the exact scaled sum of 32 products rounded once, negated where NEG says so,
the first replacing the element where OVR says so; outside them nothing changes (R190 to R192, R228 to R235). -/
def Obligations.MatrixUnit : Prop :=
  ∀ (s s1 s2 : State) (d a b : Reg) (z : AccReg) (x y : Desc), s.pendingOf [d, a, a + 1, b, b + 1] = false →
    let kb := (s.mine.mcfg.extractLsb' 6 2).toNat
    let queued := fun (t : State) (e : MEntry) =>
      ((t.modMine fun c => { c with mqueue := c.mqueue ++ [e] }).post (.mtxEntryExecute t.key)).seq
    (s.me.bind ≠ 2 → ∀ i ∈ [Instr.mtxMma a b z, .mtxCfg d a, .mtxSt a b z, .mtxLd a z, .mtxZero z, .mtxDrain],
      takes i s (s.trap 0x06 0)) ∧
    (s.me.bind ≠ 2 → s.masked s.myPart 4 = false → takes (.mtxMmav a b z) s (s.trap 0x06 0)) ∧
    (s.masked s.myPart 4 = true → takes (.mtxMmav a b z) s s.illegal) ∧
    (s.me.bind = 2 →
      (2 ^ 12 ≤ U (s.rg a) → takes (.mtxCfg d a) s (s.trap 0x04 (s.rg a))) ∧
      (U (s.rg a) < 2 ^ 12 → takes (.mtxCfg d a) s
        ((s.modMine fun c => { c with mcfg := BitVec.ofNat 12 (U (s.rg a)) }).result d (wrapU s.mine.mcfg.toNat))) ∧
      (4 ≤ s.mine.mqueue.length → takes (.mtxZero z) s (s.block .matrix)) ∧
      (s.mine.mqueue ≠ [] → takes .mtxDrain s (s.block .matrix)) ∧
      (s.mine.mqueue = [] → takes .mtxDrain s s.seq) ∧
      (s.mine.mqueue.length < 4 →
        takes (.mtxZero z) s (queued s (.zero z)) ∧
        (∀ base rowp, base < 2 ^ 16 → rowp < 2 ^ 16 → s.rg a = wrapU (base + 2 ^ 16 * rowp) →
          base + 15 * rowp + 64 ≤ 32768 → takes (.mtxLd a z) s (queued s (.load base rowp z))) ∧
        (operand (s.rg a) (s.rg (a + 1)) kb s = .ok x s → operand (s.rg b) (s.rg (b + 1)) kb s = .ok y s →
          (paired x.fmt y.fmt x.bs y.bs = true →
            takes (.mtxMma a b z) s (queued s (.mma x y z s.mine.mcfg))) ∧
          (paired x.fmt y.fmt x.bs y.bs = false → takes (.mtxMma a b z) s (s.trap 0x04 (s.rg a)))) ∧
        (∀ (vb fmt : Nat) (bs : Bool), s.masked s.myPart 4 = false → operand (s.rg a) (s.rg (a + 1)) 0 s = .ok x s →
          let n := widthOf fmt / 2 + if bs then 1 else 0
          fmt < 16 → vb < 32 → s.rg b = wrapU ((if bs then 2 ^ 56 else 0) + 2 ^ 52 * fmt + vb) →
          s.mmaFormat s.myPart fmt = true → bsAgrees fmt bs = true → vb + n ≤ 32 →
          s.mine.vecEng.last = some s.me.asid → paired x.fmt fmt x.bs bs = true →
          takes (.mtxMmav a b z) s
            (queued s (.mmav x fmt bs (s.mine.vectorBytes vb n) z s.mine.mcfg)))) ∧
      (∀ fmt ≤ 4, s.formatMasked s.myPart fmt = true → U (s.rg a) / 2 ^ 52 % 16 = fmt →
        takes (.mtxSt a b z) s (s.trap 0x04 (s.rg a))) ∧
      (4 < U (s.rg a) / 2 ^ 52 % 16 → takes (.mtxSt a b z) s (s.trap 0x04 (s.rg a))) ∧
      (∀ base rowp fmt, s.mine.mqueue = [] → base < 2 ^ 16 → rowp < 2 ^ 16 → fmt ≤ 4 →
        s.formatMasked s.myPart fmt = false →
        let size := [4, 2, 2, 1, 1].getD fmt 0
        let product := fun (x : W32) => roundF32 s.mode
          (((readF32 s.mode x).mul (readF32 s.mode ((s.rg b).extractLsb' 0 32))).mul
            (readF32 s.mode ((s.rg b).extractLsb' 32 32))) false
        let element := fun (x : W32) =>
          if fmt = 0 then (product x).toNat
          else ([f32, f16, bf16, e4m3, e5m2].getD fmt f32).convert s.mode (readF32 s.mode (product x))
        s.rg a = wrapU (base + 2 ^ 16 * rowp + 2 ^ 52 * fmt) → base + 15 * rowp + 16 * size ≤ 32768 →
        16 * size ≤ rowp → s.wf = true →
        ∃ t, takes (.mtxSt a b z) s t ∧ t.mem = s.mem ∧ t.mine.z = s.mine.z ∧ t.me.pc = s.seq.me.pc ∧
          ∀ i < 16, ∀ j < 16, t.mine.ostore.readNat (base + i * rowp + size * j) size =
            element ((s.mine.z[z.toFin])[16 * i + j]?.getD 0) % 256 ^ size)) ∧
    (∀ (k : Nat) (e : MEntry) (l : List MEntry), (s.core k).mqueue = e :: l → (s.core k).mdirty = [] →
      ∃ t, takes (.mtxEntryExecute k) s t ∧ (t.core k).mqueue = l ∧ (t.core k).ostore = (s.core k).ostore ∧
        t.mem = s.mem ∧
        (∀ r : AccReg, e = .zero r → ∀ n : Fin 256, ((t.core k).z[r.toFin])[n] = 0) ∧
        (∀ (r : AccReg) (base rowp : Nat), e = .load base rowp r → ∀ n : Fin 256, ((t.core k).z[r.toFin])[n] =
          BitVec.ofNat 32 ((s.core k).ostore.readNat (base + n.val / 16 * rowp + 4 * (n.val % 16)) 4)) ∧
        -- element `n` of a row of 32 elements whose bytes `byte` gives (R191), and a block partial (R192)
        (let elem := fun (fmt : Nat) (byte : Nat → BitVec 8) (n : Nat) =>
          mxValue fmt (((List.range (4 * widthOf fmt)).map fun o => (byte o).toNat * 256 ^ o).sum /
            2 ^ (widthOf fmt * n) % 2 ^ widthOf fmt)
        let block := fun (f g : Nat → Val) (sf sg : Nat) =>
          if sf = 255 ∨ sg = 255 then nan32
          else BitVec.ofNat 32 (f32.convert rne ((((List.range 32).foldl
            (fun acc n => Val.add 0 acc ((f n).mul (g n))) (.fin false 0 0))).scale (sf + sg - 254 : Int)))
        let mem := (s.core k).ostore.read
        let row := fun (o : Desc) (t i : Nat) =>
          elem o.fmt fun u => mem (rotated (o.base + t * o.tilep + i * o.rowp + u) i o.rot)
        let scale := fun (o : Desc) (t i : Nat) => if o.bs then (mem (o.soff + 16 * t + i)).toNat else 127
        let put := fun (c : BitVec 12) (old : W32) (blocks : List W32) =>
          blocks.zipIdx.foldl (fun acc e =>
            let v := if c.getLsbD 5 ∧ isNan e.1 = false then e.1 ^^^ 0x80000000 else e.1
            if c.getLsbD 4 ∧ e.2 = 0 then v else fpAdd rne acc v) old
        let inside := fun (c : BitVec 12) (n : Fin 256) =>
          n.val / 16 ≤ (c.extractLsb' 0 4).toNat ∧ n.val % 16 ≤ (c.extractLsb' 8 4).toNat
        (∀ (r : AccReg) (v w : Desc) (c : BitVec 12), e = .mma v w r c →
          (∀ o : AccReg, o ≠ r → (t.core k).z[o.toFin] = (s.core k).z[o.toFin]) ∧
          ∀ n : Fin 256, (¬ inside c n → ((t.core k).z[r.toFin])[n] = ((s.core k).z[r.toFin])[n]) ∧
            (inside c n → ((t.core k).z[r.toFin])[n] = put c (((s.core k).z[r.toFin])[n])
              ((List.range ((c.extractLsb' 6 2).toNat + 1)).map fun m =>
                block (row v m (n.val / 16)) (row w m (n.val % 16)) (scale v m (n.val / 16)) (scale w m (n.val % 16))))) ∧
        (∀ (r : AccReg) (v : Desc) (fmt : Nat) (bs : Bool) (bytes : List Byte) (c : BitVec 12),
          e = .mmav v fmt bs bytes r c →
          (∀ o : AccReg, o ≠ r → (t.core k).z[o.toFin] = (s.core k).z[o.toFin]) ∧
          ∀ n : Fin 256, (¬ inside c n → ((t.core k).z[r.toFin])[n] = ((s.core k).z[r.toFin])[n]) ∧
            (inside c n → ((t.core k).z[r.toFin])[n] = put c (((s.core k).z[r.toFin])[n])
              [block (row v 0 (n.val / 16)) (elem fmt fun u => bytes.getD (4 * widthOf fmt * (n.val % 16) + u) 0)
                (scale v 0 (n.val / 16)) (if bs then (bytes.getD (64 * widthOf fmt + n.val % 16) 0).toNat else 127)]))))

/-- The copy engine at issue: without the binding cause 0x06; a copy of no bytes answers 0 at once; one whose
registers break the rules answers 0xFE01; otherwise its job enters the window with its token pending, and so does
the job of a correct card without owners; a card with a fault answers its offset; FPWAIT answers at once where no
job touches the region; RESUME answers 2 where the register names no FAILED job, and otherwise sets it going
again; POLL answers 0, 1 or 2 (R236 to R246). That a copy of no bytes answers before the checks of its registers (log
entry 13) and that RESUME checks its operand first (log entry 15) is the model's inference. -/
def Obligations.CopyInstructions : Prop :=
  ∀ (s s1 : State) (d a b : Reg) (raw : Nat) (o : Slot), s.pendingOf [d, a, a + 1, b, b + 1] = false →
    let ctl := s.rg (a + 1)
    let n := U ctl % 2 ^ 32
    let sf := U ctl / 2 ^ 48 % 16
    let df := U ctl / 2 ^ 44 % 16
    let plain := fun (bound : Bool) (bar : Nat) => registerCard (s.rg a) ctl (s.rg b) bound bar
    (s.me.bind ≠ 3 → ∀ i ∈ [Instr.jobCopy d a b, .jobCopyb d a b, .jobSubmit d a, .jobFpwait d a b, .jobResume d a b,
      .jobPoll d a], takes i s (s.trap 0x06 0)) ∧
    (s.me.bind = 3 →
      (n = 0 → takes (.jobCopy d a b) s (s.result d 0)) ∧
      (n ≠ 0 → s.mine.window.length < 32 →
        (2 ^ 52 ≤ U ctl ∨ U ctl / 2 ^ 36 % 2 ^ 8 ≠ 0 ∨ (s.formatRule s.myPart 1 sf df n).isSome →
          takes (.jobCopy d a b) s (s.result d 0xFE01)) ∧
        (U ctl < 2 ^ 52 → U ctl / 2 ^ 36 % 2 ^ 8 = 0 → s.formatRule s.myPart 1 sf df n = none →
          takes (.jobCopy d a b) s (s.enterJob d (plain false 0) []) ∧
          (s.rg (b + 1) = wrapU o.val → takes (.jobCopyb d a b) s (s.enterJob d (plain true o.val) [])))) ∧
      (15 < U (s.rg (b + 1)) → takes (.jobCopyb d a b) s (s.trap 0x04 (s.rg (b + 1)))) ∧
      (n ≠ 0 → 32 ≤ s.mine.window.length → (∀ j ∈ s.mine.window, j.st = .failed) →
        takes (.jobCopy d a b) s (s.result d 4)) ∧
      (n ≠ 0 → 32 ≤ s.mine.window.length → (∃ j ∈ s.mine.window, j.st ≠ .failed) →
        takes (.jobCopy d a b) s (s.block .jobRoom)) ∧
      (U (s.rg a) % 128 ≠ 0 → takes (.jobSubmit d a) s (s.trap 0x03 (s.rg a))) ∧
      (U (s.rg a) % 128 = 0 → s.mine.window.length < 32 → s.me.card = none → s.me.taken = 0 →
        loadG (s.rg a) 128 s = .ok raw s1 → raw < 2 ^ 1024 →
        let t := s1.afresh fun c => { c with card := some (BitVec.ofNat 1024 raw) }
        (∀ off, t.cardFault t.myPart raw = some off →
          takes (.jobSubmit d a) s (t.result d (wrapU (off * 256 + 1)))) ∧
        (t.cardFault t.myPart raw = none → t.me.taken = 0 → (cardOf raw).owners = [] →
          takes (.jobSubmit d a) s (t.enterJob d (cardOf raw) []))) ∧
      (2 ^ 35 ≤ U (s.rg b) → takes (.jobFpwait d a b) s (s.trap 0x04 (s.rg b))) ∧
      (U (s.rg b) < 2 ^ 35 → s.mine.jobs = [] → takes (.jobFpwait d a b) s (s.result d 0)) ∧
      (1 < U (s.rg b) → takes (.jobResume d a b) s (s.trap 0x04 (s.rg b))) ∧
      (U (s.rg b) ≤ 1 → (∀ j ∈ s.mine.jobs, j.st ≠ .failed) → takes (.jobResume d a b) s (s.result d 2)) ∧
      (∀ j : Job, s.mine.jobs = [j] → j.st = .failed → j.owner = .slot s.slot → j.tok = a → s.rg b = 0 →
        takes (.jobResume d a b) s
          ((((s.setPending d).modMine fun c => { c with jobs := [{ j with st := .waiting, tok := d }] }).seq).post
            (.jobStart s.key j.id))) ∧
      (s.mine.jobs = [] ∨ U (s.rg a) % 2 ^ 32 = 0 → takes (.jobPoll d a) s (s.result d 0)) ∧
      (∀ j : Job, s.mine.jobs = [j] → j.card.jid = U (s.rg a) % 2 ^ 32 → j.card.jid ≠ 0 → j.st ≠ .leaving →
        takes (.jobPoll d a) s (s.result d (if j.st = .failed then 2 else 1))))

/-- A job on its way. It waits while an earlier job of the window conflicts with it, that is, while the two have
regions that share a byte and one of them is written, or while a store of the core is under way; then it goes on, a
piece in a step, until it is done. A plain copy between places of local
memory moves byte q of row r from the source's base + r × its pitch + q to the destination's base + r × its pitch + q,
byte after byte in ascending order, each read when those before it are written, and no other byte changes. At its end a job leaves the window, adds its bytes to its barrier object where it is bound,
and gives its token 0; a refused access makes it FAILED, with its count, its DETAIL and code 9. A hold is taken back
from its owner's header, one that is refused is logged and reported, and a deferred owner that it was the last hold of
is pushed into the reclaim ring while EN is set, after which its DEFER bit is cleared (R150, R236, R239, R240, R247,
R304, R305). That a job does one piece in a step (log entry 12) and that a release whose header is poisoned or in error is
dropped as one that is refused (log entry 18) is the model's inference. -/
def Obligations.JobSteps : Prop :=
  ∀ (s s1 s2 s3 s4 s5 : State) (k id n : Nat) (u : Unit) (j : Job) (before after : List Job),
    (s.core k).jobs = before ++ j :: after → (∀ i ∈ before, i.id ≠ id) → j.id = id →
    j.asking = false → j.refused = none → s.runsOn (partOf k) (dieOfCore (coreOf k)) = true →
    let p := partOf k
    let started := s.modJob k id fun j => { j with st := .running }
    let total := j.card.rows * j.card.rowlen
    let next := fun (t : State) =>
      (t.modJob k id fun i => { i with holds := i.holds.tail }).post (.jobComplete k id)
    let shared := fun (i : Job) (x y : Region) =>
      let e := x.extent (coreOf k) i.asid
      let f := y.extent (coreOf k) j.asid
      e.1 = f.1 ∧ ∃ b, e.2 ≤ b ∧ b < e.2 + x.len ∧ f.2 ≤ b ∧ b < f.2 + y.len
    let clash := ∃ i ∈ before, i.st ≠ .leaving ∧ ∃ x ∈ i.card.regions, ∃ y ∈ j.card.regions,
      (x.write = true ∨ y.write = true) ∧ shared i x y
    let goes := j.st = .running ∨ j.st = .waiting ∧ ¬ clash ∧ s.storesInFlight (coreOf k) = false
    (j.st = .waiting → clash ∨ s.storesInFlight (coreOf k) = true →
      takes (.jobStart k id) s (s.park (.jobStart k id))) ∧
    (goes → total ≤ j.prog → takes (.jobStart k id) s (started.post (.jobComplete k id))) ∧
    (goes → j.prog < total →
      (jobAdvance k j started = .ok u s1 → takes (.jobStart k id) s (s1.jobOn k id)) ∧
      (∀ c v, jobAdvance k j started = .error (.trap c v) s1 →
        takes (.jobStart k id) s { s1 with urgent := s1.urgent ++ [.jobFault k id c] }) ∧
      (∀ w, jobAdvance k j started = .error (.block w) s1 →
        takes (.jobStart k id) s (s1.parkOn (.jobStart k id) w))) ∧
    (let src := fun (q : Nat) => (j.card.region 0).base + wrapU (q / j.card.rowlen * j.card.spitch + q % j.card.rowlen)
      let dst := fun (q : Nat) => (j.card.region 1).base + wrapU (q / j.card.rowlen * j.card.dpitch + q % j.card.rowlen)
      let own := localLoc (coreOf k) (s.localBase p)
      s.wf = true → goes → j.prog < total → (∀ i ∈ after, i.id ≠ id) → j.card.kind = 1 → j.card.sfmt = j.card.dfmt →
      (j.card.region 0).space = .l → (j.card.region 1).space = .l →
      (s.core k).watches = [] → (s.core k).ring = [] →
      (∀ q < total, U (src q) < s.window p ∧ U (dst q) < s.window p) →
      (∀ q < total, place (loc (own + U (dst q))) = .lcl (coreOf k) (s.localBase p + U (dst q))) →
      (∀ line mask data, aget j.wrote line = some (mask, data) → ∀ i < 128, mask.getLsbD i = true →
        s.mem.read (lineLoc line + i) = data.extractLsb' (8 * i) 8) →
      ∃ (m : Nat) (t : State) (w : List (Nat × LineMask × LineData)), 0 < m ∧ j.prog + m ≤ total ∧
        takes (.jobStart k id) s t ∧
        (t.core k).jobs = before ++ { j with st := .running, prog := j.prog + m, wrote := w } :: after ∧
        (if j.prog + m < total then Instr.jobStart k id else .jobComplete k id) ∈ t.flight ∧
        t.mem = (List.range' j.prog m).foldl
          (fun μ q => μ.write (own + U (dst q)) (μ.read (own + U (src q)))) s.mem) ∧
    (j.holds ≠ [] → takes (.jobComplete k id) s (s.post (.holdRelease k id))) ∧
    (∀ x : Slot, j.holds = [] → j.st = .running → j.owner = .slot x →
      let left := s.modCore k fun c => { c with jobs := c.jobs.filter fun i => i.id ≠ id }
      (j.card.bound = false → takes (.jobComplete k id) s ((left.token k x j.tok 0).windowChanged k)) ∧
      (j.card.bound = true → takes (.jobComplete k id) s
        (((left.contribute k j.inst j.card.written j.card.bar).token k x j.tok 0).windowChanged k))) ∧
    (∀ (x : Slot) (detail : Nat), j.owner = .slot x →
      let v := j.prog * 2 ^ 32 + detail * 256 + 9
      takes (.jobFault k id detail) s
        (((s.modJob k id fun j => { j with st := .failed, result := v }).token k x j.tok (wrapU v)).windowChanged k)) ∧
    (∀ (va : Word) (l : List Word) (pa w : Nat), j.holds = va :: l →
      (headerAt k j va s = .ok pa s1 → s1.badLine p pa true = true →
        takes (.holdRelease k id) s (next ((s1.log (.hold p)).raiseSvc p))) ∧
      (∀ c v, headerAt k j va s = .error (.trap c v) s1 →
        takes (.holdRelease k id) s (next ((s1.log (.hold p)).raiseSvc p))) ∧
      (headerAt k j va s = .ok pa s1 → s1.badLine p pa true = false → ownedWord k pa false s1 = .ok w s2 →
        w < 2 ^ 64 → 2 ^ 48 ≤ w →
        let t := s2.jobStoreG k pa 8 (w - 2 ^ 48)
        (w / 2 ^ 48 ≠ 1 ∨ w / 2 ^ 32 % 2 = 0 → takes (.holdRelease k id) s (next t)) ∧
        (w / 2 ^ 48 = 1 → w / 2 ^ 32 % 2 = 1 →
          takes (.holdRelease k id) s (t.post (.reclaimPush k id (va ||| 1)))))) ∧
    (∀ (v : Word) (pa c w : Nat) (ring : Xlated),
      let r := s.reclaimOf p j.asid
      let base := r &&& 0xFFFFFFFFFFFFF000
      (v.getLsbD 1 = true → headerAt k j (v &&& 0xFFFFFFFFFFFFFFF8) s = .ok pa s1 → ownedWord k pa false s1 = .ok w s2 →
        w < 2 ^ 64 →
        takes (.reclaimPush k id v) s (next (s2.jobStoreG k pa 8 (w - w / 2 ^ 32 % 2 * 2 ^ 32)))) ∧
      (v.getLsbD 1 = false → r.getLsbD 0 = false → takes (.reclaimPush k id v) s (next s)) ∧
      (v.getLsbD 1 = false → r.getLsbD 0 = true → jobTranslate k j base .jobWrite s = .ok ring s1 →
        jobOwn k j base ring true s1 = .ok () s2 → ownedWord k ring.pa true s2 = .ok n s3 →
        ownedWord k (ring.pa + 8) true s3 = .ok c s4 → n < 2 ^ 64 → c ≤ n →
        (n - c = 510 → takes (.reclaimPush k id v) s (s4.park (.reclaimPush k id v))) ∧
        (n - c < 510 →
          let entry := ring.pa + 0x10 + 8 * (n % 510)
          jobOwn k j (base + wrapU (entry - ring.pa)) { ring with pa := entry } true s4 = .ok () s5 →
          let t := (s5.jobStoreAt true k entry 8 (U v)).jobStoreAt true k ring.pa 8 ((n + 1) % 2 ^ 64)
          takes (.reclaimPush k id v) s { t with urgent := t.urgent ++
            [.wakeHome .device p j.asid.toNat (U base) 0, .reclaimPush k id (v ||| 2)] })))

/-- The DYN instructions: tags and boxes of small integers and FP32 numbers, cause 0x0E for a value of another kind;
shapes; the inline cache, looked up and filled by key, and invalidated by shape in every core, for which the issuer
waits; a guard that passes goes on, and one that fails says why in sr.icmiss and branches; all illegal where DYN is masked (R307 to R321). Reference counts and dispatch:
RCINC and RCDEC of an object whose header the atomic line buffer holds change its count and answer 0, or for the last count 1,
or 2 where a hold defers the object; a count of 0, or one that cannot grow, raises cause 0x0E. NEXT reads the bytecode and its handler's table entry, saves the PC of the next bytecode and
the bytecode word, and transfers to the handler (R303, R304, R324). -/
def Obligations.ObjectInstructions : Prop :=
  (
  ∀ (s : State) (d a b : Reg) (o : BitVec 16), s.pendingOf [d, a, b] = false →
    let v := s.rg a
    let w := s.rg b
    (s.masked s.myPart 9 = true → ∀ i ∈ [Instr.dynIclook d a, .dynIcfill a b, .dynIcinv a, .dynNext d a, .dynRcinc d a,
      .dynRcdec d a, .dynTag d a, .dynShape d a, .dynBoxf d a, .dynUnboxf d a, .dynBoxi d a, .dynUnboxi d a,
      .dynGuard a b o], takes i s s.illegal) ∧
    (s.masked s.myPart 9 = false →
      gives s (.dynTag d a) d (wrapU (U v % 8)) ∧
      (-(2 ^ 60) ≤ S v → S v ≤ 2 ^ 60 - 1 → gives s (.dynBoxi d a) d (wrapS (S v * 8))) ∧
      (S v < -(2 ^ 60) ∨ 2 ^ 60 - 1 < S v → takes (.dynBoxi d a) s (s.trap 0x0E v)) ∧
      (U v % 8 = 0 → gives s (.dynUnboxi d a) d (wrapS (S v / 8))) ∧
      (U v % 8 ≠ 0 → takes (.dynUnboxi d a) s (s.trap 0x0E v)) ∧
      gives s (.dynBoxf d a) d (wrapU (U v % 2 ^ 32 * 2 ^ 32 + 3)) ∧
      (U v % 2 ^ 32 = 3 → gives s (.dynUnboxf d a) d (wrapU (U v / 2 ^ 32))) ∧
      (U v % 2 ^ 32 ≠ 3 → takes (.dynUnboxf d a) s (s.trap 0x0E v)) ∧
      (U v % 8 ≠ 1 → gives s (.dynShape d a) d 0 ∧ gives s (.dynRcinc d a) d 0 ∧ gives s (.dynRcdec d a) d 0) ∧
      (U v % 16 = 9 → takes (.dynShape d a) s (s.trap 0x03 (v - 1)) ∧ takes (.dynRcinc d a) s (s.trap 0x03 (v - 1)) ∧
        takes (.dynRcdec d a) s (s.trap 0x03 (v - 1))) ∧
      (∀ (l : L1Line), U v % 16 = 1 → canonical (v - 1) = true → s.l1Look (v - 1) = some l →
        l.loadHits s.mine.gen (U (v - 1) % 128) 8 = true → s.badLine s.myPart l.pa false = false →
        let shape := l.data.toNat / 256 ^ (U (v - 1) % 128) % 2 ^ 32
        gives s (.dynShape d a) d (wrapU shape) ∧
        (badGuard w = false → w.getLsbD 56 = false →
          let fails := fun (m : Nat) => takes (.dynGuard a b o) s
            ((s.setMe { s.me with icmiss := wrapU m }).jump (s.me.pc + wrapS (o.toInt * 4)))
          let key := U w / 2 ^ 32 % 2 ^ 25 * 2 ^ 32
          (shape ≠ U w % 2 ^ 32 → fails (key + shape)) ∧
          (shape = U w % 2 ^ 32 → w.getLsbD 57 = false → takes (.dynGuard a b o) s s.seq) ∧
          (shape = U w % 2 ^ 32 → w.getLsbD 57 = true →
            (∀ e, s.icMatch (siteOf w) (shapeOf w) = some e → takes (.dynGuard a b o) s (s.icTouch e).seq) ∧
            (s.icMatch (siteOf w) (shapeOf w) = none → fails (2 ^ 57 + key + shape))))) ∧
      (badKey v = true → takes (.dynIclook d a) s (s.trap 0x04 v) ∧ takes (.dynIcfill a b) s (s.trap 0x04 v)) ∧
      (badKey v = false →
        (s.icMatch (siteOf v) (shapeOf v) = none → gives s (.dynIclook d a) d 0x8000000000000000) ∧
        (∀ e, s.icMatch (siteOf v) (shapeOf v) = some e →
          takes (.dynIclook d a) s ((s.icTouch e).result d (wrapU e.value.toNat))) ∧
        (2 ^ 63 ≤ U w → takes (.dynIcfill a b) s (s.trap 0x04 w)) ∧
        (U w < 2 ^ 63 → ∃ t, takes (.dynIcfill a b) s t ∧ t.icMatch (siteOf v) (shapeOf v) =
            some ⟨s.myPart, s.me.asid, s.slot, siteOf v, shapeOf v, BitVec.ofNat 63 (U w)⟩ ∧
          t.mem = s.mem ∧ (∀ r, t.rg r = s.rg r) ∧ t.me.pc = s.seq.me.pc)) ∧
      (2 ^ 32 ≤ U v → takes (.dynIcinv a) s (s.trap 0x04 v)) ∧
      (U v < 2 ^ 32 → s.me.posted = [] →
        let cores := (s.hw.map (·.1)).filter fun c => (s.cfg s.myPart).dies.contains (dieOfCore c)
        (s.me.taken = 0 → cores ≠ [] → takes (.dynIcinv a) s (({ s.setMe { s.me with taken := 1 } with
          icinv := s.icinv ++ cores.map fun c => ⟨c, s.key, s.slot, s.me.asid, BitVec.ofNat 32 (U v)⟩ } :
            State).block .acks)) ∧
        (s.me.taken ≠ 0 → s.icPending s.key s.slot = true → takes (.dynIcinv a) s (s.block .acks)) ∧
        (s.me.taken ≠ 0 → s.icPending s.key s.slot = false → takes (.dynIcinv a) s s.seq)) ∧
      (s.choices = [] → s.icRemove.icinv = [] ∧ ∀ r ∈ s.icinv, ∀ i ∈ (s.icRemove.hwOf r.core).ic,
        ¬ (i.part = partOf r.k ∧ i.asid = r.asid ∧ i.shape = r.shape)) ∧
      (badGuard w = true → takes (.dynGuard a b o) s (s.trap 0x04 w)) ∧
      (badGuard w = false → w.getLsbD 56 = false → U v % 16 = 9 → takes (.dynGuard a b o) s (s.trap 0x03 (v - 1))) ∧
      (badGuard w = false →
        let fails := fun (m : Word) => takes (.dynGuard a b o) s
          ((s.setMe { s.me with icmiss := m }).jump (s.me.pc + wrapS (o.toInt * 4)))
        (w.getLsbD 56 = true → U w % 2 ^ 32 = U v % 8 → takes (.dynGuard a b o) s s.seq) ∧
        (w.getLsbD 56 = true → U w % 2 ^ 32 ≠ U v % 8 →
          fails (wrapU (U w / 2 ^ 32 % 2 ^ 25 * 2 ^ 32 + U v % 8))) ∧
        (w.getLsbD 56 = false → U v % 8 ≠ 1 → fails (wrapU (U w / 2 ^ 32 % 2 ^ 25 * 2 ^ 32)))))) ∧
  ∀ (s s1 s2 s3 s4 : State) (d a : Reg) (x : Xlated) (die : Nat) (l : AlbLine), s.pendingOf [d, a] = false →
    s.masked s.myPart 9 = false →
    let v := s.rg a
    (U v % 16 = 1 → translate (v - 1) .atomic s = .ok x s2 → s2.me.posted = [] → place (loc x.pa) = .dram die →
      s1 = s2.freshFrame (v - 1) x →
      s1.badLine s1.myPart x.pa true = false → s1.clsOf x ≠ .so →
      s1.albLine s1.myCore s1.myPart (s1.steer s1.myPart x.pa) = some l → x.pa % 128 + 16 ≤ 128 →
      let h := l.data.toNat / 256 ^ (x.pa % 128) % 2 ^ 128
      let c := h / 2 ^ 64 % 2 ^ 32
      let into := fun (n : Nat) => s1.albTake { l with
        key := keyId (s1.steerPa s1.myPart x.pa)
        data := mergeLine l.data (placed (x.pa % 128) n) (maskOf (x.pa % 128) 16) }
      (c ≠ 0 → c ≠ 0xFFFFFFFF → takes (.dynRcinc d a) s ((into (h + 2 ^ 64)).result d 0)) ∧
      (c = 0 ∨ c = 0xFFFFFFFF → takes (.dynRcinc d a) s ((s1.albTake l).trap 0x0E v)) ∧
      (2 ≤ c → takes (.dynRcdec d a) s ((into (h - 2 ^ 64)).result d 0)) ∧
      (c = 1 → h / 2 ^ 48 % 2 ^ 16 = 0 → takes (.dynRcdec d a) s ((into (h - 2 ^ 64)).result d 1)) ∧
      (c = 1 → h / 2 ^ 48 % 2 ^ 16 ≠ 0 → h / 2 ^ 32 % 2 = 0 →
        takes (.dynRcdec d a) s ((into (h - 2 ^ 64 + 2 ^ 32)).result d 2)) ∧
      (c = 0 → takes (.dynRcdec d a) s ((s1.albTake l).trap 0x0E v))) ∧
    (U v % 4 ≠ 0 → takes (.dynNext d a) s (s.trap 0x03 v)) ∧
    (∀ u h e : Nat, U v % 4 = 0 → loadG v 4 s = .ok u s1 → u < 2 ^ 32 →
      let base := s1.bctabOf s1.myPart s1.me.asid
      s1.bctabOf s1.myPart s1.me.asid = s.bctabOf s.myPart s.me.asid →
      loadG base 8 s1 = .ok h s2 → h < 2 ^ 64 → h / 2 ^ 32 ≠ 0 →
      let n := if u % 256 < h / 2 ^ 32 then u % 256 else 0
      loadG (base + wrapU (8 + 4 * n)) 4 s2 = .ok e s3 →
      let t := base + wrapS (BitVec.ofNat 32 e).toInt
      checkTarget t (BitVec.ofNat 16 (h + n / 16)) s3 = .ok () s4 →
      takes (.dynNext d a) s (((s4.wg a (v + 4)).wg d (wrapU u)).jump t))

/-! ## The core's own steps, its posted writes and page migration (R92 to R101, R127, R133, R182 to R185, R323) -/

/-- The timer arms, disarms and expires; an event redirects an idle context 0 to sr.evec; a timed wait ends in
cause 0x08 and gives up its queue entry, granted or not; a reply wakes its context; an echo, lost or not, leaves the
context's list; a posted write is performed at its home, waits for its line, or is echoed as lost where it is refused; sr.bctab and sr.reclaim of one identifier change, and their writer
completes; the migration engine starts, reports an error, moves a line, as it reads under the source's key ID, with
its locus and queue, has an exported
one recalled first, once its transactions are over, releases and returns to IDLE (R92 to R101, R127, R133, R179, R182 to
R186, R323). That the command which clears an error sets ERR to 0 is the model's inference (log entry 21). -/
def Obligations.CoreAndMigrationSteps : Prop :=
  ∀ (s s1 : State) (k p n asid core off m die req : Nat) (x : Slot) (v : Word) (h : Home) (w : Posted),
    takes (.timerArm k n) s (s.modCore k fun c => { c with timer := BitVec.ofNat 32 n }) ∧
    takes (.timerDisarm k) s (s.modCore k fun c => { c with timer := 0 }) ∧
    (∃ t, takes (.timerExpiry k) s t ∧ (t.core k).timer = 0 ∧ (t.core k).event = ((s.core k).event ||| 1) ∧
      (t.core k).ctxs = (s.core k).ctxs ∧ t.mem = s.mem ∧
      t.flight = s.flight) ∧
    ((s.core k).delivery = true → (s.core k).event ≠ 0 →
      takes (.eventRedirect k) s ((s.modCore k fun c => { c with delivery := false }).modCtx k 0 fun c =>
        { c with st := .run, pc := (s.core k).evec })) ∧
    ((s.core k).delivery = false ∨ (s.core k).event = 0 → takes (.eventRedirect k) s s) ∧
    ((s.ctx k x).ending = false → (s.ctx k x).st = .blocked →
      (∀ e ∈ [Wait.token (BitVec.ofNat 32 n), .watch, .synCompare req], (s.ctx k x).wait = some e →
        ∃ t, takes (.blockTimeout k x) s t ∧ (t.ctx k x).st = .trapped ∧ (t.ctx k x).cause = 0x08 ∧
          (t.ctx k x).epc = (s.ctx k x).pc ∧ (t.ctx k x).wait = none ∧ (t.ctx k x).pend = (s.ctx k x).pend ∧
          (t.ctx k x).g = (s.ctx k x).g ∧ t.mem = s.mem) ∧
      (∀ i : Fin 8, (s.ctx k x).wait = some (.semp i.val) →
        ∃ t, takes (.blockTimeout k x) s t ∧ (t.ctx k x).st = .trapped ∧ (t.ctx k x).cause = 0x08 ∧
          (t.ctx k x).wait = none ∧ ((t.core k).sems[i]).count = ((s.core k).sems[i]).count ∧
          ((t.core k).sems[i]).queue = ((s.core k).sems[i]).queue.filter (· ≠ x)) ∧
      (∀ va d, (s.ctx k x).wait = some (.synWait va d) →
        ∃ t, takes (.blockTimeout k x) s t ∧ (t.ctx k x).st = .trapped ∧ (t.ctx k x).cause = 0x08 ∧
          (t.ctx k x).wait = none ∧ t.waits = s.waits.filter fun e => e.who ≠ .device k x) ∧
      (∀ line pa d q qs, (s.ctx k x).wait = some (.lrw req line pa d) → (s.syncLine (partOf k) line).queue = q :: qs →
        ∃ t, takes (.blockTimeout k x) s t ∧ (t.ctx k x).st = .trapped ∧ (t.ctx k x).cause = 0x08 ∧
          (t.ctx k x).wait = none ∧
          (t.syncLine (partOf k) line).queue =
            if q.req = req then qs else q :: qs.filter fun e => e.req ≠ req)) ∧
    ((s.ctx k x).wait = some .reply → ∃ t, takes (.replyArrival k x) s t ∧ (t.ctx k x).wait = none ∧
      (t.ctx k x).st = (if (s.ctx k x).st = .blocked then .run else (s.ctx k x).st) ∧ (k, x) ∈ t.retry ∧
      (t.ctx k x).pc = (s.ctx k x).pc ∧ t.mem = s.mem) ∧
    (∃ t, takes (.storeEcho k x h none) s t ∧ (t.ctx k x).posted = (s.ctx k x).posted.erase h ∧
      (t.ctx k x).lost = (s.ctx k x).lost ∧
      ((s.ctx k x).posted = [h] → (s.ctx k x).wait = some .echo → (t.ctx k x).wait = none ∧ (k, x) ∈ t.retry)) ∧
    (∃ t, takes (.storeEcho k x h (some m)) s t ∧ (t.ctx k x).posted = (s.ctx k x).posted.erase h ∧
      (t.ctx k x).lost = (s.ctx k x).lost + 1 ∧
      (t.ctx k x).lostMod = if (s.ctx k x).lost = 0 then m else min (s.ctx k x).lostMod m) ∧
    (w.by_ = .store k x →
      let told := fun (t : State) (lost : Option Nat) =>
        ((t.post (.storeEcho k x w.home lost)).replyAll fun j v =>
          partOf j = w.part && (v == .evicted (t.steer w.part w.pa) || v == .written)).unpark;
      ((∀ m g, w.home ≠ .pod m g) →
        (place (loc w.pa) = .lcl core off →
          takes (.postedWriteArrival w) s
            (told (s.storeWindow (keyOf core w.part) (off / 128 * 128) w.mask w.data) none)) ∧
        (place (loc w.pa) = .dram die →
          (ownLine w.die w.part w.pa s = .ok () s1 →
            takes (.postedWriteArrival w) s (told (s1.mergeOwned w.die w.part w.pa w.mask w.data) none)) ∧
          (∀ e, ownLine w.die w.part w.pa s = .error (.block e) s1 →
            takes (.postedWriteArrival w) s (s1.parkOn (.postedWriteArrival w) e)) ∧
          (ownLine w.die w.part w.pa s = .error .err s1 →
            takes (.postedWriteArrival w) s (told s1 (some s1.ownModule))))) ∧
      (∀ g, w.home = .pod m g → place (loc w.pa) = .pod m → s.cutOff w.part m = true →
        takes (.postedWriteArrival w) s (told s (some m)))) ∧
    (asid < 2 ^ 16 → (s.ctx k x).wait = some .acks →
      (∃ t, takes (.bctabWrite k x asid v) s t ∧ (t.ctx k x).wait = none ∧ t.reclaimOf = s.reclaimOf ∧
        ∀ q a, t.bctabOf q a = if q = partOf k ∧ a.toNat = asid then v else s.bctabOf q a) ∧
      (∃ t, takes (.reclaimWrite k x asid v) s t ∧ (t.ctx k x).wait = none ∧ t.bctabOf = s.bctabOf ∧
        ∀ q a, t.reclaimOf q a = if q = partOf k ∧ a.toNat = asid then v else s.reclaimOf q a)) ∧
    (let g := (s.part p).mig
      let a := lineOf (g.src.toNat * 4096) + g.bound
      let b := lineOf (g.dst.toNat * 4096) + g.bound;
      (g.st = .idle →
        (s.frameError p g = 0 → takes (.migStart p) s
          ((s.modMig p fun g => { g with st := .run, err := 0, bound := 0 }).post (.migLineMove p))) ∧
        (s.frameError p g ≠ 0 → takes (.migStart p) s
          (s.modMig p fun g => { g with st := .error, err := s.frameError p g }))) ∧
      ((∀ e, place (loc (g.src.toNat * 4096)) ≠ .dram e) → s.frameError p g = 1) ∧
      (g.st = .error → takes (.migClear p) s (s.modMig p fun g => { g with st := .idle, err := 0 })) ∧
      (g.st = .run → s.wf = true → a ≠ b → s.isExported p a = false → s.isExported p b = false →
        s.entryAt p a = none → s.entryAt p b = none → s.busyWith p a = none → s.busyWith p b = none → s.moveRoom p a b = true →
        (∀ c, dieOfCore c = homeDie a → s.albLine c p a = none) → s.syncLine p a ≠ .reset →
        ∃ t, takes (.migLineMove p) s t ∧ t.memLine b = s.lineUnder a (keyId (g.src.toNat * 4096)) ∧
          t.syncLine p b = s.syncLine p a ∧
          t.syncLine p a = .reset ∧ (t.part p).mig.bound = g.bound + 1 ∧
          (t.part p).mig.st = if g.bound + 1 ≥ 32 then .done else .run) ∧
      (g.st = .run → s.isExported p a = true →
        (s.atWork p a = true → takes (.migLineMove p) s (s.park (.migLineMove p))) ∧
        (∀ e, s.busyWith p a = none → s.entryAt p a = some e →
          let held := s.setBusy ⟨a, p, .hold, []⟩
          (s.transacting p a = true → takes (.migLineMove p) s (held.park (.migLineMove p))) ∧
          (s.transacting p a = false → takes (.migLineMove p) s ((held.startRecall p a).park (.migLineMove p))))) ∧
      (g.st = .done → g.releasing = false →
        ∃ t, takes (.migRelease p) s t ∧ (t.part p).mig = { g with releasing := true } ∧
          Instr.migReleaseComplete p ∈ t.flight ∧ t.mem = s.mem ∧
          ∀ c, ∀ l ∈ (t.hwOf c).l1, ¬ (l.part = p ∧ inFrame g l.pa = true)) ∧
      (g.releasing = true → s.underWay p = false → takes (.migReleaseComplete p) s
        (s.modMig p fun g => { g with st := .idle, bound := 0, releasing := false })) ∧
      (g.releasing = true → s.underWay p = true → takes (.migReleaseComplete p) s
        (s.park (.migReleaseComplete p))))

/-! ## Launches (R117 to R120, R298) -/

/-- A launch: THR.LAUNCH sends the record to its dies with its token pending, or answers code 1; a die checks the
record and how many it holds; the last answer accepts or refuses it; a share starts its contexts in its window; a
window that closes skips, keeps or moves a share by the policy; quads, dies and the module report an instance; the
launch window is written and read by the host, submits a slot, and registers and removes host wakes, with WRES 3 where
the registers name no word (R117 to R120, R298). That a second registration is not added twice and answers 0, and that a
word which cannot be told answers 3, is the model's choice (log entry 35). -/
def Obligations.LaunchSteps : Prop :=
  ∀ (s s1 s2 : State) (d a : Reg) (raw id die core inst quad p slot pa off n : Nat) (l : Launch) (c : Nat) (v : Word)
    (line : Nat),
    (s.masked s.myPart 8 = true → takes (.thrLaunch d a) s s.illegal) ∧
    (s.masked s.myPart 8 = false → s.pendingOf [d, a] = false →
      (U (s.rg a) % 64 ≠ 0 → takes (.thrLaunch d a) s (s.trap 0x03 (s.rg a))) ∧
      (U (s.rg a) % 64 = 0 → s.me.rights = false → takes (.thrLaunch d a) s (s.trap 0x04 0)) ∧
      (U (s.rg a) % 64 = 0 → s.me.rights = true → s.me.posted = [] → loadG (s.rg a) 64 s = .ok raw s1 →
        raw < 2 ^ 512 →
        let t := (s1.setPending d).seq
        (t.badRecord t.myPart raw = true → takes (.thrLaunch d a) s (t.token t.key t.slot d 1)) ∧
        (raw / 2 ^ 96 % 2 ^ 32 = 0 ∨ 2047 < raw / 2 ^ 48 % 2 ^ 16 ∨ raw / 2 ^ 80 % 2 ^ 8 ≠ t.myPart ∨
          raw / 2 ^ 72 % 2 ^ 8 = 3 → t.badRecord t.myPart raw = true) ∧
        (t.badRecord t.myPart raw = false → ∃ u, takes (.thrLaunch d a) s u ∧
          u.launches = t.launches ++ [⟨t.nextId, .token t.key t.slot d, t.me.asid, recordOf raw, [], false, [], [],
            [], [], 0, false⟩] ∧
          u.cores = t.cores ∧ u.mem = t.mem ∧
          ∀ e < 32, (recordOf raw).diemask.getLsbD e = true → e ∉ t.retiredDies →
            Instr.launchDieAccept t.nextId e ∈ u.flight))) ∧
    (s.launches.find? (fun e => e.id = id) = some l →
      let r := l.record
      let k := keyOf core r.part
      let wait := fun (i : Instr) => takes i s (s.park i)
      (r.done = 0 → s.activeOn r.part die < 64 →
        (l.answers.length + 1 < (s.launchDies l).length →
          takes (.launchDieAccept id die) s
            (s.modLaunch id fun _ => { l with answers := l.answers ++ [(die, 0)] })) ∧
        (l.answers.length + 1 = (s.launchDies l).length → (∀ e ∈ l.answers, e.2 = 0) →
          ∃ t, takes (.launchDieAccept id die) s t ∧ (∃ e ∈ t.launches, e.id = id ∧ e.active = true) ∧
            (∀ e ∈ s.launchCores l, Instr.launchShareStart id e 0 ∈ t.flight) ∧
            Instr.launchWindowClose id 0 ∈ t.flight ∧ Instr.launchCompletionWrite id 0 ∈ t.flight)) ∧
      (r.done = 0 → s.launchDies l = [die] → l.answers = [] → 64 ≤ s.activeOn r.part die →
        takes (.launchDieAccept id die) s
          (({ s with launches := s.launches.filter fun e => e.id ≠ id } : State).answerLaunch l.by_ 2)) ∧
      (l.share core inst = none → l.move core inst = none →
        (s.time < r.opens inst → wait (.launchShareStart id core inst)) ∧
        (r.opens inst ≤ s.time → s.time ≤ r.closes inst → s.runsOn r.part (dieOfCore core) = true →
          (s.core k).halted = false →
          ((s.core k).freeCtxs.length < r.ctx → (s.core k).freeCtxs ≠ [] →
            wait (.launchShareStart id core inst)) ∧
          (r.ctx ≤ (s.core k).freeCtxs.length → ∃ t, takes (.launchShareStart id core inst) s t ∧
            (∀ x ∈ (s.core k).freeCtxs.take r.ctx, (t.ctx k x).st = .run ∧ (t.ctx k x).pc = r.entry ∧
              (t.ctx k x).rd 1 = (s.core k).spexit ∧ (t.ctx k x).rd 4 = r.a0.signExtend 64 ∧
              (t.ctx k x).rd 7 = r.a3.signExtend 64 ∧ (t.ctx k x).asid = l.asid ∧
              (t.ctx k x).launch = some (id, inst)) ∧
            (∀ x : Slot, x ∉ (s.core k).freeCtxs.take r.ctx → t.ctx k x = s.ctx k x) ∧ t.mem = s.mem))) ∧
      (s.time ≤ r.closes inst → wait (.launchWindowClose id inst)) ∧
      (s.launches = [l] → r.closes inst < s.time → s.launchCores l = [c] → l.next = inst → r.count = inst + 1 →
        l.shares = [] → l.moved = [] →
        (r.policy = 0 → takes (.launchWindowClose id inst) s (s.skipShare l c inst).unpark) ∧
        (r.policy = 1 → takes (.launchWindowClose id inst) s
          ({ s with launches := [{ l with moved := [⟨c, inst, inst⟩] }] } : State).unpark) ∧
        (r.policy = 2 → r.period ≠ 0 → takes (.launchWindowClose id inst) s
          ((({ s with launches := [{ l with moved := [⟨c, inst, inst + 1⟩] }] } : State).post
            (.launchWindowClose id (inst + 1))).unpark))) ∧
      ((∀ e ∈ s.launchQuad l (quad / 2048) (quad % 2048), ∃ h, l.share e inst = some h ∧ h.live = 0) →
        (quad, inst) ∉ l.quads → l.next ≤ inst →
        takes (.launchQuadReport id quad inst) s
          ((s.modLaunch id fun l => { l with quads := l.quads ++ [(quad, inst)] }).post
            (.launchDieReport id (quad / 2048) inst))) ∧
      ((∀ q ∈ s.launchQuads l die, (q, inst) ∈ l.quads) → (die, inst) ∉ l.dies → l.next ≤ inst →
        takes (.launchDieReport id die inst) s
          ((s.modLaunch id fun l => { l with dies := l.dies ++ [(die, inst)] }).post
            (.launchCompletionWrite id inst))) ∧
      (inst = l.next → l.holding = false → s.reported l inst = true →
        (r.done = 0 → takes (.launchCompletionWrite id inst) s (s.recordOver id)) ∧
        (r.count = inst + 1 → s.recordOver id =
          { s with launches := s.launches.filter fun e => e.id ≠ id }) ∧
        (r.done ≠ 0 → donePage l s = .ok (.ok pa) s1 →
          performAt (s1.homeAgent r.part (s1.steer r.part pa)) r.part pa (maskOf (loc pa % 128) 16)
            (placed (loc pa % 128) (l.doneRecord inst)) s1 = .ok () s2 →
          takes (.launchCompletionWrite id inst) s
            ((s2.post (.wakeHome .device r.part l.asid.toNat r.done.toNat 0)).recordOver id)))) ∧
    (let w := (s.part p).win;
      (s.hostUp = false → takes (.ldoor p slot) s s ∧ ∀ u, takes (.launchWindowWrite p off n u) s s) ∧
      (s.hostUp = true → slot < 512 →
        (aget w.lstat slot = some 0xFF → takes (.ldoor p slot) s s) ∧
        (aget w.lstat slot ≠ some 0xFF → takes (.ldoor p slot) s
          ((s.modPart p fun e => { e with win := { e.win with lstat := aset e.win.lstat slot 0xFF } }).submit
            (.window p slot) p w.lasid (w.slots.readNat (slot * 64) 64)))) ∧
      (s.hostUp = true → w.slots.wf = true → off < 0x8000 → off % 8 + n ≤ 8 → 0 < n →
        ∃ t, takes (.launchWindowWrite p off n (some v)) s t ∧ t.mem = s.mem ∧ t.cores = s.cores ∧
          (t.part p).win.slots.readNat off n = U v % 256 ^ n ∧
          ∀ b, b < off ∨ off + n ≤ b → (t.part p).win.slots.read b = w.slots.read b) ∧
      (s.hostUp = true → takes (.launchWindowWrite p 0xB000 8 (some v)) s
        (s.modPart p fun e => { e with win := { e.win with akey := v.extractLsb' 0 6 } })) ∧
      (s.hostUp = true →
        (0x10000 < off + n → ∀ u, takes (.launchWindowWrite p off n u) s (s.send .unsupported)) ∧
        (off + n ≤ 0x10000 → takes (.launchWindowWrite p off n none) s (s.send (.readData (w.readNat off n))))) ∧
      (hostWord p (s.setWres p 0xFF) = .ok none s1 → takes (.wcmdAdd p) s (s1.setWres p 3)) ∧
      (hostWord p (s.setWres p 0xFF) = .ok (some line) s1 →
        let u := (s1.part p).win
        (s1.waits.any (isRegistration p u) = true → takes (.wcmdAdd p) s (s1.setWres p 0) ∧ takes (.wcmdRemove p) s
          { s1.setWres p 0 with waits := s1.waits.filter fun e => !isRegistration p u e }) ∧
        (s1.waits.any (isRegistration p u) = false → takes (.wcmdRemove p) s (s1.setWres p 2) ∧
          (s1.waitRoom p line = true → takes (.wcmdAdd p) s (({ s1.setWres p 0 with
            waits := s1.waits ++ [⟨p, u.wasid, u.wva.toNat, line, .host u.whpa 0⟩] } : State).usedAbroad line)) ∧
          (s1.waitRoom p line = false → takes (.wcmdAdd p) s ((s1.usedAbroad line).setWres p 1)))) ∧
      (hostWord p (s.setWres p 0xFF) = .ok none s1 → takes (.wcmdRemove p) s (s1.setWres p 3)) ∧
      (hostWord p (s.setWres p 0xFF) = .error .err s1 →
        takes (.wcmdAdd p) s (s1.setWres p 3) ∧ takes (.wcmdRemove p) s (s1.setWres p 3)) ∧
      ∀ e, hostWord p (s.setWres p 0xFF) = .error (.block e) s1 →
        takes (.wcmdAdd p) s (s1.parkOn (.wcmdAdd p) e) ∧ takes (.wcmdRemove p) s (s1.parkOn (.wcmdRemove p) e))

/-! ## Coherence (R158 to R178, R187) -/

/-- The hubs' messages. One whose tag does not agree with its links or its line is dropped and logged; the others are
handled, and then what waits for a way is looked at again. A request or a notice is resolved from its line's entry; a
line being served keeps its messages; a line without an entry is read from its home, or waits for a way; write-backs
go home or are dropped; the home's data installs an entry; a NoData is answered by the home or by the forward sent
again, until its line is poisoned; probes rebuild an entry; the home's acknowledgement releases what waited for it; a
request for a synchronisation line, or for a line that has moved, is made elsewhere; a request of the switch that
the export table refuses is answered ERR, and what is for the switch leaves by a port of the partition (R140, R158,
R160, R163, R171, R173 to R175, R177, R178, R183, R186, R187). The message numbers of R167 and the state a forward names
are inferences of the model (log entry 29), as is the answer for a poisoned line (log entry 33). -/
def Obligations.HubMessages : Prop :=
  ∀ (s : State) (h : Hdr) (line a b n : Nat) (data : LineData) (dirty excl : Bool) (st : PState) (e : DirEntry)
    (hb : HubLine) (held : List Instr) (f : FwdKind) (hs : HState),
    let p := h.part
    let r := h.req
    let d := h.src
    let home := homeDie line
    let goes := fun (i : Instr) (t : State) => takes i s t.serve;
    (∀ i g l, message i = some (g, l) →
      (g.dst ≠ 34 → s.emit i = s.post i) ∧
      (g.dst = 34 → isPodLine l = true → ∃ j, s.emit i = { s with switchOut := s.switchOut ++ [(s.podPort g.part l, j)] } ∧
        message j = some ({ g with mod := State.modOf l }, l) ∧
        (s.portsOf g.part ≠ [] → s.podPort g.part l ∈ s.portsOf g.part))) ∧
    ((∀ o ∈ s.hub, State.waitsForWay o = false ∧ o.busy ≠ .hack) → s.serve = s) ∧
    (s.hub = [⟨line, p, .alloc, held⟩] → s.roomFor line = true → s.serve = s.releaseLine p line true) ∧
    (∀ i, message i = some (h, line) → d ≠ 34 → s.tagged h line = false → takes i s (s.log (.packet p))) ∧
    (d = 34 → isPodLine line = true → State.modOf line = s.podModule.toNat → s.podExport p (lineLoc line) true = none →
      takes (.rds h line) s (s.emit (({ backTo h with err := true } : Hdr).data line 0 false false false))) ∧
    (d ≠ 34 → s.tagged h line = true → isPodLine line = true → s.busyWith p line = none → s.entryAt p line = none →
      s.unknown line = false → s.roomFor line = true → r < 32 → s.steer p (lineLoc line) = line →
      goes (.rds h line) (((s.setBusy ⟨line, p, .install r, []⟩).awaitsPod h line true).emit (.rds (onward h 34) line))) ∧
    (d ≠ 34 → s.tagged h line = true → isPodLine line = false →
      (s.busyWith p line = none → s.entryAt p line = some e → State.unreadable e = false → e.part = p → e.owner ≠ 34 →
        (r ≠ 34 →
          (e.st = .s → e.ov = false →
            goes (.rds h line) ((s.setEntry line (e.add r)).emit (.hrd (onward h home) line false false))) ∧
          (e.st = .e →
            goes (.rds h line) ((s.setEntry line (({ e with st := .s, ptrs := [e.owner] } : DirEntry).add r)).emit
              ((onward h e.owner).fwds line .e (s.granted p e.owner line)))) ∧
          (e.st = .m → e.ov = true →
            goes (.rds h line) ((s.setEntry line (({ e with st := .o, ptrs := [e.owner] } : DirEntry).add r)).emit
              ((onward h e.owner).fwds line .m (s.granted p e.owner line)))) ∧
          (let new : DirEntry :=
              { e with st := .m, owner := r, ov := true, coarse := false, ptrs := [], vec := 0, pod := false }
            let t := (s.handled h line).setEntry line new;
            (e.st = .m → e.ov = true → e.owner ≠ r → e.pod = false →
              goes (.rdx h line) ((t.emit ((onward h e.owner).fwdx line .m (t.granted p e.owner line))).emit
                (.grant (onward h r) line 1))) ∧
            (e.st = .s → e.coarse = false → e.pod = false → e.ptrs = [a, b] ∨ e.ptrs = [b, a] → a < b → b < 32 →
              r ≠ a → r ≠ b →
              (e.ov = false ∨ e.owner = a →
                goes (.rdx h line) (((t.emit ((onward h a).fwdx line .s (t.granted p a line))).emit
                  ((onward h b).inv line)).emit (.grant (onward h r) line 2))) ∧
              (e.ov = true → e.owner = b →
                goes (.rdx h line) (((t.emit ((onward h b).fwdx line .s (t.granted p b line))).emit
                  ((onward h a).inv line)).emit (.grant (onward h r) line 2)))))) ∧
        (e.st = .m ∨ e.st = .e → e.ov = true → e.owner = d →
          goes (.wbd h line data)
            ((s.freeEntry p line).emit (.hwb (s.hubHdr p line h.key home) ⟨line, (.wbd d)⟩ data true)) ∧
          goes (.notice h line) ((s.freeEntry p line).emit (.hclr (s.hubHdr p line 0 home) ⟨line, .plain⟩))) ∧
        (e.ov = false ∨ e.owner ≠ d → goes (.wbd h line data) (s.emit (.wback (backTo h) line true))) ∧
        (e.st = .o → e.ov = true → e.owner = d → e.coarse = false →
          goes (.wbd h line data)
            ((s.emit (.hwb (s.hubHdr p line h.key home) ⟨line, (.wbd d)⟩ data false)).afterLeaving line
              { e with st := .s, ov := false, ptrs := e.ptrs.filter (· ≠ d) })) ∧
        (e.st = .s → e.ov = false → e.coarse = false → e.ptrs = [d] → e.pod = false →
          goes (.notice h line) ((s.freeEntry p line).emit (.hclr (s.hubHdr p line 0 home) ⟨line, .plain⟩)))) ∧
      (s.busyWith p line = none → s.entryAt p line = some e → State.unreadable e = true →
        ∀ i ∈ [Instr.rds h line, .rdx h line, .wbd h line data, .notice h line],
          goes i ((s.setEntry line { e with st := .u }).startProbe p line [i] none)) ∧
      (s.busyWith p line = none → s.entryAt p line = none → s.unknown line = false →
        (r < 32 → s.isSync p line = true ∨ s.steer p (lineLoc line) ≠ line → ∀ i ∈ [Instr.rds h line, .rdx h line],
          goes i ((s.closeReq r p line).lineArrived r p line)) ∧
        (r < 32 → s.steer p (lineLoc line) = line → s.isSync p line = false →
          (s.roomFor line = true →
            goes (.rds h line) ((s.setBusy ⟨line, p, .install r, []⟩).emit (.hrd (onward h home) line false false)) ∧
            goes (.rdx h line)
              (((s.handled h line).setBusy ⟨line, p, .install r, []⟩).emit (.hrd (onward h home) line true false))) ∧
          (s.roomFor line = false → ∀ i ∈ [Instr.rds h line, .rdx h line],
            goes i ((s.setBusy ⟨line, p, .alloc, [i]⟩).makeRoom line))) ∧
        goes (.notice h line) s ∧ goes (.wbd h line data) (s.emit (.wback (backTo h) line true))) ∧
      (s.busyWith p line = some hb → ∀ i ∈ [Instr.rds h line, .rdx h line],
        goes i (s.setBusy { hb with held := hb.held ++ [i] })) ∧
      (h.dst = 32 ∨ h.dst = 33 → h.err = false →
        (s.busyWith p line = some ⟨line, p, .install r, held⟩ → s.entryAt p line = none → r < 32 →
          let want := ((s.openReq r p line).map (·.excl)).getD excl
          let t := s.setEntry line (entryOf (if want then .m else .e) r p true [])
          let u := t.emit ((onward h r).data line data false false true);
          goes (h.data line data false false excl)
            ((if want then u.emit (.grant (onward h r) line 0) else u).releaseLine p line true)) ∧
        (s.busyWith p line = some ⟨line, p, .recall [] true none, held⟩ → r = 32 ∨ r = 33 → d < 32 →
          let t := if dirty then s.emit (.rel (backTo h) line) else s
          let u := t.setBusy ⟨line, p, .hack, held⟩;
          goes (h.data line data dirty false true)
            (if dirty then u.emit (.hwb (s.hubHdr p line h.key home) ⟨line, .recall⟩ data true)
             else u.emit (.hclr (s.hubHdr p line 0 home) ⟨line, .recall⟩))) ∧
        (s.busyWith p line = some ⟨line, p, .recall [d] false none, held⟩ → r = 32 ∨ r = 33 →
          goes (h.invack line)
            ((s.setBusy ⟨line, p, .hack, held⟩).emit (.hclr (s.hubHdr p line 0 home) ⟨line, .recall⟩))) ∧
        (r < 32 → goes (h.invack line) (s.emit ((onward h r).invack line))) ∧
        (s.busyWith p line = none → s.entryAt p line = some e → e.st = .s → e.ov = true → e.owner = d → r < 32 →
          d < 32 → goes (h.data line data true false excl)
            ((s.setEntry line { e with st := if State.unreadable e then .u else .o }).emit
              ((onward h r).data line data true false excl)))) ∧
      (d < 32 → s.awaits d p line n = false →
        goes (h.nodata line .fwdS .e n) (s.emit (.hrd (onward h home) line false false)) ∧
        goes (h.nodata line .fwdX .s n) (s.emit (.hrd (onward h home) line true true)) ∧
        (hs = .m ∨ hs = .o →
          (tagOf line p ∉ s.poisoned → goes (h.nodata line f hs n) (s.emit (forward (backTo h) line hs n f))) ∧
          (tagOf line p ∈ s.poisoned → r < 32 → goes (h.nodata line f hs n)
            (s.emit (({ onward h r with err := true } : Hdr).data line 0 false false false))))) ∧
      (d < 32 → s.awaits d p line n = true → goes (h.nodata line f hs n) (s.emit (forward (backTo h) line hs n f))) ∧
      (s.busyWith p line = some ⟨line, p, .probe [d] [] none, held⟩ → r ≠ 34 → d < 32 →
        (st = .m ∨ st = .e → (s.entryAt p line).isSome ∨ s.roomFor line = true →
          goes (.probeack h line st data false)
            ((s.setEntry line (entryOf (if st = .m then .m else .e) d p true [])).releaseLine p line true)) ∧
        (st = .none → goes (.probeack h line st data false)
          (((s.emit (.hclr (s.hubHdr p line 0 home) ⟨line, .plain⟩)).freeEntry p line).releaseLine p line true)) ∧
        (st = .buffered → goes (.probeack h line st data false)
          ((((s.emit (.rel (s.hubHdr p line 0 d) line)).emit
            (.hwb (s.hubHdr p line h.key home) ⟨line, .plain⟩ data true)).freeEntry p line).releaseLine p line true))) ∧
      goes (.hack h ⟨line, .plain⟩) s ∧
      (s.moving p line = false → s.claimed p line = false →
        goes (.hack h ⟨line, .recall⟩) ((s.freeEntry p line).releaseLine p line true)) ∧
      (s.moving p line = true ∨ s.claimed p line = true → goes (.hack h ⟨line, .recall⟩) (s.freeEntry p line).unpark) ∧
      ∀ die, goes (.hack h ⟨line, (.wbd die)⟩) (s.emit (.wback (s.hubHdr p line h.key die) line false)))

/-- The messages at a die and at a line's home: a forward, a recall or an invalidation takes or shares the copy and
sends its data, or says that there is none; the home hands out and takes back a line and keeps its exported mark;
data, acknowledgements and the grant complete the request of their transaction; the write-back buffer empties; the LLC
drops a copy (R161 to R163, R166, R169, R172 to R178, R339). The message numbers are the model's inference (log entry
29), and so is what a Rel and a WbAck wait for (log entry 33). -/
def Obligations.DieMessages : Prop :=
  ∀ (s : State) (h : Hdr) (line n id : Nat) (data : LineData) (dirty excl seen marked : Bool) (st : HState)
    (early : List Instr) (c : LlcLine) (w : WbLine) (why : HWhy),
    h.src ≠ 34 → s.tagged h line = true →
    let p := h.part
    let o := h.dst
    let goes := fun (i : Instr) (t : State) => takes i s t.serve;
    (o < 32 → s.albRecall o p line = s →
      let t := s.markOpen o p line;
      (t.awaits o p line n = true →
        goes (h.fwds line st n) (t.emit ((backTo h).nodata line .fwdS st n)) ∧
        goes (h.fwdx line st n) (t.emit ((backTo h).nodata line .fwdX st n))) ∧
      (t.awaits o p line n = false →
        (t.copyOf o p line = some c →
          goes (h.fwds line st n)
            ((t.setCopy o { c with st := if c.st = .m ∨ c.st = .o then .o else .s }).emit
              ((withKey h c.key).data line c.data (dirtySt c.st) false false)) ∧
          (dirtySt c.st = false → goes (h.fwdx line st n)
            ((t.dropCopy o p line).emit ((withKey h c.key).data line c.data false true true))) ∧
          (dirtySt c.st = true → goes (h.fwdx line st n)
            (((t.dropCopy o p line).answeredFrom o p line c.key c.data).emit
              ((withKey h c.key).data line c.data true true true)))) ∧
        (t.copyOf o p line = none → t.buffered o p line = some w →
          goes (h.fwds line st n) (t.emit ((withKey h w.key).data line w.data true false false)) ∧
          goes (h.fwdx line st n) ((t.answeredFrom o p line w.key w.data).emit
            ((withKey h w.key).data line w.data true true true))) ∧
        (t.copyOf o p line = none → t.buffered o p line = none →
          goes (h.fwds line st n) (t.emit ((backTo h).nodata line .fwdS st n)) ∧
          goes (h.fwdx line st n) (t.emit ((backTo h).nodata line .fwdX st n)))) ∧
      (s.awaits o p line n = false →
        (s.copyOf o p line = some c →
          (dirtySt c.st = false → goes (.rcl h line st n)
            ((s.dropCopy o p line).emit ((withKey h c.key).data line c.data false false true))) ∧
          (dirtySt c.st = true → goes (.rcl h line st n)
            (((s.dropCopy o p line).answeredFrom o p line c.key c.data).emit
              ((withKey h c.key).data line c.data true false true)))) ∧
        (s.copyOf o p line = none → s.buffered o p line = none →
          goes (.rcl h line st n) (s.emit ((backTo h).nodata line .rcl st n)))) ∧
      goes (h.inv line) ((t.dropCopy o p line).emit ((backTo h).invack line)) ∧
      (let pend := (s.openReq o p line).isSome;
        (s.copyOf o p line = some c →
          goes (.probe h line) (s.emit (.probeack { backTo h with key := c.key } line c.st c.data pend))) ∧
        (s.copyOf o p line = none → s.buffered o p line = some w →
          goes (.probe h line) ((s.answeredFrom o p line w.key w.data).emit
            (.probeack { backTo h with key := w.key } line .buffered w.data pend))) ∧
        (s.copyOf o p line = none → s.buffered o p line = none →
          goes (.probe h line) (s.emit (.probeack (backTo h) line .none 0 pend)))) ∧
      (s.copyOf o p line = some c → s.openReq o p line = none →
        (dirtySt c.st = true → s.buffered o p line = none →
          takes (.llcEviction o ⟨p, line⟩) s
            (((s.dropCopy o p line).setBuffered o ⟨line, p, c.key, c.data, true, false, 0, false⟩).emit
              (.wbd (s.dieHdr p o line c.key) line c.data))) ∧
        (dirtySt c.st = false → takes (.llcEviction o ⟨p, line⟩) s
          ((s.dropCopy o p line).emit (.notice (s.dieHdr p o line c.key) line))))) ∧
    (s.albRecall o p line = s →
      let t : State :=
        { s with exported := if s.isExported p line then s.exported else s.exported ++ [tagOf line p] };
      goes (.hrd h line excl dirty)
        ((t.usedChoice line h.key).emit ((backTo h).data line (s.lineUnder line h.key) false dirty excl)) ∧
      ((aget s.keys line).all (· = h.key) = true → s.lineUnder line h.key = s.memLine line)) ∧
    (let t := s.writeLine line h.key (BitVec.allOnes 128) data;
      goes (.hwb h ⟨line, why⟩ data true) ((t.clearExported p line).emit (.hack (backTo h) ⟨line, why⟩)) ∧
      goes (.hwb h ⟨line, why⟩ data false) (t.emit (.hack (backTo h) ⟨line, why⟩)) ∧
      (s.wf = true → t.memLine line = data ∧
        ∀ a, a < lineLoc line ∨ lineLoc line + 128 ≤ a → t.mem.read a = s.mem.read a)) ∧
    goes (.hclr h ⟨line, why⟩) ((s.clearExported p line).emit (.hack (backTo h) ⟨line, why⟩)) ∧
    (let t := s.clearExported p line;
      t.isExported p line = false ∧
      ∀ q l, (l ≠ line ∨ q ≠ p) → q < 64 → p < 64 → t.isExported q l = s.isExported q l) ∧
    (o < 32 →
      (let q : OpenReq := ⟨id, h.txn, seen, line, p, h.key, false, marked, early, 0, none, none, none⟩;
        (s.die o).reqs = [q] →
        (h.err = true → goes (h.data line data dirty false excl) (s.failReq o q)) ∧
        (h.err = false → marked = false → goes (h.data line data dirty false excl)
          (((s.closeReq o p line).setCopy o ⟨line, p, h.key, if excl then .e else .s, data⟩).lineArrived o p line)) ∧
        (h.err = false → marked = true → goes (h.data line data dirty false excl)
          (((s.closeReq o p line).emit (.notice (s.dieHdr p o line h.key) line)).serveOnce o
            ⟨line, p, h.key, .s, data⟩ (early.filter servedOnce)))) ∧
      (∀ q : OpenReq, (s.die o).reqs = [q] → q.line = line → q.part = p → q.txn ≠ h.txn →
        goes (h.data line data dirty false excl) s) ∧
      (let q : OpenReq := ⟨id, h.txn, seen, line, p, h.key, true, false, early, n, none, none, none⟩
        let got := ((s.closeReq o p line).setCopy o ⟨line, p, h.key, .m, data⟩).lineArrived o p line;
        s.copyOf o p line = none → h.err = false →
        ((s.die o).reqs = [q] →
          goes (h.data line data dirty true true)
            (s.modDie o fun e => { e with reqs := [{ q with data := some (data, dirty), acks := n + 1 }] }) ∧
          goes (h.invack line) (s.modDie o fun e => { e with reqs := [{ q with acks := n + 1 }] })) ∧
        ((s.die o).reqs = [{ q with grant := some (n + 1) }] → goes (h.data line data dirty true true) got) ∧
        ((s.die o).reqs = [{ q with grant := some (n + 1), data := some (data, dirty) }] →
          goes (h.invack line) got) ∧
        ((s.die o).reqs = [{ q with data := some (data, dirty) }] → goes (.grant h line n) got))) ∧
    (s.buffered o p line = some w →
      let gone := s.modDie o fun e => { e with wbuf := e.wbuf.filter fun v => ¬ (v.line = line ∧ v.part = p) };
      (w.rels = 0 → w.dropped = false → s.fwdsOut p o line = false → goes (.wback h line false) gone) ∧
      (s.fwdsOut p o line = true → takes (.wback h line false) s (s.park (.wback h line false))) ∧
      (w.rels = 1 → w.wbAck = false → w.answered = true → s.relWaits h line = false → goes (.rel h line) gone) ∧
      (s.relWaits h line = true → takes (.rel h line) s (s.park (.rel h line))) ∧
      (w.rels = 0 → w.dropped = false → w.answered = false →
        goes (.wback h line true) (s.setBuffered o { w with wbAck := false, dropped := true })))

/-! ## Faults and failures (R39, R179 to R181, R188, R264 to R278) -/

/-- Faults. A walk reads the table entry of the identifier and then the table of each level, and finds a leaf, an
absent page, a malformed entry or a poisoned line. A leaf is put into the cache of its slice and lets its access go
on, an absent page posts a record, a refusal traps, of the other part of a split access first. A record goes into its
ring, or waits for room, or is fatal; the reply lets the access go on or refuses it. An uncorrectable error traps its
context, in its slot or its image, frees its engine and leaves its core to be retired, or marks an entry, or a line for
every partition that holds its die, whose memory is then retired, or is that of another unit, which is; a machine check
is recorded for its supervisor, as the context was when the error came, whose reply
resumes or halts the core; a fatal one stops the partition; an illegal word raises cause 0x01 (R39, R40, R264 to
R280, R331). That a fault or a check of the supervisor of any die is fatal is the model's inference (log entry 34), as is
what an error retires (log entry 24). -/
def Obligations.FaultSteps : Prop :=
  ∀ (s s1 s2 t : State) (k p ring core slot d off id : Nat) (x : Slot) (r : XReq) (f : FaultRec)
    (pte va twin : Word) (lv pa base : Nat) (w : Walked) (data : LineData) (e : DirEntry) (check : CheckOf)
    (unit : Failure) (w0 w1 : W32),
    takes (.illegalInstruction w0 w1) s
      (s.trap 0x01 (wrapU (if isLong w0 then w1.toNat * 2 ^ 32 + w0.toNat else w0.toNat))) ∧
    -- the walk
    (((∀ m, place (loc pa) ≠ .pod m) → s.podResolve p .load pa = some pa) ∧
      (∀ q, s.podResolve p .load pa = some q →
        (((∃ n, place (loc q) = .dram n) ∨ ∃ n, place (loc q) = .pod n) → s.admits p q = true →
          readLine (s.homeAgent p (s.steer p q)) p q s = .ok data s1 →
          readHome p pa s = .ok (some (wrapU (data.toNat / 256 ^ (q % 128) % 2 ^ 64))) s1) ∧
        ((∀ n, place (loc q) ≠ .dram n) ∧ (∀ n, place (loc q) ≠ .pod n) ∨ s.admits p q = false →
          readHome p pa s = .ok none s)) ∧
      (s.podResolve p .load pa = none → readHome p pa s = .ok none s)) ∧
    (let at_ := base + 8 * (U va / 2 ^ (12 + 9 * lv) % 512);
      (s.badLine p at_ true = true → walkLevel p va base lv s = .ok (.inl .poison) s) ∧
      (s.badLine p at_ true = false →
        (readHome p at_ s = .ok none s1 → walkLevel p va base lv s = .ok (.inl .refused) s1) ∧
        (readHome p at_ s = .ok (some pte) s1 →
          let leads := fun (u : Walked ⊕ Nat) => walkLevel p va base lv s = .ok u s1;
          (U pte % 2 = 0 → leads (.inl (.absent pte lv at_))) ∧
          (U pte % 2 = 1 → U pte / 2 % 8 = 0 →
            (lv = 0 ∨ U pte / 2 ^ 54 ≠ 0 → leads (.inl .refused)) ∧
            (lv ≠ 0 → U pte / 2 ^ 54 = 0 → leads (.inr (U pte / 2 ^ 10 % 2 ^ 44 * 4096)))) ∧
          (U pte % 2 = 1 → U pte / 2 % 8 ≠ 0 →
            (badLeaf pte lv = true → leads (.inl .refused)) ∧
            (badLeaf pte lv = false → leads (.inl (.leaf pte lv at_))))))) ∧
    (badLeaf pte lv = true ↔ U pte / 2 ^ 57 ≠ 0 ∨ U pte / 2 ^ 54 % 4 = 3 ∨ U pte / 2 % 4 = 2 ∨
      (U pte / 2 ^ 56 % 2 = 1 ∧ U pte / 4 % 2 = 1) ∨ U pte / 1024 % 2 ^ (9 * lv) ≠ 0) ∧
    (walkLevel p va base lv s = .ok (.inl w) s1 → walkFrom p va lv base s = .ok w s1) ∧
    (walkLevel p va base (lv + 1) s = .ok (.inr pa) s1 → walkFrom p va (lv + 1) base s = walkFrom p va lv pa s1) ∧
    (let at_ := (s.part p).asidtab.toNat * 4096 + 8 * id;
      (s.badLine p at_ true = true → walkTable p id va s = .ok .poison s) ∧
      (s.badLine p at_ true = false →
        (readHome p at_ s = .ok none s1 → walkTable p id va s = .ok .refused s1) ∧
        (readHome p at_ s = .ok (some pte) s1 →
          (U pte / 2 ^ 63 = 0 ∨ U pte / 2 ^ 54 % 2 ^ 9 ≠ 0 ∨ U pte % 2 ^ 10 ≠ 0 →
            walkTable p id va s = .ok .refused s1) ∧
          (U pte / 2 ^ 54 = 512 → U pte % 2 ^ 10 = 0 →
            walkTable p id va s = walkFrom p va 4 (U pte / 2 ^ 10 % 2 ^ 44 * 4096) s1)))) ∧
    -- what it leads to
    (((s.die r.die).xlat.filter fun o => o.1 = xlatSlice (BitVec.ofNat 16 r.asid) r.va).length < 4096 →
      let u := s.cacheLeaf r pte lv
      (u.cachedLeaf r.die r.part (BitVec.ofNat 16 r.asid) r.va =
        some ⟨r.part, BitVec.ofNat 16 r.asid, U r.va / 2 ^ (12 + 9 * lv) % 2 ^ (45 - 9 * lv), lv, pte⟩) ∧
      (∀ o ∈ (u.die r.die).xlat, o.1 ≠ xlatSlice (BitVec.ofNat 16 r.asid) r.va → o ∈ (s.die r.die).xlat) ∧
      ∀ n, n ≠ r.die → u.die n = s.die n) ∧
    (s.wants r.who = true →
      (∀ m, walkTable r.part r.asid r.va s = .error (.block m) s1 →
        takes (.translationWalk r) s (s1.parkOn (.translationWalk r) m)) ∧
      (walkTable r.part r.asid r.va s = .error .err s1 → takes (.translationWalk r) s (s1.refuse r 0x04))) ∧
    (r.who = .ctx k x → r.acc ≠ .atomic → (s.ctx k x).wait = some .walk → (s1.ctx k x).wait = some .walk →
      (∀ c v, r.twin = some (.trap c v) →
        ((∃ n u, walkTable r.part r.asid r.va s = .ok (.absent n u pa) s1) ∨
            walkTable r.part r.asid r.va s = .ok .refused s1 ∨ walkTable r.part r.asid r.va s = .ok .poison s1 →
          takes (.translationWalk r) s (s1.trapOf k x c v))) ∧
      ((∀ c v, r.twin ≠ some (.trap c v)) →
      (walkTable r.part r.asid r.va s = .ok (.leaf pte lv pa) s1 →
        (verdict pte r.acc = .ok → s1.reachable r pte lv = true →
          takes (.translationWalk r) s ((s1.cacheLeaf r pte lv).reply k x)) ∧
        (verdict pte r.acc = .cow → s1.reachable r pte lv = true → r.twin = none →
          takes (.translationWalk r) s
            ((s1.modCtx k x fun c => { c with wait := some .fault }).post
              (.faultRecordPost ⟨r, 2, lv, pa, pte, 0, 0⟩))) ∧
        (verdict pte r.acc = .refused ∨ s1.reachable r pte lv = false →
          takes (.translationWalk r) s (s1.trapOf k x 0x04 r.va))) ∧
      (walkTable r.part r.asid r.va s = .ok (.absent pte lv pa) s1 →
        (r.twin = none →
          takes (.translationWalk r) s
            ((s1.modCtx k x fun c => { c with wait := some .fault }).post
              (.faultRecordPost ⟨r, 1, lv, pa, pte, 0, 0⟩))) ∧
        (∀ fresh, r.twin = some (.known twin base fresh) →
          s1.badLine r.part base (fresh && !writes r.acc) = true →
          takes (.translationWalk r) s (s1.trapOf k x 0x0D twin)) ∧
        (r.twin = some (.walk twin) → s1.cachedLeaf r.die r.part (BitVec.ofNat 16 r.asid) twin = none →
          (s2.ctx k x).wait = some .walk → walkTable r.part r.asid twin s1 = .ok .refused s2 →
          takes (.translationWalk r) s (s2.trapOf k x 0x04 twin))) ∧
      (walkTable r.part r.asid r.va s = .ok .refused s1 →
        takes (.translationWalk r) s (s1.trapOf k x 0x04 r.va)) ∧
      (walkTable r.part r.asid r.va s = .ok .poison s1 →
        (r.twin = none ∨ (∃ base fresh, r.twin = some (.known twin base fresh)) →
          takes (.translationWalk r) s (s1.trapOf k x 0x0D r.va)) ∧
        (r.twin = some (.walk twin) → s1.cachedLeaf r.die r.part (BitVec.ofNat 16 r.asid) twin = none →
          (s2.ctx k x).wait = some .walk →
          (walkTable r.part r.asid twin s1 = .ok .refused s2 →
            takes (.translationWalk r) s (s2.trapOf k x 0x04 twin)) ∧
          (walkTable r.part r.asid twin s1 = .ok .poison s2 →
            takes (.translationWalk r) s (s2.trapOf k x 0x0D r.va)))))) ∧
    (r.who = .job k id → (∃ j ∈ (s.core k).jobs, j.id = id ∧ j.asking = true) →
      (walkTable r.part r.asid r.va s = .ok (.leaf pte lv pa) s1 → verdict pte r.acc = .ok →
        (s1.reachable r pte lv = true →
          takes (.translationWalk r) s ((s1.cacheLeaf r pte lv).jobAnswer k id none)) ∧
        (s1.reachable r pte lv = false → takes (.translationWalk r) s (s1.jobAnswer k id (some 0x04)))) ∧
      (walkTable r.part r.asid r.va s = .ok .refused s1 →
        takes (.translationWalk r) s (s1.jobAnswer k id (some 0x04)))) ∧
    -- records
    ([Access.load, .store, .atomic, .sync, .fetch, .jobRead, .jobWrite, .launch].map accessCode =
      [1, 2, 3, 3, 4, 5, 6, 7]) ∧
    (let c := s.cfg f.req.part
      let words := [f.kind + 256 * accessCode f.req.acc + 65536 * f.req.asid + 2 ^ 32 * f.level, tidOf k x,
        U f.req.va, f.pte, U f.value, 0, 0, 0]
      f.req.who = .ctx k x →
      (isLrs c (coreOf k) = false → coreOf k ≠ c.svcCore ∧ core = c.svcCore ∧ ring = c.svcRing ∨
          coreOf k = c.svcCore ∧ lrsOf c (dieOfCore (coreOf k)) = some (core, ring) →
        (s.postRecord (keyOf core f.req.part) ring words = some (t, slot) →
          takes (.faultRecordPost f) s
            { t with faults := t.faults ++ [{ f with ring := keyOf core f.req.part, slot := slot }] }) ∧
        (s.postRecord (keyOf core f.req.part) ring words = none →
          takes (.faultRecordPost f) s (s.park (.faultRecordPost f)))) ∧
      (isLrs c (coreOf k) = true → takes (.faultRecordPost f) s (s.post (.fatalMachineCheck f.req.part)))) ∧
    (f.req.who = .ctx k x → (s.ctx k x).wait = some .fault → f.req.acc ≠ .atomic →
      takes (.faultReply f 0) s (s.reply k x) ∧
      takes (.faultReply f 1) s (s.trapOf k x 0x04 f.req.va)) ∧
    -- errors and machine checks
    ((s.ctx k x).st = .run → (∀ m ∈ (s.core k).fills, m.slot ≠ x) →
      ∃ u, takes (.uncorrectableError k (.slot x)) s u ∧ (u.ctx k x).st = .trapped ∧ (u.ctx k x).cause = 0x0D ∧
        Failure.core (coreOf k) ∈ u.failed ∧
        (u.ctx k x).epc = (s.ctx k x).pc ∧ (u.ctx k x).tval = 0 ∧
        Instr.machineCheck k x ⟨2, (s.ctx k x).asid.toNat, 0x0D, U (s.ctx k x).pc, 0⟩ ∈ u.flight) ∧
    ((s.core k).vecEng.owner = some (.slot x) → (s.ctx k x).st = .run → (∀ m ∈ (s.core k).fills, m.slot ≠ x) →
      ∃ u, takes (.uncorrectableError k .vector) s u ∧ (u.ctx k x).st = .trapped ∧ (u.ctx k x).bind = 0 ∧
        (u.core k).vecEng.owner = none ∧ (u.core k).v = Vector.replicate 32 0 ∧
        Instr.machineCheck k x ⟨2, (s.ctx k x).asid.toNat, 0x0D, U (s.ctx k x).pc, 0⟩ ∈ u.flight) ∧
    (∀ m : Move, (s.core k).fills = [m] → (s.core k).vecEng.owner = some (.slot m.slot) →
      ∃ u, takes (.uncorrectableError k .vector) s u ∧ (u.core k).vecEng.owner = none ∧
        Instr.machineCheck k m.slot
          ⟨2, u.loadLocal k (m.off + 0x180) 8 % 65536, u.loadLocal k (m.off + 0x150) 8,
            u.loadLocal k (m.off + 0x158) 8, u.loadLocal k (m.off + 0x160) 8⟩ ∈ u.flight) ∧
    ((s.core k).vecEng.owner = some (.image off) → (s.core k).fills = [] →
      let failed : State := { s with failed := s.failed.filter (· ≠ .core (coreOf k)) ++ [.core (coreOf k)] }
      let u := (failed.errorImage k off).modCore k fun c =>
        { c with v := Vector.replicate 32 0, q := Vector.replicate 4 0, vecEng := { c.vecEng with owner := none } };
      takes (.uncorrectableError k .vector) s
        (u.post (.machineCheck k (Fin.ofNat 16 (u.loadLocal k (off + 0x178) 8 / 16))
          ⟨2, u.loadLocal k (off + 0x180) 8 % 65536, u.loadLocal k (off + 0x150) 8, u.loadLocal k (off + 0x158) 8,
            u.loadLocal k (off + 0x160) 8⟩))) ∧
    (aget s.dir (tagOf d (partOf k)) = some e → takes (.uncorrectableError k (.entry d)) s
      { s with dir := aset s.dir (tagOf d (partOf k)) { e with chk := 2 } }) ∧
    (∃ u, takes (.uncorrectableError k (.memory d)) s u ∧ u = { s with memErr := u.memErr, failed := u.failed } ∧
      (∀ n, place (lineLoc d) = .dram n →
        (if lineLoc d < 0x10000000000 then Failure.die n else .lpddr n) ∈ u.failed) ∧ (∀ f ∈ s.failed, f ∈ u.failed) ∧
      ∀ t, t ∈ u.memErr ↔ t ∈ s.memErr ∨ ∃ e ∈ s.parts, homeDie d ∈ e.2.cfg.dies ∧ t = tagOf d e.1) ∧
    takes (.uncorrectableError k (.other unit)) s { s with failed := s.failed.filter (· ≠ unit) ++ [unit] } ∧
    ((isLrs (s.cfg (partOf k)) (coreOf k) = true →
        takes (.machineCheck k x check) s (s.post (.fatalMachineCheck (partOf k)))) ∧
      (isLrs (s.cfg (partOf k)) (coreOf k) = false →
        lrsOf (s.cfg (partOf k)) (dieOfCore (coreOf k)) = some (core, ring) →
        let words := [3 + 256 * check.source + 65536 * check.asid, tidOf k x, check.cause, check.epc, check.tval,
          0, 0, 0];
        (s.postRecord (keyOf core (partOf k)) ring words = some (t, slot) →
          takes (.machineCheck k x check) s
            { t with checks := t.checks ++ [⟨k, x, check.source, keyOf core (partOf k), slot⟩] }) ∧
        (s.postRecord (keyOf core (partOf k)) ring words = none →
          takes (.machineCheck k x check) s (s.park (.machineCheck k x check))))) ∧
    (∃ u, takes (.machineCheckReply k x 1 0) s u ∧ (u.ctx k x).st = .run ∧ (u.ctx k x).pc = (s.core k).evec ∧
      (u.ctx k x).g = (s.ctx k x).g ∧ (u.core k).delivery = false ∧ (u.core k).event = ((s.core k).event ||| 0x100) ∧
      u.mem = s.mem) ∧
    takes (.machineCheckReply k x 1 1) s (s.modCore k fun c => { c with halted := true }) ∧
    (∃ u, takes (.fatalMachineCheck p) s u ∧ (u.part p).stopped = true ∧ u.errlog = s.errlog ++ [.fatal p] ∧
      (∀ q, q ≠ p → u.part q = s.part q) ∧ u.mem = s.mem ∧ u.cores = s.cores)

/-- A hub that fails: a die that loses its link tells the survivor, which forgets the failed hub's entries and serves
its lines; every die moves over. A switch that fails makes its modules unreachable, poisons the lines that only
another module held, drops the copies of those modules' lines and counts the dirty ones, and ends the BAR.SYNC
episodes of scope POD with result 2 (R115, R179 to R181, R188). That the declaration tells the survivor by a step before
any other is the model's choice (log entry 34), what becomes of an O entry with OV = 0 is its choice too (log entry 44), and what POD episodes are is its inference (log
entry 41). -/
def Obligations.FailureSteps : Prop :=
  ∀ (s : State) (die hub n m : Nat) (e : DirEntry),
    takes (.hubFailureDeclaration die hub) s
      { s.modDie die fun d => { d with linkDown := d.linkDown ++ [hub], moved := true } with
        urgent := s.urgent ++ [.hubFailureReport hub] } ∧
    (s.hubDown = none → hub < 2 → ∃ t, takes (.hubFailureReport hub) s t ∧ t.hubDown = some hub ∧ t.hubFailed = some hub ∧
      t.mem = s.mem ∧
      (∀ l, t.hubOf l = 1 - hub) ∧ (∀ i ∈ s.dies, (t.die i.1).moved = true) ∧
      ((∀ i ∈ s.parts, i.2.cfg.ports = []) →
        t.dir = s.dir.filter (fun i => ownHub (tagLine i.1) ≠ hub) ∧ t.unreachable = s.unreachable)) ∧
    (s.hubDown.isSome = true → takes (.hubFailureReport hub) s s) ∧
    (m ∉ s.unreachable → ∃ t, takes (.switchFailure [m]) s t ∧ t.unreachable = s.unreachable ++ [m] ∧ t.mem = s.mem ∧
      t.chans = s.chans.filter (fun c => !(c.scope == .pod && s.podParts c.part)) ∧
      (s.dir = [(n, e)] → e.pod = true → State.unreadable e = false → (∀ d ∈ s.dies, d.2.reqs = []) → e.part = partOf n → isPodLine (tagLine n) = false →
        s.podParts (partOf n) = true →
        ((e.st = .m ∨ e.st = .o) → e.ov = false →
          t.dir = [] ∧ tagOf (tagLine n) (partOf n) ∈ t.poisoned ∧ t.isExported (partOf n) (tagLine n) = false) ∧
        (e.st = .s → ∃ u, t.dir = [(n, u)] ∧ u.pod = false ∧ u.st = .s ∧ u.ptrs = e.ptrs)) ∧
      ((∀ d ∈ s.dies, d.2.reqs = []) →
        let lost := fun (l : Nat) => isPodLine l && State.modOf l = m
        ∀ q, (aget s.parts q).isSome = true → s.podParts q = true →
          (t.part q).lostCopies = (s.part q).lostCopies + (s.dies.map fun d =>
            (d.2.llc.filter fun l =>
              l.part = q && lost l.line && (dirtySt l.st || s.newerInAlb d.1 l)).length +
              (d.2.wbuf.filter fun w => w.part = q && lost w.line).length).sum)) ∧
    (∀ (hit : Nat → Bool) (k inst ch p : Nat) (x : Slot) (d : Reg),
      s.chans = [⟨.pod, inst, p, ch, n, [(k, x)]⟩] → hit p = true → (s.ctx k x).wait = some (.barSync .pod inst ch d) →
      s.breakEpisodes hit = ({ s with chans := [] } : State).finish k x d 2)

/-! ## Partitions, the host, time and power (R289 to R301, R329 to R337) -/

/-- Partitions: a swap changes which of two partitions runs on a die, and what replied meanwhile completes; firmware
configures partitions that fit together, with the boot file placed, and starts their cores, and none of them where one
has no boot file or one that is no object file; a reset zeroes every memory of its dies, ends their contexts, destroys
the keys of every partition affected and leaves a TDI in ERROR where it ran; a reset of one die leaves it to none; after
a module reset everything is as at power-on but what has failed and what the tests of the boot find, which is a
free value, and where hub 0 is among it nothing boots (R61, R289, R292, R293, R296, R329 to R331). What a reset keeps
beyond the spec's words, and that a hub is retired unless the links to it are (log entries 23 and 24), that
a configuration without a file resolves to nothing (log entry 43), that a boot drops the low two bits of its pc (log
entry 44), that partitions are made together, that dies which
none holds are scrubbed first and that a swap is one step (log entry 22) is the model's choice. -/
def Obligations.PartitionSteps : Prop :=
  ∀ (s : State) (die p q : Nat) (c : PartCfg) (cs : List PartCfg) (tests : List Failure),
    ((s.die die).running = some p → s.otherOn die p = some q → (∀ k, (s.core k).mqueue = []) →
      (∀ n, (s.hwOf n).alb = []) →
      let back := (s.cores.filter fun e => partOf e.1 = q && dieOfCore (coreOf e.1) = die).flatMap fun e =>
        ((List.finRange 16).filter fun x => e.2.ctxs[x].wait.isNone && e.2.ctxs[x].fetched.isSome).map fun x =>
          (e.1, x)
      takes (.partitionSwap die) s
        (({ (s.modDie die fun e => { e with running := some q }).unpark with retry := s.retry ++ back } :
          State).replyAll fun k w => partOf k = q && dieOfCore (coreOf k) = die && w.isServed)) ∧
    ((s.die die).running = none → takes (.partitionSwap die) s s) ∧
    ((∃ c ∈ cs, resolved c = none) → takes (.partitionConfigure cs) s s) ∧
    (let s0 := s.scrub (c.dies.filter fun d => !s.parts.any fun e => e.2.cfg.dies.contains d);
      ((∀ r, resolved c = some r → s0.accepts [c] r = false) → takes (.partitionConfigure [c]) s s) ∧
      (∀ r, resolved c = some r → s0.accepts [c] r = true → ∃ t, takes (.partitionConfigure [c]) s t ∧
        t.cfg r.num = r ∧ (∀ n, n ≠ r.num → t.part n = s.part n) ∧
        ∀ n ∈ s0.coresOf r,
          t.ctx (keyOf n r.num) 0 = (if r.boots then { Ctx.reset with st := .run, pc := r.bootPc &&& 0xFFFFFFFFFFFFFFFC }
            else Ctx.reset) ∧
          (∀ x : Slot, x ≠ 0 → t.ctx (keyOf n r.num) x = Ctx.reset) ∧
          (t.core (keyOf n r.num)).v = Core.reset.v ∧ (t.core (keyOf n r.num)).z = Core.reset.z)) ∧
    (c.file = none → resolved c = none) ∧
    (∀ b, c.file = some b → ploTable b.bytes = none → resolved c = none) ∧
    (∃ t, takes (.partitionReset (.part p)) s t ∧ (t.part p).cfg.dies = [] ∧
      (t.part p).tdi = (if (s.part p).tdi = .run then .error else (s.part p).tdi) ∧
      (∀ a, t.mem.read a = if onDies (s.cfg p).dies a then 0 else s.mem.read a) ∧
      (∀ k, partOf k = p → t.core k = Core.reset) ∧
      (∀ e ∈ s.affected (s.cfg p).dies, (t.cfg e.1).keys = []) ∧
      (∀ e ∈ t.waits, e.part ≠ p) ∧ (∀ f ∈ t.faults, f.req.part ≠ p) ∧ ∀ l ∈ t.launches, l.record.part ≠ p) ∧
    (∃ t, takes (.partitionReset (.die die)) s t ∧ (∀ e ∈ s.parts, die ∉ (t.cfg e.1).dies) ∧
      (∀ e ∈ s.affected [die], (t.cfg e.1).keys = []) ∧
      (∀ a, t.mem.read a = if onDies [die] a then 0 else s.mem.read a) ∧
      ∀ k, dieOfCore (coreOf k) = die → t.core k = Core.reset) ∧
    takes .moduleReset s (s.boot (s.failures ++ Config.bootTests s.fresh)) ∧
    (∀ f ∈ s.failed, f ≠ .hub 0 → f ∈ s.failures) ∧ .hub 0 ∉ s.failures ∧
    (∀ f ∈ s.failures, f ∈ s.failed ∨ s.hubFailed.isSome = true ∧ ((∃ n, f = .die n) ∨ f = .hub 1 ∧ s.hubFailed = some 1)) ∧
    (s.hubFailed = some 1 → s.choices = [] → .hub 1 ∈ s.failures) ∧
    (let t := s.boot tests
      let kept := fun (u : State) => { u with
        hostOut := s.hostOut, switchOut := s.switchOut, inputs := s.inputs, sched := s.sched
        choices := s.choices.tail, fresh := s.fresh + 1, nextId := s.nextId };
      (.hub 0 ∈ tests → t = kept { State.reset with booted := false, hubDown := some 0 } ∧ ∀ n, t.hubUp n = false) ∧
      (.hub 0 ∉ tests → t = kept { State.reset with
        tests := tests, retiredCores := t.retiredCores, retiredDies := t.retiredDies
        retiredRanges := t.retiredRanges, hubDown := if .hub 1 ∈ tests then some 1 else none } ∧
      (∀ n, n ∈ t.retiredCores ↔ .core n ∈ tests ∨ ∃ j, .quad j ∈ tests ∧ n / 4 = j) ∧
      (∀ d, d ∈ t.retiredDies ↔ .die d ∈ tests) ∧
      (∀ a, t.retiredAt a = true ↔
        ∃ d, .lpddr d ∈ tests ∧ 0x100000000000 + d * 0x4000000000 ≤ a ∧
          a < 0x100000000000 + (d + 1) * 0x4000000000)))

/-- The host: an access of BAR2 is accepted or unsupported as a whole, outside the partition's memory or a write of a
core map; one accepted is performed by its naturally aligned parts of up to 8 bytes, as SO accesses under the chosen
key, and a read follows the writes before it. The responders answer the SPDM requests of function 0 and of the TDI of
their own partition in their order, each on its own connection, with a payload of their identity that the spec leaves
open, which is the same each time until a challenge, and report an error for others; the
measurement blocks are those of the module and the partition; a session is opened, completed and closed; TDISP moves a
TDI; IDE keys need a session with hub 0 (R297, R299, R333, R336). The order of the requests is presumed (SPDM 1.3; log entry
26); that an access is taken or refused as a whole, that a write of a core map is refused and that a read follows the
writes is the model's inference (log entry 25). -/
def Obligations.HostSteps : Prop :=
  ∀ (s s1 : State) (p off n u slot index session pa v b : Nat) (ecdsa sha : Bool) (data : LineData) (via : Via),
    (off < hostBase → s.hostUp = true → n ≠ 0 →
      (s.aperture p off n = none →
        takes (.hostBar2Write p off n v) s (s.send .unsupported) ∧
        takes (.hostBar2Read p off ⟨n, []⟩) s (s.send .unsupported)) ∧
      (s.aperture p off n = some pa →
        ((∃ e ∈ hostParts n off n, s.inCoreMap e.1 = true) →
          takes (.hostBar2Write p off n v) s (s.send .unsupported)) ∧
        (s.inCoreMap off = false → hostParts n off n = [(off, n)] →
          takes (.hostBar2Write p off n v) s (s.post (.hostBar2Write p (hostBase + pa) n (v % 256 ^ n)))) ∧
        takes (.hostBar2Read p off ⟨n, []⟩) s (s.post (.hostBar2Read p (hostBase + pa) ⟨n, []⟩))) ∧
      (0x200000000000 < off + n → s.aperture p off n = none) ∧
      (∀ e ∈ hostParts n off n, ∀ d, place e.1 = .dram d → (s.die d).powered = false → s.aperture p off n = none) ∧
      ((s.cfg p).keys = [] → s.aperture p off n = none)) ∧
    (off < hostBase → s.hostUp = false ∨ n = 0 →
      takes (.hostBar2Write p off n v) s s ∧ takes (.hostBar2Read p off ⟨n, []⟩) s s) ∧
    ((∀ e ∈ hostParts n off n, e.2 ∈ [1, 2, 4, 8] ∧ e.1 % e.2 = 0) ∧
      (off ≤ b ∧ b < off + n ↔ ∃ e ∈ hostParts n off n, e.1 ≤ b ∧ b < e.1 + e.2) ∧
      (n ∈ [1, 2, 4, 8] → off % n = 0 → hostParts n off n = [(off, n)])) ∧
    (let home := s.homeAgent p (s.steer p pa);
      (ownLine home p pa s = .ok () s1 → takes (.hostBar2Write p (hostBase + pa) n v) s
        (s1.mergeOwned home p pa (maskOf (pa % 128) n) (placed (pa % 128) (v % 256 ^ n)))) ∧
      (s.hostWrites p = true → takes (.hostBar2Read p (hostBase + pa) ⟨n, []⟩) s
        (s.park (.hostBar2Read p (hostBase + pa) ⟨n, []⟩))) ∧
      (s.hostWrites p = false → n ∈ [1, 2, 4, 8] → pa % n = 0 →
        (readLine home p pa s = .ok data s1 → takes (.hostBar2Read p (hostBase + pa) ⟨n, []⟩) s
          (s1.post (.hostBar2Read p (hostBase + pa) ⟨n, [(hostBase + pa, data.toNat / 256 ^ (pa % 128) % 256 ^ n)]⟩))) ∧
        takes (.hostBar2Read p (hostBase + pa) ⟨n, [(hostBase + pa, v)]⟩) s (s.send (.readData v)))) ∧
    (let asked : Asked := ⟨u, via⟩
      let r := s.responder asked
      let requests : List (Instr × Nat × Bool × Responder) :=
        [(.getVersion ⟨u, via⟩, 1, true, ⟨true, false, false, []⟩),
         (.getCapabilities ⟨u, via⟩, 2, r.version, { r with caps := true }),
         (.negotiateAlgorithms ⟨u, via⟩ ecdsa sha, 3, r.caps && ecdsa && sha, { r with algs := true }),
         (.getDigests ⟨u, via⟩, 4, r.algs, r),
         (.getCertificate ⟨u, via⟩ slot, 5, r.algs && slot == 0, r),
         (.challenge ⟨u, via⟩ slot, 6, r.algs && slot == 0, r),
         (.finish ⟨u, via⟩ session, 8, r.sessions.contains (session, false),
           { r with sessions := r.sessions.map fun e => if e.1 = session then (session, true) else e }),
         (.endSession ⟨u, via⟩ session, 9, r.sessions.contains (session, true),
           { r with sessions := r.sessions.filter fun e => e.1 ≠ session })];
      (∀ q, via = .tdi q → 32 ≤ u ∨ u ∉ (s.cfg q).dies → s.reaches u via = false) ∧
      (s.reaches u via = false →
        (∀ e ∈ requests, takes e.1 s s) ∧ takes (.keyExchange ⟨asked, slot⟩) s s ∧ takes (.getMeasurements ⟨u, via⟩ index) s s) ∧
      (s.reaches u via = true →
        (∀ e ∈ requests, (e.2.2.1 = true → takes e.1 s
            { (s.setResponder asked e.2.2.2).send (.spdm u e.2.1
                (Config.spdmCode (Config.identity u) e.2.1 (if e.2.1 < 6 then 0 else s.fresh + 1))) with
              fresh := s.fresh + 1 }) ∧
          (e.2.2.1 = false → takes e.1 s (s.send (.spdmError u)))) ∧
        (r.algs = true →
          takes (.getMeasurements ⟨u, via⟩ 0) s (s.send (.spdm u 7 5)) ∧
          (1 ≤ index ∧ index ≤ 5 ∨ index = 255 → takes (.getMeasurements ⟨u, via⟩ index) s
            (s.send (.measurements u ((s.blocksFor via).filter fun e => index = 255 || e.1 = index)))) ∧
          (5 < index → index ≠ 255 → takes (.getMeasurements ⟨u, via⟩ index) s (s.send (.spdmError u)))) ∧
        (r.algs = false → takes (.getMeasurements ⟨u, via⟩ index) s (s.send (.spdmError u))) ∧
        (∀ q, s.blocksFor (.tdi q) = s.blocks ++ [(4, (s.part q).measured)]) ∧
        (r.algs = true → slot = 0 → (s.sessionsOf u).length < 4 → ∃ i < 4, (∀ e ∈ s.sessionsOf u, e.1 ≠ i) ∧
          takes (.keyExchange ⟨asked, slot⟩) s
            ((s.setResponder asked { r with sessions := r.sessions ++ [(i, false)] }).send (.session u i))) ∧
        (r.algs = false ∨ slot ≠ 0 ∨ 4 ≤ (s.sessionsOf u).length →
          takes (.keyExchange ⟨asked, slot⟩) s (s.send (.spdmError u))))) ∧
    (s.hostUp = true →
      let into := fun (st : TdiSt) => (s.modPart p fun e => { e with tdi := st }).send (.tdisp p st);
      ((s.part p).tdi = .unlocked → takes (.tdispRequest p .lock) s (into .locked)) ∧
      ((s.part p).tdi ≠ .unlocked → takes (.tdispRequest p .lock) s (s.send (.tdispError p))) ∧
      ((s.part p).tdi = .locked → takes (.tdispRequest p .start) s (into .run)) ∧
      ((s.part p).tdi ≠ .locked → takes (.tdispRequest p .start) s (s.send (.tdispError p))) ∧
      takes (.tdispRequest p .stop) s (into .unlocked) ∧
      ((session, true) ∈ (s.responder ⟨32, .mgmt⟩).sessions →
        takes (.ideKeyProgram (.tdi p) session) s
          ((s.modPart p fun e => { e with ideKey := true }).send (.ideAck p)) ∧
        takes (.ideKeyProgram .mgmt session) s (({ s with ideMgmt := true } : State).send (.ideAck 63))) ∧
      ((session, true) ∉ (s.responder ⟨32, .mgmt⟩).sessions →
        takes (.ideKeyProgram via session) s (s.send (.spdmError 32))))

/-- Time and power: the host is answered with the module time, and the ports of IEEE 1588 exchange time and delay as
master and as receiver; the time steps forward where it is more than 1 ms behind its source and slews otherwise, by a
nanosecond in every two thousand; PTM is the source only where no port is; without a source the module tells so by SVC.
Where the projected draw exceeds the limit, every die has a budget in proportion to its demand, and half of it
while it is hot; a die starts nothing more once its budget, or the module's or a partition's limit, leaves no room; a
thermal trip or the loss of coolant stops every partition, powers the dies down and is logged;
management reads the module's records and sets no more than the fused limits (R20, R297, R300, R301, R334 to R337). The
slew's rate and the order of the time sources are the model's (log entry 27), and so are the arithmetic of IEEE 1588 and
that management sets the clock's role (log entry 49), the readings (log entry 50), and the units of the meters, the
headroom and what a partition's own limit adds (log entries 28 and 47). -/
def Obligations.TimeAndPowerSteps : Prop :=
  ∀ (s : State) (hub port source die u p n a projected : Nat) (demand : List Nat) (role : Bool) (i : MgmtItem),
    (s.hostUp = true → takes .ptmRequest s (s.send (.ptm s.time))) ∧
    (hub < 2 → port < 4 → s.booted = true → s.hubDown ≠ some hub →
      let at_ : PtpAt := ⟨hub, port⟩
      let r := s.ptpPort at_
      let tells := fun (t : State) (m : PtpMsg) => t.send (.ieee1588 hub port m);
      takes (.ieee1588Message at_ .pdelayReq) s
        (tells (tells s (.pdelayResp s.time)) (.pdelayFollowUp s.time)) ∧
      (s.clockReceiver = false →
        takes (.ieee1588Message at_ .sync) s (tells (tells s .sync) (.followUp s.time)) ∧
        takes (.ieee1588Message at_ .delayReq) s (tells s (.delayResp s.time)) ∧
        ∀ m ∈ [PtpMsg.followUp a, .delayResp a, .pdelayResp a, .pdelayFollowUp a], takes (.ieee1588Message at_ m) s s) ∧
      (s.clockReceiver = true →
      takes (.ieee1588Message at_ .delayReq) s s ∧
      takes (.ieee1588Message at_ .sync) s (s.setPtp at_ { r with synced := s.time }) ∧
      (let f := s.follow 1 (a + r.delay + (s.time - r.synced))
        let t := f.setPtp at_ { f.ptpPort at_ with asked := f.time, reached := a };
        takes (.ieee1588Message at_ (.followUp a)) s
          (tells t.dropChoice (if s.choice then .pdelayReq else .delayReq))) ∧
      takes (.ieee1588Message at_ (.delayResp a)) s
        (s.setPtp at_ { r with delay := (r.synced + a - (r.reached + r.asked)) / 2 }) ∧
      takes (.ieee1588Message at_ (.pdelayResp a)) s
        (s.setPtp at_ { r with reached := a, back := s.time }) ∧
      takes (.ieee1588Message at_ (.pdelayFollowUp a)) s
        (s.setPtp at_ { r with delay := (r.reached + r.back - (r.asked + a)) / 2 }))) ∧
    (let corrects := fun (ptm : Bool) (src : Nat) =>
        (s.time + 1000000 < source → ∃ t, takes (.moduleTimeCorrection ⟨ptm, source⟩) s t ∧ t.time = source ∧
          t.slew = 0 ∧ t.timeSrc = src ∧ t.mem = s.mem ∧ t.cores = s.cores) ∧
        (source ≤ s.time + 1000000 → ∃ t, takes (.moduleTimeCorrection ⟨ptm, source⟩) s t ∧ t.time = s.time ∧
          t.slew = (source : Int) - s.time ∧ t.timeSrc = src ∧ t.mem = s.mem ∧ t.cores = s.cores);
      corrects false 1 ∧ (s.timeSrc ≠ 1 → s.hostUp = true → corrects true 2) ∧
      (s.timeSrc = 1 ∨ s.hostUp = false → takes (.moduleTimeCorrection ⟨true, source⟩) s s)) ∧
    ((s.nanoseconds.1 : Int) + s.nanoseconds.2 = ((s.cycle + 1) * 10 / 33 - s.cycle * 10 / 33 : Nat) + s.slew ∧
      (s.nanoseconds.2 ≠ s.slew → s.nanoseconds.2 - s.slew ∈ [(-1 : Int), 1] ∧ (s.cycle + 1) * 10 / 33 % 2000 = 0)) ∧
    (∃ t, takes .timeSourceLoss s t ∧ t.timeSrc = 3 ∧ t.time = s.time ∧ t.slew = 0 ∧ t.mem = s.mem ∧
      ∀ e ∈ s.parts, e.2.cfg.dies ≠ [] → ((t.core (keyOf (s.cfg e.1).svcCore e.1)).event).getLsbD 8 = true) ∧
    (let sum := ((List.range 32).map fun d => (s.die d).meter).sum
      let wants := ((List.range 32).map fun d => demand.getD d 0).sum
      let fair := fun (d : Nat) => ((s.moduleLimit - Config.staticDraw) * demand.getD d 0 + (wants - 1)) / wants
      let budget := s.budgetFor projected demand
      (∃ t, takes (.powerInterval projected demand) s t ∧ t.draw = Config.staticDraw + sum ∧ t.mem = s.mem ∧
        t.cores = s.cores ∧ (∀ d < 32, t.die d = { s.die d with budget := budget d, meter := 0, want := 0 }) ∧
        (t.capped = true ↔ s.moduleLimit < Config.staticDraw + Config.headroom) ∧
        ∀ e ∈ s.cores, ∀ (x : Slot) (w : Nat), e.2.ctxs[x].wait = some (.power w) → (e.1, x) ∈ t.retry) ∧
      (die < 32 → (s.die die).meter ≤ sum ∧
        ((s.spend die n).die die).meter = (s.die die).meter + n ∧
        ((s.spend die n).capped = true ↔ s.moduleLimit < Config.staticDraw + sum + n + Config.headroom)) ∧
      (s.moduleLimit < projected →
        (∃ b ≤ fair die, budget die = some b) ∧ (s.parts = [] → budget die = some (fair die))) ∧
      (projected ≤ s.moduleLimit → s.parts = [] → budget die = none)) ∧
    (s.spent die = true ↔ (∃ b, s.budgetOf die = some b ∧ b ≤ (s.die die).meter) ∨ s.capped = true ∨
      ∃ e ∈ s.parts, e.2.capped = true ∧ die ∈ e.2.cfg.dies) ∧
    (32 ≤ u → (∃ t, takes (.temperatureHigh u) s t ∧ t.dies = s.dies ∧ u - 32 ∈ t.hotHubs) ∧
      ∃ t, takes (.dieBelow100c u) s t ∧ t.dies = s.dies ∧ u - 32 ∉ t.hotHubs) ∧
    (die < 32 → ∃ t, takes (.temperatureHigh die) s t ∧ t.mem = s.mem ∧ t.cores = s.cores ∧
      t.die die = { s.die die with halved := true } ∧
      (∀ b, (s.die die).budget = some b → t.budgetOf die = some (b / 2)) ∧
      ∀ d, d ≠ die → t.die d = s.die d) ∧
    (die < 32 → ∃ t, takes (.dieBelow100c die) s t ∧ t.mem = s.mem ∧ t.cores = s.cores ∧
      t.die die = { s.die die with halved := false } ∧ t.budgetOf die = (s.die die).budget ∧
      ∀ d, d ≠ die → t.die d = s.die d) ∧
    (∀ e, e ∈ [(Instr.thermalTrip u, LogEntry.thermal u), (.coolantFlowLoss, .coolant)] →
      ∃ t, takes e.1 s t ∧ t.mem = s.mem ∧ t.cores = s.cores ∧ t.errlog = s.errlog ++ [e.2] ∧
        (∀ d < 32, (t.die d).powered = false) ∧ ∀ q ∈ s.parts, (t.part q.1).stopped = true) ∧
    (∀ path : Option Nat, path = none ∧ s.hostUp = true ∨ path = some hub ∧ hub < 2 ∧ s.booted = true ∧ s.hubDown ≠ some hub →
      takes (.managementSetLimit path (.clock role)) s { s with clockReceiver := role } ∧
      (n ≤ 18000 → takes (.managementSetLimit path (.limit none n)) s ({ s with moduleLimit := n } : State).recap ∧
        takes (.managementSetLimit path (.limit (some p) n)) s (s.modPart p fun e => { e with limit := n }).recap) ∧
      (18000 < n → takes (.managementSetLimit path (.limit none n)) s s ∧
        takes (.managementSetLimit path (.limit (some p) n)) s s) ∧
      (n ≤ Config.fusedRate port →
        takes (.managementSetLimit path (.rate port n)) s { s with rates := aset s.rates port n }) ∧
      (Config.fusedRate port < n → takes (.managementSetLimit path (.rate port n)) s s) ∧
      takes (.managementSetLimit path (.read i)) s (s.send (.mgmt i (s.reading i))))
end

