-- ==== Sys2Proof/Laws/State.lean ====
section
/-! SUPPORT. The small laws of the state: tables keyed by numbers, what each update writes, and that it
leaves every other field alone. -/

namespace Sys2Proof.Machine

/-! ## Tables -/

theorem aget_aset_self {α : Type} (l : List (Nat × α)) (k : Nat) (v : α) : aget (aset l k v) k = some v := by
  induction l with
  | nil => simp [aset, aget]
  | cons e t ih =>
    obtain ⟨i, w⟩ := e
    by_cases h : k = i
    · simp [aset, aget, h]
    · by_cases h2 : k < i
      · simp [aset, aget, h, h2]
      · simp [aset, aget, h, h2, Ne.symm h, ih]

theorem aget_aset_ne {α : Type} (l : List (Nat × α)) {k j : Nat} (v : α) (h : j ≠ k) :
    aget (aset l k v) j = aget l j := by
  induction l with
  | nil => simp [aset, aget, Ne.symm h]
  | cons e t ih =>
    obtain ⟨i, w⟩ := e
    by_cases h1 : k = i
    · subst h1; simp [aset, aget, Ne.symm h]
    · by_cases h2 : k < i
      · simp [aset, aget, h1, h2, Ne.symm h]
      · simp [aset, aget, h1, h2, ih]

theorem aset_aset {α : Type} (l : List (Nat × α)) (k : Nat) (v w : α) : aset (aset l k v) k w = aset l k w := by
  induction l with
  | nil => simp [aset]
  | cons e t ih =>
    obtain ⟨i, u⟩ := e
    by_cases h1 : k = i
    · simp [aset, h1]
    · by_cases h2 : k < i
      · simp [aset, h1, h2]
      · simp [aset, h1, h2, ih]

/-- A table that lists only values with a property still does when such a value is set. -/
theorem aset_forall {α : Type} {P : Nat × α → Prop} {l : List (Nat × α)} {k : Nat} {v : α}
    (hl : ∀ e ∈ l, P e) (hv : P (k, v)) : ∀ e ∈ aset l k v, P e := by
  induction l with
  | nil => simpa [aset] using hv
  | cons e t ih =>
    obtain ⟨i, w⟩ := e
    have ht : ∀ e ∈ t, P e := fun e he => hl e (List.mem_cons_of_mem _ he)
    have h0 : P (i, w) := hl _ (List.mem_cons_self ..)
    intro f hf
    unfold aset at hf
    split at hf
    · rcases List.mem_cons.mp hf with rfl | hf
      · exact hv
      · exact ht f hf
    · split at hf
      · rcases List.mem_cons.mp hf with rfl | hf
        · exact hv
        · rcases List.mem_cons.mp hf with rfl | hf
          · exact h0
          · exact ht f hf
      · rcases List.mem_cons.mp hf with rfl | hf
        · exact h0
        · exact ih ht f hf

theorem aget_forall {α : Type} {P : α → Prop} {l : List (Nat × α)} (hl : ∀ e ∈ l, P e.2) {k : Nat} {v : α}
    (h : aget l k = some v) : P v := by
  induction l with
  | nil => simp [aget] at h
  | cons e t ih =>
    obtain ⟨i, w⟩ := e
    unfold aget at h
    split at h
    · cases h; exact hl _ (List.mem_cons_self ..)
    · exact ih (fun e he => hl e (List.mem_cons_of_mem _ he)) h

namespace State

/-! ## One normal form for the updates of one part -/

@[simp] theorem modCore_eq (s : State) (k : Nat) (f : Core → Core) : s.modCore k f = s.setCore k (f (s.core k)) := rfl
@[simp] theorem modCtx_eq (s : State) (k : Nat) (x : Slot) (f : Ctx → Ctx) :
    s.modCtx k x f = s.setCtx k x (f (s.ctx k x)) := rfl
@[simp] theorem modHw_eq (s : State) (c : Nat) (f : CoreHw → CoreHw) : s.modHw c f = s.setHw c (f (s.hwOf c)) := rfl
@[simp] theorem modDie_eq (s : State) (d : Nat) (f : Die → Die) : s.modDie d f = s.setDie d (f (s.die d)) := rfl
@[simp] theorem modPart_eq (s : State) (p : Nat) (f : Part → Part) : s.modPart p f = s.setPart p (f (s.part p)) := rfl
@[simp] theorem setMe_eq (s : State) (c : Ctx) : s.setMe c = s.setCtx s.cur.key s.cur.slot c := rfl
@[simp] theorem modMe_eq (s : State) (f : Ctx → Ctx) : s.modMe f = s.setCtx s.cur.key s.cur.slot (f s.me) := rfl
@[simp] theorem modMine_eq (s : State) (f : Core → Core) : s.modMine f = s.setCore s.cur.key (f s.mine) := rfl

/-! ## What an update writes -/

@[simp] theorem core_setCore_self (s : State) (k : Nat) (c : Core) : (s.setCore k c).core k = c := by
  simp [core, setCore, aget_aset_self]
theorem core_setCore_ne (s : State) {k j : Nat} (c : Core) (h : j ≠ k) : (s.setCore k c).core j = s.core j := by
  simp [core, setCore, aget_aset_ne _ _ h]
@[simp] theorem setCore_setCore (s : State) (k : Nat) (c e : Core) : (s.setCore k c).setCore k e = s.setCore k e := by
  simp [setCore, aset_aset]
@[simp] theorem ctx_setCtx_self (s : State) (k : Nat) (x : Slot) (c : Ctx) : (s.setCtx k x c).ctx k x = c := by
  simp [ctx, setCtx]
theorem ctx_setCtx_slot (s : State) (k : Nat) {x y : Slot} (c : Ctx) (h : y ≠ x) :
    (s.setCtx k x c).ctx k y = s.ctx k y := by
  have h' : x.val ≠ y.val := fun e => h (Fin.ext e.symm)
  simp [ctx, setCtx, h']
theorem ctx_setCtx_core (s : State) {k j : Nat} (x y : Slot) (c : Ctx) (h : j ≠ k) :
    (s.setCtx k x c).ctx j y = s.ctx j y := by
  simp [ctx, setCtx, core_setCore_ne _ _ h]
@[simp] theorem setCtx_setCtx (s : State) (k : Nat) (x : Slot) (c e : Ctx) :
    (s.setCtx k x c).setCtx k x e = s.setCtx k x e := by
  simp [setCtx]
@[simp] theorem hwOf_setHw_self (s : State) (c : Nat) (h : CoreHw) : (s.setHw c h).hwOf c = h := by
  simp [hwOf, setHw, aget_aset_self]
@[simp] theorem die_setDie_self (s : State) (d : Nat) (e : Die) : (s.setDie d e).die d = e := by
  simp [die, setDie, aget_aset_self]
theorem die_setDie_ne (s : State) {d c : Nat} (e : Die) (h : c ≠ d) : (s.setDie d e).die c = s.die c := by
  simp [die, setDie, aget_aset_ne _ _ h]
@[simp] theorem part_setPart_self (s : State) (p : Nat) (e : Part) : (s.setPart p e).part p = e := by
  simp [part, setPart, aget_aset_self]
theorem part_setPart_ne (s : State) {p q : Nat} (e : Part) (h : q ≠ p) : (s.setPart p e).part q = s.part q := by
  simp [part, setPart, aget_aset_ne _ _ h]
@[simp] theorem me_setCtx_self (s : State) (c : Ctx) : (s.setCtx s.cur.key s.cur.slot c).me = c :=
  ctx_setCtx_self s _ _ c

/-! ## What an update leaves alone -/

@[simp] theorem setCore_hw (s : State) (k : Nat) (c : Core) : (s.setCore k c).hw = s.hw := rfl
@[simp] theorem setCore_objs (s : State) (k : Nat) (c : Core) : (s.setCore k c).objs = s.objs := rfl
@[simp] theorem setCore_chans (s : State) (k : Nat) (c : Core) : (s.setCore k c).chans = s.chans := rfl
@[simp] theorem setCore_fetch (s : State) (k : Nat) (c : Core) : (s.setCore k c).fetch = s.fetch := rfl
@[simp] theorem setCore_dies (s : State) (k : Nat) (c : Core) : (s.setCore k c).dies = s.dies := rfl
@[simp] theorem setCore_dir (s : State) (k : Nat) (c : Core) : (s.setCore k c).dir = s.dir := rfl
@[simp] theorem setCore_hub (s : State) (k : Nat) (c : Core) : (s.setCore k c).hub = s.hub := rfl
@[simp] theorem setCore_hubDown (s : State) (k : Nat) (c : Core) : (s.setCore k c).hubDown = s.hubDown := rfl
@[simp] theorem setCore_mem (s : State) (k : Nat) (c : Core) : (s.setCore k c).mem = s.mem := rfl
@[simp] theorem setCore_keys (s : State) (k : Nat) (c : Core) : (s.setCore k c).keys = s.keys := rfl
@[simp] theorem setCore_views (s : State) (k : Nat) (c : Core) : (s.setCore k c).views = s.views := rfl
@[simp] theorem setCore_exported (s : State) (k : Nat) (c : Core) : (s.setCore k c).exported = s.exported := rfl
@[simp] theorem setCore_poisoned (s : State) (k : Nat) (c : Core) : (s.setCore k c).poisoned = s.poisoned := rfl
@[simp] theorem setCore_memErr (s : State) (k : Nat) (c : Core) : (s.setCore k c).memErr = s.memErr := rfl
@[simp] theorem setCore_sync (s : State) (k : Nat) (c : Core) : (s.setCore k c).sync = s.sync := rfl
@[simp] theorem setCore_waits (s : State) (k : Nat) (c : Core) : (s.setCore k c).waits = s.waits := rfl
@[simp] theorem setCore_faults (s : State) (k : Nat) (c : Core) : (s.setCore k c).faults = s.faults := rfl
@[simp] theorem setCore_checks (s : State) (k : Nat) (c : Core) : (s.setCore k c).checks = s.checks := rfl
@[simp] theorem setCore_parts (s : State) (k : Nat) (c : Core) : (s.setCore k c).parts = s.parts := rfl
@[simp] theorem setCore_launches (s : State) (k : Nat) (c : Core) : (s.setCore k c).launches = s.launches := rfl
@[simp] theorem setCore_retiredCores (s : State) (k : Nat) (c : Core) : (s.setCore k c).retiredCores = s.retiredCores := rfl
@[simp] theorem setCore_retiredDies (s : State) (k : Nat) (c : Core) : (s.setCore k c).retiredDies = s.retiredDies := rfl
@[simp] theorem setCore_retiredRanges (s : State) (k : Nat) (c : Core) : (s.setCore k c).retiredRanges = s.retiredRanges := rfl
@[simp] theorem setCore_booted (s : State) (k : Nat) (c : Core) : (s.setCore k c).booted = s.booted := rfl
@[simp] theorem setCore_failed (s : State) (k : Nat) (c : Core) : (s.setCore k c).failed = s.failed := rfl
@[simp] theorem setCore_hubFailed (s : State) (k : Nat) (c : Core) : (s.setCore k c).hubFailed = s.hubFailed := rfl
@[simp] theorem setCore_podMember (s : State) (k : Nat) (c : Core) : (s.setCore k c).podMember = s.podMember := rfl
@[simp] theorem setCore_podModule (s : State) (k : Nat) (c : Core) : (s.setCore k c).podModule = s.podModule := rfl
@[simp] theorem setCore_podModules (s : State) (k : Nat) (c : Core) : (s.setCore k c).podModules = s.podModules := rfl
@[simp] theorem setCore_podTable (s : State) (k : Nat) (c : Core) : (s.setCore k c).podTable = s.podTable := rfl
@[simp] theorem setCore_unreachable (s : State) (k : Nat) (c : Core) : (s.setCore k c).unreachable = s.unreachable := rfl
@[simp] theorem setCore_switchDown (s : State) (k : Nat) (c : Core) : (s.setCore k c).switchDown = s.switchDown := rfl
@[simp] theorem setCore_cycle (s : State) (k : Nat) (c : Core) : (s.setCore k c).cycle = s.cycle := rfl
@[simp] theorem setCore_time (s : State) (k : Nat) (c : Core) : (s.setCore k c).time = s.time := rfl
@[simp] theorem setCore_timeSrc (s : State) (k : Nat) (c : Core) : (s.setCore k c).timeSrc = s.timeSrc := rfl
@[simp] theorem setCore_slew (s : State) (k : Nat) (c : Core) : (s.setCore k c).slew = s.slew := rfl
@[simp] theorem setCore_errlog (s : State) (k : Nat) (c : Core) : (s.setCore k c).errlog = s.errlog := rfl
@[simp] theorem setCore_draw (s : State) (k : Nat) (c : Core) : (s.setCore k c).draw = s.draw := rfl
@[simp] theorem setCore_moduleLimit (s : State) (k : Nat) (c : Core) : (s.setCore k c).moduleLimit = s.moduleLimit := rfl
@[simp] theorem setCore_capped (s : State) (k : Nat) (c : Core) : (s.setCore k c).capped = s.capped := rfl
@[simp] theorem setCore_hotHubs (s : State) (k : Nat) (c : Core) : (s.setCore k c).hotHubs = s.hotHubs := rfl
@[simp] theorem setCore_rates (s : State) (k : Nat) (c : Core) : (s.setCore k c).rates = s.rates := rfl
@[simp] theorem setCore_tests (s : State) (k : Nat) (c : Core) : (s.setCore k c).tests = s.tests := rfl
@[simp] theorem setCore_blocks (s : State) (k : Nat) (c : Core) : (s.setCore k c).blocks = s.blocks := rfl
@[simp] theorem setCore_ptp (s : State) (k : Nat) (c : Core) : (s.setCore k c).ptp = s.ptp := rfl
@[simp] theorem setCore_clockReceiver (s : State) (k : Nat) (c : Core) : (s.setCore k c).clockReceiver = s.clockReceiver := rfl
@[simp] theorem setCore_ideMgmt (s : State) (k : Nat) (c : Core) : (s.setCore k c).ideMgmt = s.ideMgmt := rfl
@[simp] theorem setCore_icinv (s : State) (k : Nat) (c : Core) : (s.setCore k c).icinv = s.icinv := rfl
@[simp] theorem setCore_responders (s : State) (k : Nat) (c : Core) : (s.setCore k c).responders = s.responders := rfl
@[simp] theorem setCore_hostOut (s : State) (k : Nat) (c : Core) : (s.setCore k c).hostOut = s.hostOut := rfl
@[simp] theorem setCore_switchOut (s : State) (k : Nat) (c : Core) : (s.setCore k c).switchOut = s.switchOut := rfl
@[simp] theorem setCore_cur (s : State) (k : Nat) (c : Core) : (s.setCore k c).cur = s.cur := rfl
@[simp] theorem setCore_turn (s : State) (k : Nat) (c : Core) : (s.setCore k c).turn = s.turn := rfl
@[simp] theorem setCore_urgent (s : State) (k : Nat) (c : Core) : (s.setCore k c).urgent = s.urgent := rfl
@[simp] theorem setCore_retry (s : State) (k : Nat) (c : Core) : (s.setCore k c).retry = s.retry := rfl
@[simp] theorem setCore_flight (s : State) (k : Nat) (c : Core) : (s.setCore k c).flight = s.flight := rfl
@[simp] theorem setCore_parked (s : State) (k : Nat) (c : Core) : (s.setCore k c).parked = s.parked := rfl
@[simp] theorem setCore_inputs (s : State) (k : Nat) (c : Core) : (s.setCore k c).inputs = s.inputs := rfl
@[simp] theorem setCore_sched (s : State) (k : Nat) (c : Core) : (s.setCore k c).sched = s.sched := rfl
@[simp] theorem setCore_choices (s : State) (k : Nat) (c : Core) : (s.setCore k c).choices = s.choices := rfl
@[simp] theorem setCore_fresh (s : State) (k : Nat) (c : Core) : (s.setCore k c).fresh = s.fresh := rfl
@[simp] theorem setCore_nextId (s : State) (k : Nat) (c : Core) : (s.setCore k c).nextId = s.nextId := rfl

@[simp] theorem setCtx_hw (s : State) (k : Nat) (x : Slot) (c : Ctx) : (s.setCtx k x c).hw = s.hw := rfl
@[simp] theorem setCtx_objs (s : State) (k : Nat) (x : Slot) (c : Ctx) : (s.setCtx k x c).objs = s.objs := rfl
@[simp] theorem setCtx_chans (s : State) (k : Nat) (x : Slot) (c : Ctx) : (s.setCtx k x c).chans = s.chans := rfl
@[simp] theorem setCtx_fetch (s : State) (k : Nat) (x : Slot) (c : Ctx) : (s.setCtx k x c).fetch = s.fetch := rfl
@[simp] theorem setCtx_dies (s : State) (k : Nat) (x : Slot) (c : Ctx) : (s.setCtx k x c).dies = s.dies := rfl
@[simp] theorem setCtx_dir (s : State) (k : Nat) (x : Slot) (c : Ctx) : (s.setCtx k x c).dir = s.dir := rfl
@[simp] theorem setCtx_hub (s : State) (k : Nat) (x : Slot) (c : Ctx) : (s.setCtx k x c).hub = s.hub := rfl
@[simp] theorem setCtx_hubDown (s : State) (k : Nat) (x : Slot) (c : Ctx) : (s.setCtx k x c).hubDown = s.hubDown := rfl
@[simp] theorem setCtx_mem (s : State) (k : Nat) (x : Slot) (c : Ctx) : (s.setCtx k x c).mem = s.mem := rfl
@[simp] theorem setCtx_keys (s : State) (k : Nat) (x : Slot) (c : Ctx) : (s.setCtx k x c).keys = s.keys := rfl
@[simp] theorem setCtx_views (s : State) (k : Nat) (x : Slot) (c : Ctx) : (s.setCtx k x c).views = s.views := rfl
@[simp] theorem setCtx_exported (s : State) (k : Nat) (x : Slot) (c : Ctx) : (s.setCtx k x c).exported = s.exported := rfl
@[simp] theorem setCtx_poisoned (s : State) (k : Nat) (x : Slot) (c : Ctx) : (s.setCtx k x c).poisoned = s.poisoned := rfl
@[simp] theorem setCtx_memErr (s : State) (k : Nat) (x : Slot) (c : Ctx) : (s.setCtx k x c).memErr = s.memErr := rfl
@[simp] theorem setCtx_sync (s : State) (k : Nat) (x : Slot) (c : Ctx) : (s.setCtx k x c).sync = s.sync := rfl
@[simp] theorem setCtx_waits (s : State) (k : Nat) (x : Slot) (c : Ctx) : (s.setCtx k x c).waits = s.waits := rfl
@[simp] theorem setCtx_faults (s : State) (k : Nat) (x : Slot) (c : Ctx) : (s.setCtx k x c).faults = s.faults := rfl
@[simp] theorem setCtx_checks (s : State) (k : Nat) (x : Slot) (c : Ctx) : (s.setCtx k x c).checks = s.checks := rfl
@[simp] theorem setCtx_parts (s : State) (k : Nat) (x : Slot) (c : Ctx) : (s.setCtx k x c).parts = s.parts := rfl
@[simp] theorem setCtx_launches (s : State) (k : Nat) (x : Slot) (c : Ctx) : (s.setCtx k x c).launches = s.launches := rfl
@[simp] theorem setCtx_retiredCores (s : State) (k : Nat) (x : Slot) (c : Ctx) : (s.setCtx k x c).retiredCores = s.retiredCores := rfl
@[simp] theorem setCtx_retiredDies (s : State) (k : Nat) (x : Slot) (c : Ctx) : (s.setCtx k x c).retiredDies = s.retiredDies := rfl
@[simp] theorem setCtx_retiredRanges (s : State) (k : Nat) (x : Slot) (c : Ctx) : (s.setCtx k x c).retiredRanges = s.retiredRanges := rfl
@[simp] theorem setCtx_booted (s : State) (k : Nat) (x : Slot) (c : Ctx) : (s.setCtx k x c).booted = s.booted := rfl
@[simp] theorem setCtx_failed (s : State) (k : Nat) (x : Slot) (c : Ctx) : (s.setCtx k x c).failed = s.failed := rfl
@[simp] theorem setCtx_hubFailed (s : State) (k : Nat) (x : Slot) (c : Ctx) : (s.setCtx k x c).hubFailed = s.hubFailed := rfl
@[simp] theorem setCtx_podMember (s : State) (k : Nat) (x : Slot) (c : Ctx) : (s.setCtx k x c).podMember = s.podMember := rfl
@[simp] theorem setCtx_podModule (s : State) (k : Nat) (x : Slot) (c : Ctx) : (s.setCtx k x c).podModule = s.podModule := rfl
@[simp] theorem setCtx_podModules (s : State) (k : Nat) (x : Slot) (c : Ctx) : (s.setCtx k x c).podModules = s.podModules := rfl
@[simp] theorem setCtx_podTable (s : State) (k : Nat) (x : Slot) (c : Ctx) : (s.setCtx k x c).podTable = s.podTable := rfl
@[simp] theorem setCtx_unreachable (s : State) (k : Nat) (x : Slot) (c : Ctx) : (s.setCtx k x c).unreachable = s.unreachable := rfl
@[simp] theorem setCtx_switchDown (s : State) (k : Nat) (x : Slot) (c : Ctx) : (s.setCtx k x c).switchDown = s.switchDown := rfl
@[simp] theorem setCtx_cycle (s : State) (k : Nat) (x : Slot) (c : Ctx) : (s.setCtx k x c).cycle = s.cycle := rfl
@[simp] theorem setCtx_time (s : State) (k : Nat) (x : Slot) (c : Ctx) : (s.setCtx k x c).time = s.time := rfl
@[simp] theorem setCtx_timeSrc (s : State) (k : Nat) (x : Slot) (c : Ctx) : (s.setCtx k x c).timeSrc = s.timeSrc := rfl
@[simp] theorem setCtx_slew (s : State) (k : Nat) (x : Slot) (c : Ctx) : (s.setCtx k x c).slew = s.slew := rfl
@[simp] theorem setCtx_errlog (s : State) (k : Nat) (x : Slot) (c : Ctx) : (s.setCtx k x c).errlog = s.errlog := rfl
@[simp] theorem setCtx_draw (s : State) (k : Nat) (x : Slot) (c : Ctx) : (s.setCtx k x c).draw = s.draw := rfl
@[simp] theorem setCtx_moduleLimit (s : State) (k : Nat) (x : Slot) (c : Ctx) : (s.setCtx k x c).moduleLimit = s.moduleLimit := rfl
@[simp] theorem setCtx_capped (s : State) (k : Nat) (x : Slot) (c : Ctx) : (s.setCtx k x c).capped = s.capped := rfl
@[simp] theorem setCtx_hotHubs (s : State) (k : Nat) (x : Slot) (c : Ctx) : (s.setCtx k x c).hotHubs = s.hotHubs := rfl
@[simp] theorem setCtx_rates (s : State) (k : Nat) (x : Slot) (c : Ctx) : (s.setCtx k x c).rates = s.rates := rfl
@[simp] theorem setCtx_tests (s : State) (k : Nat) (x : Slot) (c : Ctx) : (s.setCtx k x c).tests = s.tests := rfl
@[simp] theorem setCtx_blocks (s : State) (k : Nat) (x : Slot) (c : Ctx) : (s.setCtx k x c).blocks = s.blocks := rfl
@[simp] theorem setCtx_ptp (s : State) (k : Nat) (x : Slot) (c : Ctx) : (s.setCtx k x c).ptp = s.ptp := rfl
@[simp] theorem setCtx_clockReceiver (s : State) (k : Nat) (x : Slot) (c : Ctx) : (s.setCtx k x c).clockReceiver = s.clockReceiver := rfl
@[simp] theorem setCtx_ideMgmt (s : State) (k : Nat) (x : Slot) (c : Ctx) : (s.setCtx k x c).ideMgmt = s.ideMgmt := rfl
@[simp] theorem setCtx_icinv (s : State) (k : Nat) (x : Slot) (c : Ctx) : (s.setCtx k x c).icinv = s.icinv := rfl
@[simp] theorem setCtx_responders (s : State) (k : Nat) (x : Slot) (c : Ctx) : (s.setCtx k x c).responders = s.responders := rfl
@[simp] theorem setCtx_hostOut (s : State) (k : Nat) (x : Slot) (c : Ctx) : (s.setCtx k x c).hostOut = s.hostOut := rfl
@[simp] theorem setCtx_switchOut (s : State) (k : Nat) (x : Slot) (c : Ctx) : (s.setCtx k x c).switchOut = s.switchOut := rfl
@[simp] theorem setCtx_cur (s : State) (k : Nat) (x : Slot) (c : Ctx) : (s.setCtx k x c).cur = s.cur := rfl
@[simp] theorem setCtx_turn (s : State) (k : Nat) (x : Slot) (c : Ctx) : (s.setCtx k x c).turn = s.turn := rfl
@[simp] theorem setCtx_urgent (s : State) (k : Nat) (x : Slot) (c : Ctx) : (s.setCtx k x c).urgent = s.urgent := rfl
@[simp] theorem setCtx_retry (s : State) (k : Nat) (x : Slot) (c : Ctx) : (s.setCtx k x c).retry = s.retry := rfl
@[simp] theorem setCtx_flight (s : State) (k : Nat) (x : Slot) (c : Ctx) : (s.setCtx k x c).flight = s.flight := rfl
@[simp] theorem setCtx_parked (s : State) (k : Nat) (x : Slot) (c : Ctx) : (s.setCtx k x c).parked = s.parked := rfl
@[simp] theorem setCtx_inputs (s : State) (k : Nat) (x : Slot) (c : Ctx) : (s.setCtx k x c).inputs = s.inputs := rfl
@[simp] theorem setCtx_sched (s : State) (k : Nat) (x : Slot) (c : Ctx) : (s.setCtx k x c).sched = s.sched := rfl
@[simp] theorem setCtx_choices (s : State) (k : Nat) (x : Slot) (c : Ctx) : (s.setCtx k x c).choices = s.choices := rfl
@[simp] theorem setCtx_fresh (s : State) (k : Nat) (x : Slot) (c : Ctx) : (s.setCtx k x c).fresh = s.fresh := rfl
@[simp] theorem setCtx_nextId (s : State) (k : Nat) (x : Slot) (c : Ctx) : (s.setCtx k x c).nextId = s.nextId := rfl

@[simp] theorem setHw_cores (s : State) (c : Nat) (h : CoreHw) : (s.setHw c h).cores = s.cores := rfl
@[simp] theorem setHw_objs (s : State) (c : Nat) (h : CoreHw) : (s.setHw c h).objs = s.objs := rfl
@[simp] theorem setHw_chans (s : State) (c : Nat) (h : CoreHw) : (s.setHw c h).chans = s.chans := rfl
@[simp] theorem setHw_fetch (s : State) (c : Nat) (h : CoreHw) : (s.setHw c h).fetch = s.fetch := rfl
@[simp] theorem setHw_dies (s : State) (c : Nat) (h : CoreHw) : (s.setHw c h).dies = s.dies := rfl
@[simp] theorem setHw_dir (s : State) (c : Nat) (h : CoreHw) : (s.setHw c h).dir = s.dir := rfl
@[simp] theorem setHw_hub (s : State) (c : Nat) (h : CoreHw) : (s.setHw c h).hub = s.hub := rfl
@[simp] theorem setHw_hubDown (s : State) (c : Nat) (h : CoreHw) : (s.setHw c h).hubDown = s.hubDown := rfl
@[simp] theorem setHw_mem (s : State) (c : Nat) (h : CoreHw) : (s.setHw c h).mem = s.mem := rfl
@[simp] theorem setHw_keys (s : State) (c : Nat) (h : CoreHw) : (s.setHw c h).keys = s.keys := rfl
@[simp] theorem setHw_views (s : State) (c : Nat) (h : CoreHw) : (s.setHw c h).views = s.views := rfl
@[simp] theorem setHw_exported (s : State) (c : Nat) (h : CoreHw) : (s.setHw c h).exported = s.exported := rfl
@[simp] theorem setHw_poisoned (s : State) (c : Nat) (h : CoreHw) : (s.setHw c h).poisoned = s.poisoned := rfl
@[simp] theorem setHw_memErr (s : State) (c : Nat) (h : CoreHw) : (s.setHw c h).memErr = s.memErr := rfl
@[simp] theorem setHw_sync (s : State) (c : Nat) (h : CoreHw) : (s.setHw c h).sync = s.sync := rfl
@[simp] theorem setHw_waits (s : State) (c : Nat) (h : CoreHw) : (s.setHw c h).waits = s.waits := rfl
@[simp] theorem setHw_faults (s : State) (c : Nat) (h : CoreHw) : (s.setHw c h).faults = s.faults := rfl
@[simp] theorem setHw_checks (s : State) (c : Nat) (h : CoreHw) : (s.setHw c h).checks = s.checks := rfl
@[simp] theorem setHw_parts (s : State) (c : Nat) (h : CoreHw) : (s.setHw c h).parts = s.parts := rfl
@[simp] theorem setHw_launches (s : State) (c : Nat) (h : CoreHw) : (s.setHw c h).launches = s.launches := rfl
@[simp] theorem setHw_retiredCores (s : State) (c : Nat) (h : CoreHw) : (s.setHw c h).retiredCores = s.retiredCores := rfl
@[simp] theorem setHw_retiredDies (s : State) (c : Nat) (h : CoreHw) : (s.setHw c h).retiredDies = s.retiredDies := rfl
@[simp] theorem setHw_retiredRanges (s : State) (c : Nat) (h : CoreHw) : (s.setHw c h).retiredRanges = s.retiredRanges := rfl
@[simp] theorem setHw_booted (s : State) (c : Nat) (h : CoreHw) : (s.setHw c h).booted = s.booted := rfl
@[simp] theorem setHw_failed (s : State) (c : Nat) (h : CoreHw) : (s.setHw c h).failed = s.failed := rfl
@[simp] theorem setHw_hubFailed (s : State) (c : Nat) (h : CoreHw) : (s.setHw c h).hubFailed = s.hubFailed := rfl
@[simp] theorem setHw_podMember (s : State) (c : Nat) (h : CoreHw) : (s.setHw c h).podMember = s.podMember := rfl
@[simp] theorem setHw_podModule (s : State) (c : Nat) (h : CoreHw) : (s.setHw c h).podModule = s.podModule := rfl
@[simp] theorem setHw_podModules (s : State) (c : Nat) (h : CoreHw) : (s.setHw c h).podModules = s.podModules := rfl
@[simp] theorem setHw_podTable (s : State) (c : Nat) (h : CoreHw) : (s.setHw c h).podTable = s.podTable := rfl
@[simp] theorem setHw_unreachable (s : State) (c : Nat) (h : CoreHw) : (s.setHw c h).unreachable = s.unreachable := rfl
@[simp] theorem setHw_switchDown (s : State) (c : Nat) (h : CoreHw) : (s.setHw c h).switchDown = s.switchDown := rfl
@[simp] theorem setHw_cycle (s : State) (c : Nat) (h : CoreHw) : (s.setHw c h).cycle = s.cycle := rfl
@[simp] theorem setHw_time (s : State) (c : Nat) (h : CoreHw) : (s.setHw c h).time = s.time := rfl
@[simp] theorem setHw_timeSrc (s : State) (c : Nat) (h : CoreHw) : (s.setHw c h).timeSrc = s.timeSrc := rfl
@[simp] theorem setHw_slew (s : State) (c : Nat) (h : CoreHw) : (s.setHw c h).slew = s.slew := rfl
@[simp] theorem setHw_errlog (s : State) (c : Nat) (h : CoreHw) : (s.setHw c h).errlog = s.errlog := rfl
@[simp] theorem setHw_draw (s : State) (c : Nat) (h : CoreHw) : (s.setHw c h).draw = s.draw := rfl
@[simp] theorem setHw_moduleLimit (s : State) (c : Nat) (h : CoreHw) : (s.setHw c h).moduleLimit = s.moduleLimit := rfl
@[simp] theorem setHw_capped (s : State) (c : Nat) (h : CoreHw) : (s.setHw c h).capped = s.capped := rfl
@[simp] theorem setHw_hotHubs (s : State) (c : Nat) (h : CoreHw) : (s.setHw c h).hotHubs = s.hotHubs := rfl
@[simp] theorem setHw_rates (s : State) (c : Nat) (h : CoreHw) : (s.setHw c h).rates = s.rates := rfl
@[simp] theorem setHw_tests (s : State) (c : Nat) (h : CoreHw) : (s.setHw c h).tests = s.tests := rfl
@[simp] theorem setHw_blocks (s : State) (c : Nat) (h : CoreHw) : (s.setHw c h).blocks = s.blocks := rfl
@[simp] theorem setHw_ptp (s : State) (c : Nat) (h : CoreHw) : (s.setHw c h).ptp = s.ptp := rfl
@[simp] theorem setHw_clockReceiver (s : State) (c : Nat) (h : CoreHw) : (s.setHw c h).clockReceiver = s.clockReceiver := rfl
@[simp] theorem setHw_ideMgmt (s : State) (c : Nat) (h : CoreHw) : (s.setHw c h).ideMgmt = s.ideMgmt := rfl
@[simp] theorem setHw_icinv (s : State) (c : Nat) (h : CoreHw) : (s.setHw c h).icinv = s.icinv := rfl
@[simp] theorem setHw_responders (s : State) (c : Nat) (h : CoreHw) : (s.setHw c h).responders = s.responders := rfl
@[simp] theorem setHw_hostOut (s : State) (c : Nat) (h : CoreHw) : (s.setHw c h).hostOut = s.hostOut := rfl
@[simp] theorem setHw_switchOut (s : State) (c : Nat) (h : CoreHw) : (s.setHw c h).switchOut = s.switchOut := rfl
@[simp] theorem setHw_cur (s : State) (c : Nat) (h : CoreHw) : (s.setHw c h).cur = s.cur := rfl
@[simp] theorem setHw_turn (s : State) (c : Nat) (h : CoreHw) : (s.setHw c h).turn = s.turn := rfl
@[simp] theorem setHw_urgent (s : State) (c : Nat) (h : CoreHw) : (s.setHw c h).urgent = s.urgent := rfl
@[simp] theorem setHw_retry (s : State) (c : Nat) (h : CoreHw) : (s.setHw c h).retry = s.retry := rfl
@[simp] theorem setHw_flight (s : State) (c : Nat) (h : CoreHw) : (s.setHw c h).flight = s.flight := rfl
@[simp] theorem setHw_parked (s : State) (c : Nat) (h : CoreHw) : (s.setHw c h).parked = s.parked := rfl
@[simp] theorem setHw_inputs (s : State) (c : Nat) (h : CoreHw) : (s.setHw c h).inputs = s.inputs := rfl
@[simp] theorem setHw_sched (s : State) (c : Nat) (h : CoreHw) : (s.setHw c h).sched = s.sched := rfl
@[simp] theorem setHw_choices (s : State) (c : Nat) (h : CoreHw) : (s.setHw c h).choices = s.choices := rfl
@[simp] theorem setHw_fresh (s : State) (c : Nat) (h : CoreHw) : (s.setHw c h).fresh = s.fresh := rfl
@[simp] theorem setHw_nextId (s : State) (c : Nat) (h : CoreHw) : (s.setHw c h).nextId = s.nextId := rfl

@[simp] theorem setDie_cores (s : State) (d : Nat) (e : Die) : (s.setDie d e).cores = s.cores := rfl
@[simp] theorem setDie_hw (s : State) (d : Nat) (e : Die) : (s.setDie d e).hw = s.hw := rfl
@[simp] theorem setDie_objs (s : State) (d : Nat) (e : Die) : (s.setDie d e).objs = s.objs := rfl
@[simp] theorem setDie_chans (s : State) (d : Nat) (e : Die) : (s.setDie d e).chans = s.chans := rfl
@[simp] theorem setDie_fetch (s : State) (d : Nat) (e : Die) : (s.setDie d e).fetch = s.fetch := rfl
@[simp] theorem setDie_dir (s : State) (d : Nat) (e : Die) : (s.setDie d e).dir = s.dir := rfl
@[simp] theorem setDie_hub (s : State) (d : Nat) (e : Die) : (s.setDie d e).hub = s.hub := rfl
@[simp] theorem setDie_hubDown (s : State) (d : Nat) (e : Die) : (s.setDie d e).hubDown = s.hubDown := rfl
@[simp] theorem setDie_mem (s : State) (d : Nat) (e : Die) : (s.setDie d e).mem = s.mem := rfl
@[simp] theorem setDie_keys (s : State) (d : Nat) (e : Die) : (s.setDie d e).keys = s.keys := rfl
@[simp] theorem setDie_views (s : State) (d : Nat) (e : Die) : (s.setDie d e).views = s.views := rfl
@[simp] theorem setDie_exported (s : State) (d : Nat) (e : Die) : (s.setDie d e).exported = s.exported := rfl
@[simp] theorem setDie_poisoned (s : State) (d : Nat) (e : Die) : (s.setDie d e).poisoned = s.poisoned := rfl
@[simp] theorem setDie_memErr (s : State) (d : Nat) (e : Die) : (s.setDie d e).memErr = s.memErr := rfl
@[simp] theorem setDie_sync (s : State) (d : Nat) (e : Die) : (s.setDie d e).sync = s.sync := rfl
@[simp] theorem setDie_waits (s : State) (d : Nat) (e : Die) : (s.setDie d e).waits = s.waits := rfl
@[simp] theorem setDie_faults (s : State) (d : Nat) (e : Die) : (s.setDie d e).faults = s.faults := rfl
@[simp] theorem setDie_checks (s : State) (d : Nat) (e : Die) : (s.setDie d e).checks = s.checks := rfl
@[simp] theorem setDie_parts (s : State) (d : Nat) (e : Die) : (s.setDie d e).parts = s.parts := rfl
@[simp] theorem setDie_launches (s : State) (d : Nat) (e : Die) : (s.setDie d e).launches = s.launches := rfl
@[simp] theorem setDie_retiredCores (s : State) (d : Nat) (e : Die) : (s.setDie d e).retiredCores = s.retiredCores := rfl
@[simp] theorem setDie_retiredDies (s : State) (d : Nat) (e : Die) : (s.setDie d e).retiredDies = s.retiredDies := rfl
@[simp] theorem setDie_retiredRanges (s : State) (d : Nat) (e : Die) : (s.setDie d e).retiredRanges = s.retiredRanges := rfl
@[simp] theorem setDie_booted (s : State) (d : Nat) (e : Die) : (s.setDie d e).booted = s.booted := rfl
@[simp] theorem setDie_failed (s : State) (d : Nat) (e : Die) : (s.setDie d e).failed = s.failed := rfl
@[simp] theorem setDie_hubFailed (s : State) (d : Nat) (e : Die) : (s.setDie d e).hubFailed = s.hubFailed := rfl
@[simp] theorem setDie_podMember (s : State) (d : Nat) (e : Die) : (s.setDie d e).podMember = s.podMember := rfl
@[simp] theorem setDie_podModule (s : State) (d : Nat) (e : Die) : (s.setDie d e).podModule = s.podModule := rfl
@[simp] theorem setDie_podModules (s : State) (d : Nat) (e : Die) : (s.setDie d e).podModules = s.podModules := rfl
@[simp] theorem setDie_podTable (s : State) (d : Nat) (e : Die) : (s.setDie d e).podTable = s.podTable := rfl
@[simp] theorem setDie_unreachable (s : State) (d : Nat) (e : Die) : (s.setDie d e).unreachable = s.unreachable := rfl
@[simp] theorem setDie_switchDown (s : State) (d : Nat) (e : Die) : (s.setDie d e).switchDown = s.switchDown := rfl
@[simp] theorem setDie_cycle (s : State) (d : Nat) (e : Die) : (s.setDie d e).cycle = s.cycle := rfl
@[simp] theorem setDie_time (s : State) (d : Nat) (e : Die) : (s.setDie d e).time = s.time := rfl
@[simp] theorem setDie_timeSrc (s : State) (d : Nat) (e : Die) : (s.setDie d e).timeSrc = s.timeSrc := rfl
@[simp] theorem setDie_slew (s : State) (d : Nat) (e : Die) : (s.setDie d e).slew = s.slew := rfl
@[simp] theorem setDie_errlog (s : State) (d : Nat) (e : Die) : (s.setDie d e).errlog = s.errlog := rfl
@[simp] theorem setDie_draw (s : State) (d : Nat) (e : Die) : (s.setDie d e).draw = s.draw := rfl
@[simp] theorem setDie_moduleLimit (s : State) (d : Nat) (e : Die) : (s.setDie d e).moduleLimit = s.moduleLimit := rfl
@[simp] theorem setDie_capped (s : State) (d : Nat) (e : Die) : (s.setDie d e).capped = s.capped := rfl
@[simp] theorem setDie_hotHubs (s : State) (d : Nat) (e : Die) : (s.setDie d e).hotHubs = s.hotHubs := rfl
@[simp] theorem setDie_rates (s : State) (d : Nat) (e : Die) : (s.setDie d e).rates = s.rates := rfl
@[simp] theorem setDie_tests (s : State) (d : Nat) (e : Die) : (s.setDie d e).tests = s.tests := rfl
@[simp] theorem setDie_blocks (s : State) (d : Nat) (e : Die) : (s.setDie d e).blocks = s.blocks := rfl
@[simp] theorem setDie_ptp (s : State) (d : Nat) (e : Die) : (s.setDie d e).ptp = s.ptp := rfl
@[simp] theorem setDie_clockReceiver (s : State) (d : Nat) (e : Die) : (s.setDie d e).clockReceiver = s.clockReceiver := rfl
@[simp] theorem setDie_ideMgmt (s : State) (d : Nat) (e : Die) : (s.setDie d e).ideMgmt = s.ideMgmt := rfl
@[simp] theorem setDie_icinv (s : State) (d : Nat) (e : Die) : (s.setDie d e).icinv = s.icinv := rfl
@[simp] theorem setDie_responders (s : State) (d : Nat) (e : Die) : (s.setDie d e).responders = s.responders := rfl
@[simp] theorem setDie_hostOut (s : State) (d : Nat) (e : Die) : (s.setDie d e).hostOut = s.hostOut := rfl
@[simp] theorem setDie_switchOut (s : State) (d : Nat) (e : Die) : (s.setDie d e).switchOut = s.switchOut := rfl
@[simp] theorem setDie_cur (s : State) (d : Nat) (e : Die) : (s.setDie d e).cur = s.cur := rfl
@[simp] theorem setDie_turn (s : State) (d : Nat) (e : Die) : (s.setDie d e).turn = s.turn := rfl
@[simp] theorem setDie_urgent (s : State) (d : Nat) (e : Die) : (s.setDie d e).urgent = s.urgent := rfl
@[simp] theorem setDie_retry (s : State) (d : Nat) (e : Die) : (s.setDie d e).retry = s.retry := rfl
@[simp] theorem setDie_flight (s : State) (d : Nat) (e : Die) : (s.setDie d e).flight = s.flight := rfl
@[simp] theorem setDie_parked (s : State) (d : Nat) (e : Die) : (s.setDie d e).parked = s.parked := rfl
@[simp] theorem setDie_inputs (s : State) (d : Nat) (e : Die) : (s.setDie d e).inputs = s.inputs := rfl
@[simp] theorem setDie_sched (s : State) (d : Nat) (e : Die) : (s.setDie d e).sched = s.sched := rfl
@[simp] theorem setDie_choices (s : State) (d : Nat) (e : Die) : (s.setDie d e).choices = s.choices := rfl
@[simp] theorem setDie_fresh (s : State) (d : Nat) (e : Die) : (s.setDie d e).fresh = s.fresh := rfl
@[simp] theorem setDie_nextId (s : State) (d : Nat) (e : Die) : (s.setDie d e).nextId = s.nextId := rfl

@[simp] theorem setObj_cores (s : State) (q p : Nat) (o : Slot) (b : BarObj) : (s.setObj q p o b).cores = s.cores := rfl
@[simp] theorem setObj_hw (s : State) (q p : Nat) (o : Slot) (b : BarObj) : (s.setObj q p o b).hw = s.hw := rfl
@[simp] theorem setObj_chans (s : State) (q p : Nat) (o : Slot) (b : BarObj) : (s.setObj q p o b).chans = s.chans := rfl
@[simp] theorem setObj_fetch (s : State) (q p : Nat) (o : Slot) (b : BarObj) : (s.setObj q p o b).fetch = s.fetch := rfl
@[simp] theorem setObj_dies (s : State) (q p : Nat) (o : Slot) (b : BarObj) : (s.setObj q p o b).dies = s.dies := rfl
@[simp] theorem setObj_dir (s : State) (q p : Nat) (o : Slot) (b : BarObj) : (s.setObj q p o b).dir = s.dir := rfl
@[simp] theorem setObj_hub (s : State) (q p : Nat) (o : Slot) (b : BarObj) : (s.setObj q p o b).hub = s.hub := rfl
@[simp] theorem setObj_hubDown (s : State) (q p : Nat) (o : Slot) (b : BarObj) : (s.setObj q p o b).hubDown = s.hubDown := rfl
@[simp] theorem setObj_mem (s : State) (q p : Nat) (o : Slot) (b : BarObj) : (s.setObj q p o b).mem = s.mem := rfl
@[simp] theorem setObj_keys (s : State) (q p : Nat) (o : Slot) (b : BarObj) : (s.setObj q p o b).keys = s.keys := rfl
@[simp] theorem setObj_views (s : State) (q p : Nat) (o : Slot) (b : BarObj) : (s.setObj q p o b).views = s.views := rfl
@[simp] theorem setObj_exported (s : State) (q p : Nat) (o : Slot) (b : BarObj) : (s.setObj q p o b).exported = s.exported := rfl
@[simp] theorem setObj_poisoned (s : State) (q p : Nat) (o : Slot) (b : BarObj) : (s.setObj q p o b).poisoned = s.poisoned := rfl
@[simp] theorem setObj_memErr (s : State) (q p : Nat) (o : Slot) (b : BarObj) : (s.setObj q p o b).memErr = s.memErr := rfl
@[simp] theorem setObj_sync (s : State) (q p : Nat) (o : Slot) (b : BarObj) : (s.setObj q p o b).sync = s.sync := rfl
@[simp] theorem setObj_waits (s : State) (q p : Nat) (o : Slot) (b : BarObj) : (s.setObj q p o b).waits = s.waits := rfl
@[simp] theorem setObj_faults (s : State) (q p : Nat) (o : Slot) (b : BarObj) : (s.setObj q p o b).faults = s.faults := rfl
@[simp] theorem setObj_checks (s : State) (q p : Nat) (o : Slot) (b : BarObj) : (s.setObj q p o b).checks = s.checks := rfl
@[simp] theorem setObj_parts (s : State) (q p : Nat) (o : Slot) (b : BarObj) : (s.setObj q p o b).parts = s.parts := rfl
@[simp] theorem setObj_launches (s : State) (q p : Nat) (o : Slot) (b : BarObj) : (s.setObj q p o b).launches = s.launches := rfl
@[simp] theorem setObj_retiredCores (s : State) (q p : Nat) (o : Slot) (b : BarObj) : (s.setObj q p o b).retiredCores = s.retiredCores := rfl
@[simp] theorem setObj_retiredDies (s : State) (q p : Nat) (o : Slot) (b : BarObj) : (s.setObj q p o b).retiredDies = s.retiredDies := rfl
@[simp] theorem setObj_retiredRanges (s : State) (q p : Nat) (o : Slot) (b : BarObj) : (s.setObj q p o b).retiredRanges = s.retiredRanges := rfl
@[simp] theorem setObj_booted (s : State) (q p : Nat) (o : Slot) (b : BarObj) : (s.setObj q p o b).booted = s.booted := rfl
@[simp] theorem setObj_failed (s : State) (q p : Nat) (o : Slot) (b : BarObj) : (s.setObj q p o b).failed = s.failed := rfl
@[simp] theorem setObj_hubFailed (s : State) (q p : Nat) (o : Slot) (b : BarObj) : (s.setObj q p o b).hubFailed = s.hubFailed := rfl
@[simp] theorem setObj_podMember (s : State) (q p : Nat) (o : Slot) (b : BarObj) : (s.setObj q p o b).podMember = s.podMember := rfl
@[simp] theorem setObj_podModule (s : State) (q p : Nat) (o : Slot) (b : BarObj) : (s.setObj q p o b).podModule = s.podModule := rfl
@[simp] theorem setObj_podModules (s : State) (q p : Nat) (o : Slot) (b : BarObj) : (s.setObj q p o b).podModules = s.podModules := rfl
@[simp] theorem setObj_podTable (s : State) (q p : Nat) (o : Slot) (b : BarObj) : (s.setObj q p o b).podTable = s.podTable := rfl
@[simp] theorem setObj_unreachable (s : State) (q p : Nat) (o : Slot) (b : BarObj) : (s.setObj q p o b).unreachable = s.unreachable := rfl
@[simp] theorem setObj_switchDown (s : State) (q p : Nat) (o : Slot) (b : BarObj) : (s.setObj q p o b).switchDown = s.switchDown := rfl
@[simp] theorem setObj_cycle (s : State) (q p : Nat) (o : Slot) (b : BarObj) : (s.setObj q p o b).cycle = s.cycle := rfl
@[simp] theorem setObj_time (s : State) (q p : Nat) (o : Slot) (b : BarObj) : (s.setObj q p o b).time = s.time := rfl
@[simp] theorem setObj_timeSrc (s : State) (q p : Nat) (o : Slot) (b : BarObj) : (s.setObj q p o b).timeSrc = s.timeSrc := rfl
@[simp] theorem setObj_slew (s : State) (q p : Nat) (o : Slot) (b : BarObj) : (s.setObj q p o b).slew = s.slew := rfl
@[simp] theorem setObj_errlog (s : State) (q p : Nat) (o : Slot) (b : BarObj) : (s.setObj q p o b).errlog = s.errlog := rfl
@[simp] theorem setObj_draw (s : State) (q p : Nat) (o : Slot) (b : BarObj) : (s.setObj q p o b).draw = s.draw := rfl
@[simp] theorem setObj_moduleLimit (s : State) (q p : Nat) (o : Slot) (b : BarObj) : (s.setObj q p o b).moduleLimit = s.moduleLimit := rfl
@[simp] theorem setObj_capped (s : State) (q p : Nat) (o : Slot) (b : BarObj) : (s.setObj q p o b).capped = s.capped := rfl
@[simp] theorem setObj_hotHubs (s : State) (q p : Nat) (o : Slot) (b : BarObj) : (s.setObj q p o b).hotHubs = s.hotHubs := rfl
@[simp] theorem setObj_rates (s : State) (q p : Nat) (o : Slot) (b : BarObj) : (s.setObj q p o b).rates = s.rates := rfl
@[simp] theorem setObj_tests (s : State) (q p : Nat) (o : Slot) (b : BarObj) : (s.setObj q p o b).tests = s.tests := rfl
@[simp] theorem setObj_blocks (s : State) (q p : Nat) (o : Slot) (b : BarObj) : (s.setObj q p o b).blocks = s.blocks := rfl
@[simp] theorem setObj_ptp (s : State) (q p : Nat) (o : Slot) (b : BarObj) : (s.setObj q p o b).ptp = s.ptp := rfl
@[simp] theorem setObj_clockReceiver (s : State) (q p : Nat) (o : Slot) (b : BarObj) : (s.setObj q p o b).clockReceiver = s.clockReceiver := rfl
@[simp] theorem setObj_ideMgmt (s : State) (q p : Nat) (o : Slot) (b : BarObj) : (s.setObj q p o b).ideMgmt = s.ideMgmt := rfl
@[simp] theorem setObj_icinv (s : State) (q p : Nat) (o : Slot) (b : BarObj) : (s.setObj q p o b).icinv = s.icinv := rfl
@[simp] theorem setObj_responders (s : State) (q p : Nat) (o : Slot) (b : BarObj) : (s.setObj q p o b).responders = s.responders := rfl
@[simp] theorem setObj_hostOut (s : State) (q p : Nat) (o : Slot) (b : BarObj) : (s.setObj q p o b).hostOut = s.hostOut := rfl
@[simp] theorem setObj_switchOut (s : State) (q p : Nat) (o : Slot) (b : BarObj) : (s.setObj q p o b).switchOut = s.switchOut := rfl
@[simp] theorem setObj_cur (s : State) (q p : Nat) (o : Slot) (b : BarObj) : (s.setObj q p o b).cur = s.cur := rfl
@[simp] theorem setObj_turn (s : State) (q p : Nat) (o : Slot) (b : BarObj) : (s.setObj q p o b).turn = s.turn := rfl
@[simp] theorem setObj_urgent (s : State) (q p : Nat) (o : Slot) (b : BarObj) : (s.setObj q p o b).urgent = s.urgent := rfl
@[simp] theorem setObj_retry (s : State) (q p : Nat) (o : Slot) (b : BarObj) : (s.setObj q p o b).retry = s.retry := rfl
@[simp] theorem setObj_flight (s : State) (q p : Nat) (o : Slot) (b : BarObj) : (s.setObj q p o b).flight = s.flight := rfl
@[simp] theorem setObj_parked (s : State) (q p : Nat) (o : Slot) (b : BarObj) : (s.setObj q p o b).parked = s.parked := rfl
@[simp] theorem setObj_inputs (s : State) (q p : Nat) (o : Slot) (b : BarObj) : (s.setObj q p o b).inputs = s.inputs := rfl
@[simp] theorem setObj_sched (s : State) (q p : Nat) (o : Slot) (b : BarObj) : (s.setObj q p o b).sched = s.sched := rfl
@[simp] theorem setObj_choices (s : State) (q p : Nat) (o : Slot) (b : BarObj) : (s.setObj q p o b).choices = s.choices := rfl
@[simp] theorem setObj_fresh (s : State) (q p : Nat) (o : Slot) (b : BarObj) : (s.setObj q p o b).fresh = s.fresh := rfl
@[simp] theorem setObj_nextId (s : State) (q p : Nat) (o : Slot) (b : BarObj) : (s.setObj q p o b).nextId = s.nextId := rfl

@[simp] theorem setSync_cores (s : State) (p l : Nat) (y : SyncLine) : (s.setSync p l y).cores = s.cores := rfl
@[simp] theorem setSync_hw (s : State) (p l : Nat) (y : SyncLine) : (s.setSync p l y).hw = s.hw := rfl
@[simp] theorem setSync_objs (s : State) (p l : Nat) (y : SyncLine) : (s.setSync p l y).objs = s.objs := rfl
@[simp] theorem setSync_chans (s : State) (p l : Nat) (y : SyncLine) : (s.setSync p l y).chans = s.chans := rfl
@[simp] theorem setSync_fetch (s : State) (p l : Nat) (y : SyncLine) : (s.setSync p l y).fetch = s.fetch := rfl
@[simp] theorem setSync_dies (s : State) (p l : Nat) (y : SyncLine) : (s.setSync p l y).dies = s.dies := rfl
@[simp] theorem setSync_dir (s : State) (p l : Nat) (y : SyncLine) : (s.setSync p l y).dir = s.dir := rfl
@[simp] theorem setSync_hub (s : State) (p l : Nat) (y : SyncLine) : (s.setSync p l y).hub = s.hub := rfl
@[simp] theorem setSync_hubDown (s : State) (p l : Nat) (y : SyncLine) : (s.setSync p l y).hubDown = s.hubDown := rfl
@[simp] theorem setSync_mem (s : State) (p l : Nat) (y : SyncLine) : (s.setSync p l y).mem = s.mem := rfl
@[simp] theorem setSync_keys (s : State) (p l : Nat) (y : SyncLine) : (s.setSync p l y).keys = s.keys := rfl
@[simp] theorem setSync_views (s : State) (p l : Nat) (y : SyncLine) : (s.setSync p l y).views = s.views := rfl
@[simp] theorem setSync_exported (s : State) (p l : Nat) (y : SyncLine) : (s.setSync p l y).exported = s.exported := rfl
@[simp] theorem setSync_poisoned (s : State) (p l : Nat) (y : SyncLine) : (s.setSync p l y).poisoned = s.poisoned := rfl
@[simp] theorem setSync_memErr (s : State) (p l : Nat) (y : SyncLine) : (s.setSync p l y).memErr = s.memErr := rfl
@[simp] theorem setSync_waits (s : State) (p l : Nat) (y : SyncLine) : (s.setSync p l y).waits = s.waits := rfl
@[simp] theorem setSync_faults (s : State) (p l : Nat) (y : SyncLine) : (s.setSync p l y).faults = s.faults := rfl
@[simp] theorem setSync_checks (s : State) (p l : Nat) (y : SyncLine) : (s.setSync p l y).checks = s.checks := rfl
@[simp] theorem setSync_parts (s : State) (p l : Nat) (y : SyncLine) : (s.setSync p l y).parts = s.parts := rfl
@[simp] theorem setSync_launches (s : State) (p l : Nat) (y : SyncLine) : (s.setSync p l y).launches = s.launches := rfl
@[simp] theorem setSync_retiredCores (s : State) (p l : Nat) (y : SyncLine) : (s.setSync p l y).retiredCores = s.retiredCores := rfl
@[simp] theorem setSync_retiredDies (s : State) (p l : Nat) (y : SyncLine) : (s.setSync p l y).retiredDies = s.retiredDies := rfl
@[simp] theorem setSync_retiredRanges (s : State) (p l : Nat) (y : SyncLine) : (s.setSync p l y).retiredRanges = s.retiredRanges := rfl
@[simp] theorem setSync_booted (s : State) (p l : Nat) (y : SyncLine) : (s.setSync p l y).booted = s.booted := rfl
@[simp] theorem setSync_failed (s : State) (p l : Nat) (y : SyncLine) : (s.setSync p l y).failed = s.failed := rfl
@[simp] theorem setSync_hubFailed (s : State) (p l : Nat) (y : SyncLine) : (s.setSync p l y).hubFailed = s.hubFailed := rfl
@[simp] theorem setSync_podMember (s : State) (p l : Nat) (y : SyncLine) : (s.setSync p l y).podMember = s.podMember := rfl
@[simp] theorem setSync_podModule (s : State) (p l : Nat) (y : SyncLine) : (s.setSync p l y).podModule = s.podModule := rfl
@[simp] theorem setSync_podModules (s : State) (p l : Nat) (y : SyncLine) : (s.setSync p l y).podModules = s.podModules := rfl
@[simp] theorem setSync_podTable (s : State) (p l : Nat) (y : SyncLine) : (s.setSync p l y).podTable = s.podTable := rfl
@[simp] theorem setSync_unreachable (s : State) (p l : Nat) (y : SyncLine) : (s.setSync p l y).unreachable = s.unreachable := rfl
@[simp] theorem setSync_switchDown (s : State) (p l : Nat) (y : SyncLine) : (s.setSync p l y).switchDown = s.switchDown := rfl
@[simp] theorem setSync_cycle (s : State) (p l : Nat) (y : SyncLine) : (s.setSync p l y).cycle = s.cycle := rfl
@[simp] theorem setSync_time (s : State) (p l : Nat) (y : SyncLine) : (s.setSync p l y).time = s.time := rfl
@[simp] theorem setSync_timeSrc (s : State) (p l : Nat) (y : SyncLine) : (s.setSync p l y).timeSrc = s.timeSrc := rfl
@[simp] theorem setSync_slew (s : State) (p l : Nat) (y : SyncLine) : (s.setSync p l y).slew = s.slew := rfl
@[simp] theorem setSync_errlog (s : State) (p l : Nat) (y : SyncLine) : (s.setSync p l y).errlog = s.errlog := rfl
@[simp] theorem setSync_draw (s : State) (p l : Nat) (y : SyncLine) : (s.setSync p l y).draw = s.draw := rfl
@[simp] theorem setSync_moduleLimit (s : State) (p l : Nat) (y : SyncLine) : (s.setSync p l y).moduleLimit = s.moduleLimit := rfl
@[simp] theorem setSync_capped (s : State) (p l : Nat) (y : SyncLine) : (s.setSync p l y).capped = s.capped := rfl
@[simp] theorem setSync_hotHubs (s : State) (p l : Nat) (y : SyncLine) : (s.setSync p l y).hotHubs = s.hotHubs := rfl
@[simp] theorem setSync_rates (s : State) (p l : Nat) (y : SyncLine) : (s.setSync p l y).rates = s.rates := rfl
@[simp] theorem setSync_tests (s : State) (p l : Nat) (y : SyncLine) : (s.setSync p l y).tests = s.tests := rfl
@[simp] theorem setSync_blocks (s : State) (p l : Nat) (y : SyncLine) : (s.setSync p l y).blocks = s.blocks := rfl
@[simp] theorem setSync_ptp (s : State) (p l : Nat) (y : SyncLine) : (s.setSync p l y).ptp = s.ptp := rfl
@[simp] theorem setSync_clockReceiver (s : State) (p l : Nat) (y : SyncLine) : (s.setSync p l y).clockReceiver = s.clockReceiver := rfl
@[simp] theorem setSync_ideMgmt (s : State) (p l : Nat) (y : SyncLine) : (s.setSync p l y).ideMgmt = s.ideMgmt := rfl
@[simp] theorem setSync_icinv (s : State) (p l : Nat) (y : SyncLine) : (s.setSync p l y).icinv = s.icinv := rfl
@[simp] theorem setSync_responders (s : State) (p l : Nat) (y : SyncLine) : (s.setSync p l y).responders = s.responders := rfl
@[simp] theorem setSync_hostOut (s : State) (p l : Nat) (y : SyncLine) : (s.setSync p l y).hostOut = s.hostOut := rfl
@[simp] theorem setSync_switchOut (s : State) (p l : Nat) (y : SyncLine) : (s.setSync p l y).switchOut = s.switchOut := rfl
@[simp] theorem setSync_cur (s : State) (p l : Nat) (y : SyncLine) : (s.setSync p l y).cur = s.cur := rfl
@[simp] theorem setSync_turn (s : State) (p l : Nat) (y : SyncLine) : (s.setSync p l y).turn = s.turn := rfl
@[simp] theorem setSync_urgent (s : State) (p l : Nat) (y : SyncLine) : (s.setSync p l y).urgent = s.urgent := rfl
@[simp] theorem setSync_retry (s : State) (p l : Nat) (y : SyncLine) : (s.setSync p l y).retry = s.retry := rfl
@[simp] theorem setSync_flight (s : State) (p l : Nat) (y : SyncLine) : (s.setSync p l y).flight = s.flight := rfl
@[simp] theorem setSync_parked (s : State) (p l : Nat) (y : SyncLine) : (s.setSync p l y).parked = s.parked := rfl
@[simp] theorem setSync_inputs (s : State) (p l : Nat) (y : SyncLine) : (s.setSync p l y).inputs = s.inputs := rfl
@[simp] theorem setSync_sched (s : State) (p l : Nat) (y : SyncLine) : (s.setSync p l y).sched = s.sched := rfl
@[simp] theorem setSync_choices (s : State) (p l : Nat) (y : SyncLine) : (s.setSync p l y).choices = s.choices := rfl
@[simp] theorem setSync_fresh (s : State) (p l : Nat) (y : SyncLine) : (s.setSync p l y).fresh = s.fresh := rfl
@[simp] theorem setSync_nextId (s : State) (p l : Nat) (y : SyncLine) : (s.setSync p l y).nextId = s.nextId := rfl

@[simp] theorem setPart_cores (s : State) (p : Nat) (e : Part) : (s.setPart p e).cores = s.cores := rfl
@[simp] theorem setPart_hw (s : State) (p : Nat) (e : Part) : (s.setPart p e).hw = s.hw := rfl
@[simp] theorem setPart_objs (s : State) (p : Nat) (e : Part) : (s.setPart p e).objs = s.objs := rfl
@[simp] theorem setPart_chans (s : State) (p : Nat) (e : Part) : (s.setPart p e).chans = s.chans := rfl
@[simp] theorem setPart_fetch (s : State) (p : Nat) (e : Part) : (s.setPart p e).fetch = s.fetch := rfl
@[simp] theorem setPart_dies (s : State) (p : Nat) (e : Part) : (s.setPart p e).dies = s.dies := rfl
@[simp] theorem setPart_dir (s : State) (p : Nat) (e : Part) : (s.setPart p e).dir = s.dir := rfl
@[simp] theorem setPart_hub (s : State) (p : Nat) (e : Part) : (s.setPart p e).hub = s.hub := rfl
@[simp] theorem setPart_hubDown (s : State) (p : Nat) (e : Part) : (s.setPart p e).hubDown = s.hubDown := rfl
@[simp] theorem setPart_mem (s : State) (p : Nat) (e : Part) : (s.setPart p e).mem = s.mem := rfl
@[simp] theorem setPart_keys (s : State) (p : Nat) (e : Part) : (s.setPart p e).keys = s.keys := rfl
@[simp] theorem setPart_views (s : State) (p : Nat) (e : Part) : (s.setPart p e).views = s.views := rfl
@[simp] theorem setPart_exported (s : State) (p : Nat) (e : Part) : (s.setPart p e).exported = s.exported := rfl
@[simp] theorem setPart_poisoned (s : State) (p : Nat) (e : Part) : (s.setPart p e).poisoned = s.poisoned := rfl
@[simp] theorem setPart_memErr (s : State) (p : Nat) (e : Part) : (s.setPart p e).memErr = s.memErr := rfl
@[simp] theorem setPart_sync (s : State) (p : Nat) (e : Part) : (s.setPart p e).sync = s.sync := rfl
@[simp] theorem setPart_waits (s : State) (p : Nat) (e : Part) : (s.setPart p e).waits = s.waits := rfl
@[simp] theorem setPart_faults (s : State) (p : Nat) (e : Part) : (s.setPart p e).faults = s.faults := rfl
@[simp] theorem setPart_checks (s : State) (p : Nat) (e : Part) : (s.setPart p e).checks = s.checks := rfl
@[simp] theorem setPart_launches (s : State) (p : Nat) (e : Part) : (s.setPart p e).launches = s.launches := rfl
@[simp] theorem setPart_retiredCores (s : State) (p : Nat) (e : Part) : (s.setPart p e).retiredCores = s.retiredCores := rfl
@[simp] theorem setPart_retiredDies (s : State) (p : Nat) (e : Part) : (s.setPart p e).retiredDies = s.retiredDies := rfl
@[simp] theorem setPart_retiredRanges (s : State) (p : Nat) (e : Part) : (s.setPart p e).retiredRanges = s.retiredRanges := rfl
@[simp] theorem setPart_booted (s : State) (p : Nat) (e : Part) : (s.setPart p e).booted = s.booted := rfl
@[simp] theorem setPart_failed (s : State) (p : Nat) (e : Part) : (s.setPart p e).failed = s.failed := rfl
@[simp] theorem setPart_hubFailed (s : State) (p : Nat) (e : Part) : (s.setPart p e).hubFailed = s.hubFailed := rfl
@[simp] theorem setPart_podMember (s : State) (p : Nat) (e : Part) : (s.setPart p e).podMember = s.podMember := rfl
@[simp] theorem setPart_podModule (s : State) (p : Nat) (e : Part) : (s.setPart p e).podModule = s.podModule := rfl
@[simp] theorem setPart_podModules (s : State) (p : Nat) (e : Part) : (s.setPart p e).podModules = s.podModules := rfl
@[simp] theorem setPart_podTable (s : State) (p : Nat) (e : Part) : (s.setPart p e).podTable = s.podTable := rfl
@[simp] theorem setPart_unreachable (s : State) (p : Nat) (e : Part) : (s.setPart p e).unreachable = s.unreachable := rfl
@[simp] theorem setPart_switchDown (s : State) (p : Nat) (e : Part) : (s.setPart p e).switchDown = s.switchDown := rfl
@[simp] theorem setPart_cycle (s : State) (p : Nat) (e : Part) : (s.setPart p e).cycle = s.cycle := rfl
@[simp] theorem setPart_time (s : State) (p : Nat) (e : Part) : (s.setPart p e).time = s.time := rfl
@[simp] theorem setPart_timeSrc (s : State) (p : Nat) (e : Part) : (s.setPart p e).timeSrc = s.timeSrc := rfl
@[simp] theorem setPart_slew (s : State) (p : Nat) (e : Part) : (s.setPart p e).slew = s.slew := rfl
@[simp] theorem setPart_errlog (s : State) (p : Nat) (e : Part) : (s.setPart p e).errlog = s.errlog := rfl
@[simp] theorem setPart_draw (s : State) (p : Nat) (e : Part) : (s.setPart p e).draw = s.draw := rfl
@[simp] theorem setPart_moduleLimit (s : State) (p : Nat) (e : Part) : (s.setPart p e).moduleLimit = s.moduleLimit := rfl
@[simp] theorem setPart_capped (s : State) (p : Nat) (e : Part) : (s.setPart p e).capped = s.capped := rfl
@[simp] theorem setPart_hotHubs (s : State) (p : Nat) (e : Part) : (s.setPart p e).hotHubs = s.hotHubs := rfl
@[simp] theorem setPart_rates (s : State) (p : Nat) (e : Part) : (s.setPart p e).rates = s.rates := rfl
@[simp] theorem setPart_tests (s : State) (p : Nat) (e : Part) : (s.setPart p e).tests = s.tests := rfl
@[simp] theorem setPart_blocks (s : State) (p : Nat) (e : Part) : (s.setPart p e).blocks = s.blocks := rfl
@[simp] theorem setPart_ptp (s : State) (p : Nat) (e : Part) : (s.setPart p e).ptp = s.ptp := rfl
@[simp] theorem setPart_clockReceiver (s : State) (p : Nat) (e : Part) : (s.setPart p e).clockReceiver = s.clockReceiver := rfl
@[simp] theorem setPart_ideMgmt (s : State) (p : Nat) (e : Part) : (s.setPart p e).ideMgmt = s.ideMgmt := rfl
@[simp] theorem setPart_icinv (s : State) (p : Nat) (e : Part) : (s.setPart p e).icinv = s.icinv := rfl
@[simp] theorem setPart_responders (s : State) (p : Nat) (e : Part) : (s.setPart p e).responders = s.responders := rfl
@[simp] theorem setPart_hostOut (s : State) (p : Nat) (e : Part) : (s.setPart p e).hostOut = s.hostOut := rfl
@[simp] theorem setPart_switchOut (s : State) (p : Nat) (e : Part) : (s.setPart p e).switchOut = s.switchOut := rfl
@[simp] theorem setPart_cur (s : State) (p : Nat) (e : Part) : (s.setPart p e).cur = s.cur := rfl
@[simp] theorem setPart_turn (s : State) (p : Nat) (e : Part) : (s.setPart p e).turn = s.turn := rfl
@[simp] theorem setPart_urgent (s : State) (p : Nat) (e : Part) : (s.setPart p e).urgent = s.urgent := rfl
@[simp] theorem setPart_retry (s : State) (p : Nat) (e : Part) : (s.setPart p e).retry = s.retry := rfl
@[simp] theorem setPart_flight (s : State) (p : Nat) (e : Part) : (s.setPart p e).flight = s.flight := rfl
@[simp] theorem setPart_parked (s : State) (p : Nat) (e : Part) : (s.setPart p e).parked = s.parked := rfl
@[simp] theorem setPart_inputs (s : State) (p : Nat) (e : Part) : (s.setPart p e).inputs = s.inputs := rfl
@[simp] theorem setPart_sched (s : State) (p : Nat) (e : Part) : (s.setPart p e).sched = s.sched := rfl
@[simp] theorem setPart_choices (s : State) (p : Nat) (e : Part) : (s.setPart p e).choices = s.choices := rfl
@[simp] theorem setPart_fresh (s : State) (p : Nat) (e : Part) : (s.setPart p e).fresh = s.fresh := rfl
@[simp] theorem setPart_nextId (s : State) (p : Nat) (e : Part) : (s.setPart p e).nextId = s.nextId := rfl

@[simp] theorem post_cores (s : State) (i : Instr) : (s.post i).cores = s.cores := rfl
@[simp] theorem post_hw (s : State) (i : Instr) : (s.post i).hw = s.hw := rfl
@[simp] theorem post_objs (s : State) (i : Instr) : (s.post i).objs = s.objs := rfl
@[simp] theorem post_chans (s : State) (i : Instr) : (s.post i).chans = s.chans := rfl
@[simp] theorem post_fetch (s : State) (i : Instr) : (s.post i).fetch = s.fetch := rfl
@[simp] theorem post_dies (s : State) (i : Instr) : (s.post i).dies = s.dies := rfl
@[simp] theorem post_dir (s : State) (i : Instr) : (s.post i).dir = s.dir := rfl
@[simp] theorem post_hub (s : State) (i : Instr) : (s.post i).hub = s.hub := rfl
@[simp] theorem post_hubDown (s : State) (i : Instr) : (s.post i).hubDown = s.hubDown := rfl
@[simp] theorem post_mem (s : State) (i : Instr) : (s.post i).mem = s.mem := rfl
@[simp] theorem post_keys (s : State) (i : Instr) : (s.post i).keys = s.keys := rfl
@[simp] theorem post_views (s : State) (i : Instr) : (s.post i).views = s.views := rfl
@[simp] theorem post_exported (s : State) (i : Instr) : (s.post i).exported = s.exported := rfl
@[simp] theorem post_poisoned (s : State) (i : Instr) : (s.post i).poisoned = s.poisoned := rfl
@[simp] theorem post_memErr (s : State) (i : Instr) : (s.post i).memErr = s.memErr := rfl
@[simp] theorem post_sync (s : State) (i : Instr) : (s.post i).sync = s.sync := rfl
@[simp] theorem post_waits (s : State) (i : Instr) : (s.post i).waits = s.waits := rfl
@[simp] theorem post_faults (s : State) (i : Instr) : (s.post i).faults = s.faults := rfl
@[simp] theorem post_checks (s : State) (i : Instr) : (s.post i).checks = s.checks := rfl
@[simp] theorem post_parts (s : State) (i : Instr) : (s.post i).parts = s.parts := rfl
@[simp] theorem post_launches (s : State) (i : Instr) : (s.post i).launches = s.launches := rfl
@[simp] theorem post_retiredCores (s : State) (i : Instr) : (s.post i).retiredCores = s.retiredCores := rfl
@[simp] theorem post_retiredDies (s : State) (i : Instr) : (s.post i).retiredDies = s.retiredDies := rfl
@[simp] theorem post_retiredRanges (s : State) (i : Instr) : (s.post i).retiredRanges = s.retiredRanges := rfl
@[simp] theorem post_booted (s : State) (i : Instr) : (s.post i).booted = s.booted := rfl
@[simp] theorem post_failed (s : State) (i : Instr) : (s.post i).failed = s.failed := rfl
@[simp] theorem post_hubFailed (s : State) (i : Instr) : (s.post i).hubFailed = s.hubFailed := rfl
@[simp] theorem post_podMember (s : State) (i : Instr) : (s.post i).podMember = s.podMember := rfl
@[simp] theorem post_podModule (s : State) (i : Instr) : (s.post i).podModule = s.podModule := rfl
@[simp] theorem post_podModules (s : State) (i : Instr) : (s.post i).podModules = s.podModules := rfl
@[simp] theorem post_podTable (s : State) (i : Instr) : (s.post i).podTable = s.podTable := rfl
@[simp] theorem post_unreachable (s : State) (i : Instr) : (s.post i).unreachable = s.unreachable := rfl
@[simp] theorem post_switchDown (s : State) (i : Instr) : (s.post i).switchDown = s.switchDown := rfl
@[simp] theorem post_cycle (s : State) (i : Instr) : (s.post i).cycle = s.cycle := rfl
@[simp] theorem post_time (s : State) (i : Instr) : (s.post i).time = s.time := rfl
@[simp] theorem post_timeSrc (s : State) (i : Instr) : (s.post i).timeSrc = s.timeSrc := rfl
@[simp] theorem post_slew (s : State) (i : Instr) : (s.post i).slew = s.slew := rfl
@[simp] theorem post_errlog (s : State) (i : Instr) : (s.post i).errlog = s.errlog := rfl
@[simp] theorem post_draw (s : State) (i : Instr) : (s.post i).draw = s.draw := rfl
@[simp] theorem post_moduleLimit (s : State) (i : Instr) : (s.post i).moduleLimit = s.moduleLimit := rfl
@[simp] theorem post_capped (s : State) (i : Instr) : (s.post i).capped = s.capped := rfl
@[simp] theorem post_hotHubs (s : State) (i : Instr) : (s.post i).hotHubs = s.hotHubs := rfl
@[simp] theorem post_rates (s : State) (i : Instr) : (s.post i).rates = s.rates := rfl
@[simp] theorem post_tests (s : State) (i : Instr) : (s.post i).tests = s.tests := rfl
@[simp] theorem post_blocks (s : State) (i : Instr) : (s.post i).blocks = s.blocks := rfl
@[simp] theorem post_ptp (s : State) (i : Instr) : (s.post i).ptp = s.ptp := rfl
@[simp] theorem post_clockReceiver (s : State) (i : Instr) : (s.post i).clockReceiver = s.clockReceiver := rfl
@[simp] theorem post_ideMgmt (s : State) (i : Instr) : (s.post i).ideMgmt = s.ideMgmt := rfl
@[simp] theorem post_icinv (s : State) (i : Instr) : (s.post i).icinv = s.icinv := rfl
@[simp] theorem post_responders (s : State) (i : Instr) : (s.post i).responders = s.responders := rfl
@[simp] theorem post_hostOut (s : State) (i : Instr) : (s.post i).hostOut = s.hostOut := rfl
@[simp] theorem post_switchOut (s : State) (i : Instr) : (s.post i).switchOut = s.switchOut := rfl
@[simp] theorem post_cur (s : State) (i : Instr) : (s.post i).cur = s.cur := rfl
@[simp] theorem post_turn (s : State) (i : Instr) : (s.post i).turn = s.turn := rfl
@[simp] theorem post_urgent (s : State) (i : Instr) : (s.post i).urgent = s.urgent := rfl
@[simp] theorem post_retry (s : State) (i : Instr) : (s.post i).retry = s.retry := rfl
@[simp] theorem post_parked (s : State) (i : Instr) : (s.post i).parked = s.parked := rfl
@[simp] theorem post_inputs (s : State) (i : Instr) : (s.post i).inputs = s.inputs := rfl
@[simp] theorem post_sched (s : State) (i : Instr) : (s.post i).sched = s.sched := rfl
@[simp] theorem post_choices (s : State) (i : Instr) : (s.post i).choices = s.choices := rfl
@[simp] theorem post_fresh (s : State) (i : Instr) : (s.post i).fresh = s.fresh := rfl
@[simp] theorem post_nextId (s : State) (i : Instr) : (s.post i).nextId = s.nextId := rfl

@[simp] theorem park_cores (s : State) (i : Instr) : (s.park i).cores = s.cores := rfl
@[simp] theorem park_hw (s : State) (i : Instr) : (s.park i).hw = s.hw := rfl
@[simp] theorem park_objs (s : State) (i : Instr) : (s.park i).objs = s.objs := rfl
@[simp] theorem park_chans (s : State) (i : Instr) : (s.park i).chans = s.chans := rfl
@[simp] theorem park_fetch (s : State) (i : Instr) : (s.park i).fetch = s.fetch := rfl
@[simp] theorem park_dies (s : State) (i : Instr) : (s.park i).dies = s.dies := rfl
@[simp] theorem park_dir (s : State) (i : Instr) : (s.park i).dir = s.dir := rfl
@[simp] theorem park_hub (s : State) (i : Instr) : (s.park i).hub = s.hub := rfl
@[simp] theorem park_hubDown (s : State) (i : Instr) : (s.park i).hubDown = s.hubDown := rfl
@[simp] theorem park_mem (s : State) (i : Instr) : (s.park i).mem = s.mem := rfl
@[simp] theorem park_keys (s : State) (i : Instr) : (s.park i).keys = s.keys := rfl
@[simp] theorem park_views (s : State) (i : Instr) : (s.park i).views = s.views := rfl
@[simp] theorem park_exported (s : State) (i : Instr) : (s.park i).exported = s.exported := rfl
@[simp] theorem park_poisoned (s : State) (i : Instr) : (s.park i).poisoned = s.poisoned := rfl
@[simp] theorem park_memErr (s : State) (i : Instr) : (s.park i).memErr = s.memErr := rfl
@[simp] theorem park_sync (s : State) (i : Instr) : (s.park i).sync = s.sync := rfl
@[simp] theorem park_waits (s : State) (i : Instr) : (s.park i).waits = s.waits := rfl
@[simp] theorem park_faults (s : State) (i : Instr) : (s.park i).faults = s.faults := rfl
@[simp] theorem park_checks (s : State) (i : Instr) : (s.park i).checks = s.checks := rfl
@[simp] theorem park_parts (s : State) (i : Instr) : (s.park i).parts = s.parts := rfl
@[simp] theorem park_launches (s : State) (i : Instr) : (s.park i).launches = s.launches := rfl
@[simp] theorem park_retiredCores (s : State) (i : Instr) : (s.park i).retiredCores = s.retiredCores := rfl
@[simp] theorem park_retiredDies (s : State) (i : Instr) : (s.park i).retiredDies = s.retiredDies := rfl
@[simp] theorem park_retiredRanges (s : State) (i : Instr) : (s.park i).retiredRanges = s.retiredRanges := rfl
@[simp] theorem park_booted (s : State) (i : Instr) : (s.park i).booted = s.booted := rfl
@[simp] theorem park_failed (s : State) (i : Instr) : (s.park i).failed = s.failed := rfl
@[simp] theorem park_hubFailed (s : State) (i : Instr) : (s.park i).hubFailed = s.hubFailed := rfl
@[simp] theorem park_podMember (s : State) (i : Instr) : (s.park i).podMember = s.podMember := rfl
@[simp] theorem park_podModule (s : State) (i : Instr) : (s.park i).podModule = s.podModule := rfl
@[simp] theorem park_podModules (s : State) (i : Instr) : (s.park i).podModules = s.podModules := rfl
@[simp] theorem park_podTable (s : State) (i : Instr) : (s.park i).podTable = s.podTable := rfl
@[simp] theorem park_unreachable (s : State) (i : Instr) : (s.park i).unreachable = s.unreachable := rfl
@[simp] theorem park_switchDown (s : State) (i : Instr) : (s.park i).switchDown = s.switchDown := rfl
@[simp] theorem park_cycle (s : State) (i : Instr) : (s.park i).cycle = s.cycle := rfl
@[simp] theorem park_time (s : State) (i : Instr) : (s.park i).time = s.time := rfl
@[simp] theorem park_timeSrc (s : State) (i : Instr) : (s.park i).timeSrc = s.timeSrc := rfl
@[simp] theorem park_slew (s : State) (i : Instr) : (s.park i).slew = s.slew := rfl
@[simp] theorem park_errlog (s : State) (i : Instr) : (s.park i).errlog = s.errlog := rfl
@[simp] theorem park_draw (s : State) (i : Instr) : (s.park i).draw = s.draw := rfl
@[simp] theorem park_moduleLimit (s : State) (i : Instr) : (s.park i).moduleLimit = s.moduleLimit := rfl
@[simp] theorem park_capped (s : State) (i : Instr) : (s.park i).capped = s.capped := rfl
@[simp] theorem park_hotHubs (s : State) (i : Instr) : (s.park i).hotHubs = s.hotHubs := rfl
@[simp] theorem park_rates (s : State) (i : Instr) : (s.park i).rates = s.rates := rfl
@[simp] theorem park_tests (s : State) (i : Instr) : (s.park i).tests = s.tests := rfl
@[simp] theorem park_blocks (s : State) (i : Instr) : (s.park i).blocks = s.blocks := rfl
@[simp] theorem park_ptp (s : State) (i : Instr) : (s.park i).ptp = s.ptp := rfl
@[simp] theorem park_clockReceiver (s : State) (i : Instr) : (s.park i).clockReceiver = s.clockReceiver := rfl
@[simp] theorem park_ideMgmt (s : State) (i : Instr) : (s.park i).ideMgmt = s.ideMgmt := rfl
@[simp] theorem park_icinv (s : State) (i : Instr) : (s.park i).icinv = s.icinv := rfl
@[simp] theorem park_responders (s : State) (i : Instr) : (s.park i).responders = s.responders := rfl
@[simp] theorem park_hostOut (s : State) (i : Instr) : (s.park i).hostOut = s.hostOut := rfl
@[simp] theorem park_switchOut (s : State) (i : Instr) : (s.park i).switchOut = s.switchOut := rfl
@[simp] theorem park_cur (s : State) (i : Instr) : (s.park i).cur = s.cur := rfl
@[simp] theorem park_turn (s : State) (i : Instr) : (s.park i).turn = s.turn := rfl
@[simp] theorem park_urgent (s : State) (i : Instr) : (s.park i).urgent = s.urgent := rfl
@[simp] theorem park_retry (s : State) (i : Instr) : (s.park i).retry = s.retry := rfl
@[simp] theorem park_flight (s : State) (i : Instr) : (s.park i).flight = s.flight := rfl
@[simp] theorem park_inputs (s : State) (i : Instr) : (s.park i).inputs = s.inputs := rfl
@[simp] theorem park_sched (s : State) (i : Instr) : (s.park i).sched = s.sched := rfl
@[simp] theorem park_choices (s : State) (i : Instr) : (s.park i).choices = s.choices := rfl
@[simp] theorem park_fresh (s : State) (i : Instr) : (s.park i).fresh = s.fresh := rfl
@[simp] theorem park_nextId (s : State) (i : Instr) : (s.park i).nextId = s.nextId := rfl

@[simp] theorem unpark_cores (s : State) : (s.unpark).cores = s.cores := rfl
@[simp] theorem unpark_hw (s : State) : (s.unpark).hw = s.hw := rfl
@[simp] theorem unpark_objs (s : State) : (s.unpark).objs = s.objs := rfl
@[simp] theorem unpark_chans (s : State) : (s.unpark).chans = s.chans := rfl
@[simp] theorem unpark_fetch (s : State) : (s.unpark).fetch = s.fetch := rfl
@[simp] theorem unpark_dies (s : State) : (s.unpark).dies = s.dies := rfl
@[simp] theorem unpark_dir (s : State) : (s.unpark).dir = s.dir := rfl
@[simp] theorem unpark_hub (s : State) : (s.unpark).hub = s.hub := rfl
@[simp] theorem unpark_hubDown (s : State) : (s.unpark).hubDown = s.hubDown := rfl
@[simp] theorem unpark_mem (s : State) : (s.unpark).mem = s.mem := rfl
@[simp] theorem unpark_keys (s : State) : (s.unpark).keys = s.keys := rfl
@[simp] theorem unpark_views (s : State) : (s.unpark).views = s.views := rfl
@[simp] theorem unpark_exported (s : State) : (s.unpark).exported = s.exported := rfl
@[simp] theorem unpark_poisoned (s : State) : (s.unpark).poisoned = s.poisoned := rfl
@[simp] theorem unpark_memErr (s : State) : (s.unpark).memErr = s.memErr := rfl
@[simp] theorem unpark_sync (s : State) : (s.unpark).sync = s.sync := rfl
@[simp] theorem unpark_waits (s : State) : (s.unpark).waits = s.waits := rfl
@[simp] theorem unpark_faults (s : State) : (s.unpark).faults = s.faults := rfl
@[simp] theorem unpark_checks (s : State) : (s.unpark).checks = s.checks := rfl
@[simp] theorem unpark_parts (s : State) : (s.unpark).parts = s.parts := rfl
@[simp] theorem unpark_launches (s : State) : (s.unpark).launches = s.launches := rfl
@[simp] theorem unpark_retiredCores (s : State) : (s.unpark).retiredCores = s.retiredCores := rfl
@[simp] theorem unpark_retiredDies (s : State) : (s.unpark).retiredDies = s.retiredDies := rfl
@[simp] theorem unpark_retiredRanges (s : State) : (s.unpark).retiredRanges = s.retiredRanges := rfl
@[simp] theorem unpark_booted (s : State) : (s.unpark).booted = s.booted := rfl
@[simp] theorem unpark_failed (s : State) : (s.unpark).failed = s.failed := rfl
@[simp] theorem unpark_hubFailed (s : State) : (s.unpark).hubFailed = s.hubFailed := rfl
@[simp] theorem unpark_podMember (s : State) : (s.unpark).podMember = s.podMember := rfl
@[simp] theorem unpark_podModule (s : State) : (s.unpark).podModule = s.podModule := rfl
@[simp] theorem unpark_podModules (s : State) : (s.unpark).podModules = s.podModules := rfl
@[simp] theorem unpark_podTable (s : State) : (s.unpark).podTable = s.podTable := rfl
@[simp] theorem unpark_unreachable (s : State) : (s.unpark).unreachable = s.unreachable := rfl
@[simp] theorem unpark_switchDown (s : State) : (s.unpark).switchDown = s.switchDown := rfl
@[simp] theorem unpark_cycle (s : State) : (s.unpark).cycle = s.cycle := rfl
@[simp] theorem unpark_time (s : State) : (s.unpark).time = s.time := rfl
@[simp] theorem unpark_timeSrc (s : State) : (s.unpark).timeSrc = s.timeSrc := rfl
@[simp] theorem unpark_slew (s : State) : (s.unpark).slew = s.slew := rfl
@[simp] theorem unpark_errlog (s : State) : (s.unpark).errlog = s.errlog := rfl
@[simp] theorem unpark_draw (s : State) : (s.unpark).draw = s.draw := rfl
@[simp] theorem unpark_moduleLimit (s : State) : (s.unpark).moduleLimit = s.moduleLimit := rfl
@[simp] theorem unpark_capped (s : State) : (s.unpark).capped = s.capped := rfl
@[simp] theorem unpark_hotHubs (s : State) : (s.unpark).hotHubs = s.hotHubs := rfl
@[simp] theorem unpark_rates (s : State) : (s.unpark).rates = s.rates := rfl
@[simp] theorem unpark_tests (s : State) : (s.unpark).tests = s.tests := rfl
@[simp] theorem unpark_blocks (s : State) : (s.unpark).blocks = s.blocks := rfl
@[simp] theorem unpark_ptp (s : State) : (s.unpark).ptp = s.ptp := rfl
@[simp] theorem unpark_clockReceiver (s : State) : (s.unpark).clockReceiver = s.clockReceiver := rfl
@[simp] theorem unpark_ideMgmt (s : State) : (s.unpark).ideMgmt = s.ideMgmt := rfl
@[simp] theorem unpark_icinv (s : State) : (s.unpark).icinv = s.icinv := rfl
@[simp] theorem unpark_responders (s : State) : (s.unpark).responders = s.responders := rfl
@[simp] theorem unpark_hostOut (s : State) : (s.unpark).hostOut = s.hostOut := rfl
@[simp] theorem unpark_switchOut (s : State) : (s.unpark).switchOut = s.switchOut := rfl
@[simp] theorem unpark_cur (s : State) : (s.unpark).cur = s.cur := rfl
@[simp] theorem unpark_turn (s : State) : (s.unpark).turn = s.turn := rfl
@[simp] theorem unpark_retry (s : State) : (s.unpark).retry = s.retry := rfl
@[simp] theorem unpark_flight (s : State) : (s.unpark).flight = s.flight := rfl
@[simp] theorem unpark_inputs (s : State) : (s.unpark).inputs = s.inputs := rfl
@[simp] theorem unpark_sched (s : State) : (s.unpark).sched = s.sched := rfl
@[simp] theorem unpark_choices (s : State) : (s.unpark).choices = s.choices := rfl
@[simp] theorem unpark_fresh (s : State) : (s.unpark).fresh = s.fresh := rfl
@[simp] theorem unpark_nextId (s : State) : (s.unpark).nextId = s.nextId := rfl

@[simp] theorem dropChoice_cores (s : State) : (s.dropChoice).cores = s.cores := rfl
@[simp] theorem dropChoice_hw (s : State) : (s.dropChoice).hw = s.hw := rfl
@[simp] theorem dropChoice_objs (s : State) : (s.dropChoice).objs = s.objs := rfl
@[simp] theorem dropChoice_chans (s : State) : (s.dropChoice).chans = s.chans := rfl
@[simp] theorem dropChoice_fetch (s : State) : (s.dropChoice).fetch = s.fetch := rfl
@[simp] theorem dropChoice_dies (s : State) : (s.dropChoice).dies = s.dies := rfl
@[simp] theorem dropChoice_dir (s : State) : (s.dropChoice).dir = s.dir := rfl
@[simp] theorem dropChoice_hub (s : State) : (s.dropChoice).hub = s.hub := rfl
@[simp] theorem dropChoice_hubDown (s : State) : (s.dropChoice).hubDown = s.hubDown := rfl
@[simp] theorem dropChoice_mem (s : State) : (s.dropChoice).mem = s.mem := rfl
@[simp] theorem dropChoice_keys (s : State) : (s.dropChoice).keys = s.keys := rfl
@[simp] theorem dropChoice_views (s : State) : (s.dropChoice).views = s.views := rfl
@[simp] theorem dropChoice_exported (s : State) : (s.dropChoice).exported = s.exported := rfl
@[simp] theorem dropChoice_poisoned (s : State) : (s.dropChoice).poisoned = s.poisoned := rfl
@[simp] theorem dropChoice_memErr (s : State) : (s.dropChoice).memErr = s.memErr := rfl
@[simp] theorem dropChoice_sync (s : State) : (s.dropChoice).sync = s.sync := rfl
@[simp] theorem dropChoice_waits (s : State) : (s.dropChoice).waits = s.waits := rfl
@[simp] theorem dropChoice_faults (s : State) : (s.dropChoice).faults = s.faults := rfl
@[simp] theorem dropChoice_checks (s : State) : (s.dropChoice).checks = s.checks := rfl
@[simp] theorem dropChoice_parts (s : State) : (s.dropChoice).parts = s.parts := rfl
@[simp] theorem dropChoice_launches (s : State) : (s.dropChoice).launches = s.launches := rfl
@[simp] theorem dropChoice_retiredCores (s : State) : (s.dropChoice).retiredCores = s.retiredCores := rfl
@[simp] theorem dropChoice_retiredDies (s : State) : (s.dropChoice).retiredDies = s.retiredDies := rfl
@[simp] theorem dropChoice_retiredRanges (s : State) : (s.dropChoice).retiredRanges = s.retiredRanges := rfl
@[simp] theorem dropChoice_booted (s : State) : (s.dropChoice).booted = s.booted := rfl
@[simp] theorem dropChoice_failed (s : State) : (s.dropChoice).failed = s.failed := rfl
@[simp] theorem dropChoice_hubFailed (s : State) : (s.dropChoice).hubFailed = s.hubFailed := rfl
@[simp] theorem dropChoice_podMember (s : State) : (s.dropChoice).podMember = s.podMember := rfl
@[simp] theorem dropChoice_podModule (s : State) : (s.dropChoice).podModule = s.podModule := rfl
@[simp] theorem dropChoice_podModules (s : State) : (s.dropChoice).podModules = s.podModules := rfl
@[simp] theorem dropChoice_podTable (s : State) : (s.dropChoice).podTable = s.podTable := rfl
@[simp] theorem dropChoice_unreachable (s : State) : (s.dropChoice).unreachable = s.unreachable := rfl
@[simp] theorem dropChoice_switchDown (s : State) : (s.dropChoice).switchDown = s.switchDown := rfl
@[simp] theorem dropChoice_cycle (s : State) : (s.dropChoice).cycle = s.cycle := rfl
@[simp] theorem dropChoice_time (s : State) : (s.dropChoice).time = s.time := rfl
@[simp] theorem dropChoice_timeSrc (s : State) : (s.dropChoice).timeSrc = s.timeSrc := rfl
@[simp] theorem dropChoice_slew (s : State) : (s.dropChoice).slew = s.slew := rfl
@[simp] theorem dropChoice_errlog (s : State) : (s.dropChoice).errlog = s.errlog := rfl
@[simp] theorem dropChoice_draw (s : State) : (s.dropChoice).draw = s.draw := rfl
@[simp] theorem dropChoice_moduleLimit (s : State) : (s.dropChoice).moduleLimit = s.moduleLimit := rfl
@[simp] theorem dropChoice_capped (s : State) : (s.dropChoice).capped = s.capped := rfl
@[simp] theorem dropChoice_hotHubs (s : State) : (s.dropChoice).hotHubs = s.hotHubs := rfl
@[simp] theorem dropChoice_rates (s : State) : (s.dropChoice).rates = s.rates := rfl
@[simp] theorem dropChoice_tests (s : State) : (s.dropChoice).tests = s.tests := rfl
@[simp] theorem dropChoice_blocks (s : State) : (s.dropChoice).blocks = s.blocks := rfl
@[simp] theorem dropChoice_ptp (s : State) : (s.dropChoice).ptp = s.ptp := rfl
@[simp] theorem dropChoice_clockReceiver (s : State) : (s.dropChoice).clockReceiver = s.clockReceiver := rfl
@[simp] theorem dropChoice_ideMgmt (s : State) : (s.dropChoice).ideMgmt = s.ideMgmt := rfl
@[simp] theorem dropChoice_icinv (s : State) : (s.dropChoice).icinv = s.icinv := rfl
@[simp] theorem dropChoice_responders (s : State) : (s.dropChoice).responders = s.responders := rfl
@[simp] theorem dropChoice_hostOut (s : State) : (s.dropChoice).hostOut = s.hostOut := rfl
@[simp] theorem dropChoice_switchOut (s : State) : (s.dropChoice).switchOut = s.switchOut := rfl
@[simp] theorem dropChoice_cur (s : State) : (s.dropChoice).cur = s.cur := rfl
@[simp] theorem dropChoice_turn (s : State) : (s.dropChoice).turn = s.turn := rfl
@[simp] theorem dropChoice_urgent (s : State) : (s.dropChoice).urgent = s.urgent := rfl
@[simp] theorem dropChoice_retry (s : State) : (s.dropChoice).retry = s.retry := rfl
@[simp] theorem dropChoice_flight (s : State) : (s.dropChoice).flight = s.flight := rfl
@[simp] theorem dropChoice_parked (s : State) : (s.dropChoice).parked = s.parked := rfl
@[simp] theorem dropChoice_inputs (s : State) : (s.dropChoice).inputs = s.inputs := rfl
@[simp] theorem dropChoice_sched (s : State) : (s.dropChoice).sched = s.sched := rfl
@[simp] theorem dropChoice_fresh (s : State) : (s.dropChoice).fresh = s.fresh := rfl
@[simp] theorem dropChoice_nextId (s : State) : (s.dropChoice).nextId = s.nextId := rfl

end State

end Sys2Proof.Machine
end

