-- ==== Sys2Proof/Laws/Memory.lean ====
section
/-! SUPPORT. Sparse memory: every operation keeps the canonical form, a read after a write gives the value
written, and a write leaves every other byte alone. -/

namespace Sys2Proof.Machine

namespace Memory

/-! ## The canonical form -/

theorem above_mono {m : Memory} {a b : Nat} (h : m.above b = true) (hab : a ≤ b) : m.above a = true := by
  cases m with
  | nil => rfl
  | cons e t =>
    obtain ⟨i, c⟩ := e
    simp only [above, Bool.and_eq_true, decide_eq_true_eq] at *
    exact ⟨⟨by omega, h.1.2⟩, h.2⟩

/-- Below its lowest address a memory reads 0. -/
theorem read_of_above {m : Memory} {lo a : Nat} (h : m.above lo = true) (ha : a < lo) : m.read a = 0 := by
  induction m generalizing lo with
  | nil => rfl
  | cons e t ih =>
    obtain ⟨i, c⟩ := e
    simp only [above, Bool.and_eq_true, decide_eq_true_eq] at h
    have hne : i ≠ a := by omega
    simp only [read, if_neg hne]
    exact ih h.2 (by omega)

theorem above_write {m : Memory} {lo : Nat} (a : Nat) (b : Byte) (h : m.above lo = true) (ha : lo ≤ a) :
    (m.write a b).above lo = true := by
  induction m generalizing lo with
  | nil =>
    unfold write
    split
    · rfl
    · rename_i hb
      simp only [above, Bool.and_eq_true, decide_eq_true_eq, bne_iff_ne]
      exact ⟨⟨ha, hb⟩, trivial⟩
  | cons e t ih =>
    obtain ⟨i, c⟩ := e
    have h0 := h
    simp only [above, Bool.and_eq_true, decide_eq_true_eq] at h
    unfold write
    split
    · rename_i hai
      subst hai
      split
      · exact above_mono h.2 (by omega)
      · rename_i hb
        simp only [above, Bool.and_eq_true, decide_eq_true_eq, bne_iff_ne]
        exact ⟨⟨ha, hb⟩, h.2⟩
    · split
      · split
        · exact h0
        · rename_i hlt hb
          have : Memory.above (a + 1) ((i, c) :: t) = true := by
            simp only [above, Bool.and_eq_true, decide_eq_true_eq]
            exact ⟨⟨by omega, h.1.2⟩, h.2⟩
          simp only [above, Bool.and_eq_true, decide_eq_true_eq, bne_iff_ne]
          simp only [above, Bool.and_eq_true, decide_eq_true_eq, bne_iff_ne] at this
          exact ⟨⟨ha, hb⟩, this⟩
      · rename_i h1 h2
        simp only [above, Bool.and_eq_true, decide_eq_true_eq]
        exact ⟨h.1, ih h.2 (by omega)⟩

theorem wf_nil : Memory.wf [] = true := rfl

/-- A write keeps the canonical form. -/
theorem wf_write {m : Memory} (a : Nat) (b : Byte) (h : m.wf = true) : (m.write a b).wf = true :=
  above_write a b h (Nat.zero_le a)

theorem wf_writeNat {m : Memory} (a n v : Nat) (h : m.wf = true) : (m.writeNat a n v).wf = true := by
  induction n generalizing m a v with
  | zero => exact h
  | succ n ih => exact ih (a + 1) (v / 256) (wf_write a _ h)

theorem wf_writeMask {m : Memory} (a : Nat) (mask : LineMask) (data : LineData) (n : Nat) (h : m.wf = true) :
    (m.writeMask a mask data n).wf = true := by
  induction n with
  | zero => exact h
  | succ n ih =>
    unfold writeMask
    dsimp only
    split
    · exact wf_write _ _ ih
    · exact ih

theorem above_filter {m : Memory} {lo : Nat} (p : Host.Cell → Bool) (h : m.above lo = true) :
    Memory.above lo (m.filter p) = true := by
  induction m generalizing lo with
  | nil => rfl
  | cons e t ih =>
    obtain ⟨i, c⟩ := e
    simp only [above, Bool.and_eq_true, decide_eq_true_eq] at h
    rw [List.filter_cons]
    split
    · simp only [above, Bool.and_eq_true, decide_eq_true_eq]
      exact ⟨h.1, ih h.2⟩
    · exact ih (above_mono h.2 (by omega))

theorem wf_filter {m : Memory} (p : Host.Cell → Bool) (h : m.wf = true) : Memory.wf (m.filter p) = true :=
  above_filter p h

/-! ## Reading after writing -/

theorem read_write_above {m : Memory} {lo a : Nat} (b : Byte) (h : m.above lo = true) :
    (m.write a b).read a = b := by
  induction m generalizing lo with
  | nil =>
    unfold write
    split
    · rename_i hb; exact hb.symm
    · simp [read]
  | cons e t ih =>
    obtain ⟨i, c⟩ := e
    simp only [above, Bool.and_eq_true, decide_eq_true_eq] at h
    unfold write
    split
    · rename_i hai
      subst hai
      split
      · rename_i hb; rw [hb]; exact read_of_above h.2 (by omega)
      · simp [read]
    · rename_i hne
      split
      · rename_i hlt
        split
        · rename_i hb
          rw [hb]
          simp only [read, if_neg (Ne.symm hne)]
          exact read_of_above h.2 (by omega)
        · simp [read]
      · simp only [read, if_neg (Ne.symm hne)]
        exact ih h.2

/-- A read after a write to the same address gives the byte written. -/
theorem read_write_self {m : Memory} (a : Nat) (b : Byte) (h : m.wf = true) : (m.write a b).read a = b :=
  read_write_above b h

/-- A write leaves every other byte alone. -/
theorem read_write_ne (m : Memory) {a x : Nat} (b : Byte) (hx : x ≠ a) : (m.write a b).read x = m.read x := by
  induction m with
  | nil =>
    unfold write
    split
    · rfl
    · simp [read, Ne.symm hx]
  | cons e t ih =>
    obtain ⟨i, c⟩ := e
    unfold write
    split
    · rename_i hai
      subst hai
      split
      · simp [read, Ne.symm hx]
      · simp [read, Ne.symm hx]
    · split
      · split
        · rfl
        · simp [read, Ne.symm hx]
      · simp only [read]
        split
        · rfl
        · exact ih

theorem read_writeNat_ne (m : Memory) {a n x : Nat} (v : Nat) (hx : x < a ∨ a + n ≤ x) :
    (m.writeNat a n v).read x = m.read x := by
  induction n generalizing m a v with
  | zero => rfl
  | succ n ih =>
    unfold writeNat
    rw [ih _ _ (by omega), read_write_ne _ _ (by omega)]

theorem readNat_congr {m m' : Memory} {a n : Nat} (h : ∀ x, a ≤ x → x < a + n → m.read x = m'.read x) :
    m.readNat a n = m'.readNat a n := by
  induction n generalizing a with
  | zero => rfl
  | succ n ih =>
    unfold readNat
    rw [h a (Nat.le_refl a) (by omega), ih fun x h1 h2 => h x (by omega) (by omega)]

/-- The bytes of a number written read as that number again, cut to their width. -/
theorem readNat_writeNat {m : Memory} (a n v : Nat) (h : m.wf = true) :
    (m.writeNat a n v).readNat a n = v % 256 ^ n := by
  induction n generalizing m a v with
  | zero => simp [readNat, Nat.mod_one]
  | succ n ih =>
    have hw := wf_write a (BitVec.ofNat 8 v) h
    unfold readNat writeNat
    rw [ih (a + 1) (v / 256) hw, read_writeNat_ne _ _ (by omega), read_write_self _ _ h]
    rw [BitVec.toNat_ofNat, Nat.pow_succ (m := n), Nat.mul_comm (256 ^ n) 256, Nat.mod_mul]

theorem readNat_lt (m : Memory) (a n : Nat) : m.readNat a n < 256 ^ n := by
  induction n generalizing a with
  | zero => simp [readNat]
  | succ n ih =>
    have h1 := (m.read a).isLt
    have h2 := ih (a + 1)
    unfold readNat
    rw [Nat.pow_succ]
    omega

/-- A write under a mask leaves every byte outside it alone. -/
theorem read_writeMask_ne (m : Memory) {a x : Nat} (mask : LineMask) (data : LineData) (n : Nat)
    (hx : ∀ j < n, mask.getLsbD j = true → x ≠ a + j) : (m.writeMask a mask data n).read x = m.read x := by
  induction n with
  | zero => rfl
  | succ n ih =>
    have h0 := ih fun j hj => hx j (by omega)
    unfold writeMask
    dsimp only
    split
    · rename_i hm
      rw [read_write_ne _ _ (hx n (by omega) hm), h0]
    · exact h0

end Memory

end Sys2Proof.Machine
end

