-- ==== Sys2Proof/Laws/Registers.lean ====
section
/-! SUPPORT. What the shared operations over registers can do: a register write, the end check, the ways an
instruction completes, and waiting. -/

namespace Sys2Proof.Machine

/-! ## Registers -/

theorem rd_zero (c : Ctx) : c.rd 0 = 0 := by simp [Ctx.rd]

theorem wr_zero (c : Ctx) (v : Word) : c.wr 0 v = c := by simp [Ctx.wr]

theorem rd_wr (c : Ctx) (d r : Reg) (v : Word) : (c.wr d v).rd r = if r = d ∧ d ≠ 0 then v else c.rd r := by
  by_cases hd : d = 0
  · subst hd; rw [wr_zero, if_neg (fun h => h.2 rfl)]
  · have hw : c.wr d v = { c with g := c.g.set d.toFin v } := if_neg hd
    rw [hw]
    unfold Ctx.rd
    by_cases hr : r = d
    · subst hr
      rw [if_neg hd, if_pos ⟨rfl, hd⟩]
      exact Vector.getElem_set_self ..
    · have hn : d.toNat ≠ r.toNat := fun e => hr (BitVec.eq_of_toNat_eq e.symm)
      rw [if_neg (c := r = d ∧ d ≠ 0) (fun h => hr h.1)]
      split
      · rfl
      · exact Vector.getElem_set_ne (xs := c.g) d.toFin.isLt r.toFin.isLt hn

theorem advance_g (c : Ctx) (n : Nat) : (c.advance n).g = c.g := by
  unfold Ctx.advance Ctx.endLevel0
  dsimp only
  (repeat' split) <;> rfl

theorem advance_rd (c : Ctx) (n : Nat) (r : Reg) : (c.advance n).rd r = c.rd r := by
  unfold Ctx.rd
  rw [advance_g]

theorem settled_rd (c : Ctx) (r : Reg) : c.settled.rd r = c.rd r := rfl

theorem wr_advance (c : Ctx) (d : Reg) (v : Word) (n : Nat) : (c.wr d v).advance n = (c.advance n).wr d v := by
  unfold Ctx.wr
  split
  · rfl
  · unfold Ctx.advance Ctx.endLevel0
    dsimp only
    (repeat' split) <;> rfl

/-! ## What a context keeps -/

theorem keeps_trans {a b c : Ctx} (h : a.keeps b) (g : b.keeps c) : a.keeps c := by
  unfold Ctx.keeps at *
  rw [g, h]

theorem keeps_wr (c : Ctx) (d : Reg) (v : Word) : c.keeps (c.wr d v) := by
  unfold Ctx.keeps Ctx.wr
  split <;> rfl

theorem keeps_advance (c : Ctx) (n : Nat) : c.keeps (c.advance n) := by
  unfold Ctx.keeps Ctx.advance Ctx.endLevel0
  dsimp only
  (repeat' split) <;> rfl

theorem keeps_settled (c : Ctx) : c.keeps c.settled := rfl

/-! ## The issuing context alone -/

theorem me_setMe (s : State) (c : Ctx) : (s.setMe c).me = c := State.ctx_setCtx_self s _ _ c

theorem rg_setMe (s : State) (c : Ctx) (r : Reg) : (s.setMe c).rg r = c.rd r := by
  unfold State.rg
  rw [me_setMe]

theorem setMe_setMe (s : State) (c e : Ctx) : (s.setMe c).setMe e = s.setMe e :=
  State.setCtx_setCtx s _ _ c e

theorem onlyMe_setMe (s : State) (c : Ctx) : s.onlyMe (s.setMe c) := by
  unfold State.onlyMe
  rw [me_setMe]

/-- A change of the issuing context that keeps all but what a completion may change, and every register but
`d`, has the frame of `d`. -/
theorem registerFrame_setMe (s : State) (d : Reg) (c : Ctx) (hk : s.me.keeps c)
    (hr : ∀ r, r ≠ d → c.rd r = s.me.rd r) : registerFrame d s (s.setMe c) :=
  ⟨onlyMe_setMe s c, by rw [me_setMe]; exact hk, fun r h => by rw [rg_setMe]; exact hr r h⟩

theorem registerFrame_weaken {d : Reg} {s t : State} (h : registerFrame 0 s t) : registerFrame d s t := by
  refine ⟨h.1, h.2.1, fun r _ => ?_⟩
  by_cases h0 : r = 0
  · subst h0; simp only [State.rg, rd_zero]
  · exact h.2.2 r h0

/-! ## The ways an instruction completes -/

theorem seq_eq (s : State) : s.seq = s.setMe (s.me.advance s.len).settled := rfl

theorem result_eq (s : State) (d : Reg) (v : Word) :
    s.result d v = s.setMe ((s.me.wr d v).advance s.len).settled := by
  have h : (s.wg d v).len = s.len := rfl
  unfold State.result
  rw [seq_eq, h]
  unfold State.wg State.modMe
  rw [me_setMe, setMe_setMe]

theorem call_eq (s : State) (d : Reg) (v t : Word) :
    (s.wg d v).jump t = s.setMe { (s.me.wr d v).settled with pc := t } := by
  have h : (s.wg d v).jump t = (s.wg d v).setMe { (s.wg d v).me.settled with pc := t } := rfl
  have hw : s.wg d v = s.setMe (s.me.wr d v) := rfl
  rw [h, hw, me_setMe, setMe_setMe]

theorem registerFrame_seq (s : State) : registerFrame 0 s s.seq := by
  rw [seq_eq]
  exact registerFrame_setMe s 0 _ (keeps_trans (keeps_advance _ _) (keeps_settled _))
    fun r _ => by rw [settled_rd, advance_rd]

theorem registerFrame_result (s : State) (d : Reg) (v : Word) : registerFrame d s (s.result d v) := by
  rw [result_eq]
  refine registerFrame_setMe s d _
    (keeps_trans (keeps_trans (keeps_wr _ d v) (keeps_advance _ _)) (keeps_settled _)) fun r hr => ?_
  rw [settled_rd, advance_rd, rd_wr]
  simp [hr]

theorem registerFrame_jump (s : State) (t : Word) : registerFrame 0 s (s.jump t) :=
  registerFrame_setMe s 0 _ rfl fun _ _ => rfl

theorem registerFrame_call (s : State) (d : Reg) (v t : Word) :
    registerFrame d s ((s.wg d v).jump t) := by
  rw [call_eq]
  refine registerFrame_setMe s d _ (keeps_trans (keeps_wr _ d v) rfl) fun r hr => ?_
  show (s.me.wr d v).rd r = _
  rw [rd_wr]
  simp [hr]

theorem registerFrame_block (s : State) (w : Wait) : registerFrame 0 s (s.block w) :=
  registerFrame_setMe s 0 _ rfl fun _ _ => rfl

/-! ## Issue -/

theorem issue_ready {rs : List Reg} {s : State} {f : State → State} (h : s.pendingOf rs = false) :
    issue rs s f = .next (f s) := by
  unfold issue
  rw [h]
  rfl

theorem issue_pending {rs : List Reg} {s : State} {f : State → State} (h : s.pendingOf rs = true) :
    issue rs s f = .next (s.block (.token (State.namesOf rs))) := by
  unfold issue
  rw [h]
  rfl

theorem pendingOf_of_subset {s : State} {rs rs' : List Reg} (h : s.pendingOf rs = false)
    (hs : ∀ r ∈ rs', r ∈ rs) : s.pendingOf rs' = false := by
  simp only [State.pendingOf, List.any_eq_false] at *
  exact fun r hr => h r (hs r hr)

/-- An issue answers one of two states: the wait for a pending register, or the instruction's effect. -/
theorem issue_next {rs : List Reg} {s t : State} {f : State → State} (h : issue rs s f = .next t) :
    (s.pendingOf rs = true ∧ t = s.block (.token (State.namesOf rs))) ∨ (s.pendingOf rs = false ∧ t = f s) := by
  cases hp : s.pendingOf rs
  · rw [issue_ready hp] at h; cases h; exact .inr ⟨rfl, rfl⟩
  · rw [issue_pending hp] at h; cases h; exact .inl ⟨rfl, rfl⟩

theorem registerFrame_issue {d : Reg} {rs : List Reg} {s t : State} {f : State → State}
    (h : issue rs s f = .next t) (hf : registerFrame d s (f s)) : registerFrame d s t := by
  rcases issue_next h with ⟨_, rfl⟩ | ⟨_, rfl⟩
  · exact registerFrame_weaken (registerFrame_block s _)
  · exact hf

end Sys2Proof.Machine
end

