-- ==== Sys2Proof/Laws/Parts.lean ====
section
/-! SUPPORT. How the parts of an instruction run, one after another, and what an instruction made of them
answers. -/

namespace Sys2Proof.Machine

/-! ## Parts -/

@[simp] theorem run_get (s : State) : (get : M State) s = .ok s s := rfl
@[simp] theorem run_set (s t : State) : (set t : M PUnit) s = .ok () t := rfl
@[simp] theorem run_modify (s : State) (f : State → State) : (modify f : M PUnit) s = .ok () (f s) := rfl
@[simp] theorem run_pure {α : Type} (s : State) (a : α) : (pure a : M α) s = .ok a s := rfl
@[simp] theorem run_throw {α : Type} (s : State) (a : Stop) : (throw a : M α) s = .error a s := rfl

@[simp] theorem run_bind {α β : Type} (x : M α) (f : α → M β) (s : State) :
    (x >>= f) s = match x s with
      | .ok a s' => f a s'
      | .error e s' => .error e s' := by
  show EStateM.bind x f s = _
  unfold EStateM.bind
  cases x s <;> rfl

@[simp] theorem run_trapIf (b : Bool) (c : Nat) (v : Word) (s : State) :
    trapIf b c v s = if b then .error (.trap c v) s else .ok () s := by
  cases b <;> rfl

@[simp] theorem run_blockIf (b : Bool) (w : Wait) (s : State) :
    blockIf b w s = if b then .error (.block w) s else .ok () s := by
  cases b <;> rfl

@[simp] theorem run_waitEchoes (s : State) :
    waitEchoes s = if s.me.posted.isEmpty then .ok () s else .error (.block .echo) s := by
  unfold waitEchoes
  simp only [run_bind, run_get, run_blockIf]
  cases s.me.posted.isEmpty <;> rfl

/-- A reply that is in is used; else it is asked for and waited for (R92). -/
theorem run_awaitReply (s : State) :
    awaitReply s = if s.cur.used < s.me.replies then
      .ok () { s with cur := { s.cur with used := s.cur.used + 1 } }
    else .error (.block .reply) (s.post (.replyArrival s.key s.slot)) := by
  unfold awaitReply
  simp only [run_bind, run_get]
  split <;> rfl

@[simp] theorem run_needBind (n : Nat) (s : State) :
    needBind n s = if s.me.bind.toNat = n then .ok () s else .error (.trap 0x06 0) s := by
  unfold needBind
  simp only [run_bind, run_get, run_trapIf]
  by_cases h : s.me.bind.toNat = n <;> simp [h]

@[simp] theorem run_onlyContext0 (s : State) :
    onlyContext0 s = if s.slot = 0 then .ok () s else .error (.trap 0x04 0) s := by
  unfold onlyContext0
  simp only [run_bind, run_get, run_trapIf]
  by_cases h : s.slot = 0 <;> simp [h]

@[simp] theorem run_notContext0 (s : State) :
    notContext0 s = if s.slot = 0 then .error (.trap 0x04 0) s else .ok () s := by
  unfold notContext0
  simp only [run_bind, run_get, run_trapIf]
  by_cases h : s.slot = 0 <;> simp [h]

/-! ## Instructions made of parts -/

theorem issueM_ok {rs : List Reg} {s t : State} {m : M Unit} {u : Unit} (h : s.pendingOf rs = false)
    (hm : m s = .ok u t) : issueM rs s m = .next t := by
  unfold issueM
  rw [issue_ready h]
  unfold State.attempt
  rw [hm]

theorem issueM_trap {rs : List Reg} {s t : State} {m : M Unit} {c : Nat} {v : Word}
    (h : s.pendingOf rs = false) (hm : m s = .error (.trap c v) t) : issueM rs s m = .next (t.trap c v) := by
  unfold issueM
  rw [issue_ready h]
  unfold State.attempt
  rw [hm]

theorem issueM_block {rs : List Reg} {s t : State} {m : M Unit} {w : Wait}
    (h : s.pendingOf rs = false) (hm : m s = .error (.block w) t) : issueM rs s m = .next (t.block w) := by
  unfold issueM
  rw [issue_ready h]
  unfold State.attempt
  rw [hm]

/-- An event made of parts performs them, or is tried again later with what it asked for (R339), or goes on as
`failed` says where a transaction with the pod fails (R188). -/
theorem eventOr_ok {s t : State} {self : Instr} {m : M Unit} {f : State → State} {u : Unit} (hm : m s = .ok u t) :
    s.eventOr self m f = t := by
  unfold State.eventOr
  rw [hm]

theorem eventOr_err {s t : State} {self : Instr} {m : M Unit} {f : State → State} (hm : m s = .error .err t) :
    s.eventOr self m f = f t := by
  unfold State.eventOr
  rw [hm]

theorem event_ok {s t : State} {self : Instr} {m : M Unit} {u : Unit} (hm : m s = .ok u t) :
    s.event self m = t := eventOr_ok hm

theorem eventOr_block {s t : State} {self : Instr} {m : M Unit} {f : State → State} {w : Wait}
    (hm : m s = .error (.block w) t) : s.eventOr self m f = t.parkOn self w := by
  unfold State.eventOr
  rw [hm]

end Sys2Proof.Machine
end

