-- ==== Sys2Proof/Laws/Access.lean ====
section
/-! SUPPORT. What the shared operations over the four spaces answer: their checks, and an access of each
local space (R125). -/

namespace Sys2Proof.Machine

/-- The bits that a register holds below an alignment. -/
theorem low_bits (e : Word) (k : Nat) : (e.extractLsb' 0 k != 0) = (e.toNat % 2 ^ k != 0) := by
  rw [Bool.eq_iff_iff]
  simp only [bne_iff_ne, ne_eq, BitVec.toNat_eq, BitVec.extractLsb'_toNat, Nat.shiftRight_zero]
  simp

theorem run_checkL (e : Word) (n : Nat) (s : State) :
    checkL e n s = if e.toNat % n != 0 then .error (.trap 0x03 e) s
      else if e.toNat + n > s.window s.myPart then .error (.trap 0x04 e) s else .ok () s := by
  unfold checkL
  simp only [run_bind, run_get, run_trapIf]
  cases e.toNat % n != 0
  · simp
  · simp

theorem run_checkO (e : Word) (n : Nat) (s : State) :
    checkO e n s = if e.toNat % n != 0 then .error (.trap 0x03 e) s
      else if e.toNat + n > 32768 then .error (.trap 0x04 e) s else .ok () s := by
  unfold checkO
  simp only [run_bind, run_trapIf]
  cases e.toNat % n != 0
  · simp
  · simp

theorem run_checkC (e : Word) (n : Nat) (s : State) :
    checkC e n s = if cOff e % n != 0 then .error (.trap 0x03 e) s
      else if e.extractLsb' 37 27 != 0 || !s.presentCore s.myPart (cCore e)
        || cOff e + n > s.window s.myPart then .error (.trap 0x04 e) s else .ok () s := by
  unfold checkC
  simp only [run_bind, run_get, run_trapIf]
  cases cOff e % n != 0
  · simp
  · simp

/-- A load of the own local memory (R125, R131). -/
theorem run_readL {e : Word} {n : Nat} {s : State} (ha : e.toNat % n = 0)
    (hw : e.toNat + n ≤ s.window s.myPart) : readSpace .l e n s = .ok (s.loadLocal s.key e.toNat n) s := by
  unfold readSpace
  simp only [run_bind, run_checkL, ha, run_get, run_pure]
  rw [if_neg (by simp), if_neg (by omega)]

/-- A load of the operand store (R125, R131). -/
theorem run_readO {e : Word} {n : Nat} {s : State} (ha : e.toNat % n = 0) (hw : e.toNat + n ≤ 32768) :
    readSpace .o e n s = .ok (s.mine.ostore.readNat e.toNat n) s := by
  unfold readSpace
  simp only [run_bind, run_checkO, ha, run_get, run_pure]
  rw [if_neg (by simp), if_neg (by omega)]

/-- A store to the own local memory (R125, R131). -/
theorem run_writeL {e : Word} {n v : Nat} {s : State} (ha : e.toNat % n = 0)
    (hw : e.toNat + n ≤ s.window s.myPart) : writeSpace .l e n v s = .ok () (s.storeLocal s.key e.toNat n v) := by
  unfold writeSpace
  simp only [run_bind, run_checkL, ha, run_modify]
  rw [if_neg (by simp), if_neg (by omega)]

/-- A store to the operand store (R125, R131). -/
theorem run_writeO {e : Word} {n v : Nat} {s : State} (ha : e.toNat % n = 0) (hw : e.toNat + n ≤ 32768) :
    writeSpace .o e n v s = .ok () (s.modMine fun c => c.storeO e.toNat n v) := by
  unfold writeSpace
  simp only [run_bind, run_checkO, ha, run_modify]
  rw [if_neg (by simp), if_neg (by omega)]

/-- A store that no watch covers writes its bytes and marks a spoilt ring, and does nothing else (R111,
R112). -/
theorem storeLocal_unwatched {s : State} {k off n v : Nat}
    (h : ∀ w ∈ (s.core k).watches, w.1 + 8 ≤ off ∨ off + n ≤ w.1) :
    s.storeLocal k off n v =
      ({ s with mem := s.mem.writeNat (localLoc (coreOf k) (s.localBase (partOf k) + off)) n v } : State).spoilRing
        k off n := by
  unfold State.storeLocal State.hits
  dsimp only
  congr 1
  have hc : ∀ m : Machine.Memory, (({ s with mem := m } : State).core k).watches = (s.core k).watches := fun _ => rfl
  rw [hc]
  generalize (({ s with mem := s.mem.writeNat (localLoc (coreOf k) (s.localBase (partOf k) + off)) n v } : State)) = t
  generalize (s.core k).watches = l at h
  induction l generalizing t with
  | nil => rfl
  | cons w l ih =>
    rw [List.foldl_cons]
    have hw := h w (List.mem_cons_self ..)
    have hn : (decide (w.1 < off + n) && decide (off < w.1 + 8)) = false := by
      rw [Bool.and_eq_false_iff]
      rcases hw with hw | hw
      · right; rw [decide_eq_false_iff_not]; omega
      · left; rw [decide_eq_false_iff_not]; omega
    rw [hn]
    exact ih t fun x hx => h x (List.mem_cons_of_mem _ hx)

/-- The fetch behind an indirect transfer (R78): an aligned target at which a pad with the label stands. -/
theorem run_checkTarget (t : Word) (label : BitVec 16) (s : State) :
    checkTarget t label s = if t.toNat % 4 != 0 then .error (.trap 0x03 t) s
      else match fetchWord t s with
        | .ok w s1 => if w.extractLsb' 26 6 != 0x1F || fCf w != 0xF || (fD w).extractLsb' 4 1 != 0 || fA w != 0
            || ((fD w).extractLsb' 0 4 ++ fK12 w) != label then .error (.trap 0x02 t) s1 else .ok () s1
        | .error e s1 => .error e s1 := by
  unfold checkTarget checkTargetOf fetchWord
  have hl := low_bits t 2
  simp only [run_bind, run_trapIf]
  rw [hl]
  cases t.toNat % 4 != 0 <;> simp
  all_goals (cases fetchWordOf none t s <;> rfl)

end Sys2Proof.Machine
end

