-- ==== Sys2Proof/Laws/Canonical.lean ====
section
/-! SUPPORT. The canonical form of a state: the updates that touch no memory keep it, and so does every
operation of the machine that writes one. -/

namespace Sys2Proof.Machine

/-! ## What the canonical form says -/

theorem State.wf_iff (s : State) : s.wf = true ↔ s.mem.wf = true ∧ (∀ e ∈ s.cores, e.2.ostore.wf = true) ∧
    ∀ e ∈ s.parts, e.2.win.slots.wf = true := by
  simp only [State.wf, Bool.and_eq_true, List.all_eq_true, and_assoc]

theorem reset_wf : State.reset.wf = true := by decide

/-- The canonical form rests on three fields. -/
theorem State.wf_congr {s t : State} (hm : t.mem = s.mem) (hc : t.cores = s.cores) (hp : t.parts = s.parts)
    (h : s.wf = true) : t.wf = true := by
  rw [State.wf_iff] at *; rwa [hm, hc, hp]

theorem State.wf_mem {s : State} (h : s.wf = true) : s.mem.wf = true := (State.wf_iff s |>.mp h).1

theorem State.wf_ostore {s : State} (h : s.wf = true) (k : Nat) : (s.core k).ostore.wf = true := by
  unfold State.core
  cases he : aget s.cores k with
  | none => rfl
  | some c => exact aget_forall (P := fun c : Core => c.ostore.wf = true) (State.wf_iff s |>.mp h).2.1 he

theorem State.wf_slots {s : State} (h : s.wf = true) (p : Nat) : (s.part p).win.slots.wf = true := by
  unfold State.part
  cases he : aget s.parts p with
  | none => rfl
  | some c => exact aget_forall (P := fun e : Part => e.win.slots.wf = true) (State.wf_iff s |>.mp h).2.2 he

/-! ## Updates of one part -/

theorem State.wf_setMem {s : State} {m : Machine.Memory} (h : s.wf = true) (hm : m.wf = true) :
    ({ s with mem := m } : State).wf = true := by
  rw [State.wf_iff] at *; exact ⟨hm, h.2⟩

theorem State.wf_setCore {s : State} {k : Nat} {c : Core} (h : s.wf = true) (hc : c.ostore.wf = true) :
    (s.setCore k c).wf = true := by
  rw [State.wf_iff] at *
  exact ⟨h.1, aset_forall (P := fun e : Nat × Core => e.2.ostore.wf = true) h.2.1 hc, h.2.2⟩

theorem State.wf_setPart {s : State} {p : Nat} {e : Part} (h : s.wf = true) (he : e.win.slots.wf = true) :
    (s.setPart p e).wf = true := by
  rw [State.wf_iff] at *
  exact ⟨h.1, h.2.1, aset_forall (P := fun e : Nat × Part => e.2.win.slots.wf = true) h.2.2 he⟩

/-- A core is changed, its operand store is not. -/
theorem State.wf_modCore {s : State} {k : Nat} {f : Core → Core} (h : s.wf = true)
    (hf : ∀ c, (f c).ostore = c.ostore) : (s.modCore k f).wf = true :=
  State.wf_setCore h (by rw [hf]; exact State.wf_ostore h k)

theorem State.wf_modMine {s : State} {f : Core → Core} (h : s.wf = true)
    (hf : ∀ c, (f c).ostore = c.ostore) : (s.modMine f).wf = true := State.wf_modCore h hf

theorem State.wf_setCtx {s : State} {k : Nat} {x : Slot} {c : Ctx} (h : s.wf = true) : (s.setCtx k x c).wf = true :=
  State.wf_modCore h fun _ => rfl

theorem State.wf_modCtx {s : State} {k : Nat} {x : Slot} {f : Ctx → Ctx} (h : s.wf = true) :
    (s.modCtx k x f).wf = true := State.wf_setCtx h

theorem State.wf_modMe {s : State} {f : Ctx → Ctx} (h : s.wf = true) : (s.modMe f).wf = true := State.wf_setCtx h

/-- A partition is changed, its launch slots are not. -/
theorem State.wf_modPart {s : State} {p : Nat} {f : Part → Part} (h : s.wf = true)
    (hf : ∀ e, (f e).win.slots = e.win.slots) : (s.modPart p f).wf = true :=
  State.wf_setPart h (by rw [hf]; exact State.wf_slots h p)

theorem State.wf_post {s : State} (h : s.wf = true) (i : Instr) : (s.post i).wf = true :=
  State.wf_congr rfl rfl rfl h

theorem State.wf_park {s : State} (h : s.wf = true) (i : Instr) : (s.park i).wf = true :=
  State.wf_congr rfl rfl rfl h

theorem State.wf_setSync {s : State} (h : s.wf = true) (p line : Nat) (l : SyncLine) :
    (s.setSync p line l).wf = true := State.wf_congr rfl rfl rfl h

theorem State.wf_setDie {s : State} (h : s.wf = true) (d : Nat) (e : Die) : (s.setDie d e).wf = true :=
  State.wf_congr rfl rfl rfl h

theorem State.wf_setHw {s : State} (h : s.wf = true) (c : Nat) (e : CoreHw) : (s.setHw c e).wf = true :=
  State.wf_congr rfl rfl rfl h

theorem State.wf_setLocus {s : State} (h : s.wf = true) (p line k : Nat) : (s.setLocus p line k).wf = true :=
  State.wf_setSync h _ _ _

/-! ## Completion, blocking, replies and traps -/

theorem State.wf_seq {s : State} (h : s.wf = true) : s.seq.wf = true := State.wf_modMe h

theorem State.wf_jump {s : State} (h : s.wf = true) (t : Word) : (s.jump t).wf = true := State.wf_modMe h

theorem State.wf_wg {s : State} (h : s.wf = true) (d : Reg) (v : Word) : (s.wg d v).wf = true := State.wf_modMe h

theorem State.wf_result {s : State} (h : s.wf = true) (d : Reg) (v : Word) : (s.result d v).wf = true :=
  State.wf_seq (State.wf_wg h d v)

theorem State.wf_block {s : State} (h : s.wf = true) (w : Wait) : (s.block w).wf = true := State.wf_modMe h

theorem State.wf_raise {s : State} (h : s.wf = true) (k n : Nat) : (s.raise k n).wf = true :=
  State.wf_modCore h fun _ => rfl

theorem State.wf_reply {s : State} (h : s.wf = true) (k : Nat) (x : Slot) : (s.reply k x).wf = true := by
  simp only [State.reply]
  split
  · exact h
  · exact State.wf_modCtx h
  · exact State.wf_congr (s := s.modCtx k x Ctx.woken) rfl rfl rfl (State.wf_modCtx h)

theorem State.wf_finish {s : State} (h : s.wf = true) (k : Nat) (x : Slot) (d : Reg) (v : Word) :
    (s.finish k x d v).wf = true := State.wf_modCtx h

theorem State.wf_token {s : State} (h : s.wf = true) (k : Nat) (x : Slot) (d : Reg) (v : Word) :
    (s.token k x d v).wf = true := by
  simp only [State.token]
  split
  · split
    · exact State.wf_reply (State.wf_modCtx h) k x
    · exact State.wf_modCtx h
  · exact State.wf_modCtx h

theorem State.wf_trapWith {s : State} (h : s.wf = true) (k : Nat) (x : Slot) (c : Nat) (v : Word)
    (len : Option Nat) : (s.trapWith k x c v len).wf = true := by
  simp only [State.trapWith]
  split
  · exact State.wf_modCtx h
  · split
    · exact State.wf_post (State.wf_modCtx h) _
    · exact State.wf_raise (State.wf_modCtx h) _ _

theorem State.wf_trapOf {s : State} (h : s.wf = true) (k : Nat) (x : Slot) (c : Nat) (v : Word) :
    (s.trapOf k x c v).wf = true := State.wf_trapWith h k x c v _

theorem State.wf_trap {s : State} (h : s.wf = true) (c : Nat) (v : Word) : (s.trap c v).wf = true :=
  State.wf_trapWith h _ _ c v _

/-- A fold of steps that keep the form keeps it. -/
theorem State.wf_foldl {α : Type} {f : State → α → State} (hf : ∀ s a, s.wf = true → (f s a).wf = true) (l : List α) :
    ∀ {s : State}, s.wf = true → (l.foldl f s).wf = true := by
  induction l with
  | nil => exact fun h => h
  | cons a t ih => exact fun h => ih (hf _ a h)

/-- A part of an instruction that keeps the form, wherever it stops. -/
theorem State.wf_attempt {s : State} {m : M Unit}
    (h : match m s with | .ok _ t => t.wf = true | .error _ t => t.wf = true) : (s.attempt m).wf = true := by
  unfold State.attempt
  split <;> rename_i he <;> rw [he] at h
  · exact h
  · exact State.wf_trap h _ _
  · exact State.wf_block h _
  · exact State.wf_trap h _ _

/-- The replies to every context that waits for something. -/
theorem State.wf_replyAll {s : State} (h : s.wf = true) (p : Nat → Wait → Bool) : (s.replyAll p).wf = true := by
  unfold State.replyAll
  refine State.wf_foldl (fun s e h => ?_) _ h
  refine State.wf_foldl (fun s x h => ?_) _ h
  split
  · split
    · exact State.wf_reply h _ _
    · exact h
  · exact h

/-! ## The operations that write a memory -/

theorem State.wf_hitOwner {s : State} (h : s.wf = true) (k : Nat) (o : Owner) : (s.hitOwner k o).wf = true := by
  unfold State.hitOwner
  cases o with
  | slot x =>
    simp only
    split
    · exact State.wf_reply (State.wf_modCtx h) k x
    · exact State.wf_modCtx h
  | image off => exact State.wf_setMem h (Memory.wf_write _ _ (State.wf_mem h))

theorem State.wf_hits {s : State} (h : s.wf = true) (k off n : Nat) : (s.hits k off n).wf = true := by
  unfold State.hits
  refine State.wf_foldl (fun s e h => ?_) _ h
  split
  · exact State.wf_hitOwner h k _
  · exact h

theorem State.wf_spoilRing {s : State} (h : s.wf = true) (k off n : Nat) : (s.spoilRing k off n).wf = true := by
  simp only [State.spoilRing]
  split
  · exact State.wf_modCore h fun _ => rfl
  · exact h

theorem State.wf_storeLocal {s : State} (h : s.wf = true) (k off n v : Nat) : (s.storeLocal k off n v).wf = true :=
  State.wf_spoilRing (State.wf_hits (State.wf_setMem h (Memory.wf_writeNat _ n v (State.wf_mem h))) k off n) k off n

theorem State.wf_storeWindow {s : State} (h : s.wf = true) (k abs : Nat) (mask : LineMask) (data : LineData) :
    (s.storeWindow k abs mask data).wf = true := by
  simp only [State.storeWindow]
  refine State.wf_foldl (fun s e h => ?_) _
    (State.wf_spoilRing (State.wf_setMem h (Memory.wf_writeMask _ mask data 128 (State.wf_mem h))) k _ 128)
  split
  · exact State.wf_hitOwner h k _
  · exact h

theorem State.wf_keepView {s : State} (h : s.wf = true) (line key : Nat) : (s.keepView line key).wf = true := by
  unfold State.keepView
  repeat' split
  all_goals exact State.wf_congr (s := s) rfl rfl rfl h

theorem State.wf_usedChoice {s : State} (h : s.wf = true) (line key : Nat) : (s.usedChoice line key).wf = true := by
  unfold State.usedChoice
  repeat' split
  all_goals exact State.wf_congr (s := s) rfl rfl rfl h

theorem State.wf_writeLine {s : State} (h : s.wf = true) (line key : Nat) (mask : LineMask) (data : LineData) :
    (s.writeLine line key mask data).wf = true := by
  have set' {t : State} {m : Machine.Memory} {ks : List (Nat × Nat)} (ht : t.wf = true) (hm : m.wf = true) :
      ({ t with mem := m, keys := ks } : State).wf = true :=
    State.wf_congr (s := { t with mem := m }) rfl rfl rfl (State.wf_setMem ht hm)
  simp only [State.writeLine]
  split
  · exact set' h (Memory.wf_writeMask _ _ _ _ (State.wf_mem h))
  · have h' := State.wf_keepView (State.wf_usedChoice h line key) line key
    exact set' h' (Memory.wf_writeMask _ _ _ _ (State.wf_mem h'))

theorem State.wf_setCopy {s : State} (h : s.wf = true) (d : Nat) (l : LlcLine) : (s.setCopy d l).wf = true :=
  State.wf_setDie h _ _

theorem State.wf_albReturn {s : State} (h : s.wf = true) (d : Nat) (l : AlbLine) : (s.albReturn d l).wf = true := by
  simp only [State.albReturn]
  repeat' split
  all_goals first
    | exact State.wf_setCopy h _ _
    | exact State.wf_writeLine h _ _ _ _
    | exact State.wf_setLocus (State.wf_setCopy h _ _) _ _ _

theorem Core.wf_storeO {c : Core} (h : c.ostore.wf = true) (off n v : Nat) : (c.storeO off n v).ostore.wf = true :=
  Memory.wf_writeNat _ _ _ h

theorem Memory.wf_writeAll {m : Memory} (base : Nat) (l : List (Nat × Byte)) (h : m.wf = true) :
    (m.writeAll base l).wf = true := by
  induction l generalizing m with
  | nil => exact h
  | cons e t ih => exact ih (Memory.wf_write _ _ h)

theorem State.wf_placeImage {s : State} (h : s.wf = true) (c : PartCfg) : (s.placeImage c).wf = true :=
  State.wf_congr (s := { s with mem := s.mem.writeAll 0 c.image }) rfl rfl rfl
    (State.wf_setMem h (Memory.wf_writeAll 0 _ (State.wf_mem h)))

theorem State.wf_placeMap {s : State} (h : s.wf = true) (c : PartCfg) : (s.placeMap c).wf = true :=
  State.wf_congr (s := { s with mem := s.mem.writeNat (PartCfg.mapBase c) 0x10000 (s.coreMap c.num) }) rfl rfl rfl
    (State.wf_setMem h (Memory.wf_writeNat _ _ _ (State.wf_mem h)))

theorem State.wf_recap {s : State} (h : s.wf = true) : s.recap.wf = true := by
  have h' := (State.wf_iff s).mp h
  refine (State.wf_iff _).mpr ⟨h'.1, h'.2.1, fun e he => ?_⟩
  obtain ⟨o, ho, rfl⟩ := List.mem_map.mp he
  exact h'.2.2 o ho

theorem State.wf_spend {s : State} (h : s.wf = true) (d n : Nat) : (s.spend d n).wf = true :=
  State.wf_recap (State.wf_setDie h _ _)

theorem State.wf_bootCore {s : State} (h : s.wf = true) (c : PartCfg) (n : Nat) : (s.bootCore c n).wf = true := by
  unfold State.bootCore
  refine State.wf_setMem (State.wf_setCore h ?_) (Memory.wf_writeAll _ _ (State.wf_mem h))
  split <;> exact Memory.wf_writeAll _ _ rfl

theorem State.wf_answerLaunch {s : State} (h : s.wf = true) (b : Submitter) (code : Nat) :
    (s.answerLaunch b code).wf = true := by
  cases b with
  | token k x d => exact State.wf_token h k x d _
  | window p slot => exact State.wf_modPart h fun _ => rfl

theorem State.wf_submit {s : State} (h : s.wf = true) (b : Submitter) (p : Nat) (asid : BitVec 16) (raw : Nat) :
    (s.submit b p asid raw).wf = true := by
  unfold State.submit
  split
  · exact State.wf_answerLaunch h b 1
  · refine State.wf_foldl (fun s d h => State.wf_post h _) _ ?_
    exact State.wf_congr (s := s) rfl rfl rfl h

theorem State.wf_ring {s : State} (h : s.wf = true) (p slot : Nat) : (s.ring p slot).wf = true := by
  unfold State.ring
  extract_lets w raw
  split
  · exact h
  · apply State.wf_submit
    exact State.wf_modPart h fun _ => rfl

theorem State.wf_windowReg {s : State} (h : s.wf = true) (p off : Nat) (v : Word) : (s.windowReg p off v).wf = true := by
  simp only [State.windowReg]
  split
  · exact State.wf_ring h p _
  · repeat' split
    all_goals first
      | exact h
      | exact State.wf_modPart h fun _ => rfl
      | exact State.wf_congr (s := s.modPart p fun e => { e with win := { e.win with wres := 0xFF } }) rfl rfl rfl
          (State.wf_modPart h fun _ => rfl)

theorem State.wf_windowWrite {s : State} (h : s.wf = true) (p off : Nat) (mask : LineMask) (data : LineData) (n : Nat) :
    (s.windowWrite p off mask data n).wf = true := by
  induction n with
  | zero => exact h
  | succ n ih =>
    simp only [State.windowWrite]
    split
    · exact ih
    · split
      · exact State.wf_setPart ih (Memory.wf_writeMask _ _ _ _ (State.wf_slots ih p))
      · exact State.wf_windowReg ih p _ _

end Sys2Proof.Machine
end

