-- ==== Sys2Proof/Laws/PerInstr.lean ====
section
/-! SUPPORT. For each instruction, how many words it has: a step that no word encodes has none, and any
other instruction has a first word that says whether a second one follows (R29, R30). -/

namespace Sys2Proof.Laws.Words

/-- The words of an instruction: none, one short word, or a long one and its immediate. -/
def Statement (i : Instr) : Prop :=
  encode i = [] ∨ (∃ w, encode i = [w] ∧ isLong w = false) ∨ ∃ w j, encode i = [w, j] ∧ isLong w = true

/-- Whether a major is the major of a long word (R29). -/
def longMajor (op : BitVec 6) : Bool := 0x3C ≤ op.toNat && op.toNat ≤ 0x3E

/-! ## The major of each format of R30 -/

theorem fOp_regWord (op : BitVec 6) (d a b : Reg) (fn : BitVec 11) :
    fOp (regWord op d a b fn) = op := by
  refine BitVec.eq_of_getLsbD_eq fun i hi => ?_
  simp only [fOp, regWord, BitVec.getLsbD_extractLsb', BitVec.getLsbD_append]
  repeat rw [if_neg (by omega)]
  rw [show decide (i < 6) = true by simpa using hi, Bool.true_and]
  congr 1
  omega

theorem fOp_immWord (op : BitVec 6) (d a : Reg) (imm : BitVec 16) :
    fOp (immWord op d a imm) = op := by
  refine BitVec.eq_of_getLsbD_eq fun i hi => ?_
  simp only [fOp, immWord, BitVec.getLsbD_extractLsb', BitVec.getLsbD_append]
  repeat rw [if_neg (by omega)]
  rw [show decide (i < 6) = true by simpa using hi, Bool.true_and]
  congr 1
  omega

theorem fOp_memWord (op : BitVec 6) (d a : Reg) (sz : MSize) (sp : Space) (off : BitVec 11) :
    fOp (memWord op d a sz sp off) = op := by
  refine BitVec.eq_of_getLsbD_eq fun i hi => ?_
  simp only [fOp, memWord, BitVec.getLsbD_extractLsb', BitVec.getLsbD_append]
  repeat rw [if_neg (by omega)]
  rw [show decide (i < 6) = true by simpa using hi, Bool.true_and]
  congr 1
  omega

theorem fOp_jumpWord (op : BitVec 6) (off : BitVec 26) :
    fOp (jumpWord op off) = op := by
  refine BitVec.eq_of_getLsbD_eq fun i hi => ?_
  simp only [fOp, jumpWord, BitVec.getLsbD_extractLsb', BitVec.getLsbD_append]
  repeat rw [if_neg (by omega)]
  rw [show decide (i < 6) = true by simpa using hi, Bool.true_and]
  congr 1
  omega

theorem fOp_vecWord (op : BitVec 6) (d a b : Reg) (q : BitVec 2) (fn : BitVec 9) :
    fOp (vecWord op d a b q fn) = op := by
  refine BitVec.eq_of_getLsbD_eq fun i hi => ?_
  simp only [fOp, vecWord, BitVec.getLsbD_extractLsb', BitVec.getLsbD_append]
  repeat rw [if_neg (by omega)]
  rw [show decide (i < 6) = true by simpa using hi, Bool.true_and]
  congr 1
  omega

theorem fOp_engWord (op : BitVec 6) (d a b : Reg) (z : AccReg) (fn : BitVec 8) :
    fOp (engWord op d a b z fn) = op := by
  refine BitVec.eq_of_getLsbD_eq fun i hi => ?_
  simp only [fOp, engWord, BitVec.getLsbD_extractLsb', BitVec.getLsbD_append]
  repeat rw [if_neg (by omega)]
  rw [show decide (i < 6) = true by simpa using hi, Bool.true_and]
  congr 1
  omega

theorem fOp_ctlWord (d a : Reg) (cf : BitVec 4) (k : BitVec 12) : fOp (ctlWord d a cf k) = 0x1F := by
  refine BitVec.eq_of_getLsbD_eq fun i hi => ?_
  simp only [fOp, ctlWord, BitVec.getLsbD_extractLsb', BitVec.getLsbD_append]
  repeat rw [if_neg (by omega)]
  rw [show decide (i < 6) = true by simpa using hi, Bool.true_and]
  congr 1
  omega

theorem isLong_eq (w : W32) : isLong w = longMajor (fOp w) := rfl

/-! ## One short word, or a long one -/

theorem short_regWord {i : Instr} {op : BitVec 6} {d a b : Reg} {fn : BitVec 11} (h : longMajor op = false) 
    (hi : encode i = [regWord op d a b fn]) : Statement i :=
  .inr (.inl ⟨_, hi, by rw [isLong_eq, fOp_regWord]; exact h⟩)

theorem short_immWord {i : Instr} {op : BitVec 6} {d a : Reg} {imm : BitVec 16} (h : longMajor op = false) 
    (hi : encode i = [immWord op d a imm]) : Statement i :=
  .inr (.inl ⟨_, hi, by rw [isLong_eq, fOp_immWord]; exact h⟩)

theorem short_memWord {i : Instr} {op : BitVec 6} {d a : Reg} {sz : MSize} {sp : Space} {off : BitVec 11} (h : longMajor op = false) 
    (hi : encode i = [memWord op d a sz sp off]) : Statement i :=
  .inr (.inl ⟨_, hi, by rw [isLong_eq, fOp_memWord]; exact h⟩)

theorem short_jumpWord {i : Instr} {op : BitVec 6} {off : BitVec 26} (h : longMajor op = false) 
    (hi : encode i = [jumpWord op off]) : Statement i :=
  .inr (.inl ⟨_, hi, by rw [isLong_eq, fOp_jumpWord]; exact h⟩)

theorem short_vecWord {i : Instr} {op : BitVec 6} {d a b : Reg} {q : BitVec 2} {fn : BitVec 9} (h : longMajor op = false) 
    (hi : encode i = [vecWord op d a b q fn]) : Statement i :=
  .inr (.inl ⟨_, hi, by rw [isLong_eq, fOp_vecWord]; exact h⟩)

theorem short_engWord {i : Instr} {op : BitVec 6} {d a b : Reg} {z : AccReg} {fn : BitVec 8} (h : longMajor op = false) 
    (hi : encode i = [engWord op d a b z fn]) : Statement i :=
  .inr (.inl ⟨_, hi, by rw [isLong_eq, fOp_engWord]; exact h⟩)

theorem short_ctlWord {i : Instr} {d a : Reg} {cf : BitVec 4} {k : BitVec 12} 
    (hi : encode i = [ctlWord d a cf k]) : Statement i :=
  .inr (.inl ⟨_, hi, by rw [isLong_eq, fOp_ctlWord]; exact rfl⟩)

theorem long_immWord {i : Instr} {op : BitVec 6} {d a : Reg} {imm : BitVec 16} {j : W32}
    (h : longMajor op = true) (hi : encode i = [immWord op d a imm, j]) : Statement i :=
  .inr (.inr ⟨_, _, hi, by rw [isLong_eq, fOp_immWord]; exact h⟩)

/-! ## Instruction by instruction -/

theorem timerArm (k n : Nat) : Statement (.timerArm k n) := .inl rfl
theorem timerDisarm (k : Nat) : Statement (.timerDisarm k) := .inl rfl
theorem spawnAnswer (k c : Nat) : Statement (.spawnAnswer k c) := .inl rfl
theorem bctabWrite (k : Nat) (x : Slot) (asid : Nat) (v : Word) : Statement (.bctabWrite k x asid v) := .inl rfl
theorem reclaimWrite (k : Nat) (x : Slot) (asid : Nat) (v : Word) : Statement (.reclaimWrite k x asid v) := .inl rfl
theorem migStart (p : Nat) : Statement (.migStart p) := .inl rfl
theorem migRelease (p : Nat) : Statement (.migRelease p) := .inl rfl
theorem migClear (p : Nat) : Statement (.migClear p) := .inl rfl
theorem migLineMove (p : Nat) : Statement (.migLineMove p) := .inl rfl
theorem migReleaseComplete (p : Nat) : Statement (.migReleaseComplete p) := .inl rfl
theorem timerExpiry (k : Nat) : Statement (.timerExpiry k) := .inl rfl
theorem eventRedirect (k : Nat) : Statement (.eventRedirect k) := .inl rfl
theorem blockTimeout (k : Nat) (x : Slot) : Statement (.blockTimeout k x) := .inl rfl
theorem replyArrival (k : Nat) (x : Slot) : Statement (.replyArrival k x) := .inl rfl
theorem storeEcho (k : Nat) (x : Slot) (home : Home) (lost : Option Nat) : Statement (.storeEcho k x home lost) :=
  .inl rfl
theorem postedWriteArrival (w : Posted) : Statement (.postedWriteArrival w) := .inl rfl
theorem spillImageWrite (k : Nat) (x : Slot) : Statement (.spillImageWrite k x) := .inl rfl
theorem fillComplete (k : Nat) (x : Slot) : Statement (.fillComplete k x) := .inl rfl
theorem contextEnd (k : Nat) (x : Slot) : Statement (.contextEnd k x) := .inl rfl
theorem msgDecApply (src k off : Nat) : Statement (.msgDecApply src k off) := .inl rfl
theorem msgIncApply (src k off : Nat) : Statement (.msgIncApply src k off) := .inl rfl
theorem msgPutApply (src k off : Nat) (v : Word) : Statement (.msgPutApply src k off v) := .inl rfl
theorem spawnRequestArrival (r : SpawnReq) : Statement (.spawnRequestArrival r) := .inl rfl
theorem spawnAnswerArrival (k : Nat) (x : Slot) (id : Nat) (ans : Option Nat) : Statement (.spawnAnswerArrival k x id ans) :=
  .inl rfl
theorem spawnWithdrawal (k : Nat) (x : Slot) (id target : Nat) : Statement (.spawnWithdrawal k x id target) :=
  .inl rfl
theorem launchDieAccept (id die : Nat) : Statement (.launchDieAccept id die) := .inl rfl
theorem launchShareStart (id core inst : Nat) : Statement (.launchShareStart id core inst) := .inl rfl
theorem launchWindowClose (id inst : Nat) : Statement (.launchWindowClose id inst) := .inl rfl
theorem launchQuadReport (id quad inst : Nat) : Statement (.launchQuadReport id quad inst) := .inl rfl
theorem launchDieReport (id die inst : Nat) : Statement (.launchDieReport id die inst) := .inl rfl
theorem launchCompletionWrite (id inst : Nat) : Statement (.launchCompletionWrite id inst) := .inl rfl
theorem reservationHead (l : Tagged) : Statement (.reservationHead l) := .inl rfl
theorem writebackRequest (owner : Nat) (k : Nat) (x : Slot) (a : Ask) : Statement (.writebackRequest owner k x a) :=
  .inl rfl
theorem writebackAcknowledgement (owner : Nat) (c : Nat × Slot) (a : Ask) : Statement (.writebackAcknowledgement owner c a) :=
  .inl rfl
theorem reservationGrant (k : Nat) (x : Slot) (a : Ask) (adv : Bool) : Statement (.reservationGrant k x a adv) :=
  .inl rfl
theorem generationAdvance (k : Nat) (x : Slot) (a : Ask) : Statement (.generationAdvance k x a) := .inl rfl
theorem scrHomeUpdate (k : Nat) (x : Slot) (pa : Nat) (v : Word) : Statement (.scrHomeUpdate k x pa v) := .inl rfl
theorem l1Sweep (core part : Nat) : Statement (.l1Sweep core part) := .inl rfl
theorem llcLocusEviction (l : Tagged) : Statement (.llcLocusEviction l) := .inl rfl
theorem l1Eviction (core part asid vline : Nat) : Statement (.l1Eviction core part asid vline) := .inl rfl
theorem atomicLineRecall (core line : Nat) : Statement (.atomicLineRecall core line) := .inl rfl
theorem fenceProbe (k : Nat) (x : Slot) : Statement (.fenceProbe k x) := .inl rfl
theorem linkRecoveryTimeout (m : Nat) : Statement (.linkRecoveryTimeout m) := .inl rfl
theorem waitHomeCompare (k : Nat) (x : Slot) (va : Nat) (a : Ask) (expect : Word) (d : Reg) : Statement (.waitHomeCompare k x va a expect d) :=
  .inl rfl
theorem wakeHome (who : WakeBy) (part asid va : Nat) (max : Nat) : Statement (.wakeHome who part asid va max) :=
  .inl rfl
theorem rds (h : Hdr) (line : Nat) : Statement (.rds h line) := .inl rfl
theorem rdx (h : Hdr) (line : Nat) : Statement (.rdx h line) := .inl rfl
theorem wbd (h : Hdr) (line : Nat) (data : LineData) : Statement (.wbd h line data) := .inl rfl
theorem notice (h : Hdr) (line : Nat) : Statement (.notice h line) := .inl rfl
theorem fwds (r : Envelope) (req line : Nat) (st : HState) (after : Nat) : Statement (.fwds r req line st after) :=
  .inl rfl
theorem fwdx (r : Envelope) (req line : Nat) (st : HState) (after : Nat) : Statement (.fwdx r req line st after) :=
  .inl rfl
theorem inv (r : Envelope) (req line : Nat) : Statement (.inv r req line) := .inl rfl
theorem rcl (h : Hdr) (line : Nat) (st : HState) (after : Nat) : Statement (.rcl h line st after) := .inl rfl
theorem probe (h : Hdr) (line : Nat) : Statement (.probe h line) := .inl rfl
theorem hrd (h : Hdr) (line : Nat) (excl : Bool) (counts : Bool) : Statement (.hrd h line excl counts) := .inl rfl
theorem hwb (h : Hdr) (o : HomeOp) (data : LineData) (clear : Bool) : Statement (.hwb h o data clear) := .inl rfl
theorem hclr (h : Hdr) (o : HomeOp) : Statement (.hclr h o) := .inl rfl
theorem data (r : Envelope) (req line : Nat) (data : LineData) (dirty ack excl : Bool) : Statement (.data r req line data dirty ack excl) :=
  .inl rfl
theorem invack (r : Envelope) (req line : Nat) : Statement (.invack r req line) := .inl rfl
theorem nodata (r : Envelope) (req line : Nat) (f : FwdKind) (st : HState) (after : Nat) : Statement (.nodata r req line f st after) :=
  .inl rfl
theorem probeack (h : Hdr) (line : Nat) (st : PState) (data : LineData) (pend : Bool) : Statement (.probeack h line st data pend) :=
  .inl rfl
theorem hack (h : Hdr) (o : HomeOp) : Statement (.hack h o) := .inl rfl
theorem grant (h : Hdr) (line n : Nat) : Statement (.grant h line n) := .inl rfl
theorem wback (h : Hdr) (line : Nat) (dropped : Bool) : Statement (.wback h line dropped) := .inl rfl
theorem rel (h : Hdr) (line : Nat) : Statement (.rel h line) := .inl rfl
theorem hubFailureDeclaration (die hub : Nat) : Statement (.hubFailureDeclaration die hub) := .inl rfl
theorem hubFailureReport (hub : Nat) : Statement (.hubFailureReport hub) := .inl rfl
theorem switchFailure (mods : List Nat) : Statement (.switchFailure mods) := .inl rfl
theorem mtxEntryExecute (k : Nat) : Statement (.mtxEntryExecute k) := .inl rfl
theorem jobStart (k id : Nat) : Statement (.jobStart k id) := .inl rfl
theorem jobComplete (k id : Nat) : Statement (.jobComplete k id) := .inl rfl
theorem jobFault (k id detail : Nat) : Statement (.jobFault k id detail) := .inl rfl
theorem holdRelease (k id : Nat) : Statement (.holdRelease k id) := .inl rfl
theorem reclaimPush (k id : Nat) (v : Word) : Statement (.reclaimPush k id v) := .inl rfl
theorem translationWalk (r : XReq) : Statement (.translationWalk r) := .inl rfl
theorem faultRecordPost (f : FaultRec) : Statement (.faultRecordPost f) := .inl rfl
theorem faultReply (f : FaultRec) (code : Nat) : Statement (.faultReply f code) := .inl rfl
theorem uncorrectableError (k : Nat) (u : Unit2) : Statement (.uncorrectableError k u) := .inl rfl
theorem machineCheck (k : Nat) (x : Slot) (c : CheckOf) : Statement (.machineCheck k x c) := .inl rfl
theorem machineCheckReply (k : Nat) (x : Slot) (source code : Nat) : Statement (.machineCheckReply k x source code) :=
  .inl rfl
theorem fatalMachineCheck (p : Nat) : Statement (.fatalMachineCheck p) := .inl rfl
theorem partitionSwap (die : Nat) : Statement (.partitionSwap die) := .inl rfl
theorem partitionConfigure (cs : List PartCfg) : Statement (.partitionConfigure cs) := .inl rfl
theorem partitionReset (r : ResetOf) : Statement (.partitionReset r) := .inl rfl
theorem hostBar2Write (p off n v : Nat) : Statement (.hostBar2Write p off n v) := .inl rfl
theorem hostBar2Read (p off : Nat) (r : HostRead) : Statement (.hostBar2Read p off r) := .inl rfl
theorem ldoor (p slot : Nat) : Statement (.ldoor p slot) := .inl rfl
theorem wcmdAdd (p : Nat) : Statement (.wcmdAdd p) := .inl rfl
theorem wcmdRemove (p : Nat) : Statement (.wcmdRemove p) := .inl rfl
theorem launchWindowWrite (p off n : Nat) (v : Option Word) : Statement (.launchWindowWrite p off n v) := .inl rfl
theorem getVersion (u : Asked) : Statement (.getVersion u) := .inl rfl
theorem getCapabilities (u : Asked) : Statement (.getCapabilities u) := .inl rfl
theorem negotiateAlgorithms (u : Asked) (ecdsaP256 sha256 : Bool) : Statement (.negotiateAlgorithms u ecdsaP256 sha256) :=
  .inl rfl
theorem getDigests (u : Asked) : Statement (.getDigests u) := .inl rfl
theorem getCertificate (u : Asked) (slot : Nat) : Statement (.getCertificate u slot) := .inl rfl
theorem challenge (u : Asked) (slot : Nat) : Statement (.challenge u slot) := .inl rfl
theorem getMeasurements (u : Asked) (index : Nat) : Statement (.getMeasurements u index) := .inl rfl
theorem keyExchange (u : KeyAsk) : Statement (.keyExchange u) := .inl rfl
theorem finish (u : Asked) (session : Nat) : Statement (.finish u session) := .inl rfl
theorem endSession (u : Asked) (session : Nat) : Statement (.endSession u session) := .inl rfl
theorem ptmRequest : Statement .ptmRequest := .inl rfl
theorem moduleTimeCorrection (t : SourceTime) : Statement (.moduleTimeCorrection t) := .inl rfl
theorem timeSourceLoss : Statement .timeSourceLoss := .inl rfl
theorem moduleReset : Statement .moduleReset := .inl rfl
theorem powerInterval (projected : Nat) (demand : List Nat) : Statement (.powerInterval projected demand) := .inl rfl
theorem temperatureHigh (die : Nat) : Statement (.temperatureHigh die) := .inl rfl
theorem thermalTrip (u : Nat) : Statement (.thermalTrip u) := .inl rfl
theorem coolantFlowLoss : Statement .coolantFlowLoss := .inl rfl
theorem managementSetLimit (ethernet : Option Nat) (r : Mgmt) : Statement (.managementSetLimit ethernet r) := .inl rfl
theorem illegalInstruction (w0 w1 : W32) : Statement (.illegalInstruction w0 w1) := .inl rfl
theorem llcEviction (die : Nat) (l : Tagged) : Statement (.llcEviction die l) := .inl rfl
theorem tdispRequest (p : Nat) (r : TdispReq) : Statement (.tdispRequest p r) := .inl rfl
theorem ideKeyProgram (f : Via) (session : Nat) : Statement (.ideKeyProgram f session) := .inl rfl
theorem ieee1588Message (p : PtpAt) (m : PtpMsg) : Statement (.ieee1588Message p m) := .inl rfl
theorem dieBelow100c (die : Nat) : Statement (.dieBelow100c die) := .inl rfl
theorem aluAdd (d a b : Reg) : Statement (.aluAdd d a b) := short_regWord rfl rfl
theorem aluSub (d a b : Reg) : Statement (.aluSub d a b) := short_regWord rfl rfl
theorem aluAnd (d a b : Reg) : Statement (.aluAnd d a b) := short_regWord rfl rfl
theorem aluOr (d a b : Reg) : Statement (.aluOr d a b) := short_regWord rfl rfl
theorem aluXor (d a b : Reg) : Statement (.aluXor d a b) := short_regWord rfl rfl
theorem aluAndn (d a b : Reg) : Statement (.aluAndn d a b) := short_regWord rfl rfl
theorem aluShl (d a b : Reg) : Statement (.aluShl d a b) := short_regWord rfl rfl
theorem aluShr (d a b : Reg) : Statement (.aluShr d a b) := short_regWord rfl rfl
theorem aluSar (d a b : Reg) : Statement (.aluSar d a b) := short_regWord rfl rfl
theorem aluAddw (d a b : Reg) : Statement (.aluAddw d a b) := short_regWord rfl rfl
theorem aluSubw (d a b : Reg) : Statement (.aluSubw d a b) := short_regWord rfl rfl
theorem aluShlw (d a b : Reg) : Statement (.aluShlw d a b) := short_regWord rfl rfl
theorem aluShrw (d a b : Reg) : Statement (.aluShrw d a b) := short_regWord rfl rfl
theorem aluSarw (d a b : Reg) : Statement (.aluSarw d a b) := short_regWord rfl rfl
theorem aluMin (d a b : Reg) : Statement (.aluMin d a b) := short_regWord rfl rfl
theorem aluMax (d a b : Reg) : Statement (.aluMax d a b) := short_regWord rfl rfl
theorem aluMinu (d a b : Reg) : Statement (.aluMinu d a b) := short_regWord rfl rfl
theorem aluMaxu (d a b : Reg) : Statement (.aluMaxu d a b) := short_regWord rfl rfl
theorem aluSel (d a b : Reg) : Statement (.aluSel d a b) := short_regWord rfl rfl
theorem mulMul (d a b : Reg) : Statement (.mulMul d a b) := short_regWord rfl rfl
theorem mulMulh (d a b : Reg) : Statement (.mulMulh d a b) := short_regWord rfl rfl
theorem mulMulhu (d a b : Reg) : Statement (.mulMulhu d a b) := short_regWord rfl rfl
theorem mulMulw (d a b : Reg) : Statement (.mulMulw d a b) := short_regWord rfl rfl
theorem mulDiv (d a b : Reg) : Statement (.mulDiv d a b) := short_regWord rfl rfl
theorem mulDivu (d a b : Reg) : Statement (.mulDivu d a b) := short_regWord rfl rfl
theorem mulRem (d a b : Reg) : Statement (.mulRem d a b) := short_regWord rfl rfl
theorem mulRemu (d a b : Reg) : Statement (.mulRemu d a b) := short_regWord rfl rfl
theorem cmpEq (d a b : Reg) : Statement (.cmpEq d a b) := short_regWord rfl rfl
theorem cmpNe (d a b : Reg) : Statement (.cmpNe d a b) := short_regWord rfl rfl
theorem cmpLt (d a b : Reg) : Statement (.cmpLt d a b) := short_regWord rfl rfl
theorem cmpLtu (d a b : Reg) : Statement (.cmpLtu d a b) := short_regWord rfl rfl
theorem cmpLe (d a b : Reg) : Statement (.cmpLe d a b) := short_regWord rfl rfl
theorem cmpLeu (d a b : Reg) : Statement (.cmpLeu d a b) := short_regWord rfl rfl
theorem bitExt (d a b : Reg) : Statement (.bitExt d a b) := short_regWord rfl rfl
theorem bitExtu (d a b : Reg) : Statement (.bitExtu d a b) := short_regWord rfl rfl
theorem bitIns (d a b : Reg) : Statement (.bitIns d a b) := short_regWord rfl rfl
theorem bitClz (d a : Reg) : Statement (.bitClz d a) := short_regWord rfl rfl
theorem bitCtz (d a : Reg) : Statement (.bitCtz d a) := short_regWord rfl rfl
theorem bitPop (d a : Reg) : Statement (.bitPop d a) := short_regWord rfl rfl
theorem bitBswap (d a : Reg) : Statement (.bitBswap d a) := short_regWord rfl rfl
theorem aliAdd (d a : Reg) (i : BitVec 16) : Statement (.aliAdd d a i) := short_immWord rfl rfl
theorem aliAnd (d a : Reg) (i : BitVec 16) : Statement (.aliAnd d a i) := short_immWord rfl rfl
theorem aliOr (d a : Reg) (i : BitVec 16) : Statement (.aliOr d a i) := short_immWord rfl rfl
theorem aliXor (d a : Reg) (i : BitVec 16) : Statement (.aliXor d a i) := short_immWord rfl rfl
theorem aliShl (d a : Reg) (i : BitVec 6) : Statement (.aliShl d a i) := short_immWord rfl rfl
theorem aliShr (d a : Reg) (i : BitVec 6) : Statement (.aliShr d a i) := short_immWord rfl rfl
theorem aliSar (d a : Reg) (i : BitVec 6) : Statement (.aliSar d a i) := short_immWord rfl rfl
theorem aliAddw (d a : Reg) (i : BitVec 16) : Statement (.aliAddw d a i) := short_immWord rfl rfl
theorem aliLui (d : Reg) (i : BitVec 16) : Statement (.aliLui d i) := short_immWord rfl rfl
theorem aliSlt (d a : Reg) (i : BitVec 16) : Statement (.aliSlt d a i) := short_immWord rfl rfl
theorem lngLi (d : Reg) (i : BitVec 32) : Statement (.lngLi d i) := long_immWord rfl rfl
theorem lngLih (d a : Reg) (i : BitVec 32) : Statement (.lngLih d a i) := long_immWord rfl rfl
theorem lngAdd (d a : Reg) (i : BitVec 32) : Statement (.lngAdd d a i) := long_immWord rfl rfl
theorem lngAnd (d a : Reg) (i : BitVec 32) : Statement (.lngAnd d a i) := long_immWord rfl rfl
theorem lngOr (d a : Reg) (i : BitVec 32) : Statement (.lngOr d a i) := long_immWord rfl rfl
theorem lngXor (d a : Reg) (i : BitVec 32) : Statement (.lngXor d a i) := long_immWord rfl rfl
theorem lngCall (d : Reg) (i : BitVec 32) : Statement (.lngCall d i) := long_immWord rfl rfl
theorem lngJmp (i : BitVec 32) : Statement (.lngJmp i) := long_immWord rfl rfl
theorem lngLa (d : Reg) (i : BitVec 32) : Statement (.lngLa d i) := long_immWord rfl rfl
theorem brcEq (a b : Reg) (o : BitVec 16) : Statement (.brcEq a b o) := short_immWord rfl rfl
theorem brcNe (a b : Reg) (o : BitVec 16) : Statement (.brcNe a b o) := short_immWord rfl rfl
theorem jmp (o : BitVec 26) : Statement (.jmp o) := short_jumpWord rfl rfl
theorem ctlJr (a : Reg) (k : BitVec 12) : Statement (.ctlJr a k) := short_ctlWord rfl
theorem ctlCallr (d a : Reg) (k : BitVec 12) : Statement (.ctlCallr d a k) := short_ctlWord rfl
theorem ctlRet (k : BitVec 12) : Statement (.ctlRet k) := short_ctlWord rfl
theorem ctlJt (d a : Reg) : Statement (.ctlJt d a) := short_ctlWord rfl
theorem ctlLoop (d : Reg) (l : Level) (n : BitVec 11) : Statement (.ctlLoop d l n) := short_ctlWord rfl
theorem ctlLexit : Statement .ctlLexit := short_ctlWord rfl
theorem ctlLpad (label : BitVec 16) : Statement (.ctlLpad label) := short_ctlWord rfl
theorem memLd (d a : Reg) (sz : MSize) (sp : Space) (o : BitVec 11) : Statement (.memLd d a sz sp o) :=
  short_memWord rfl rfl
theorem memLds (d a : Reg) (sz : MSize) (sp : Space) (o : BitVec 11) : Statement (.memLds d a sz sp o) :=
  short_memWord rfl rfl
theorem memSt (d a : Reg) (sz : MSize) (sp : Space) (o : BitVec 11) : Statement (.memSt d a sz sp o) :=
  short_memWord rfl rfl
theorem memWb (a b : Reg) : Statement (.memWb a b) := short_regWord rfl rfl
theorem memInv (a b : Reg) : Statement (.memInv a b) := short_regWord rfl rfl
theorem memPf (a : Reg) : Statement (.memPf a) := short_regWord rfl rfl
theorem memZero (a : Reg) : Statement (.memZero a) := short_regWord rfl rfl
theorem atmSwap (d a b : Reg) (sz : ASize) (mo : MOrder) : Statement (.atmSwap d a b sz mo) := short_regWord rfl rfl
theorem atmCas (d a b : Reg) (sz : ASize) (mo : MOrder) : Statement (.atmCas d a b sz mo) := short_regWord rfl rfl
theorem atmAdd (d a b : Reg) (sz : ASize) (mo : MOrder) : Statement (.atmAdd d a b sz mo) := short_regWord rfl rfl
theorem atmAnd (d a b : Reg) (sz : ASize) (mo : MOrder) : Statement (.atmAnd d a b sz mo) := short_regWord rfl rfl
theorem atmOr (d a b : Reg) (sz : ASize) (mo : MOrder) : Statement (.atmOr d a b sz mo) := short_regWord rfl rfl
theorem atmXor (d a b : Reg) (sz : ASize) (mo : MOrder) : Statement (.atmXor d a b sz mo) := short_regWord rfl rfl
theorem atmMin (d a b : Reg) (sz : ASize) (mo : MOrder) : Statement (.atmMin d a b sz mo) := short_regWord rfl rfl
theorem atmMax (d a b : Reg) (sz : ASize) (mo : MOrder) : Statement (.atmMax d a b sz mo) := short_regWord rfl rfl
theorem atmMinu (d a b : Reg) (sz : ASize) (mo : MOrder) : Statement (.atmMinu d a b sz mo) := short_regWord rfl rfl
theorem atmMaxu (d a b : Reg) (sz : ASize) (mo : MOrder) : Statement (.atmMaxu d a b sz mo) := short_regWord rfl rfl
theorem synLrw (d a : Reg) : Statement (.synLrw d a) := short_regWord rfl rfl
theorem synScr (d a b : Reg) : Statement (.synScr d a b) := short_regWord rfl rfl
theorem synFence (c : Scope) : Statement (.synFence c) := short_regWord rfl rfl
theorem synWait (d a b : Reg) (c : Scope) : Statement (.synWait d a b c) := short_regWord rfl rfl
theorem synWake (d a b : Reg) (c : Scope) : Statement (.synWake d a b c) := short_regWord rfl rfl
theorem thrStart (d a : Reg) : Statement (.thrStart d a) := short_regWord rfl rfl
theorem thrStop (d : Reg) : Statement (.thrStop d) := short_regWord rfl rfl
theorem thrCont (d : Reg) : Statement (.thrCont d) := short_regWord rfl rfl
theorem thrSpill (d a b : Reg) : Statement (.thrSpill d a b) := short_regWord rfl rfl
theorem thrFill (d a b : Reg) : Statement (.thrFill d a b) := short_regWord rfl rfl
theorem thrExit : Statement .thrExit := short_regWord rfl rfl
theorem thrReap (d : Reg) : Statement (.thrReap d) := short_regWord rfl rfl
theorem thrRqpop (d : Reg) : Statement (.thrRqpop d) := short_regWord rfl rfl
theorem thrWatch (d : Reg) : Statement (.thrWatch d) := short_regWord rfl rfl
theorem thrUnwatch (d : Reg) : Statement (.thrUnwatch d) := short_regWord rfl rfl
theorem thrWait : Statement .thrWait := short_regWord rfl rfl
theorem thrIdle : Statement .thrIdle := short_regWord rfl rfl
theorem thrSpawn (d a b : Reg) : Statement (.thrSpawn d a b) := short_regWord rfl rfl
theorem thrLaunch (d a : Reg) : Statement (.thrLaunch d a) := short_regWord rfl rfl
theorem thrBind (d a : Reg) : Statement (.thrBind d a) := short_regWord rfl rfl
theorem thrSemp (d : Reg) : Statement (.thrSemp d) := short_regWord rfl rfl
theorem thrSemv (d : Reg) : Statement (.thrSemv d) := short_regWord rfl rfl
theorem thrYield : Statement .thrYield := short_regWord rfl rfl
theorem msgDec (d a : Reg) : Statement (.msgDec d a) := short_regWord rfl rfl
theorem msgPut (d a b : Reg) : Statement (.msgPut d a b) := short_regWord rfl rfl
theorem msgInc (d a : Reg) : Statement (.msgInc d a) := short_regWord rfl rfl
theorem barSync (d a b : Reg) (c : Scope) : Statement (.barSync d a b c) := short_regWord rfl rfl
theorem barInit (d a : Reg) : Statement (.barInit d a) := short_regWord rfl rfl
theorem barArrive (d a : Reg) : Statement (.barArrive d a) := short_regWord rfl rfl
theorem barWait (d a b : Reg) : Statement (.barWait d a b) := short_regWord rfl rfl
theorem barExpect (d a : Reg) : Statement (.barExpect d a) := short_regWord rfl rfl
theorem barAbort (d : Reg) : Statement (.barAbort d) := short_regWord rfl rfl
theorem sysSrrd (d : Reg) (idx : BitVec 12) : Statement (.sysSrrd d idx) := short_immWord rfl rfl
theorem sysSrwr (d : Reg) (idx : BitVec 12) : Statement (.sysSrwr d idx) := short_immWord rfl rfl
theorem sysNow (d : Reg) : Statement (.sysNow d) := short_immWord rfl rfl
theorem sysCapq (d a : Reg) : Statement (.sysCapq d a) := short_immWord rfl rfl
theorem sysXinv (d a : Reg) : Statement (.sysXinv d a) := short_immWord rfl rfl
theorem sysPgref (d a : Reg) : Statement (.sysPgref d a) := short_immWord rfl rfl
theorem sysIflush : Statement .sysIflush := short_immWord rfl rfl
theorem sysScall (a : Reg) : Statement (.sysScall a) := short_immWord rfl rfl
theorem sysBrk : Statement .sysBrk := short_immWord rfl rfl
theorem sysFreply (d a : Reg) : Statement (.sysFreply d a) := short_immWord rfl rfl
theorem vfpAdd (d a b : Reg) (q : BitVec 2) (grp : BitVec 3) : Statement (.vfpAdd d a b q grp) :=
  short_vecWord rfl rfl
theorem vfpSub (d a b : Reg) (q : BitVec 2) (grp : BitVec 3) : Statement (.vfpSub d a b q grp) :=
  short_vecWord rfl rfl
theorem vfpMul (d a b : Reg) (q : BitVec 2) (grp : BitVec 3) : Statement (.vfpMul d a b q grp) :=
  short_vecWord rfl rfl
theorem vfpFma (d a b : Reg) (q : BitVec 2) (grp : BitVec 3) : Statement (.vfpFma d a b q grp) :=
  short_vecWord rfl rfl
theorem vfpFms (d a b : Reg) (q : BitVec 2) (grp : BitVec 3) : Statement (.vfpFms d a b q grp) :=
  short_vecWord rfl rfl
theorem vfpMin (d a b : Reg) (q : BitVec 2) (grp : BitVec 3) : Statement (.vfpMin d a b q grp) :=
  short_vecWord rfl rfl
theorem vfpMax (d a b : Reg) (q : BitVec 2) (grp : BitVec 3) : Statement (.vfpMax d a b q grp) :=
  short_vecWord rfl rfl
theorem vfpAbs (d a : Reg) (q : BitVec 2) (grp : BitVec 3) : Statement (.vfpAbs d a q grp) := short_vecWord rfl rfl
theorem vfpNeg (d a : Reg) (q : BitVec 2) (grp : BitVec 3) : Statement (.vfpNeg d a q grp) := short_vecWord rfl rfl
theorem vfpDiv (d a b : Reg) (q : BitVec 2) (grp : BitVec 3) : Statement (.vfpDiv d a b q grp) :=
  short_vecWord rfl rfl
theorem vfpSqrt (d a : Reg) (q : BitVec 2) (grp : BitVec 3) : Statement (.vfpSqrt d a q grp) := short_vecWord rfl rfl
theorem vfpExp2 (d a : Reg) (q : BitVec 2) (grp : BitVec 3) : Statement (.vfpExp2 d a q grp) := short_vecWord rfl rfl
theorem vfpCeq (d : QReg) (a b : Reg) (q : BitVec 2) : Statement (.vfpCeq d a b q) := short_vecWord rfl rfl
theorem vfpClt (d : QReg) (a b : Reg) (q : BitVec 2) : Statement (.vfpClt d a b q) := short_vecWord rfl rfl
theorem vfpCle (d : QReg) (a b : Reg) (q : BitVec 2) : Statement (.vfpCle d a b q) := short_vecWord rfl rfl
theorem vinAdd (d a b : Reg) (q : BitVec 2) (grp : BitVec 3) : Statement (.vinAdd d a b q grp) :=
  short_vecWord rfl rfl
theorem vinSub (d a b : Reg) (q : BitVec 2) (grp : BitVec 3) : Statement (.vinSub d a b q grp) :=
  short_vecWord rfl rfl
theorem vinMul (d a b : Reg) (q : BitVec 2) (grp : BitVec 3) : Statement (.vinMul d a b q grp) :=
  short_vecWord rfl rfl
theorem vinMulh (d a b : Reg) (q : BitVec 2) (grp : BitVec 3) : Statement (.vinMulh d a b q grp) :=
  short_vecWord rfl rfl
theorem vinAnd (d a b : Reg) (q : BitVec 2) (grp : BitVec 3) : Statement (.vinAnd d a b q grp) :=
  short_vecWord rfl rfl
theorem vinOr (d a b : Reg) (q : BitVec 2) (grp : BitVec 3) : Statement (.vinOr d a b q grp) := short_vecWord rfl rfl
theorem vinXor (d a b : Reg) (q : BitVec 2) (grp : BitVec 3) : Statement (.vinXor d a b q grp) :=
  short_vecWord rfl rfl
theorem vinShl (d a b : Reg) (q : BitVec 2) (grp : BitVec 3) : Statement (.vinShl d a b q grp) :=
  short_vecWord rfl rfl
theorem vinShr (d a b : Reg) (q : BitVec 2) (grp : BitVec 3) : Statement (.vinShr d a b q grp) :=
  short_vecWord rfl rfl
theorem vinSar (d a b : Reg) (q : BitVec 2) (grp : BitVec 3) : Statement (.vinSar d a b q grp) :=
  short_vecWord rfl rfl
theorem vinMin (d a b : Reg) (q : BitVec 2) (grp : BitVec 3) : Statement (.vinMin d a b q grp) :=
  short_vecWord rfl rfl
theorem vinMax (d a b : Reg) (q : BitVec 2) (grp : BitVec 3) : Statement (.vinMax d a b q grp) :=
  short_vecWord rfl rfl
theorem vinMinu (d a b : Reg) (q : BitVec 2) (grp : BitVec 3) : Statement (.vinMinu d a b q grp) :=
  short_vecWord rfl rfl
theorem vinMaxu (d a b : Reg) (q : BitVec 2) (grp : BitVec 3) : Statement (.vinMaxu d a b q grp) :=
  short_vecWord rfl rfl
theorem vinAdds (d a b : Reg) (q : BitVec 2) (grp : BitVec 3) : Statement (.vinAdds d a b q grp) :=
  short_vecWord rfl rfl
theorem vinSubs (d a b : Reg) (q : BitVec 2) (grp : BitVec 3) : Statement (.vinSubs d a b q grp) :=
  short_vecWord rfl rfl
theorem vinCeq (d : QReg) (a b : Reg) (q : BitVec 2) : Statement (.vinCeq d a b q) := short_vecWord rfl rfl
theorem vinClt (d : QReg) (a b : Reg) (q : BitVec 2) : Statement (.vinClt d a b q) := short_vecWord rfl rfl
theorem vinCltu (d : QReg) (a b : Reg) (q : BitVec 2) : Statement (.vinCltu d a b q) := short_vecWord rfl rfl
theorem vmvMov (d a : Reg) (q : BitVec 2) : Statement (.vmvMov d a q) := short_vecWord rfl rfl
theorem vmvBcast (d a : Reg) (q : BitVec 2) : Statement (.vmvBcast d a q) := short_vecWord rfl rfl
theorem vmvSel (d a b : Reg) (q : BitVec 2) : Statement (.vmvSel d a b q) := short_vecWord rfl rfl
theorem vmvPerm (d a b : Reg) (q : BitVec 2) : Statement (.vmvPerm d a b q) := short_vecWord rfl rfl
theorem vmvRot (d a b : Reg) (q : BitVec 2) : Statement (.vmvRot d a b q) := short_vecWord rfl rfl
theorem vmvIns (d a b : Reg) : Statement (.vmvIns d a b) := short_vecWord rfl rfl
theorem vmvExt (d a b : Reg) : Statement (.vmvExt d a b) := short_vecWord rfl rfl
theorem vmvQand (d a b : QReg) : Statement (.vmvQand d a b) := short_vecWord rfl rfl
theorem vmvQor (d a b : QReg) : Statement (.vmvQor d a b) := short_vecWord rfl rfl
theorem vmvQnot (d a : QReg) : Statement (.vmvQnot d a) := short_vecWord rfl rfl
theorem vmvQrd (d : Reg) (a : QReg) : Statement (.vmvQrd d a) := short_vecWord rfl rfl
theorem vmvQwr (d : QReg) (a : Reg) : Statement (.vmvQwr d a) := short_vecWord rfl rfl
theorem vrdFsum (d a : Reg) (q : BitVec 2) : Statement (.vrdFsum d a q) := short_vecWord rfl rfl
theorem vrdFmax (d a : Reg) (q : BitVec 2) : Statement (.vrdFmax d a q) := short_vecWord rfl rfl
theorem vrdFmin (d a : Reg) (q : BitVec 2) : Statement (.vrdFmin d a q) := short_vecWord rfl rfl
theorem vrdIsum (d a : Reg) (q : BitVec 2) : Statement (.vrdIsum d a q) := short_vecWord rfl rfl
theorem vrdImax (d a : Reg) (q : BitVec 2) : Statement (.vrdImax d a q) := short_vecWord rfl rfl
theorem vrdImin (d a : Reg) (q : BitVec 2) : Statement (.vrdImin d a q) := short_vecWord rfl rfl
theorem vrdImaxu (d a : Reg) (q : BitVec 2) : Statement (.vrdImaxu d a q) := short_vecWord rfl rfl
theorem vrdIminu (d a : Reg) (q : BitVec 2) : Statement (.vrdIminu d a q) := short_vecWord rfl rfl
theorem vcv (d a : Reg) (q : BitVec 2) (src dst : Fmt) : Statement (.vcv d a q src dst) := short_vecWord rfl rfl
theorem vlsLd (d a : Reg) (q : BitVec 2) (sp : Space) : Statement (.vlsLd d a q sp) := short_vecWord rfl rfl
theorem vlsSt (d a : Reg) (q : BitVec 2) (sp : Space) : Statement (.vlsSt d a q sp) := short_vecWord rfl rfl
theorem vlsLds (d a b : Reg) (q : BitVec 2) (sp : Space) : Statement (.vlsLds d a b q sp) := short_vecWord rfl rfl
theorem vlsSts (d a b : Reg) (q : BitVec 2) (sp : Space) : Statement (.vlsSts d a b q sp) := short_vecWord rfl rfl
theorem vlsGath (d a b : Reg) (q : BitVec 2) (sp : Space) : Statement (.vlsGath d a b q sp) := short_vecWord rfl rfl
theorem vlsScat (d a b : Reg) (q : BitVec 2) (sp : Space) : Statement (.vlsScat d a b q sp) := short_vecWord rfl rfl
theorem mtxMma (a b : Reg) (z : AccReg) : Statement (.mtxMma a b z) := short_engWord rfl rfl
theorem mtxMmav (a b : Reg) (z : AccReg) : Statement (.mtxMmav a b z) := short_engWord rfl rfl
theorem mtxCfg (d a : Reg) : Statement (.mtxCfg d a) := short_engWord rfl rfl
theorem mtxSt (a b : Reg) (z : AccReg) : Statement (.mtxSt a b z) := short_engWord rfl rfl
theorem mtxLd (a : Reg) (z : AccReg) : Statement (.mtxLd a z) := short_engWord rfl rfl
theorem mtxZero (z : AccReg) : Statement (.mtxZero z) := short_engWord rfl rfl
theorem mtxDrain : Statement .mtxDrain := short_engWord rfl rfl
theorem jobCopy (d a b : Reg) : Statement (.jobCopy d a b) := short_engWord rfl rfl
theorem jobCopyb (d a b : Reg) : Statement (.jobCopyb d a b) := short_engWord rfl rfl
theorem jobSubmit (d a : Reg) : Statement (.jobSubmit d a) := short_engWord rfl rfl
theorem jobFpwait (d a b : Reg) : Statement (.jobFpwait d a b) := short_engWord rfl rfl
theorem jobResume (d a b : Reg) : Statement (.jobResume d a b) := short_engWord rfl rfl
theorem jobPoll (d a : Reg) : Statement (.jobPoll d a) := short_engWord rfl rfl
theorem dynIclook (d a : Reg) : Statement (.dynIclook d a) := short_regWord rfl rfl
theorem dynIcfill (a b : Reg) : Statement (.dynIcfill a b) := short_regWord rfl rfl
theorem dynIcinv (a : Reg) : Statement (.dynIcinv a) := short_regWord rfl rfl
theorem dynNext (d a : Reg) : Statement (.dynNext d a) := short_regWord rfl rfl
theorem dynRcinc (d a : Reg) : Statement (.dynRcinc d a) := short_regWord rfl rfl
theorem dynRcdec (d a : Reg) : Statement (.dynRcdec d a) := short_regWord rfl rfl
theorem dynTag (d a : Reg) : Statement (.dynTag d a) := short_regWord rfl rfl
theorem dynShape (d a : Reg) : Statement (.dynShape d a) := short_regWord rfl rfl
theorem dynBoxf (d a : Reg) : Statement (.dynBoxf d a) := short_regWord rfl rfl
theorem dynUnboxf (d a : Reg) : Statement (.dynUnboxf d a) := short_regWord rfl rfl
theorem dynBoxi (d a : Reg) : Statement (.dynBoxi d a) := short_regWord rfl rfl
theorem dynUnboxi (d a : Reg) : Statement (.dynUnboxi d a) := short_regWord rfl rfl
theorem dynGuard (a b : Reg) (o : BitVec 16) : Statement (.dynGuard a b o) := short_immWord rfl rfl

end Sys2Proof.Laws.Words
end

