-- ==== Sys2Proof/Tests/Slice0.lean ====
section
/-! SUPPORT. Small checks of the model: words of every encoding and what they decode to, the checks of
well-formedness, and states and operands that meet the hypotheses of the statements. -/

namespace Sys2Proof.Tests.Slice0

open Sys2Proof Sys2Proof.Machine

set_option maxRecDepth 100000
-- One declaration at a time: a thread for each would need more memory than a check has.
set_option Elab.async false

/-! ## Words written out from the encoding tables of the spec (R30 to R38) -/

theorem test_decode_alu :
    decode 0x06C99800 0 = .ok (.aluAdd 22 9 19) ∧
    decode 0x06C99801 0 = .ok (.aluSub 22 9 19) ∧
    decode 0x06C99802 0 = .ok (.aluAnd 22 9 19) ∧
    decode 0x06C99803 0 = .ok (.aluOr 22 9 19) ∧
    decode 0x06C99804 0 = .ok (.aluXor 22 9 19) ∧
    decode 0x06C99805 0 = .ok (.aluAndn 22 9 19) ∧
    decode 0x06C99806 0 = .ok (.aluShl 22 9 19) ∧
    decode 0x06C99807 0 = .ok (.aluShr 22 9 19) ∧
    decode 0x06C99808 0 = .ok (.aluSar 22 9 19) ∧
    decode 0x06C99809 0 = .ok (.aluAddw 22 9 19) ∧
    decode 0x06C9980A 0 = .ok (.aluSubw 22 9 19) ∧
    decode 0x06C9980B 0 = .ok (.aluShlw 22 9 19) ∧
    decode 0x06C9980C 0 = .ok (.aluShrw 22 9 19) ∧
    decode 0x06C9980D 0 = .ok (.aluSarw 22 9 19) ∧
    decode 0x06C9980E 0 = .ok (.aluMin 22 9 19) ∧
    decode 0x06C9980F 0 = .ok (.aluMax 22 9 19) ∧
    decode 0x06C99810 0 = .ok (.aluMinu 22 9 19) ∧
    decode 0x06C99811 0 = .ok (.aluMaxu 22 9 19) ∧
    decode 0x06C99812 0 = .ok (.aluSel 22 9 19) :=
  ⟨rfl, rfl, rfl, rfl, rfl, rfl, rfl, rfl, rfl, rfl, rfl, rfl, rfl, rfl, rfl, rfl, rfl, rfl, rfl⟩

theorem test_decode_mul :
    decode 0x0AC99800 0 = .ok (.mulMul 22 9 19) ∧
    decode 0x0AC99801 0 = .ok (.mulMulh 22 9 19) ∧
    decode 0x0AC99802 0 = .ok (.mulMulhu 22 9 19) ∧
    decode 0x0AC99803 0 = .ok (.mulMulw 22 9 19) ∧
    decode 0x0AC99804 0 = .ok (.mulDiv 22 9 19) ∧
    decode 0x0AC99805 0 = .ok (.mulDivu 22 9 19) ∧
    decode 0x0AC99806 0 = .ok (.mulRem 22 9 19) ∧
    decode 0x0AC99807 0 = .ok (.mulRemu 22 9 19) :=
  ⟨rfl, rfl, rfl, rfl, rfl, rfl, rfl, rfl⟩

theorem test_decode_cmp :
    decode 0x0EC99800 0 = .ok (.cmpEq 22 9 19) ∧
    decode 0x0EC99801 0 = .ok (.cmpNe 22 9 19) ∧
    decode 0x0EC99802 0 = .ok (.cmpLt 22 9 19) ∧
    decode 0x0EC99803 0 = .ok (.cmpLtu 22 9 19) ∧
    decode 0x0EC99804 0 = .ok (.cmpLe 22 9 19) ∧
    decode 0x0EC99805 0 = .ok (.cmpLeu 22 9 19) :=
  ⟨rfl, rfl, rfl, rfl, rfl, rfl⟩

theorem test_decode_bit :
    decode 0x12C99800 0 = .ok (.bitExt 22 9 19) ∧
    decode 0x12C99801 0 = .ok (.bitExtu 22 9 19) ∧
    decode 0x12C99802 0 = .ok (.bitIns 22 9 19) ∧
    decode 0x12C90003 0 = .ok (.bitClz 22 9) ∧
    decode 0x12C90004 0 = .ok (.bitCtz 22 9) ∧
    decode 0x12C90005 0 = .ok (.bitPop 22 9) ∧
    decode 0x12C90006 0 = .ok (.bitBswap 22 9) :=
  ⟨rfl, rfl, rfl, rfl, rfl, rfl, rfl⟩

theorem test_decode_ali :
    decode 0x16C9C2A0 0 = .ok (.aliAdd 22 9 0xc2a0) ∧
    decode 0x1AC9A499 0 = .ok (.aliAnd 22 9 0xa499) ∧
    decode 0x1EC91595 0 = .ok (.aliOr 22 9 0x1595) ∧
    decode 0x22C9F78E 0 = .ok (.aliXor 22 9 0xf78e) ∧
    decode 0x26C9000A 0 = .ok (.aliShl 22 9 0xa) ∧
    decode 0x2AC90002 0 = .ok (.aliShr 22 9 0x2) ∧
    decode 0x2EC9003F 0 = .ok (.aliSar 22 9 0x3f) ∧
    decode 0x32C99D77 0 = .ok (.aliAddw 22 9 0x9d77) ∧
    decode 0x36C00E73 0 = .ok (.aliLui 22 0xe73) ∧
    decode 0x3AC97F70 0 = .ok (.aliSlt 22 9 0x7f70) :=
  ⟨rfl, rfl, rfl, rfl, rfl, rfl, rfl, rfl, rfl, rfl⟩

theorem test_decode_brc :
    decode 0x71336168 0 = .ok (.brcEq 9 19 0x6168) ∧
    decode 0x7533D264 0 = .ok (.brcNe 9 19 0xd264) :=
  ⟨rfl, rfl⟩

theorem test_decode_jmp :
    decode 0x78624361 0 = .ok (.jmp 0x624361) :=
  rfl

theorem test_decode_ctl :
    decode 0x7C09045D 0 = .ok (.ctlJr 9 0x45d) ∧
    decode 0x7EC91559 0 = .ok (.ctlCallr 22 9 0x559) ∧
    decode 0x7C002655 0 = .ok (.ctlRet 0x655) ∧
    decode 0x7EC93000 0 = .ok (.ctlJt 22 9) ∧
    decode 0x7EC0404E 0 = .ok (.ctlLoop 22 .l0 0x4e) ∧
    decode 0x7C005000 0 = .ok .ctlLexit ∧
    decode 0x7D60F2A7 0 = .ok (.ctlLpad 0xb2a7) :=
  ⟨rfl, rfl, rfl, rfl, rfl, rfl, rfl⟩

theorem test_decode_mem :
    decode 0x42C96343 0 = .ok (.memLd 22 9 .d .g 0x343) ∧
    decode 0x46C92E37 0 = .ok (.memLds 22 9 .h .l 0x637) ∧
    decode 0x4AC93030 0 = .ok (.memSt 22 9 .h .o 0x30) ∧
    decode 0x4C099800 0 = .ok (.memWb 9 19) ∧
    decode 0x4C099801 0 = .ok (.memInv 9 19) ∧
    decode 0x4C090002 0 = .ok (.memPf 9) ∧
    decode 0x4C090003 0 = .ok (.memZero 9) :=
  ⟨rfl, rfl, rfl, rfl, rfl, rfl, rfl⟩

theorem test_decode_atm :
    decode 0x62C99812 0 = .ok (.atmSwap 22 9 19 .d .rel) ∧
    decode 0x62C99843 0 = .ok (.atmCas 22 9 19 .w .ar) ∧
    decode 0x62C99890 0 = .ok (.atmAdd 22 9 19 .d .rlx) ∧
    decode 0x62C998C1 0 = .ok (.atmAnd 22 9 19 .w .acq) ∧
    decode 0x62C99912 0 = .ok (.atmOr 22 9 19 .d .rel) ∧
    decode 0x62C99943 0 = .ok (.atmXor 22 9 19 .w .ar) ∧
    decode 0x62C99990 0 = .ok (.atmMin 22 9 19 .d .rlx) ∧
    decode 0x62C999C1 0 = .ok (.atmMax 22 9 19 .w .acq) ∧
    decode 0x62C99A12 0 = .ok (.atmMinu 22 9 19 .d .rel) ∧
    decode 0x62C99A43 0 = .ok (.atmMaxu 22 9 19 .w .ar) :=
  ⟨rfl, rfl, rfl, rfl, rfl, rfl, rfl, rfl, rfl, rfl⟩

theorem test_decode_syn :
    decode 0x66C90000 0 = .ok (.synLrw 22 9) ∧
    decode 0x66C99808 0 = .ok (.synScr 22 9 19) ∧
    decode 0x64000011 0 = .ok (.synFence .quad) ∧
    decode 0x66C99818 0 = .ok (.synWait 22 9 19 .core) ∧
    decode 0x66C99824 0 = .ok (.synWake 22 9 19 .pod) :=
  ⟨rfl, rfl, rfl, rfl, rfl⟩

theorem test_decode_thr :
    decode 0xC2C90000 0 = .ok (.thrStart 22 9) ∧
    decode 0xC2C00001 0 = .ok (.thrStop 22) ∧
    decode 0xC2C00002 0 = .ok (.thrCont 22) ∧
    decode 0xC2C99803 0 = .ok (.thrSpill 22 9 19) ∧
    decode 0xC2C99804 0 = .ok (.thrFill 22 9 19) ∧
    decode 0xC0000005 0 = .ok .thrExit ∧
    decode 0xC2C00006 0 = .ok (.thrReap 22) ∧
    decode 0xC2C00007 0 = .ok (.thrRqpop 22) ∧
    decode 0xC2C00008 0 = .ok (.thrWatch 22) ∧
    decode 0xC2C00009 0 = .ok (.thrUnwatch 22) ∧
    decode 0xC000000A 0 = .ok .thrWait ∧
    decode 0xC000000B 0 = .ok .thrIdle ∧
    decode 0xC2C9980C 0 = .ok (.thrSpawn 22 9 19) ∧
    decode 0xC2C9000D 0 = .ok (.thrLaunch 22 9) ∧
    decode 0xC2C9000E 0 = .ok (.thrBind 22 9) ∧
    decode 0xC2C0000F 0 = .ok (.thrSemp 22) ∧
    decode 0xC2C00010 0 = .ok (.thrSemv 22) ∧
    decode 0xC0000011 0 = .ok .thrYield :=
  ⟨rfl, rfl, rfl, rfl, rfl, rfl, rfl, rfl, rfl, rfl, rfl, rfl, rfl, rfl, rfl, rfl, rfl, rfl⟩

theorem test_decode_msg :
    decode 0xC6C90000 0 = .ok (.msgDec 22 9) ∧
    decode 0xC6C99801 0 = .ok (.msgPut 22 9 19) ∧
    decode 0xC6C90002 0 = .ok (.msgInc 22 9) :=
  ⟨rfl, rfl, rfl⟩

theorem test_decode_bar :
    decode 0xCAC99803 0 = .ok (.barSync 22 9 19 .mod) ∧
    decode 0xCAC90008 0 = .ok (.barInit 22 9) ∧
    decode 0xCAC90010 0 = .ok (.barArrive 22 9) ∧
    decode 0xCAC99818 0 = .ok (.barWait 22 9 19) ∧
    decode 0xCAC90020 0 = .ok (.barExpect 22 9) ∧
    decode 0xCAC00028 0 = .ok (.barAbort 22) :=
  ⟨rfl, rfl, rfl, rfl, rfl, rfl⟩

theorem test_decode_vfp :
    decode 0x82C99B40 0 = .ok (.vfpAdd 22 9 19 0x1 0x5) ∧
    decode 0x82C99EC1 0 = .ok (.vfpSub 22 9 19 0x3 0x3) ∧
    decode 0x82C99C42 0 = .ok (.vfpMul 22 9 19 0x2 0x1) ∧
    decode 0x82C99B83 0 = .ok (.vfpFma 22 9 19 0x1 0x6) ∧
    decode 0x82C99F04 0 = .ok (.vfpFms 22 9 19 0x3 0x4) ∧
    decode 0x82C99C85 0 = .ok (.vfpMin 22 9 19 0x2 0x2) ∧
    decode 0x82C99BC6 0 = .ok (.vfpMax 22 9 19 0x1 0x7) ∧
    decode 0x82C90507 0 = .ok (.vfpAbs 22 9 0x2 0x4) ∧
    decode 0x82C90648 0 = .ok (.vfpNeg 22 9 0x3 0x1) ∧
    decode 0x82C99C49 0 = .ok (.vfpDiv 22 9 19 0x2 0x1) ∧
    decode 0x82C9064A 0 = .ok (.vfpSqrt 22 9 0x3 0x1) ∧
    decode 0x82C9024B 0 = .ok (.vfpExp2 22 9 0x1 0x1) ∧
    decode 0x80699E0C 0 = .ok (.vfpCeq 3 9 19 0x3) ∧
    decode 0x80699A0D 0 = .ok (.vfpClt 3 9 19 0x1) ∧
    decode 0x80699C0E 0 = .ok (.vfpCle 3 9 19 0x2) :=
  ⟨rfl, rfl, rfl, rfl, rfl, rfl, rfl, rfl, rfl, rfl, rfl, rfl, rfl, rfl, rfl⟩

theorem test_decode_vin :
    decode 0x86C99EC0 0 = .ok (.vinAdd 22 9 19 0x3 0x3) ∧
    decode 0x86C99C41 0 = .ok (.vinSub 22 9 19 0x2 0x1) ∧
    decode 0x86C99B82 0 = .ok (.vinMul 22 9 19 0x1 0x6) ∧
    decode 0x86C99F03 0 = .ok (.vinMulh 22 9 19 0x3 0x4) ∧
    decode 0x86C99C84 0 = .ok (.vinAnd 22 9 19 0x2 0x2) ∧
    decode 0x86C99BC5 0 = .ok (.vinOr 22 9 19 0x1 0x7) ∧
    decode 0x86C99F46 0 = .ok (.vinXor 22 9 19 0x3 0x5) ∧
    decode 0x86C99CC7 0 = .ok (.vinShl 22 9 19 0x2 0x3) ∧
    decode 0x86C99A48 0 = .ok (.vinShr 22 9 19 0x1 0x1) ∧
    decode 0x86C99F89 0 = .ok (.vinSar 22 9 19 0x3 0x6) ∧
    decode 0x86C99D0A 0 = .ok (.vinMin 22 9 19 0x2 0x4) ∧
    decode 0x86C99A8B 0 = .ok (.vinMax 22 9 19 0x1 0x2) ∧
    decode 0x86C99FCC 0 = .ok (.vinMinu 22 9 19 0x3 0x7) ∧
    decode 0x86C99D4D 0 = .ok (.vinMaxu 22 9 19 0x2 0x5) ∧
    decode 0x86C99ACE 0 = .ok (.vinAdds 22 9 19 0x1 0x3) ∧
    decode 0x86C99E4F 0 = .ok (.vinSubs 22 9 19 0x3 0x1) ∧
    decode 0x84699C10 0 = .ok (.vinCeq 3 9 19 0x2) ∧
    decode 0x84699E11 0 = .ok (.vinClt 3 9 19 0x3) ∧
    decode 0x84699A12 0 = .ok (.vinCltu 3 9 19 0x1) :=
  ⟨rfl, rfl, rfl, rfl, rfl, rfl, rfl, rfl, rfl, rfl, rfl, rfl, rfl, rfl, rfl, rfl, rfl, rfl, rfl⟩

theorem test_decode_vmv :
    decode 0x8AC90200 0 = .ok (.vmvMov 22 9 0x1) ∧
    decode 0x8AC90201 0 = .ok (.vmvBcast 22 9 0x1) ∧
    decode 0x8AC99C02 0 = .ok (.vmvSel 22 9 19 0x2) ∧
    decode 0x8AC99E03 0 = .ok (.vmvPerm 22 9 19 0x3) ∧
    decode 0x8AC99A04 0 = .ok (.vmvRot 22 9 19 0x1) ∧
    decode 0x8AC99805 0 = .ok (.vmvIns 22 9 19) ∧
    decode 0x8AC99806 0 = .ok (.vmvExt 22 9 19) ∧
    decode 0x88611007 0 = .ok (.vmvQand 3 1 2) ∧
    decode 0x88611008 0 = .ok (.vmvQor 3 1 2) ∧
    decode 0x88610009 0 = .ok (.vmvQnot 3 1) ∧
    decode 0x8AC1000A 0 = .ok (.vmvQrd 22 1) ∧
    decode 0x8869000B 0 = .ok (.vmvQwr 3 9) :=
  ⟨rfl, rfl, rfl, rfl, rfl, rfl, rfl, rfl, rfl, rfl, rfl, rfl⟩

theorem test_decode_vrd :
    decode 0x96C90200 0 = .ok (.vrdFsum 22 9 0x1) ∧
    decode 0x96C90201 0 = .ok (.vrdFmax 22 9 0x1) ∧
    decode 0x96C90202 0 = .ok (.vrdFmin 22 9 0x1) ∧
    decode 0x96C90203 0 = .ok (.vrdIsum 22 9 0x1) ∧
    decode 0x96C90204 0 = .ok (.vrdImax 22 9 0x1) ∧
    decode 0x96C90205 0 = .ok (.vrdImin 22 9 0x1) ∧
    decode 0x96C90206 0 = .ok (.vrdImaxu 22 9 0x1) ∧
    decode 0x96C90207 0 = .ok (.vrdIminu 22 9 0x1) :=
  ⟨rfl, rfl, rfl, rfl, rfl, rfl, rfl, rfl⟩

theorem test_decode_vcv :
    decode 0x92C90216 0 = .ok (.vcv 22 9 0x1 .fp32 .uint16) :=
  rfl

theorem test_decode_vls :
    decode 0x8EC90602 0 = .ok (.vlsLd 22 9 0x3 .o) ∧
    decode 0x8EC90212 0 = .ok (.vlsSt 22 9 0x1 .o) ∧
    decode 0x8EC99E23 0 = .ok (.vlsLds 22 9 19 0x3 .c) ∧
    decode 0x8EC99C30 0 = .ok (.vlsSts 22 9 19 0x2 .g) ∧
    decode 0x8EC99A41 0 = .ok (.vlsGath 22 9 19 0x1 .l) ∧
    decode 0x8EC99E52 0 = .ok (.vlsScat 22 9 19 0x3 .o) :=
  ⟨rfl, rfl, rfl, rfl, rfl, rfl⟩

theorem test_decode_mtx :
    decode 0xB00A9100 0 = .ok (.mtxMma 10 18 1) ∧
    decode 0xB00A9901 0 = .ok (.mtxMmav 10 19 1) ∧
    decode 0xB2C90002 0 = .ok (.mtxCfg 22 9) ∧
    decode 0xB0099B03 0 = .ok (.mtxSt 9 19 3) ∧
    decode 0xB0090204 0 = .ok (.mtxLd 9 2) ∧
    decode 0xB0000305 0 = .ok (.mtxZero 3) ∧
    decode 0xB0000006 0 = .ok .mtxDrain :=
  ⟨rfl, rfl, rfl, rfl, rfl, rfl, rfl⟩

theorem test_decode_job :
    decode 0xB6CA9800 0 = .ok (.jobCopy 22 10 19) ∧
    decode 0xB6CA9001 0 = .ok (.jobCopyb 22 10 18) ∧
    decode 0xB6C90002 0 = .ok (.jobSubmit 22 9) ∧
    decode 0xB6C99803 0 = .ok (.jobFpwait 22 9 19) ∧
    decode 0xB6C99804 0 = .ok (.jobResume 22 9 19) ∧
    decode 0xB6C90005 0 = .ok (.jobPoll 22 9) :=
  ⟨rfl, rfl, rfl, rfl, rfl, rfl⟩

theorem test_decode_dyn :
    decode 0xD2C90000 0 = .ok (.dynIclook 22 9) ∧
    decode 0xD0099801 0 = .ok (.dynIcfill 9 19) ∧
    decode 0xD0090002 0 = .ok (.dynIcinv 9) ∧
    decode 0xD2C90003 0 = .ok (.dynNext 22 9) ∧
    decode 0xD2C90004 0 = .ok (.dynRcinc 22 9) ∧
    decode 0xD2C90005 0 = .ok (.dynRcdec 22 9) ∧
    decode 0xD2C90006 0 = .ok (.dynTag 22 9) ∧
    decode 0xD2C90007 0 = .ok (.dynShape 22 9) ∧
    decode 0xD2C90008 0 = .ok (.dynBoxf 22 9) ∧
    decode 0xD2C90009 0 = .ok (.dynUnboxf 22 9) ∧
    decode 0xD2C9000A 0 = .ok (.dynBoxi 22 9) ∧
    decode 0xD2C9000B 0 = .ok (.dynUnboxi 22 9) ∧
    decode 0xD5339115 0 = .ok (.dynGuard 9 19 0x9115) :=
  ⟨rfl, rfl, rfl, rfl, rfl, rfl, rfl, rfl, rfl, rfl, rfl, rfl, rfl⟩

theorem test_decode_sys :
    decode 0xDAC0011A 0 = .ok (.sysSrrd 22 0x11a) ∧
    decode 0xDEC00088 0 = .ok (.sysSrwr 22 0x88) ∧
    decode 0xE2C00000 0 = .ok (.sysNow 22) ∧
    decode 0xE2C90001 0 = .ok (.sysCapq 22 9) ∧
    decode 0xE2C90002 0 = .ok (.sysXinv 22 9) ∧
    decode 0xE2C90003 0 = .ok (.sysPgref 22 9) ∧
    decode 0xE0000004 0 = .ok .sysIflush ∧
    decode 0xE0090005 0 = .ok (.sysScall 9) ∧
    decode 0xE0000006 0 = .ok .sysBrk ∧
    decode 0xE2C90007 0 = .ok (.sysFreply 22 9) :=
  ⟨rfl, rfl, rfl, rfl, rfl, rfl, rfl, rfl, rfl, rfl⟩

theorem test_decode_lng :
    decode 0xF2C00000 0xFFFFFFFE = .ok (.lngLi 22 0xFFFFFFFE) ∧
    decode 0xF2C90001 0x12345678 = .ok (.lngLih 22 9 0x12345678) ∧
    decode 0xF2C90002 0x80000001 = .ok (.lngAdd 22 9 0x80000001) ∧
    decode 0xF2C90003 0x0000FF00 = .ok (.lngAnd 22 9 0x0000FF00) ∧
    decode 0xF2C90004 0xF0000000 = .ok (.lngOr 22 9 0xF0000000) ∧
    decode 0xF2C90005 0xFFFFFFFF = .ok (.lngXor 22 9 0xFFFFFFFF) ∧
    decode 0xF6C00000 0x00000010 = .ok (.lngCall 22 0x00000010) ∧
    decode 0xF4000001 0xFFFFFFFC = .ok (.lngJmp 0xFFFFFFFC) ∧
    decode 0xF6C00002 0x00000007 = .ok (.lngLa 22 0x00000007) :=
  ⟨rfl, rfl, rfl, rfl, rfl, rfl, rfl, rfl, rfl⟩

/-! ## What is not well formed, and is refused (R39) -/

theorem test_wf_refuses :
    (Instr.ctlLoop 5 .l0 0).wf = false ∧ (Instr.memLds 5 6 .d .l 0).wf = false ∧ (Instr.lngCall 1 2).wf = false ∧
    (Instr.lngJmp 1).wf = false ∧ (Instr.thrSpawn 1 5 6).wf = false ∧ (Instr.vfpAdd 31 0 0 0 1).wf = false ∧
    (Instr.vfpMul 0 30 0 0 2).wf = false ∧ (Instr.vfpFma 0 0 29 0 3).wf = false ∧
    (Instr.vfpDiv 0 8 16 0 2).wf = false ∧ (Instr.vfpSqrt 0 8 0 2).wf = false ∧ (Instr.vfpExp2 31 8 0 1).wf = false ∧
    (Instr.vfpAbs 0 25 0 7).wf = false ∧ (Instr.vinAdds 0 0 31 0 1).wf = false ∧
    (Instr.vcv 0 1 0 .fp16 .fp16).wf = false ∧ (Instr.vcv 0 1 0 .fp16 .bf16).wf = false ∧
    (Instr.vcv 0 1 0 .int8 .fp16).wf = false ∧ (Instr.vlsGath 3 4 3 0 .l).wf = false ∧
    (Instr.mtxMma 5 6 0).wf = false ∧ (Instr.mtxMma 6 5 0).wf = false ∧ (Instr.mtxMmav 7 6 0).wf = false ∧
    (Instr.jobCopy 5 7 8).wf = false ∧ (Instr.jobCopyb 5 6 9).wf = false ∧ (Instr.dynNext 9 9).wf = false ∧
    (Instr.sysSrrd 5 0x006).wf = false ∧ (Instr.sysSrwr 5 0x140).wf = false := by decide

theorem test_decode_refuses :
    decode 0x7CA04000 0 = .error .range ∧ decode 0x44A66800 0 = .error .range ∧
    decode 0xF4200000 2 = .error .range ∧ decode 0x05C39820 0 = .error .function ∧
    decode 0x00000000 0 = .error .major ∧ decode 0xFFFFFFFF 0 = .error .major := by
  refine ⟨?_, ?_, ?_, ?_, ?_, ?_⟩ <;> rfl

/-! ## Small states -/

/-- Context 0 of core 0 ready to run, with one partition on die 0. -/
def base : State := State.reset.ready

/-- The same with register `d` set. -/
def reg (d : Reg) (v : Word) (s : State) : State := s.wg d v

/-- The same with an executable page of words: a landing pad at 0x20040, and in the L1 a jump table at 0x20080 and an
empty one at 0x20100. -/
def code : State :=
  let table : LineData := BitVec.ofNat 1024 (0x0000000200000040 + 0xFFFFFFC0 * 2 ^ 96)
  let s : State := { base with mem := base.mem.writeNat 0x20040 4 0x7C00F040 }
  (s.setL1 0 ⟨0, 0, 0x401, 0x20080, .rc, false, 0, 0, BitVec.allOnes 128, table⟩).setL1 0
    ⟨0, 0, 0x402, 0x20100, .rc, false, 0, 0, BitVec.allOnes 128, 0⟩

/-- Pages that loads, stores and atomics may use, of class RC at 0x21000, with a line of it in the L1 of core 0,
and of class SO at 0x22000. -/
def line : L1Line := ⟨0, 0, 0x420, 0x21000, .rc, true, 0, 1, BitVec.allOnes 128, 0x1234⟩
def data : State := (base.modDie 0 fun d => { d with
  xlat := (0x21, ⟨0, 0, 0x21, 0, 0x84C7⟩) :: (0x22, ⟨0, 0, 0x22, 0, 0x400000000088C7⟩) :: d.xlat }).setL1 0 line

/-- Context 1 of core 0 executes. -/
def other : State := { base with cur := { base.cur with slot := 1 } }

/-- A part of an instruction that gets through, in a state of which `p` holds. -/
def gets {α : Type} (m : M α) (s : State) (p : α → State → Bool) : Bool :=
  match m s with
  | .ok x t => p x t
  | .error _ _ => false

/-- A part of an instruction that stops. -/
def stopsAt {α : Type} (m : M α) (s : State) (p : Stop → Bool) : Bool :=
  match m s with
  | .ok _ _ => false
  | .error e _ => p e

/-- A step that answers a next state. -/
def goes : Host.Outcome State Fault Refusal → Bool
  | .next _ => true
  | _ => false

/-! ## What the statements suppose is met somewhere: one theorem for each, clause by clause -/

theorem witness_StepRunsTheDecodedInstruction :
    let s := State.reset.placed 0x04A02801
    let before : State := { s with sched := [], turn := s.turn + 1 }
    s.retry = [] ∧ s.urgent = [] ∧ s.dueInput = none ∧ s.sched = [0] ∧
    (s.cores[s.turn]?).map (·.1) = some 0 ∧ before.mayIssue 0 before.owner = true ∧
    gets (fetchWords ((before.running 0 before.owner 0 0).ctx 0 before.owner).pc) (before.running 0 before.owner 0 0)
      (fun w t => w.1 = 0x04A02801 && !(t.ctx 0 before.owner).skipping) = true := by decide +kernel

theorem witness_StepRunsTheDecodedInstruction_metered :
    let s := State.reset.placed 0x80000000
    let masked := s.modPart 0 fun e => { e with cfg := { e.cfg with feat := BitVec.ofNat 11 (2 ^ 6) } }
    let after := fun (i : Instr) (t : State) (b : Bool) =>
      match exec i (t.running 0 0 0x80000000 0) with
      | .next u => (u.ctx 0 0).unstarted == b
      | _ => false
    metered 0x04A02801 = false ∧ metered 0x80000000 = true ∧ decode 0 0 = .error .major ∧
    decode 0x80000000 0 = .ok (.vfpAdd 0 0 0 0 0) ∧ after (.vfpAdd 0 0 0 0 0) s false = true ∧
    after (.vfpDiv 0 0 0 0 0) masked true = true ∧
    (let r := s.running 0 0 0x80000000 0
     let l := r.charges (.vfpAdd 0 0 0 0 0) 0x80000000
     r.anySpent l = false ∧ (r.modDie 0 fun e => { e with budget := some 0 }).anySpent l = true) := by
  refine ⟨?_, ?_, rfl, rfl, ?_⟩ <;> decide +kernel

/-- A store in C space draws on the die of the core that it names, and not on its own (R334). -/
theorem test_charges_slice_die :
    let s := reg 6 0x100000000 base
    let i : Instr := .memSt 5 6 .d .c 0
    (s.charges i ((encode i).headD 0)).map (·.1) = [1] := by decide +kernel

theorem witness_StepStopsOnlyOnAForeignInput :
    step { State.reset with inputs := [(0, .aluAdd 1 2 3)] } = .fault .notAnInput := rfl

theorem witness_StepKeepsMemoryCanonical :
    (State.reset.placed 0x04A02801).wf = true ∧ goes (step (State.reset.placed 0x04A02801)) = true := by
  decide +kernel

theorem witness_AluFunctions : base.pendingOf [5, 6, 7] = false := by decide +kernel

theorem witness_MulFunctions :
    let s := reg 6 0x8000000000000000 (reg 7 0xFFFFFFFFFFFFFFFF base)
    s.pendingOf [5, 6, 7] = false ∧ s.rg 6 = 0x8000000000000000 ∧ s.rg 7 = 0xFFFFFFFFFFFFFFFF := by decide +kernel

theorem witness_EndCheck :
    let s := base.setMe { base.me with loop0 := ⟨0, 0x20000, 1⟩, loop1 := ⟨0, 0x20000, 1⟩ }
    let t := base.setMe { base.me with loop0 := ⟨0, 0x20000, 2⟩, loop1 := ⟨0, 0x20000, 2⟩ }
    s.me.loop1.count = 1 ∧ s.me.pc = s.me.loop1.last ∧ s.me.loop0.count = 1 ∧ s.me.pc = s.me.loop0.last ∧
    t.me.loop1.count ≠ 0 ∧ t.me.loop1.count ≠ 1 ∧ t.me.pc = t.me.loop1.last ∧ base.me.loop0.count = 0 := by
  decide +kernel

theorem witness_RegisterInstructionsFrame :
    registerOnly (.aluAdd 5 6 7) = some 5 ∧ registerOnly (.brcEq 5 6 1) = some 0 ∧
    goes (exec (.aluAdd 5 6 7) base) = true := by decide +kernel

theorem witness_PendingRegisterBlocks :
    (7 : Reg) ∈ [(5 : Reg), 6, 7] ∧ (7 : Reg) ≠ 0 ∧ ((base.setPending 7).me.pend).getLsbD 7 = true := by decide +kernel

theorem witness_IndirectTransfers :
    let s := reg 1 0x20040 (reg 6 0x20040 code)
    s.pendingOf [5, 6] = false ∧ s.pendingOf [1] = false ∧ U (s.rg 6) % 4 = 0 ∧ U (s.rg 1) % 4 = 0 ∧
    gets (fetchWord (s.rg 6)) s (fun w _ => encode (.ctlLpad (0x040#12 |>.setWidth 16)) = [w] &&
      encode (.ctlLpad (0x041#12 |>.setWidth 16)) ≠ [w]) = true ∧
    U ((reg 6 0x20042 code).rg 6) % 4 ≠ 0 ∧ U ((reg 1 0x20043 code).rg 1) % 4 ≠ 0 ∧
    U ((reg 6 0x20084 code).rg 6) % 8 ≠ 0 := by decide +kernel

theorem witness_IndirectTransfers_table :
    let s := reg 5 1 (reg 6 0x20080 code)
    U (s.rg 6) % 8 = 0 ∧
    gets (loadG (s.rg 6) 8) s (fun h t => decide (h < 2 ^ 64) && decide (h / 2 ^ 32 = 2) &&
      decide (U (s.rg 5) < h / 2 ^ 32) && gets (loadG (s.rg 6 + 8 + wrapU 4) 4) t fun e u =>
        decide (s.rg 6 + wrapS (BitVec.ofNat 32 e).toInt = 0x20040) &&
        gets (fetchWord 0x20040) u fun w _ => encode (.ctlLpad (BitVec.ofNat 16 h)) = [w]) = true ∧
    gets (loadG 0x20100 8) code (fun h _ => decide (h / 2 ^ 32 = 0)) = true := by decide +kernel

theorem witness_LoopInstructions :
    (reg 5 1 base).rg 5 ≠ 0 ∧ code.rg 5 = 0 ∧
    gets (fetchWord (code.me.pc + wrapU (4 * 16))) code (fun w _ => !isLong w) = true ∧
    ({ base.me with loop1 := ⟨0, 0, 1⟩ } : Ctx).loop1.count ≠ 0 ∧ base.me.loop1.count = 0 := by decide +kernel

theorem witness_LoadsFromLocalMemories :
    let s := reg 6 0x7FFF8 base
    let t := reg 6 0x7FF8 base
    s.pendingOf [5, 6] = false ∧ U (s.rg 6 + wrapS 0) % 8 = 0 ∧ U (s.rg 6 + wrapS 0) + 8 ≤ s.window s.myPart ∧
    U (t.rg 6 + wrapS 0) + 8 ≤ 32768 ∧ U (s.rg 6 + wrapS 0) / 2 ^ 19 = s.myCore ∧
    s.presentCore s.myPart s.myCore = true ∧ U (s.rg 6 + wrapS 0) % 2 ^ 19 + 8 ≤ s.window s.myPart := by decide +kernel

theorem witness_StoresToLocalMemories :
    let s := reg 6 0x7FFF8 base
    let t := (base.modCore 0 fun c => { c with watches := [(0x7FFF0, .slot 1)] }).setCtx 0 1
      { Ctx.reset with st := .blocked, wait := some .watch }
    s.wf = true ∧ t.wf = true ∧ s.pendingOf [5, 6] = false ∧ (t.core 0).watches = [(0x7FFF0, .slot 1)] ∧
    0x7FFF0 < 0x7FFF7 + 1 ∧ 0x7FFF7 < 0x7FFF0 + 8 ∧ (t.core 0).ring = [] ∧ (t.ctx 0 1).wait = some .watch ∧
    U (s.rg 6 + wrapS 0) % 8 = 0 ∧ U (s.rg 6 + wrapS 0) + 8 ≤ s.window s.myPart ∧
    (∀ w ∈ t.mine.watches, w.1 + 8 ≤ 0x7FFF8 ∨ 0x7FFF8 + 8 ≤ w.1) ∧
    U ((reg 6 0x7FF8 base).rg 6 + wrapS 0) + 8 ≤ 32768 := by decide +kernel

theorem witness_LocalAccessChecks :
    U ((reg 6 1 base).rg 6 + wrapS 0) % 2 ≠ 0 ∧ U ((reg 6 0x80000 base).rg 6 + wrapS 0) % 8 = 0 ∧
    base.window base.myPart < U ((reg 6 0x80000 base).rg 6 + wrapS 0) + 8 ∧
    32768 < U ((reg 6 0x8000 base).rg 6 + wrapS 0) + 1 ∧ 2 ^ 37 ≤ U ((reg 6 0x2000000000 base).rg 6 + wrapS 0) ∧
    base.presentCore base.myPart (U ((reg 6 0x100000000 base).rg 6 + wrapS 0) / 2 ^ 19 % 2 ^ 18) = false := by
  decide +kernel

theorem witness_AccessesThatHitTheL1 :
    let s := reg 6 0x21078 data
    s.pendingOf [5, 6] = false ∧ canonical (s.rg 6 + wrapS 0) = true ∧ U (s.rg 6 + wrapS 0) % 128 + 8 ≤ 128 ∧
    s.l1Look (s.rg 6 + wrapS 0) = some line ∧
    line.loadHits s.mine.gen (U (s.rg 6 + wrapS 0) % 128) 8 = true ∧ line.wr = true ∧
    s.badLine s.myPart line.pa false = false ∧
    ({ s with poisoned := [tagOf (lineOf 0x21000) 0] } : State).badLine 0 line.pa false = true ∧
    canonical ((reg 6 0x8000000000000000 data).rg 6 + wrapS 0) = false := by decide +kernel

theorem witness_EveryAccessIsItsInstruction :
    base.pendingOf [5, 6] = false ∧ gets (readSpace .l 0 8) base (fun _ _ => true) = true ∧
    stopsAt (readSpace .l 1 8) base (fun e => e = .trap 0x03 1) = true ∧
    stopsAt (readSpace .c 0x80000 8) base (fun e => e = .block .reply) = true ∧
    gets (writeSpace .o 0 8 1) base (fun _ _ => true) = true ∧
    stopsAt (writeSpace .o 1 8 1) base (fun e => e = .trap 0x03 1) = true ∧
    stopsAt (writeSpace .g 0x30000 8 1) base (fun e => e = .block .walk) = true := by decide +kernel

theorem witness_MaintenanceInstructions :
    let s := reg 6 0x21000 (reg 7 0x80 data)
    let t := reg 6 0x21000 (reg 7 0x10001 data)
    s.pendingOf [6, 7] = false ∧ data.rg 7 = 0 ∧ t.rg 7 ≠ 0 ∧ 0x10000 < U (t.rg 7) ∧ s.rg 7 ≠ 0 ∧ U (s.rg 7) ≤ 0x10000 ∧
    canonical (s.rg 6) = true ∧ canonical (s.rg 6 + s.rg 7 - 1) = true ∧ s.writeBacksInFlight s.myCore s.myPart = false ∧
    s.covered (s.rg 6) (U (s.rg 7)) = [line] ∧ line.dirty ≠ 0 ∧ s.choice = false ∧ U ((reg 6 0x21001 data).rg 6) % 128 ≠ 0 ∧
    U (s.rg 6) % 128 = 0 ∧ s.l1Look (s.rg 6) = some line ∧ line.wr = true := by decide +kernel

/-! ## Synchronisation -/

theorem witness_AtomicOperations :
    let l : AlbLine := ⟨lineOf 0x21000, 0, 0, 5, none⟩
    let s := reg 6 0x21078 (data.modHw 0 fun h => { h with alb := [l] })
    s.pendingOf [5, 6, 7] = false ∧ U ((reg 6 0x21001 data).rg 6) % 4 ≠ 0 ∧ U (s.rg 6) % 8 = 0 ∧
    gets (translate (s.rg 6) .atomic) s (fun x u => let t := u.freshFrame (s.rg 6) x
      u.me.posted = [] && place (loc x.pa) = .dram 0 && !t.badLine t.myPart x.pa true && t.clsOf x ≠ .so &&
      t.albLine t.myCore t.myPart (t.steer t.myPart x.pa) = some l) = true ∧
    l.data.toNat / 256 ^ 0x78 % 256 ^ 8 = U (s.rg 5) % 256 ^ 8 ∧
    l.data.toNat / 256 ^ 0x78 % 256 ^ 8 ≠ U ((reg 5 3 s).rg 5) % 256 ^ 8 := by decide +kernel

theorem witness_ReservationInstructions :
    let s := reg 6 0x21000 data
    let held := s.modCore 0 fun c => { c with resv := [(lineOf 0x21000, .slot 0)] }
    let four := s.modCore 0 fun c => { c with resv := [(1, .slot 0), (2, .slot 0), (3, .slot 0), (4, .slot 0)] }
    let full := s.modCore 0 fun c => { c with resv := List.replicate 64 (1, .slot 3) }
    let bad := fun (s : State) => ({ s with poisoned := [tagOf (lineOf 0x21000) 0] } : State)
    let isHeld := fun (x : Xlated) (t : State) => decide (t.steer t.myPart x.pa ∈ t.mine.heldBy (.slot t.slot))
    let ready := fun (x : Xlated) (t : State) (p : Nat → State → Bool) => gets (syncReady 0x21000 x) t fun pa u =>
      u.me.posted = [] && p pa u
    s.pendingOf [5, 6, 7] = false ∧
    gets (syncTarget (s.rg 6) .sync) s (fun x t => !isHeld x t && t.mine.resv = [] && ready x t fun pa u =>
      u.queueRoom u.myPart (lineOf pa)) = true ∧
    gets (syncTarget (s.rg 6) .sync) (bad s) (fun x t => !isHeld x t && t.mine.resv = [] &&
      t.badLine t.myPart x.pa true) = true ∧
    gets (syncTarget (s.rg 6) .sync) held (fun x t => isHeld x t && ready x t fun pa u =>
      gets (lineValue t.myPart pa) u fun _ _ => true) = true ∧
    gets (syncTarget (s.rg 6) .sync) (bad held) (fun x t => isHeld x t && t.badLine t.myPart x.pa true) = true ∧
    gets (syncTarget (s.rg 6) .sync) (bad four) (fun x t => !isHeld x t &&
      decide (4 ≤ (t.mine.heldBy (.slot t.slot)).length)) = true ∧
    gets (syncTarget (s.rg 6) .sync) full (fun x t => !isHeld x t &&
      decide ((t.mine.heldBy (.slot t.slot)).length < 4) && decide (64 ≤ t.mine.resv.length)) = true ∧
    gets (syncTarget (s.rg 6) .atomic) held (fun x t => isHeld x t && !(t.rg 7).getLsbD 63 &&
      ready x t fun _ _ => true) = true ∧
    gets (syncTarget (s.rg 6) .atomic) (bad held) (fun x t => isHeld x t && !(t.rg 7).getLsbD 63 &&
      t.badLine t.myPart x.pa true) = true ∧
    gets (syncTarget (s.rg 6) .atomic) four (fun x t => !isHeld x t) = true ∧
    gets (syncTarget (s.rg 6) .atomic) (reg 7 0x8000000000000000 held) (fun x t =>
      isHeld x t && (t.rg 7).getLsbD 63) = true ∧
    s.me.posted = [] ∧ probes .core s.me.touched = false ∧ scopeMasked s .core = false ∧ s.me.lost = 0 ∧
    ({ s.me with lost := 1 } : Ctx).lost ≠ 0 := by decide +kernel

theorem witness_ReservationInstructions_full :
    (data.setSync 0 5 ⟨true, none, List.replicate 64 ⟨64, 1, 0, false, false⟩, 0⟩).queueRoom 0 5 = false := by
  have h : (data.setSync 0 5 ⟨true, none, List.replicate 64 ⟨64, 1, 0, false, false⟩, 0⟩).sync =
      [(320, ⟨true, none, List.replicate 64 ⟨64, 1, 0, false, false⟩, 0⟩)] := by decide +kernel
  have l : tagLine 320 = 5 := rfl
  simp only [State.queueRoom, State.queueUsed, h, l, List.filter_cons, decide_true, Bool.true_and]
  decide +kernel

theorem witness_ReservationSteps :
    let line := lineOf 0x21000
    let s := (data.setSync 0 line ⟨true, none, [⟨0, 0, 9, false, false⟩], 0⟩).setCtx 0 0
      { data.me with wait := some (.lrw 9 line 0x21000 5) }
    let t := data.setSync 0 line ⟨true, some 64, [⟨0, 0, 9, false, false⟩], 0⟩
    let u := (s.modCore 0 fun c => { c with resv := [(line, .slot 0)] }).setCtx 0 0 { data.me with wait := some (.scr 5) }
    (s.syncLine 0 line).queue = [⟨0, 0, 9, false, false⟩] ∧ (s.syncLine 0 line).locus = none ∧
    ((data.setSync 0 line ⟨true, some 0, [⟨0, 0, 9, false, false⟩], 0⟩).syncLine 0 line).locus = some 0 ∧
    (s.syncLine 0 line).used = true ∧ isPodLine line = false ∧
    (let away : State := { s.setSync 0 line ⟨false, none, [⟨0, 0, 9, false, false⟩], 0⟩ with
      exported := [tagOf line 0], dir := [(tagOf line 0, ⟨.e, 3, true, false, [], 0, false, 0, 0, 0⟩)] }
     (away.syncLine 0 line).used = false ∧ away.isHome 0 line = false) ∧
    ((s.setSync 0 line ⟨true, none, [⟨0, 0, 9, true, false⟩], 0⟩).syncLine 0 line).queue = [⟨0, 0, 9, true, false⟩] ∧
    s.isGranted 0 line 9 = false ∧ (s.markGranted 0 line 9).isGranted 0 line 9 = true ∧
    (t.syncLine 0 line).locus = some 64 ∧ t.writeBacksInFlight (coreOf 64) (partOf 64) = false ∧
    (t.postWrite 64 0 (.maint 64 0) 0x21000 1 0).writeBacksInFlight (coreOf 64) (partOf 64) = true ∧
    (data.ctx 0 0).acquires 9 = false ∧ (s.ctx 0 0).wait = some (.lrw 9 line 0x21000 5) ∧
    gets (lineValue 0 0x21000) (s.markGranted 0 line 9) (fun _ _ => true) = true ∧
    (∀ y : Slot, (s.ctx 0 y).fills = false) ∧
    (∀ l ∈ (s.hwOf 0).l1, l.part = 0 → l.stamp ≠ (s.core 0).gen + 1) ∧
    gets (lineValue 0 0x21000) (s.modCore 0 fun c => { c with gen := (s.core 0).gen + 1 }) (fun _ _ => true) = true ∧
    (u.ctx 0 0).wait = some (.scr 5) ∧
    gets (writeLlc (u.homeAgent 0 (u.steer 0 0x21000)) 0 0x21000 (maskOf 0 8) (placed 0 7)) u (fun _ v =>
      ((v.release 0 (.slot 0) line).ctx 0 0).wait = some (.scr 5)) = true ∧
    (t.writeBackRc 64).writeBacksInFlight (coreOf 64) (partOf 64) = false := by decide +kernel

theorem witness_BufferSteps :
    let b : AlbLine := ⟨lineOf 0x21000, 0, 0, 5, some 0⟩
    let hit := fun (s : State) => (s.hwOf 0).l1.find? fun e => e.part = 0 && e.asid.toNat = 0 && e.va = 0x420
    hit base = none ∧ hit data = some line ∧ line.dirty ≠ 0 ∧
    hit (data.setL1 0 { line with dirty := 0 }) = some { line with dirty := 0 } ∧
    ((data.hwOf 0).alb.find? fun e => e.line = lineOf 0x21000) = none ∧
    (((data.modHw 0 fun h => { h with alb := [b] }).hwOf 0).alb.find? fun e => e.line = lineOf 0x21000) = some b ∧
    (({ base.me with wait := some (.fence .quad) } : Ctx).wait = some (.fence .quad)) ∧
    base.me.wait = none := by decide +kernel

theorem witness_WaitAndWake :
    let s := reg 6 0x22000 data
    let w := s.setCtx 0 0 { s.me with wait := some (.synCompare 9) }
    s.pendingOf [5, 6, 7] = false ∧ scopeMasked s .core = false ∧
    gets (waitedWord (s.rg 6)) s (fun pa t => pa = 0x22000 && t.me.posted = [] &&
      gets (fence .core) t fun _ _ => true) = true ∧
    (s.ctx 0 0).wait ≠ some (.synCompare 9) ∧ (w.ctx 0 0).wait = some (.synCompare 9) ∧
    gets (readLine (w.homeAgent 0 (w.steer 0 0x22000)) 0 0x22000) w (fun d t =>
      wrapU (d.toNat % 2 ^ 64) = 0 && t.waitRoom 0 (w.steer 0 0x22000)) = true ∧
    s.waits = [] ∧
    (({ s.me with wait := some (.wake 5) } : Ctx).wait = some (.wake 5)) ∧
    (let e := fun (y : Slot) => (⟨0, 0, 0x22000, 0x440, .device 0 y⟩ : WaitEntry)
     let t : State := { s.setCtx 0 0 { s.me with wait := some (.wake 5) } with waits := [e 2, e 1, e 3] }
     t.waits.Nodup ∧ t.waits.map (·.who) = [.device 0 2, .device 0 1, .device 0 3] ∧ (t.ctx 0 0).wait = some (.wake 5) ∧
     (t.waits.filter fun i => i.part = 0 ∧ i.asid.toNat = 0 ∧ i.va = 0x22000).take 2 = [e 2, e 1]) ∧
    (s.setCtx 0 0 { s.me with wait := some (.synWait 0x22000 5) }).me.wait = some (.synWait 0x22000 5) := by
  decide +kernel

theorem witness_WaitAndWake_full :
    ({ data with waits := List.replicate 256 ⟨0, 0, 0x280, 5, .device 0 0⟩ } : State).waitRoom 0 5 = false := by
  simp only [State.waitRoom, State.waitsUsed, List.filter_replicate, decide_true, Bool.true_and]
  decide +kernel

theorem witness_StoresToLocalMemories_other_core :
    let s := reg 6 0x87FFF8 base
    let r := s.setMe { s.me with replies := 1 }
    s.wf = true ∧ s.pendingOf [5, 6] = false ∧ U (s.rg 6 + wrapS 0) < 2 ^ 37 ∧ U (s.rg 6 + wrapS 0) / 2 ^ 19 = 16 ∧
    s.presentCore s.myPart 16 = true ∧ 16 ≠ s.myCore ∧ U (s.rg 6 + wrapS 0) % 2 ^ 19 % 8 = 0 ∧
    U (s.rg 6 + wrapS 0) % 2 ^ 19 + 8 ≤ s.window s.myPart ∧ (s.core (keyOf 16 s.myPart)).watches = [] ∧
    s.me.posted = [] ∧ s.me.replies ≤ s.cur.used ∧ r.wf = true ∧ r.cur.used < r.me.replies := by decide +kernel

theorem witness_WaitAndWake_stops :
    U ((reg 6 0x22004 data).rg 6) % 8 ≠ 0 ∧ U ((reg 6 0x21000 data).rg 6) % 8 = 0 ∧
    gets (translate ((reg 6 0x21000 data).rg 6) .sync) (reg 6 0x21000 data) (fun y _ => y.cls != .so) = true := by
  decide +kernel

/-! ## Contexts, messages and barriers -/

/-- Context `x` of core 0 with a state and nothing else. -/
def slotIn (x : Slot) (st : CtxSt) (s : State) : State := s.setCtx 0 x { Ctx.reset with st := st }

theorem witness_ContextZeroInstructions :
    let s := reg 5 1 base
    let t := reg 5 16 (reg 6 2 (reg 7 1 base))
    let vls := s.setCtx 0 1 { Ctx.reset with st := .blocked, wait := some .reply, fetched := some (0x8C000000, 0) }
    s.pendingOf [5, 6, 7] = false ∧ s.pendingOf [4, 5, 6, 7] = false ∧ (vls.ctx 0 1).inVls = true ∧
    (vls.ctx 0 1).st = .blocked ∧ ((slotIn 1 .blocked s).ctx 0 1).inVls = false ∧
    (s.ctx 0 1).outstanding = false ∧ ((slotIn 1 .trapped s).ctx 0 1).flushed.skip = false ∧
    other.slot ≠ 0 ∧ s.slot = 0 ∧ U (base.rg 5) = 0 ∧ 15 < U (t.rg 5) ∧
    U (s.rg 6) % 4 = 0 ∧ U (t.rg 6) % 4 ≠ 0 ∧ U (t.rg 7) % 512 ≠ 0 ∧ s.rg 5 = wrapU 1 ∧
    (s.ctx 0 1).st = .free ∧ ((slotIn 1 .run s).ctx 0 1).st ≠ .free ∧ (s.ctx 0 1).ending = false ∧
    ((slotIn 1 .blocked s).ctx 0 1).st ∈ [CtxSt.run, .blocked] ∧ ((slotIn 1 .run s).ctx 0 1).skipping = false ∧
    ((slotIn 1 .trapped s).ctx 0 1).st ∈ [CtxSt.stopped, .trapped] ∧ ((slotIn 1 .trapped s).ctx 0 1).skip = false ∧
    (∀ y : Slot, (s.mine.ctxs[y]).st ≠ .exited) ∧
    (∀ y : Slot, y < 1 → ((slotIn 1 .exited s).mine.ctxs[y]).st ≠ .exited) ∧
    ((slotIn 1 .exited s).mine.ctxs[(1 : Slot)]).st = .exited ∧ (∀ p : Fin 4, s.mine.ready[p] = []) ∧
    (let q := s.modMine fun c => { c with ready := c.ready.set 3 [9] }
     (∀ o : Fin 4, o < 3 → q.mine.ready[o] = []) ∧ q.mine.ready[(3 : Fin 4)] = [9] ∧ q.mine.ring = []) ∧
    ({ s.mine with event := 1 } : Core).event ≠ 0 := by decide +kernel

/-- An idle context 0 whose turn it is, and an event. -/
theorem witness_ContextZeroInstructions_redirect :
    let s := State.reset.placed 0x04A02801
    let t := (s.modCore 0 fun c => { c with delivery := true, event := 1 }).modCtx 0 0 fun c => { c with st := .blocked }
    let before : State := { t with sched := [], turn := t.turn + 1 }
    t.retry = [] ∧ t.urgent = [] ∧ t.dueInput = none ∧ t.sched = [0] ∧ (t.cores[t.turn]?).map (·.1) = some 0 ∧
    before.mayIssue 0 0 = false ∧ before.owner = 0 ∧ before.redirects 0 0 = true ∧
    15 < U ((reg 6 16 base).rg 6) ∧ U ((reg 7 512 base).rg 7) % 512 = 0 := by decide +kernel

theorem witness_ContextEnds :
    let s := (slotIn 1 .run other).modCtx 0 1 fun c => { c with bind := 1 }
    let t := s.setMe { s.me with pend := 2 }
    let u := s.setMe { s.me with ending := true, origin := true, st := .blocked }
    let w := (reg 5 1 (slotIn 1 .stopped base)).modCtx 0 1 fun c => { c with bind := 1 }
    let v := w.modCtx 0 1 fun c => { c with pend := 2 }
    s.slot ≠ 0 ∧ s.me.pend = 0 ∧ s.me.posted = [] ∧ s.me.bind ≠ 2 ∧ s.mine.jobs = [] ∧ s.me.launch = none ∧
    t.me.pend ≠ 0 ∧ w.slot = 0 ∧ w.pendingOf [5] = false ∧ w.rg 5 = wrapU (1 : Slot).val ∧
    (w.ctx 0 1).st ∈ [CtxSt.stopped, .trapped] ∧ (w.ctx 0 1).ending = false ∧ (w.ctx 0 1).wait = none ∧
    (w.ctx 0 1).pend = 0 ∧ (w.ctx 0 1).posted = [] ∧ (w.ctx 0 1).launch = none ∧ w.mine.jobs = [] ∧
    (w.ctx 0 1).bind ≠ 2 ∧ (w.ctx 0 1).fetched = none ∧ (v.ctx 0 1).pend ≠ 0 ∧
    (u.ctx 0 1).ending = true ∧ (u.ctx 0 1).pend = 0 ∧ (u.ctx 0 1).wait = none ∧ (u.ctx 0 1).posted = [] ∧
    (u.ctx 0 1).fetched = none ∧ (u.ctx 0 1).bind ≠ 2 ∧ (u.core 0).jobs = [] ∧ (u.ctx 0 1).launch = none ∧
    ((u.modCtx 0 1 fun c => { c with pend := 2 }).ctx 0 1).pend ≠ 0 := by decide +kernel

theorem witness_SpillAndFill :
    let s := reg 6 1 (reg 7 0x7FE00 base)
    let t := slotIn 1 .stopped s
    let bad := s.storeLocal 0 (0x7FE00 + 0x178) 8 512
    let f := (slotIn 1 .filling s).modCore 0 fun c => { c with fills := [⟨1, 0x7FE00, some 5⟩] }
    s.pendingOf [5, 6, 7] = false ∧ s.slot = 0 ∧ s.rg 6 = wrapU (1 : Slot).val ∧ U (s.rg 7) % 512 = 0 ∧
    U (s.rg 7) + 512 ≤ s.window s.myPart ∧ (s.ctx 0 1).ending = false ∧
    (s.ctx 0 1).st ∉ [CtxSt.stopped, .trapped] ∧ (t.ctx 0 1).st ∈ [CtxSt.stopped, .trapped] ∧
    (t.ctx 0 1).wait = none ∧ (t.ctx 0 1).st ≠ .free ∧ (s.ctx 0 1).st = .free ∧
    (let m : Move := ⟨1, 0x7FE00, some 5⟩
     let u := ((slotIn 1 .spilling s).modCtx 0 1 fun c => { c with image := 0x7FE00, hit := true }).modCore 0 fun c =>
      { c with spills := [m], watches := [(0x7FDF8, .slot 1)] }
     u.wf = true ∧ (u.ctx 0 1).st = .spilling ∧ (u.ctx 0 1).quiet = true ∧ (u.ctx 0 1).wwrites = [] ∧
     (u.core 0).spills = [m] ∧ (∀ w ∈ (u.core 0).watches, w.1 + 8 ≤ (u.ctx 0 1).image ∨ (u.ctx 0 1).image + 512 ≤ w.1)) ∧
    ((s.modCore 0 fun c => { c with vecEng := ⟨some (.slot 2), none⟩ }).mine.engine 1).owner ≠ some (.image 0x7FE00) ∧
    (s.storeLocal 0 (0x7FE00 + 0x178) 8 1).loadLocal 0 (0x7FE00 + 0x178) 8 % 4 ≠ 0 ∧ 512 ≤ bad.loadLocal 0 (0x7FE00 + 0x178) 8 ∧
    s.loadLocal 0 (0x7FE00 + 0x178) 8 < 512 ∧ s.loadLocal 0 (0x7FE00 + 0x180) 8 < 65536 ∧
    s.loadLocal 0 (0x7FE00 + 0x178) 8 % 4 = 0 ∧ (f.core 0).fills = [⟨1, 0x7FE00, some 5⟩] ∧ (f.core 0).kept = [] ∧
    (f.ctx 0 1).st = .filling := by decide +kernel

theorem witness_WatchesSemaphoresEngines :
    let s := reg 5 0x7FFF8 base
    let four := s.modMine fun c => { c with watches := [(0, .slot 0), (8, .slot 0), (16, .slot 0), (24, .slot 0)] }
    let q := base.modMine fun c => { c with sems := c.sems.set 0 ⟨0, [3]⟩ }
    let one := base.modMine fun c => { c with sems := c.sems.set 7 ⟨1, []⟩ }
    let b := reg 6 1 base
    s.pendingOf [5, 6] = false ∧ U ((reg 5 4 base).rg 5) % 8 ≠ 0 ∧ U (s.rg 5) % 8 = 0 ∧
    U (s.rg 5) + 8 ≤ s.window s.myPart ∧ s.window s.myPart < U ((reg 5 0x80000 base).rg 5) + 8 ∧
    (∃ e ∈ four.mine.watches.filter (fun e => e.2 = .slot four.slot), e.1 = U ((reg 5 24 four).rg 5)) ∧
    (∀ e ∈ four.mine.watches.filter (fun e => e.2 = .slot four.slot), e.1 ≠ U (four.rg 5)) ∧
    4 ≤ (four.mine.watches.filter (fun e => e.2 = .slot four.slot)).length ∧ s.mine.watches = [] ∧
    ({ s.me with hit := true } : Ctx).hit = true ∧ s.me.hit = false ∧ 8 ≤ U ((reg 5 8 base).rg 5) ∧
    base.rg 5 = wrapU (0 : Fin 8).val ∧ (one.mine.sems[(7 : Fin 8)]).count ≠ 0 ∧
    (base.mine.sems[(0 : Fin 8)]).count = 0 ∧ base.me.posted = [] ∧ (base.mine.sems[(0 : Fin 8)]).queue = [] ∧
    (q.mine.sems[(0 : Fin 8)]).queue = [3] ∧ 3 < U ((reg 6 4 base).rg 6) ∧ b.rg 6 = 1 ∧
    ({ b.mine with vecEng := ⟨some (.slot 2), none⟩ } : Core).vecEng.owner = some (.slot 2) ∧
    Owner.slot 2 ≠ .slot b.slot ∧ b.me.bind = 0 ∧ b.mine.vecEng.owner = none ∧ base.rg 6 = 0 ∧
    (base.setMe { base.me with bind := 1 }).me.bind = 1 := by decide +kernel

theorem witness_Spawning :
    let code' : State := { code with mem := code.mem.writeNat 0x20048 4 0x7C00F001 }
    let s := reg 6 1 (reg 7 0x20048 code')
    let far := reg 6 8192 (reg 7 0x20048 code')
    let r : SpawnReq := ⟨7, 64, 1, 0, 0, 0x20048, 0, 0, 0, 0, 0, false⟩
    let auto := s.modCore 0 fun c => { c with auto := true }
    let full := s.modCore 0 fun c => { c with inbox := [(0, r), (1, r), (2, r), (3, r)] }
    let w := { s.setCtx 0 1 { Ctx.reset with
      st := .blocked, wait := some (.spawn 7 64 5 false), fetched := some (0xC0A63800, 0) } with
      flight := [.spawnRequestArrival r] }
    s.pendingOf [5, 6, 7, 1, 4, 5, 6, 7] = false ∧ s.presentCore s.myPart (U (s.rg 6)) = true ∧
    gets (checkTarget (s.rg 7) 0x0001) s (fun _ t => t.me.posted = []) = true ∧
    far.presentCore far.myPart (U (far.rg 6)) = false ∧
    gets (checkTarget (far.rg 7) 0x0001) far (fun _ _ => true) = true ∧ (auto.core r.target).auto = true ∧
    (auto.core r.target).freeCtx = some 1 ∧ (full.core r.target).auto = false ∧
    4 ≤ (full.core r.target).inbox.length ∧
    (((full.modCore 0 fun c => { c with inbox := [] }).storeLocal 0 (0 + 4096 + 0 + 56) 8 0).ctx 0 1).st = .free ∧
    (w.ctx 0 1).wait = some (.spawn 7 64 5 false) ∧ (w.ctx 0 1).fetched = some (0xC0A63800, 0) ∧
    (w.ctx 0 1).st = .blocked ∧ (w.ctx 0 1).ending = false ∧ w.spawnInFlight 7 = true ∧
    (let at_ := fun (v : Word) (x : State) => checkTargetOf (some (.trap 0x04 (x.rg 6))) v 0x0001 x
     (match at_ 0x20040 far with | .error (.trap 0x02 v) _ => v == 0x20040 | _ => false) = true ∧
     (match at_ 0x30000 far with | .error (.block _) _ => true | _ => false) = true) ∧
    stopsAt (checkTarget 0x20041 0x0001) s (fun e => e == .trap 0x03 0x20041) = true := by decide +kernel

theorem witness_Messages :
    let s := reg 6 0x7FFF8 base
    let t := reg 7 0x7FFF8 base
    let w := fun n => base.storeLocal 0 0x7FFF8 8 n
    let full := (w 0x0003000900000001).modCore 0 fun c => { c with ready := c.ready.set 3 (List.replicate 64 9) }
    s.pendingOf [5, 6, 7] = false ∧ U ((reg 6 4 base).rg 6) % 8 ≠ 0 ∧ U (s.rg 6) % 8 = 0 ∧
    s.presentCore s.myPart (U (s.rg 5)) = true ∧ s.presentCore s.myPart (U ((reg 5 8192 s).rg 5)) = false ∧
    U (s.rg 6) + 8 ≤ s.window s.myPart ∧ s.me.posted = [] ∧ U (t.rg 7) % 8 = 0 ∧
    t.presentCore t.myPart (U (t.rg 6)) = true ∧ U (t.rg 7) + 8 ≤ t.window t.myPart ∧
    base.loadLocal 0 0x7FFF8 8 % 2 ^ 32 = 0 ∧ 2 ≤ (w 2).loadLocal 0 0x7FFF8 8 % 2 ^ 32 ∧
    (w 1).loadLocal 0 0x7FFF8 8 % 2 ^ 32 = 1 ∧ (w 1).loadLocal 0 0x7FFF8 8 / 2 ^ 32 % 2 ^ 16 = 0 ∧
    (w 0x0003000900000001).loadLocal 0 0x7FFF8 8 / 2 ^ 32 % 2 ^ 16 ≠ 0 ∧
    (3 : Fin 4).val = (w 0x0003000900000001).loadLocal 0 0x7FFF8 8 / 2 ^ 48 % 4 ∧
    ((w 0x0003000900000001).core 0).ready[(3 : Fin 4)].length < 64 ∧
    64 ≤ (full.core 0).ready[(3 : Fin 4)].length ∧ (full.core 0).rqEn = false ∧
    (w 0xFFFFFFFF).loadLocal 0 0x7FFF8 8 % 2 ^ 32 = 2 ^ 32 - 1 := by decide +kernel

theorem witness_Barriers :
    let s := reg 6 1 (reg 7 2 base)
    let e := s.setObj 0 0 1 { BarObj.reset with arr := 2, left := 2 }
    let l := s.setObj 0 0 1 { BarObj.reset with arr := 2, left := 1 }
    let ch : SyncChan := ⟨.quad, scopeInst .quad 0, 0, 1, 2, [(64, 1)]⟩
    s.pendingOf [5, 6, 7] = false ∧ 15 < U ((reg 5 16 s).rg 5) ∧ s.rg 5 = wrapU (0 : Slot).val ∧ U (base.rg 6) = 0 ∧
    65535 < U ((reg 6 65536 s).rg 6) ∧ 0 < U (s.rg 6) ∧ U (s.rg 6) ≤ 65535 ∧ (s.myObj 0).bytes + U (s.rg 6) < 2 ^ 48 ∧
    s.rg 6 = wrapU (1 : Slot).val ∧ (s.myObj 1).left = 0 ∧ (e.myObj 1).left ≠ 0 ∧ (e.myObj 1).left ≠ 1 ∧
    s.me.posted = [] ∧ (l.myObj 1).left = 1 ∧ (l.myObj 1).bytesIn = (l.myObj 1).bytes ∧
    (s.myObj 1).phase ≠ ((reg 7 1 s).rg 7).getLsbD 0 ∧ (s.myObj 1).phase = (s.rg 7).getLsbD 0 ∧
    scopeMasked s .quad = false ∧ U (s.rg 6) ≤ 3 ∧ base.rg 7 = 0 ∧ s.chans = [] ∧ (reg 7 1 s).rg 7 = 1 ∧
    1 < U (s.rg 7) ∧ U (s.rg 7) ≤ 2 ^ 22 ∧
    ({ s with chans := [ch] } : State).chans =
      [⟨.quad, scopeInst .quad s.myCore, s.myPart, U (s.rg 6), [((64 : Nat), (1 : Slot))].length + 1, [(64, 1)]⟩] ∧
    U (s.rg 7) = [((64 : Nat), (1 : Slot))].length + 1 ∧
    U ((reg 7 3 s).rg 7) ≠ [((64 : Nat), (1 : Slot))].length + 1 := by decide +kernel

theorem witness_TrapEntry : other.me.ending = false ∧ other.slot ≠ 0 ∧ base.slot = 0 ∧ other.mine.delivery = false := by
  decide +kernel

theorem witness_Barriers_stops :
    15 < U ((reg 6 16 base).rg 6) ∧ 3 < U ((reg 6 4 base).rg 6) ∧ scopeMasked base .quad = false ∧
    scopeMasked (base.modPart 0 fun e => { e with cfg := { e.cfg with feat := BitVec.ofNat 11 (2 ^ 7) } }) .pod = true := by
  decide +kernel

theorem witness_Messages_ring :
    let w := base.storeLocal 0 0x7FFF8 8 0x0003000900000001
    let full := w.modCore 0 fun c => { c with ready := c.ready.set 3 (List.replicate 64 9), rqEn := true }
    let far := reg 6 0x80000 base
    base.window base.myPart < U (far.rg 6) + 8 ∧ U (far.rg 6) % 8 = 0 ∧ far.presentCore far.myPart (U (far.rg 5)) = true ∧
    (3 : Fin 4).val = full.loadLocal 0 0x7FFF8 8 / 2 ^ 48 % 4 ∧ full.loadLocal 0 0x7FFF8 8 / 2 ^ 32 % 2 ^ 16 ≠ 0 ∧
    full.loadLocal 0 0x7FFF8 8 % 2 ^ 32 = 1 ∧ 64 ≤ (full.core 0).ready[(3 : Fin 4)].length ∧
    (full.core 0).rqEn = true ∧ (full.core 0).ring = [] := by decide +kernel

theorem witness_Spawning_inbox :
    (base.core 0).auto = false ∧ (base.core 0).inbox = [] ∧ (base.core 0).inboxAt = 0 := by decide +kernel

theorem witness_WatchesSemaphoresEngines_bind :
    let held := base.modMine fun c => { c with mtxEng := ⟨some (.slot 2), none⟩, cpyEng := ⟨some (.slot 2), none⟩ }
    (reg 6 2 base).rg 6 = 2 ∧ (reg 6 3 base).rg 6 = 3 ∧ base.me.bind = 0 ∧ base.mine.mtxEng.owner = none ∧
    base.mine.cpyEng.owner = none ∧ held.mine.mtxEng.owner = some (.slot 2) ∧
    held.mine.cpyEng.owner = some (.slot 2) ∧ Owner.slot 2 ≠ .slot held.slot := by decide +kernel

/-! ## State registers and services -/

/-- Context 0 of the service core executes, and has a home reply. -/
def atSvc : State :=
  let s : State := { data with cur := { data.cur with key := 64 } }
  s.setCtx 64 0 { Ctx.reset with st := .run, replies := 1 }

/-- A feature is masked. -/
def without (f : Nat) (s : State) : State :=
  s.modPart 0 fun e => { e with cfg := { e.cfg with feat := BitVec.ofNat 11 (2 ^ f) } }

theorem witness_StateRegisterReads :
    base.pendingOf [5] = false ∧ atSvc.myCore = (atSvc.cfg atSvc.myPart).svcCore ∧ atSvc.masked atSvc.myPart 10 = false ∧
    base.myCore ≠ (base.cfg base.myPart).svcCore ∧ (without 10 base).masked 0 10 = true ∧ (0x3F : BitVec 12) < 0x40 ∧
    base.masked base.myPart 10 = false ∧ lrsOf (base.cfg base.myPart) base.myDie = some (2, 0) ∧
    (let s := base.modPart 0 fun e => { e with cfg := { e.cfg with lrs := [] } }
     lrsOf (s.cfg s.myPart) s.myDie = none) ∧
    other.slot ≠ 0 ∧ windowOpen (base.ctx base.key base.selected).st = false ∧ base.slot = 0 ∧
    windowOpen ((base.modCore 0 fun c => { c with sel := 1 }).ctx 0 1).st = true := by decide +kernel

theorem witness_StateRegisterWrites :
    let s := reg 5 0 (base.modCore 0 fun c => { c with sel := 1 })
    let one := reg 5 1 s
    s.pendingOf [5] = false ∧ s.masked s.myPart 10 = false ∧ U (s.rg 5) % 4096 < 2 ∧ U ((reg 5 31 s).rg 5) < 32 ∧
    U ((reg 5 28 s).rg 5) % 8 < 5 ∧ s.slot = 0 ∧ 0 < U (one.rg 5) ∧ U (one.rg 5) < 2 ^ 32 ∧ U (one.rg 5) < 16 ∧
    s.rg 5 = 0 ∧ other.slot ≠ 0 ∧ s.refusesWrite 0x048 = false ∧ badValue 0x048 ((reg 5 16 s).rg 5) = true ∧
    (let small := s.modPart 0 fun e => { e with cfg := { e.cfg with w := 0x8000 } }
     small.refusesWrite 0x045 = false ∧ small.areaFaults 0x045 0x8001 = true ∧ small.areaFaults 0x047 0x7F801 = true ∧
     (0x8000 : Word) &&& ~~~0x7FFE3 = 0 ∧ small.window small.myPart < U (0x8000 : Word) / 2 ^ 13 * 8192 + 8192) ∧
    windowOpen (s.ctx s.key s.selected).st = true ∧ s.rg 5 &&& ~~~0x100FF = 0 ∧ (s.ctx 0 1).wait = none ∧
    (s.ctx 0 1).fetched = none ∧ (s.ctx 0 1).wwrites = [] ∧
    (let t := s.setCtx 0 1 { Ctx.reset with st := .stopped, wait := some (.token 32) }
     windowOpen (t.ctx t.key t.selected).st = true ∧ (t.ctx 0 1).wait ≠ none) := by decide +kernel

theorem witness_SystemInstructions :
    base.pendingOf [5, 6] = false ∧ base.rg 6 = 0 ∧ (reg 6 1 base).rg 6 = 1 ∧ (reg 6 4 base).rg 6 ∈ [(2 : Word), 3, 4] ∧
    0x19 < U ((reg 6 0x1A base).rg 6) ∧ base.me.posted = [] ∧
    (let s := base.setCtx 0 1 { Ctx.reset with st := .blocked, wait := some (.line 0 5) }
     let q : OpenReq := ⟨3, 9, true, 5, 0, 0, false, true, [], 0, none, none, none⟩
     let m := s.modDie 0 fun d => { d with reqs := [q] }
     partOf 0 = s.myPart ∧ (1 : Slot) ≠ s.slot ∧ (s.ctx 0 1).fetched = none ∧ (s.ctx 0 1).wait = some (.line 0 5) ∧
     (s.openReq 0 0 5).any (·.marked) = false ∧ (m.openReq 0 0 5).any (·.marked) = true) := by decide +kernel

theorem witness_ServiceInstructions :
    let s := (reg 6 0x21000 (reg 5 0xFFFFFF atSvc)).modPart 0 fun p => { p with mapAt := 0x100000 }
    let x := reg 5 0x10007 atSvc
    let r := reg 6 0x40 atSvc
    let e := (s.cfg 0).frametab * 4096 + 4 * frameOf (U (s.rg 6))
    let home := s.homeAgent 0 (s.steer 0 e)
    let t : State := { s with cur := { s.cur with used := s.cur.used + 1 } }
    s.pendingOf [5, 6] = false ∧ base.onSvc = false ∧ isLrs (base.cfg 0) base.myCore = false ∧ s.onSvc = true ∧
    s.me.posted = [] ∧ 2 ^ 17 ≤ U ((reg 5 0x20000 atSvc).rg 5) ∧ 2 ^ 16 ≤ U (x.rg 5) ∧ U (x.rg 5) < 2 ^ 17 ∧
    (x.invalidate 0 7 0 5).underWay 0 = false ∧ ((x.postWrite 0 0 (.evict 0) 0x21000 1 0).invalidate 0 7 0 5).underWay 0 = true ∧
    U ((reg 6 1 atSvc).rg 6) % 4096 ≠ 0 ∧ U (base.rg 6) % 4096 = 0 ∧ U (s.rg 6) % 4096 = 0 ∧
    s.admits 0 e = true ∧ s.inCoreMap (loc e) = false ∧
    (s.modPart 0 fun p => { p with cfg := { p.cfg with keys := [] } }).admits 0 e = false ∧
    (let walk := fun (w : Nat) => ({ x with flight := [.translationWalk ⟨.ctx 0 1, 0, 0, 7, BitVec.ofNat 64 w, .load, none⟩] } :
       State)
     (walk 0x5000).walksUnder 0 7 0 5 = true ∧ x.walksUnder 0 7 0 5 = false ∧ (walk 0x5000).walksUnder 0 7 0x5008 0 = true ∧
     (walk 0x5000).walksUnder 0 7 0x6000 0 = false) ∧
    (let u := fun (b : Bool) => x.setCtx 64 0 { x.me with wait := some (.xinv 7 0x5000 0 b) }
     ((u true).ctx 64 0).wait = some (.xinv 7 0x5000 0 true) ∧ ((u false).ctx 64 0).wait = some (.xinv 7 0x5000 0 false) ∧
     (u true).underWay 0 = false ∧ (u true).queuedUnder 0 7 0x5000 0 = false) ∧
    (let m := s.modPart 0 fun p => { p with mapAt := e / 65536 * 65536 }
     m.inCoreMap (loc ((m.cfg 0).frametab * 4096 + 4 * frameOf (U (m.rg 6)))) = true) ∧
    place (loc (U (s.rg 6))) = .dram 0 ∧ 0 ∈ (s.cfg 0).dies ∧ -0xFFFFFF ≤ S (s.rg 5) ∧ S (s.rg 5) ≤ 0xFFFFFF ∧
    s.cur.used < s.me.replies ∧ s.badLine 0 e true = false ∧
    gets (ownLine home 0 e) t (fun _ u => gets (readLine home 0 e) u fun _ _ => true) = true ∧
    isRecord (ringsOf (s.cfg 0) s.myCore) (U (s.rg 6)) = false ∧
    isRecord (ringsOf (r.cfg 0) r.myCore) (U (r.rg 6)) = true ∧ U (r.rg 6) + 64 ≤ r.window 0 ∧
    r.loadLocal r.key (U (r.rg 6) + 56) 8 = 0 ∧ U (r.rg 5) ≤ 1 := by decide +kernel

/-! ## The vector unit -/

/-- Context 0 holds engine `n`. -/
def bound (n : BitVec 2) : State := base.setMe { base.me with bind := n }

theorem witness_VectorLanes :
    (bound 1).me.bind = 1 ∧ (bound 1).masked 0 6 = false ∧ base.me.bind ≠ 1 ∧ (without 6 base).masked 0 6 = true := by
  decide +kernel

theorem witness_VectorMoves :
    (bound 1).pendingOf [5, 6, 7] = false ∧ (bound 1).me.bind = 1 ∧ (bound 1).formatMasked 0 3 = false ∧
    (bound 1).formatMasked 0 0 = false ∧ (without 0 (bound 1)).formatMasked 0 3 = true := by decide +kernel

/-- A tree of sums over the lanes of a group. -/
def sums (mo : Mode) (lane : Nat → Option W32) : Nat → Nat → Option W32
  | 0, l => lane l
  | k + 1, i =>
    match sums mo lane k (2 * i), sums mo lane k (2 * i + 1) with
    | some x, some y => some (fpAdd mo x y)
    | some x, none => some x
    | none, y => y

theorem witness_VectorMoves_tree (mo : Mode) (lane : Nat → Option W32) :
    (∀ l < 32, sums mo lane 0 l = lane l) ∧ ∀ k < 5, ∀ i < 32 / 2 ^ (k + 1), sums mo lane (k + 1) i =
      match sums mo lane k (2 * i), sums mo lane k (2 * i + 1) with
      | some x, some y => some (fpAdd mo x y)
      | some x, none => some x
      | none, y => y := ⟨fun _ _ => rfl, fun _ _ _ _ => rfl⟩

/-- The sum of the ones of 32 lanes, and of one lane. -/
theorem test_tree :
    ((sums rne (fun l => if l < 32 then some 0x3F800000 else none) 5 0).getD 0 = 0x42000000) ∧
    sums rne (fun l => if l = 31 then some 0x3F800000 else none) 5 0 = some 0x3F800000 ∧
    (let s := bound 1
     let v := s.modMine fun c => { c with q := c.q.set 1 (0x80000000 : W32), v := c.v.set 6 (BitVec.allOnes 1024) }
     v.mine.active 1 31 = true ∧ ∀ l < 31, v.mine.active 1 l = false) := by decide +kernel

theorem witness_FormatsRoundTrip_lanes :
    let mag := fun (w : W32) => w.toNat % 2 ^ 31
    (modeOf 0).rm < 5 ∧ mag 0xBF800000 < 0x7F800000 ∧ (0xBF800000 : W32).getLsbD 31 = true ∧ mag 0xBF800000 ≠ 0 ∧
    mag 0x80000000 = 0 ∧ mag 0xFF800000 = 0x7F800000 ∧ isNan 0x7F800001 = true ∧ mag 1 < 2 ^ 23 ∧ (modeOf 8).fz = true := by
  decide +kernel

/-- Sums, roots and powers whose rounding is known: 1 + 2^−24 under RNE and RUP, √2, 2^0.5, and 2 ÷ 3 (R216). -/
theorem test_lanes :
    fpAdd rne 0x3F800000 0x33800000 = 0x3F800000 ∧ fpAdd ⟨3, false, false⟩ 0x3F800000 0x33800000 = 0x3F800001 ∧
    fpSqrt rne 0x40000000 = 0x3FB504F3 ∧ fpExp2 rne 0x3F000000 = 0x3FB504F3 ∧ fpDiv rne 0x40000000 0x40400000 = 0x3F2AAAAB ∧
    fpMul rne 0x7F000000 0x7F000000 = 0x7F800000 ∧ fpMul ⟨1, false, false⟩ 0x7F000000 0x7F000000 = 0x7F7FFFFF := by
  decide +kernel

theorem witness_FormatsRoundTrip :
    (floatOf 0).isSome = true ∧ (floatOf 3).isSome = true ∧ (modeOf 0).fz = false ∧ (modeOf 0).sat = false ∧
    ((floatOf 0).any fun f => f.inf = some (0x7F800000 % 2 ^ (f.ew + f.mw)) && decide (0x7F7FFFFF ≤ f.top) &&
      f.decode 0x7F800001 = .nan) = true := by decide +kernel

theorem witness_LaneAccesses :
    let s := reg 6 0x7FF80 (bound 1)
    s.wf = true ∧ s.pendingOf [6, 7] = false ∧ s.me.bind = 1 ∧ s.me.vprog = 0 ∧ s.masked s.myPart 5 = false ∧
    s.mine.watches = [] ∧ s.mine.ring = [] ∧
    (∀ l < 32, U (s.rg 6 + wrapU (4 * l)) % 4 = 0 ∧ U (s.rg 6 + wrapU (4 * l)) + 4 ≤ s.window s.myPart) ∧
    (∀ l < 32, ∀ m < 32, s.rg 6 + wrapU (4 * l) = s.rg 6 + wrapU (4 * m) → l = m) ∧
    s.mine.active 0 31 = true ∧ U ((reg 6 2 s).rg 6 + wrapU (4 * 0)) % 4 ≠ 0 ∧
    s.window s.myPart < U ((reg 6 0x80000 s).rg 6 + wrapU (4 * 0)) + 4 ∧ (without 5 s).masked 0 5 = true := by
  decide +kernel

/-! ## The matrix unit, the copy engine and objects -/

theorem witness_MatrixUnit :
    let s := bound 2
    let full := s.modCore 0 fun c => { c with mqueue := List.replicate 4 (.zero 0) }
    let one := s.modCore 0 fun c => { c with mqueue := [.mma ⟨1, false, 0, 0, 64, 0, 0⟩ ⟨1, false, 0, 0, 64, 0, 0⟩ 3 0] }
    let ld := reg 6 (0x7C00 + 2 ^ 16 * 64) s
    let fp := reg 6 (2 ^ 52) (reg 8 (2 ^ 52) (s.modCore 0 fun c => { c with vecEng := ⟨none, some 0⟩ }))
    s.pendingOf [5, 6, 7, 8, 9] = false ∧ base.me.bind ≠ 2 ∧ (without 4 s).masked 0 4 = true ∧ s.me.bind = 2 ∧
    2 ^ 12 ≤ U ((reg 6 0x1000 s).rg 6) ∧ U (s.rg 6) < 2 ^ 12 ∧ 4 ≤ full.mine.mqueue.length ∧ full.mine.mqueue ≠ [] ∧
    s.mine.mqueue = [] ∧ ld.rg 6 = wrapU (0x7C00 + 2 ^ 16 * 64) ∧ 0x7C00 + 15 * 64 + 64 ≤ 32768 ∧
    (∀ fmt ≤ 4, s.formatMasked 0 fmt = false ∧
      (reg 6 (wrapU (0x7C00 + 2 ^ 16 * 64 + 2 ^ 52 * fmt)) s).rg 6 = wrapU (0x7C00 + 2 ^ 16 * 64 + 2 ^ 52 * fmt)) ∧
    (without 0 s).formatMasked 0 3 = true ∧ 4 < U (wrapU (2 ^ 52 * 5)) / 2 ^ 52 % 16 ∧
    U (wrapU (2 ^ 52 * 3)) / 2 ^ 52 % 16 = 3 ∧
    gets (operand (fp.rg 6) (fp.rg 7) (fp.mine.mcfg.extractLsb' 6 2).toNat) fp (fun x _ =>
      gets (operand (fp.rg 8) (fp.rg 9) (fp.mine.mcfg.extractLsb' 6 2).toNat) fp fun y _ =>
        paired x.fmt y.fmt x.bs y.bs && paired x.fmt 1 x.bs false) = true ∧
    fp.rg 8 = wrapU (2 ^ 52 * 1 + 0) ∧ fp.mmaFormat 0 1 = true ∧ bsAgrees 1 false = true ∧ 0 + widthOf 1 / 2 ≤ 32 ∧
    fp.mine.vecEng.last = some fp.me.asid ∧ paired 1 3 false false = false ∧ s.wf = true ∧
    (one.core 0).mqueue.length = 1 ∧ (one.core 0).mdirty = [] := by decide +kernel

/-- A copy of 64 bytes inside the local memory of core 0. -/
def job : Job := ⟨7, registerCard 0 0x0000000500000040 0x1000 false 0, 0, 0, 0, .running, .slot 0, 0, 5, 0, [], 0, false, none, []⟩

theorem witness_CopyInstructions :
    let s := reg 7 0x0000000500000040 (bound 3)
    let st := fun (x : JobSt) => s.modCore 0 fun c => { c with jobs := List.replicate 32 { job with st := x } }
    let one := fun (x : JobSt) => s.modCore 0 fun c => { c with jobs := [{ job with st := x, tok := 6 }] }
    let hit := reg 6 0x21000 (((bound 3).modDie 0 fun d =>
      { d with xlat := (0x21, ⟨0, 0, 0x21, 0, 0x84C7⟩) :: d.xlat }).setL1 0 line)
    let card := 1 + 256 ^ 8 + 256 ^ 12 * 16 + 256 ^ 40 * 16 + 256 ^ 64 * 16 + 256 ^ 68 * 4
    s.pendingOf [5, 6, 7, 8, 9] = false ∧ base.me.bind ≠ 3 ∧ s.me.bind = 3 ∧ U ((bound 3).rg 7) % 2 ^ 32 = 0 ∧
    U (s.rg 7) % 2 ^ 32 ≠ 0 ∧ s.mine.window.length < 32 ∧ 2 ^ 52 ≤ U ((reg 7 0xFFFF000000000040 s).rg 7) ∧
    U (s.rg 7) < 2 ^ 52 ∧ U (s.rg 7) / 2 ^ 36 % 2 ^ 8 = 0 ∧ s.formatRule 0 1 0 0 64 = none ∧
    s.rg 9 = wrapU (0 : Slot).val ∧ 15 < U ((reg 9 16 s).rg 9) ∧ 32 ≤ (st .failed).mine.window.length ∧
    (∀ j ∈ (st .failed).mine.window, j.st = .failed) ∧ (∃ j ∈ (st .running).mine.window, j.st ≠ .failed) ∧
    U ((reg 6 64 s).rg 6) % 128 ≠ 0 ∧ U (hit.rg 6) % 128 = 0 ∧ hit.me.card = none ∧ hit.me.taken = 0 ∧
    gets (loadG (hit.rg 6) 128) hit (fun raw t => decide (raw < 2 ^ 1024) && (t.cardFault 0 raw).isSome) = true ∧
    s.cardFault 0 card = none ∧ (cardOf card).owners = [] ∧
    2 ^ 35 ≤ U ((reg 8 (2 ^ 35) s).rg 8) ∧ U (s.rg 8) < 2 ^ 35 ∧ s.mine.jobs = [] ∧ 1 < U ((reg 8 2 s).rg 8) ∧
    (∀ j ∈ (one .running).mine.jobs, j.st ≠ .failed) ∧
    (one .failed).mine.jobs = [{ job with st := .failed, tok := 6 }] ∧ Owner.slot 0 = .slot s.slot ∧ s.rg 8 = 0 ∧
    U (s.rg 6) % 2 ^ 32 = 0 ∧ ({ job.card with jid := 9 } : Card).jid ≠ 0 := by decide +kernel

theorem witness_JobSteps :
    let one := fun (j : Job) => base.modCore 0 fun c => { c with jobs := [j] }
    let bad := { job with card := registerCard 1 0x0000000500000040 0xFFFFFFFFFFFF0000 false 0 }
    let far := { job with card := registerCard 0x30000 0x0000000400000040 0x1000 false 0 }
    let posted : State := { one { job with st := .waiting } with
      flight := [.postedWriteArrival ⟨.store 0 1, .die 0 none, 0, 0, 0x21000, 1, 0⟩] }
    let start := fun (j : Job) => (one j).modJob 0 7 fun j => { j with st := .running }
    (one job |>.core 0).jobs = [] ++ job :: [] ∧ job.id = 7 ∧ job.asking = false ∧ job.refused = none ∧
    (one job).runsOn (partOf 0) (dieOfCore (coreOf 0)) = true ∧ job.st = .running ∧ (one job).wf = true ∧
    job.prog < job.card.rows * job.card.rowlen ∧
    ({ job with prog := 64 } : Job).card.rows * job.card.rowlen ≤ ({ job with prog := 64 } : Job).prog ∧
    (one job).storesInFlight (coreOf 0) = false ∧
    gets (jobAdvance 0 job) (start job) (fun _ _ => true) = true ∧ posted.storesInFlight (coreOf 0) = true ∧
    stopsAt (jobAdvance 0 bad) (start bad) (fun e => match e with
      | .trap _ _ => true
      | _ => false) = true ∧
    stopsAt (jobAdvance 0 far) (start far) (fun e => e = .block .walk) = true ∧
    job.holds = [] ∧ ({ job with holds := [0x21001] } : Job).holds ≠ [] ∧ job.card.bound = false ∧
    (registerCard 0 0x0000000500000040 0x1000 true 0).bound = true ∧ job.owner = .slot 0 := by decide +kernel

/-- The plain copy of `job`, byte by byte. -/
theorem witness_JobSteps_copy :
    let s := base.modCore 0 fun c => { c with jobs := [job] }
    let c := job.card
    c.kind = 1 ∧ c.sfmt = c.dfmt ∧ (c.region 0).space = .l ∧ (c.region 1).space = .l ∧ (s.core 0).watches = [] ∧
    (s.core 0).ring = [] ∧ c.rows * c.rowlen = 64 ∧
    (let dst := fun (q : Nat) => (c.region 1).base + wrapU (q / c.rowlen * c.dpitch + q % c.rowlen)
     ∀ q < 64, U ((c.region 0).base + wrapU (q / c.rowlen * c.spitch + q % c.rowlen)) < s.window 0 ∧
      U (dst q) < s.window 0 ∧
      place (loc (localLoc (coreOf 0) (s.localBase 0) + U (dst q))) = .lcl (coreOf 0) (s.localBase 0 + U (dst q))) ∧
    job.wrote = [] := by decide +kernel

/-- A copy onto the byte after its source repeats the first byte, since it goes byte after byte (R239). -/
theorem test_copy_overlaps :
    let j : Job := { job with card := registerCard 0x100 0x0000000500000004 0x101 false 0 }
    let s := (base.storeLocal 0 0x100 5 0x5544332211).modCore 0 fun c => { c with jobs := [j] }
    (match exec (.jobStart 0 7) s with
      | .next t => t.loadLocal 0 0x100 5 == 0x1111111111
      | _ => false) = true := by decide +kernel

/-- An earlier job that writes the same bytes. -/
theorem witness_JobSteps_clash :
    let before := [{ job with id := 6 }]
    let x := job.card.region 1
    (∀ i ∈ before, i.id ≠ 7) ∧ ∃ i ∈ before, i.st ≠ .leaving ∧ x ∈ i.card.regions ∧ x ∈ job.card.regions ∧
      x.write = true ∧ (x.extent 0 i.asid).1 = (x.extent 0 job.asid).1 ∧
      (x.extent 0 i.asid).2 < (x.extent 0 job.asid).2 + x.len := by decide +kernel

theorem witness_JobSteps_holds :
    let s := (data.modHw 0 fun h => { h with l1 := [], xjob := [⟨0, 0, 0x21, 0, 0x84C7⟩] }).modCore 0 fun c =>
      { c with jobs := [{ job with holds := [0x21000] }] }
    let rec_ := s.modPart 0 fun e => { e with reclaim := [(0, 0x21001)] }
    let held : State := { rec_ with mem := rec_.mem.writeNat 0x21100 8 0x0001000100000000 }
    let two : State := { rec_ with mem := rec_.mem.writeNat 0x21100 8 0x0002000000000000 }
    let full : State := { rec_ with mem := rec_.mem.writeNat 0x21000 8 510 }
    let good := fun (w : Nat) (x : State) => gets (headerAt 0 job 0x21100) x fun pa t =>
      !t.badLine 0 pa true && gets (ownedWord 0 pa false) t fun v _ => v == w
    let ring := fun (x : State) (p : Nat → Nat → Xlated → State → Bool) =>
      gets (jobTranslate 0 job 0x21000 .jobWrite) x fun ring t => gets (jobOwn 0 job 0x21000 ring true) t fun _ u =>
        gets (ownedWord 0 ring.pa true) u fun n v => gets (ownedWord 0 (ring.pa + 8) true) v fun c w => p n c ring w
    good 0x0001000100000000 held = true ∧ good 0x0002000000000000 two = true ∧
    gets (headerAt 0 job 0x21100) { held with memErr := [tagOf (lineOf 0x21100) 0] } (fun pa t => t.badLine 0 pa true) = true ∧
    stopsAt (headerAt 0 job 0x8000000000000000) held (fun e => match e with | .trap _ _ => true | _ => false) = true ∧
    (held.reclaimOf (partOf 0) job.asid).getLsbD 0 = true ∧ (s.reclaimOf (partOf 0) job.asid).getLsbD 0 = false ∧
    (0x21003 : Word).getLsbD 1 = true ∧ (0x21001 : Word).getLsbD 1 = false ∧
    ring held (fun n c r w => decide (c ≤ n) && decide (n - c < 510) &&
      gets (jobOwn 0 job (0x21000 + wrapU (0x10 + 8 * (n % 510))) { r with pa := r.pa + 0x10 + 8 * (n % 510) } true) w
        fun _ _ => true) = true ∧
    ring full (fun n c _ _ => decide (n < 2 ^ 64) && decide (c ≤ n) && decide (n - c = 510)) = true := by decide +kernel

theorem witness_ObjectInstructions :
    let s := reg 6 0x21001 data
    let key : IcEntry := ⟨0, 0, 0, 0, 0, 3⟩
    let t := base.modHw 0 fun h => { h with ic := [key] }
    let asked := (t.setMe { t.me with taken := 1 }).icAsk 0
    base.pendingOf [5, 6, 7] = false ∧ (without 9 base).masked 0 9 = true ∧ base.masked base.myPart 9 = false ∧
    -(2 ^ 60) ≤ S ((reg 6 0xF000000000000000 base).rg 6) ∧ 2 ^ 60 - 1 < S ((reg 6 0x1000000000000000 base).rg 6) ∧
    U (base.rg 6) % 8 = 0 ∧ U (s.rg 6) % 8 ≠ 0 ∧ U ((reg 6 3 base).rg 6) % 2 ^ 32 = 3 ∧
    U (base.rg 6) % 2 ^ 32 ≠ 3 ∧ U ((reg 6 9 base).rg 6) % 16 = 9 ∧ U (s.rg 6) % 16 = 1 ∧ canonical (s.rg 6 - 1) = true ∧
    s.l1Look (s.rg 6 - 1) = some line ∧ line.loadHits s.mine.gen (U (s.rg 6 - 1) % 128) 8 = true ∧
    s.badLine s.myPart line.pa false = false ∧ badKey 0x0100000000000000 = true ∧ badKey (base.rg 6) = false ∧ base.icMatch 0 0 = none ∧
    t.icMatch (siteOf (t.rg 6)) (shapeOf (t.rg 6)) = some key ∧ 2 ^ 63 ≤ U ((reg 7 0x8000000000000000 base).rg 7) ∧
    U (base.rg 7) < 2 ^ 63 ∧ 2 ^ 32 ≤ U ((reg 6 0x100000000 base).rg 6) ∧ U (base.rg 6) < 2 ^ 32 ∧
    base.me.posted = [] ∧ base.me.taken = 0 ∧
    ((t.hw.map (·.1)).filter fun c => (t.cfg t.myPart).dies.contains (dieOfCore c)) ≠ [] ∧ asked.me.taken ≠ 0 ∧
    asked.icPending asked.key asked.slot = true ∧ (t.setMe { t.me with taken := 1 }).icPending t.key t.slot = false ∧
    asked.icinv ≠ [] ∧ asked.choices = [] ∧ badGuard 0x0400000000000000 = true ∧ badGuard (0x0100000000000000 : Word) = false ∧
    (0x0100000000000000 : Word).getLsbD 56 = true ∧ badGuard 0 = false ∧ (0 : Word).getLsbD 56 = false ∧
    U (base.rg 6) % 8 ≠ 1 := by decide +kernel

theorem witness_ObjectInstructions_counts :
    let l := fun (h : Nat) => (⟨lineOf 0x21000, 0, 0, BitVec.ofNat 1024 (h * 256 ^ 0x70), none⟩ : AlbLine)
    let s := fun h => reg 6 0x21071 (data.modHw 0 fun y => { y with alb := [l h] })
    let meets := fun (h : Nat) => gets (translate ((s h).rg 6 - 1) .atomic) (s h) fun x t => t.me.posted = [] &&
      place (loc x.pa) = .dram 0 && !t.badLine t.myPart x.pa true && t.clsOf x ≠ .so &&
      t.albLine t.myCore t.myPart (t.steer t.myPart x.pa) = some (l h) && decide (x.pa % 128 + 16 ≤ 128) &&
      decide ((l h).data.toNat / 256 ^ (x.pa % 128) % 2 ^ 128 = h)
    (s 0).pendingOf [5, 6] = false ∧ U ((s 0).rg 6) % 16 = 1 ∧ meets 0 = true ∧ meets (2 ^ 64) = true ∧
    meets (2 ^ 65) = true ∧ meets (2 ^ 64 * 0xFFFFFFFF) = true ∧ meets (2 ^ 64 + 2 ^ 48) = true ∧
    U ((reg 6 2 data).rg 6) % 4 ≠ 0 := by decide +kernel

theorem witness_ObjectInstructions_next :
    let s := reg 6 0x20104 ((code.modPart 0 fun e => { e with bctab := [(0, 0x20080)] }))
    U (s.rg 6) % 4 = 0 ∧
    gets (loadG (s.rg 6) 4) s (fun u t => decide (u < 2 ^ 32) && t.bctabOf t.myPart t.me.asid = 0x20080 &&
      gets (loadG 0x20080 8) t fun h v => decide (h / 2 ^ 32 ≠ 0) && decide (h < 2 ^ 64) && decide (u % 256 < h / 2 ^ 32) &&
        gets (loadG (0x20080 + wrapU (8 + 4 * 1)) 4) v fun e w =>
          gets (checkTarget (0x20080 + wrapS (BitVec.ofNat 32 e).toInt) (BitVec.ofNat 16 (h + 1 / 16))) w fun _ _ =>
            true) = true := by decide +kernel

/-! ## The core's own steps and page migration -/

theorem witness_CoreAndMigrationSteps :
    let w := fun (e : Wait) => base.setCtx 0 1 { Ctx.reset with st := .blocked, wait := some e }
    let idle := base.modCore 0 fun c => { c with delivery := true, event := 1 }
    let lrw := (w (.lrw 9 8 0x400 5)).setSync 0 8 ⟨true, none, [⟨0, 1, 9, true, true⟩], 0⟩
    let later := (w (.lrw 9 8 0x400 5)).setSync 0 8 ⟨true, none, [⟨0, 2, 4, true, true⟩, ⟨0, 1, 9, false, false⟩], 0⟩
    (idle.core 0).delivery = true ∧ (idle.core 0).event ≠ 0 ∧ (base.core 0).delivery = false ∧
    (base.core 0).event = 0 ∧ ((w (.token 32)).ctx 0 1).ending = false ∧ ((w (.token 32)).ctx 0 1).st = .blocked ∧
    ((w (.token 32)).ctx 0 1).wait = some (.token (BitVec.ofNat 32 32)) ∧ ((w (.synCompare 3)).ctx 0 1).wait = some (.synCompare 3) ∧
    ((w (.semp 7)).ctx 0 1).wait = some (.semp (7 : Fin 8).val) ∧
    ((w (.synWait 8 5)).ctx 0 1).wait = some (.synWait 8 5) ∧ (lrw.ctx 0 1).wait = some (.lrw 9 8 0x400 5) ∧
    (lrw.syncLine (partOf 0) 8).queue = ⟨0, 1, 9, true, true⟩ :: [] ∧
    (later.syncLine (partOf 0) 8).queue = ⟨0, 2, 4, true, true⟩ :: [⟨0, 1, 9, false, false⟩] ∧
    ((w .reply).ctx 0 1).wait = some .reply ∧
    (((w .echo).modCtx 0 1 fun c => { c with posted := [.window] }).ctx 0 1).posted = [.window] ∧
    ((w .echo).ctx 0 1).wait = some .echo ∧ place (loc 0x300000000000) = .lcl 0 0 ∧ place (loc 0x21000) = .dram 0 ∧
    gets (ownLine 0 0 0x21000) data (fun _ _ => true) = true ∧
    stopsAt (ownLine 1 0 0x21000) data (fun e => match e with | .block _ => true | _ => false) = true ∧
    place (loc 0x1000000000000) = .pod 0 ∧ ({ base with unreachable := [0] } : State).cutOff 0 0 = true ∧
    65535 < 2 ^ 16 ∧ ((w .acks).ctx 0 1).wait = some .acks := by decide +kernel

theorem witness_CoreAndMigrationSteps_move :
    let mig := fun (st : MigSt) (rel : Bool) => data.modPart 0 fun e => { e with mig := ⟨0x21, 0x22, 0, 0, st, rel⟩ }
    let a := lineOf 0x21000
    let b := lineOf 0x22000
    let move := (mig .run false).setSync 0 a ⟨true, some 0, [], 0⟩
    let out : State := { move with
      exported := [tagOf a 0], dir := [(tagOf a 0, ⟨.e, 0, true, false, [], 0, false, 0, 0, 0⟩)] }
    let busy : State := { mig .done true with
      flight := [.postedWriteArrival ⟨.store 0 1, .die 0 none, 0, 0, 0x21000, 1, 0⟩] }
    ((mig .idle false).part 0).mig.st = .idle ∧ (mig .idle false).frameError 0 ⟨0x21, 0x22, 0, 0, .idle, false⟩ = 0 ∧
    data.frameError 0 ⟨0x21, 0x21, 0, 0, .idle, false⟩ ≠ 0 ∧ ((mig .error false).part 0).mig.st = .error ∧
    (∀ e < 32, place (loc (0x300000000 * 4096)) ≠ .dram e) ∧
    (move.part 0).mig.st = .run ∧ move.wf = true ∧ a ≠ b ∧ move.isExported 0 a = false ∧ move.isExported 0 b = false ∧
    move.busyWith 0 a = none ∧ move.busyWith 0 b = none ∧ (∀ c ∈ move.hw, c.2.alb = []) ∧
    move.syncLine 0 a ≠ .reset ∧ out.isExported 0 a = true ∧ out.busyWith 0 a = none ∧ (out.entryAt 0 a).isSome = true ∧
    ((out.setBusy ⟨a, 0, .hack, []⟩).busyWith 0 a).isSome = true ∧ ((mig .done false).part 0).mig.releasing = false ∧
    (mig .done true).underWay 0 = false ∧ busy.underWay 0 = true := by decide +kernel

theorem witness_CoreAndMigrationSteps_room :
    (data.setSync 0 (lineOf 0x21000) ⟨true, some 0, [], 0⟩).moveRoom 0 (lineOf 0x21000) (lineOf 0x22000) = true := by
  have h : (data.setSync 0 (lineOf 0x21000) ⟨true, some 0, [], 0⟩).sync =
      [(tagOf (lineOf 0x21000) 0, ⟨true, some 0, [], 0⟩)] := by decide +kernel
  have w : (data.setSync 0 (lineOf 0x21000) ⟨true, some 0, [], 0⟩).waits = [] := by decide +kernel
  have q : (data.setSync 0 (lineOf 0x21000) ⟨true, some 0, [], 0⟩).queueUsed 0 (lineOf 0x22000) = 0 := by
    rw [State.queueUsed, h, List.filter_cons]
    split <;> rfl
  rw [State.moveRoom, q, w]
  decide +kernel

theorem witness_StateRegisterWrites_shared :
    let mig := fun (m : MigSt) => atSvc.modPart 0 fun e => { e with mig := { e.mig with st := m } }
    let ringed := base.modMine fun c => { c with ring := [(0, 0)] }
    ((reg 5 0x7DFE3 base).rg 5) &&& ~~~0x7FFE3 = 0 ∧ U (base.rg 5) / 2 ^ 13 * 8192 + 8192 ≤ base.window base.myPart ∧
    (let s := reg 5 0x7E000 (base.modPart 0 fun e => { e with cfg := { e.cfg with w := 262144 } })
     s.window s.myPart < U (s.rg 5) / 2 ^ 13 * 8192 + 8192 ∧ s.rg 5 &&& ~~~0x7FFE3 = 0 ∧
       (let v := (reg 5 0x7F801 s).rg 5
        v &&& ~~~0x7F801 = 0 ∧ ¬ (v.getLsbD 0 = false ∨ U v / 2 ^ 11 * 2048 + 2048 ≤ s.window s.myPart))) ∧
    base.rg 5 &&& ~~~0x7F801 = 0 ∧ (base.rg 5).getLsbD 0 = false ∧ base.mine.ring = [] ∧ ringed.mine.ring ≠ [] ∧
    atSvc.onSvc = true ∧ atSvc.slot = 0 ∧ base.onSvc = false ∧ atSvc.rg 5 &&& ~~~0x00FFFFFFFFFFF000 = 0 ∧
    (atSvc.part 0).mig.st = .idle ∧ ((mig .done).part 0).mig.st = .done ∧ ((mig .error).part 0).mig.st = .error ∧
    ((mig .run).part 0).mig.st = .run ∧ U ((reg 5 1 atSvc).rg 5) % 4 = 1 ∧ U ((reg 5 2 atSvc).rg 5) % 4 = 2 ∧
    (reg 5 2 atSvc).rg 5 &&& ~~~0xFFFF = 0 := by decide +kernel

theorem witness_SystemInstructions_capabilities :
    (reg 6 8 base).rg 6 = 8 ∧ (reg 6 9 base).rg 6 = 9 ∧ (reg 6 0x10 base).rg 6 = 0x10 ∧ (reg 6 0x11 base).rg 6 = 0x11 ∧
    U ((reg 6 0x17 base).rg 6) ∈ [5, 6, 7, 0xE, 0xF, 0x12, 0x13, 0x14, 0x15, 0x16, 0x17] := by decide +kernel

/-! ## Launches -/

/-- Page tables from 0x31000 to 0x35000 that map the page at 0x22000. -/
def tabled : State :=
  let m := ((((base.mem.writeNat 0x30000 8 (2 ^ 63 + 0x31 * 1024)).writeNat 0x31000 8 (0x32 * 1024 + 1)).writeNat 0x32000 8
    (0x33 * 1024 + 1)).writeNat 0x33000 8 (0x34 * 1024 + 1)).writeNat 0x34000 8 (0x35 * 1024 + 1)
  ({ base with mem := m.writeNat (0x35000 + 8 * 0x22) 8 0x400000000088C7 } : State).modPart 0 fun e =>
    { e with asidtab := 0x30 }

theorem witness_ServiceInstructions_page :
    let s : State := { reg 6 0x22000 (reg 5 0 tabled) with cur := { tabled.cur with key := 64 } }
    let away : State := { s with exported := [tagOf (lineOf 0x30000) 0] }
    let walks := fun (x : State) (va : Word) (p : Nat → Bool) => gets (walkTable 0 0 va) x fun w _ =>
      let leaf := match w with
        | .leaf _ l _ => l
        | _ => 0
      p (max leaf (x.cachedLevel 0 0 va))
    s.onSvc = true ∧ canonical 0x22000 = true ∧ canonical 0x8000000000000000 = false ∧ s.me.posted = [] ∧
    walks s 0x22000 (· = 0) ∧ walks s 0x23000 (· = 0) ∧ stopsAt (walkTable 0 0 0x22000) away (fun e => match e with
      | .block _ => true
      | _ => false) = true ∧
    stopsAt (walkTable 0 0 0x22000)
      (away.modDie 0 fun e => { e with once := [⟨.ctx 64 0, ⟨lineOf 0x30000, 0, 0, .none, 0⟩⟩] })
      (fun e => e == .err) = true ∧
    (s.underWay 0 || s.queuedUnder 0 0 0x22000 0) = false ∧
    (s.postWrite 64 0 (.maint 64 0) 0x21000 1 0).underWay 0 = true := by decide +kernel

def record (policy period : Nat) (done : Word) : LaunchRec :=
  ⟨1, 0, 0, 1, 1, policy, 0, 1, 0x20000, 0, 10, period, done, 0, 0, 0, 0⟩
def launch (r : LaunchRec) : Launch := ⟨7, .window 0 3, 0, r, [], false, [], [], [], [], 0, false⟩
def launched (l : Launch) : State := { tabled with launches := [l] }

theorem witness_LaunchSteps_issue :
    let good := 1 + 256 ^ 8 * 0x11 + 256 ^ 12 + 256 ^ 16 * 0x20000
    let s := (reg 6 0x21000 (data.setL1 0 { line with data := BitVec.ofNat 1024 good })).modMe fun c => { c with rights := true }
    let t := (reg 6 0x21000 data).modMe fun c => { c with rights := true }
    (without 8 base).masked 0 8 = true ∧ s.masked s.myPart 8 = false ∧ s.pendingOf [5, 6] = false ∧
    U ((reg 6 32 base).rg 6) % 64 ≠ 0 ∧ U (base.rg 6) % 64 = 0 ∧ base.me.rights = false ∧ U (s.rg 6) % 64 = 0 ∧
    s.me.rights = true ∧ s.me.posted = [] ∧
    gets (loadG (s.rg 6) 64) s (fun raw u => decide (raw < 2 ^ 512) && !((u.setPending 5).seq).badRecord 0 raw) = true ∧
    gets (loadG (t.rg 6) 64) t (fun raw u => ((u.setPending 5).seq).badRecord 0 raw &&
      decide (raw / 2 ^ 96 % 2 ^ 32 = 0)) = true := by decide +kernel

theorem witness_LaunchSteps_accept :
    let l := launch (record 0 0 0)
    let s := launched l
    let two := launched (launch { record 0 0 0 with diemask := 3 })
    let full := { s with launches := l :: List.replicate 64 { l with id := 9, answers := [(0, 0)] } }
    (s.launches.find? fun e => e.id = 7) = some l ∧ l.record.done = 0 ∧ s.activeOn 0 0 < 64 ∧
    l.answers.length + 1 = (s.launchDies l).length ∧ (∀ e ∈ l.answers, e.2 = 0) ∧
    0 + 1 < (two.launchDies (launch { record 0 0 0 with diemask := 3 })).length ∧ s.launchDies l = [0] ∧
    (full.launches.find? fun e => e.id = 7) = some l ∧ 64 ≤ full.activeOn 0 0 := by decide +kernel

theorem witness_LaunchSteps_share :
    let l := launch (record 0 0 0)
    let s := launched l
    let late := { s with time := 11 }
    let r := record 0 0 0
    l.share 0 0 = none ∧ l.move 0 0 = none ∧ s.time < ({ r with start := 1 } : LaunchRec).opens 0 ∧ r.opens 0 ≤ s.time ∧
    ({ s with time := 10 } : State).time ≤ r.closes 0 ∧ s.runsOn 0 (dieOfCore 0) = true ∧ (s.core 0).halted = false ∧
    (s.core 0).freeCtxs.length < 16 ∧ (s.core 0).freeCtxs ≠ [] ∧ r.ctx ≤ (s.core 0).freeCtxs.length ∧
    late.launches = [l] ∧ r.closes 0 < late.time ∧ late.launchCores l = [0] ∧ l.next = 0 ∧ r.count = 0 + 1 ∧
    l.shares = [] ∧ l.moved = [] ∧ r.policy = 0 ∧ (record 1 0 0).policy = 1 ∧ (record 2 50 0).policy = 2 ∧
    (record 2 50 0).period ≠ 0 := by decide +kernel

theorem witness_LaunchSteps_report :
    let l := { launch (record 0 0 0) with shares := [⟨0, 0, 0, false, false, 0⟩] }
    let q := { l with quads := [(0, 0)] }
    let d := { q with dies := [(0, 0)] }
    let f := { d with record := record 0 0 0x22000 }
    (∀ e ∈ (launched l).launchQuad l 0 0, (l.share e 0).any (fun h => h.live = 0) = true) ∧ (0, 0) ∉ l.quads ∧
    l.next ≤ 0 ∧ (∀ q' ∈ (launched q).launchQuads q 0, (q', 0) ∈ q.quads) ∧ (0, 0) ∉ q.dies ∧
    d.holding = false ∧ (launched d).reported d 0 = true ∧ d.record.done = 0 ∧ f.record.done ≠ 0 ∧
    gets (donePage f) (launched f) (fun p t => match p with
      | .ok pa => gets (performAt (t.homeAgent 0 (t.steer 0 pa)) 0 pa (maskOf (loc pa % 128) 16)
          (placed (loc pa % 128) (f.doneRecord 0))) t fun _ _ => true
      | _ => false) = true := by decide +kernel

theorem witness_LaunchSteps_window :
    let w := tabled.modPart 0 fun e => { e with win := { e.win with wva := 0x22008, whpa := 9, lstat := [(511, 0xFF)] } }
    let there : State := { w with waits := [⟨0, 0, 0x22008, lineOf 0x22000, .host 9 0⟩] }
    ({ base with hubDown := some 0 } : State).hostUp = false ∧ w.hostUp = true ∧
    aget (w.part 0).win.lstat 511 = some 0xFF ∧ aget (w.part 0).win.lstat 0 ≠ some 0xFF ∧
    (w.part 0).win.slots.wf = true ∧ 0x7FF8 < 0x8000 ∧
    gets (hostWord 0) (base.setWres 0 0xFF) (fun x _ => x = none) = true ∧
    gets (hostWord 0) (w.setWres 0 0xFF) (fun x t => x = some (lineOf 0x22000) && t.waitRoom 0 (lineOf 0x22000) &&
      !t.waits.any (isRegistration 0 (t.part 0).win)) = true ∧
    gets (hostWord 0) (there.setWres 0 0xFF) (fun x t => x = some (lineOf 0x22000) &&
      t.waits.any (isRegistration 0 (t.part 0).win)) = true ∧
    there.waits.any (isRegistration 0 (there.part 0).win) = true ∧
    base.waits.any (isRegistration 0 (base.part 0).win) = false := by decide +kernel

theorem witness_LaunchSteps_full :
    let l := lineOf 0x22000
    let w := { tabled.modPart 0 fun e => { e with win := { e.win with wva := 0x22008, whpa := 9 } } with
      waits := List.replicate 256 ⟨0, 0, 0x22010, l, .device 0 0⟩ }
    gets (hostWord 0) (w.setWres 0 0xFF) (fun x t => x = some l && t.waits = w.waits && t.parts = (w.setWres 0 0xFF).parts &&
      !t.waits.any (isRegistration 0 (t.part 0).win)) = true ∧
    (w.setWres 0 0xFF).waitRoom 0 l = false := by
  refine ⟨by decide +kernel, ?_⟩
  simp only [State.waitRoom, State.waitsUsed, State.setWres, State.modPart, State.setPart, List.filter_replicate, decide_true, Bool.true_and]
  decide +kernel

/-! ## Coherence -/

/-- A partition on every die, with an entry of line 8 at its hub, a line that the hub is at work on, a copy at die 3,
and open requests of die 3. -/
def wide : State := base.modPart 0 fun e => { e with cfg := { e.cfg with dies := List.range 32 } }
def dirty : DirEntry := ⟨.m, 3, true, false, [], 0, false, 0, 0, 0⟩
def shared : DirEntry := ⟨.s, 4, true, false, [4, 5], 0, false, 0, 0, 0⟩
def entry (e : DirEntry) : State := { wide with dir := [(tagOf 8 0, e)] }
def served (b : Busy) : State := { wide with hub := [⟨8, 0, b, []⟩] }
def copy (st : PState) : LlcLine := ⟨8, 0, 0, st, 5⟩
def holder (st : PState) : State := wide.setCopy 3 (copy st)
def requests (q : OpenReq) : State := wide.modDie 3 fun e => { e with reqs := [q] }
/-- A message of die `d` to hub 0 about a request of die `r`, and one of the hub to die 3. -/
def from_ (d r : Nat) : Hdr := ⟨⟨0, d, 32, 7, 0, false, 0⟩, r⟩
def into3 : Hdr := ⟨⟨0, 32, 3, 7, 0, false, 0⟩, 3⟩

theorem witness_HubMessages :
    let pod := lineOf 0x1000000000000
    let full : State := { wide with dir := [3, 5, 6, 9, 10, 12, 15, 17].map fun n => (tagOf (8 + n * 2 ^ 24) 0, shared) }
    let own := fun (e : DirEntry) => ((entry e).busyWith 0 8).isNone && (entry e).entryAt 0 8 == some e &&
      !State.unreadable e && e.part == 0 && e.owner != 34
    message (.rds (from_ 31 31) 8) = some (from_ 31 31, 8) ∧ base.tagged (from_ 31 31) 8 = false ∧
    (from_ 34 34).src = 34 ∧ isPodLine pod = true ∧ State.modOf pod = base.podModule.toNat ∧
    base.podExport 0 (lineLoc pod) true = none ∧ wide.tagged (from_ 2 2) pod = true ∧ wide.busyWith 0 pod = none ∧
    wide.entryAt 0 pod = none ∧ wide.unknown pod = false ∧ wide.roomFor pod = true ∧ wide.steer 0 (lineLoc pod) = pod ∧
    wide.tagged (from_ 2 2) 8 = true ∧ isPodLine 8 = false ∧ (from_ 2 2).dst = 32 ∧ wide.hub = [] ∧
    (served .alloc).hub = [⟨8, 0, .alloc, []⟩] ∧ (served .alloc).roomFor 8 = true ∧
    own dirty = true ∧ dirty.owner ≠ 2 ∧ dirty.owner = 3 ∧ own { dirty with st := .e } = true ∧ own shared = true ∧
    own { shared with ov := false } = true ∧ shared.ptrs = [4, 5] ∧ shared.owner = 4 ∧ ({ shared with owner := 5 } : DirEntry).owner = 5 ∧
    own { shared with st := .o } = true ∧ own { shared with ov := false, ptrs := [4] } = true ∧ shared.pod = false ∧
    (entry { dirty with chk := 2 }).entryAt 0 8 = some { dirty with chk := 2 } ∧
    State.unreadable { dirty with chk := 2 } = true ∧
    wide.busyWith 0 8 = none ∧ wide.entryAt 0 8 = none ∧ wide.unknown 8 = false ∧ wide.steer 0 (lineLoc 8) = 8 ∧
    wide.roomFor 8 = true ∧ full.roomFor 8 = false ∧ full.entryAt 0 8 = none ∧
    (served (.install 2)).busyWith 0 8 = some ⟨8, 0, .install 2, []⟩ ∧ (served (.install 2)).entryAt 0 8 = none ∧
    (served (.recall [] true none)).busyWith 0 8 = some ⟨8, 0, .recall [] true none, []⟩ ∧ (from_ 3 32).req = 32 ∧
    (served (.recall [3] false none)).busyWith 0 8 = some ⟨8, 0, .recall [3] false none, []⟩ ∧
    wide.awaits 3 0 8 7 = false ∧
    (requests ⟨7, 7, false, 8, 0, 0, true, false, [], 0, none, none, none⟩).awaits 3 0 8 7 = true ∧
    (holder .m).awaits 3 0 8 7 = false ∧ tagOf 8 0 ∉ wide.poisoned ∧
    tagOf 8 0 ∈ ({ wide with poisoned := [tagOf 8 0] } : State).poisoned ∧
    (served (.probe [3] [] none)).busyWith 0 8 = some ⟨8, 0, .probe [3] [] none, []⟩ ∧ (served (.probe [3] [] none)).roomFor 8 = true ∧
    wide.moving 0 8 = false ∧
    (wide.modPart 0 fun e => { e with mig := ⟨0, 1, 8, 0, .run, false⟩ }).moving 0 8 = true := by decide +kernel

theorem witness_HubMessages_more :
    wide.claimed 0 8 = false ∧ wide.isSync 0 8 = false ∧ (wide.setSync 0 8 ⟨true, none, [], 0⟩).isSync 0 8 = true ∧
    (∀ o ∈ (served (.install 2)).hub, State.waitsForWay o = false ∧ o.busy ≠ .hack) ∧
    (wide.modPart 0 fun e => { e with cfg := { e.cfg with ports := [5] } }).portsOf 0 ≠ [] ∧
    message (.rds (from_ 3 34) 8) = some (from_ 3 34, 8) ∧ wide.tagged (from_ 3 3) 8 = true := by decide +kernel

theorem witness_DieMessages :
    let q : OpenReq := ⟨9, 7, true, 8, 0, 0, true, false, [], 2, none, none, none⟩
    let rds : OpenReq := ⟨9, 7, true, 8, 0, 0, false, true, [], 0, none, none, none⟩
    let w : WbLine := ⟨8, 0, 0, 5, false, false, 0, false⟩
    let b := wide.modDie 3 fun e => { e with wbuf := [w] }
    into3.src ≠ 34 ∧ wide.tagged into3 8 = true ∧ into3.dst = 3 ∧ (holder .m).tagged into3 8 = true ∧
    ((requests q).markOpen 3 0 8).awaits 3 0 8 9 = true ∧ ((holder .m).markOpen 3 0 8).awaits 3 0 8 9 = false ∧
    ((holder .m).markOpen 3 0 8).copyOf 3 0 8 = some (copy .m) ∧ dirtySt (copy .m).st = true ∧
    ((holder .s).markOpen 3 0 8).copyOf 3 0 8 = some (copy .s) ∧ dirtySt (copy .s).st = false ∧
    (b.markOpen 3 0 8).copyOf 3 0 8 = none ∧ (b.markOpen 3 0 8).buffered 3 0 8 = some w ∧
    (wide.markOpen 3 0 8).copyOf 3 0 8 = none ∧ (wide.markOpen 3 0 8).buffered 3 0 8 = none ∧
    (holder .m).copyOf 3 0 8 = some (copy .m) ∧ (holder .m).openReq 3 0 8 = none ∧
    (holder .m).buffered 3 0 8 = none ∧ (holder .s).copyOf 3 0 8 = some (copy .s) ∧
    (holder .s).openReq 3 0 8 = none ∧ (aget wide.keys 8).all (· = into3.key) = true ∧ wide.wf = true ∧ into3.err = false ∧
    ((requests rds).die 3).reqs = [rds] ∧ ((requests { rds with marked := false }).die 3).reqs = [{ rds with marked := false }] ∧
    ((requests { rds with txn := 1 }).die 3).reqs = [{ rds with txn := 1 }] ∧ (1 : Nat) ≠ into3.txn ∧
    (requests q).copyOf 3 0 8 = none ∧ ((requests q).die 3).reqs = [q] ∧
    ({ q with grant := some 3, data := some (5, true) } : OpenReq).grant = some (q.acks + 1) ∧
    b.buffered 3 0 8 = some w ∧ b.fwdsOut 0 3 8 = false ∧ b.relWaits into3 8 = false ∧
    ({ b with parked := [into3.fwds 8 .m 7] } : State).fwdsOut 0 3 8 = true ∧
    ({ b with parked := [into3.fwds 8 .m 7] } : State).relWaits into3 8 = true ∧ w.rels = 0 ∧ w.dropped = false ∧ w.answered = false ∧ w.wbAck = false ∧
    ({ w with rels := 1, answered := true } : WbLine).rels = 1 := by decide +kernel

/-- No core of die 3 holds line 8 in its atomic line buffer. -/
theorem witness_DieMessages_buffers :
    (holder .m).albRecall 3 0 8 = holder .m ∧ wide.albRecall 3 0 8 = wide := ⟨rfl, rfl⟩

/-! ## Faults, failures, partitions, the host, time and power -/

theorem witness_FaultSteps_walk :
    let s := tabled.setCtx 0 1 { Ctx.reset with st := .blocked, wait := some .walk }
    let r : XReq := ⟨.ctx 0 1, 0, 0, 0, 0x22000, .load, none⟩
    let cow : State := { s with mem := s.mem.writeNat (0x35000 + 8 * 0x22) 8 0x1000000000088C3 }
    let bad : State := { s with mem := s.mem.writeNat 0x30000 8 0 }
    let poison : State := { s with poisoned := [tagOf (lineOf 0x30000) 0] }
    let walks := fun (va : Word) (x : State) (p : Walked → State → Bool) => gets (walkTable 0 0 va) x fun w t =>
      decide ((t.ctx 0 1).wait = some .walk) && p w t
    r.who = .ctx 0 1 ∧ r.acc ≠ .atomic ∧ (s.ctx 0 1).wait = some .walk ∧
    walks 0x22000 s (fun w t => match w with
      | .leaf pte lv _ => verdict pte .load = .ok && t.reachable r pte lv | _ => false) = true ∧
    walks 0x22000 cow (fun w t => match w with
      | .leaf pte lv _ => verdict pte .store = .cow && t.reachable { r with acc := .store } pte lv
      | _ => false) = true ∧
    walks 0x22000 s (fun w _ => match w with
      | .leaf pte _ _ => verdict pte .fetch = .refused | _ => false) = true ∧
    walks 0x23000 s (fun w _ => match w with | .absent _ _ _ => true | _ => false) = true ∧
    walks 0x22000 bad (fun w _ => match w with | .refused => true | _ => false) = true ∧
    walks 0x22000 poison (fun w _ => match w with | .poison => true | _ => false) = true := by decide +kernel

/-- The levels of a walk, a split access whose other part is refused, and a walk that must wait for a line. -/
theorem witness_FaultSteps_levels :
    let s := tabled.setCtx 0 1 { Ctx.reset with st := .blocked, wait := some .walk }
    let m := (s.mem.writeNat (0x35000 + 8 * 0x24) 8 0x4000000000088C7).writeNat (0x35000 + 8 * 0x25) 8 0x8801
    let malformed : State := { s with mem := m }
    let away : State := { s with exported := [tagOf (lineOf 0x30000) 0] }
    let finds := fun (x : State) (va : Word) (base lv : Nat) (r : Walked ⊕ Nat) =>
      gets (walkLevel 0 va base lv) x (fun u _ => u == r) = true
    place (loc 0x30000) = .dram 0 ∧ s.admits 0 0x30000 = true ∧
    gets (readLine (s.homeAgent 0 (s.steer 0 0x30000)) 0 0x30000) s (fun _ _ => true) = true ∧
    place (loc 0x300000000000) = .lcl 0 0 ∧ finds s 0x22000 0x300000000000 4 (.inl .refused) ∧
    s.badLine 0 0x31000 true = false ∧ gets (readHome 0 0x31000) s (fun w _ => w == some 0xC801) = true ∧
    finds s 0x22000 0x31000 4 (.inr 0x32000) ∧ finds s 0x22000 0x35000 0 (.inl (.leaf 0x400000000088C7 0 0x35110)) ∧
    finds s 0x23000 0x35000 0 (.inl (.absent 0 0 0x35118)) ∧ finds malformed 0x24000 0x35000 0 (.inl .refused) ∧
    finds malformed 0x25000 0x35000 0 (.inl .refused) ∧
    s.badLine 0 ((s.part 0).asidtab.toNat * 4096 + 8 * 0) true = false ∧ s.wants (.ctx 0 1) = true ∧
    stopsAt (walkTable 0 0 0x22000) away (fun _ => true) = true ∧
    gets (walkTable 0 0 0x23000) malformed (fun w t => match w with
      | .absent _ _ _ => (t.cachedLeaf 0 0 0 0x24000).isNone &&
        gets (walkTable 0 0 0x24000) t fun w u => w == .refused && (u.ctx 0 1).wait == some .walk
      | _ => false) = true ∧
    ((s.die 0).xlat.filter fun o => o.1 = xlatSlice 0 0x22000).length < 4096 := by decide +kernel

theorem witness_FaultSteps_record :
    let r : XReq := ⟨.ctx 0 1, 0, 0, 0, 0x22000, .load, none⟩
    let w := base.setCtx 0 1 { Ctx.reset with st := .blocked, wait := some .fault }
    let run := slotIn 1 .run base
    let eng := run.modCore 0 fun c => { c with vecEng := ⟨some (.slot 1), none⟩ }
    let full := base.storeLocal 64 0 8 63
    isLrs (base.cfg 0) (coreOf 0) = false ∧ coreOf 0 ≠ (base.cfg 0).svcCore ∧
    (base.postRecord (keyOf 1 0) 0 [0, 0, 0, 0, 0, 0, 0, 0]).isSome = true ∧
    full.postRecord (keyOf 1 0) 0 [0, 0, 0, 0, 0, 0, 0, 0] = none ∧ isLrs (base.cfg 0) (coreOf 128) = true ∧
    r.acc ≠ .atomic ∧ (w.ctx 0 1).wait = some .fault ∧ (run.ctx 0 1).st = .run ∧ (run.ctx 0 1).ending = false ∧
    (eng.core 0).vecEng.owner = some (.slot 1) ∧ (eng.ctx 0 1).st = .run ∧
    ((base.modCore 0 fun c => { c with vecEng := ⟨some (.image 512), none⟩ }).core 0).vecEng.owner = some (.image 512) ∧
    aget ({ base with dir := [(tagOf 8 0, dirty)] } : State).dir (tagOf 8 (partOf 0)) = some dirty ∧ 8 ∉ base.memErr ∧
    place (lineLoc 8) = .dram 0 ∧
    (let asks := base.modCore 0 fun c => { c with jobs := [{ job with asking := true }] }
     ∃ j ∈ (asks.core 0).jobs, j.id = 7 ∧ j.asking = true) ∧
    lrsOf (base.cfg (partOf 0)) (dieOfCore (coreOf 0)) = some (2, 0) ∧
    (base.postRecord (keyOf 2 0) 0 [0, 0, 0, 0, 0, 0, 0, 0]).isSome = true ∧
    (base.storeLocal 128 0 8 63).postRecord (keyOf 2 0) 0 [0, 0, 0, 0, 0, 0, 0, 0] = none := by decide +kernel

theorem witness_FailureSteps :
    let t := tagOf 8 0
    let p := base.modPart 0 fun e => { e with cfg := { e.cfg with ports := [0] } }
    let s : State := { p with dir := [(t, { shared with pod := true })] }
    let m : State := { p with dir := [(t, { dirty with pod := true, ov := false })] }
    base.hubDown = none ∧ ({ base with hubDown := some 1 } : State).hubDown.isSome = true ∧
    (∀ i ∈ base.parts, i.2.cfg.ports = []) ∧
    s.dir = [(t, { shared with pod := true })] ∧ 5 ∉ s.unreachable ∧ shared.st = .s ∧ shared.part = partOf t ∧
    isPodLine (tagLine t) = false ∧ s.podParts (partOf t) = true ∧
    m.dir = [(t, { dirty with pod := true, ov := false })] ∧ dirty.st = .m ∧ dirty.part = partOf t ∧
    (∀ d ∈ s.dies, d.2.reqs = []) ∧ (aget s.parts 0).isSome = true := by decide +kernel

theorem witness_HostSteps :
    let key := base.modPart 0 fun e => { e with win := { e.win with akey := 0 } }
    let r : Responder := ⟨true, true, true, [(0, true), (1, false)]⟩
    let s := base.setResponder ⟨32, .mgmt⟩ r
    let four := base.setResponder ⟨0, .mgmt⟩ { r with sessions := [(0, true), (1, true), (2, true), (3, true)] }
    key.hostUp = true ∧ key.aperture 0 0x21000 8 = some 0x21000 ∧ 0x21000 % 128 + 8 ≤ 128 ∧ key.inCoreMap 0 = true ∧
    hostParts 8 0x21000 8 = [(0x21000, 8)] ∧ key.hostWrites 0 = false ∧ (0x21000 : Nat) < hostBase ∧ 0x21000 % 8 = 0 ∧
    (key.post (.hostBar2Write 0 0x21000 8 1)).hostWrites 0 = true ∧ key.aperture 0 0 1 = some 0 ∧ key.inCoreMap 0x21000 = false ∧ key.inCoreMap (0x21000 + 8 - 1) = false ∧
    gets (ownLine (key.homeAgent 0 (key.steer 0 0x21000)) 0 0x21000) key (fun _ _ => true) = true ∧
    gets (readLine (key.homeAgent 0 (key.steer 0 0x21000)) 0 0x21000) key (fun _ _ => true) = true ∧
    0x200000000000 < 0x1FFFFFFFFFF9 + 8 ∧ State.reset.aperture 0 0x21000 8 = none ∧ (State.reset.cfg 0).keys = [] ∧
    ({ base with hubDown := some 0 } : State).hostUp = false ∧ s.reaches 32 .mgmt = true ∧ base.reaches 0 (.tdi 0) = true ∧ base.reaches 32 (.tdi 0) = false ∧ 1 ∉ (base.cfg 0).dies ∧ (s.responder ⟨32, .mgmt⟩).algs = true ∧
    (s.sessionsOf 32).length < 4 ∧ (base.responder ⟨0, .mgmt⟩).algs = false ∧ four.reaches 0 .mgmt = true ∧
    4 ≤ (four.sessionsOf 0).length ∧ (base.part 0).tdi = .unlocked ∧
    ((base.modPart 0 fun e => { e with tdi := .locked }).part 0).tdi = .locked ∧ (0, true) ∈ (s.responder ⟨32, .mgmt⟩).sessions ∧
    (1, true) ∉ (s.responder ⟨32, .mgmt⟩).sessions ∧
    (∃ e ∈ hostParts 8 8 8, key.inCoreMap e.1 = true) ∧
    (let off := key.modDie 0 fun e => { e with powered := false }
     (off.die 0).powered = false ∧ place 0x21000 = .dram 0 ∧ off.aperture 0 0x21000 8 = none) := by decide +kernel

/-- A transaction of die 3 about line 8 has failed that context 0 of core 0 waited for. -/
def failed : State := wide.modDie 3 fun e => { e with once := [⟨.ctx 0 0, ⟨8, 0, 0, .none, 0⟩⟩] }

theorem witness_CoreAndMigrationSteps_lost :
    place (loc 0x400) = .dram 0 ∧ failed.steer 0 0x400 = 8 ∧
    stopsAt (ownLine 3 0 0x400) failed (fun e => e == .err) = true ∧
    stopsAt (ownLine 3 0 0x400) wide (fun e => match e with
      | .block _ => true
      | _ => false) = true ∧ gets (ownLine 0 0 0x400) wide (fun _ _ => true) = true := by decide +kernel

theorem witness_CoreAndMigrationSteps_recall :
    let a := lineOf 0x21000
    let m := data.modPart 0 fun e => { e with mig := ⟨0x21, 0x22, 0, 0, .run, false⟩ }
    let e : DirEntry := ⟨.e, 0, true, false, [], 0, false, 0, 0, 0⟩
    let out : State := { m with exported := [tagOf a 0], dir := [(tagOf a 0, e)] }
    out.busyWith 0 a = none ∧ out.entryAt 0 a = some e ∧ out.transacting 0 a = false ∧
    ({ out with parked := [(⟨⟨0, 32, 0, 7, 0, false, 0⟩, 3⟩ : Hdr).fwds a .e 7] } : State).transacting 0 a = true ∧
    (out.setBusy ⟨a, 0, .install 2, []⟩).atWork 0 a = true := by decide +kernel

theorem witness_LaunchSteps_unreadable :
    let w := tabled.modPart 0 fun e => { e with win := { e.win with wva := 0x22008, whpa := 9 } }
    let away : State := { w with exported := [tagOf (lineOf 0x30000) 0] }
    let lost := away.modDie 0 fun e => { e with once := [⟨.ctx 0 0, ⟨lineOf 0x30000, 0, 0, .none, 0⟩⟩] }
    stopsAt (hostWord 0) (away.setWres 0 0xFF) (fun e => match e with
      | .block _ => true
      | _ => false) = true ∧
    stopsAt (hostWord 0) (lost.setWres 0 0xFF) (fun e => e == .err) = true := by decide +kernel

theorem witness_FaultSteps_twin :
    let s := tabled.setCtx 0 1 { Ctx.reset with st := .blocked, wait := some .walk }
    let away : State := { s with exported := [tagOf (lineOf 0x30000) 0] }
    let lost := away.modDie 0 fun e => { e with once := [⟨.ctx 0 0, ⟨lineOf 0x30000, 0, 0, .none, 0⟩⟩] }
    let bad : State := { s with poisoned := [tagOf (lineOf 0x21000) 0], memErr := [tagOf (lineOf 0x21080) 0] }
    let m := s.mem.writeNat (0x35000 + 8 * 0x24) 8 0x4000000000088C7
    -- The part of page 0x2F meets a poisoned line of its table, and that of page 0x30 an entry that is malformed, or such
    -- a line too.
    let first : State := { s with
      mem := s.mem.writeNat (0x35000 + 8 * 0x30) 8 0x8801, poisoned := [tagOf (lineOf (0x35000 + 8 * 0x2F)) 0] }
    let both : State := { first with poisoned := tagOf (lineOf (0x35000 + 8 * 0x30)) 0 :: first.poisoned }
    let second := fun (x : State) (p : Walked → Bool) => gets (walkTable 0 0 0x2FFF8) x fun w t =>
      w == .poison && (t.cachedLeaf 0 0 0 0x30000).isNone && gets (walkTable 0 0 0x30000) t fun w u =>
        p w && (u.ctx 0 1).wait == some .walk
    second first (· == .refused) = true ∧ second both (· == .poison) = true ∧ s.wants (.ctx 0 1) = true ∧ lost.wants (.ctx 0 1) = true ∧
    stopsAt (walkTable 0 0 0x22000) lost (fun e => e == .err) = true ∧
    stopsAt (walkTable 0 0 0x22000) away (fun e => match e with
      | .block _ => true
      | _ => false) = true ∧ bad.badLine 0 0x21000 false = true ∧ bad.badLine 0 0x21080 (true && !writes .load) = true ∧
    gets (walkTable 0 0 0x23000) ({ s with mem := m } : State) (fun w t => (match w with
      | .absent _ _ _ => true
      | _ => false) && (t.cachedLeaf 0 0 0 0x24000).isNone && gets (walkTable 0 0 0x24000) t fun w u =>
        w == .refused && (u.ctx 0 1).wait == some .walk) = true ∧
    s.podResolve 0 .load 0x31000 = some 0x31000 ∧ s.podResolve 0 .load 0x1000000000000 = none := by decide +kernel

theorem witness_FaultSteps_filling :
    let m : Move := ⟨1, 0x7FE00, some 5⟩
    let s := base.modCore 0 fun c => { c with fills := [m], vecEng := ⟨some (.slot 1), none⟩ }
    (s.core 0).fills = [m] ∧ (s.core 0).vecEng.owner = some (.slot m.slot) ∧ (base.core 0).fills = [] := by decide +kernel

theorem witness_PartitionSteps_boot :
    Failure.hub 0 ∈ [Failure.core 5, .hub 0] ∧ Failure.hub 0 ∉ [Failure.core 5, .quad 1, .hub 1] ∧
    (State.reset.boot [.hub 0]).booted = false ∧ (State.reset.boot [.core 5, .quad 1, .hub 1]).retiredCores.contains 4 = true ∧
    ({ base with hubFailed := some 1 } : State).hubFailed = some 1 ∧ base.choices = [] ∧
    Failure.hub 1 ∈ ({ base with hubFailed := some 1 } : State).failures ∧
    Failure.lpddr 3 ∈ ({ base with failed := [.lpddr 3] } : State).failed := by decide +kernel

theorem witness_TimeAndPowerSteps_roles :
    let s : State := { base with clockReceiver := true }
    let waits := base.setCtx 0 1 { Ctx.reset with st := .blocked, wait := some (.power true) }
    base.booted = true ∧ base.clockReceiver = false ∧ s.clockReceiver = true ∧ base.hubDown ≠ some 0 ∧
    (∃ e ∈ waits.cores, e.2.ctxs[(1 : Slot)].wait = some (.power true)) := by decide +kernel

theorem witness_TimeAndPowerSteps :
    let hot := base.modDie 0 fun e => { e with budget := some 5, meter := 5, halved := true }
    base.hostUp = true ∧ base.hubDown ≠ some 1 ∧ base.time + 1000000 < 1000001 ∧ 1000000 ≤ base.time + 1000000 ∧
    base.timeSrc ≠ 1 ∧ ({ base with timeSrc := 1 } : State).timeSrc = 1 ∧
    ({ base with slew := 5, cycle := 6599 } : State).nanoseconds.2 ≠ 5 ∧ (∃ e ∈ base.parts, e.2.cfg.dies ≠ []) ∧
    State.reset.parts = [] ∧ hot.spent 0 = true ∧ (hot.die 0).budget = some 5 ∧ hot.budgetOf 0 = some 2 := by
  decide +kernel

/-- The projected draw may pass the module's limit, or stay within it. -/
theorem witness_TimeAndPowerSteps_draw :
    State.reset.moduleLimit < 18001 ∧ 17000 ≤ State.reset.moduleLimit ∧ State.reset.parts = [] := by decide

theorem witness_FailureSteps_episode :
    let c : SyncChan := ⟨.pod, 0, 0, 1, 2, [(0, 1)]⟩
    let s : State := { base with chans := [c] }.setCtx 0 1 { Ctx.reset with wait := some (.barSync .pod 0 1 5) }
    s.chans = [⟨.pod, 0, 0, 1, 2, [(0, 1)]⟩] ∧ (s.ctx 0 1).wait = some (.barSync .pod 0 1 5) := by decide +kernel

/-! ## Boot images (R61 to R66, R253 to R257, R330) -/

/-- The four images of the worked example of R253. -/
def fourImages : List PloEntry :=
  [⟨0, 3, 0, 0, 0, 0⟩, ⟨0, 3, 1, 1, 0, 2⟩, ⟨0, 3, 1, 2, 0, 1⟩, ⟨1, 1, 0, 3, 0, 0⟩]

/-- The table of the worked example of R253: which image each mask leaves to be loaded. -/
theorem test_choose_image :
    (chooseImage (featuresOf 0x000) fourImages).map (·.offset) = some 1 ∧
    (chooseImage (featuresOf 0x002) fourImages).map (·.offset) = some 2 ∧
    (chooseImage (featuresOf 0x003) fourImages).map (·.offset) = some 0 ∧
    (chooseImage (featuresOf 0) [⟨0, 3, 2, 0, 0, 0⟩, ⟨1, 1, 0, 3, 0, 0⟩]).map (·.offset) = some 3 ∧
    chooseImage 0 [⟨1, 1, 0, 3, 0, 0⟩, ⟨1, 1, 0, 4, 0, 0⟩] = none := by decide +kernel

/-- The function `adiff` of the worked example of R259. -/
def adiff : List Byte :=
  [0x01, 0x02, 0x02, 0x02, 0x0A, 0x00, 0x0A, 0x01, 0x22, 0x01, 0x02, 0x11, 0x03, 0x02, 0x11, 0x03,
   0x04, 0x26, 0x03, 0x02, 0x01, 0x49, 0x01, 0x03]

/-- `adiff` is valid; with a distance that names nothing, a byte too many, or its END gone it is not (R257). -/
theorem test_portable :
    let ok := fun (t : List Byte) => ((ndearText t).map fun fs => fs.all fun f => f.ok 2) = some true
    ok adiff ∧ ¬ ok (putFile adiff 9 1 0x03) ∧ ¬ ok (adiff ++ [0x03]) ∧ ¬ ok (adiff.take 23) := by decide +kernel

/-- A function that answers its argument: GET 0, RET 1 (R254, R256). -/
def identity : List Byte := [0x01, 0x01, 0x01, 0x02, 0x0A, 0x00, 0x49, 0x01, 0x03]

/-- Native code of these words, and the plan that finds the argument in g4 and all that a call preserves. -/
def native (is : List Instr) : List Byte := is.flatMap fun i => (encode i).flatMap fun w => leBytesOf 4 w.toNat
def identityPlan : List FinalFunc :=
  [⟨0, [⟨4, (.reg 4, ⟨.var 0, 0⟩) :: (1 :: 2 :: 3 :: (List.range 16).map (· + 16)).map fun r =>
    (.reg (BitVec.ofNat 5 r), ⟨.init (BitVec.ofNat 5 r), 0⟩)⟩]⟩]

/-- Its landing pad and a return are a finalisation of it; with one added to the result, or without the landing pad,
the code is not (R258). -/
theorem test_finalises :
    let ok := fun (is : List Instr) => ((ndearText identity).map (finalises (native is) 0x20000 identityPlan fun _ => none)) =
      some true
    ok [.ctlLpad 1, .ctlRet 0] ∧ ¬ ok [.ctlLpad 1, .aliAdd 4 4 1, .ctlRet 0] ∧ ¬ ok [.ctlLpad 0, .ctlRet 0] := by
  decide +kernel

/-- Code of a function with its arguments in g4 and g5 and its blocks at these offsets is a finalisation of it. -/
def finalised (text : List Byte) (blocks : List (Nat × Nat)) (code : List Byte) : Bool :=
  let saved := (1 :: 2 :: 3 :: (List.range 16).map (· + 16)).map fun r =>
    ((.reg (BitVec.ofNat 5 r), ⟨.init (BitVec.ofNat 5 r), 0⟩) : Loc × Sym)
  let plan := blocks.map fun e => (⟨e.1, (List.range e.2).map (fun i =>
    (.reg (BitVec.ofNat 5 (4 + i)), ⟨.var i, 0⟩)) ++ saved⟩ : FinalBlock)
  ((ndearText text).map (finalises code 0x20000 [⟨0, plan⟩] fun _ => none)) = some true

/-- `adiff` may select by a branch, of which either way gives its result; with the ways exchanged it does not (R258). -/
theorem test_finalises_branch :
    let code := fun (b : Instr) => native [.ctlLpad 1, .cmpLt 8 5 4, .aluSub 9 4 5, .aluSub 10 5 4, b, .aliAdd 4 10 0,
      .ctlRet 0, .aliAdd 4 9 0, .ctlRet 0]
    finalised adiff [(4, 2)] (code (.brcNe 8 0 3)) = true ∧ finalised adiff [(4, 2)] (code (.brcEq 8 0 3)) = false := by
  decide +kernel

/-- A SWITCH may go through a jump table whose entries lead to its blocks; with one that leads to another's it does not
(R258). -/
theorem test_finalises_switch :
    let text : List Byte := [1, 1, 1, 2, 0x0A, 0, 0x42, 1, 3, 1, 2, 3, 2, 8, 7, 0x49, 1, 2, 8, 8, 0x49, 1, 2, 8, 9, 0x49, 1, 3]
    let code := fun (entry : Nat) => native [.ctlLpad 1, .lngLa 8 52, .ctlJt 4 8, .ctlLpad 5, .aliAdd 4 0 7, .ctlRet 0,
      .ctlLpad 5, .aliAdd 4 0 8, .ctlRet 0, .ctlLpad 5, .aliAdd 4 0 9, .ctlRet 0, .ctlLpad 0] ++
      [5, 3, 2 ^ 32 - 40, entry, 2 ^ 32 - 16].flatMap (leBytesOf 4)
    let at_ := [(4, 1), (20, 0), (32, 0), (44, 0)]
    finalised text at_ (code (2 ^ 32 - 28)) = true ∧ finalised text at_ (code (2 ^ 32 - 16)) = false := by decide +kernel

/-- The payloads of R65: a site, a card and a launch record; a note of another type is skipped. -/
theorem test_notes :
    let note := fun (kind size : Nat) (p : List Byte) => leBytesOf 2 kind ++ leBytesOf 2 0 ++ leBytesOf 4 size ++ p
    let area := note 1 16 (leBytesOf 8 0x0000000700020001 ++ leBytesOf 8 0x40) ++ note 9 3 (leBytesOf 8 0) ++
      note 2 16 (leBytesOf 8 3 ++ leBytesOf 8 0x80) ++ note 3 16 (leBytesOf 8 2 ++ leBytesOf 8 0xC0)
    ploNotes (area.length + 1) area = some [.site 1 2 7 0x40, .card 3 0x80, .launch 2 0xC0] := by decide +kernel

/-- An object file with one native image: a `.text` of a JMP to `boot` + 4 and a word, and the symbol `boot`. -/
def bootFile : List Byte :=
  leBytesOf 8 0x0001000_11A4F4C50 ++ leBytesOf 8 32 ++ leBytesOf 8 272 ++ leBytesOf 8 0 ++
  leBytesOf 8 0x00000001_00030000 ++ leBytesOf 8 96 ++ leBytesOf 8 176 ++ leBytesOf 8 0 ++ leBytesOf 32 0 ++
  leBytesOf 8 0x00000002_00000001 ++ leBytesOf 8 64 ++ leBytesOf 8 104 ++ leBytesOf 8 0 ++ leBytesOf 8 0 ++
  leBytesOf 8 136 ++ leBytesOf 8 6 ++ leBytesOf 8 0 ++
  leBytesOf 8 0x00020201_00000000 ++ leBytesOf 8 8 ++ leBytesOf 8 144 ++ leBytesOf 8 152 ++ leBytesOf 8 1 ++
  leBytesOf 16 0 ++ leBytesOf 8 0x00010001_00000001 ++ leBytesOf 8 0 ++
  leBytesOf 8 0x00746F6F_6200 ++ leBytesOf 8 0x04000000_78000000 ++
  leBytesOf 8 0 ++ leBytesOf 8 4 ++ leBytesOf 8 0x00000005_00000001

def bootCfg : PartCfg :=
  { programCfg with num := 5, asidtab := 0x80, file := some ⟨bootFile, [(0x4000000000, 0x70000)], [0x61, 0x62, 0x63, 0x64, 0x65], [], []⟩ }

/-- The file is placed: the JMP reaches the word after it, the root has the entry of bits [56:48] of the address,
and the leaf is a UO page that may be read and executed (R53, R64, R263, R330). -/
theorem test_boot_placed :
    (resolved bootCfg).map (fun c => (c.bootPc, c.boots, Memory.readNat (Memory.writeAll [] 0 c.image) 0x70000 4,
      Memory.readNat (Memory.writeAll [] 0 c.image) 0x80000 8, Memory.readNat (Memory.writeAll [] 0 c.image) 0x61000 8,
      Memory.readNat (Memory.writeAll [] 0 c.image) 0x65000 8)) =
      some (0x4000000000, true, 0x78000001, 0x8000000000018400, 0x18801, 0x8000000001C00B) := by decide +kernel

/-- A file without `boot`, or with places that overlap, is not placed. -/
theorem test_boot_refused :
    resolved { bootCfg with file := some ⟨putFile bootFile 233 1 0x63, [(0x4000000000, 0x70000)],
      [0x61, 0x62, 0x63, 0x64, 0x65], [], []⟩ } = none ∧
    resolved { bootCfg with file := some ⟨bootFile, [(0x4000000000, 0x61000)], [0x61, 0x62, 0x63, 0x64, 0x65], [], []⟩ } = none := by
  decide +kernel

theorem witness_PartitionSteps :
    let one := base.modDie 0 fun e => { e with running := some 0 }
    let two := one.setPart 1 { State.emptyPart with cfg := { programCfg with num := 1, keys := [1] } }
    (two.die 0).running = some 0 ∧ two.otherOn 0 0 = some 1 ∧ (∀ e ∈ two.cores, e.2.mqueue = []) ∧
    (∀ e ∈ two.hw, e.2.alb = []) ∧ (base.die 0).running = none ∧
    resolved { bootCfg with file := none } = none ∧ ploTable [0x50] = none ∧
    Failure.core 5 ∈ [Failure.core 5, .hub 1] := by decide +kernel

/-- A configuration that firmware accepts, and one with the dies of a partition that runs, which it does not. -/
theorem witness_PartitionSteps_accepted :
    let s := State.reset.scrub (bootCfg.dies.filter fun d => !State.reset.parts.any fun e => e.2.cfg.dies.contains d)
    (resolved bootCfg).any (fun r => s.accepts [bootCfg] r && (s.coresOf r).contains 0) = true ∧
    (resolved bootCfg).any (fun r => base.accepts [bootCfg] r) = false := by decide +kernel

end Sys2Proof.Tests.Slice0
end

section
/-! SUPPORT. What SYS.SRWR does with a register: one lemma for each way it ends (refused, past the window, a value
that the map forbids, the issuer's own register, a table, the window, a shared register), then one for each register
whose value the map restricts. -/

namespace Sys2Proof.Machine

/-! ## Values: the bits that a register leaves free (R6), and its fields -/

theorem and_not_eq_zero_iff (v m : Word) : v &&& ~~~m = 0 ↔ v &&& m = v := by
  have hsplit : (v &&& m) ||| (v &&& ~~~m) = v := by
    rw [← BitVec.and_or_distrib_left, BitVec.or_not_self, BitVec.and_allOnes]
  constructor
  · intro h
    rw [h] at hsplit
    simpa using hsplit
  · intro h
    rw [← h, BitVec.and_assoc, BitVec.and_not_self]
    exact BitVec.and_zero

theorem toNat_and_lowMask (v : Word) {n : Nat} (hn : n ≤ 64) :
    (v &&& BitVec.ofNat 64 (2 ^ n - 1)).toNat = v.toNat % 2 ^ n := by
  have hpow : 2 ^ n ≤ 2 ^ 64 := Nat.pow_le_pow_right (by omega) hn
  rw [BitVec.toNat_and, BitVec.toNat_ofNat, Nat.mod_eq_of_lt (by omega), Nat.and_two_pow_sub_one_eq_mod]

/-- A register of `n` bits takes a value below `2 ^ n`. -/
theorem and_not_lowMask {v : Word} (n : Nat) (hn : n ≤ 64) (h : v.toNat < 2 ^ n) :
    v &&& ~~~BitVec.ofNat 64 (2 ^ n - 1) = 0 := by
  rw [and_not_eq_zero_iff]
  apply BitVec.eq_of_toNat_eq
  rw [toNat_and_lowMask v hn, Nat.mod_eq_of_lt h]

/-- A register whose low `n` bits are reserved takes a value aligned to `2 ^ n`. -/
theorem and_lowMask_of_aligned {v : Word} (n : Nat) (hn : n ≤ 64) (h : v.toNat % 2 ^ n = 0) :
    v &&& BitVec.ofNat 64 (2 ^ n - 1) = 0 := by
  apply BitVec.eq_of_toNat_eq
  rw [toNat_and_lowMask v hn, h]
  rfl

theorem toNat_le_of_and_not {v m : Word} (h : v &&& ~~~m = 0) : v.toNat ≤ m.toNat := by
  rw [← (and_not_eq_zero_iff v m).mp h, BitVec.toNat_and]
  exact Nat.and_le_right

theorem extractLsb'_eq_ofNat (v : Word) (o n : Nat) : v.extractLsb' o n = BitVec.ofNat n (v.toNat / 2 ^ o) := by
  rw [BitVec.extractLsb', Nat.shiftRight_eq_div_pow]

theorem extractLsb'_zero_eq_ofNat (v : Word) (n : Nat) : v.extractLsb' 0 n = BitVec.ofNat n v.toNat := by
  rw [extractLsb'_eq_ofNat, Nat.pow_zero, Nat.div_one]

theorem toNat_extractLsb' (v : Word) (o n : Nat) : (v.extractLsb' o n).toNat = v.toNat / 2 ^ o % 2 ^ n := by
  rw [extractLsb'_eq_ofNat, BitVec.toNat_ofNat]

/-- A register of one bit. -/
theorem getLsbD_zero_of_lt_two {v : Word} (h : v.toNat < 2) : v.getLsbD 0 = decide (v = 1) := by
  rw [BitVec.getLsbD, Nat.testBit_zero, decide_eq_decide, BitVec.toNat_eq]
  show v.toNat % 2 = 1 ↔ v.toNat = 1
  omega

/-! ## Values that a register takes -/

/-- A value without a reserved bit is taken, but for a rounding mode (R201). -/
theorem badValue_of_legal {i : Nat} {v : Word} (h : v &&& ~~~legalBits (layoutOf i) = 0)
    (hr : layoutOf i ≠ 0x00C := by decide) : badValue i v = false := by
  unfold badValue
  split
  · rfl
  · simp [h, hr]

theorem badValue_below (n : Nat) {i : Nat} {v : Word} (h : v.toNat < 2 ^ n) (hn : n ≤ 64 := by decide)
    (hr : layoutOf i ≠ 0x00C := by decide)
    (hl : legalBits (layoutOf i) = BitVec.ofNat 64 (2 ^ n - 1) := by rfl) : badValue i v = false :=
  badValue_of_legal (by rw [hl]; exact and_not_lowMask n hn h) hr

theorem badValue_aligned (n : Nat) {i : Nat} {v : Word} (h : v.toNat % 2 ^ n = 0) (hn : n ≤ 64 := by decide)
    (hr : layoutOf i ≠ 0x00C := by decide)
    (hl : ~~~legalBits (layoutOf i) = BitVec.ofNat 64 (2 ^ n - 1) := by rfl) : badValue i v = false :=
  badValue_of_legal (by rw [hl]; exact and_lowMask_of_aligned n hn h) hr

/-- A loop count takes every value. -/
theorem badValue_unrestricted {i : Nat} (v : Word) (hl : ~~~legalBits (layoutOf i) = 0 := by rfl)
    (hr : layoutOf i ≠ 0x00C := by decide) : badValue i v = false :=
  badValue_of_legal (by rw [hl]; exact BitVec.and_zero) hr

theorem badValue_round {v : Word} (h : v.toNat < 32) (hm : v.toNat % 8 < 5) : badValue 0x00C v = false := by
  have hbits : v &&& ~~~legalBits (layoutOf 0x00C) = 0 := and_not_lowMask 5 (by omega) h
  have hmode : (v.extractLsb' 0 3).toNat < 5 := by rw [toNat_extractLsb', Nat.pow_zero, Nat.div_one]; exact hm
  have hle : v.extractLsb' 0 3 ≤ 4#3 := Nat.le_of_lt_succ hmode
  unfold badValue
  simp [hbits, hle]

/-- A general register of the selected context takes every value. -/
theorem badValue_general {i : Nat} (v : Word) (h : 0x120 ≤ i) (h' : i < 0x140) : badValue i v = false :=
  if_pos ⟨h, h'⟩

/-- sr.reclaim has bit 0 and the bits from 12 on. -/
theorem and_not_reclaimBits {v : Word} (h : v.toNat % 4096 < 2) : v &&& ~~~(0xFFFFFFFFFFFFF001 : Word) = 0 := by
  have hlow : v &&& 0xFFF = 0 ∨ v &&& 0xFFF = 1 := by
    have hn : (v &&& 0xFFF).toNat = v.toNat % 4096 := toNat_and_lowMask v (n := 12) (by omega)
    rcases (by omega : v.toNat % 4096 = 0 ∨ v.toNat % 4096 = 1) with h0 | h1
    · exact .inl (BitVec.eq_of_toNat_eq (hn.trans h0))
    · exact .inr (BitVec.eq_of_toNat_eq (hn.trans h1))
  rw [show ~~~(0xFFFFFFFFFFFFF001 : Word) = 0xFFF &&& 0xFFE by decide, ← BitVec.and_assoc]
  rcases hlow with h0 | h1
  · rw [h0]; decide
  · rw [h1]; decide

/-- Only sr.spctl and sr.rqring name a part of local memory. -/
theorem areaFaults_of_ne (s : State) {i : Nat} (v : Word) (h : i ≠ 0x045) (h' : i ≠ 0x047) :
    s.areaFaults i v = false := by
  simp [State.areaFaults, h, h']

theorem areaFaults_area (s : State) {v : Word} (h : v &&& ~~~0x7FFE3 = 0) :
    s.areaFaults 0x045 v = decide (s.window s.myPart < v.toNat / 2 ^ 13 * 8192 + 8192) := by
  have hle : v.toNat ≤ 0x7FFE3 := toNat_le_of_and_not h
  have hfield : (v.extractLsb' 13 6).toNat = v.toNat / 2 ^ 13 := by
    rw [toNat_extractLsb']
    exact Nat.mod_eq_of_lt (by omega)
  simp [State.areaFaults, hfield]

theorem areaFaults_ring (s : State) {v : Word} (h : v &&& ~~~0x7F801 = 0) :
    s.areaFaults 0x047 v =
      (v.getLsbD 0 && decide (s.window s.myPart < v.toNat / 2 ^ 11 * 2048 + 2048)) := by
  have hle : v.toNat ≤ 0x7F801 := toNat_le_of_and_not h
  have hfield : (v.extractLsb' 11 8).toNat = v.toNat / 2 ^ 11 := by
    rw [toNat_extractLsb']
    exact Nat.mod_eq_of_lt (by omega)
  simp [State.areaFaults, hfield]

/-! ## Who may write (R282) -/

theorem inWindow_of_lt {i : Nat} (h : i < 0x100) : inWindow i = false := by
  rw [inWindow, decide_eq_false (by omega), Bool.false_and]

theorem inWindow_iff (i : Nat) : inWindow i = true ↔ 0x100 ≤ i ∧ i < 0x140 := by
  rw [inWindow, Bool.and_eq_true, decide_eq_true_iff, decide_eq_true_iff]

theorem svcOnly_iff (i : Nat) : svcOnly i = true ↔ i = 0x083 ∨ 0x088 ≤ i ∧ i ≤ 0x08A := by
  simp [svcOnly]

/-- Context 0 writes the registers of its core. -/
theorem refusesWrite_core {s : State} {i : Nat} (h0 : s.slot = 0) (h : 0x041 ≤ i) (h' : i ≤ 0x048) :
    s.refusesWrite i = false := by
  have hw : inWindow i = false := inWindow_of_lt (by omega)
  have hsvc : svcOnly i = false := Bool.eq_false_iff.mpr fun h => by rw [svcOnly_iff] at h; omega
  unfold State.refusesWrite
  rw [hw, if_neg (by simp), if_neg (by omega), if_neg (by omega), h0, hsvc]
  rfl

/-- Context 0 of the service core writes the registers of the partition. -/
theorem refusesWrite_svc {s : State} {i : Nat} (h0 : s.slot = 0) (hs : s.onSvc = true) (h : svcOnly i = true) :
    s.refusesWrite i = false := by
  have hi : i = 0x083 ∨ 0x088 ≤ i ∧ i ≤ 0x08A := (svcOnly_iff _).mp h
  have hw : inWindow i = false := inWindow_of_lt (by omega)
  unfold State.refusesWrite
  rw [hw, if_neg (by simp), if_neg (by omega), if_neg (by omega), h0, hs, Bool.not_true, Bool.and_false]
  rfl

/-- Another core than the service core writes no register of the partition. -/
theorem refusesWrite_offSvc {s : State} (hs : s.onSvc = false) :
    ∀ i ∈ [(0x083 : BitVec 12), 0x088, 0x089, 0x08A], s.refusesWrite i.toNat = true := by
  simp [State.refusesWrite, inWindow, svcOnly, hs]

/-- A context other than 0 writes neither its identifier and rights nor a register of the core. -/
theorem refusesWrite_notContext0 {s : State} (h0 : s.slot ≠ 0) :
    ∀ i ∈ [(0x002 : BitVec 12), 0x003, 0x041, 0x042, 0x043, 0x044, 0x045, 0x046, 0x047, 0x048, 0x083],
      s.refusesWrite i.toNat = true := by
  simp [State.refusesWrite, inWindow, readOnly, h0]

/-- Context 0 writes its own identifier and rights. -/
theorem refusesWrite_identity {s : State} {i : Nat} (h0 : s.slot = 0) (h : i = 0x002 ∨ i = 0x003) :
    s.refusesWrite i = false := by
  rcases h with rfl | rfl <;> simp [State.refusesWrite, inWindow, readOnly, h0]

/-- The registers that nothing writes. -/
theorem refusesWrite_unwritten (s : State) :
    ∀ i ∈ [(0x000 : BitVec 12), 0x001, 0x004, 0x008, 0x009, 0x00A, 0x00E, 0x040, 0x049, 0x080, 0x081, 0x082, 0x084],
      s.refusesWrite i.toNat = true := by
  simp [State.refusesWrite, inWindow, readOnly]

/-- Context 0 writes through an open window what a context has but for the registers that nothing writes. -/
theorem refusesWrite_window {s : State} {i : Nat} (h0 : s.slot = 0)
    (ho : windowOpen (s.ctx s.key s.selected).st = true) (hw : inWindow i = true)
    (hr : 0x120 ≤ i ∨ readOnly (i - 0x100) = false) : s.refusesWrite i = false := by
  unfold State.refusesWrite State.refusesRead
  rw [if_pos hw, if_pos hw, h0, ho]
  rcases hr with hr | hr
  · rw [decide_eq_false (Nat.not_lt.mpr hr)]
    rfl
  · rw [hr, Bool.and_false]
    rfl

theorem throughWindow_idle {c : Ctx} {i : BitVec 12} {v : Word} (hw : c.wait = none) (hf : c.fetched = none)
    (hq : c.wwrites = []) :
    c.throughWindow i v = c.setWindow i v := by
  simp [Ctx.throughWindow, Ctx.outstanding, hw, hf, hq]

theorem throughWindow_outstanding {c : Ctx} {i : BitVec 12} {v : Word} (h : c.wait ≠ none ∨ c.fetched ≠ none) :
    c.throughWindow i v = { c with wwrites := c.wwrites ++ [(i, v)] } := by
  have ho : c.outstanding = true := by simpa [Ctx.outstanding, Option.isSome_iff_ne_none] using h
  simp [Ctx.throughWindow, ho]

/-! ## The ways a write ends -/

theorem exec_sysSrwr (d : Reg) (i : BitVec 12) (s : State) : exec (.sysSrwr d i) s = execSysSrwr d i s := rfl

theorem issueReg_unmasked {d : Reg} {i : BitVec 12} {s : State} {m : M Unit} (hm : s.masked s.myPart 10 = false) :
    issueReg d i s m = issueM [d] s m := by
  unfold issueReg
  rw [hm, Bool.and_false]
  rfl

section
variable {s : State} {d : Reg} {i : BitVec 12}
variable (hp : s.pendingOf [d] = false) (hm : s.masked s.myPart 10 = false)
include hp hm

/-- A write that the issuer may not make, or whose area or ring is past the window. -/
theorem srwr_traps (h : s.refusesWrite i.toNat = true ∨ s.areaFaults i.toNat (s.rg d) = true) :
    takes (.sysSrwr d i) s (s.trap 0x04 (wrapU i.toNat)) := by
  unfold takes
  rw [exec_sysSrwr, wrapU, BitVec.ofNat_toNat, execSysSrwr, issueReg_unmasked hm]
  refine issueM_trap hp ?_
  cases hr : s.refusesWrite i.toNat with
  | true => simp [hr, zext]
  | false =>
    have ha := h.resolve_left (by simp [hr])
    simp [hr, ha, zext]

theorem srwr_illegal (hr : s.refusesWrite i.toNat = false) (ha : s.areaFaults i.toNat (s.rg d) = false)
    (hb : badValue i.toNat (s.rg d) = true) : takes (.sysSrwr d i) s s.illegal := by
  unfold takes
  rw [exec_sysSrwr, execSysSrwr, issueReg_unmasked hm]
  refine issueM_trap hp ?_
  simp [hr, ha, hb]

/-- A write that passes the three checks: a table's value, one through the window, the issuer's own register, or one
of the core or the partition. -/
theorem exec_sysSrwr_passed (hr : s.refusesWrite i.toNat = false) (ha : s.areaFaults i.toNat (s.rg d) = false)
    (hb : badValue i.toNat (s.rg d) = false) :
    exec (.sysSrwr d i) s = .next (s.attempt (
      if i.toNat = 0x019 ∨ i.toNat = 0x01A then tableWrite i.toNat s.me.asid (s.rg d)
      else if i.toNat = 0x119 ∨ i.toNat = 0x11A then
        tableWrite (i.toNat - 0x100) (s.ctx s.key s.selected).flushed.asid (s.rg d)
      else if i.toNat < 0x020 then set (s.seq.modMe fun c => c.setReg i.toNat (s.rg d))
      else if inWindow i.toNat then set (s.modCtx s.key s.selected fun c => c.throughWindow i (s.rg d)).seq
      else set (s.setShared i.toNat (s.rg d)).seq)) := by
  rw [exec_sysSrwr, execSysSrwr, issueReg_unmasked hm, issueM, issue_ready hp]
  unfold State.attempt
  simp only [run_bind, run_get, run_trapIf, hr, ha, hb, Bool.false_eq_true, if_false]

/-- The issuer's own register takes the value after the end check (R83, R86). -/
theorem srwr_own {t : State} (hb : badValue i.toNat (s.rg d) = false)
    (ht : s.seq.setMe (s.seq.me.setReg i.toNat (s.rg d)) = t)
    (hr : s.refusesWrite i.toNat = false := by rfl) (hi : i.toNat < 0x019 := by decide) : takes (.sysSrwr d i) s t := by
  have ha := areaFaults_of_ne s (s.rg d) (by omega : i.toNat ≠ 0x045) (by omega)
  rw [takes, exec_sysSrwr_passed hp hm hr ha hb, ← ht, if_neg (by omega), if_neg (by omega), if_pos (by omega)]
  rfl

/-- A table's value is posted to the dies, whose acknowledgements the writer waits for (R323). -/
theorem srwr_table {t : Instr} (hi : i.toNat = 0x019 ∨ i.toNat = 0x01A)
    (hb : badValue i.toNat (s.rg d) = false)
    (ht : (if i.toNat = 0x019 then Instr.bctabWrite s.key s.slot s.me.asid.toNat (s.rg d)
      else .reclaimWrite s.key s.slot s.me.asid.toNat (s.rg d)) = t) :
    takes (.sysSrwr d i) s ((s.start t).block .acks) := by
  have ha := areaFaults_of_ne s (s.rg d) (by omega : i.toNat ≠ 0x045) (by omega)
  have hr : s.refusesWrite i.toNat = false := by rcases hi with hi | hi <;> rw [hi] <;> rfl
  rw [takes, exec_sysSrwr_passed hp hm hr ha hb, ← ht, if_pos hi]
  rfl

theorem srwr_window (hw : inWindow i.toNat = true)
    (ht : i.toNat ≠ 0x119 ∧ i.toNat ≠ 0x11A)
    (hr : s.refusesWrite i.toNat = false) (hb : badValue i.toNat (s.rg d) = false) :
    takes (.sysSrwr d i) s
      (s.setCtx s.key s.selected ((s.ctx s.key s.selected).throughWindow i (s.rg d))).seq := by
  have hi := (inWindow_iff _).mp hw
  have ha := areaFaults_of_ne s (s.rg d) (by omega : i.toNat ≠ 0x045) (by omega)
  rw [takes, exec_sysSrwr_passed hp hm hr ha hb, if_neg (by omega), if_neg (by omega), if_neg (by omega), if_pos hw]
  rfl

/-- A register of the core or of the partition. -/
theorem srwr_shared {t : State} (hi : 0x020 ≤ i.toNat) (hw : inWindow i.toNat = false)
    (hr : s.refusesWrite i.toNat = false) (ha : s.areaFaults i.toNat (s.rg d) = false)
    (hb : badValue i.toNat (s.rg d) = false) (ht : s.setShared i.toNat (s.rg d) = t) :
    takes (.sysSrwr d i) s t.seq := by
  have hn : ¬ (0x100 ≤ i.toNat ∧ i.toNat < 0x140) := fun h => by rw [(inWindow_iff _).mpr h] at hw; cases hw
  rw [takes, exec_sysSrwr_passed hp hm hr ha hb, ← ht, if_neg (by omega), if_neg (by omega), if_neg (by omega),
    if_neg (by rw [hw]; decide)]
  rfl

/-- A register of the core, which context 0 writes. -/
theorem srwr_core {t : State} (h0 : s.slot = 0)
    (hb : badValue i.toNat (s.rg d) = false) (ht : s.setShared i.toNat (s.rg d) = t)
    (ha : s.areaFaults i.toNat (s.rg d) = false := by rfl) (hi : 0x041 ≤ i.toNat ∧ i.toNat ≤ 0x048 := by decide) :
    takes (.sysSrwr d i) s t.seq :=
  srwr_shared hp hm (by omega) (inWindow_of_lt (by omega)) (refusesWrite_core h0 hi.1 hi.2) ha hb ht

/-- A register of the partition, which context 0 of the service core writes. -/
theorem srwr_partition {t : State} (h0 : s.slot = 0) (hs : s.onSvc = true)
    (hb : s.rg d &&& ~~~legalBits (layoutOf i.toNat) = 0)
    (ht : s.setShared i.toNat (s.rg d) = t) (hi : svcOnly i.toNat = true := by rfl) :
    takes (.sysSrwr d i) s t.seq := by
  have h : i.toNat = 0x083 ∨ 0x088 ≤ i.toNat ∧ i.toNat ≤ 0x08A := (svcOnly_iff _).mp hi
  have hw : inWindow i.toNat = false := inWindow_of_lt (by omega)
  have hl : layoutOf i.toNat ≠ 0x00C := by rw [layoutOf, hw, if_neg (by simp)]; omega
  exact srwr_shared hp hm (by omega) hw (refusesWrite_svc h0 hs hi)
    (areaFaults_of_ne s _ (by omega) (by omega)) (badValue_of_legal hb hl) ht

/-- A register of the selected context, at once or for its next issue (R282). -/
theorem srwr_put {e : Ctx} (h0 : s.slot = 0)
    (ho : windowOpen (s.ctx s.key s.selected).st = true) (hb : badValue i.toNat (s.rg d) = false)
    (he : (s.ctx s.key s.selected).setWindow i (s.rg d) = e) (hw : inWindow i.toNat = true := by rfl)
    (ht : i.toNat ≠ 0x119 ∧ i.toNat ≠ 0x11A := by decide)
    (hr : 0x120 ≤ i.toNat ∨ readOnly (i.toNat - 0x100) = false := by decide) :
    let x := s.ctx s.key s.selected
    (x.wait = none → x.fetched = none → x.wwrites = [] →
      takes (.sysSrwr d i) s (s.setCtx s.key s.selected e).seq) ∧
    (x.wait ≠ none ∨ x.fetched ≠ none →
      takes (.sysSrwr d i) s (s.setCtx s.key s.selected { x with wwrites := x.wwrites ++ [(i, s.rg d)] }).seq) := by
  intro x
  have h := srwr_window hp hm hw ht (refusesWrite_window h0 ho hw hr) hb
  refine ⟨fun h1 h2 h3 => ?_, fun h1 => ?_⟩
  · rwa [throughWindow_idle h1 h2 h3, he] at h
  · rwa [throughWindow_outstanding h1] at h

end

/-! ## Shared registers whose value has more than one field -/

section
variable {s : State} {d : Reg}
variable (hp : s.pendingOf [d] = false) (hm : s.masked s.myPart 10 = false)
include hp hm

/-- sr.spctl (R99): the area lies within the window, or the write traps. -/
theorem srwr_spctl (h0 : s.slot = 0) (hv : s.rg d &&& ~~~0x7FFE3 = 0) :
    (U (s.rg d) / 2 ^ 13 * 8192 + 8192 ≤ s.window s.myPart →
      takes (.sysSrwr d 0x045) s (s.modMine fun e => { e with
        area := BitVec.ofNat 6 (U (s.rg d) / 2 ^ 13), used := BitVec.ofNat 8 (U (s.rg d) / 2 ^ 5)
        aspill := (s.rg d).getLsbD 1, auto := (s.rg d).getLsbD 0 }).seq) ∧
    (s.window s.myPart < U (s.rg d) / 2 ^ 13 * 8192 + 8192 →
      takes (.sysSrwr d 0x045) s (s.trap 0x04 0x045)) := by
  have ha := areaFaults_area s hv
  refine ⟨fun hw => ?_, fun hw => ?_⟩
  · refine srwr_core hp hm h0 (badValue_of_legal hv) ?_ (ha.trans (decide_eq_false (Nat.not_lt.mpr hw)))
    rw [← extractLsb'_eq_ofNat, ← extractLsb'_eq_ofNat]
    rfl
  · exact srwr_traps hp hm (.inr (ha.trans (decide_eq_true hw)))

/-- sr.rqring (R99, R111): a ring that is enabled lies within the window, or the write traps; where the ring holds
tasks the write changes nothing. -/
theorem srwr_rqring (h0 : s.slot = 0) (hv : s.rg d &&& ~~~0x7F801 = 0) :
    let fits := (s.rg d).getLsbD 0 = false ∨ U (s.rg d) / 2 ^ 11 * 2048 + 2048 ≤ s.window s.myPart
    (fits → s.mine.ring = [] → takes (.sysSrwr d 0x047) s (s.modMine fun e => { e with
      rqBase := BitVec.ofNat 8 (U (s.rg d) / 2 ^ 11), rqEn := (s.rg d).getLsbD 0 }).seq) ∧
    (fits → s.mine.ring ≠ [] → takes (.sysSrwr d 0x047) s (s.modMine fun e => e).seq) ∧
    (¬ fits → takes (.sysSrwr d 0x047) s (s.trap 0x04 0x047)) := by
  intro fits
  have ha := areaFaults_ring s hv
  have taken : ∀ {t : State}, fits → s.setShared 0x047 (s.rg d) = t → takes (.sysSrwr d 0x047) s t.seq := by
    intro t hf ht
    refine srwr_core hp hm h0 (badValue_of_legal hv) ht (ha.trans ?_)
    rcases hf with hf | hf
    · rw [hf, Bool.false_and]
    · rw [decide_eq_false (Nat.not_lt.mpr hf), Bool.and_false]
  refine ⟨fun hf hr => taken hf ?_, fun hf hr => taken hf ?_, fun hf => srwr_traps hp hm (.inr (ha.trans ?_))⟩
  · rw [← extractLsb'_eq_ofNat]
    simp [State.setShared, hr]
  · simp [State.setShared, hr]
  · obtain ⟨hen, hw⟩ := not_or.mp hf
    rw [Bool.not_eq_false] at hen
    rw [hen, decide_eq_true (Nat.not_le.mp hw), Bool.true_and]

end

/-! ## The migration engine (R182) -/

theorem setShared_migctl (s : State) (v : Word) : s.setShared 0x08A v = s.migCommand (v.toNat % 4) := by
  show s.migCommand (v.extractLsb' 0 2).toNat = _
  rw [toNat_extractLsb', Nat.pow_zero, Nat.div_one]
  rfl

/-- A command that the engine's state does not take. -/
theorem migCommand_ignored {s : State} {n : Nat}
    (h : (s.part s.myPart).mig.st = .run ∨ n = 0 ∨ n = 3) : s.migCommand n = s := by
  unfold State.migCommand
  split
  case h_4 => rfl
  all_goals
    next hst =>
      rw [hst] at h
      rcases h with h | rfl | rfl
      · cases h
      · rfl
      · rfl

section
variable {s : State} {d : Reg}
variable (hp : s.pendingOf [d] = false) (hm : s.masked s.myPart 10 = false)
include hp hm

/-- The addresses: sr.asidtab, and sr.migsrc and sr.migdst of an idle engine. -/
theorem srwr_addresses (h0 : s.slot = 0) (hs : s.onSvc = true)
    (hv : s.rg d &&& ~~~0x00FFFFFFFFFFF000 = 0) :
    let part := fun (i : BitVec 12) (f : Part → Part) => takes (.sysSrwr d i) s (s.modPart s.myPart f).seq
    let page := BitVec.ofNat 44 (U (s.rg d) / 2 ^ 12)
    part 0x083 (fun e => { e with asidtab := page }) ∧
    ((s.part s.myPart).mig.st = .idle →
      part 0x088 (fun e => { e with mig := { e.mig with src := page } }) ∧
      part 0x089 fun e => { e with mig := { e.mig with dst := page } }) := by
  intro part page
  have hpage : page = (s.rg d).extractLsb' 12 44 := (extractLsb'_eq_ofNat ..).symm
  rw [hpage]
  refine ⟨srwr_partition hp hm h0 hs hv rfl, fun hidle => ⟨srwr_partition hp hm h0 hs hv ?_,
    srwr_partition hp hm h0 hs hv ?_⟩⟩
  · simp [State.setShared, hidle]
  · simp [State.setShared, hidle]

/-- sr.migctl: a command that the engine's state takes begins a step, any other does nothing. -/
theorem srwr_migctl (h0 : s.slot = 0) (hs : s.onSvc = true)
    (hv : s.rg d &&& ~~~0xFFFF = 0) :
    let cmd := U (s.rg d) % 4
    let begins := fun i => takes (.sysSrwr d 0x08A) s (s.start i).seq
    ((s.part s.myPart).mig.st = .idle → cmd = 1 → begins (.migStart s.myPart)) ∧
    ((s.part s.myPart).mig.st = .done → cmd = 2 → begins (.migRelease s.myPart)) ∧
    ((s.part s.myPart).mig.st = .error → cmd = 2 → begins (.migClear s.myPart)) ∧
    ((s.part s.myPart).mig.st = .run ∨ cmd = 0 ∨ cmd = 3 → takes (.sysSrwr d 0x08A) s s.seq) := by
  intro cmd begins
  have command : ∀ {t : State}, s.migCommand cmd = t → takes (.sysSrwr d 0x08A) s t.seq :=
    fun ht => srwr_partition hp hm h0 hs hv ((setShared_migctl s _).trans ht)
  refine ⟨fun hst hc => command ?_, fun hst hc => command ?_, fun hst hc => command ?_,
    fun h => command (migCommand_ignored h)⟩
  all_goals
    unfold State.migCommand
    rw [hst, hc]
    rfl

end

/-! ## The window (R282) -/

/-- The general registers stand at 0x120 and above. -/
theorem toNat_generalIndex (r : Reg) : (0x120 + r.setWidth 12 : BitVec 12).toNat = 0x120 + r.toNat := by
  have hr := r.isLt
  rw [BitVec.toNat_add, BitVec.toNat_setWidth]
  show (0x120 + r.toNat % 2 ^ 12) % 2 ^ 12 = _
  omega

theorem setWindow_general (c : Ctx) (r : Reg) (v : Word) : c.setWindow (0x120 + r.setWidth 12) v = c.wr r v := by
  unfold Ctx.setWindow
  rw [toNat_generalIndex, if_pos (by omega), Nat.add_sub_cancel_left, BitVec.ofNat_toNat, BitVec.setWidth_eq]

theorem setWindow_context (c : Ctx) {i : BitVec 12} {n : Nat} (v : Word) (hi : i.toNat = 0x100 + n) (hn : n < 0x20) :
    c.setWindow i v = c.setReg n v := by
  unfold Ctx.setWindow
  rw [hi, if_neg (by omega), Nat.add_sub_cancel_left]

theorem inWindow_general (r : Reg) : inWindow (0x120 + r.setWidth 12 : BitVec 12).toNat = true := by
  have hr := r.isLt
  rw [inWindow_iff, toNat_generalIndex]
  omega

/-! ## The registers of the core (R97, R99) -/

section
variable {s : State} {d : Reg}
variable (hp : s.pendingOf [d] = false) (hm : s.masked s.myPart 10 = false)
include hp hm

/-- The registers of the core whose value is one field. -/
theorem srwr_coreFields (h0 : s.slot = 0) :
    let v := s.rg d
    let core := fun (i : BitVec 12) (f : Core → Core) => takes (.sysSrwr d i) s (s.modMine f).seq
    (U v < 2 ^ 9 → core 0x041 fun e => { e with event := e.event &&& ~~~(BitVec.ofNat 9 (U v)) }) ∧
    (U v % 4 = 0 → core 0x042 (fun e => { e with evec := v }) ∧ core 0x044 fun e => { e with spexit := v }) ∧
    (U v < 16 → core 0x048 fun e => { e with sel := BitVec.ofNat 4 (U v) }) := by
  refine ⟨fun h => srwr_core hp hm h0 (badValue_below 9 h) ?_,
    fun h => ⟨srwr_core hp hm h0 (badValue_aligned 2 h) rfl, srwr_core hp hm h0 (badValue_aligned 2 h) rfl⟩,
    fun h => srwr_core hp hm h0 (badValue_below 4 h) ?_⟩
  · rw [← extractLsb'_zero_eq_ofNat]; rfl
  · rw [← extractLsb'_zero_eq_ofNat]; rfl

end

end Sys2Proof.Machine

open Sys2Proof Sys2Proof.Machine

/-- Settles O41: each clause is one way a write ends, with the register's legal values and its fields. -/
theorem stateRegisterWrites : Obligations.StateRegisterWrites := by
  intro s d idx hp hm v c own core
  refine ⟨?blkto, ?round, ?vprog, ?loopBounds, srwr_own hp hm (badValue_unrestricted v) rfl,
    srwr_own hp hm (badValue_unrestricted v) rfl, fun h => srwr_own hp hm (badValue_below 58 h) rfl, ?context0,
    fun h0 i hi => srwr_traps hp hm (.inl (refusesWrite_notContext0 h0 i hi)),
    fun i hi => srwr_traps hp hm (.inl (refusesWrite_unwritten s i hi)),
    fun _ ha => srwr_traps hp hm (.inr ha), fun hr ha hb => srwr_illegal hp hm hr ha hb, ?window,
    fun h => srwr_table hp hm (.inl rfl) (badValue_aligned 3 h) rfl,
    fun h => srwr_table hp hm (.inr rfl) (badValue_of_legal (and_not_reclaimBits h)) rfl⟩
  case blkto =>
    exact fun h => srwr_own hp hm (badValue_below 32 h) (by rw [← extractLsb'_zero_eq_ofNat]; rfl)
  case round =>
    exact fun h h8 => srwr_own hp hm (badValue_round h h8) (by rw [← extractLsb'_zero_eq_ofNat]; rfl)
  case vprog =>
    exact fun h => srwr_own hp hm (badValue_below 5 h) (by rw [← extractLsb'_zero_eq_ofNat]; rfl)
  case loopBounds =>
    exact fun h => ⟨srwr_own hp hm (badValue_aligned 2 h) rfl, srwr_own hp hm (badValue_aligned 2 h) rfl,
      srwr_own hp hm (badValue_aligned 2 h) rfl, srwr_own hp hm (badValue_aligned 2 h) rfl⟩
  case context0 =>
    intro h0
    obtain ⟨hevent, hvectors, hsel⟩ := srwr_coreFields hp hm h0
    refine ⟨fun h => srwr_own hp hm (badValue_below 16 h) ?asid (refusesWrite_identity h0 (.inl rfl)),
      fun h => srwr_own hp hm (badValue_below 1 h) ?rights (refusesWrite_identity h0 (.inr rfl)),
      hevent, hvectors, hsel, ?arm, fun h => srwr_core hp hm h0 (badValue_below 4 h) rfl,
      srwr_spctl hp hm h0, srwr_rqring hp hm h0, srwr_addresses hp hm h0, srwr_migctl hp hm h0,
      fun hs i hi => srwr_traps hp hm (.inl (refusesWrite_offSvc hs i hi)), ?disarm⟩
    case asid => rw [wrap16, ← extractLsb'_zero_eq_ofNat]; rfl
    case rights => rw [← getLsbD_zero_of_lt_two h]; rfl
    case arm =>
      intro hpos h
      have hv : s.rg d ≠ 0 := fun e => by simp [v, e] at hpos
      exact srwr_core hp hm h0 (badValue_below 32 h) (congrArg s.start (if_neg hv))
    case disarm =>
      intro h
      have hv : s.rg d = 0 := h
      exact srwr_core hp hm h0 (badValue_below 32 (by rw [hv]; decide)) (congrArg s.start (if_pos hv))
  case window =>
    intro h0 ho x put
    refine ⟨fun r => ?general,
      fun h => srwr_put hp hm h0 ho (badValue_aligned 2 h) (setWindow_context x (n := 0x004) v rfl (by decide)),
      fun h => srwr_put hp hm h0 ho (badValue_of_legal h) (setWindow_context x (n := 0x008) v rfl (by decide))⟩
    case general =>
      have hi := toNat_generalIndex r
      have hlt := r.isLt
      exact srwr_put hp hm h0 ho (badValue_general v (by omega) (by omega)) (setWindow_general x r v)
        (inWindow_general r) (by omega) (.inl (by omega))
end

section
/-! SUPPORT. SYS.XINV (R268): what `State.invalidate` leaves in the translation slices, the copy engines and the L1
caches, and what it writes back. -/

namespace Sys2Proof.Machine

/-! ## Pages that meet the page of an address -/

/-- Two pages meet, as intervals of base pages, exactly where the larger of them holds the other. -/
theorem samePage_iff (page level : Nat) (va : Word) (lv : Nat) :
    samePage page level va lv = true ↔
      page * 2 ^ (9 * level) < va.toNat % 2 ^ 57 / 2 ^ (12 + 9 * lv) * 2 ^ (9 * lv) + 2 ^ (9 * lv) ∧
      va.toNat % 2 ^ 57 / 2 ^ (12 + 9 * lv) * 2 ^ (9 * lv) < (page + 1) * 2 ^ (9 * level) := by
  have hpos : ∀ n : Nat, 0 < 2 ^ n := fun n => Nat.two_pow_pos n
  rw [samePage, beq_iff_eq]
  rcases Nat.le_total level lv with h | h
  · obtain ⟨k, rfl⟩ := Nat.exists_eq_add_of_le h
    rw [Nat.max_eq_right h]
    generalize va.toNat % 2 ^ 57 / 2 ^ (12 + 9 * (level + k)) = f
    rw [Nat.mul_add, Nat.pow_add, Nat.mul_comm (2 ^ (9 * level)), Nat.mul_div_mul_right _ _ (hpos _), ← Nat.mul_assoc,
      ← Nat.add_mul, Nat.mul_lt_mul_right (hpos _), Nat.mul_lt_mul_right (hpos _), Nat.div_eq_iff (hpos _)]
    have := hpos (9 * k)
    have : (f + 1) * 2 ^ (9 * k) = f * 2 ^ (9 * k) + 2 ^ (9 * k) := by ring
    omega
  · obtain ⟨k, rfl⟩ := Nat.exists_eq_add_of_le h
    rw [Nat.max_eq_left h, Nat.mul_div_cancel _ (hpos _)]
    rw [show 12 + 9 * (lv + k) = 12 + 9 * lv + 9 * k by omega, Nat.pow_add _ (12 + 9 * lv), ← Nat.div_div_eq_div_mul]
    generalize va.toNat % 2 ^ 57 / 2 ^ (12 + 9 * lv) = f
    rw [Nat.mul_add, Nat.pow_add, Nat.mul_comm (2 ^ (9 * lv)), ← Nat.mul_assoc, ← Nat.mul_assoc, ← Nat.succ_mul,
      Nat.mul_lt_mul_right (hpos _), Nat.mul_lt_mul_right (hpos _), eq_comm, Nat.div_eq_iff (hpos _)]
    have := hpos (9 * k)
    have : (page + 1) * 2 ^ (9 * k) = page * 2 ^ (9 * k) + 2 ^ (9 * k) := by ring
    omega

/-- A level of 5 covers every page of the 57-bit space. -/
theorem samePage_all {page level : Nat} (va : Word) (hl : level < 5) (hp : page * 2 ^ (9 * level) < 2 ^ 45) :
    samePage page level va 5 = true := by
  rw [samePage, Nat.max_eq_right (by omega), Nat.div_eq_of_lt hp, Nat.div_eq_of_lt (Nat.mod_lt _ (by decide))]
  rfl

/-! ## What XINV covers -/

/-- A leaf that XINV of a partition and an identifier covers. -/
def XEntry.underPage (x : XEntry) (p asid : Nat) (va : Word) (lv : Nat) : Bool :=
  x.part = p && x.asid.toNat = asid && samePage x.page x.level va lv

/-- An L1 line that it covers. -/
def L1Line.underPage (l : L1Line) (p asid : Nat) (va : Word) (lv : Nat) : Bool :=
  l.part = p && l.asid.toNat = asid && samePage (l.va / 32 % 2 ^ 45) 0 va lv

theorem XEntry.underPage_iff (x : XEntry) (p asid : Nat) (va : Word) (lv : Nat) :
    x.underPage p asid va lv = true ↔
      x.part = p ∧ x.asid.toNat = asid ∧ samePage x.page x.level va lv = true := by
  simp [underPage, and_assoc]

/-- XINV of every page covers each leaf of the identifier. -/
theorem XEntry.underPage_of_any {x : XEntry} {p asid : Nat} (va : Word)
    (h : x.part = p ∧ x.asid.toNat = asid ∧ x.level < 5 ∧ x.page * 2 ^ (9 * x.level) < 2 ^ 45) :
    x.underPage p asid va 5 = true :=
  (x.underPage_iff p asid va 5).mpr ⟨h.1, h.2.1, samePage_all va h.2.2.1 h.2.2.2⟩

theorem L1Line.underPage_iff (l : L1Line) (p asid : Nat) (va : Word) (lv : Nat) :
    l.underPage p asid va lv = true ↔
      l.part = p ∧ l.asid.toNat = asid ∧ samePage (l.va / 32 % 2 ^ 45) 0 va lv = true := by
  simp [underPage, and_assoc]

/-- What a core keeps of its copy engine's leaves and its L1 when XINV has dropped what it covers. -/
def CoreHw.outsidePage (h : CoreHw) (p asid : Nat) (va : Word) (lv : Nat) : CoreHw :=
  { h with
    xjob := h.xjob.filter fun x => !x.underPage p asid va lv
    l1 := h.l1.filter fun l => !l.underPage p asid va lv }

theorem CoreHw.outsidePage_outsidePage (h : CoreHw) (p asid : Nat) (va : Word) (lv : Nat) :
    (h.outsidePage p asid va lv).outsidePage p asid va lv = h.outsidePage p asid va lv := by
  simp [outsidePage, List.filter_filter]

/-! ## An eviction -/

/-- Two L1 lines have the tags under which the L1 finds one. -/
def L1Line.sameTags (m l : L1Line) : Bool := m.part = l.part ∧ m.asid = l.asid ∧ m.va = l.va

theorem L1Line.underPage_of_sameTags {m l : L1Line} (h : m.sameTags l = true) (p asid : Nat) (va : Word) (lv : Nat) :
    m.underPage p asid va lv = l.underPage p asid va lv := by
  obtain ⟨hp, ha, hv⟩ := of_decide_eq_true h
  rw [underPage, underPage, hp, ha, hv]

/-- The write-back that an eviction posts. -/
def State.evictArrival (s : State) (c : Nat) (l : L1Line) : Instr :=
  .postedWriteArrival ⟨.evict c, s.homeOf (dieOfCore c) l.part l.pa, dieOfCore c, l.part, l.pa, l.dirty, l.data⟩

namespace State

theorem hwOf_setHw_ne (s : State) {c j : Nat} (h : CoreHw) (hj : j ≠ c) : (s.setHw c h).hwOf j = s.hwOf j := by
  simp [hwOf, setHw, aget_aset_ne _ _ hj]

@[simp] theorem hwOf_post (s : State) (i : Instr) (c : Nat) : (s.post i).hwOf c = s.hwOf c := rfl

@[simp] theorem evictL1_dies (s : State) (c : Nat) (l : L1Line) : (s.evictL1 c l).dies = s.dies := by
  unfold evictL1 writeBack
  split <;> rfl

@[simp] theorem evictL1_parts (s : State) (c : Nat) (l : L1Line) : (s.evictL1 c l).parts = s.parts := by
  unfold evictL1 writeBack
  split <;> rfl

/-- The evicted line leaves the L1, and no line under other tags. -/
theorem hwOf_evictL1_self (s : State) (c : Nat) (l : L1Line) :
    (s.evictL1 c l).hwOf c = { s.hwOf c with l1 := (s.hwOf c).l1.filter fun m => !m.sameTags l } := by
  unfold evictL1 writeBack dropL1 setL1
  split
  · simp [L1Line.sameTags]
  · simp [L1Line.sameTags, List.filter_filter]

theorem hwOf_evictL1_ne (s : State) {c j : Nat} (l : L1Line) (hj : j ≠ c) : (s.evictL1 c l).hwOf j = s.hwOf j := by
  unfold evictL1 writeBack dropL1 setL1
  split
  · simp [hwOf_setHw_ne _ _ hj]
  · simp [hwOf_setHw_ne _ _ hj]

/-- A dirty line is written back, a clean one posts nothing. -/
theorem flight_evictL1 (s : State) (c : Nat) (l : L1Line) :
    (s.evictL1 c l).flight = if l.dirty = 0 then s.flight else s.flight ++ [s.evictArrival c l] := by
  unfold evictL1 writeBack
  split <;> rfl

/-! ## The evictions of one core -/

/-- A fold keeps what each of its steps keeps. -/
theorem foldl_keeps {α β : Type} {f : State → β} {g : State → α → State} (h : ∀ s a, f (g s a) = f s) (l : List α)
    (s : State) : f (l.foldl g s) = f s := by
  induction l generalizing s with
  | nil => rfl
  | cons a l ih => rw [List.foldl_cons, ih, h]

theorem hwOf_evictAll_self (ls : List L1Line) (s : State) (c : Nat) :
    (ls.foldl (fun s l => s.evictL1 c l) s).hwOf c =
      { s.hwOf c with l1 := (s.hwOf c).l1.filter fun m => !ls.any m.sameTags } := by
  induction ls generalizing s with
  | nil => simp
  | cons l ls ih => rw [List.foldl_cons, ih, hwOf_evictL1_self]; simp [List.filter_filter, Bool.and_comm]

theorem flight_subset_evictL1 (s : State) (c : Nat) (l : L1Line) : s.flight ⊆ (s.evictL1 c l).flight := by
  rw [flight_evictL1]
  split
  · exact List.Subset.refl _
  · exact List.subset_append_left _ _

/-- A fold forgets no step under way where each of its steps forgets none. -/
theorem flight_subset_foldl {α : Type} {g : State → α → State} (h : ∀ s a, s.flight ⊆ (g s a).flight) (l : List α)
    (s : State) : s.flight ⊆ (l.foldl g s).flight := by
  induction l generalizing s with
  | nil => exact List.Subset.refl _
  | cons a l ih => exact List.Subset.trans (h s a) (ih (g s a))

theorem arrival_evictAll {ls : List L1Line} (s : State) (c : Nat) {l : L1Line} (hl : l ∈ ls) (hd : l.dirty ≠ 0) :
    ∃ t : State, t.evictArrival c l ∈ (ls.foldl (fun s l => s.evictL1 c l) s).flight := by
  induction ls generalizing s with
  | nil => cases hl
  | cons m ls ih =>
    rcases List.mem_cons.mp hl with rfl | hl
    · refine ⟨s, flight_subset_foldl (fun s m => flight_subset_evictL1 s c m) ls _ ?_⟩
      rw [flight_evictL1, if_neg hd]
      exact List.mem_append_right _ (List.mem_singleton_self _)
    · exact ih _ hl

/-! ## What XINV drops, core by core -/

/-- XINV drops what it covers in the translation slices of a partition's dies. -/
def dropSlices (s : State) (p asid : Nat) (va : Word) (lv : Nat) : State :=
  { s with dies := s.dies.map fun e =>
    if (s.cfg p).dies.contains e.1 then
      (e.1, { e.2 with xlat := e.2.xlat.filter fun x => !x.2.underPage p asid va lv })
    else e }

/-- XINV drops what it covers in one core, where a die of the partition holds it. -/
def dropCore (s : State) (p asid : Nat) (va : Word) (lv : Nat) (c : Nat) : State :=
  if (s.cfg p).dies.contains (dieOfCore c) then
    let t := s.modHw c fun h => { h with xjob := h.xjob.filter fun x => !x.underPage p asid va lv }
    ((t.hwOf c).l1.filter fun l => l.underPage p asid va lv).foldl (fun s l => s.evictL1 c l) t
  else s

theorem invalidate_eq (s : State) (p asid : Nat) (va : Word) (lv : Nat) :
    s.invalidate p asid va lv =
      s.hw.foldl (fun t e => t.dropCore p asid va lv e.1) (s.dropSlices p asid va lv) := rfl

section
variable (s : State) (p asid : Nat) (va : Word) (lv c : Nat)

theorem dropCore_dies : (s.dropCore p asid va lv c).dies = s.dies := by
  unfold dropCore
  split
  · exact foldl_keeps (fun s l => evictL1_dies s c l) _ _
  · rfl

theorem dropCore_parts : (s.dropCore p asid va lv c).parts = s.parts := by
  unfold dropCore
  split
  · exact foldl_keeps (fun s l => evictL1_parts s c l) _ _
  · rfl

theorem hwOf_dropCore_ne {j : Nat} (hj : j ≠ c) : (s.dropCore p asid va lv c).hwOf j = s.hwOf j := by
  unfold dropCore
  split
  · exact (foldl_keeps (f := fun s => s.hwOf j) (fun s l => hwOf_evictL1_ne s l hj) _ _).trans (hwOf_setHw_ne _ _ hj)
  · rfl

theorem hwOf_dropCore_self (hc : dieOfCore c ∈ (s.cfg p).dies) :
    (s.dropCore p asid va lv c).hwOf c = (s.hwOf c).outsidePage p asid va lv := by
  have hevicts : ∀ m ∈ (s.hwOf c).l1,
      (!((s.hwOf c).l1.filter fun l => l.underPage p asid va lv).any m.sameTags) = !m.underPage p asid va lv := by
    intro m hm
    congr 1
    rw [Bool.eq_iff_iff, List.any_eq_true]
    constructor
    · rintro ⟨l, hl, ht⟩
      rw [L1Line.underPage_of_sameTags ht]
      exact (List.mem_filter.mp hl).2
    · exact fun h => ⟨m, List.mem_filter.mpr ⟨hm, h⟩, by simp [L1Line.sameTags]⟩
  unfold dropCore
  rw [if_pos (List.contains_iff_mem.mpr hc)]
  simp only [hwOf_evictAll_self, modHw_eq, hwOf_setHw_self, List.filter_congr hevicts]
  rfl

theorem flight_subset_dropCore : s.flight ⊆ (s.dropCore p asid va lv c).flight := by
  unfold dropCore
  split
  · exact flight_subset_foldl (fun s l => flight_subset_evictL1 s c l) _ (s.modHw c _)
  · exact List.Subset.refl _

theorem arrival_dropCore (hc : dieOfCore c ∈ (s.cfg p).dies) {l : L1Line} (hl : l ∈ (s.hwOf c).l1)
    (hu : l.underPage p asid va lv = true) (hd : l.dirty ≠ 0) :
    ∃ t : State, t.evictArrival c l ∈ (s.dropCore p asid va lv c).flight := by
  unfold dropCore
  rw [if_pos (List.contains_iff_mem.mpr hc)]
  exact arrival_evictAll _ c (List.mem_filter.mpr ⟨by simpa using hl, hu⟩) hd

/-! ## What XINV drops over the cores listed -/

theorem cfg_dropCore (q : Nat) : (s.dropCore p asid va lv c).cfg q = s.cfg q := by
  rw [cfg, part, dropCore_parts]
  rfl

/-- The fold of `State.invalidate` over the cores listed. -/
def dropCores (s : State) (p asid : Nat) (va : Word) (lv : Nat) (cs : List (Nat × CoreHw)) : State :=
  cs.foldl (fun t e => t.dropCore p asid va lv e.1) s

variable (cs : List (Nat × CoreHw))

theorem dropCores_dies : (s.dropCores p asid va lv cs).dies = s.dies :=
  foldl_keeps (fun s _ => dropCore_dies s p asid va lv _) cs s

theorem hwOf_dropCores_ne (h : ∀ e ∈ cs, e.1 ≠ c) : (s.dropCores p asid va lv cs).hwOf c = s.hwOf c := by
  induction cs generalizing s with
  | nil => rfl
  | cons e cs ih =>
    have hne : c ≠ e.1 := fun hc => h e (List.mem_cons_self ..) hc.symm
    exact (ih _ fun f hf => h f (List.mem_cons_of_mem _ hf)).trans (hwOf_dropCore_ne s p asid va lv e.1 hne)

theorem hwOf_dropCores_self (hc : dieOfCore c ∈ (s.cfg p).dies) (h : ∃ e ∈ cs, e.1 = c) :
    (s.dropCores p asid va lv cs).hwOf c = (s.hwOf c).outsidePage p asid va lv := by
  induction cs generalizing s with
  | nil => simp at h
  | cons e cs ih =>
    have hdies : dieOfCore c ∈ ((s.dropCore p asid va lv e.1).cfg p).dies := by rwa [cfg_dropCore]
    show ((s.dropCore p asid va lv e.1).dropCores p asid va lv cs).hwOf c = _
    by_cases hr : ∃ f ∈ cs, f.1 = c
    · rw [ih _ hdies hr]
      by_cases he : c = e.1
      · subst he
        rw [hwOf_dropCore_self s p asid va lv _ hc, CoreHw.outsidePage_outsidePage]
      · rw [hwOf_dropCore_ne s p asid va lv e.1 he]
    · obtain ⟨f, hf, rfl⟩ := h
      obtain rfl : f = e := (List.mem_cons.mp hf).resolve_right fun hf => hr ⟨f, hf, rfl⟩
      rw [hwOf_dropCores_ne _ p asid va lv _ cs fun g hg hgf => hr ⟨g, hg, hgf⟩,
        hwOf_dropCore_self s p asid va lv _ hc]

theorem arrival_dropCores (hc : dieOfCore c ∈ (s.cfg p).dies) (h : ∃ e ∈ cs, e.1 = c) {l : L1Line}
    (hl : l ∈ (s.hwOf c).l1) (hu : l.underPage p asid va lv = true) (hd : l.dirty ≠ 0) :
    ∃ t : State, t.evictArrival c l ∈ (s.dropCores p asid va lv cs).flight := by
  induction cs generalizing s with
  | nil => simp at h
  | cons e cs ih =>
    show ∃ t : State, t.evictArrival c l ∈ ((s.dropCore p asid va lv e.1).dropCores p asid va lv cs).flight
    by_cases he : c = e.1
    · subst he
      obtain ⟨t, ht⟩ := arrival_dropCore s p asid va lv _ hc hl hu hd
      exact ⟨t, flight_subset_foldl (fun s _ => flight_subset_dropCore s p asid va lv _) cs _ ht⟩
    · refine ih _ ?_ ?_ ?_
      · rwa [cfg_dropCore]
      · obtain ⟨f, hf, rfl⟩ := h
        exact ⟨f, (List.mem_cons.mp hf).resolve_left fun hfe => he (congrArg _ hfe), rfl⟩
      · rwa [hwOf_dropCore_ne s p asid va lv e.1 he]

end

/-! ## What XINV drops -/

section
variable (s : State) (p asid : Nat) (va : Word) (lv : Nat)

/-- A core that no table lists holds nothing. -/
theorem hwOf_of_unlisted {c : Nat} (h : ¬ ∃ e ∈ s.hw, e.1 = c) : s.hwOf c = .reset := by
  have hnone : aget s.hw c = none := by
    generalize s.hw = l at h
    induction l with
    | nil => rfl
    | cons e l ih =>
      rw [aget, if_neg fun he => h ⟨e, List.mem_cons_self .., he⟩]
      exact ih fun ⟨f, hf, hfc⟩ => h ⟨f, List.mem_cons_of_mem _ hf, hfc⟩
  rw [hwOf, hnone]
  rfl

theorem hwOf_invalidate {c : Nat} (hc : dieOfCore c ∈ (s.cfg p).dies) :
    (s.invalidate p asid va lv).hwOf c = (s.hwOf c).outsidePage p asid va lv := by
  by_cases h : ∃ e ∈ s.hw, e.1 = c
  · exact hwOf_dropCores_self (s.dropSlices p asid va lv) p asid va lv c s.hw hc h
  · refine (hwOf_dropCores_ne (s.dropSlices p asid va lv) p asid va lv c s.hw fun e he hec => h ⟨e, he, hec⟩).trans ?_
    show s.hwOf c = _
    rw [hwOf_of_unlisted s h]
    rfl

theorem arrival_invalidate {c : Nat} (hc : dieOfCore c ∈ (s.cfg p).dies) {l : L1Line} (hl : l ∈ (s.hwOf c).l1)
    (hu : l.underPage p asid va lv = true) (hd : l.dirty ≠ 0) :
    ∃ t : State, t.evictArrival c l ∈ (s.invalidate p asid va lv).flight := by
  by_cases h : ∃ e ∈ s.hw, e.1 = c
  · exact arrival_dropCores (s.dropSlices p asid va lv) p asid va lv c s.hw hc h hl hu hd
  · rw [hwOf_of_unlisted s h] at hl
    cases hl

/-- A slice of a die of the partition keeps no leaf that XINV covers. -/
theorem not_underPage_of_slice {e : Nat × Die} (he : e ∈ (s.invalidate p asid va lv).dies)
    (hd : e.1 ∈ (s.cfg p).dies) {x : Nat × XEntry} (hx : x ∈ e.2.xlat) : x.2.underPage p asid va lv = false := by
  rw [invalidate_eq, ← dropCores, dropCores_dies] at he
  obtain ⟨e', -, rfl⟩ := List.mem_map.mp he
  by_cases h : (s.cfg p).dies.contains e'.1
  · rw [if_pos h] at hx
    simpa using (List.mem_filter.mp hx).2
  · rw [if_neg h] at hd
    exact absurd (List.contains_iff_mem.mpr hd) h

/-- A copy engine of the partition keeps none either. -/
theorem not_underPage_of_copyEngine {c : Nat} (hc : dieOfCore c ∈ (s.cfg p).dies) {x : XEntry}
    (hx : x ∈ ((s.invalidate p asid va lv).hwOf c).xjob) : x.underPage p asid va lv = false := by
  rw [hwOf_invalidate s p asid va lv hc] at hx
  simpa using (List.mem_filter.mp hx).2

theorem mem_l1_invalidate {c : Nat} (hc : dieOfCore c ∈ (s.cfg p).dies) {l : L1Line} :
    l ∈ ((s.invalidate p asid va lv).hwOf c).l1 ↔ l ∈ (s.hwOf c).l1 ∧ l.underPage p asid va lv = false := by
  rw [hwOf_invalidate s p asid va lv hc]
  exact List.mem_filter.trans (by simp)

end
end State
end Sys2Proof.Machine
end

section
/-! SUPPORT. The instructions of the service core (R266 to R269): one lemma for each way that SYS.XINV, SYS.PGREF and
SYS.FREPLY end. -/

namespace Sys2Proof.Machine

theorem run_onlyService (s : State) :
    onlyService s = if !s.onSvc && !isLrs (s.cfg s.myPart) s.myCore then .error (.trap 0x04 0) s else .ok () s := by
  unfold onlyService
  rw [run_bind, run_get]
  exact run_trapIf _ _ _ s

theorem run_poisonCheck (va : Word) (pa : Nat) (reads : Bool) (s : State) :
    poisonCheck va pa reads s = if s.badLine s.myPart pa reads then .error (.trap 0x0D va) s else .ok () s := by
  unfold poisonCheck
  rw [run_bind, run_get]
  exact run_trapIf _ _ _ s

/-- A part that ends well is not touched by what a failed transaction would trap with. -/
theorem orTrap_ok {α : Type} {va : Word} {m : M α} {s t : State} {x : α} (h : m s = .ok x t) :
    orTrap va m s = .ok x t := by
  show EStateM.tryCatch m _ s = _
  unfold EStateM.tryCatch
  rw [h]

/-! ## SYS.XINV (R268, R275) -/

/-- The last part of SYS.XINV, once the level is known: it waits for walks, drops what it covers, and waits for what is
on its way. -/
def State.xinvFrom (s : State) (p asid : Nat) (va : Word) (lv : Nat) : State :=
  if s.walksUnder p asid va lv then s.block (.xinv asid va lv false)
  else
    let t := s.invalidate p asid va lv
    if t.underWay p || t.queuedUnder p asid va lv then t.block (.xinv asid va lv true) else t.seq

/-- The three ways in which that part ends. -/
theorem takes_xinvFrom {i : Instr} {s t : State} {p asid lv : Nat} {va : Word}
    (h : takes i s (t.xinvFrom p asid va lv)) :
    let u := t.invalidate p asid va lv
    (t.walksUnder p asid va lv = true → takes i s (t.block (.xinv asid va lv false))) ∧
    (t.walksUnder p asid va lv = false →
      ((u.underWay p || u.queuedUnder p asid va lv) = false → takes i s u.seq) ∧
      ((u.underWay p || u.queuedUnder p asid va lv) = true → takes i s (u.block (.xinv asid va lv true)))) := by
  unfold State.xinvFrom at h
  refine ⟨fun hw => by rwa [if_pos hw] at h, fun hw => ?_⟩
  rw [if_neg (Bool.eq_false_iff.mp hw)] at h
  exact ⟨fun hu => by rwa [if_neg (Bool.eq_false_iff.mp hu)] at h, fun hu => by rwa [if_pos hu] at h⟩

/-- That part as execSysXinv runs it. -/
def xinvAt (p asid : Nat) (va : Word) (lv : Nat) : M Unit := do
  let s ← get
  if s.walksUnder p asid va lv then throw (.block (.xinv asid va lv false))
  let s := s.invalidate p asid va lv
  set s
  blockIf (s.underWay p || s.queuedUnder p asid va lv) (.xinv asid va lv true)
  modify fun s => s.seq

/-- How a part ends depends on what it answers only. -/
theorem attempt_congr {s t : State} {m m' : M Unit} (h : m s = m' t) : s.attempt m = t.attempt m' := by
  unfold State.attempt
  rw [h]

theorem attempt_xinvAt (s : State) (p asid : Nat) (va : Word) (lv : Nat) :
    s.attempt (xinvAt p asid va lv) = s.xinvFrom p asid va lv := by
  unfold State.attempt State.xinvFrom xinvAt
  simp only [run_bind, run_get]
  cases s.walksUnder p asid va lv with
  | true => rfl
  | false =>
    simp only [Bool.false_eq_true, if_false, run_bind, run_set, run_blockIf]
    cases (s.invalidate p asid va lv).underWay p || (s.invalidate p asid va lv).queuedUnder p asid va lv with
    | true => rfl
    | false => rfl

/-- The level of the leaf that a walk ends at; 0 where it ends at none. -/
def Walked.leafLevel : Walked → Nat
  | .leaf _ lv _ => lv
  | _ => 0

/-- A walk as SYS.XINV makes it: one whose transaction fails counts as refused. -/
theorem walkTable_orRefused {s s1 : State} {p asid : Nat} {va : Word} {r : Walked}
    (h : walkTable p asid va s = .ok r s1 ∨ r = .refused ∧ walkTable p asid va s = .error .err s1) :
    (tryCatch (walkTable p asid va) fun e => if e = .err then pure .refused else throw e) s = .ok r s1 := by
  show EStateM.tryCatch _ _ s = _
  unfold EStateM.tryCatch
  rcases h with h | ⟨rfl, h⟩
  · rw [h]
  · rw [h]
    rfl

theorem walkTable_blocked {s s1 : State} {p asid : Nat} {va : Word} {e : Wait}
    (h : walkTable p asid va s = .error (.block e) s1) :
    (tryCatch (walkTable p asid va) fun e => if e = .err then pure .refused else throw e) s
      = .error (.block e) s1 := by
  show EStateM.tryCatch _ _ s = _
  unfold EStateM.tryCatch
  rw [h]
  rfl

theorem exec_sysXinv (d a : Reg) (s : State) : exec (.sysXinv d a) s = execSysXinv d a s := rfl

theorem toNat_low16 (w : Word) : (w.extractLsb' 0 16).toNat = U w % 2 ^ 16 := by
  rw [toNat_extractLsb', Nat.pow_zero, Nat.div_one]

/-- The bits of an XINV operand above the identifier and the flag for all of its pages. -/
theorem xinv_reserved (w : Word) : (w.extractLsb' 17 47 != 0) = decide (2 ^ 17 ≤ U w) := by
  have hw : U w < 2 ^ 64 := w.isLt
  have hn : (w.extractLsb' 17 47).toNat = U w / 2 ^ 17 % 2 ^ 47 := toNat_extractLsb' w 17 47
  rw [Bool.eq_iff_iff, bne_iff_ne, decide_eq_true_iff, ne_eq, BitVec.toNat_eq, hn]
  show ¬ U w / 2 ^ 17 % 2 ^ 47 = 0 ↔ _
  omega

theorem xinv_allPages {w : Word} (h : U w < 2 ^ 17) : w.getLsbD 16 = decide (2 ^ 16 ≤ U w) := by
  rw [BitVec.getLsbD, Nat.testBit_eq_decide_div_mod_eq, decide_eq_decide]
  show U w / 2 ^ 16 % 2 = 1 ↔ _
  omega

/-- An operand that names an identifier alone. -/
theorem xinv_page {w : Word} (h : U w < 2 ^ 16) :
    (w.extractLsb' 17 47 != 0) = false ∧ w.getLsbD 16 = false ∧ (w.extractLsb' 0 16).toNat = U w :=
  ⟨(xinv_reserved w).trans (decide_eq_false (by omega)),
    (xinv_allPages (by omega)).trans (decide_eq_false (by omega)), (toNat_low16 w).trans (Nat.mod_eq_of_lt h)⟩

section
variable {s : State} {d a : Reg} (hp : s.pendingOf [d, a] = false)
include hp

theorem sysXinv_of_other (ho : (!s.onSvc && !isLrs (s.cfg s.myPart) s.myCore) = true) :
    takes (.sysXinv d a) s (s.trap 0x04 0) := by
  rw [takes, exec_sysXinv]
  refine issueM_trap hp ?_
  simp only [run_bind, run_onlyService, ho, if_true]

variable (ho : (!s.onSvc && !isLrs (s.cfg s.myPart) s.myCore) = false)
include ho

theorem sysXinv_reserved (hw : 2 ^ 17 ≤ U (s.rg d)) : takes (.sysXinv d a) s (s.trap 0x04 (s.rg d)) := by
  rw [takes, exec_sysXinv]
  refine issueM_trap hp ?_
  simp only [run_bind, run_get, run_trapIf, run_onlyService, ho, xinv_reserved, decide_eq_true hw, if_true,
    Bool.false_eq_true, if_false]

theorem sysXinv_noncanonical (hw : U (s.rg d) < 2 ^ 16) (hv : canonical (s.rg a) = false) :
    takes (.sysXinv d a) s (s.trap 0x04 (s.rg a)) := by
  obtain ⟨hr, hall, -⟩ := xinv_page hw
  rw [takes, exec_sysXinv]
  refine issueM_trap hp ?_
  simp only [run_bind, run_get, run_trapIf, run_onlyService, ho, hr, hall, hv, Bool.not_false, Bool.and_true, if_true,
    Bool.false_eq_true, if_false]

variable (he : s.me.posted = [])
include he

/-- Every page of an identifier. -/
theorem sysXinv_identifier (hlow : 2 ^ 16 ≤ U (s.rg d)) (hhigh : U (s.rg d) < 2 ^ 17) :
    takes (.sysXinv d a) s (s.xinvFrom s.myPart (U (s.rg d) % 2 ^ 16) (s.rg a) 5) := by
  have hr : ((s.rg d).extractLsb' 17 47 != 0) = false := (xinv_reserved _).trans (decide_eq_false (by omega))
  have hall : (s.rg d).getLsbD 16 = true := (xinv_allPages hhigh).trans (decide_eq_true hlow)
  rw [takes, exec_sysXinv, execSysXinv, issueM, issue_ready hp, ← attempt_xinvAt]
  refine congrArg _ (attempt_congr ?_)
  simp only [run_bind, run_get, run_trapIf, run_onlyService, run_waitEchoes, run_pure, ho, hr, hall, he, toNat_low16,
    Bool.not_true, Bool.false_and, List.isEmpty_nil, if_true, Bool.false_eq_true, if_false, xinvAt]

section
variable (hw : U (s.rg d) < 2 ^ 16) (hv : canonical (s.rg a) = true)
include hw hv

theorem sysXinv_page {s1 : State} {r : Walked}
    (hwalk : walkTable s.myPart (U (s.rg d)) (s.rg a) s = .ok r s1 ∨
      r = .refused ∧ walkTable s.myPart (U (s.rg d)) (s.rg a) s = .error .err s1) :
    takes (.sysXinv d a) s (s1.xinvFrom s.myPart (U (s.rg d)) (s.rg a)
      (max r.leafLevel (s.cachedLevel s.myPart (U (s.rg d)) (s.rg a)))) := by
  obtain ⟨hr, hall, hid⟩ := xinv_page hw
  rw [takes, exec_sysXinv, execSysXinv, issueM, issue_ready hp, ← attempt_xinvAt]
  refine congrArg _ (attempt_congr ?_)
  simp only [run_bind, run_get, run_trapIf, run_onlyService, run_waitEchoes, ho, hr, hall, hv, he, hid,
    Bool.not_true, Bool.and_false, List.isEmpty_nil, if_true, Bool.false_eq_true, if_false, walkTable_orRefused hwalk]
  have hnone : ∀ lv, xinvAt s.myPart (U (s.rg d)) (s.rg a) lv s1 = xinvAt s.myPart (U (s.rg d)) (s.rg a) (max 0 lv) s1 :=
    fun lv => by rw [Nat.zero_max]
  cases r with
  | leaf => rfl
  | absent | refused | poison => exact hnone _

theorem sysXinv_waitsForTable {s1 : State} {e : Wait}
    (hwalk : walkTable s.myPart (U (s.rg d)) (s.rg a) s = .error (.block e) s1) :
    takes (.sysXinv d a) s (s1.block e) := by
  obtain ⟨hr, hall, hid⟩ := xinv_page hw
  rw [takes, exec_sysXinv]
  refine issueM_block hp ?_
  simp only [run_bind, run_get, run_trapIf, run_onlyService, run_waitEchoes, ho, hr, hall, hv, he, hid,
    Bool.not_true, Bool.and_false, List.isEmpty_nil, if_true, Bool.false_eq_true, if_false,
    walkTable_blocked hwalk]

end
end

/-! ## SYS.PGREF (R265, R267) -/

theorem exec_sysPgref (d a : Reg) (s : State) : exec (.sysPgref d a) s = execSysPgref d a s := rfl

theorem frameAligned {v : Word} (h : U v % 4096 = 0) : (v.extractLsb' 0 12 != 0) = false :=
  (low_bits v 12).trans (by rw [show v.toNat % 2 ^ 12 = 0 from h]; rfl)

namespace State

/-- The reply from a home that an instruction has used (R92). -/
def usesReply (s : State) : State := { s with cur := { s.cur with used := s.cur.used + 1 } }

/-- The entry of the frame table for an address. -/
def frameEntry (s : State) (v : Word) : Nat := (s.cfg s.myPart).frametab * 4096 + 4 * frameOf (U v)

/-- The home of that entry. -/
def frameHome (s : State) (v : Word) : Nat := s.homeAgent s.myPart (s.steer s.myPart (s.frameEntry v))

/-- How SYS.PGREF ends once it has read the old entry. -/
def frameCounted (s : State) (home p e : Nat) (d : Reg) (old : Nat) (n : Int) : State :=
  match adjusted old n with
  | some new => (s.mergeOwned home p e (maskOf (e % 128) 4) (Machine.placed (e % 128) new)).result d (wrapU new)
  | none => s.result d (0x8000000000000000 + wrapU old)

variable (s : State) (home p e : Nat) (d : Reg) (old : Nat) (n : Int)

theorem frameCounted_inRange (h : 0 ≤ (old % 2 ^ 24 : Nat) + n) (h' : (old % 2 ^ 24 : Nat) + n ≤ 0xFFFFFF) :
    let new := old / 2 ^ 24 * 2 ^ 24 + ((old % 2 ^ 24 : Nat) + n).toNat
    s.frameCounted home p e d old n =
      (s.mergeOwned home p e (maskOf (e % 128) 4) (Machine.placed (e % 128) new)).result d (wrapU new) := by
  unfold frameCounted adjusted
  rw [if_pos ⟨h, h'⟩]

theorem frameCounted_outOfRange (h : (old % 2 ^ 24 : Nat) + n < 0 ∨ 0xFFFFFF < (old % 2 ^ 24 : Nat) + n) :
    s.frameCounted home p e d old n = s.result d (wrapU (2 ^ 63 + old)) := by
  unfold frameCounted adjusted
  rw [if_neg (by omega)]
  exact congrArg (s.result d) (BitVec.ofNat_add (2 ^ 63) old).symm

end State

section
variable {s : State} {d a : Reg} (hp : s.pendingOf [d, a] = false)
include hp

theorem sysPgref_misaligned (ha : U (s.rg a) % 4096 ≠ 0) : takes (.sysPgref d a) s (s.trap 0x03 (s.rg a)) := by
  have hbits : ((s.rg a).extractLsb' 0 12 != 0) = true := (low_bits _ 12).trans (bne_iff_ne.mpr ha)
  rw [takes, exec_sysPgref]
  refine issueM_trap hp ?_
  simp only [run_bind, run_get, run_trapIf, hbits, if_true]

variable (ha : U (s.rg a) % 4096 = 0)
include ha

theorem sysPgref_of_other (ho : (!s.onSvc && !isLrs (s.cfg s.myPart) s.myCore) = true) :
    takes (.sysPgref d a) s (s.trap 0x04 0) := by
  rw [takes, exec_sysPgref]
  refine issueM_trap hp ?_
  simp only [run_bind, run_get, run_trapIf, run_onlyService, ho, frameAligned ha, if_true, Bool.false_eq_true, if_false]

variable (ho : (!s.onSvc && !isLrs (s.cfg s.myPart) s.myCore) = false)
variable {h : Nat} (hpl : place (loc (U (s.rg a))) = .dram h) (hh : h ∈ (s.cfg s.myPart).dies)
include ho hpl hh

/-- An entry that the partition does not reach, or that lies in a core map. -/
theorem sysPgref_refused
    (he : s.admits s.myPart (s.frameEntry (s.rg a)) = false ∨ s.inCoreMap (loc (s.frameEntry (s.rg a))) = true) :
    takes (.sysPgref d a) s (s.trap 0x04 (s.rg a)) := by
  have hown : (s.cfg s.myPart).dies.contains h = true := List.contains_iff_mem.mpr hh
  have hbad : (!s.admits s.myPart (s.frameEntry (s.rg a)) || s.inCoreMap (loc (s.frameEntry (s.rg a)))) = true := by
    rcases he with he | he
    · rw [he]; rfl
    · rw [he, Bool.or_true]
  unfold State.frameEntry at hbad
  rw [takes, exec_sysPgref]
  refine issueM_trap hp ?_
  simp only [run_bind, run_get, run_trapIf, run_onlyService, ho, frameAligned ha, hpl, hown, Bool.not_true, Bool.false_or, hbad,
    if_true, Bool.false_eq_true, if_false]

/-- An entry that is read. -/
theorem sysPgref_counts {s1 s2 : State} {data : LineData}
    (hlow : -0xFFFFFF ≤ S (s.rg d)) (hhigh : S (s.rg d) ≤ 0xFFFFFF) (hposted : s.me.posted = [])
    (hadmits : s.admits s.myPart (s.frameEntry (s.rg a)) = true)
    (hmap : s.inCoreMap (loc (s.frameEntry (s.rg a))) = false)
    (hreply : s.cur.used < s.me.replies) (hline : s.badLine s.myPart (s.frameEntry (s.rg a)) true = false)
    (howned : ownLine (s.frameHome (s.rg a)) s.myPart (s.frameEntry (s.rg a)) s.usesReply = .ok () s1)
    (hread : readLine (s.frameHome (s.rg a)) s.myPart (s.frameEntry (s.rg a)) s1 = .ok data s2) :
    takes (.sysPgref d a) s (s2.frameCounted (s.frameHome (s.rg a)) s.myPart (s.frameEntry (s.rg a)) d
      (sliceNat data (s.frameEntry (s.rg a) % 128) 4) (S (s.rg d))) := by
  have hown : (s.cfg s.myPart).dies.contains h = true := List.contains_iff_mem.mpr hh
  have hn : (decide (S (s.rg d) < -0xFFFFFF) || decide (0xFFFFFF < S (s.rg d))) = false := by
    rw [decide_eq_false (by omega), decide_eq_false (by omega)]; rfl
  have hreplied : awaitReply s = .ok () s.usesReply := (run_awaitReply s).trans (if_pos hreply)
  have hpoison : s.usesReply.badLine s.usesReply.myPart (s.frameEntry (s.rg a)) true = false := hline
  have ho1 := orTrap_ok (va := s.rg a) howned
  have ho2 := orTrap_ok (va := s.rg a) hread
  unfold State.frameHome State.frameEntry at *
  rw [takes, exec_sysPgref]
  refine issueM_ok hp (u := ()) ?_
  simp only [run_bind, run_get, run_trapIf, run_onlyService, run_waitEchoes, run_poisonCheck, ho, frameAligned ha, hpl,
    hown, hadmits, hmap, hn, hposted, hreplied,
    hpoison, ho1, ho2,
    Bool.not_true, Bool.or_false, List.isEmpty_nil, if_true, Bool.false_eq_true, if_false, gt_iff_lt]
  unfold State.frameCounted
  cases adjusted (sliceNat data (((s.cfg s.myPart).frametab * 4096 + 4 * frameOf (U (s.rg a))) % 128) 4)
    (S (s.rg d)) with
  | none => rfl
  | some new => rfl

end

/-! ## SYS.FREPLY (R266, R269) -/

theorem exec_sysFreply (d a : Reg) (s : State) : exec (.sysFreply d a) s = execSysFreply d a s := rfl

section
variable {s : State} {d a : Reg} (hp : s.pendingOf [d, a] = false)
include hp

theorem sysFreply_of_other (ho : (!s.onSvc && !isLrs (s.cfg s.myPart) s.myCore) = true) :
    takes (.sysFreply d a) s (s.trap 0x04 0) := by
  rw [takes, exec_sysFreply]
  refine issueM_trap hp ?_
  simp only [run_bind, run_onlyService, ho, if_true]

variable (ho : (!s.onSvc && !isLrs (s.cfg s.myPart) s.myCore) = false)
include ho

theorem sysFreply_noRecord (hr : isRecord (ringsOf (s.cfg s.myPart) s.myCore) (U (s.rg a)) = false) :
    takes (.sysFreply d a) s (s.trap 0x04 (s.rg a)) := by
  rw [takes, exec_sysFreply]
  refine issueM_trap hp ?_
  simp only [run_bind, run_get, run_trapIf, run_onlyService, ho, hr, Bool.not_false, Bool.true_or, if_true,
    Bool.false_eq_true, if_false]

theorem sysFreply_answers (hr : isRecord (ringsOf (s.cfg s.myPart) s.myCore) (U (s.rg a)) = true)
    (hw : U (s.rg a) + 64 ≤ s.window s.myPart) (hz : s.loadLocal s.key (U (s.rg a) + 56) 8 = 0)
    (hc : U (s.rg d) ≤ 1) (hposted : s.me.posted = []) :
    takes (.sysFreply d a) s
      ((s.storeLocal s.key (U (s.rg a) + 56) 8 (2 ^ 63 + U (s.rg d))).sendReply (U (s.rg a)) (U (s.rg d))).seq := by
  have hword : (0x8000000000000000 + s.rg d).toNat = 2 ^ 63 + U (s.rg d) := by
    rw [BitVec.toNat_add]
    exact Nat.mod_eq_of_lt (by show 2 ^ 63 + U (s.rg d) < 2 ^ 64; omega)
  rw [takes, exec_sysFreply, ← hword]
  refine issueM_ok hp (u := ()) ?_
  simp only [run_bind, run_get, run_trapIf, run_onlyService, run_waitEchoes, run_modify, ho, hr, hz, hposted,
    Nat.not_lt.mpr hw, Nat.not_lt.mpr hc, decide_false, Bool.not_true, Bool.or_false, bne_self_eq_false,
    List.isEmpty_nil, if_true, Bool.false_eq_true, if_false, gt_iff_lt]

end
/-! ## A SYS.XINV that waits (R268, R275) -/

section
variable {s : State} {k id lv : Nat} {x : Slot} {va : Word}

theorem xinvOn_dropped (h : (s.ctx k x).wait = some (.xinv id va lv true)) :
    s.xinvOn k x = if s.underWay (partOf k) || s.queuedUnder (partOf k) id va lv then s else s.finish k x 0 0 := by
  unfold State.xinvOn
  rw [h]

theorem xinvOn_waiting (h : (s.ctx k x).wait = some (.xinv id va lv false)) :
    s.xinvOn k x = if s.walksUnder (partOf k) id va lv then s
      else
        let top := max lv (s.cachedLevel (partOf k) id va)
        (s.invalidate (partOf k) id va top).modCtx k x fun c => { c with wait := some (.xinv id va top true) } := by
  unfold State.xinvOn
  rw [h]

end

end Sys2Proof.Machine

open Sys2Proof Sys2Proof.Machine

/-- Settles O43: each clause is one way that an instruction of the service core ends, or what `State.invalidate` leaves
behind. -/
theorem serviceInstructions : Obligations.ServiceInstructions := by
  intro s s1 s2 d a data hp p w v
  refine ⟨fun hs hl => ?others, sysPgref_misaligned hp, fun hsvc hposted => ?service, fun u k id lv x va hw => ?dropped,
    fun u k id lv x va hw => ?waiting, fun u q id lv va _ => ?drops⟩
  case others =>
    have ho : (!s.onSvc && !isLrs (s.cfg s.myPart) s.myCore) = true := by rw [hs, show isLrs _ _ = false from hl]; rfl
    exact ⟨sysXinv_of_other hp ho, sysFreply_of_other hp ho, fun ha => sysPgref_of_other hp ha ho⟩
  case service =>
    have ho : (!s.onSvc && !isLrs (s.cfg s.myPart) s.myCore) = false := by
      rcases hsvc with h | h
      · rw [h]; rfl
      · rw [show isLrs _ _ = true from h, Bool.not_true, Bool.and_false]
    refine ⟨sysXinv_reserved hp ho, fun hlow hhigh => ?identifier, sysXinv_noncanonical hp ho, fun hw hv r hwalk => ?page,
      fun hw hv e hwalk => sysXinv_waitsForTable hp ho hposted hw hv hwalk,
      fun h ha hpl hh => sysPgref_refused hp ha ho hpl hh, fun h ha hpl hh hlow hhigh => ?counts,
      sysFreply_noRecord hp ho, fun hr hwin hz hc => sysFreply_answers hp ho hr hwin hz hc hposted⟩
    case identifier =>
      obtain ⟨hwalks, hdropped⟩ := takes_xinvFrom (sysXinv_identifier hp ho hposted hlow hhigh)
      refine ⟨hwalks, hdropped, fun e he hd x hx hin => ?slices, fun c hc x hx hin => ?engines⟩
      case slices =>
        exact Bool.eq_false_iff.mp (State.not_underPage_of_slice s p _ v 5 he hd hx) (XEntry.underPage_of_any v hin)
      case engines =>
        exact Bool.eq_false_iff.mp (State.not_underPage_of_copyEngine s p _ v 5 hc hx) (XEntry.underPage_of_any v hin)
    case page =>
      have hx := takes_xinvFrom (sysXinv_page hp ho hposted hw hv hwalk)
      rw [Nat.mod_eq_of_lt hw]
      cases r <;> exact hx
    case counts =>
      intro e hadmits hmap home t hreply hline howned hread old n
      have hx : takes (.sysPgref d a) s (s2.frameCounted home p e d old (S w)) :=
        sysPgref_counts hp ha ho hpl hh hlow hhigh hposted hadmits hmap hreply hline howned hread
      exact ⟨fun h h' => by rwa [State.frameCounted_inRange _ _ _ _ _ _ _ h h'] at hx,
        fun h => by rwa [State.frameCounted_outOfRange _ _ _ _ _ _ _ h] at hx⟩
  case dropped =>
    rw [xinvOn_dropped hw]
    exact ⟨fun h h' => by rw [h, h']; rfl, fun h => if_pos (by rwa [Bool.or_eq_true])⟩
  case waiting =>
    rw [xinvOn_waiting hw]
    exact ⟨fun h => if_pos h, fun h => if_neg (Bool.eq_false_iff.mp h)⟩
  case drops =>
    intro t first meets leaf
    have hleaf : ∀ x, leaf x → x.underPage q id va lv = true := fun x ⟨hp, hi, hm⟩ =>
      (x.underPage_iff q id va lv).mpr ⟨hp, hi, (samePage_iff ..).mpr hm⟩
    refine ⟨fun e he hd x hx hl => ?slices, fun c hc => ⟨fun x hx hl => ?engines, fun l => ?lines⟩⟩
    case slices =>
      exact Bool.eq_false_iff.mp (State.not_underPage_of_slice u q id va lv he hd hx) (hleaf _ hl)
    case engines =>
      exact Bool.eq_false_iff.mp (State.not_underPage_of_copyEngine u q id va lv hc hx) (hleaf _ hl)
    case lines =>
      intro covered
      have hcov : l.underPage q id va lv = true ↔ covered :=
        (l.underPage_iff q id va lv).trans (and_congr_right fun _ => and_congr_right fun _ => samePage_iff ..)
      have hmem := State.mem_l1_invalidate u q id va lv hc (l := l)
      refine ⟨fun h hl => Bool.eq_false_iff.mp (hmem.mp hl).2 (hcov.mpr h),
        fun hl h => hmem.mpr ⟨hl, Bool.eq_false_iff.mpr fun hu => h (hcov.mp hu)⟩, fun hl h hdirty => ?_⟩
      obtain ⟨t', ht'⟩ := State.arrival_invalidate u q id va lv hc hl (hcov.mpr h) hdirty
      obtain ⟨rfl, -⟩ := h
      exact ⟨_, ht'⟩
end

section
/-! SUPPORT. Module time (R300, R301), power (R20, R334), temperature (R336) and management (R337): one lemma for each
shared operation, and for each way that a step ends. -/

namespace Sys2Proof.Machine

/-! ## Folds over dies and partitions -/

namespace State

/-- A fold reaches what one of its steps brings about and each keeps. -/
theorem foldl_reaches {α : Type} {P : State → Prop} {g : State → α → State} {l : List α} {a : α} (ha : a ∈ l)
    (hset : ∀ s, P (g s a)) (hkeep : ∀ s b, P s → P (g s b)) (s : State) : P (l.foldl g s) := by
  have hkeeps : ∀ (l : List α) (s : State), P s → P (l.foldl g s) := by
    intro l
    induction l with
    | nil => exact fun s h => h
    | cons b l ih => exact fun s h => ih _ (hkeep s b h)
  induction l generalizing s with
  | nil => cases ha
  | cons b l ih =>
    rcases List.mem_cons.mp ha with rfl | ha
    · exact hkeeps l _ (hset s)
    · exact ih ha _

/-- A change of each die of a list. -/
theorem die_foldl_modDie (f : Nat → Die → Die) {l : List Nat} (hl : l.Nodup) (s : State) (d : Nat) :
    (l.foldl (fun t d => t.modDie d (f d)) s).die d = if d ∈ l then f d (s.die d) else s.die d := by
  induction l generalizing s with
  | nil => simp
  | cons e l ih =>
    obtain ⟨he, hl⟩ := List.nodup_cons.mp hl
    rw [List.foldl_cons, ih hl]
    by_cases h : d = e
    · subst h
      simp [he]
    · simp [h, die_setDie_ne _ _ h]

/-- A change of every die of the module. -/
def mapDies (s : State) (f : Nat → Die → Die) : State := (List.range 32).foldl (fun t d => t.modDie d (f d)) s

theorem die_mapDies (s : State) (f : Nat → Die → Die) {d : Nat} (hd : d < 32) :
    (s.mapDies f).die d = f d (s.die d) :=
  (die_foldl_modDie f List.nodup_range s d).trans (if_pos (List.mem_range.mpr hd))

theorem mapDies_keeps {β : Type} {f : State → β} (h : ∀ (t : State) d e, f (t.setDie d e) = f t) (s : State)
    (g : Nat → Die → Die) : f (s.mapDies g) = f s := foldl_keeps (fun t d => h t d _) _ s

/-! ## Time (R301) -/

section
variable (s : State) (src source : Nat)

/-- More than a millisecond behind its source, the time steps forward, and with it what the ports have timed. -/
theorem follow_steps (h : s.time + 1000000 < source) :
    s.follow src source =
      (({ s with timeSrc := src, slew := 0, ptp := s.ptp.map fun e => (e.1, e.2.stepped (source - s.time)) } :
        State).advanceTo source).unpark := by
  unfold follow
  rw [if_pos h]

theorem follow_slews (h : source ≤ s.time + 1000000) :
    s.follow src source = { s with timeSrc := src, slew := (source : Int) - s.time } := by
  unfold follow
  rw [if_neg (Nat.not_lt.mpr h)]

theorem follow_time_of_steps (h : s.time + 1000000 < source) : (s.follow src source).time = source := by
  have hle : s.time ≤ source := by omega
  rw [follow_steps s src source h, unpark_time]
  exact Nat.max_eq_right hle

theorem follow_slew_of_steps (h : s.time + 1000000 < source) : (s.follow src source).slew = 0 := by
  rw [follow_steps s src source h]
  rfl

theorem follow_timeSrc : (s.follow src source).timeSrc = src := by
  rcases Nat.lt_or_ge (s.time + 1000000) source with h | h
  · rw [follow_steps s src source h]
    rfl
  · rw [follow_slews s src source h]

/-- What following a source leaves alone. -/
theorem follow_keeps {β : Type} (f : State → β)
    (hf : ∀ (t : State) n sl ts u pt pk,
      f { t with time := n, slew := sl, timeSrc := ts, urgent := u, ptp := pt, parked := pk } = f t) :
    f (s.follow src source) = f s := by
  rcases Nat.lt_or_ge (s.time + 1000000) source with h | h
  · rw [follow_steps s src source h]
    exact hf s _ _ _ _ _ _
  · rw [follow_slews s src source h]
    exact hf s s.time _ src s.urgent s.ptp s.parked

end

/-- What a cycle adds and what is left of a correction come to the cycle's length and the correction. -/
theorem nanoseconds_sum (s : State) :
    (s.nanoseconds.1 : Int) + s.nanoseconds.2 = ((s.cycle + 1) * 10 / 33 - s.cycle * 10 / 33 : Nat) + s.slew := by
  unfold nanoseconds
  have hle : s.cycle * 10 / 33 ≤ (s.cycle + 1) * 10 / 33 := Nat.div_le_div_right (by omega)
  dsimp only
  split
  · rfl
  · split <;> (dsimp only; omega)

/-- A correction goes by a nanosecond at the ends of two thousand. -/
theorem nanoseconds_slews (s : State) (h : s.nanoseconds.2 ≠ s.slew) :
    s.nanoseconds.2 - s.slew ∈ [(-1 : Int), 1] ∧ (s.cycle + 1) * 10 / 33 % 2000 = 0 := by
  unfold nanoseconds at h ⊢
  dsimp only at h ⊢
  split at h
  · exact absurd rfl h
  · rename_i hb
    rw [if_neg hb]
    refine ⟨?_, by omega⟩
    split
    · simp
    · simp

/-! ## The loss of every source (R301) -/

theorem event_raise_self (s : State) (k n : Nat) :
    ((s.raise k n).core k).event = (s.core k).event ||| BitVec.ofNat 9 (2 ^ n) := by
  simp [raise]

/-- An event that stands is not taken back by another. -/
theorem event_raise_keeps {s : State} {k m : Nat} (j n : Nat) (h : ((s.core k).event).getLsbD m = true) :
    (((s.raise j n).core k).event).getLsbD m = true := by
  by_cases hk : k = j
  · subst hk
    rw [event_raise_self, BitVec.getLsbD_or, h, Bool.true_or]
  · rwa [raise, modCore_eq, core_setCore_ne _ _ hk]

theorem foldl_raiseSvc (l : List (Nat × Part)) (s : State) :
    l.foldl (fun t e => t.raiseSvc e.1) s =
      l.foldl (fun t e => t.raise (keyOf (s.cfg e.1).svcCore e.1) evSvc) s := by
  induction l generalizing s with
  | nil => rfl
  | cons e l ih => exact ih (s.raiseSvc e.1)

theorem event_raiseAllSvc (s : State) {e : Nat × Part} (he : e ∈ s.parts) (hd : e.2.cfg.dies ≠ []) :
    ((s.raiseAllSvc.core (keyOf (s.cfg e.1).svcCore e.1)).event).getLsbD 8 = true := by
  have hmem : e ∈ s.parts.filter fun e => !e.2.cfg.dies.isEmpty := List.mem_filter.mpr ⟨he, by simpa using hd⟩
  rw [raiseAllSvc, foldl_raiseSvc]
  refine foldl_reaches (P := fun t => ((t.core (keyOf (s.cfg e.1).svcCore e.1)).event).getLsbD 8 = true) hmem ?_ ?_ s
  · intro t
    rw [event_raise_self, BitVec.getLsbD_or, show (BitVec.ofNat 9 (2 ^ evSvc)).getLsbD 8 = true by decide, Bool.or_true]
  · exact fun t f h => event_raise_keeps _ _ h

/-! ## Power (R20, R334) -/

@[simp] theorem recap_die (s : State) (d : Nat) : s.recap.die d = s.die d := rfl

theorem recap_capped (s : State) : s.recap.capped = decide (s.moduleLimit < s.drawn + Config.headroom) := rfl

theorem meter_le_sum (s : State) {d : Nat} (hd : d < 32) : (s.die d).meter ≤ s.meters.sum :=
  List.le_sum_of_mem (List.mem_map.mpr ⟨d, List.mem_range.mpr hd, rfl⟩)

/-- What one die spends is what the module spends. -/
theorem sum_meters_modDie (s : State) {d : Nat} (n : Nat) (hd : d < 32) :
    (s.modDie d fun e => { e with meter := e.meter + n }).meters.sum = s.meters.sum + n := by
  have hmem : d ∈ List.range 32 := List.mem_range.mpr hd
  have hrest : ((List.range 32).erase d).map (fun e => ((s.modDie d fun e => { e with meter := e.meter + n }).die e).meter)
      = ((List.range 32).erase d).map fun e => (s.die e).meter := by
    refine List.map_congr_left fun e he => ?_
    rw [modDie_eq, die_setDie_ne _ _ (List.nodup_range.mem_erase_iff.mp he).1]
  unfold meters
  rw [← List.sum_map_erase _ hmem, ← List.sum_map_erase (fun e => (s.die e).meter) hmem, hrest, modDie_eq,
    die_setDie_self]
  dsimp only
  omega

theorem spend_meter (s : State) (d n : Nat) : ((s.spend d n).die d).meter = (s.die d).meter + n := by
  simp [spend]

theorem spend_capped (s : State) {d : Nat} (n : Nat) (hd : d < 32) :
    (s.spend d n).capped = true ↔ s.moduleLimit < Config.staticDraw + s.meters.sum + n + Config.headroom := by
  rw [spend, recap_capped, drawn, sum_meters_modDie s n hd, decide_eq_true_iff, ← Nat.add_assoc]
  rfl

theorem spent_iff (s : State) (d : Nat) :
    s.spent d = true ↔ (∃ b, s.budgetOf d = some b ∧ b ≤ (s.die d).meter) ∨ s.capped = true ∨
      ∃ e ∈ s.parts, e.2.capped = true ∧ d ∈ e.2.cfg.dies := by
  simp [spent, Option.any_eq_true, or_assoc]

/-! ### Budgets -/

/-- A hot die has half its budget (R336). -/
theorem budgetOf_hot (s : State) (d : Nat) {b : Nat} (hb : (s.die d).budget = some b) :
    (s.modDie d fun e => { e with halved := true }).budgetOf d = some (b / 2) := by
  rw [budgetOf, modDie_eq, die_setDie_self, if_pos rfl, hb, Option.getD_some]

theorem budgetOf_cool (s : State) (d : Nat) :
    (s.modDie d fun e => { e with halved := false }).budgetOf d = (s.die d).budget := by
  rw [budgetOf, modDie_eq, die_setDie_self, if_neg Bool.false_ne_true]

/-- A further limit leaves a budget no larger. -/
theorem tighter_some_le (x : Nat) (o : Option Nat) : ∃ b ≤ x, tighter (some x) o = some b := by
  cases o with
  | none => exact ⟨x, le_refl x, rfl⟩
  | some y => exact ⟨min x y, Nat.min_le_left x y, rfl⟩

theorem foldl_tighter_le {α : Type} (f : α → Option Nat) (l : List α) (x : Nat) :
    ∃ b ≤ x, l.foldl (fun n e => tighter n (f e)) (some x) = some b := by
  induction l generalizing x with
  | nil => exact ⟨x, le_refl x, rfl⟩
  | cons e l ih =>
    obtain ⟨y, hy, hxy⟩ := tighter_some_le x (f e)
    obtain ⟨b, hb, hby⟩ := ih y
    exact ⟨b, hb.trans hy, by rw [List.foldl_cons, hxy, hby]⟩

section
variable (s : State) (projected : Nat) (demand : List Nat) (d : Nat)

/-- A die's part of the module's limit, in proportion to its demand. -/
def fairShare (s : State) (demand : List Nat) (d : Nat) : Nat :=
  ((s.moduleLimit - Config.staticDraw) * demand.getD d 0 + (demandOf demand (List.range 32) - 1)) /
    demandOf demand (List.range 32)

theorem budgetFor_le (h : s.moduleLimit < projected) :
    ∃ b ≤ s.fairShare demand d, s.budgetFor projected demand d = some b := by
  unfold budgetFor budgetShare
  rw [if_pos h]
  exact foldl_tighter_le _ _ _

theorem budgetFor_noParts (h : s.parts = []) :
    s.budgetFor projected demand d = if s.moduleLimit < projected then some (s.fairShare demand d) else none := by
  unfold budgetFor
  rw [h]
  rfl

end

/-! ### The end of an interval -/

theorem die_drawn (s : State) (n d : Nat) : ({ s with draw := n } : State).die d = s.die d := rfl

/-- Every die with its next budget and its meters afresh. -/
def nextInterval (s : State) (projected : Nat) (demand : List Nat) : State :=
  ({ s with draw := s.drawn } : State).mapDies fun d e =>
    { e with budget := s.budgetFor projected demand d, meter := 0, want := 0 }

section
variable (s : State) (projected : Nat) (demand : List Nat)

theorem nextInterval_die {d : Nat} (hd : d < 32) :
    (s.nextInterval projected demand).die d =
      { s.die d with budget := s.budgetFor projected demand d, meter := 0, want := 0 } := by
  rw [nextInterval, die_mapDies _ _ hd, die_drawn]

theorem nextInterval_draw : (s.nextInterval projected demand).draw = s.drawn := mapDies_keeps setDie_draw _ _

theorem nextInterval_mem : (s.nextInterval projected demand).mem = s.mem := mapDies_keeps setDie_mem _ _

theorem nextInterval_cores : (s.nextInterval projected demand).cores = s.cores := mapDies_keeps setDie_cores _ _

theorem nextInterval_moduleLimit : (s.nextInterval projected demand).moduleLimit = s.moduleLimit :=
  mapDies_keeps setDie_moduleLimit _ _

theorem nextInterval_drawn : (s.nextInterval projected demand).drawn = Config.staticDraw := by
  have hzero : (s.nextInterval projected demand).meters = (List.range 32).map fun _ => 0 :=
    List.map_congr_left fun d hd => by rw [nextInterval_die s projected demand (List.mem_range.mp hd)]
  rw [drawn, hzero, List.map_const', List.sum_replicate, smul_zero, Nat.add_zero]

/-- The interval begins with room unless the module draws too much at rest. -/
theorem nextInterval_capped :
    (s.nextInterval projected demand).recap.capped = true ↔ s.moduleLimit < Config.staticDraw + Config.headroom := by
  rw [recap_capped, nextInterval_drawn, nextInterval_moduleLimit, decide_eq_true_iff]

end

theorem mem_heldBack {s : State} {e : Nat × Core} (he : e ∈ s.cores) {x : Slot} {w : Bool}
    (hw : e.2.ctxs[x].wait = some (.power w)) : (e.1, x) ∈ s.heldBack := by
  refine List.mem_flatMap.mpr ⟨e, he, List.mem_map.mpr ⟨x, List.mem_filter.mpr ⟨List.mem_finRange x, ?_⟩, rfl⟩⟩
  rw [hw]

theorem exec_powerInterval (s : State) (projected : Nat) (demand : List Nat) :
    exec (.powerInterval projected demand) s = execPowerInterval projected demand s := rfl

/-- The controller looks at the limits again, and what is parked or listed is tried again. -/
def resumes (t : State) (l : List (Nat × Slot)) : State := { t.recap.unpark with retry := l }

section
variable (t : State) (l : List (Nat × Slot))

theorem resumes_draw : (t.resumes l).draw = t.draw := rfl
theorem resumes_mem : (t.resumes l).mem = t.mem := rfl
theorem resumes_cores : (t.resumes l).cores = t.cores := rfl
theorem resumes_die (d : Nat) : (t.resumes l).die d = t.die d := rfl
theorem resumes_capped : (t.resumes l).capped = t.recap.capped := rfl
theorem resumes_retry : (t.resumes l).retry = l := rfl

end

theorem takes_powerInterval (s : State) (projected : Nat) (demand : List Nat) :
    takes (.powerInterval projected demand) s
      ((s.nextInterval projected demand).resumes (s.retry ++ s.heldBack)) := by
  rw [takes, exec_powerInterval, execPowerInterval, done, nextInterval, mapDies, resumes]

/-! ## Temperature (R336) -/

theorem temperatureHigh_die (s : State) {d : Nat} (hd : d < 32) :
    takes (.temperatureHigh d) s (s.modDie d fun e => { e with halved := true }) :=
  congrArg Host.Outcome.next (if_pos hd)

theorem temperatureHigh_hub (s : State) {u : Nat} (hu : 32 ≤ u) :
    takes (.temperatureHigh u) s { s with hotHubs := s.hotHubs.filter (· ≠ u - 32) ++ [u - 32] } :=
  congrArg Host.Outcome.next (if_neg (Nat.not_lt.mpr hu))

theorem dieBelow100c_die (s : State) {d : Nat} (hd : d < 32) :
    takes (.dieBelow100c d) s (s.modDie d fun e => { e with halved := false }) :=
  congrArg Host.Outcome.next (if_pos hd)

theorem dieBelow100c_hub (s : State) {u : Nat} (hu : 32 ≤ u) :
    takes (.dieBelow100c u) s { s with hotHubs := s.hotHubs.filter (· ≠ u - 32) } :=
  congrArg Host.Outcome.next (if_neg (Nat.not_lt.mpr hu))

/-- Every partition stops (R278). -/
def stopParts (s : State) : State := s.parts.foldl (fun s e => s.stopPart e.1) s

/-- The dies are powered down. -/
def powerDown (s : State) : State := s.mapDies fun _ e => { e with powered := false }

theorem shutDown_eq (s : State) (cause : LogEntry) : s.shutDown cause = s.stopParts.powerDown.log cause := rfl

theorem stopParts_keeps {β : Type} (f : State → β) (h : ∀ (t : State) p e, f (t.setPart p e) = f t) (s : State) :
    f s.stopParts = f s := foldl_keeps (fun t (e : Nat × Part) => h t e.1 _) _ _

theorem powerDown_keeps {β : Type} (f : State → β) (h : ∀ (t : State) d e, f (t.setDie d e) = f t) (s : State) :
    f s.powerDown = f s := mapDies_keeps h s _

theorem log_die (s : State) (cause : LogEntry) (d : Nat) : (s.log cause).die d = s.die d := rfl
theorem log_part (s : State) (cause : LogEntry) (p : Nat) : (s.log cause).part p = s.part p := rfl
theorem log_mem (s : State) (cause : LogEntry) : (s.log cause).mem = s.mem := rfl
theorem log_cores (s : State) (cause : LogEntry) : (s.log cause).cores = s.cores := rfl
theorem log_errlog (s : State) (cause : LogEntry) : (s.log cause).errlog = s.errlog ++ [cause] := rfl

theorem shutDown_mem (s : State) (cause : LogEntry) : (s.shutDown cause).mem = s.mem := by
  rw [shutDown_eq, log_mem, powerDown_keeps mem setDie_mem, stopParts_keeps mem setPart_mem]

theorem shutDown_cores (s : State) (cause : LogEntry) : (s.shutDown cause).cores = s.cores := by
  rw [shutDown_eq, log_cores, powerDown_keeps cores setDie_cores, stopParts_keeps cores setPart_cores]

theorem shutDown_errlog (s : State) (cause : LogEntry) : (s.shutDown cause).errlog = s.errlog ++ [cause] := by
  rw [shutDown_eq, log_errlog, powerDown_keeps errlog setDie_errlog, stopParts_keeps errlog setPart_errlog]

theorem shutDown_powered (s : State) (cause : LogEntry) {d : Nat} (hd : d < 32) :
    ((s.shutDown cause).die d).powered = false := by
  rw [shutDown_eq, log_die, powerDown, die_mapDies _ _ hd]

theorem stopPart_keeps {s : State} {q : Nat} (p : Nat) (h : (s.part q).stopped = true) :
    ((s.stopPart p).part q).stopped = true := by
  by_cases hq : q = p
  · subst hq
    simp [stopPart]
  · rwa [stopPart, modPart_eq, part_setPart_ne _ _ hq]

theorem shutDown_stopped (s : State) (cause : LogEntry) {q : Nat × Part} (hq : q ∈ s.parts) :
    ((s.shutDown cause).part q.1).stopped = true := by
  rw [shutDown_eq, log_part, powerDown_keeps (fun t => t.part q.1) fun _ _ _ => rfl]
  exact foldl_reaches (P := fun t => (t.part q.1).stopped = true) hq (fun t => by simp [stopPart])
    (fun t e h => stopPart_keeps e.1 h) s

end State

/-! ## Corrections of the time (R301) -/

section
variable {s : State}

/-- What a step does that brings the time toward its source. -/
theorem takes_follow {i : Instr} {src source : Nat} (h : takes i s (s.follow src source)) :
    (s.time + 1000000 < source → ∃ t, takes i s t ∧ t.time = source ∧ t.slew = 0 ∧ t.timeSrc = src ∧ t.mem = s.mem ∧
      t.cores = s.cores) ∧
    (source ≤ s.time + 1000000 → ∃ t, takes i s t ∧ t.time = s.time ∧ t.slew = (source : Int) - s.time ∧
      t.timeSrc = src ∧ t.mem = s.mem ∧ t.cores = s.cores) := by
  have hmem : (s.follow src source).mem = s.mem := s.follow_keeps src source _ fun _ _ _ _ _ _ _ => rfl
  have hcores : (s.follow src source).cores = s.cores := s.follow_keeps src source _ fun _ _ _ _ _ _ _ => rfl
  have hsrc := s.follow_timeSrc src source
  refine ⟨fun hlate => ⟨_, h, s.follow_time_of_steps src source hlate, s.follow_slew_of_steps src source hlate,
    hsrc, hmem, hcores⟩, fun hnear => ⟨_, h, ?_, ?_, hsrc, hmem, hcores⟩⟩
  · rw [State.follow_slews s src source hnear]
  · rw [State.follow_slews s src source hnear]

theorem exec_moduleTimeCorrection (t : SourceTime) :
    exec (.moduleTimeCorrection t) s = execModuleTimeCorrection t s := rfl

theorem moduleTimeCorrection_port (source : Nat) :
    takes (.moduleTimeCorrection ⟨false, source⟩) s (s.follow 1 source) := by
  unfold takes
  rw [exec_moduleTimeCorrection, execModuleTimeCorrection, if_pos (by rfl), done]

theorem moduleTimeCorrection_ptm {source : Nat} (h : s.timeSrc ≠ 1) (hup : s.hostUp = true) :
    takes (.moduleTimeCorrection ⟨true, source⟩) s (s.follow 2 source) := by
  unfold takes
  rw [exec_moduleTimeCorrection, execModuleTimeCorrection, if_neg (by simp), if_neg (by simp [h, hup]), done]

theorem moduleTimeCorrection_ignored {source : Nat} (h : s.timeSrc = 1 ∨ s.hostUp = false) :
    takes (.moduleTimeCorrection ⟨true, source⟩) s s := by
  unfold takes
  rw [exec_moduleTimeCorrection, execModuleTimeCorrection, if_neg (by simp), if_pos (by simpa using h), done]

theorem takes_timeSourceLoss : takes .timeSourceLoss s ({ s with timeSrc := 3, slew := 0 } : State).raiseAllSvc := rfl

theorem raiseAllSvc_keeps {β : Type} (f : State → β) (h : ∀ (t : State) k e, f (t.setCore k e) = f t) (s : State) :
    f s.raiseAllSvc = f s := State.foldl_keeps (fun t (_ : Nat × Part) => h t _ _) _ _

/-! ## IEEE 1588 (R300) -/

theorem exec_ieee1588Message (p : PtpAt) (m : PtpMsg) : exec (.ieee1588Message p m) s = execIeee1588Message p m s := rfl

theorem setPtp_choice (t : State) (p : PtpAt) (r : PtpPort) : (t.setPtp p r).choice = t.choice := rfl

/-- A port that has followed its source leaves the next choice as it was. -/
theorem setPtp_follow_choice (src source : Nat) (p : PtpAt) (r : PtpPort) :
    ((s.follow src source).setPtp p r).choice = s.choice :=
  (setPtp_choice _ p r).trans (s.follow_keeps src source State.choice fun _ _ _ _ _ _ _ => rfl)

section
variable {p : PtpAt} (hup : (!(s.hubUp p.hub && decide (p.port < 4))) = false)
include hup

theorem ptp_pdelayReq :
    takes (.ieee1588Message p .pdelayReq) s
      ((s.send (.ieee1588 p.hub p.port (.pdelayResp s.time))).send (.ieee1588 p.hub p.port (.pdelayFollowUp s.time))) := by
  rw [takes, exec_ieee1588Message, execIeee1588Message, hup]
  rfl

/-- A master sends Sync and the time, answers a Delay_Req, and takes nothing else. -/
theorem ptp_master (hrole : s.clockReceiver = false) (a : Nat) :
    takes (.ieee1588Message p .sync) s
      ((s.send (.ieee1588 p.hub p.port .sync)).send (.ieee1588 p.hub p.port (.followUp s.time))) ∧
    takes (.ieee1588Message p .delayReq) s (s.send (.ieee1588 p.hub p.port (.delayResp s.time))) ∧
    ∀ m ∈ [PtpMsg.followUp a, .delayResp a, .pdelayResp a, .pdelayFollowUp a], takes (.ieee1588Message p m) s s := by
  unfold takes
  simp only [exec_ieee1588Message, execIeee1588Message, hup, hrole, done, List.forall_mem_cons, Bool.false_eq_true,
    if_false]
  simp

/-- A receiver takes no Delay_Req; it times what arrives, and half of what the two ways differ by is the delay. -/
theorem ptp_receiver (hrole : s.clockReceiver = true) (a : Nat) :
    let r := s.ptpPort p
    takes (.ieee1588Message p .delayReq) s s ∧
    takes (.ieee1588Message p .sync) s (s.setPtp p { r with synced := s.time }) ∧
    takes (.ieee1588Message p (.delayResp a)) s
      (s.setPtp p { r with delay := (r.synced + a - (r.reached + r.asked)) / 2 }) ∧
    takes (.ieee1588Message p (.pdelayResp a)) s (s.setPtp p { r with reached := a, back := s.time }) ∧
    takes (.ieee1588Message p (.pdelayFollowUp a)) s
      (s.setPtp p { r with delay := (r.reached + r.back - (r.asked + a)) / 2 }) := by
  unfold takes
  simp only [exec_ieee1588Message, execIeee1588Message, hup, hrole, halfOf, done, Bool.false_eq_true, if_false, and_self]

/-- A receiver follows its master, and asks for the delay. -/
theorem ptp_followUp (hrole : s.clockReceiver = true) (a : Nat) :
    let f := s.follow 1 (a + (s.ptpPort p).delay + (s.time - (s.ptpPort p).synced))
    takes (.ieee1588Message p (.followUp a)) s
      ((f.setPtp p { f.ptpPort p with asked := f.time, reached := a }).dropChoice.send
        (.ieee1588 p.hub p.port (if s.choice then .pdelayReq else .delayReq))) := by
  unfold takes
  simp only [exec_ieee1588Message, execIeee1588Message, hup, hrole, done, Bool.false_eq_true, if_false,
    setPtp_follow_choice]

end

/-! ## Management (R337) -/

theorem exec_managementSetLimit (path : Option Nat) (r : Mgmt) :
    exec (.managementSetLimit path r) s = execManagementSetLimit path r s := rfl

section
variable {path : Option Nat} (hup : path = none ∧ s.hostUp = true ∨ ∃ hub, path = some hub ∧ s.hubUp hub = true)
include hup

theorem management_clock (role : Bool) :
    takes (.managementSetLimit path (.clock role)) s { s with clockReceiver := role } := by
  rcases hup with ⟨rfl, h⟩ | ⟨hub, rfl, h⟩ <;> simp [takes, exec_managementSetLimit, execManagementSetLimit, h, done]

theorem management_read (i : MgmtItem) :
    takes (.managementSetLimit path (.read i)) s (s.send (.mgmt i (s.reading i))) := by
  rcases hup with ⟨rfl, h⟩ | ⟨hub, rfl, h⟩ <;> simp [takes, exec_managementSetLimit, execManagementSetLimit, h, done]

theorem management_limit {n : Nat} (hn : n ≤ 18000) (p : Nat) :
    takes (.managementSetLimit path (.limit none n)) s ({ s with moduleLimit := n } : State).recap ∧
    takes (.managementSetLimit path (.limit (some p) n)) s (s.modPart p fun e => { e with limit := n }).recap := by
  rcases hup with ⟨rfl, h⟩ | ⟨hub, rfl, h⟩ <;>
    simp [takes, exec_managementSetLimit, execManagementSetLimit, h, done, Nat.not_lt.mpr hn]

theorem management_limit_refused {n : Nat} (hn : 18000 < n) (q : Option Nat) :
    takes (.managementSetLimit path (.limit q n)) s s := by
  rcases hup with ⟨rfl, h⟩ | ⟨hub, rfl, h⟩ <;>
    simp [takes, exec_managementSetLimit, execManagementSetLimit, h, done, hn]

theorem management_rate {port n : Nat} (hn : n ≤ Config.fusedRate port) :
    takes (.managementSetLimit path (.rate port n)) s { s with rates := aset s.rates port n } := by
  rcases hup with ⟨rfl, h⟩ | ⟨hub, rfl, h⟩ <;>
    simp [takes, exec_managementSetLimit, execManagementSetLimit, h, done, Nat.not_lt.mpr hn]

theorem management_rate_refused {port n : Nat} (hn : Config.fusedRate port < n) :
    takes (.managementSetLimit path (.rate port n)) s s := by
  rcases hup with ⟨rfl, h⟩ | ⟨hub, rfl, h⟩ <;>
    simp [takes, exec_managementSetLimit, execManagementSetLimit, h, done, hn]

end

end

end Sys2Proof.Machine

open Sys2Proof Sys2Proof.Machine

/-- Settles O60: each clause is one step of the clock, of the power controller, of a sensor or of management, or one
law of what they share. -/
theorem timeAndPowerSteps : Obligations.TimeAndPowerSteps := by
  intro s hub port source die u p n a projected demand role i
  refine ⟨fun h => congrArg Host.Outcome.next (if_pos h), fun hh hport hboot hdown => ?ports, ?corrections,
    ⟨s.nanoseconds_sum, s.nanoseconds_slews⟩, ?loss, ⟨?interval, fun hd => ?spends, fun h => ?shares, fun h hnone => ?free⟩,
    s.spent_iff die, fun hu => ?hubs, fun hd => ?high, fun hd => ?below, fun e he => ?trips, fun path hpath => ?management⟩
  case ports =>
    have hup : (!(s.hubUp hub && decide (port < 4))) = false := by simp [State.hubUp, hh, hport, hboot, hdown]
    intro at_ r tells
    refine ⟨ptp_pdelayReq (p := at_) hup, fun hrole => ptp_master (p := at_) hup hrole a, fun hrole => ?_⟩
    obtain ⟨hreq, hsync, hresp, hpresp, hpfollow⟩ := ptp_receiver (p := at_) hup hrole a
    exact ⟨hreq, hsync, ptp_followUp (p := at_) hup hrole a, hresp, hpresp, hpfollow⟩
  case corrections =>
    exact ⟨takes_follow (moduleTimeCorrection_port source),
      fun h hup => takes_follow (moduleTimeCorrection_ptm h hup), moduleTimeCorrection_ignored⟩
  case loss =>
    refine ⟨_, takes_timeSourceLoss, raiseAllSvc_keeps State.timeSrc State.setCore_timeSrc _,
      raiseAllSvc_keeps State.time State.setCore_time _, raiseAllSvc_keeps State.slew State.setCore_slew _,
      raiseAllSvc_keeps State.mem State.setCore_mem _, fun e he hd => ?_⟩
    exact State.event_raiseAllSvc ({ s with timeSrc := 3, slew := 0 } : State) he hd
  case interval =>
    refine ⟨_, s.takes_powerInterval projected demand, ?draw, ?mem, ?cores, fun d hd => ?die, ?capped,
      fun e he x w hw => ?held⟩
    case draw => rw [State.resumes_draw, State.nextInterval_draw, State.drawn, State.meters]
    case mem => rw [State.resumes_mem, State.nextInterval_mem]
    case cores => rw [State.resumes_cores, State.nextInterval_cores]
    case die => rw [State.resumes_die, State.nextInterval_die _ _ _ hd]
    case capped => rw [State.resumes_capped]; exact s.nextInterval_capped projected demand
    case held => rw [State.resumes_retry]; exact List.mem_append_right _ (State.mem_heldBack he hw)
  case spends =>
    exact ⟨s.meter_le_sum hd, s.spend_meter die n, s.spend_capped n hd⟩
  case shares =>
    exact ⟨s.budgetFor_le projected demand die h, fun hnone =>
      (s.budgetFor_noParts projected demand die hnone).trans (if_pos h)⟩
  case free =>
    exact (s.budgetFor_noParts projected demand die hnone).trans (if_neg (Nat.not_lt.mpr h))
  case hubs =>
    exact ⟨⟨_, s.temperatureHigh_hub hu, rfl, by simp⟩, ⟨_, s.dieBelow100c_hub hu, rfl, by simp⟩⟩
  case high =>
    exact ⟨_, s.temperatureHigh_die hd, rfl, rfl, s.die_setDie_self die _, fun b hb => s.budgetOf_hot die hb,
      fun d hne => s.die_setDie_ne _ hne⟩
  case below =>
    exact ⟨_, s.dieBelow100c_die hd, rfl, rfl, s.die_setDie_self die _, s.budgetOf_cool die,
      fun d hne => s.die_setDie_ne _ hne⟩
  case trips =>
    have hstops (cause : LogEntry) {j : Instr} (h : takes j s (s.shutDown cause)) :
        ∃ t, takes j s t ∧ t.mem = s.mem ∧ t.cores = s.cores ∧ t.errlog = s.errlog ++ [cause] ∧
          (∀ d < 32, (t.die d).powered = false) ∧ ∀ q ∈ s.parts, (t.part q.1).stopped = true :=
      ⟨_, h, s.shutDown_mem cause, s.shutDown_cores cause, s.shutDown_errlog cause,
        fun d hd => s.shutDown_powered cause hd, fun q hq => s.shutDown_stopped cause hq⟩
    rcases List.mem_cons.mp he with rfl | he
    · exact hstops (.thermal u) rfl
    · obtain rfl := List.mem_singleton.mp he
      exact hstops .coolant rfl
  case management =>
    have hup : path = none ∧ s.hostUp = true ∨ ∃ hub, path = some hub ∧ s.hubUp hub = true := by
      rcases hpath with h | ⟨hp, hh, hboot, hdown⟩
      · exact .inl h
      · exact .inr ⟨hub, hp, by simp [State.hubUp, hh, hboot, hdown]⟩
    exact ⟨management_clock hup role, fun hn => management_limit hup hn p,
      fun hn => ⟨management_limit_refused hup hn none, management_limit_refused hup hn (some p)⟩,
      management_rate hup, management_rate_refused hup, management_read hup i⟩
end

section
/-! SUPPORT. Stores to the local memories (R125, R131): MEM.ST by the way its write ends, the stores of C space, the
bytes that a store leaves, and what it does for a watch (R27, R112). -/

namespace Sys2Proof.Machine

/-! ## MEM.ST by the way its write ends -/

section
variable {s t : State} {d a : Reg} {sz : MSize} {sp : Space} {o : BitVec 11} (hready : s.pendingOf [d, a] = false)
include hready

/-- A store whose write is done completes sequentially (R83, R131). -/
theorem takes_memSt_ok
    (hwrite : writeSpace sp (s.rg a + wrapS (o.toInt * sizeBytes sz)) (sizeBytes sz)
      (U (s.rg d) % 256 ^ sizeBytes sz) s = .ok () t) : takes (.memSt d a sz sp o) s t.seq := by
  refine issueM_ok (u := ()) hready ?_
  simp only [run_bind, run_get, run_modify, memAddr, effAddr]
  rw [hwrite]

/-- A store whose write waits, waits (R92). -/
theorem takes_memSt_block {w : Wait}
    (hwrite : writeSpace sp (s.rg a + wrapS (o.toInt * sizeBytes sz)) (sizeBytes sz)
      (U (s.rg d) % 256 ^ sizeBytes sz) s = .error (.block w) t) : takes (.memSt d a sz sp o) s (t.block w) := by
  refine issueM_block hready ?_
  simp only [run_bind, run_get, memAddr, effAddr]
  rw [hwrite]

end

/-! ## The numbers of units, and C-space addresses (R9, R125) -/

theorem coreOf_keyOf (c : Nat) {p : Nat} (hp : p < 64) : coreOf (keyOf c p) = c := by
  unfold coreOf keyOf
  omega

theorem partOf_keyOf (c : Nat) {p : Nat} (hp : p < 64) : partOf (keyOf c p) = p := by
  unfold partOf keyOf
  omega

theorem myPart_lt (s : State) : s.myPart < 64 := Nat.mod_lt _ (by decide)

theorem localLoc_add (c b off : Nat) : localLoc c (b + off) = localLoc c b + off := (Nat.add_assoc ..).symm

theorem cOff_eq (e : Word) : cOff e = U e % 2 ^ 19 := by rw [cOff, toNat_extractLsb', Nat.pow_zero, Nat.div_one]

theorem cCore_eq {e : Word} (he : U e < 2 ^ 37) : cCore e = U e / 2 ^ 19 := by
  rw [cCore, toNat_extractLsb']
  exact Nat.mod_eq_of_lt (Nat.div_lt_of_lt_mul he)

theorem noBitsAboveC {e : Word} (he : U e < 2 ^ 37) : e.extractLsb' 37 27 = 0 := by
  rw [extractLsb'_eq_ofNat, Nat.div_eq_of_lt he]
  rfl

/-! ## Stores in C space (R92, R125) -/

section
variable {s : State} {e : Word} {n : Nat} (v : Nat) (he : U e < 2 ^ 37)
  (hcore : s.presentCore s.myPart (U e / 2 ^ 19) = true) (halign : U e % 2 ^ 19 % n = 0)
  (hin : U e % 2 ^ 19 + n ≤ s.window s.myPart)
include he hcore halign hin

/-- An aligned address within a present core's part passes the checks. -/
theorem run_checkC_ok : checkC e n s = .ok () s := by
  rw [run_checkC, cOff_eq, cCore_eq he, noBitsAboveC he, halign, hcore]
  simpa using hin

/-- The own core's local memory is written at once, that of another core once the echoes owed and its reply are in. -/
theorem run_writeC : writeSpace .c e n v s =
    let stored := fun r : State => r.storeLocal (keyOf (U e / 2 ^ 19) s.myPart) (U e % 2 ^ 19) n v
    if U e / 2 ^ 19 = s.myCore then .ok () (stored s)
    else if s.me.posted ≠ [] then .error (.block .echo) s
    else if s.cur.used < s.me.replies then .ok () (stored { s with cur := { s.cur with used := s.cur.used + 1 } })
    else .error (.block .reply) (s.post (.replyArrival s.key s.slot)) := by
  simp only [writeSpace, run_bind, run_checkC_ok he hcore halign hin, run_get, cOff_eq, cCore_eq he]
  by_cases hown : U e / 2 ^ 19 = s.myCore
  · rw [if_pos hown, if_neg (not_not.mpr hown), run_modify]
  · rw [if_neg hown, if_pos hown]
    by_cases hecho : s.me.posted = []
    · by_cases hreply : s.cur.used < s.me.replies
      · simp only [run_bind, run_waitEchoes, run_awaitReply, run_modify, hecho, hreply, List.isEmpty_nil, if_true,
          ne_eq, not_true, if_false]
        rfl
      · simp [hecho, hreply, run_awaitReply]
    · simp [hecho]

/-- The write is done on the own core, and on another with the reply in, which it uses (R92). -/
theorem run_writeC_done {r : State} (hr : U e / 2 ^ 19 = s.myCore ∧ r = s ∨
      U e / 2 ^ 19 ≠ s.myCore ∧ s.me.posted = [] ∧ s.cur.used < s.me.replies ∧
        r = { s with cur := { s.cur with used := s.cur.used + 1 } }) :
    writeSpace .c e n v s = .ok () (r.storeLocal (keyOf (U e / 2 ^ 19) s.myPart) (U e % 2 ^ 19) n v) := by
  rw [run_writeC v he hcore halign hin]
  rcases hr with ⟨hown, rfl⟩ | ⟨hother, hecho, hreply, rfl⟩
  · exact if_pos hown
  · rw [if_neg hother, if_neg (not_not.mpr hecho), if_pos hreply]

/-- The first try of a store to another core asks for the reply and waits (R92). -/
theorem run_writeC_awaits (hother : U e / 2 ^ 19 ≠ s.myCore) (hecho : s.me.posted = [])
    (hout : s.me.replies ≤ s.cur.used) :
    writeSpace .c e n v s = .error (.block .reply) (s.post (.replyArrival s.key s.slot)) := by
  rw [run_writeC v he hcore halign hin]
  dsimp only
  rw [if_neg hother, if_neg (not_not.mpr hecho), if_neg (Nat.not_lt.mpr hout)]

end

/-! ## The bytes that a store leaves (R3, R111, R131) -/

/-- The low bytes of `v` stand at their address afterwards, and every other byte reads as before. -/
theorem Memory.writeNat_writes {m : Memory} (h : m.wf = true) (a n v : Nat) :
    (m.writeNat a n (v % 256 ^ n)).readNat a n = v % 256 ^ n ∧
    ∀ x, x < a ∨ a + n ≤ x → (m.writeNat a n (v % 256 ^ n)).read x = m.read x :=
  ⟨(Memory.readNat_writeNat a n _ h).trans (Nat.mod_mod ..), fun _ hx => Memory.read_writeNat_ne m _ hx⟩

/-- A store to local memory that no watch covers. -/
theorem State.storeLocal_writes {s : State} (h : s.wf = true) {k off n : Nat} (v : Nat)
    (hfree : ∀ w ∈ (s.core k).watches, w.1 + 8 ≤ off ∨ off + n ≤ w.1) :
    let at_ := localLoc (coreOf k) (s.localBase (partOf k)) + off
    ∃ m : Machine.Memory, s.storeLocal k off n (v % 256 ^ n) = ({ s with mem := m } : State).spoilRing k off n ∧
      m.readNat at_ n = v % 256 ^ n ∧ ∀ x, x < at_ ∨ at_ + n ≤ x → m.read x = s.mem.read x := by
  refine ⟨_, storeLocal_unwatched hfree, ?_⟩
  rw [localLoc_add]
  exact Memory.writeNat_writes (State.wf_mem h) _ n v

/-! ## The operand store (R125, R235) -/

/-- A store to the operand store touches no context. -/
theorem State.me_storeO (s : State) (off n v : Nat) : (s.modMine fun c => c.storeO off n v).me = s.me := by
  unfold State.me State.ctx
  rw [State.modMine_eq, State.setCore_cur, State.core_setCore_self]
  rfl

theorem State.core_setCtx_self (s : State) (k : Nat) (x : Slot) (c : Ctx) :
    (s.setCtx k x c).core k = { s.core k with ctxs := (s.core k).ctxs.set x c } :=
  State.core_setCore_self s k _

theorem State.seq_ostore (s : State) : s.seq.mine.ostore = s.mine.ostore := by
  have hmine : s.seq.mine = _ := State.core_setCtx_self s s.cur.key s.cur.slot _
  rw [hmine]
  rfl

theorem State.rg_seq (s : State) (r : Reg) : s.seq.rg r = s.rg r := by
  rw [seq_eq, rg_setMe, settled_rd, advance_rd]
  rfl

/-- A store to the operand store that completes leaves its bytes there; of its context it changes what the end check
writes, and no register. -/
theorem State.seq_storeO (s : State) (off n v : Nat) :
    let t := (s.modMine fun c => c.storeO off n v).seq
    t.mine.ostore = s.mine.ostore.writeNat off n v ∧ (∀ r, t.rg r = s.rg r) ∧ s.me.keeps t.me := by
  have hme := State.me_storeO s off n v
  obtain ⟨-, hkeeps, -⟩ := registerFrame_seq (s.modMine fun c => c.storeO off n v)
  refine ⟨?_, fun r => ?_, hme ▸ hkeeps⟩
  · have hmine : (s.modMine fun c => c.storeO off n v).mine = s.mine.storeO off n v :=
      State.core_setCore_self s s.cur.key _
    rw [State.seq_ostore, hmine]
    rfl
  · rw [State.rg_seq, State.rg, hme]
    rfl

/-! ## What a store does for a watch (R27, R112) -/

/-- A hit sets the event bit of a context that watches, and wakes one that waits for it. -/
theorem State.hitOwner_slot (s : State) (k : Nat) (x : Slot) :
    s.hitOwner k (.slot x) =
      if (s.ctx k x).wait = some .watch then
        { s.setCtx k x ({ s.ctx k x with hit := true } : Ctx).woken with retry := s.retry ++ [(k, x)] }
      else s.setCtx k x { s.ctx k x with hit := true } := by
  unfold State.hitOwner
  dsimp only
  split
  next h =>
    simp only [State.reply, State.modCtx_eq, State.ctx_setCtx_self, h, State.setCtx_setCtx, State.setCtx_retry]
  next => rfl

theorem State.hit_hitOwner (s : State) (k : Nat) (x : Slot) : ((s.hitOwner k (.slot x)).ctx k x).hit = true := by
  rw [State.hitOwner_slot]
  split
  · exact congrArg Ctx.hit (State.ctx_setCtx_self s k x _)
  · exact congrArg Ctx.hit (State.ctx_setCtx_self s k x _)

theorem State.mem_retry_hitOwner {s : State} {k : Nat} {x : Slot} (h : (s.ctx k x).wait = some .watch) :
    (k, x) ∈ (s.hitOwner k (.slot x)).retry := by
  rw [State.hitOwner_slot, if_pos h]
  exact List.mem_append_right _ (List.mem_singleton_self _)

theorem State.hitOwner_slot_mem (s : State) (k : Nat) (x : Slot) : (s.hitOwner k (.slot x)).mem = s.mem := by
  rw [State.hitOwner_slot]
  split <;> rfl

theorem State.hitOwner_slot_ring (s : State) (k : Nat) (x : Slot) :
    ((s.hitOwner k (.slot x)).core k).ring = (s.core k).ring := by
  have hring (c : Ctx) : ((s.setCtx k x c).core k).ring = (s.core k).ring := by rw [State.core_setCtx_self]
  rw [State.hitOwner_slot]
  split
  · exact hring _
  · exact hring _

/-- The only watch of a core, on a word that the store touches, is hit. -/
theorem State.hits_watched {s : State} {k off n w : Nat} {o : Owner} (h : (s.core k).watches = [(w, o)])
    (hbefore : w < off + n) (hafter : off < w + 8) : s.hits k off n = s.hitOwner k o := by
  simp [State.hits, h, hbefore, hafter]

theorem State.spoilRing_empty {s : State} {k : Nat} (h : (s.core k).ring = []) (off n : Nat) :
    s.spoilRing k off n = s := by
  simp [State.spoilRing, h]

/-- The state whose memory has the bytes of a store, before its hits are recorded (R27). -/
def State.putBytes (s : State) (k off n v : Nat) : State :=
  { s with mem := s.mem.writeNat (localLoc (coreOf k) (s.localBase (partOf k) + off)) n v }

theorem State.storeLocal_eq (s : State) (k off n v : Nat) :
    s.storeLocal k off n v = ((s.putBytes k off n v).hits k off n).spoilRing k off n := rfl

theorem State.core_putBytes (s : State) (k off n v j : Nat) : (s.putBytes k off n v).core j = s.core j := rfl

theorem State.ctx_putBytes (s : State) (k off n v j : Nat) (x : Slot) :
    (s.putBytes k off n v).ctx j x = s.ctx j x := rfl

/-- A store to a word that a context watches, on a core whose overflow ring is empty, writes its bytes and hits the
watch. -/
theorem State.storeLocal_watched {s : State} {k off n w : Nat} {x : Slot} (v : Nat)
    (h : (s.core k).watches = [(w, .slot x)]) (hbefore : w < off + n) (hafter : off < w + 8)
    (hring : (s.core k).ring = []) : s.storeLocal k off n v = (s.putBytes k off n v).hitOwner k (.slot x) := by
  rw [← State.core_putBytes s k off n v k] at h hring
  rw [State.storeLocal_eq, State.hits_watched h hbefore hafter,
    State.spoilRing_empty ((State.hitOwner_slot_ring ..).trans hring)]

end Sys2Proof.Machine

open Sys2Proof Sys2Proof.Machine

/-- Settles O22: each clause is one way that the write of MEM.ST ends, and what a store leaves of memory follows from
what a number written reads as. -/
theorem storesToLocalMemories : Obligations.StoresToLocalMemories := by
  intro s d a sz o hwf hready
  refine ⟨fun k off m v w x hwatch hbefore hafter hring => ?watched, fun halign hin hfree => ?own,
    fun halign hin => ?operand, fun he hcore halign hin hfree =>
      ⟨fun r hr => ?written, fun hother hecho hout => ?awaits⟩⟩
  case watched =>
    rw [State.storeLocal_watched v hwatch hbefore hafter hring, ← State.ctx_putBytes s k off m v k x]
    exact ⟨State.hit_hitOwner .., State.mem_retry_hitOwner, State.hitOwner_slot_mem ..⟩
  case own =>
    obtain ⟨m, hstore, hbytes⟩ := State.storeLocal_writes hwf (U (s.rg d)) hfree
    exact ⟨m, hstore ▸ takes_memSt_ok hready (run_writeL halign hin), hbytes⟩
  case operand =>
    obtain ⟨hostore, hregs, hkeeps⟩ := State.seq_storeO s (U (s.rg a + wrapS (o.toInt * sizeBytes sz)))
      (sizeBytes sz) (U (s.rg d) % 256 ^ sizeBytes sz)
    obtain ⟨hbytes, hothers⟩ := Memory.writeNat_writes (State.wf_ostore hwf s.cur.key) _ _ (U (s.rg d))
    exact ⟨_, takes_memSt_ok hready (run_writeO halign hin), rfl, hostore ▸ hbytes, hostore ▸ hothers, hregs, hkeeps⟩
  case written =>
    have hwrite := run_writeC_done (U (s.rg d) % 256 ^ sizeBytes sz) he hcore halign hin hr
    obtain ⟨c, rfl⟩ : ∃ c, r = { s with cur := c } := by
      rcases hr with ⟨-, rfl⟩ | ⟨-, -, -, rfl⟩
      · exact ⟨_, rfl⟩
      · exact ⟨_, rfl⟩
    obtain ⟨m, hstore, hbytes⟩ := State.storeLocal_writes (s := { s with cur := c }) hwf (U (s.rg d)) hfree
    rw [coreOf_keyOf _ (myPart_lt s), partOf_keyOf _ (myPart_lt s)] at hbytes
    exact ⟨m, hstore ▸ takes_memSt_ok hready hwrite, hbytes⟩
  case awaits =>
    exact takes_memSt_block hready (run_writeC_awaits _ he hcore halign hin hother hecho hout)
end

section
/-! SUPPORT. The fields of a word, read back and put together again (R30 to R38). -/

namespace Sys2Proof.Encoding

open BitVec Sys2Proof.Laws.Words

/-- Two neighbouring fields are one. -/
theorem join {n hi lo m k : Nat} {x : BitVec n} (h : hi = lo + k) :
    x.extractLsb' hi m ++ x.extractLsb' lo k = x.extractLsb' lo (m + k) :=
  extractLsb'_append_extractLsb'_eq_extractLsb' h

/-! ## Codes of the sub-fields -/

@[simp] theorem ofCode_mSize (x : MSize) : MSize.ofCode x.code = some x := by cases x <;> rfl
@[simp] theorem ofCode_space (x : Space) : Space.ofCode x.code = x := by cases x <;> rfl
@[simp] theorem ofCode_aSize (x : ASize) : ASize.ofCode x.code = x := by cases x <;> rfl
@[simp] theorem ofCode_mOrder (x : MOrder) : MOrder.ofCode x.code = x := by cases x <;> rfl
@[simp] theorem ofCode_scope (x : Scope) : Scope.ofCode x.code = some x := by cases x <;> rfl
@[simp] theorem ofCode_level (x : Level) : Level.ofCode x.code = x := by cases x <;> rfl
@[simp] theorem ofCode_fmt (x : Fmt) : Fmt.ofCode x.code = some x := by cases x <;> rfl

theorem code_space (c : BitVec 2) : (Space.ofCode c).code = c := by revert c; decide
theorem code_aSize (c : BitVec 1) : (ASize.ofCode c).code = c := by revert c; decide
theorem code_mOrder (c : BitVec 2) : (MOrder.ofCode c).code = c := by revert c; decide
theorem code_level (c : BitVec 1) : (Level.ofCode c).code = c := by revert c; decide

theorem code_mSize : ∀ {c : BitVec 3} {x : MSize}, MSize.ofCode c = some x → x.code = c := by
  have h : ∀ c : BitVec 3, ∀ x ∈ MSize.ofCode c, x.code = c := by decide
  exact fun {c x} hx => h c x hx
theorem code_scope : ∀ {c : BitVec 3} {x : Scope}, Scope.ofCode c = some x → x.code = c := by
  have h : ∀ c : BitVec 3, ∀ x ∈ Scope.ofCode c, x.code = c := by decide
  exact fun {c x} hx => h c x hx
theorem code_fmt : ∀ {c : BitVec 4} {x : Fmt}, Fmt.ofCode c = some x → x.code = c := by
  have h : ∀ c : BitVec 4, ∀ x ∈ Fmt.ofCode c, x.code = c := by decide
  exact fun {c x} hx => h c x hx

/-! ## The shapes that the tables share -/

@[simp] theorem zeroed_eq_ok {n : Nat} {x : BitVec n} {r : Dec} {i : Instr} :
    zeroed x r = .ok i ↔ x = 0 ∧ r = .ok i := by
  unfold zeroed
  split <;> simp_all

theorem qField_append (r : Reg) : r.extractLsb' 2 3 ++ r.extractLsb' 0 2 = r := by
  rw [join (hi := 2) (lo := 0) rfl]
  exact extractLsb'_eq_self

@[simp] theorem qReg_qField (q : QReg) (f : QReg → Dec) : qReg (qField q) f = f q := by
  unfold qReg qField
  rw [extractLsb'_append_eq_left, extractLsb'_append_eq_right]
  exact if_pos rfl

theorem qReg_eq_ok {r : Reg} {f : QReg → Dec} {i : Instr} :
    qReg r f = .ok i ↔ ∃ q, qField q = r ∧ f q = .ok i := by
  constructor
  · intro h
    unfold qReg at h
    split at h
    next h0 => exact ⟨_, by rw [qField, ← show _ = 0#3 from h0, qField_append], h⟩
    next => cases h
  · rintro ⟨q, rfl, h⟩
    rwa [qReg_qField]

@[simp] theorem zReg_append (z : AccReg) (f : AccReg → Dec) : zReg (0#1 ++ z) f = f z := by
  unfold zReg
  rw [extractLsb'_append_eq_left, extractLsb'_append_eq_right]
  exact if_pos rfl

theorem zReg_eq_ok {z : BitVec 3} {f : AccReg → Dec} {i : Instr} :
    zReg z f = .ok i ↔ ∃ a : AccReg, 0#1 ++ a = z ∧ f a = .ok i := by
  constructor
  · intro h
    unfold zReg at h
    split at h
    next h0 =>
      refine ⟨_, ?_, h⟩
      rw [← show _ = 0#1 from h0, join (hi := 2) (lo := 0) rfl]
      exact extractLsb'_eq_self
    next => cases h
  · rintro ⟨a, rfl, h⟩
    rwa [zReg_append]

@[simp] theorem size_code (x : MSize) (f : MSize → Dec) : size x.code f = f x := by simp [size]
@[simp] theorem scope_code (x : Scope) (f : Scope → Dec) : scope x.code f = f x := by simp [scope]
@[simp] theorem format_code (x : Fmt) (f : Fmt → Dec) : format x.code f = f x := by simp [format]

theorem size_eq_ok {c : BitVec 3} {f : MSize → Dec} {i : Instr} :
    size c f = .ok i ↔ ∃ x : MSize, x.code = c ∧ f x = .ok i := by
  constructor
  · intro h
    unfold size at h
    split at h
    next hx => exact ⟨_, code_mSize hx, h⟩
    next => cases h
  · rintro ⟨x, rfl, h⟩
    rwa [size_code]

theorem scope_eq_ok {c : BitVec 3} {f : Scope → Dec} {i : Instr} :
    scope c f = .ok i ↔ ∃ x : Scope, x.code = c ∧ f x = .ok i := by
  constructor
  · intro h
    unfold scope at h
    split at h
    next hx => exact ⟨_, code_scope hx, h⟩
    next => cases h
  · rintro ⟨x, rfl, h⟩
    rwa [scope_code]

theorem format_eq_ok {c : BitVec 4} {f : Fmt → Dec} {i : Instr} :
    format c f = .ok i ↔ ∃ x : Fmt, x.code = c ∧ f x = .ok i := by
  constructor
  · intro h
    unfold format at h
    split at h
    next hx => exact ⟨_, code_fmt hx, h⟩
    next => cases h
  · rintro ⟨x, rfl, h⟩
    rwa [format_code]

/-! ## The fields of a word in each format of R30 -/

@[simp] theorem fD_regWord (op : BitVec 6) (d a b : Reg) (fn : BitVec 11) : fD (regWord op d a b fn) = d := by
  unfold fD regWord
  rw [extractLsb'_append_eq_of_le (by decide), extractLsb'_append_eq_of_le (by decide),
    extractLsb'_append_eq_of_le (by decide), extractLsb'_append_eq_right]

@[simp] theorem fA_regWord (op : BitVec 6) (d a b : Reg) (fn : BitVec 11) : fA (regWord op d a b fn) = a := by
  unfold fA regWord
  rw [extractLsb'_append_eq_of_le (by decide), extractLsb'_append_eq_of_le (by decide), extractLsb'_append_eq_right]

@[simp] theorem fB_regWord (op : BitVec 6) (d a b : Reg) (fn : BitVec 11) : fB (regWord op d a b fn) = b := by
  unfold fB regWord
  rw [extractLsb'_append_eq_of_le (by decide), extractLsb'_append_eq_right]

@[simp] theorem fFn_regWord (op : BitVec 6) (d a b : Reg) (fn : BitVec 11) : fFn (regWord op d a b fn) = fn :=
  extractLsb'_append_eq_right

@[simp] theorem fD_immWord (op : BitVec 6) (d a : Reg) (imm : BitVec 16) : fD (immWord op d a imm) = d := by
  unfold fD immWord
  rw [extractLsb'_append_eq_of_le (by decide), extractLsb'_append_eq_of_le (by decide), extractLsb'_append_eq_right]

@[simp] theorem fA_immWord (op : BitVec 6) (d a : Reg) (imm : BitVec 16) : fA (immWord op d a imm) = a := by
  unfold fA immWord
  rw [extractLsb'_append_eq_of_le (by decide), extractLsb'_append_eq_right]

@[simp] theorem fImm_immWord (op : BitVec 6) (d a : Reg) (imm : BitVec 16) : fImm (immWord op d a imm) = imm :=
  extractLsb'_append_eq_right

@[simp] theorem fCf_immWord (op : BitVec 6) (d a : Reg) (x : BitVec 4) (k : BitVec 12) :
    fCf (immWord op d a (x ++ k)) = x := by
  unfold fCf immWord
  rw [extractLsb'_append_eq_of_add_le (by decide), extractLsb'_append_eq_left]

@[simp] theorem fK12_immWord (op : BitVec 6) (d a : Reg) (x : BitVec 4) (k : BitVec 12) :
    fK12 (immWord op d a (x ++ k)) = k := by
  unfold fK12 immWord
  rw [extractLsb'_append_eq_of_add_le (by decide), extractLsb'_append_eq_right]

@[simp] theorem fOff26_jumpWord (op : BitVec 6) (off : BitVec 26) : fOff26 (jumpWord op off) = off :=
  extractLsb'_append_eq_right

section
variable (op : BitVec 6) (d a : Reg) (sz : MSize) (sp : Space) (off : BitVec 11)

@[simp] theorem fD_memWord : fD (memWord op d a sz sp off) = d := by
  unfold fD memWord
  rw [extractLsb'_append_eq_of_le (by decide), extractLsb'_append_eq_of_le (by decide),
    extractLsb'_append_eq_of_le (by decide), extractLsb'_append_eq_of_le (by decide), extractLsb'_append_eq_right]

@[simp] theorem fA_memWord : fA (memWord op d a sz sp off) = a := by
  unfold fA memWord
  rw [extractLsb'_append_eq_of_le (by decide), extractLsb'_append_eq_of_le (by decide),
    extractLsb'_append_eq_of_le (by decide), extractLsb'_append_eq_right]

@[simp] theorem fSz_memWord : fSz (memWord op d a sz sp off) = sz.code := by
  unfold fSz memWord
  rw [extractLsb'_append_eq_of_le (by decide), extractLsb'_append_eq_of_le (by decide), extractLsb'_append_eq_right]

@[simp] theorem fSp_memWord : fSp (memWord op d a sz sp off) = sp.code := by
  unfold fSp memWord
  rw [extractLsb'_append_eq_of_le (by decide), extractLsb'_append_eq_right]

@[simp] theorem fFn_memWord : fFn (memWord op d a sz sp off) = off := extractLsb'_append_eq_right

end

section
variable (d a : Reg) (cf : BitVec 4) (k : BitVec 12)

@[simp] theorem fD_ctlWord : fD (ctlWord d a cf k) = d := by
  unfold fD ctlWord
  rw [extractLsb'_append_eq_of_le (by decide), extractLsb'_append_eq_of_le (by decide),
    extractLsb'_append_eq_of_le (by decide), extractLsb'_append_eq_right]

@[simp] theorem fA_ctlWord : fA (ctlWord d a cf k) = a := by
  unfold fA ctlWord
  rw [extractLsb'_append_eq_of_le (by decide), extractLsb'_append_eq_of_le (by decide), extractLsb'_append_eq_right]

@[simp] theorem fCf_ctlWord : fCf (ctlWord d a cf k) = cf := by
  unfold fCf ctlWord
  rw [extractLsb'_append_eq_of_le (by decide), extractLsb'_append_eq_right]

@[simp] theorem fK12_ctlWord : fK12 (ctlWord d a cf k) = k := extractLsb'_append_eq_right

end

section
variable (op : BitVec 6) (d a b : Reg) (q : BitVec 2) (fn : BitVec 9)

@[simp] theorem fD_vecWord : fD (vecWord op d a b q fn) = d := by
  unfold fD vecWord
  rw [extractLsb'_append_eq_of_le (by decide), extractLsb'_append_eq_of_le (by decide),
    extractLsb'_append_eq_of_le (by decide), extractLsb'_append_eq_of_le (by decide), extractLsb'_append_eq_right]

@[simp] theorem fA_vecWord : fA (vecWord op d a b q fn) = a := by
  unfold fA vecWord
  rw [extractLsb'_append_eq_of_le (by decide), extractLsb'_append_eq_of_le (by decide),
    extractLsb'_append_eq_of_le (by decide), extractLsb'_append_eq_right]

@[simp] theorem fB_vecWord : fB (vecWord op d a b q fn) = b := by
  unfold fB vecWord
  rw [extractLsb'_append_eq_of_le (by decide), extractLsb'_append_eq_of_le (by decide), extractLsb'_append_eq_right]

@[simp] theorem fQ_vecWord : fQ (vecWord op d a b q fn) = q := by
  unfold fQ vecWord
  rw [extractLsb'_append_eq_of_le (by decide), extractLsb'_append_eq_right]

@[simp] theorem fFn9_vecWord : fFn9 (vecWord op d a b q fn) = fn := extractLsb'_append_eq_right

@[simp] theorem fGrp_vecWord : fGrp (vecWord op d a b q fn) = fn.extractLsb' 6 3 :=
  extractLsb'_append_eq_of_add_le (by decide)

@[simp] theorem fFn6_vecWord : fFn6 (vecWord op d a b q fn) = fn.extractLsb' 0 6 :=
  extractLsb'_append_eq_of_add_le (by decide)

end

/-- The z field: its high bit, and the number of an accumulator. -/
theorem fZ_eq (w : W32) : fZ w = w.extractLsb' 10 1 ++ w.extractLsb' 8 2 :=
  (join (x := w) (hi := 10) (lo := 8) (m := 1) (k := 2) rfl).symm

section
variable (op : BitVec 6) (d a b : Reg) (z : AccReg) (fn : BitVec 8)

@[simp] theorem fD_engWord : fD (engWord op d a b z fn) = d := by
  unfold fD engWord
  rw [extractLsb'_append_eq_of_le (by decide), extractLsb'_append_eq_of_le (by decide),
    extractLsb'_append_eq_of_le (by decide), extractLsb'_append_eq_of_le (by decide),
    extractLsb'_append_eq_of_le (by decide), extractLsb'_append_eq_right]

@[simp] theorem fA_engWord : fA (engWord op d a b z fn) = a := by
  unfold fA engWord
  rw [extractLsb'_append_eq_of_le (by decide), extractLsb'_append_eq_of_le (by decide),
    extractLsb'_append_eq_of_le (by decide), extractLsb'_append_eq_of_le (by decide), extractLsb'_append_eq_right]

@[simp] theorem fB_engWord : fB (engWord op d a b z fn) = b := by
  unfold fB engWord
  rw [extractLsb'_append_eq_of_le (by decide), extractLsb'_append_eq_of_le (by decide),
    extractLsb'_append_eq_of_le (by decide), extractLsb'_append_eq_right]

@[simp] theorem fZ_engWord : fZ (engWord op d a b z fn) = 0#1 ++ z := by
  rw [fZ_eq]
  unfold engWord
  rw [extractLsb'_append_eq_of_le (by decide), extractLsb'_append_eq_of_le (by decide), extractLsb'_append_eq_right,
    extractLsb'_append_eq_of_le (by decide), extractLsb'_append_eq_right]

@[simp] theorem fFn8_engWord : fFn8 (engWord op d a b z fn) = fn := extractLsb'_append_eq_right

end

/-! ## A word is made of its fields -/

theorem regWord_fields (w : W32) : regWord (fOp w) (fD w) (fA w) (fB w) (fFn w) = w := by
  unfold fOp fD fA fB fFn regWord
  rw [join (hi := 26) (lo := 21) rfl,
    join (hi := 21) (lo := 16) rfl,
    join (hi := 16) (lo := 11) rfl,
    join (hi := 11) (lo := 0) rfl]
  exact extractLsb'_eq_self

theorem immWord_fields (w : W32) : immWord (fOp w) (fD w) (fA w) (fImm w) = w := by
  unfold fOp fD fA fImm immWord
  rw [join (hi := 26) (lo := 21) rfl,
    join (hi := 21) (lo := 16) rfl,
    join (hi := 16) (lo := 0) rfl]
  exact extractLsb'_eq_self

theorem jumpWord_fields (w : W32) : jumpWord (fOp w) (fOff26 w) = w := by
  unfold fOp fOff26 jumpWord
  rw [join (hi := 26) (lo := 0) rfl]
  exact extractLsb'_eq_self

theorem memWord_fields {w : W32} {sz : MSize} (h : sz.code = fSz w) :
    memWord (fOp w) (fD w) (fA w) sz (Space.ofCode (fSp w)) (fFn w) = w := by
  unfold memWord
  rw [h, code_space]
  unfold fOp fD fA fSz fSp fFn
  rw [join (hi := 26) (lo := 21) rfl,
    join (hi := 21) (lo := 16) rfl,
    join (hi := 16) (lo := 13) rfl,
    join (hi := 13) (lo := 11) rfl,
    join (hi := 11) (lo := 0) rfl]
  exact extractLsb'_eq_self

theorem ctlWord_fields {w : W32} (hop : fOp w = 0x1F) : ctlWord (fD w) (fA w) (fCf w) (fK12 w) = w := by
  unfold ctlWord
  rw [← show fOp w = 0x1F#6 from hop]
  unfold fOp fD fA fCf fK12
  rw [join (hi := 26) (lo := 21) rfl,
    join (hi := 21) (lo := 16) rfl,
    join (hi := 16) (lo := 12) rfl,
    join (hi := 12) (lo := 0) rfl]
  exact extractLsb'_eq_self

theorem vecWord_fields (w : W32) : vecWord (fOp w) (fD w) (fA w) (fB w) (fQ w) (fFn9 w) = w := by
  unfold fOp fD fA fB fQ fFn9 vecWord
  rw [join (hi := 26) (lo := 21) rfl,
    join (hi := 21) (lo := 16) rfl,
    join (hi := 16) (lo := 11) rfl,
    join (hi := 11) (lo := 9) rfl,
    join (hi := 9) (lo := 0) rfl]
  exact extractLsb'_eq_self

/-- fn of a vec word: the group above the function of R37. -/
theorem fGrp_append_fFn6 (w : W32) : fGrp w ++ fFn6 w = fFn9 w := by
  unfold fGrp fFn6 fFn9
  exact join (hi := 6) (lo := 0) rfl

theorem engWord_fields {w : W32} {z : AccReg} (hz : 0#1 ++ z = fZ w) :
    engWord (fOp w) (fD w) (fA w) (fB w) z (fFn8 w) = w := by
  rw [fZ_eq] at hz
  have hhi : 0#1 = w.extractLsb' 10 1 := by
    simpa only [extractLsb'_append_eq_left] using congrArg (BitVec.extractLsb' 2 1) hz
  have hlo : z = w.extractLsb' 8 2 := by
    simpa only [extractLsb'_append_eq_right] using congrArg (BitVec.extractLsb' 0 2) hz
  unfold engWord fOp fD fA fB fFn8
  rw [hhi, hlo, join (hi := 26) (lo := 21) rfl, join (hi := 21) (lo := 16) rfl, join (hi := 16) (lo := 11) rfl,
    join (hi := 11) (lo := 10) rfl, join (hi := 10) (lo := 8) rfl, join (hi := 8) (lo := 0) rfl]
  exact extractLsb'_eq_self


/-! ## The sub-fields of a field (R37) -/

section
variable (op : BitVec 5) (sz : ASize) (mo : MOrder)

@[simp] theorem op_atmFn : (atmFn op sz mo).extractLsb' 6 5 = op := by
  unfold atmFn
  rw [extractLsb'_append_eq_of_le (by decide), extractLsb'_append_eq_of_le (by decide),
    extractLsb'_append_eq_of_le (by decide), extractLsb'_append_eq_left]

@[simp] theorem bit5_atmFn : (atmFn op sz mo).extractLsb' 5 1 = 0 := by
  unfold atmFn
  rw [extractLsb'_append_eq_of_le (by decide), extractLsb'_append_eq_of_le (by decide),
    extractLsb'_append_eq_of_le (by decide)]
  exact extractLsb'_append_eq_right

@[simp] theorem size_atmFn : (atmFn op sz mo).extractLsb' 4 1 = sz.code := by
  unfold atmFn
  rw [extractLsb'_append_eq_of_le (by decide), extractLsb'_append_eq_of_le (by decide)]
  exact extractLsb'_append_eq_right

@[simp] theorem bits2_atmFn : (atmFn op sz mo).extractLsb' 2 2 = 0 := by
  unfold atmFn
  rw [extractLsb'_append_eq_of_le (by decide)]
  exact extractLsb'_append_eq_right

@[simp] theorem order_atmFn : (atmFn op sz mo).extractLsb' 0 2 = mo.code := extractLsb'_append_eq_right

end

/-- fn of ATM is made of its sub-fields, where the reserved ones are zero. -/
theorem atmFn_fields {fn : BitVec 11} (h5 : fn.extractLsb' 5 1 = 0) (h2 : fn.extractLsb' 2 2 = 0) :
    atmFn (fn.extractLsb' 6 5) (ASize.ofCode (fn.extractLsb' 4 1)) (MOrder.ofCode (fn.extractLsb' 0 2)) = fn := by
  unfold atmFn
  rw [code_aSize, code_mOrder, ← show fn.extractLsb' 5 1 = 0#1 from h5, ← show fn.extractLsb' 2 2 = 0#2 from h2,
    join (hi := 6) (lo := 5) rfl, join (hi := 5) (lo := 4) rfl, join (hi := 4) (lo := 2) rfl,
    join (hi := 2) (lo := 0) rfl]
  exact extractLsb'_eq_self

@[simp] theorem fn_scopeFn (f : BitVec 8) (x : Scope) : (scopeFn f x).extractLsb' 3 8 = f :=
  extractLsb'_append_eq_left

@[simp] theorem scope_scopeFn (f : BitVec 8) (x : Scope) : (scopeFn f x).extractLsb' 0 3 = x.code :=
  extractLsb'_append_eq_right

/-- fn of SYN and BAR is made of its sub-fields. -/
theorem scopeFn_fields {fn : BitVec 11} {x : Scope} (h : x.code = fn.extractLsb' 0 3) :
    scopeFn (fn.extractLsb' 3 8) x = fn := by
  unfold scopeFn
  rw [h, join (hi := 3) (lo := 0) rfl]
  exact extractLsb'_eq_self

/-- A shift count stands in the low bits of its immediate. -/
@[simp] theorem low_setWidth (n : BitVec 6) : (n.setWidth 16).extractLsb' 0 6 = n := by
  ext k hk
  simp [hk]
  omega

@[simp] theorem high_setWidth (n : BitVec 6) : (n.setWidth 16).extractLsb' 6 10 = 0 := by
  ext k hk
  simp

/-- An immediate whose high bits are zero is its low bits. -/
theorem setWidth_low {i : BitVec 16} (h : i.extractLsb' 6 10 = 0) : (i.extractLsb' 0 6).setWidth 16 = i := by
  have h := congrArg BitVec.toNat h
  refine eq_of_toNat_eq ?_
  simp [Nat.shiftRight_eq_div_pow] at h ⊢
  omega

@[simp] theorem level_append (l : Level) (n : BitVec 11) :
    (l.code ++ n : BitVec 12).extractLsb' 11 1 = l.code := extractLsb'_append_eq_left

@[simp] theorem offset_append (l : Level) (n : BitVec 11) : (l.code ++ n : BitVec 12).extractLsb' 0 11 = n :=
  extractLsb'_append_eq_right

@[simp] theorem high_append (x : BitVec 4) : (0#1 ++ x : BitVec 5).extractLsb' 4 1 = 0 := extractLsb'_append_eq_left

@[simp] theorem low_append (x : BitVec 4) : (0#1 ++ x : BitVec 5).extractLsb' 0 4 = x := extractLsb'_append_eq_right

@[simp] theorem label_append (x : BitVec 16) : (x.extractLsb' 12 4 ++ x.extractLsb' 0 12 : BitVec 16) = x := by
  rw [join (hi := 12) (lo := 0) rfl]
  exact extractLsb'_eq_self

@[simp] theorem group_append (g : BitVec 3) (f : BitVec 6) : (g ++ f : BitVec 9).extractLsb' 6 3 = g :=
  extractLsb'_append_eq_left

@[simp] theorem fn6_append (g : BitVec 3) (f : BitVec 6) : (g ++ f : BitVec 9).extractLsb' 0 6 = f :=
  extractLsb'_append_eq_right

section
variable (x : BitVec 7) (y : BitVec 2)

@[simp] theorem space_append : (x ++ y : BitVec 9).extractLsb' 0 2 = y := extractLsb'_append_eq_right

@[simp] theorem bits2_append : (x ++ y : BitVec 9).extractLsb' 2 2 = x.extractLsb' 0 2 :=
  extractLsb'_append_eq_of_le (by decide)

@[simp] theorem op_append : (x ++ y : BitVec 9).extractLsb' 4 5 = x.extractLsb' 2 5 :=
  extractLsb'_append_eq_of_le (by decide)

end

section
variable (x y : BitVec 4)

@[simp] theorem source_append : (x ++ y ++ 0#1 : BitVec 9).extractLsb' 5 4 = x := by
  rw [extractLsb'_append_eq_of_le (by decide), extractLsb'_append_eq_left]

@[simp] theorem target_append : (x ++ y ++ 0#1 : BitVec 9).extractLsb' 1 4 = y := by
  rw [extractLsb'_append_eq_of_le (by decide), extractLsb'_append_eq_right]

@[simp] theorem bit0_append : (x ++ y ++ 0#1 : BitVec 9).extractLsb' 0 1 = 0 := extractLsb'_append_eq_right

end

end Sys2Proof.Encoding
end

section
/-! SUPPORT. The table of each major gives back the instruction that was encoded (R29 to R38). -/

namespace Sys2Proof.Encoding

open BitVec Sys2Proof.Laws.Words
/-! ## The table of a major (R35) -/

section
variable {w imm : W32}

theorem decodeFields_alu (h : fOp w = 0x01) : decodeFields w imm = decodeAlu w := by
  unfold decodeFields
  rw [h]
  rfl

theorem decodeFields_mul (h : fOp w = 0x02) : decodeFields w imm = decodeMul w := by
  unfold decodeFields
  rw [h]
  rfl

theorem decodeFields_cmp (h : fOp w = 0x03) : decodeFields w imm = decodeCmp w := by
  unfold decodeFields
  rw [h]
  rfl

theorem decodeFields_bit (h : fOp w = 0x04) : decodeFields w imm = decodeBit w := by
  unfold decodeFields
  rw [h]
  rfl

theorem decodeFields_memLd (h : fOp w = 0x10) : decodeFields w imm = decodeMem .memLd w := by
  unfold decodeFields
  rw [h]
  rfl

theorem decodeFields_memLds (h : fOp w = 0x11) : decodeFields w imm = decodeMem .memLds w := by
  unfold decodeFields
  rw [h]
  rfl

theorem decodeFields_memSt (h : fOp w = 0x12) : decodeFields w imm = decodeMem .memSt w := by
  unfold decodeFields
  rw [h]
  rfl

theorem decodeFields_maint (h : fOp w = 0x13) : decodeFields w imm = decodeMaint w := by
  unfold decodeFields
  rw [h]
  rfl

theorem decodeFields_atm (h : fOp w = 0x18) : decodeFields w imm = decodeAtm w := by
  unfold decodeFields
  rw [h]
  rfl

theorem decodeFields_syn (h : fOp w = 0x19) : decodeFields w imm = decodeSyn w := by
  unfold decodeFields
  rw [h]
  rfl

theorem decodeFields_ctl (h : fOp w = 0x1F) : decodeFields w imm = decodeCtl w := by
  unfold decodeFields
  rw [h]
  rfl

theorem decodeFields_vfp (h : fOp w = 0x20) : decodeFields w imm = decodeVfp w := by
  unfold decodeFields
  rw [h]
  rfl

theorem decodeFields_vin (h : fOp w = 0x21) : decodeFields w imm = decodeVin w := by
  unfold decodeFields
  rw [h]
  rfl

theorem decodeFields_vmv (h : fOp w = 0x22) : decodeFields w imm = decodeVmv w := by
  unfold decodeFields
  rw [h]
  rfl

theorem decodeFields_vls (h : fOp w = 0x23) : decodeFields w imm = decodeVls w := by
  unfold decodeFields
  rw [h]
  rfl

theorem decodeFields_vcv (h : fOp w = 0x24) : decodeFields w imm = decodeVcv w := by
  unfold decodeFields
  rw [h]
  rfl

theorem decodeFields_vrd (h : fOp w = 0x25) : decodeFields w imm = decodeVrd w := by
  unfold decodeFields
  rw [h]
  rfl

theorem decodeFields_mtx (h : fOp w = 0x2C) : decodeFields w imm = decodeMtx w := by
  unfold decodeFields
  rw [h]
  rfl

theorem decodeFields_job (h : fOp w = 0x2D) : decodeFields w imm = decodeJob w := by
  unfold decodeFields
  rw [h]
  rfl

theorem decodeFields_thr (h : fOp w = 0x30) : decodeFields w imm = decodeThr w := by
  unfold decodeFields
  rw [h]
  rfl

theorem decodeFields_msg (h : fOp w = 0x31) : decodeFields w imm = decodeMsg w := by
  unfold decodeFields
  rw [h]
  rfl

theorem decodeFields_bar (h : fOp w = 0x32) : decodeFields w imm = decodeBar w := by
  unfold decodeFields
  rw [h]
  rfl

theorem decodeFields_dyn (h : fOp w = 0x34) : decodeFields w imm = decodeDyn w := by
  unfold decodeFields
  rw [h]
  rfl

theorem decodeFields_sys (h : fOp w = 0x38) : decodeFields w imm = decodeSys w := by
  unfold decodeFields
  rw [h]
  rfl

theorem decodeFields_lng (h : fOp w = 0x3C) : decodeFields w imm = decodeLng w imm := by
  unfold decodeFields
  rw [h]
  rfl

theorem decodeFields_lngCtl (h : fOp w = 0x3D) : decodeFields w imm = decodeLngCtl w imm := by
  unfold decodeFields
  rw [h]
  rfl

end

theorem decodeFields_encode {i : Instr} {w : W32} {rest : List W32} (h : encode i = w :: rest) :
    decodeFields w (rest.headD 0) = .ok i := by
  cases i with
  | aluAdd | aluSub | aluAnd | aluOr | aluXor | aluAndn | aluShl | aluShr | aluSar | aluAddw | aluSubw |
  aluShlw | aluShrw | aluSarw | aluMin | aluMax | aluMinu | aluMaxu | aluSel =>
    cases h
    rw [decodeFields_alu (fOp_regWord ..)]
    simp [decodeAlu]
  | mulMul | mulMulh | mulMulhu | mulMulw | mulDiv | mulDivu | mulRem | mulRemu =>
    cases h
    rw [decodeFields_mul (fOp_regWord ..)]
    simp [decodeMul]
  | cmpEq | cmpNe | cmpLt | cmpLtu | cmpLe | cmpLeu =>
    cases h
    rw [decodeFields_cmp (fOp_regWord ..)]
    simp [decodeCmp]
  | bitExt | bitExtu | bitIns | bitClz | bitCtz | bitPop | bitBswap =>
    cases h
    rw [decodeFields_bit (fOp_regWord ..)]
    simp [decodeBit]
  | aliAdd | aliAnd | aliOr | aliXor | aliShl | aliShr | aliSar | aliAddw | aliLui | aliSlt | brcEq | brcNe |
  dynGuard | sysSrrd | sysSrwr =>
    cases h
    simp [decodeFields, fOp_immWord]
  | lngLi | lngLih | lngAdd | lngAnd | lngOr | lngXor =>
    cases h
    rw [decodeFields_lng (fOp_immWord ..)]
    simp [decodeLng]
  | lngCall | lngJmp | lngLa =>
    cases h
    rw [decodeFields_lngCtl (fOp_immWord ..)]
    simp [decodeLngCtl]
  | jmp =>
    cases h
    simp [decodeFields, fOp_jumpWord]
  | ctlJr | ctlCallr | ctlRet | ctlJt | ctlLoop | ctlLexit | ctlLpad =>
    cases h
    rw [decodeFields_ctl (fOp_ctlWord ..)]
    simp [decodeCtl]
  | memLd | memLds | memSt =>
    cases h
    simp [decodeFields, decodeMem, fOp_memWord]
  | memWb | memInv | memPf | memZero =>
    cases h
    rw [decodeFields_maint (fOp_regWord ..)]
    simp [decodeMaint]
  | atmSwap | atmCas | atmAdd | atmAnd | atmOr | atmXor | atmMin | atmMax | atmMinu | atmMaxu =>
    cases h
    rw [decodeFields_atm (fOp_regWord ..)]
    simp [decodeAtm]
  | synLrw | synScr | synFence | synWait | synWake =>
    cases h
    rw [decodeFields_syn (fOp_regWord ..)]
    simp [decodeSyn]
  | thrStart | thrStop | thrCont | thrSpill | thrFill | thrExit | thrReap | thrRqpop | thrWatch | thrUnwatch |
  thrWait | thrIdle | thrSpawn | thrLaunch | thrBind | thrSemp | thrSemv | thrYield =>
    cases h
    rw [decodeFields_thr (fOp_regWord ..)]
    simp [decodeThr]
  | msgDec | msgPut | msgInc =>
    cases h
    rw [decodeFields_msg (fOp_regWord ..)]
    simp [decodeMsg]
  | barSync | barInit | barArrive | barWait | barExpect | barAbort =>
    cases h
    rw [decodeFields_bar (fOp_regWord ..)]
    simp [decodeBar]
  | vfpAdd | vfpSub | vfpMul | vfpFma | vfpFms | vfpMin | vfpMax | vfpAbs | vfpNeg | vfpDiv | vfpSqrt |
  vfpExp2 | vfpCeq | vfpClt | vfpCle =>
    cases h
    rw [decodeFields_vfp (fOp_vecWord ..)]
    simp [decodeVfp]
  | vinAdd | vinSub | vinMul | vinMulh | vinAnd | vinOr | vinXor | vinShl | vinShr | vinSar | vinMin | vinMax
  | vinMinu | vinMaxu | vinAdds | vinSubs | vinCeq | vinClt | vinCltu =>
    cases h
    rw [decodeFields_vin (fOp_vecWord ..)]
    simp [decodeVin]
  | vmvMov | vmvBcast | vmvSel | vmvPerm | vmvRot | vmvIns | vmvExt | vmvQand | vmvQor | vmvQnot | vmvQrd |
  vmvQwr =>
    cases h
    rw [decodeFields_vmv (fOp_vecWord ..)]
    simp [decodeVmv]
  | vrdFsum | vrdFmax | vrdFmin | vrdIsum | vrdImax | vrdImin | vrdImaxu | vrdIminu =>
    cases h
    rw [decodeFields_vrd (fOp_vecWord ..)]
    simp [decodeVrd]
  | vcv =>
    cases h
    rw [decodeFields_vcv (fOp_vecWord ..)]
    simp [decodeVcv]
  | vlsLd | vlsSt | vlsLds | vlsSts | vlsGath | vlsScat =>
    cases h
    rw [decodeFields_vls (fOp_vecWord ..)]
    simp [decodeVls]
  | mtxMma | mtxMmav | mtxCfg | mtxSt | mtxLd | mtxZero | mtxDrain =>
    cases h
    rw [decodeFields_mtx (fOp_engWord ..)]
    simp [decodeMtx]
  | jobCopy | jobCopyb | jobSubmit | jobFpwait | jobResume | jobPoll =>
    cases h
    rw [decodeFields_job (fOp_engWord ..)]
    simp [decodeJob]
  | dynIclook | dynIcfill | dynIcinv | dynNext | dynRcinc | dynRcdec | dynTag | dynShape | dynBoxf | dynUnboxf
  | dynBoxi | dynUnboxi =>
    cases h
    rw [decodeFields_dyn (fOp_regWord ..)]
    simp [decodeDyn]
  | sysNow | sysCapq | sysXinv | sysPgref | sysIflush | sysScall | sysBrk | sysFreply =>
    cases h
    rw [decodeFields_sys (fOp_immWord ..)]
    simp [decodeSys]
  | _ => cases h

end Sys2Proof.Encoding
end

section
/-! SUPPORT. A word that decodes is the word of the instruction it decodes to: no field of it is left unread (R29 to
R39). -/

namespace Sys2Proof.Encoding

open BitVec Sys2Proof.Laws.Words

section
variable {w : W32} {i : Instr}

/-! ## A word that has the fields of an instruction is its word -/

theorem regWord_eq {op : BitVec 6} {d a b : Reg} {fn : BitVec 11} (hop : fOp w = op) (hd : fD w = d) (ha : fA w = a)
    (hb : fB w = b) (hf : (fFn w).toNat = fn.toNat) : [regWord op d a b fn] = [w] := by
  rw [← hop, ← hd, ← ha, ← hb, ← eq_of_toNat_eq hf, regWord_fields]

theorem immWord_eq {op : BitVec 6} {d a : Reg} {n : BitVec 16} (hop : fOp w = op) (hd : fD w = d) (ha : fA w = a)
    (hi : (fImm w).toNat = n.toNat) : [immWord op d a n] = [w] := by
  rw [← hop, ← hd, ← ha, ← eq_of_toNat_eq hi, immWord_fields]

theorem ctlWord_eq {d a : Reg} {cf : BitVec 4} {k : BitVec 12} (hop : fOp w = 0x1F) (hd : fD w = d) (ha : fA w = a)
    (hc : (fCf w).toNat = cf.toNat) (hk : fK12 w = k) : [ctlWord d a cf k] = [w] := by
  rw [← hd, ← ha, ← hk, ← eq_of_toNat_eq hc, ctlWord_fields hop]

theorem vecWord_eq {op : BitVec 6} {d a b : Reg} {q : BitVec 2} {fn : BitVec 9} (hop : fOp w = op) (hd : fD w = d)
    (ha : fA w = a) (hb : fB w = b) (hq : fQ w = q) (hf : fFn9 w = fn) : [vecWord op d a b q fn] = [w] := by
  rw [← hop, ← hd, ← ha, ← hb, ← hq, ← hf, vecWord_fields]

/-- fn of a word of VFP or VIN. -/
theorem fn9_eq {g : BitVec 3} {f : BitVec 6} (hg : fGrp w = g) (hf : (fFn6 w).toNat = f.toNat) : fFn9 w = g ++ f := by
  rw [← hg, ← eq_of_toNat_eq hf, fGrp_append_fFn6]

/-- fn of a word of VFP or VIN whose group field is reserved. -/
theorem ungroupedFn9_eq {fn : BitVec 9} (hg : fGrp w = 0) (h0 : fn.extractLsb' 6 3 = 0)
    (hf : (fFn6 w).toNat = (fn.extractLsb' 0 6).toNat) : fFn9 w = fn := by
  rw [fn9_eq (hg.trans h0.symm) hf, join (hi := 6) (lo := 0) rfl]
  exact extractLsb'_eq_self

theorem engWord_eq {op : BitVec 6} {d a b : Reg} {z : AccReg} {fn : BitVec 8} (hop : fOp w = op) (hd : fD w = d)
    (ha : fA w = a) (hb : fB w = b) (hz : 0#1 ++ z = fZ w) (hf : (fFn8 w).toNat = fn.toNat) :
    [engWord op d a b z fn] = [w] := by
  rw [← hop, ← hd, ← ha, ← hb, ← eq_of_toNat_eq hf, engWord_fields hz]

/-! ## What each table decodes to -/

theorem encode_of_decodeAlu (hop : fOp w = 0x01) (h : decodeAlu w = .ok i) : encode i = [w] := by
  unfold decodeAlu at h
  split at h
  case h_20 => cases h
  all_goals
    cases h
    exact regWord_eq hop rfl rfl rfl ‹_›

theorem encode_of_decodeMul (hop : fOp w = 0x02) (h : decodeMul w = .ok i) : encode i = [w] := by
  unfold decodeMul at h
  split at h
  case h_9 => cases h
  all_goals
    cases h
    exact regWord_eq hop rfl rfl rfl ‹_›

theorem encode_of_decodeCmp (hop : fOp w = 0x03) (h : decodeCmp w = .ok i) : encode i = [w] := by
  unfold decodeCmp at h
  split at h
  case h_7 => cases h
  all_goals
    cases h
    exact regWord_eq hop rfl rfl rfl ‹_›

theorem encode_of_decodeBit (hop : fOp w = 0x04) (h : decodeBit w = .ok i) : encode i = [w] := by
  unfold decodeBit at h
  split at h
  case h_8 => cases h
  case h_1 | h_2 | h_3 =>
    cases h
    exact regWord_eq hop rfl rfl rfl ‹_›
  all_goals
    obtain ⟨hb, h⟩ := zeroed_eq_ok.mp h
    cases h
    exact regWord_eq hop rfl rfl hb ‹_›

theorem encode_of_decodeMem {op : BitVec 6} {mk : Reg → Reg → MSize → Space → BitVec 11 → Instr}
    (hmk : ∀ d a sz sp o, encode (mk d a sz sp o) = [memWord op d a sz sp o]) (hop : fOp w = op)
    (h : decodeMem mk w = .ok i) : encode i = [w] := by
  obtain ⟨sz, hsz, h⟩ := size_eq_ok.mp h
  cases h
  rw [hmk, ← hop, memWord_fields hsz]

theorem encode_of_decodeMaint (hop : fOp w = 0x13) (h : decodeMaint w = .ok i) : encode i = [w] := by
  unfold decodeMaint at h
  split at h
  case h_5 => cases h
  case h_1 | h_2 =>
    obtain ⟨hd, h⟩ := zeroed_eq_ok.mp h
    cases h
    exact regWord_eq hop hd rfl rfl ‹_›
  all_goals
    simp only [zeroed_eq_ok, Except.ok.injEq] at h
    obtain ⟨hd, hb, rfl⟩ := h
    exact regWord_eq hop hd rfl hb ‹_›

/-- fn of a word of ATM. -/
theorem atmFn_eq {f : BitVec 5} (h5 : (fFn w).extractLsb' 5 1 = 0) (h2 : (fFn w).extractLsb' 2 2 = 0)
    (hf : ((fFn w).extractLsb' 6 5).toNat = f.toNat) :
    (fFn w).toNat =
      (atmFn f (ASize.ofCode ((fFn w).extractLsb' 4 1)) (MOrder.ofCode ((fFn w).extractLsb' 0 2))).toNat := by
  rw [← eq_of_toNat_eq hf, atmFn_fields h5 h2]

theorem encode_of_decodeAtm (hop : fOp w = 0x18) (h : decodeAtm w = .ok i) : encode i = [w] := by
  simp only [decodeAtm, zeroed_eq_ok] at h
  obtain ⟨h5, h2, h⟩ := h
  split at h
  case h_11 => cases h
  all_goals
    cases h
    exact regWord_eq hop rfl rfl rfl (atmFn_eq h5 h2 ‹_›)

/-- fn of a word with a scope. -/
theorem scopeFn_eq {x : Scope} {f : BitVec 8} (hx : x.code = (fFn w).extractLsb' 0 3)
    (hf : ((fFn w).extractLsb' 3 8).toNat = f.toNat) : (fFn w).toNat = (scopeFn f x).toNat := by
  rw [← eq_of_toNat_eq hf, scopeFn_fields hx]

/-- fn of a word whose scope field is reserved. -/
theorem unscopedFn_eq {fn : BitVec 11} (hx : (fFn w).extractLsb' 0 3 = 0) (h0 : fn.extractLsb' 0 3 = 0)
    (hf : ((fFn w).extractLsb' 3 8).toNat = (fn.extractLsb' 3 8).toNat) : (fFn w).toNat = fn.toNat := by
  rw [scopeFn_eq (x := .core) hx.symm hf, scopeFn_fields (x := .core) h0.symm]

theorem encode_of_decodeSyn (hop : fOp w = 0x19) (h : decodeSyn w = .ok i) : encode i = [w] := by
  unfold decodeSyn at h
  dsimp only at h
  split at h
  case h_1 =>
    simp only [zeroed_eq_ok, Except.ok.injEq] at h
    obtain ⟨hx, hb, rfl⟩ := h
    exact regWord_eq hop rfl rfl hb (unscopedFn_eq hx rfl ‹_›)
  case h_2 =>
    simp only [zeroed_eq_ok, Except.ok.injEq] at h
    obtain ⟨hx, rfl⟩ := h
    exact regWord_eq hop rfl rfl rfl (unscopedFn_eq hx rfl ‹_›)
  case h_3 =>
    simp only [scope_eq_ok, zeroed_eq_ok, Except.ok.injEq] at h
    obtain ⟨x, hx, hb, ha, hd, rfl⟩ := h
    exact regWord_eq hop hd ha hb (scopeFn_eq hx ‹_›)
  case h_4 | h_5 =>
    obtain ⟨x, hx, h⟩ := scope_eq_ok.mp h
    cases h
    exact regWord_eq hop rfl rfl rfl (scopeFn_eq hx ‹_›)
  case h_6 => cases h

theorem encode_of_decodeBar (hop : fOp w = 0x32) (h : decodeBar w = .ok i) : encode i = [w] := by
  unfold decodeBar at h
  dsimp only at h
  split at h
  case h_1 =>
    obtain ⟨x, hx, h⟩ := scope_eq_ok.mp h
    cases h
    exact regWord_eq hop rfl rfl rfl (scopeFn_eq hx ‹_›)
  case h_2 | h_3 | h_5 =>
    simp only [zeroed_eq_ok, Except.ok.injEq] at h
    obtain ⟨hx, hb, rfl⟩ := h
    exact regWord_eq hop rfl rfl hb (unscopedFn_eq hx rfl ‹_›)
  case h_4 =>
    simp only [zeroed_eq_ok, Except.ok.injEq] at h
    obtain ⟨hx, rfl⟩ := h
    exact regWord_eq hop rfl rfl rfl (unscopedFn_eq hx rfl ‹_›)
  case h_6 =>
    simp only [zeroed_eq_ok, Except.ok.injEq] at h
    obtain ⟨hx, hb, ha, rfl⟩ := h
    exact regWord_eq hop rfl ha hb (unscopedFn_eq hx rfl ‹_›)
  case h_7 => cases h

theorem encode_of_decodeCtl (hop : fOp w = 0x1F) (h : decodeCtl w = .ok i) : encode i = [w] := by
  unfold decodeCtl at h
  dsimp only at h
  split at h
  case h_1 =>
    obtain ⟨hd, h⟩ := zeroed_eq_ok.mp h
    cases h
    exact ctlWord_eq hop hd rfl ‹_› rfl
  case h_2 =>
    cases h
    exact ctlWord_eq hop rfl rfl ‹_› rfl
  case h_3 =>
    simp only [zeroed_eq_ok, Except.ok.injEq] at h
    obtain ⟨hd, ha, rfl⟩ := h
    exact ctlWord_eq hop hd ha ‹_› rfl
  case h_4 =>
    obtain ⟨hk, h⟩ := zeroed_eq_ok.mp h
    cases h
    exact ctlWord_eq hop rfl rfl ‹_› hk
  case h_5 =>
    obtain ⟨ha, h⟩ := zeroed_eq_ok.mp h
    cases h
    refine ctlWord_eq hop rfl ha ‹_› ?_
    rw [code_level, join (hi := 11) (lo := 0) rfl]
    exact extractLsb'_eq_self.symm
  case h_6 =>
    simp only [zeroed_eq_ok, Except.ok.injEq] at h
    obtain ⟨hd, ha, hk, rfl⟩ := h
    exact ctlWord_eq hop hd ha ‹_› hk
  case h_7 =>
    simp only [zeroed_eq_ok, Except.ok.injEq] at h
    obtain ⟨hd, ha, rfl⟩ := h
    refine ctlWord_eq hop ?_ ha ‹_› ?_
    · rw [extractLsb'_append_eq_left, ← show (fD w).extractLsb' 4 1 = 0#1 from hd, join (hi := 4) (lo := 0) rfl]
      exact extractLsb'_eq_self.symm
    · exact extractLsb'_append_eq_right.symm
  case h_8 => cases h

theorem encode_of_decodeVfp (hop : fOp w = 0x20) (h : decodeVfp w = .ok i) : encode i = [w] := by
  unfold decodeVfp at h
  split at h
  case h_16 => cases h
  case h_8 | h_9 | h_11 | h_12 =>
    obtain ⟨hb, h⟩ := zeroed_eq_ok.mp h
    cases h
    exact vecWord_eq hop rfl rfl hb rfl (fn9_eq rfl ‹_›)
  case h_13 | h_14 | h_15 =>
    simp only [qReg_eq_ok, zeroed_eq_ok, Except.ok.injEq] at h
    obtain ⟨d, hd, hg, rfl⟩ := h
    exact vecWord_eq hop hd.symm rfl rfl rfl (ungroupedFn9_eq hg rfl ‹_›)
  all_goals
    cases h
    exact vecWord_eq hop rfl rfl rfl rfl (fn9_eq rfl ‹_›)

theorem encode_of_decodeVin (hop : fOp w = 0x21) (h : decodeVin w = .ok i) : encode i = [w] := by
  unfold decodeVin at h
  split at h
  case h_20 => cases h
  case h_17 | h_18 | h_19 =>
    simp only [qReg_eq_ok, zeroed_eq_ok, Except.ok.injEq] at h
    obtain ⟨d, hd, hg, rfl⟩ := h
    exact vecWord_eq hop hd.symm rfl rfl rfl (ungroupedFn9_eq hg rfl ‹_›)
  all_goals
    cases h
    exact vecWord_eq hop rfl rfl rfl rfl (fn9_eq rfl ‹_›)

theorem encode_of_decodeVmv (hop : fOp w = 0x22) (h : decodeVmv w = .ok i) : encode i = [w] := by
  unfold decodeVmv at h
  split at h
  case h_1 | h_2 =>
    obtain ⟨hb, h⟩ := zeroed_eq_ok.mp h
    cases h
    exact vecWord_eq hop rfl rfl hb rfl (eq_of_toNat_eq ‹_›)
  case h_3 | h_4 | h_5 =>
    cases h
    exact vecWord_eq hop rfl rfl rfl rfl (eq_of_toNat_eq ‹_›)
  case h_6 | h_7 =>
    obtain ⟨hq, h⟩ := zeroed_eq_ok.mp h
    cases h
    exact vecWord_eq hop rfl rfl rfl hq (eq_of_toNat_eq ‹_›)
  case h_8 | h_9 =>
    simp only [qReg_eq_ok, zeroed_eq_ok, Except.ok.injEq] at h
    obtain ⟨hq, d, hd, a, ha, b, hb, rfl⟩ := h
    exact vecWord_eq hop hd.symm ha.symm hb.symm hq (eq_of_toNat_eq ‹_›)
  case h_10 =>
    simp only [qReg_eq_ok, zeroed_eq_ok, Except.ok.injEq] at h
    obtain ⟨hq, hb, d, hd, a, ha, rfl⟩ := h
    exact vecWord_eq hop hd.symm ha.symm hb hq (eq_of_toNat_eq ‹_›)
  case h_11 =>
    simp only [qReg_eq_ok, zeroed_eq_ok, Except.ok.injEq] at h
    obtain ⟨hq, hb, a, ha, rfl⟩ := h
    exact vecWord_eq hop rfl ha.symm hb hq (eq_of_toNat_eq ‹_›)
  case h_12 =>
    simp only [qReg_eq_ok, zeroed_eq_ok, Except.ok.injEq] at h
    obtain ⟨hq, hb, d, hd, rfl⟩ := h
    exact vecWord_eq hop hd.symm rfl hb hq (eq_of_toNat_eq ‹_›)
  case h_13 => cases h

/-- fn of a word of VLS: the function, the reserved bits and the space. -/
theorem vlsFn_eq {f : BitVec 5} (h2 : (fFn9 w).extractLsb' 2 2 = 0)
    (hf : ((fFn9 w).extractLsb' 4 5).toNat = f.toNat) :
    fFn9 w = f ++ 0#2 ++ (Space.ofCode ((fFn9 w).extractLsb' 0 2)).code := by
  rw [code_space, ← eq_of_toNat_eq hf, ← show (fFn9 w).extractLsb' 2 2 = 0#2 from h2, join (hi := 4) (lo := 2) rfl,
    join (hi := 2) (lo := 0) rfl]
  exact extractLsb'_eq_self.symm

theorem encode_of_decodeVls (hop : fOp w = 0x23) (h : decodeVls w = .ok i) : encode i = [w] := by
  simp only [decodeVls, zeroed_eq_ok] at h
  obtain ⟨h2, h⟩ := h
  split at h
  case h_7 => cases h
  case h_1 | h_2 =>
    obtain ⟨hb, h⟩ := zeroed_eq_ok.mp h
    cases h
    exact vecWord_eq hop rfl rfl hb rfl (vlsFn_eq h2 ‹_›)
  all_goals
    cases h
    exact vecWord_eq hop rfl rfl rfl rfl (vlsFn_eq h2 ‹_›)

theorem encode_of_decodeVcv (hop : fOp w = 0x24) (h : decodeVcv w = .ok i) : encode i = [w] := by
  simp only [decodeVcv, zeroed_eq_ok, format_eq_ok, Except.ok.injEq] at h
  obtain ⟨h0, hb, src, hs, dst, hd, rfl⟩ := h
  refine vecWord_eq hop rfl rfl hb rfl ?_
  rw [hs, hd, ← show (fFn9 w).extractLsb' 0 1 = 0#1 from h0, join (hi := 5) (lo := 1) rfl, join (hi := 1) (lo := 0) rfl]
  exact extractLsb'_eq_self.symm

theorem encode_of_decodeVrd (hop : fOp w = 0x25) (h : decodeVrd w = .ok i) : encode i = [w] := by
  unfold decodeVrd at h
  split at h
  case h_9 => cases h
  all_goals
    obtain ⟨hb, h⟩ := zeroed_eq_ok.mp h
    cases h
    exact vecWord_eq hop rfl rfl hb rfl (eq_of_toNat_eq ‹_›)

theorem encode_of_decodeMtx (hop : fOp w = 0x2C) (h : decodeMtx w = .ok i) : encode i = [w] := by
  unfold decodeMtx at h
  split at h
  case h_1 | h_2 | h_4 =>
    simp only [zReg_eq_ok, zeroed_eq_ok, Except.ok.injEq] at h
    obtain ⟨hd, z, hz, rfl⟩ := h
    exact engWord_eq hop hd rfl rfl hz ‹_›
  case h_3 =>
    simp only [zeroed_eq_ok, Except.ok.injEq] at h
    obtain ⟨hb, hz, rfl⟩ := h
    exact engWord_eq hop rfl rfl hb hz.symm ‹_›
  case h_5 =>
    simp only [zReg_eq_ok, zeroed_eq_ok, Except.ok.injEq] at h
    obtain ⟨hd, hb, z, hz, rfl⟩ := h
    exact engWord_eq hop hd rfl hb hz ‹_›
  case h_6 =>
    simp only [zReg_eq_ok, zeroed_eq_ok, Except.ok.injEq] at h
    obtain ⟨hd, ha, hb, z, hz, rfl⟩ := h
    exact engWord_eq hop hd ha hb hz ‹_›
  case h_7 =>
    simp only [zeroed_eq_ok, Except.ok.injEq] at h
    obtain ⟨hd, ha, hb, hz, rfl⟩ := h
    exact engWord_eq hop hd ha hb hz.symm ‹_›
  case h_8 => cases h

theorem encode_of_decodeJob (hop : fOp w = 0x2D) (h : decodeJob w = .ok i) : encode i = [w] := by
  simp only [decodeJob, zeroed_eq_ok] at h
  obtain ⟨hz, h⟩ := h
  split at h
  case h_7 => cases h
  case h_3 | h_6 =>
    obtain ⟨hb, h⟩ := zeroed_eq_ok.mp h
    cases h
    exact engWord_eq hop rfl rfl hb hz.symm ‹_›
  all_goals
    cases h
    exact engWord_eq hop rfl rfl rfl hz.symm ‹_›

theorem encode_of_decodeThr (hop : fOp w = 0x30) (h : decodeThr w = .ok i) : encode i = [w] := by
  unfold decodeThr at h
  split at h
  case h_19 => cases h
  case h_4 | h_5 | h_13 =>
    cases h
    exact regWord_eq hop rfl rfl rfl ‹_›
  case h_1 | h_14 | h_15 =>
    obtain ⟨hb, h⟩ := zeroed_eq_ok.mp h
    cases h
    exact regWord_eq hop rfl rfl hb ‹_›
  case h_6 | h_11 | h_12 | h_18 =>
    simp only [zeroed_eq_ok, Except.ok.injEq] at h
    obtain ⟨hd, ha, hb, rfl⟩ := h
    exact regWord_eq hop hd ha hb ‹_›
  all_goals
    simp only [zeroed_eq_ok, Except.ok.injEq] at h
    obtain ⟨ha, hb, rfl⟩ := h
    exact regWord_eq hop rfl ha hb ‹_›

theorem encode_of_decodeMsg (hop : fOp w = 0x31) (h : decodeMsg w = .ok i) : encode i = [w] := by
  unfold decodeMsg at h
  split at h
  case h_1 | h_3 =>
    obtain ⟨hb, h⟩ := zeroed_eq_ok.mp h
    cases h
    exact regWord_eq hop rfl rfl hb ‹_›
  case h_2 =>
    cases h
    exact regWord_eq hop rfl rfl rfl ‹_›
  case h_4 => cases h

theorem encode_of_decodeDyn (hop : fOp w = 0x34) (h : decodeDyn w = .ok i) : encode i = [w] := by
  unfold decodeDyn at h
  split at h
  case h_13 => cases h
  case h_2 =>
    obtain ⟨hd, h⟩ := zeroed_eq_ok.mp h
    cases h
    exact regWord_eq hop hd rfl rfl ‹_›
  case h_3 =>
    simp only [zeroed_eq_ok, Except.ok.injEq] at h
    obtain ⟨hd, hb, rfl⟩ := h
    exact regWord_eq hop hd rfl hb ‹_›
  all_goals
    obtain ⟨hb, h⟩ := zeroed_eq_ok.mp h
    cases h
    exact regWord_eq hop rfl rfl hb ‹_›

theorem encode_of_decodeSys (hop : fOp w = 0x38) (h : decodeSys w = .ok i) : encode i = [w] := by
  unfold decodeSys at h
  split at h
  case h_1 =>
    obtain ⟨ha, h⟩ := zeroed_eq_ok.mp h
    cases h
    exact immWord_eq hop rfl ha ‹_›
  case h_2 | h_3 | h_4 | h_8 =>
    cases h
    exact immWord_eq hop rfl rfl ‹_›
  case h_5 | h_7 =>
    simp only [zeroed_eq_ok, Except.ok.injEq] at h
    obtain ⟨hd, ha, rfl⟩ := h
    exact immWord_eq hop hd ha ‹_›
  case h_6 =>
    obtain ⟨hd, h⟩ := zeroed_eq_ok.mp h
    cases h
    exact immWord_eq hop hd rfl ‹_›
  case h_9 => cases h

theorem encode_of_decodeLng {imm : W32} (hop : fOp w = 0x3C) (h : decodeLng w imm = .ok i) :
    encode i = [w, imm] := by
  unfold decodeLng at h
  split at h
  case h_1 =>
    obtain ⟨ha, h⟩ := zeroed_eq_ok.mp h
    cases h
    exact congrArg (· ++ [imm]) (immWord_eq hop rfl ha ‹_›)
  case h_7 => cases h
  all_goals
    cases h
    exact congrArg (· ++ [imm]) (immWord_eq hop rfl rfl ‹_›)

theorem encode_of_decodeLngCtl {imm : W32} (hop : fOp w = 0x3D) (h : decodeLngCtl w imm = .ok i) :
    encode i = [w, imm] := by
  unfold decodeLngCtl at h
  split at h
  case h_1 | h_3 =>
    obtain ⟨ha, h⟩ := zeroed_eq_ok.mp h
    cases h
    exact congrArg (· ++ [imm]) (immWord_eq hop rfl ha ‹_›)
  case h_2 =>
    simp only [zeroed_eq_ok, Except.ok.injEq] at h
    obtain ⟨hd, ha, rfl⟩ := h
    exact congrArg (· ++ [imm]) (immWord_eq hop hd ha ‹_›)
  case h_4 => cases h

end
end Sys2Proof.Encoding
end

section
namespace Sys2Proof.Encoding

open BitVec Sys2Proof.Laws.Words

section
variable {w imm : W32} {i : Instr}

theorem short_words {op : BitVec 6} (hn : (fOp w).toNat = op.toNat) (hs : longMajor op = false)
    (h : fOp w = op → encode i = [w]) : encode i = if isLong w then [w, imm] else [w] := by
  have hop := eq_of_toNat_eq hn
  rw [h hop, isLong_eq, hop, hs]
  rfl

theorem long_words {op : BitVec 6} (hn : (fOp w).toNat = op.toNat) (hl : longMajor op = true)
    (h : fOp w = op → encode i = [w, imm]) : encode i = if isLong w then [w, imm] else [w] := by
  have hop := eq_of_toNat_eq hn
  rw [h hop, isLong_eq, hop, hl]
  rfl

/-- An index of a state register stands in the low bits of its immediate. -/
theorem index_eq (h : fCf w = 0) : fImm w = 0#4 ++ fK12 w := by
  rw [← show fCf w = 0#4 from h]
  exact (join (x := w) (hi := 12) (lo := 0) (m := 4) (k := 12) rfl).symm

theorem encode_of_decodeFields (h : decodeFields w imm = .ok i) :
    encode i = if isLong w then [w, imm] else [w] := by
  unfold decodeFields at h
  split at h
  case h_1 => exact short_words ‹_› rfl fun hop => encode_of_decodeAlu hop h
  case h_2 => exact short_words ‹_› rfl fun hop => encode_of_decodeMul hop h
  case h_3 => exact short_words ‹_› rfl fun hop => encode_of_decodeCmp hop h
  case h_4 => exact short_words ‹_› rfl fun hop => encode_of_decodeBit hop h
  case h_5 | h_6 | h_7 | h_8 | h_12 | h_14 | h_21 | h_22 | h_37 =>
    cases h
    exact short_words ‹_› rfl fun hop => immWord_eq hop rfl rfl rfl
  case h_9 | h_10 | h_11 =>
    obtain ⟨hi, h⟩ := zeroed_eq_ok.mp h
    cases h
    exact short_words ‹_› rfl fun hop => immWord_eq hop rfl rfl (congrArg BitVec.toNat (setWidth_low hi).symm)
  case h_13 =>
    obtain ⟨ha, h⟩ := zeroed_eq_ok.mp h
    cases h
    exact short_words ‹_› rfl fun hop => immWord_eq hop rfl ha rfl
  case h_15 | h_16 | h_17 =>
    exact short_words ‹_› rfl fun hop => encode_of_decodeMem (fun _ _ _ _ _ => rfl) hop h
  case h_18 => exact short_words ‹_› rfl fun hop => encode_of_decodeMaint hop h
  case h_19 => exact short_words ‹_› rfl fun hop => encode_of_decodeAtm hop h
  case h_20 => exact short_words ‹_› rfl fun hop => encode_of_decodeSyn hop h
  case h_23 =>
    cases h
    exact short_words (op := 0x1E) ‹_› rfl fun hop => by rw [encode, ← hop, jumpWord_fields]
  case h_24 => exact short_words ‹_› rfl fun hop => encode_of_decodeCtl hop h
  case h_25 => exact short_words ‹_› rfl fun hop => encode_of_decodeVfp hop h
  case h_26 => exact short_words ‹_› rfl fun hop => encode_of_decodeVin hop h
  case h_27 => exact short_words ‹_› rfl fun hop => encode_of_decodeVmv hop h
  case h_28 => exact short_words ‹_› rfl fun hop => encode_of_decodeVls hop h
  case h_29 => exact short_words ‹_› rfl fun hop => encode_of_decodeVcv hop h
  case h_30 => exact short_words ‹_› rfl fun hop => encode_of_decodeVrd hop h
  case h_31 => exact short_words ‹_› rfl fun hop => encode_of_decodeMtx hop h
  case h_32 => exact short_words ‹_› rfl fun hop => encode_of_decodeJob hop h
  case h_33 => exact short_words ‹_› rfl fun hop => encode_of_decodeThr hop h
  case h_34 => exact short_words ‹_› rfl fun hop => encode_of_decodeMsg hop h
  case h_35 => exact short_words ‹_› rfl fun hop => encode_of_decodeBar hop h
  case h_36 => exact short_words ‹_› rfl fun hop => encode_of_decodeDyn hop h
  case h_38 | h_39 =>
    simp only [zeroed_eq_ok, Except.ok.injEq] at h
    obtain ⟨hc, ha, rfl⟩ := h
    exact short_words ‹_› rfl fun hop => immWord_eq hop rfl ha (congrArg BitVec.toNat (index_eq hc))
  case h_40 => exact short_words ‹_› rfl fun hop => encode_of_decodeSys hop h
  case h_41 => exact long_words ‹_› rfl fun hop => encode_of_decodeLng hop h
  case h_42 => exact long_words ‹_› rfl fun hop => encode_of_decodeLngCtl hop h
  case h_43 => cases h

theorem decode_eq_ok : decode w imm = .ok i ↔ decodeFields w imm = .ok i ∧ i.wf = true := by
  unfold decode
  cases decodeFields w imm with
  | error e => simp
  | ok j =>
    constructor
    · intro h
      dsimp only at h
      split at h
      · cases h; exact ⟨rfl, ‹_›⟩
      · cases h
    · rintro ⟨h, hw⟩
      cases h
      exact if_pos hw

theorem encode_of_decode (h : decode w imm = .ok i) : encode i = if isLong w then [w, imm] else [w] :=
  encode_of_decodeFields (decode_eq_ok.mp h).1

theorem decode_encode {rest : List W32} (hw : i.wf = true) (h : encode i = w :: rest) :
    decode w (rest.headD 0) = .ok i :=
  decode_eq_ok.mpr ⟨decodeFields_encode h, hw⟩

/-- A major that R35 leaves unassigned stands for no instruction. -/
theorem decode_unassigned
    (h : (fOp w).toNat ∈ [0x00, 0x0F, 0x14, 0x15, 0x16, 0x17, 0x1A, 0x1B, 0x26, 0x27, 0x28, 0x29, 0x2A,
      0x2B, 0x2E, 0x2F, 0x33, 0x39, 0x3A, 0x3B, 0x3E, 0x3F]) : decode w imm = .error .major := by
  have hf : decodeFields w imm = .error .major := by
    unfold decodeFields
    split
    case h_43 => rfl
    all_goals
      rename_i hn
      rw [hn] at h
      exact absurd h (by decide)
  rw [decode, hf]

end

end Sys2Proof.Encoding

open Sys2Proof Sys2Proof.Encoding

/-- Settles O2: each format gives its fields back, and the tables give each constructor its own word. -/
theorem decodeEncode : Obligations.DecodeEncode := by
  unfold Obligations.DecodeEncode
  intro i hw w rest h
  have hd := decode_encode hw h
  refine ⟨hd, ?_⟩
  have hl := congrArg List.length (h.symm.trans (encode_of_decode hd))
  split at hl <;> simp_all

/-- Settles O3: a word is made of its fields, and every field that its instruction does not name is checked. -/
theorem encodeDecode : Obligations.EncodeDecode := by
  unfold Obligations.EncodeDecode
  exact ⟨fun w imm i h => ⟨(decode_eq_ok.mp h).2, encode_of_decode h⟩, fun w imm h => decode_unassigned h⟩
end

section
/-! SUPPORT. Every instruction and every step of the machine answers a next state, and a step of the module stops only
on an input that is none. -/

namespace Sys2Proof.Machine

/-- The step answers a next state. -/
def Answers (o : Out) : Prop := ∃ t, o = .next t

theorem answers_next (s : State) : Answers (.next s) := ⟨s, rfl⟩

theorem answers_onNext {o : Out} (f : State → State) (h : Answers o) : Answers (onNext f o) := by
  obtain ⟨t, rfl⟩ := h
  exact ⟨f t, rfl⟩

/-- What a masked feature makes illegal (R41) answers where the instruction itself does. -/
theorem answers_masked {b : Bool} {s : State} {o : Out} (ho : Answers o) :
    Answers (if b = true then .next s else o) := by
  split
  · exact answers_next s
  · exact ho

/-! ## Instructions -/

/-- Each arm of the dispatch ends in `.next`; those of a feature that may be masked ask for it first. -/
theorem answers_exec (i : Instr) (s : State) : Answers (exec i s) := by
  cases i with
  | synFence | synWait | synWake | thrLaunch | barSync | sysSrrd | sysSrwr | vfpDiv | vfpSqrt | vfpExp2 | vcv | vlsGath
  | vlsScat | mtxMmav | dynIclook | dynIcfill | dynIcinv | dynNext | dynRcinc | dynRcdec | dynTag | dynShape | dynBoxf
  | dynUnboxf | dynBoxi | dynUnboxi | dynGuard => exact answers_masked ⟨_, rfl⟩
  | _ => exact ⟨_, rfl⟩

theorem answers_execStep (i : Instr) (s : State) : Answers (execStep i s) := answers_onNext _ (answers_exec i _)

theorem answers_perform (i : Instr) (s : State) : Answers (perform i s) :=
  answers_masked (answers_onNext _ (answers_execStep i s))

/-! ## A context's words -/

theorem answers_startWords (k : Nat) (x : Slot) (w0 w1 : W32) (held s : State) :
    Answers (startWords k x w0 w1 held s) := by
  unfold startWords
  dsimp only
  split
  · exact answers_exec _ _
  · split
    · exact answers_exec _ _
    · split <;> exact answers_onNext _ (answers_exec _ _)

theorem answers_runContext (k : Nat) (x : Slot) (s : State) : Answers (runContext k x s) := by
  unfold runContext
  dsimp only
  split
  · split <;> exact answers_next _
  · split
    · exact answers_startWords ..
    · exact answers_next _

theorem answers_retryContext (k : Nat) (x : Slot) (s : State) : Answers (retryContext k x s) := by
  unfold retryContext
  refine answers_masked ?_
  dsimp only
  split
  · exact answers_onNext _ (answers_startWords ..)
  · exact answers_next _
  · split <;> exact answers_next _
  · split
    · exact answers_masked (answers_onNext _ (answers_exec _ _))
    · exact answers_exec _ _

/-! ## A step of the module -/

theorem answers_issueTurn (s : State) : Answers (issueTurn s) := by
  unfold issueTurn
  split
  · exact answers_next _
  · dsimp only
    split
    · exact answers_runContext ..
    · split
      · exact answers_exec _ _
      · exact answers_next _

theorem answers_scheduled (s : State) : Answers (scheduled s) := by
  unfold scheduled deliver
  dsimp only
  split
  · split
    · exact answers_perform _ _
    · exact answers_issueTurn _
  · exact answers_issueTurn _
  · split
    · exact answers_perform _ _
    · exact answers_issueTurn _

/-- An input answers, or it is none. -/
theorem takeInput_answers (i : Instr) (s : State) :
    Answers (takeInput i s) ∨ takeInput i s = .fault .notAnInput ∧ isInput i = false := by
  unfold takeInput
  cases h : isInput i
  · exact .inr ⟨rfl, rfl⟩
  · exact .inl (answers_masked (answers_execStep i s))

/-- The input that is due is the first one listed, whose cycle has come. -/
theorem dueInput_eq_some {s t : State} {i : Instr} (h : s.dueInput = some (i, t)) :
    ∃ n rest, s.inputs = (n, i) :: rest ∧ n ≤ s.cycle := by
  unfold State.dueInput at h
  split at h
  next n j rest hin =>
    split at h
    next hn => cases h; exact ⟨n, rest, hin, hn⟩
    next => cases h
  next => cases h

/-- A step answers, or the input that is due is none. -/
theorem step_answers (s : State) :
    Answers (step s) ∨ step s = .fault .notAnInput ∧
      ∃ n i rest, s.inputs = (n, i) :: rest ∧ n ≤ s.cycle ∧ isInput i = false := by
  unfold step stepOnce
  split
  · exact .inl (answers_retryContext ..)
  · split
    · exact .inl (answers_perform _ _)
    · split
      next i t hdue =>
        obtain ⟨n, rest, hin, hn⟩ := dueInput_eq_some hdue
        exact (takeInput_answers i t).imp_right fun ⟨hf, hi⟩ => ⟨hf, n, i, rest, hin, hn, hi⟩
      next => exact .inl (answers_scheduled s)

/-! ## What a register write leaves alone -/

theorem Ctx.wr_pc (c : Ctx) (d : Reg) (v : Word) : (c.wr d v).pc = c.pc := by
  unfold Ctx.wr
  split <;> rfl

theorem Ctx.wr_loop0 (c : Ctx) (d : Reg) (v : Word) : (c.wr d v).loop0 = c.loop0 := by
  unfold Ctx.wr
  split <;> rfl

theorem Ctx.wr_loop1 (c : Ctx) (d : Reg) (v : Word) : (c.wr d v).loop1 = c.loop1 := by
  unfold Ctx.wr
  split <;> rfl

end Sys2Proof.Machine

open Sys2Proof Sys2Proof.Machine

/-- Settles O5: each arm of the dispatch ends in `.next`. -/
theorem execAlwaysAnswers : Obligations.ExecAlwaysAnswers := answers_exec

/-- Settles O6: every way a step goes on ends in an instruction's answer, but for an input that is none. -/
theorem stepStopsOnlyOnAForeignInput : Obligations.StepStopsOnlyOnAForeignInput := by
  unfold Obligations.StepStopsOnlyOnAForeignInput
  intro s
  rcases step_answers s with ⟨t, ht⟩ | ⟨hf, hinput⟩
  · rw [ht]
    exact ⟨nofun, nofun⟩
  · rw [hf]
    exact ⟨nofun, fun r h => by cases h; exact ⟨rfl, hinput⟩⟩

/-- Settles O1: the decoder evaluates each word. -/
theorem workedEncodings : Obligations.WorkedEncodings := by
  unfold Obligations.WorkedEncodings
  exact ⟨rfl, rfl, rfl, rfl, rfl, rfl, rfl, rfl, rfl, rfl, rfl, rfl⟩

/-- Settles O15: a result is the end check of a context that has taken its value, and the end check looks at no
register. -/
theorem resultWritesOneRegister : Obligations.ResultWritesOneRegister := by
  unfold Obligations.ResultWritesOneRegister
  intro s d v
  have hme : (s.result d v).me = ((s.me.advance s.len).wr d v).settled := by rw [result_eq, me_setMe, wr_advance]
  have hseq : s.seq.me = (s.me.advance s.len).settled := by rw [seq_eq, me_setMe]
  refine ⟨?value, registerFrame_result s d v, ?_, ?_, ?_⟩
  case value =>
    rw [result_eq, rg_setMe, settled_rd, advance_rd, rd_wr]
    by_cases hd : d = 0
    · rw [if_neg (fun h => h.2 hd), if_pos hd, hd, rd_zero]
    · rw [if_pos ⟨rfl, hd⟩, if_neg hd]
  · rw [hme, hseq]; exact (s.me.advance s.len).wr_pc d v
  · rw [hme, hseq]; exact (s.me.advance s.len).wr_loop0 d v
  · rw [hme, hseq]; exact (s.me.advance s.len).wr_loop1 d v
end

section
/-! SUPPORT. What a step does where it is the turn of a core whose context owns the cycle (R91), and how the words of a
context are run (R29, R39, R334). -/

namespace Sys2Proof.Machine

theorem issueTurn_runs {s : State} {k : Nat} {c : Core} (hcore : s.cores[s.turn]? = some (k, c))
    (hmay : s.mayIssue k s.owner = true) : issueTurn s = runContext k s.owner { s with turn := s.turn + 1 } := by
  unfold issueTurn
  split
  next h => cases h.symm.trans hcore
  next k' c' h =>
    cases h.symm.trans hcore
    exact if_pos hmay

theorem scheduled_turn {s : State} {rest : List Nat} (h : s.sched = 0 :: rest) :
    scheduled s = issueTurn { s with sched := rest } := by
  unfold scheduled
  dsimp only
  split
  next h0 => cases h0.symm.trans h
  next h0 => cases h0.symm.trans h; rfl
  next h0 => cases h0.symm.trans h

/-- A turn of a core whose context may issue runs that context. -/
theorem step_of_turn {s : State} {k : Nat} {c : Core} {rest : List Nat} (hretry : s.retry = [])
    (hurgent : s.urgent = []) (hdue : s.dueInput = none) (hsched : s.sched = 0 :: rest)
    (hcore : s.cores[s.turn]? = some (k, c))
    (hmay : ({ s with sched := rest, turn := s.turn + 1 } : State).mayIssue k s.owner = true) :
    step s = runContext k s.owner { s with sched := rest, turn := s.turn + 1 } := by
  have hstep : step s = scheduled s := by
    unfold step stepOnce
    rw [hretry, hurgent, hdue]
  exact (hstep.trans (scheduled_turn hsched)).trans (issueTurn_runs (s := { s with sched := rest }) hcore hmay)

/-- A context that resumes past no instruction fetches its words and runs them. -/
theorem runContext_of_fetch {k : Nat} {x : Slot} {s s1 : State} {w0 w1 : W32}
    (hskip : (((s.modCtx k x Ctx.flushed).running k x 0 0).ctx k x).skipping = false)
    (hfetch : fetchWords (((s.modCtx k x Ctx.flushed).running k x 0 0).ctx k x).pc
      ((s.modCtx k x Ctx.flushed).running k x 0 0) = .ok (w0, w1) s1) :
    runContext k x s = startWords k x w0 w1 (s1.heldWords k x w0 w1) s1 := by
  unfold runContext
  dsimp only
  rw [hskip, hfetch]
  rfl

section
variable {k : Nat} {x : Slot} {w0 w1 : W32} {held s : State} {i : Instr}

theorem startWords_illegal {e : DecodeError} (h : decode w0 w1 = .error e) :
    startWords k x w0 w1 held s = exec (.illegalInstruction w0 w1) (s.running k x w0 w1) := by
  unfold startWords
  rw [h]

theorem startWords_unmetered (h : decode w0 w1 = .ok i) (hm : metered w0 = false) :
    startWords k x w0 w1 held s = exec i (s.running k x w0 w1) := by
  unfold startWords
  rw [h]
  dsimp only
  rw [hm]
  rfl

theorem anySpent_running (l : List (Nat × Nat)) : (s.running k x w0 w1).anySpent l = s.anySpent l := rfl

/-- What is metered spends, unless it has not started; where a die may draw no more, it does not start (R334). -/
theorem startWords_metered {t : State} (h : decode w0 w1 = .ok i) (hm : metered w0 = true)
    (he : exec i (s.running k x w0 w1) = .next t) :
    startWords k x w0 w1 held s = .next (if (t.ctx k x).unstarted then t
      else if (s.running k x w0 w1).anySpent ((s.running k x w0 w1).charges i w0) then
        held.holdsBackAll ((s.running k x w0 w1).charges i w0)
      else t.spendAll ((s.running k x w0 w1).charges i w0)) := by
  unfold startWords
  rw [h]
  dsimp only
  rw [hm, he, anySpent_running]
  cases s.anySpent ((s.running k x w0 w1).charges i w0) <;> cases hu : (t.ctx k x).unstarted <;> simp [onNext, hu]

end

/-! ## What a die holds back -/

theorem State.ctx_holdsBackAll (l : List (Nat × Nat)) (s : State) (k : Nat) (x : Slot) :
    (s.holdsBackAll l).ctx k x = s.ctx k x := by
  induction l generalizing s with
  | nil => rfl
  | cons e l ih => exact ih (s.holdsBack e.1 e.2)

theorem State.wait_heldWords (s : State) (k : Nat) (x : Slot) (w0 w1 : W32) :
    ((s.heldWords k x w0 w1).ctx k x).wait = some (.power (timedWord w0)) :=
  congrArg Ctx.wait (me_setMe (s.running k x w0 w1) _)

end Sys2Proof.Machine

open Sys2Proof Sys2Proof.Machine

/-- Settles O4: the turn runs the context, its fetch gives the words, and the words run as they decode. -/
theorem stepRunsTheDecodedInstruction : Obligations.StepRunsTheDecodedInstruction := by
  unfold Obligations.StepRunsTheDecodedInstruction
  intro s s1 k c rest w0 w1 hretry hurgent hdue hsched hcore before x start hmay hskip hfetch run
  have hstep : step s = startWords k x w0 w1 (s1.heldWords k x w0 w1) s1 :=
    (step_of_turn hretry hurgent hdue hsched hcore hmay).trans (runContext_of_fetch hskip hfetch)
  rw [hstep]
  refine ⟨fun i hi => ⟨fun hm => startWords_unmetered hi hm, fun t hm ht => ?metered⟩,
    fun e he => startWords_illegal he⟩
  case metered =>
    intro spends held
    rw [startWords_metered hi hm ht]
    refine ⟨fun hu => congrArg done (if_pos hu), fun hu => ⟨fun hs => ?_, fun hs => ⟨?_, ?_⟩⟩⟩
    · rw [hu, hs]; rfl
    · rw [hu, hs]; rfl
    · rw [State.ctx_holdsBackAll, State.wait_heldWords]
end

section
/-! SUPPORT. Reservations and fences at the issuer (R140 to R143, R154, R155): what SYN.LRW and SYN.SCR do once their
target is translated, case by case, and what a fence with no home to probe does. -/

namespace Sys2Proof.Machine

/-- The state with the acquire of the issuer as the last entry of a line's queue. -/
def State.enqueued (s : State) (line : Nat) : State :=
  ({ s with nextId := s.nextId + 1 } : State).setSync s.myPart line
    { s.syncLine s.myPart line with
      queue := (s.syncLine s.myPart line).queue ++ [⟨s.key, s.slot, s.nextId, false, false⟩] }

section
variable {s s1 s2 s3 : State} {d a b : Reg} {x : Xlated} {pa : Nat} {v : Word}

/-- Poison is the first thing that the access of a line meets (R188). -/
theorem run_syncReady_poisoned {va : Word} (h : s.badLine s.myPart x.pa true = true) :
    syncReady va x s = .error (.trap 0x0D va) s := by
  simp [syncReady, poisonCheck, h]

theorem run_orTrap_ok {α : Type} {m : M α} {r : α} {va : Word} (h : m s = .ok r s1) : orTrap va m s = .ok r s1 := by
  show EStateM.tryCatch _ _ s = _
  unfold EStateM.tryCatch
  rw [h]

/-! ## SYN.LRW (R142) -/

section
variable (hp : s.pendingOf [d, a] = false) (ht : syncTarget (s.rg a) .sync s = .ok x s1)
include hp ht

section
variable (hheld : s1.steer s1.myPart x.pa ∈ s1.mine.heldBy (.slot s1.slot))
include hheld

/-- A line that the context holds is read again. -/
theorem synLrw_held (hr : syncReady (s.rg a) x s1 = .ok pa s2) (he : s2.me.posted = [])
    (hv : lineValue s1.myPart pa s2 = .ok v s3) : takes (.synLrw d a) s (s3.result d v) :=
  issueM_ok hp (u := ()) (by simp [ht, hheld, hr, he, run_orTrap_ok hv])

theorem synLrw_held_poisoned (hb : s1.badLine s1.myPart x.pa true = true) :
    takes (.synLrw d a) s (s1.trap 0x0D (s.rg a)) :=
  issueM_trap hp (by simp [ht, hheld, run_syncReady_poisoned hb])

end

section
variable (hfree : s1.steer s1.myPart x.pa ∉ s1.mine.heldBy (.slot s1.slot))
include hfree

/-- A context holds no more than four reservations (R141). -/
theorem synLrw_fifth (h4 : 4 ≤ (s1.mine.heldBy (.slot s1.slot)).length) :
    takes (.synLrw d a) s (s1.trap 0x04 (s.rg a)) :=
  issueM_trap hp (by simp [ht, hfree, h4])

section
variable (h4 : (s1.mine.heldBy (.slot s1.slot)).length < 4)
include h4

theorem synLrw_tableFull (h64 : 64 ≤ s1.mine.resv.length) : takes (.synLrw d a) s (s1.result d qfull) :=
  issueM_ok hp (u := ()) (by simp [ht, hfree, Nat.not_le.mpr h4, h64])

section
variable (h64 : s1.mine.resv.length < 64)
include h64

theorem synLrw_poisoned (hb : s1.badLine s1.myPart x.pa true = true) :
    takes (.synLrw d a) s (s1.trap 0x0D (s.rg a)) :=
  issueM_trap hp (by simp [ht, hfree, Nat.not_le.mpr h4, Nat.not_le.mpr h64, run_syncReady_poisoned hb])

theorem synLrw_queueFull (hr : syncReady (s.rg a) x s1 = .ok pa s2) (he : s2.me.posted = [])
    (hq : s2.queueRoom s2.myPart (s1.steer s1.myPart x.pa) = false) :
    takes (.synLrw d a) s ((s2.usedAbroad (s1.steer s1.myPart x.pa)).result d qfull) :=
  issueM_ok hp (u := ()) (by simp [ht, hfree, Nat.not_le.mpr h4, Nat.not_le.mpr h64, hr, he, hq])

/-- An acquire enters the queue of its line, and the home hears of it where it heads the queue. -/
theorem synLrw_queued (hr : syncReady (s.rg a) x s1 = .ok pa s2) (he : s2.me.posted = [])
    (hq : s2.queueRoom s2.myPart (s1.steer s1.myPart x.pa) = true) :
    takes (.synLrw d a) s
      (((if (s2.syncLine s2.myPart (s1.steer s1.myPart x.pa)).queue = [] then
          (s2.enqueued (s1.steer s1.myPart x.pa)).post (.reservationHead ⟨s2.myPart, s1.steer s1.myPart x.pa⟩)
        else s2.enqueued (s1.steer s1.myPart x.pa)).usedAbroad (s1.steer s1.myPart x.pa)).block
          (.lrw s2.nextId (s1.steer s1.myPart x.pa) pa d)) :=
  issueM_block hp (by simp [ht, hfree, Nat.not_le.mpr h4, Nat.not_le.mpr h64, hr, he, hq] <;> rfl)

end
end
end
end

/-! ## SYN.SCR (R143) -/

section
variable (hp : s.pendingOf [d, a, b] = false) (ht : syncTarget (s.rg a) .atomic s = .ok x s1)
include hp ht

theorem synScr_free (hfree : s1.steer s1.myPart x.pa ∉ s1.mine.heldBy (.slot s1.slot)) :
    takes (.synScr d a b) s (s1.result d 1) :=
  issueM_ok hp (u := ()) (by simp [ht, hfree])

section
variable (hheld : s1.steer s1.myPart x.pa ∈ s1.mine.heldBy (.slot s1.slot))
include hheld

theorem synScr_bit63 (hv : (s1.rg b).getLsbD 63 = true) : takes (.synScr d a b) s (s1.result d 2) :=
  issueM_ok hp (u := ()) (by simp [ht, hheld, hv])

theorem synScr_poisoned (hv : (s1.rg b).getLsbD 63 = false) (hb : s1.badLine s1.myPart x.pa true = true) :
    takes (.synScr d a b) s (s1.trap 0x0D (s.rg a)) :=
  issueM_trap hp (by simp [-BitVec.getLsbD_eq_getElem, ht, hheld, hv, run_syncReady_poisoned hb])

theorem synScr_sent (hv : (s1.rg b).getLsbD 63 = false) (hr : syncReady (s.rg a) x s1 = .ok pa s2)
    (he : s2.me.posted = []) :
    takes (.synScr d a b) s ((s2.post (.scrHomeUpdate s2.key s2.slot pa (s2.rg b))).block (.scr d)) :=
  issueM_block hp (by simp [-BitVec.getLsbD_eq_getElem, ht, hheld, hv, hr, he])

end
end
end

/-! ## SYN.FENCE (R154, R155) -/

/-- The issuer after a fence: its mask is cleared for the scope, and no lost write is left to report. -/
def State.fenced (s : State) (y : Scope) : State :=
  s.setMe { s.me with touched := clearedMask y s.me.touched, lost := 0, lostMod := 0, replies := 0 }

theorem issueScope_unmasked {s : State} {y : Scope} {rs : List Reg} {m : M Unit} (h : scopeMasked s y = false) :
    issueScope y rs s m = issueM rs s m := if_neg (by simp [h])

section
variable {s : State} {y : Scope} (he : s.me.posted = []) (hn : probes y s.me.touched = false)
  (hm : scopeMasked s y = false)
include he hn hm

theorem synFence_clean (h0 : s.me.lost = 0) : takes (.synFence y) s (s.fenced y).seq :=
  (issueScope_unmasked hm).trans (issueM_ok rfl (u := ()) (by simp [he, fence, hn, h0, State.fenced]))

theorem synFence_lost (h0 : s.me.lost ≠ 0) :
    takes (.synFence y) s ((s.fenced y).trap 0x07 (lostVal s.me.lost s.me.lostMod)) :=
  (issueScope_unmasked hm).trans (issueM_trap rfl (by simp [he, fence, hn, h0, State.fenced]))

end

end Sys2Proof.Machine

open Sys2Proof Sys2Proof.Machine

/-- Settles O28: each clause is one way in which SYN.LRW, SYN.SCR or a fence ends. -/
theorem reservationInstructions : Obligations.ReservationInstructions := by
  unfold Obligations.ReservationInstructions
  intro s s1 s2 s3 d a b y x pa v hp line held poisoned
  have hp2 : s.pendingOf [d, a] = false := pendingOf_of_subset hp (by simp)
  refine ⟨fun ht => ⟨synLrw_held hp2 ht, synLrw_held_poisoned hp2 ht, synLrw_fifth hp2 ht, synLrw_tableFull hp2 ht,
    fun hfree h4 h64 => ⟨synLrw_poisoned hp2 ht hfree h4 h64, fun hr he =>
      ⟨synLrw_queueFull hp2 ht hfree h4 h64 hr he, synLrw_queued hp2 ht hfree h4 h64 hr he⟩⟩⟩,
    fun ht => ⟨synScr_free hp ht, synScr_bit63 hp ht, fun hheld hv =>
      ⟨synScr_poisoned hp ht hheld hv, synScr_sent hp ht hheld hv⟩⟩,
    fun he hn hm => ⟨synFence_clean he hn hm, synFence_lost he hn hm⟩⟩
end

section
/-! SUPPORT. Spawning (R114): how THR.SPAWN ends at its issuer, what the target core does with a request, and what an
answer or a withdrawal does to the context that waits for it. -/

namespace Sys2Proof.Machine

section
variable {s s1 : State} {d a b : Reg}

/-! ## At the issuer -/

section
variable (hp : s.pendingOf [d, a, b, 1, 4, 5, 6, 7] = false)
include hp

theorem thrSpawn_sends (hcore : s.presentCore s.myPart (U (s.rg a)) = true)
    (hpad : checkTarget (s.rg b) 1#16 s = .ok () s1) (he : s1.me.posted = []) :
    takes (.thrSpawn d a b) s
      ((({ s1 with nextId := s1.nextId + 1 } : State).post (.spawnRequestArrival
        ⟨s1.nextId, s1.key, s1.slot, keyOf (U (s.rg a)) s1.myPart, wrapU (tidOf s1.key s1.slot), s1.rg b, s1.rg 4,
          s1.rg 5, s1.rg 6, s1.rg 7, s1.me.asid.toNat, s1.me.rights⟩)).block
        (.spawn s1.nextId (keyOf (U (s.rg a)) s1.myPart) d false)) :=
  issueM_block hp (by simp [hcore, hpad, he])

theorem thrSpawn_badTarget (hcore : s.presentCore s.myPart (U (s.rg a)) = true) {c : Nat} {v : Word}
    (hpad : checkTarget (s.rg b) 1#16 s = .error (.trap c v) s1) : takes (.thrSpawn d a b) s (s1.trap c v) :=
  issueM_trap hp (by simp [hcore, hpad])

section
variable (hcore : s.presentCore s.myPart (U (s.rg a)) = false)
include hcore

theorem thrSpawn_absentCore (h : checkTargetOf (some (.trap 0x04 (s.rg a))) (s.rg b) 1#16 s = .ok () s1) :
    takes (.thrSpawn d a b) s (s.trap 0x04 (s.rg a)) :=
  issueM_trap hp (by simp [hcore, h])

theorem thrSpawn_absentCore_noPad {v : Word}
    (h : checkTargetOf (some (.trap 0x04 (s.rg a))) (s.rg b) 1#16 s = .error (.trap 0x02 v) s1) :
    takes (.thrSpawn d a b) s (s.trap 0x02 v) :=
  issueM_trap hp (by simp [hcore, h])

theorem thrSpawn_absentCore_waits {w : Wait}
    (h : checkTargetOf (some (.trap 0x04 (s.rg a))) (s.rg b) 1#16 s = .error (.block w) s1) :
    takes (.thrSpawn d a b) s (s1.block w) :=
  issueM_block hp (by simp [hcore, h])

end
end

/-! ## At the target -/

/-- A child begins in RUN, at its entry, as a context that a spawn has started (R96). -/
theorem State.ctx_acceptSpawn (s : State) (r : SpawnReq) (x : Slot) :
    (s.acceptSpawn r x).ctx r.target x = (s.ctx r.target x).started r.entry (s.core r.target).spexit r.a4 r.a5 r.a6
      r.a7 (BitVec.ofNat 16 r.asid) r.rights true none :=
  State.ctx_setCtx_self s r.target x _

theorem State.acceptSpawn_answers (s : State) (r : SpawnReq) (x : Slot) :
    Instr.spawnAnswerArrival r.src r.slot r.id (some x.val) ∈ (s.acceptSpawn r x).flight :=
  List.mem_append_right _ (List.mem_singleton_self _)

section
variable {r : SpawnReq}

theorem spawnRequestArrival_starts {x : Slot} (hauto : (s.core r.target).auto = true)
    (hfree : (s.core r.target).freeCtx = some x) : takes (.spawnRequestArrival r) s (s.acceptSpawn r x) := by
  show execSpawnRequestArrival r s = _
  simp [execSpawnRequestArrival, done, hauto, hfree]

section
variable (hauto : (s.core r.target).auto = false)
include hauto

theorem spawnRequestArrival_refused (hfull : 4 ≤ (s.core r.target).inbox.length) :
    takes (.spawnRequestArrival r) s (s.post (.spawnAnswerArrival r.src r.slot r.id none)) := by
  show execSpawnRequestArrival r s = _
  simp [execSpawnRequestArrival, done, hauto, Nat.not_lt.mpr hfull]

/-- The first entry of an empty inbox whose cursor is at 0 takes the eight words of the request. -/
theorem spawnRequestArrival_inbox (hempty : (s.core r.target).inbox = []) (hat : (s.core r.target).inboxAt = 0) :
    takes (.spawnRequestArrival r) s (((s.storeWords r.target ((s.core r.target).inboxOff 0)
      [r.tid.toNat, U r.entry, U r.a4, U r.a5, U r.a6, U r.a7, r.asid, 1]).modCore r.target fun c =>
        { c with inbox := c.inbox ++ [(0, r)], inboxAt := 1 }).raise r.target evSpawn) := by
  have hfirst : (((List.range 4).map fun j => (0 + j) % 4).find? fun i =>
      !([] : List (Nat × SpawnReq)).any fun e => e.1 = i) = some 0 := by decide
  show execSpawnRequestArrival r s = _
  simp only [execSpawnRequestArrival, done, hauto, hempty, hat, hfirst, List.length_nil, Bool.false_eq_true, if_false,
    Nat.zero_lt_succ, if_true]
  rfl

end

/-- Words stored one after another, each at its own offset. -/
theorem State.storeWords_eq (k : Nat) (ws : List Nat) (off n : Nat) (s : State) :
    s.storeWords k (off + 8 * n) ws =
      (ws.zipIdx n).foldl (fun t e => t.storeLocal k (off + 8 * e.2) 8 e.1) s := by
  induction ws generalizing n s with
  | nil => rfl
  | cons w ws ih => exact ih (n + 1) _

end

/-- Context 0 starts the oldest request of its inbox in a context of its choice that is free. -/
theorem spawnAnswer_starts {k i : Nat} {x : Slot} {r : SpawnReq} {l : List (Nat × SpawnReq)}
    (hbox : (s.core k).inbox = (i, r) :: l) (hx : x ≠ 0)
    (hfree : (((s.modCore k fun c => { c with inbox := l }).storeLocal k ((s.core k).inboxOff i + 56) 8 0).ctx k x).st
      = .free) :
    takes (.spawnAnswer k x.val) s (((s.modCore k fun c => { c with inbox := l }).storeLocal k
      ((s.core k).inboxOff i + 56) 8 0).acceptSpawn r x) := by
  have hoff : ((s.modCore k fun c => { c with inbox := l }).core k).inboxOff i = (s.core k).inboxOff i := by
    rw [State.modCore_eq, State.core_setCore_self]
    rfl
  show done (s.answerSpawn k (Fin.ofNat 16 x.val)) = _
  rw [Fin.ofNat_val_eq_self]
  simp only [State.answerSpawn, hbox, hoff]
  exact congrArg done (if_pos ⟨hx, hfree⟩)

/-! ## The answer, and the withdrawal, at the issuer -/

section
variable {k id t : Nat} {x : Slot} {w : Bool} (hwait : (s.ctx k x).wait = some (.spawn id t d w))
include hwait

theorem spawnAnswerArrival_child (n : Nat) :
    takes (.spawnAnswerArrival k x id (some n)) s (s.finish k x d (wrapU (coreOf t * 16 + n))) := by
  show execSpawnAnswerArrival k x id (some n) s = _
  simp [execSpawnAnswerArrival, done, hwait]

/-- A refused child runs inline: its entry is called as a procedure is. -/
theorem spawnAnswerArrival_inline {w0 w1 : W32} (hf : (s.ctx k x).fetched = some (w0, w1)) :
    takes (.spawnAnswerArrival k x id none) s
      (s.setCtx k x { (((s.ctx k x).woken.wr d 0).wr 1 ((s.ctx k x).pc + 4)).settled with
        pc := (s.ctx k x).rd (fB w0) }) := by
  show execSpawnAnswerArrival k x id none s = _
  simp [execSpawnAnswerArrival, done, hwait, hf]

end

/-- The state without a request that is on its way. -/
def State.withoutSpawn (s : State) (id : Nat) : State :=
  let keep := fun (i : Instr) =>
    match i with
    | .spawnRequestArrival r => r.id ≠ id
    | _ => true
  { s with flight := s.flight.filter keep, parked := s.parked.filter keep, urgent := s.urgent.filter keep }

theorem State.spawnInFlight_withoutSpawn (s : State) (id : Nat) : (s.withoutSpawn id).spawnInFlight id = false := by
  simp only [State.spawnInFlight, State.withoutSpawn, List.any_eq_false, List.mem_append, List.mem_filter]
  intro i hi
  split
  next r =>
    simp only [or_assoc, ← or_and_right] at hi
    simpa using hi.2
  next => exact Bool.false_ne_true

/-- A trap sends nothing but a machine check, so that no request is on its way for it. -/
theorem State.spawnInFlight_trapOf (s : State) (k : Nat) (x : Slot) (c : Nat) (v : Word) (id : Nat) :
    (s.trapOf k x c v).spawnInFlight id = s.spawnInFlight id := by
  unfold State.trapOf State.trapWith
  split
  · rfl
  · dsimp only
    split
    · simp [State.spawnInFlight, State.post]
    · rfl

/-- What a trap leaves of a context that is neither ending nor being spilled. -/
theorem State.ctx_trapOf {s : State} {k : Nat} {x : Slot} (hend : (s.ctx k x).ending = false) (c : Nat) (v : Word) :
    (s.trapOf k x c v).ctx k x = (s.ctx k x).trapped c v (s.trapLen k x) := by
  unfold State.trapOf State.trapWith
  rw [if_neg (by simp [hend])]
  dsimp only
  split
  · exact State.ctx_setCtx_self s k x _
  · simp [State.raise, State.ctx, State.setCtx]

/-- The withdrawal of a request on its way takes it back, and its issuer traps. -/
theorem spawnWithdrawal_onItsWay {k id t : Nat} {x : Slot} (hst : (s.ctx k x).st = .blocked)
    (hend : (s.ctx k x).ending = false) (hway : s.spawnInFlight id = true) :
    takes (.spawnWithdrawal k x id t) s
      (((s.withoutSpawn id).setCtx k x (s.ctx k x).settled).trapOf k x 0x08 0) := by
  have hgoes : ¬((s.ctx k x).st = .spilling ∨ (s.ctx k x).ending = true) := by simp [hst, hend]
  show done _ = _
  simp only [hway, if_true]
  exact congrArg done (if_neg hgoes)

end

end Sys2Proof.Machine

open Sys2Proof Sys2Proof.Machine

/-- Settles O36: each clause is one way in which a spawn goes on at its issuer, at its target or at its answer. -/
theorem spawning : Obligations.Spawning := by
  intro s s1 d a b hp
  refine ⟨fun hcore hpad he => thrSpawn_sends hp hcore hpad he, fun hcore c v hpad => thrSpawn_badTarget hp hcore hpad,
    fun hcore => ⟨fun h => thrSpawn_absentCore hp hcore h, fun v h => thrSpawn_absentCore_noPad hp hcore h,
      fun w h => thrSpawn_absentCore_waits hp hcore h⟩,
    fun r x hauto hfree => ⟨spawnRequestArrival_starts hauto hfree, State.acceptSpawn_answers s r x, ?started⟩,
    fun r hauto hfull => spawnRequestArrival_refused hauto hfull, fun r hauto hempty hat => ?inbox,
    fun k i x r l hbox hx hfree => spawnAnswer_starts hbox hx hfree,
    fun k id t n x w hwait => ⟨spawnAnswerArrival_child hwait n, fun w0 w1 hf =>
      ⟨_, spawnAnswerArrival_inline hwait hf, ?called⟩⟩,
    fun k id t x w hwait hst hend hway => ⟨_, spawnWithdrawal_onItsWay hst hend hway, ?withdrawn⟩⟩
  case started =>
    rw [State.ctx_acceptSpawn]
    exact ⟨rfl, rfl, rfl⟩
  case inbox =>
    have hstored := State.storeWords_eq r.target [r.tid.toNat, U r.entry, U r.a4, U r.a5, U r.a6, U r.a7, r.asid, 1]
      ((s.core r.target).inboxOff 0) 0 s
    have h := spawnRequestArrival_inbox hauto hempty hat
    rw [← Nat.add_zero ((s.core r.target).inboxOff 0), ← Nat.mul_zero 8, hstored] at h
    exact h
  case called =>
    rw [State.ctx_setCtx_self]
    refine ⟨rfl, ?_, rfl, fun hd0 hd1 => ?_⟩
    · exact (rd_wr _ 1 1 _).trans (if_pos ⟨rfl, by decide⟩)
    · refine (rd_wr _ 1 d _).trans ((if_neg fun h => hd1 h.1).trans ?_)
      exact (rd_wr _ d d _).trans (if_pos ⟨rfl, hd0⟩)
  case withdrawn =>
    have hctx := State.ctx_trapOf (s := (s.withoutSpawn id).setCtx k x (s.ctx k x).settled) (k := k) (x := x)
      (by rw [State.ctx_setCtx_self]; exact hend) 0x08 0
    rw [State.ctx_setCtx_self] at hctx
    refine ⟨(State.spawnInFlight_trapOf ..).trans (State.spawnInFlight_withoutSpawn s id), ?_⟩
    rw [hctx]
    exact ⟨if_neg (by rw [show (s.ctx k x).settled.st = .blocked from hst]; decide), rfl, rfl⟩
end

section
/-! SUPPORT. The walk (R271, R272): what a read at a home gives, what each level finds, and how the walk goes down. -/

namespace Sys2Proof.Machine

theorem illegalVal_eq (w0 w1 : W32) :
    illegalVal w0 w1 = wrapU (if isLong w0 then w1.toNat * 2 ^ 32 + w0.toNat else w0.toNat) := by
  unfold illegalVal
  split
  · rw [← Nat.shiftLeft_eq, Nat.shiftLeft_add_eq_or_of_lt w0.isLt, ← BitVec.toNat_append]
    exact (BitVec.setWidth_eq _).symm.trans (BitVec.ofNat_toNat 64 _).symm
  · exact (BitVec.ofNat_toNat 64 w0).symm

/-! ## Fields of an entry as numbers -/

theorem getLsbD_eq_true_iff (v : Word) (n : Nat) : v.getLsbD n = true ↔ U v / 2 ^ n % 2 = 1 := by
  rw [BitVec.getLsbD, Nat.testBit_eq_decide_div_mod_eq, decide_eq_true_iff]

theorem getLsbD_eq_false_iff (v : Word) (n : Nat) : v.getLsbD n = false ↔ U v / 2 ^ n % 2 = 0 := by
  rw [← Bool.not_eq_true, getLsbD_eq_true_iff, Nat.mod_two_not_eq_one]

theorem extractLsb'_eq_iff (v : Word) (o n m : Nat) (hm : m < 2 ^ n) :
    v.extractLsb' o n = BitVec.ofNat n m ↔ U v / 2 ^ o % 2 ^ n = m := by
  rw [← BitVec.toNat_inj, toNat_extractLsb', BitVec.toNat_ofNat, Nat.mod_eq_of_lt hm]

/-- The field that reaches up to the last bit is a quotient. -/
theorem top_field (v : Word) {o n : Nat} (h : 64 ≤ o + n) : U v / 2 ^ o % 2 ^ n = U v / 2 ^ o :=
  Nat.mod_eq_of_lt <| Nat.div_lt_of_lt_mul <|
    v.isLt.trans_le (Nat.pow_add 2 o n ▸ Nat.pow_le_pow_right (by decide) h)

theorem badLeaf_iff (pte : Word) (lv : Nat) :
    badLeaf pte lv = true ↔ U pte / 2 ^ 57 ≠ 0 ∨ U pte / 2 ^ 54 % 4 = 3 ∨ U pte / 2 % 4 = 2 ∨
      (U pte / 2 ^ 56 % 2 = 1 ∧ U pte / 4 % 2 = 1) ∨ U pte / 1024 % 2 ^ (9 * lv) ≠ 0 := by
  have hres := extractLsb'_eq_iff pte 57 7 0 (by decide)
  have hcls := extractLsb'_eq_iff pte 54 2 3 (by decide)
  have hrw := extractLsb'_eq_iff pte 1 2 2 (by decide)
  rw [top_field pte (by decide)] at hres
  simp only [badLeaf, Bool.or_eq_true, bne_iff_ne, beq_iff_eq, Bool.and_eq_true, getLsbD_eq_true_iff, or_assoc]
  exact or_congr (not_congr hres) (or_congr hcls (or_congr hrw Iff.rfl))

section
variable {s s1 : State} {p pa : Nat}

/-! ## A read at a home (R24 to R26, R272) -/

theorem podResolve_notPod {acc : Access} (h : ∀ m, place (loc pa) ≠ .pod m) : s.podResolve p acc pa = some pa := by
  unfold State.podResolve
  split
  next m hm => exact absurd hm (h m)
  next => rfl

theorem fetchable_iff (a : Nat) : fetchable a = true ↔ (∃ n, place a = .dram n) ∨ ∃ n, place a = .pod n := by
  unfold fetchable
  cases place a <;> simp

theorem run_readHome_none (h : s.podResolve p .load pa = none) : readHome p pa s = .ok none s := by
  simp [readHome, h]

section
variable {q : Nat} (hq : s.podResolve p .load pa = some q)
include hq

theorem run_readHome_reads {data : LineData} (hmem : fetchable (loc q) = true) (hadmit : s.admits p q = true)
    (hread : readLine (s.homeAgent p (s.steer p q)) p q s = .ok data s1) :
    readHome p pa s = .ok (some (wrapU (sliceNat data (q % 128) 8))) s1 := by
  simp only [readHome, run_bind, run_get, hq, hmem, hadmit, Bool.and_self, if_true, hread, run_pure]

theorem run_readHome_noMemory (h : fetchable (loc q) = false ∨ s.admits p q = false) :
    readHome p pa s = .ok none s := by
  have hno : (fetchable (loc q) && s.admits p q) = false := by
    rcases h with h | h <;> simp [h]
  simp only [readHome, run_bind, run_get, hq, hno, Bool.false_eq_true, if_false, run_pure]

end

/-! ## One level -/

/-- The address of the entry for a VA in a table of a level. -/
def levelAt (va : Word) (base lv : Nat) : Nat := base + 8 * (U va / 2 ^ (12 + 9 * lv) % 512)

section
variable {va pte : Word} {base lv : Nat}

theorem run_walkLevel_poison (h : s.badLine p (levelAt va base lv) true = true) :
    walkLevel p va base lv s = .ok (.inl .poison) s := by
  unfold levelAt at h
  simp [walkLevel, h]

section
variable (hbad : s.badLine p (levelAt va base lv) true = false)
include hbad

theorem run_walkLevel_refused (h : readHome p (levelAt va base lv) s = .ok none s1) :
    walkLevel p va base lv s = .ok (.inl .refused) s1 := by
  unfold levelAt at h hbad
  simp [walkLevel, h, hbad]

/-- What an entry that the read gives means. -/
def levelOf (pte : Word) (lv pa : Nat) : Walked ⊕ Nat :=
  if !pte.getLsbD 0 then .inl (.absent pte lv pa)
  else if pte.extractLsb' 1 3 = 0 then
    if lv = 0 || pte.extractLsb' 54 10 != 0 then .inl .refused else .inr ((pte.extractLsb' 10 44).toNat * 4096)
  else if badLeaf pte lv then .inl .refused
  else .inl (.leaf pte lv pa)

theorem run_walkLevel_entry (h : readHome p (levelAt va base lv) s = .ok (some pte) s1) :
    walkLevel p va base lv s = .ok (levelOf pte lv (levelAt va base lv)) s1 := by
  unfold levelAt at h hbad
  simp only [walkLevel, levelOf, levelAt, run_bind, run_get, hbad, Bool.false_eq_true, if_false, h]
  (repeat' split) <;> rfl

end

theorem levelOf_absent {at_ : Nat} (h : U pte % 2 = 0) : levelOf pte lv at_ = .inl (.absent pte lv at_) := by
  have hv : pte.getLsbD 0 = false := (getLsbD_eq_false_iff pte 0).mpr (by rwa [Nat.pow_zero, Nat.div_one])
  simp only [levelOf, hv, Bool.not_false, if_true]

section
variable {at_ : Nat} (hv : U pte % 2 = 1)
include hv

theorem levelOf_valid : levelOf pte lv at_ =
    if U pte / 2 % 8 = 0 then
      if lv = 0 ∨ U pte / 2 ^ 54 ≠ 0 then .inl .refused else .inr (U pte / 2 ^ 10 % 2 ^ 44 * 4096)
    else if badLeaf pte lv then .inl .refused else .inl (.leaf pte lv at_) := by
  have hv : pte.getLsbD 0 = true := (getLsbD_eq_true_iff pte 0).mpr (by rwa [Nat.pow_zero, Nat.div_one])
  have hrwx := extractLsb'_eq_iff pte 1 3 0 (by decide)
  have htop := extractLsb'_eq_iff pte 54 10 0 (by decide)
  rw [top_field pte (by decide)] at htop
  simp only [levelOf, hv, toNat_extractLsb', Bool.or_eq_true, decide_eq_true_iff, bne_iff_ne, Bool.not_true,
    Bool.false_eq_true, if_false]
  congr 1
  · exact propext hrwx
  · exact if_congr (or_congr Iff.rfl (not_congr htop)) rfl rfl

end
/-! ## From level to level, and from the table of identifiers -/

theorem run_walkFrom_found {w : Walked} (h : walkLevel p va base lv s = .ok (.inl w) s1) :
    walkFrom p va lv base s = .ok w s1 := by
  cases lv <;> simp [walkFrom, h]

theorem run_walkFrom_below {t : Nat} (h : walkLevel p va base (lv + 1) s = .ok (.inr t) s1) :
    walkFrom p va (lv + 1) base s = walkFrom p va lv t s1 := by
  simp [walkFrom, h]

/-- The address of the entry of an identifier. -/
def State.identAt (s : State) (p id : Nat) : Nat := (s.part p).asidtab.toNat * 4096 + 8 * id

section
variable {id : Nat}

theorem run_walkTable_poison (h : s.badLine p (s.identAt p id) true = true) : walkTable p id va s = .ok .poison s := by
  unfold State.identAt at h
  simp [walkTable, h]

section
variable (hbad : s.badLine p (s.identAt p id) true = false)
include hbad

theorem run_walkTable_noEntry (h : readHome p (s.identAt p id) s = .ok none s1) :
    walkTable p id va s = .ok .refused s1 := by
  unfold State.identAt at h hbad
  simp [walkTable, h, hbad]

section
variable (h : readHome p (s.identAt p id) s = .ok (some pte) s1)
include h

theorem run_walkTable_entry : walkTable p id va s =
    if U pte / 2 ^ 63 = 0 ∨ U pte / 2 ^ 54 % 2 ^ 9 ≠ 0 ∨ U pte % 2 ^ 10 ≠ 0 then .ok .refused s1
    else walkFrom p va 4 (U pte / 2 ^ 10 % 2 ^ 44 * 4096) s1 := by
  have hvalid := getLsbD_eq_false_iff pte 63
  have hhigh := extractLsb'_eq_iff pte 54 9 0 (by decide)
  have hlow := extractLsb'_eq_iff pte 0 10 0 (by decide)
  rw [← Nat.pow_one 2, top_field pte (by decide)] at hvalid
  rw [Nat.pow_zero, Nat.div_one] at hlow
  unfold State.identAt at h hbad
  simp only [walkTable, run_bind, run_get, hbad, Bool.false_eq_true, if_false, h, toNat_extractLsb']
  have hcond : (!pte.getLsbD 63 || pte.extractLsb' 54 9 != 0 || pte.extractLsb' 0 10 != 0) = true ↔
      U pte / 2 ^ 63 = 0 ∨ U pte / 2 ^ 54 % 2 ^ 9 ≠ 0 ∨ U pte % 2 ^ 10 ≠ 0 := by
    simp only [Bool.or_eq_true, bne_iff_ne, Bool.not_eq_true', or_assoc]
    exact or_congr hvalid (or_congr (not_congr hhigh) (not_congr hlow))
  by_cases hc : U pte / 2 ^ 63 = 0 ∨ U pte / 2 ^ 54 % 2 ^ 9 ≠ 0 ∨ U pte % 2 ^ 10 ≠ 0
  · rw [if_pos hc, if_pos (hcond.mpr hc)]
    rfl
  · rw [if_neg hc, if_neg (mt hcond.mp hc)]

theorem run_walkTable_goesDown (hhigh : U pte / 2 ^ 54 = 512) (hlow : U pte % 2 ^ 10 = 0) :
    walkTable p id va s = walkFrom p va 4 (U pte / 2 ^ 10 % 2 ^ 44 * 4096) s1 := by
  rw [run_walkTable_entry hbad h]
  exact if_neg (by omega)

end
end
end
end
end

end Sys2Proof.Machine
end

section
/-! SUPPORT. What a walk leads to (R266, R272 to R274, R280): the leaf that its slice caches, and how the walk of a
context's or of a job's access ends. -/

namespace Sys2Proof.Machine

section
variable {s s1 s2 : State} {r : XReq} {pte : Word} {lv pa : Nat}

/-! ## The leaf that a slice caches -/

/-- What a slice has cached, without what the leaf of a request replaces. -/
def State.cacheRest (s : State) (r : XReq) : List (Nat × XEntry) :=
  (s.die r.die).xlat.filter fun o =>
    !(o.1 = xlatSlice (BitVec.ofNat 16 r.asid) r.va && o.2.covers r.part (BitVec.ofNat 16 r.asid) r.va)

theorem leafEntry_covers (r : XReq) (pte : Word) (lv : Nat) :
    (leafEntry r pte lv).covers r.part (BitVec.ofNat 16 r.asid) r.va = true := by
  simp [leafEntry, XEntry.covers]

/-- A leaf is put before the others; only one that its slice cached leaves. -/
theorem State.cacheLeaf_eq (s : State) (r : XReq) (pte : Word) (lv : Nat) : ∃ l, s.cacheLeaf r pte lv =
      s.setDie r.die { s.die r.die with xlat := l } ∧
    (∀ o ∈ l, o.1 ≠ xlatSlice (BitVec.ofNat 16 r.asid) r.va → o ∈ (s.die r.die).xlat) ∧
    (((s.die r.die).xlat.filter fun o => o.1 = xlatSlice (BitVec.ofNat 16 r.asid) r.va).length < 4096 →
      l = (xlatSlice (BitVec.ofNat 16 r.asid) r.va, leafEntry r pte lv) :: s.cacheRest r) := by
  have hold : ∀ o ∈ (xlatSlice (BitVec.ofNat 16 r.asid) r.va, leafEntry r pte lv) :: s.cacheRest r,
      o.1 ≠ xlatSlice (BitVec.ofNat 16 r.asid) r.va → o ∈ (s.die r.die).xlat := by
    intro o ho hne
    rcases List.mem_cons.mp ho with rfl | ho
    · exact absurd rfl hne
    · exact List.mem_of_mem_filter ho
  unfold State.cacheLeaf
  rw [State.modDie_eq]
  dsimp only
  split
  next old hfull =>
    refine ⟨_, rfl, fun o ho => hold o (List.mem_of_mem_filter ho), fun hroom => ?_⟩
    have hlen := (List.getElem?_eq_some_iff.mp hfull).1
    have hsub : ((s.cacheRest r).filter fun o => o.1 = xlatSlice (BitVec.ofNat 16 r.asid) r.va).length ≤
        ((s.die r.die).xlat.filter fun o => o.1 = xlatSlice (BitVec.ofNat 16 r.asid) r.va).length :=
      (List.filter_sublist.filter _).length_le
    simp only [List.filter_cons, decide_true, if_true, List.length_cons] at hlen
    unfold State.cacheRest at hsub
    omega
  next => exact ⟨_, rfl, hold, fun _ => rfl⟩

theorem State.cachedLeaf_cacheLeaf
    (hroom : ((s.die r.die).xlat.filter fun o => o.1 = xlatSlice (BitVec.ofNat 16 r.asid) r.va).length < 4096) :
    (s.cacheLeaf r pte lv).cachedLeaf r.die r.part (BitVec.ofNat 16 r.asid) r.va = some (leafEntry r pte lv) := by
  obtain ⟨l, hs, -, hl⟩ := s.cacheLeaf_eq r pte lv
  rw [hs, hl hroom, State.cachedLeaf, State.die_setDie_self, List.find?_cons_of_pos]
  · rfl
  · simp [leafEntry_covers]

theorem State.mem_cacheLeaf {o : Nat × XEntry} (ho : o ∈ ((s.cacheLeaf r pte lv).die r.die).xlat)
    (hne : o.1 ≠ xlatSlice (BitVec.ofNat 16 r.asid) r.va) : o ∈ (s.die r.die).xlat := by
  obtain ⟨l, hs, hl, -⟩ := s.cacheLeaf_eq r pte lv
  rw [hs, State.die_setDie_self] at ho
  exact hl o ho hne

theorem State.die_cacheLeaf {n : Nat} (h : n ≠ r.die) : (s.cacheLeaf r pte lv).die n = s.die n := by
  obtain ⟨l, hs, -⟩ := s.cacheLeaf_eq r pte lv
  rw [hs, State.die_setDie_ne _ _ h]

/-! ## How a walk ends -/

/-- What an access makes of a walk's finding. -/
def walkEnds (r : XReq) : Walked → M Unit
  | .refused => modify fun s => s.refuse r 0x04
  | .poison => do
    match ← twinRefusal r with
    | some (0x04, va) => modify fun s => s.refuse { r with va := va } 0x04
    | _ => modify fun s => s.refuse r 0x0D
  | .absent pte lv pa => walkFault r 1 lv pa pte
  | .leaf pte lv pa => do
    match (← get).leafRefusal r pte lv with
    | some cause => modify fun s => s.refuse r cause
    | none =>
      if verdict pte r.acc = .cow then walkFault r 2 lv pa pte
      else
        modify fun s =>
          let s := s.cacheLeaf r pte lv
          match r.who with
          | .ctx k x => s.reply k x
          | .job k id => s.jobAnswer k id none
          | .launch _ _ => s

section
variable (hwants : s.wants r.who = true)
include hwants

theorem translationWalk_found {w : Walked} (hw : walkTable r.part r.asid r.va s = .ok w s1) {u : Unit}
    (hend : walkEnds r w s1 = .ok u s2) : takes (.translationWalk r) s s2 := by
  show execTranslationWalk r s = _
  unfold execTranslationWalk
  rw [hwants]
  refine congrArg done (eventOr_ok (u := u) ?_)
  rw [run_bind, hw]
  cases w <;> exact hend

theorem translationWalk_waits {w : Wait} (hw : walkTable r.part r.asid r.va s = .error (.block w) s1) :
    takes (.translationWalk r) s (s1.parkOn (.translationWalk r) w) := by
  show execTranslationWalk r s = _
  unfold execTranslationWalk
  rw [hwants]
  exact congrArg done (eventOr_block (by rw [run_bind, hw]))

theorem translationWalk_failed (hw : walkTable r.part r.asid r.va s = .error .err s1) :
    takes (.translationWalk r) s (s1.refuse r 0x04) := by
  show execTranslationWalk r s = _
  unfold execTranslationWalk
  rw [hwants]
  exact congrArg done (eventOr_err (by rw [run_bind, hw]))

end
/-! ## The other part of a split access (R42, R134) -/

theorem run_twinRefusal_none (h : r.twin = none) : twinRefusal r s = .ok none s := by
  simp [twinRefusal, h]

theorem run_twinRefusal_trap {c : Nat} {v : Word} (h : r.twin = some (.trap c v)) :
    twinRefusal r s = .ok (some (c, v)) s := by
  simp [twinRefusal, h]

theorem run_twinRefusal_known {va : Word} {base : Nat} {fresh : Bool} (h : r.twin = some (.known va base fresh)) :
    twinRefusal r s = .ok (s.poisonAt r va base fresh) s := by
  simp only [twinRefusal, h, run_bind, run_get, run_pure]

section
variable {va : Word} (h : r.twin = some (.walk va))
  (hmiss : s.cachedLeaf r.die r.part (BitVec.ofNat 16 r.asid) va = none)
include h hmiss

theorem run_twinRefusal_refused (hw : walkTable r.part r.asid va s = .ok .refused s1) :
    twinRefusal r s = .ok (some (0x04, va)) s1 := by
  simp only [twinRefusal, h, run_bind, run_get, hmiss, Option.bind_none, hw, run_pure]

theorem run_twinRefusal_poison (hw : walkTable r.part r.asid va s = .ok .poison s1) :
    twinRefusal r s = .ok (some (0x0D, va)) s1 := by
  simp only [twinRefusal, h, run_bind, run_get, hmiss, Option.bind_none, hw, run_pure]

end

/-- Poison is all that a translated part can trap for. -/
theorem State.poisonAt_ne_refusal (va v : Word) (base : Nat) (fresh : Bool) :
    s.poisonAt r va base fresh ≠ some (0x04, v) := by
  unfold State.poisonAt
  split <;> simp

/-! ## Findings of a walk -/

theorem walkFault_twinTraps {kind c : Nat} {v : Word} (h : twinRefusal r s = .ok (some (c, v)) s1) :
    walkFault r kind lv pa pte s = .ok () (s1.refuse { r with va := v } c) := by
  simp only [walkFault, run_bind, h, run_modify]

theorem walkFault_posts {kind : Nat} (h : twinRefusal r s = .ok none s1) :
    walkFault r kind lv pa pte s = .ok () (s1.faulted r kind lv pa pte) := by
  simp only [walkFault, run_bind, h, run_modify]

theorem walkEnds_poison_twinRefused {va : Word} (h : twinRefusal r s = .ok (some (0x04, va)) s1) :
    walkEnds r .poison s = .ok () (s1.refuse { r with va := va } 0x04) := by
  simp only [walkEnds, run_bind, h, run_modify]

theorem walkEnds_poison {o : Option (Nat × Word)} (h : twinRefusal r s = .ok o s1) (ho : ∀ va, o ≠ some (0x04, va)) :
    walkEnds r .poison s = .ok () (s1.refuse r 0x0D) := by
  simp only [walkEnds, run_bind, h]
  rfl

theorem walkEnds_leaf_refused (h : verdict pte r.acc = .refused ∨ s.reachable r pte lv = false) :
    walkEnds r (.leaf pte lv pa) s = .ok () (s.refuse r 0x04) := by
  have hrefused : s.leafRefusal r pte lv = some 0x04 := if_pos (by simpa using h)
  simp only [walkEnds, run_bind, run_get, hrefused, run_modify]

section
variable (hreach : s.reachable r pte lv = true)
include hreach

theorem State.leafRefusal_none (h : verdict pte r.acc ≠ .refused) : s.leafRefusal r pte lv = none :=
  if_neg (by simp [h, hreach])

theorem walkEnds_leaf_cow (h : verdict pte r.acc = .cow) :
    walkEnds r (.leaf pte lv pa) s = walkFault r 2 lv pa pte s := by
  simp only [walkEnds, run_bind, run_get, State.leafRefusal_none hreach (h ▸ by decide), h, if_true]

section
variable (h : verdict pte r.acc = .ok)
include h

theorem walkEnds_leaf_ctx {k : Nat} {x : Slot} (hwho : r.who = .ctx k x) :
    walkEnds r (.leaf pte lv pa) s = .ok () ((s.cacheLeaf r pte lv).reply k x) := by
  have hcow : verdict pte r.acc ≠ .cow := h ▸ by decide
  simp only [walkEnds, run_bind, run_get, State.leafRefusal_none hreach (h ▸ by decide), hcow, if_false, run_modify,
    hwho]

theorem walkEnds_leaf_job {k id : Nat} (hwho : r.who = .job k id) :
    walkEnds r (.leaf pte lv pa) s = .ok () ((s.cacheLeaf r pte lv).jobAnswer k id none) := by
  have hcow : verdict pte r.acc ≠ .cow := h ▸ by decide
  simp only [walkEnds, run_bind, run_get, State.leafRefusal_none hreach (h ▸ by decide), hcow, if_false, run_modify,
    hwho]

end
end

/-! ## The walk for an access of a context -/

section
variable {k : Nat} {x : Slot} (hwho : r.who = .ctx k x) (hacc : r.acc ≠ .atomic)
include hwho hacc

theorem State.refuse_ctx (hwait : (s.ctx k x).wait = some .walk) (htwin : ∀ c v, r.twin ≠ some (.trap c v))
    (cause : Nat) : s.refuse r cause = s.trapOf k x cause r.va := by
  unfold State.refuse
  simp only [hwho, hwait, if_true]
  simp [State.refuseCtx, hacc]

/-- A trap that the instruction takes anyway comes in place of every other. -/
theorem State.refuse_ctx_twin {c : Nat} {v : Word} (hwait : (s.ctx k x).wait = some .walk)
    (htwin : r.twin = some (.trap c v)) (cause : Nat) : s.refuse r cause = s.trapOf k x c v := by
  simp [State.refuse, State.refuseCtx, hwho, hwait, htwin, hacc]

end

theorem State.faulted_ctx {k : Nat} {x : Slot} (hwho : r.who = .ctx k x) (kind : Nat) :
    s.faulted r kind lv pa pte = (s.modCtx k x fun c => { c with wait := some .fault }).post
      (.faultRecordPost ⟨r, kind, lv, pa, pte, 0, 0⟩) := by
  simp only [State.faulted, hwho]

theorem State.refuse_job {k id : Nat} (hwho : r.who = .job k id) (cause : Nat) :
    s.refuse r cause = s.jobAnswer k id (some cause) := by
  simp only [State.refuse, hwho]

theorem State.wants_ctx {k : Nat} {x : Slot} (hwho : r.who = .ctx k x) (hwait : (s.ctx k x).wait = some .walk) :
    s.wants r.who = true := by
  rw [hwho]
  exact decide_eq_true hwait

theorem State.wants_job {k id : Nat} (hwho : r.who = .job k id)
    (h : ∃ j ∈ (s.core k).jobs, j.id = id ∧ j.asking = true) : s.wants r.who = true := by
  rw [hwho]
  simpa [State.wants] using h

/-- How the walk of a context's access traps, for the VA of this part or of the other. -/
theorem translationWalk_traps {k : Nat} {x : Slot} (hwho : r.who = .ctx k x) (hacc : r.acc ≠ .atomic)
    (htwin : ∀ c v, r.twin ≠ some (.trap c v)) (hwait : (s.ctx k x).wait = some .walk) {w : Walked}
    (hw : walkTable r.part r.asid r.va s = .ok w s1) (hwait2 : (s2.ctx k x).wait = some .walk) {c : Nat} {v : Word}
    (hend : walkEnds r w s1 = .ok () (s2.refuse { r with va := v } c)) :
    takes (.translationWalk r) s (s2.trapOf k x c v) := by
  rw [State.refuse_ctx (r := { r with va := v }) hwho hacc hwait2 htwin c] at hend
  exact translationWalk_found (State.wants_ctx hwho hwait) hw hend

/-- Whatever a walk finds that is no leaf, a trap that the instruction takes anyway is taken. -/
theorem translationWalk_twinTraps {k : Nat} {x : Slot} (hwho : r.who = .ctx k x) (hacc : r.acc ≠ .atomic)
    {c : Nat} {v : Word} (htwin : r.twin = some (.trap c v)) (hwait : (s.ctx k x).wait = some .walk)
    (hwait1 : (s1.ctx k x).wait = some .walk) {w : Walked} (hw : walkTable r.part r.asid r.va s = .ok w s1)
    (hleaf : ∀ pte lv pa, w ≠ .leaf pte lv pa) : takes (.translationWalk r) s (s1.trapOf k x c v) := by
  have htrap := run_twinRefusal_trap (s := s1) htwin
  have hrefuse (va : Word) (cause : Nat) : s1.refuse { r with va := va } cause = s1.trapOf k x c v :=
    State.refuse_ctx_twin (r := { r with va := va }) hwho hacc hwait1 htwin cause
  refine translationWalk_found (State.wants_ctx hwho hwait) hw (u := ()) ?_
  cases w with
  | refused => exact congrArg (EStateM.Result.ok ()) (hrefuse r.va 0x04)
  | absent pte lv pa => exact (walkFault_twinTraps htrap).trans (congrArg (EStateM.Result.ok ()) (hrefuse v c))
  | leaf pte lv pa => exact absurd rfl (hleaf pte lv pa)
  | poison =>
    by_cases hc : c = 0x04
    · exact (walkEnds_poison_twinRefused (hc ▸ htrap)).trans (congrArg (EStateM.Result.ok ()) (hrefuse v 0x04))
    · refine (walkEnds_poison htrap fun va h => hc ?_).trans (congrArg (EStateM.Result.ok ()) (hrefuse r.va 0x0D))
      exact congrArg Prod.fst (Option.some.inj h)

end

end Sys2Proof.Machine
end

section
/-! SUPPORT. Fault records and their replies (R266, R269, R276), uncorrectable errors and machine checks (R277, R278,
R280, R331). -/

namespace Sys2Proof.Machine

section
variable {s t : State} {k p core ring slot : Nat} {x : Slot}

/-! ## Records -/

section
variable {f : FaultRec} (hwho : f.req.who = .ctx k x)
include hwho

theorem State.recordWords_ctx : s.recordWords f =
    [f.kind + 256 * accessCode f.req.acc + 65536 * f.req.asid + 2 ^ 32 * f.level, tidOf k x, U f.req.va, f.pte,
      U f.value, 0, 0, 0] := by
  simp only [State.recordWords, XReq.code, hwho, State.whoTid]

theorem State.ringFor_ctx (hlrs : isLrs (s.cfg p) (coreOf k) = false)
    (hring : coreOf k ≠ (s.cfg p).svcCore ∧ core = (s.cfg p).svcCore ∧ ring = (s.cfg p).svcRing ∨
      coreOf k = (s.cfg p).svcCore ∧ lrsOf (s.cfg p) (dieOfCore (coreOf k)) = some (core, ring)) :
    s.ringFor p (whoCore f.req.who) = some (core, ring) := by
  simp only [State.ringFor, hwho, whoCore, hlrs, Bool.false_eq_true, if_false]
  rcases hring with ⟨hne, rfl, rfl⟩ | ⟨heq, hlrs⟩
  · exact if_neg hne
  · exact (if_pos heq).trans hlrs

theorem faultRecordPost_fatal (hlrs : isLrs (s.cfg f.req.part) (coreOf k) = true) :
    takes (.faultRecordPost f) s (s.post (.fatalMachineCheck f.req.part)) := by
  show execFaultRecordPost f s = _
  simp only [execFaultRecordPost, State.ringFor, hwho, whoCore, hlrs, if_true]
  rfl

end

/-! In `faultRecordPost_ring` and `machineCheck_ring` `s.postRecord` is a function of its own, `post`, because the kernel
is not to evaluate the counters of a ring. -/

section
variable {f : FaultRec} (hring : s.ringFor f.req.part (whoCore f.req.who) = some (core, ring))
include hring

/-- A record goes into its ring, or waits for room in it. -/
theorem faultRecordPost_ring : takes (.faultRecordPost f) s
    ((s.postRecord (keyOf core f.req.part) ring (s.recordWords f)).elim (s.park (.faultRecordPost f)) fun u =>
      { u.1 with faults := u.1.faults ++ [{ f with ring := keyOf core f.req.part, slot := u.2 }] }) := by
  obtain ⟨post, hp⟩ : ∃ post, s.postRecord = post := ⟨_, rfl⟩
  show execFaultRecordPost f s = _
  unfold execFaultRecordPost
  rw [hp, hring]
  dsimp only
  cases post (keyOf core f.req.part) ring (s.recordWords f) with
  | none => rfl
  | some u => rfl

theorem faultRecordPost_written
    (hpost : s.postRecord (keyOf core f.req.part) ring (s.recordWords f) = some (t, slot)) :
    takes (.faultRecordPost f) s
      { t with faults := t.faults ++ [{ f with ring := keyOf core f.req.part, slot := slot }] } := by
  have h := faultRecordPost_ring hring
  rw [hpost] at h
  exact h

theorem faultRecordPost_waits (hpost : s.postRecord (keyOf core f.req.part) ring (s.recordWords f) = none) :
    takes (.faultRecordPost f) s (s.park (.faultRecordPost f)) := by
  have h := faultRecordPost_ring hring
  rw [hpost] at h
  exact h

end

section
variable {f : FaultRec} (hwho : f.req.who = .ctx k x) (hwait : (s.ctx k x).wait = some .fault)
include hwho hwait

theorem faultReply_resumes : takes (.faultReply f 0) s (s.reply k x) := by
  show execFaultReply f 0 s = _
  simp only [execFaultReply, hwho, hwait, if_true]
  rfl

theorem faultReply_refuses (hacc : f.req.acc ≠ .atomic) : takes (.faultReply f 1) s (s.trapOf k x 0x04 f.req.va) := by
  show execFaultReply f 1 s = _
  simp only [execFaultReply, hwho, hwait, if_true, State.refuseCtx, hacc, decide_false, Bool.false_and,
    Bool.false_eq_true, if_false]
  rfl

end

/-! ## The context that an error concerns (R277) -/

theorem Core.errorOf_slot {c : Core} {u : Unit2} (h : c.errorCtx u = some (.slot x))
    (hfill : ∀ m ∈ c.fills, m.slot ≠ x) : c.errorOf u = some (.slot x) := by
  have hnone : (c.fills.find? fun m => m.slot = x) = none :=
    List.find?_eq_none.mpr fun m hm => by simpa using hfill m hm
  simp only [Core.errorOf, h, hnone]

/-- A context that is being filled is still in its image. -/
theorem Core.errorOf_fill {c : Core} {u : Unit2} {m : Move} (h : c.errorCtx u = some (.slot m.slot))
    (hfill : c.fills = [m]) : c.errorOf u = some (.image m.off) := by
  simp [Core.errorOf, h, hfill]

theorem Core.errorOf_image {c : Core} {u : Unit2} {off : Nat} (h : c.errorCtx u = some (.image off)) :
    c.errorOf u = some (.image off) := by
  simp only [Core.errorOf, h]

/-- What a context in RUN holds after an error. -/
theorem State.ctx_errorTrap (h : (s.ctx k x).st = .run) :
    (s.errorTrap k x).ctx k x = (s.ctx k x).trapped 0x0D 0 (s.trapLen k x) := by
  unfold State.errorTrap
  dsimp only
  rw [if_neg (by rw [h]; decide)]
  split
  · exact State.ctx_setCtx_self s k x _
  · simp [State.raise, State.ctx, State.setCtx]

theorem State.failed_errorTrap : (s.errorTrap k x).failed = s.failed := by
  unfold State.errorTrap
  dsimp only
  split
  · rfl
  · split <;> rfl

theorem Ctx.st_trapped {c : Ctx} (h : c.st = .run) (cause : Nat) (v : Word) (n : Option Nat) :
    (c.trapped cause v n).st = .trapped :=
  if_neg (by rw [h]; decide)

/-- A change of a core that keeps its contexts. -/
theorem State.ctx_modCore {g : Core → Core} (h : ∀ c, (g c).ctxs = c.ctxs) : (s.modCore k g).ctx k x = s.ctx k x := by
  rw [State.modCore_eq, State.ctx, State.core_setCore_self, h]
  rfl

/-- The vector engine of a core in which an error has come: its registers are zeroed, and nothing is bound to it. -/
def Core.vectorFailed (c : Core) : Core :=
  { c with v := Vector.replicate 32 0, q := Vector.replicate 4 0, vecEng := { c.vecEng with owner := none } }

/-- What a context in RUN that is bound to the vector engine holds after an error in it. -/
theorem State.ctx_vectorFailed (h : (s.ctx k x).st = .run) :
    ((((s.errorTrap k x).modCtx k x fun c => { c with bind := 0 }).modCore k Core.vectorFailed).ctx k x) =
      { (s.ctx k x).trapped 0x0D 0 (s.trapLen k x) with bind := 0 } := by
  rw [State.ctx_modCore (g := Core.vectorFailed) fun _ => rfl, State.modCtx_eq, State.ctx_setCtx_self,
    State.ctx_errorTrap h]

theorem mem_fails (f : Failure) : f ∈ (s.fails f).failed := List.mem_append_right _ (List.mem_singleton_self _)

theorem mem_fails_of_mem {f g : Failure} (h : f ∈ s.failed) : f ∈ (s.fails g).failed := by
  by_cases hfg : f = g
  · subst hfg; exact mem_fails f
  · exact List.mem_append_left _ (List.mem_filter.mpr ⟨h, decide_eq_true hfg⟩)

theorem State.core_vectorFailed (s : State) (k : Nat) :
    (s.modCore k Core.vectorFailed).core k = (s.core k).vectorFailed :=
  State.core_setCore_self s k _

theorem Core.fills_vectorFailed (c : Core) : c.vectorFailed.fills = c.fills := rfl

theorem State.core_fails (s : State) (k : Nat) (f : Failure) : (s.fails f).core k = s.core k := rfl

theorem State.core_post (s : State) (k : Nat) (i : Instr) : (s.post i).core k = s.core k := rfl

theorem State.ctx_post (s : State) (k : Nat) (x : Slot) (i : Instr) : (s.post i).ctx k x = s.ctx k x := rfl

theorem Core.vectorFailed_eq (c : Core) : (c.zeroEngine 1).freeEngine 1 = c.vectorFailed := rfl

/-- An error in a slot traps its context, and the supervisor is told. -/
theorem uncorrectableError_slot (hfill : ∀ m ∈ (s.core k).fills, m.slot ≠ x) :
    let u := (s.fails (.core (coreOf k))).errorTrap k x
    takes (.uncorrectableError k (.slot x)) s (u.post (.machineCheck k x ((u.ctx k x).check 2))) := by
  refine congrArg done (?_ : s.coreError k (.slot x) = _)
  simp only [State.coreError, Core.errorOf_slot (u := .slot x) rfl hfill, unitEngine, if_true]

/-- An error in the vector engine that a context in its slot is bound to. -/
theorem uncorrectableError_vector (howner : (s.core k).vecEng.owner = some (.slot x))
    (hfill : ∀ m ∈ (s.core k).fills, m.slot ≠ x) :
    let u := (((s.fails (.core (coreOf k))).errorTrap k x).modCtx k x fun c => { c with bind := 0 }).modCore k
      Core.vectorFailed
    takes (.uncorrectableError k .vector) s (u.post (.machineCheck k x ((u.ctx k x).check 2))) := by
  refine congrArg done (?_ : s.coreError k .vector = _)
  simp only [State.coreError, Core.errorOf_slot (u := .vector) howner hfill, unitEngine, Nat.one_ne_zero, if_false,
    Core.vectorFailed_eq]

/-- An error in the vector engine that a context in an image is bound to. -/
theorem uncorrectableError_vectorImage {off : Nat} (howner : (s.core k).errorOf .vector = some (.image off)) :
    let u := ((s.fails (.core (coreOf k))).errorImage k off).modCore k Core.vectorFailed
    takes (.uncorrectableError k .vector) s (u.post (.machineCheck k (u.imageSlot k off) (u.imageCheck k off 2))) := by
  refine congrArg done (?_ : s.coreError k .vector = _)
  simp only [State.coreError, howner, unitEngine, Nat.one_ne_zero, if_false, Core.vectorFailed_eq]

/-! ## What the record of a trap in an image leaves of the moves under way (R105) -/

theorem State.fills_setCtx (c : Ctx) : ((s.setCtx k x c).core k).fills = (s.core k).fills := by
  rw [State.core_setCtx_self]

theorem State.fills_hitOwner (o : Owner) : ((s.hitOwner k o).core k).fills = (s.core k).fills := by
  cases o with
  | slot x =>
    rw [State.hitOwner_slot]
    split
    · exact State.fills_setCtx _
    · exact State.fills_setCtx _
  | image off => rfl

theorem State.fills_hits (off n : Nat) : ((s.hits k off n).core k).fills = (s.core k).fills := by
  unfold State.hits
  generalize (s.core k).watches = l
  induction l generalizing s with
  | nil => rfl
  | cons e l ih =>
    rw [List.foldl_cons, ih]
    split
    · exact State.fills_hitOwner _
    · rfl

theorem State.fills_modCore {g : Core → Core} (h : ∀ c, (g c).fills = c.fills) :
    ((s.modCore k g).core k).fills = (s.core k).fills := by
  rw [State.modCore_eq, State.core_setCore_self, h]

theorem State.fills_raise (n : Nat) : ((s.raise k n).core k).fills = (s.core k).fills :=
  State.fills_modCore fun _ => rfl

theorem State.fills_storeLocal (off n v : Nat) : ((s.storeLocal k off n v).core k).fills = (s.core k).fills := by
  rw [State.storeLocal_eq]
  refine Eq.trans ?_ (State.fills_hits (s := s.putBytes k off n v) off n)
  unfold State.spoilRing
  dsimp only
  split
  · exact State.fills_modCore fun _ => rfl
  · rfl

theorem State.fills_errorImage (off : Nat) : ((s.errorImage k off).core k).fills = (s.core k).fills := by
  unfold State.errorImage
  dsimp only
  rw [State.fills_raise]
  simp only [State.fills_storeLocal]

theorem State.imageSlot_filling {m : Move} (h : (s.core k).fills = [m]) : s.imageSlot k m.off = m.slot := by
  simp [State.imageSlot, h]

theorem State.imageSlot_spilled {off : Nat} (h : (s.core k).fills = []) :
    s.imageSlot k off = Fin.ofNat 16 (s.loadLocal k (off + 0x178) 8 / 16) := by
  simp [State.imageSlot, h]

/-- The moves of a core whose vector engine has failed under a context in an image. -/
theorem State.fills_imageFailed (off : Nat) :
    ((((s.fails (.core (coreOf k))).errorImage k off).modCore k Core.vectorFailed).core k).fills =
      (s.core k).fills := by
  rw [State.core_vectorFailed, Core.fills_vectorFailed, State.fills_errorImage, State.core_fails]

/-- The check that tells of an image tells what the image holds. -/
theorem State.mem_flight_imageCheck (s : State) (k off : Nat) (x : Slot) :
    let u := s.post (.machineCheck k x (s.imageCheck k off 2))
    Instr.machineCheck k x
      ⟨2, u.loadLocal k (off + 0x180) 8 % 65536, u.loadLocal k (off + 0x150) 8, u.loadLocal k (off + 0x158) 8,
        u.loadLocal k (off + 0x160) 8⟩ ∈ u.flight :=
  List.mem_append_right _ (List.mem_singleton_self _)

/-! ## Errors of memory and of other units (R178, R280, R331) -/

theorem uncorrectableError_entry {d : Nat} {e : DirEntry} (h : aget s.dir (tagOf d (partOf k)) = some e) :
    takes (.uncorrectableError k (.entry d)) s
      { s with dir := aset s.dir (tagOf d (partOf k)) { e with chk := 2 } } := by
  show execUncorrectableError k (.entry d) s = _
  simp only [execUncorrectableError, h]
  rfl

theorem uncorrectableError_memory {d : Nat} : takes (.uncorrectableError k (.memory d)) s (s.memoryError d) := rfl

/-- The tags under which the partitions that hold a line's die know it. -/
def State.tagsOf (s : State) (line : Nat) : List Nat :=
  (s.parts.filter fun e => e.2.cfg.dies.contains (homeDie line)).map fun e => tagOf line e.1

theorem State.mem_tagsOf (line n : Nat) :
    n ∈ s.tagsOf line ↔ ∃ e ∈ s.parts, homeDie line ∈ e.2.cfg.dies ∧ n = tagOf line e.1 := by
  simp [State.tagsOf, and_assoc, eq_comm]

/-- An error of a line's memory marks the line for every partition that holds its die. -/
theorem State.memoryError_eq (line : Nat) : ∃ l, s.memoryError line =
      { s with failed := l, memErr := s.memErr ++ (s.tagsOf line).filter fun t => !s.memErr.contains t } ∧
    (∀ f, memoryFailure line = some f → f ∈ l) ∧ ∀ f ∈ s.failed, f ∈ l := by
  unfold State.memoryError
  cases h : memoryFailure line with
  | none => exact ⟨s.failed, rfl, fun f hf => by simp at hf, fun f hf => hf⟩
  | some g =>
    refine ⟨(s.fails g).failed, rfl, fun f hf => ?_, fun f => mem_fails_of_mem⟩
    cases hf
    exact mem_fails g

theorem memoryFailure_dram {line n : Nat} (h : place (lineLoc line) = .dram n) :
    memoryFailure line = some (if lineLoc line < 0x10000000000 then .die n else .lpddr n) := by
  simp only [memoryFailure, h]

theorem State.mem_memErr_memoryError (line n : Nat) : n ∈ (s.memoryError line).memErr ↔
    n ∈ s.memErr ∨ ∃ e ∈ s.parts, homeDie line ∈ e.2.cfg.dies ∧ n = tagOf line e.1 := by
  obtain ⟨l, hs, -⟩ := s.memoryError_eq line
  rw [hs, ← State.mem_tagsOf]
  by_cases h : n ∈ s.memErr <;> simp [h]

/-! ## Machine checks (R277, R278) -/

section
variable {c : CheckOf}

theorem machineCheck_fatal (h : isLrs (s.cfg (partOf k)) (coreOf k) = true) :
    takes (.machineCheck k x c) s (s.post (.fatalMachineCheck (partOf k))) := by
  show execMachineCheck k x c s = _
  simp only [execMachineCheck, h, if_true]
  rfl

section
variable (hlrs : isLrs (s.cfg (partOf k)) (coreOf k) = false)
  (hring : lrsOf (s.cfg (partOf k)) (dieOfCore (coreOf k)) = some (core, ring))
include hlrs hring

/-- A check goes into the ring of its supervisor, or waits for room in it. -/
theorem machineCheck_ring : takes (.machineCheck k x c) s
    ((s.postRecord (keyOf core (partOf k)) ring (checkWords k x c)).elim (s.park (.machineCheck k x c)) fun u =>
      { u.1 with checks := u.1.checks ++ [⟨k, x, c.source, keyOf core (partOf k), u.2⟩] }) := by
  obtain ⟨post, hp⟩ : ∃ post, s.postRecord = post := ⟨_, rfl⟩
  show execMachineCheck k x c s = _
  unfold execMachineCheck
  dsimp only
  rw [hp, hlrs, if_neg Bool.false_ne_true, hring]
  dsimp only
  cases post (keyOf core (partOf k)) ring (checkWords k x c) with
  | none => rfl
  | some u => rfl

theorem machineCheck_recorded (hpost : s.postRecord (keyOf core (partOf k)) ring (checkWords k x c) = some (t, slot)) :
    takes (.machineCheck k x c) s
      { t with checks := t.checks ++ [⟨k, x, c.source, keyOf core (partOf k), slot⟩] } := by
  have h := machineCheck_ring (x := x) (c := c) hlrs hring
  rw [hpost] at h
  exact h

theorem machineCheck_waits (hpost : s.postRecord (keyOf core (partOf k)) ring (checkWords k x c) = none) :
    takes (.machineCheck k x c) s (s.park (.machineCheck k x c)) := by
  have h := machineCheck_ring (x := x) (c := c) hlrs hring
  rw [hpost] at h
  exact h

end
end

/-- A core whose supervisor lets it go on: deliveries are off, and SVC is raised (R277). -/
def Core.resumed (c : Core) : Core := { c with delivery := false, event := c.event ||| 0x100 }

/-- The core that a machine check of its context 0 stopped goes on at the event vector. -/
theorem machineCheckReply_resumes :
    let u := s.modCore k Core.resumed
    takes (.machineCheckReply k x 1 0) s (u.setCtx k x
      { (u.ctx k x).settled with st := .run, pc := (u.core k).evec, trapRec := false, skip := false }) := rfl

end

end Sys2Proof.Machine
end

section

open Sys2Proof Sys2Proof.Machine

/-- Settles O56: each clause is one way in which a walk, a record, an error or a machine check goes on. -/
theorem faultSteps : Obligations.FaultSteps := by
  intro s s1 s2 t k p ring core slot d off id x r f pte va twin lv pa base w data e check unit w0 w1
  refine ⟨?illegal, ⟨podResolve_notPod, fun q hq => ⟨fun hmem hadmit hread => ?reads, fun h => ?noMemory⟩,
      run_readHome_none⟩,
    ⟨run_walkLevel_poison, fun hbad => ⟨run_walkLevel_refused hbad, fun hread => ?entry⟩⟩, badLeaf_iff pte lv,
    run_walkFrom_found, run_walkFrom_below, ⟨run_walkTable_poison, fun hbad => ⟨run_walkTable_noEntry hbad,
      fun hread => ⟨fun hbadEntry => (run_walkTable_entry hbad hread).trans (if_pos hbadEntry),
        run_walkTable_goesDown hbad hread⟩⟩⟩,
    fun hroom => ⟨State.cachedLeaf_cacheLeaf hroom, fun o => State.mem_cacheLeaf, fun n => State.die_cacheLeaf⟩,
    fun hwants => ⟨fun m => translationWalk_waits hwants, translationWalk_failed hwants⟩,
    fun hwho hacc hwait hwait1 => ⟨fun c v htwin h => ?twinTraps, fun htwin => ⟨fun h => ⟨?admitted, ?cow, ?unreached⟩,
      fun h => ⟨?absent, ?knownPoison, ?twinRefused⟩, fun h => ?refused, fun h => ⟨?poison, ?twinPoison⟩⟩⟩,
    fun hwho hask => ⟨fun h hok => ⟨?jobAdmitted, ?jobUnreached⟩, fun h => ?jobRefused⟩,
    rfl, fun hwho => ⟨fun hlrs hring => ⟨fun hpost => ?recorded, fun hpost => ?parked⟩, faultRecordPost_fatal hwho⟩,
    fun hwho hwait hacc => ⟨faultReply_resumes hwho hwait, faultReply_refuses hwho hwait hacc⟩,
    fun hrun hfill => ⟨_, uncorrectableError_slot hfill, ?slot⟩,
    fun howner hrun hfill => ⟨_, uncorrectableError_vector howner hfill, ?vector⟩,
    fun m hfill howner => ⟨_, uncorrectableError_vectorImage (Core.errorOf_fill howner hfill), ?filling⟩,
    fun howner hfill => ?image, uncorrectableError_entry, ⟨_, uncorrectableError_memory, ?memory⟩, rfl,
    ⟨machineCheck_fatal, fun hlrs hring => ⟨machineCheck_recorded hlrs hring, machineCheck_waits hlrs hring⟩⟩,
    ⟨_, machineCheckReply_resumes, ?resumed⟩, rfl, ⟨_, rfl, ?stopped⟩⟩
  case illegal => exact congrArg (fun v => done (s.trap 0x01 v)) (illegalVal_eq w0 w1)
  case reads => exact run_readHome_reads hq ((fetchable_iff _).mpr hmem) hadmit hread
  case noMemory =>
    refine run_readHome_noMemory hq (h.imp_left fun hmem => ?_)
    rw [← Bool.not_eq_true, fetchable_iff]
    exact not_or.mpr ⟨not_exists.mpr hmem.1, not_exists.mpr hmem.2⟩
  case entry =>
    have hleads := run_walkLevel_entry hbad hread
    have hresult {u v : Walked ⊕ Nat} (h : u = v) : EStateM.Result.ok u s1 = EStateM.Result.ok (ε := Stop) v s1 :=
      congrArg (EStateM.Result.ok · s1) h
    refine ⟨fun h0 => levelOf_absent h0 ▸ hleads, fun h1 hrwx => ?table, fun h1 hrwx => ?leaf⟩
    case table =>
      rw [levelOf_valid h1, if_pos hrwx] at hleads
      exact ⟨fun h => hleads.trans (hresult (if_pos h)),
        fun hlv htop => hleads.trans (hresult (if_neg (not_or.mpr ⟨hlv, not_not.mpr htop⟩)))⟩
    case leaf =>
      rw [levelOf_valid h1, if_neg hrwx] at hleads
      exact ⟨fun h => hleads.trans (hresult (if_pos h)),
        fun h => hleads.trans (hresult (if_neg (Bool.eq_false_iff.mp h)))⟩
  case twinTraps =>
    rcases h with ⟨n, u, h⟩ | h | h
    · exact translationWalk_twinTraps hwho hacc htwin hwait hwait1 h nofun
    · exact translationWalk_twinTraps hwho hacc htwin hwait hwait1 h nofun
    · exact translationWalk_twinTraps hwho hacc htwin hwait hwait1 h nofun
  case admitted =>
    exact fun hok hreach =>
      translationWalk_found (State.wants_ctx hwho hwait) h (walkEnds_leaf_ctx hreach hok hwho)
  case cow =>
    intro hcow hreach hnone
    refine translationWalk_found (State.wants_ctx hwho hwait) h (u := ()) ((walkEnds_leaf_cow hreach hcow).trans ?_)
    rw [← State.faulted_ctx hwho]
    exact walkFault_posts (run_twinRefusal_none hnone)
  case unreached =>
    exact fun hno => translationWalk_traps hwho hacc htwin hwait h hwait1 (walkEnds_leaf_refused hno)
  case absent =>
    intro hnone
    refine translationWalk_found (State.wants_ctx hwho hwait) h (u := ()) ?_
    rw [← State.faulted_ctx hwho]
    exact walkFault_posts (run_twinRefusal_none hnone)
  case knownPoison =>
    intro fresh hknown hbad
    refine translationWalk_traps hwho hacc htwin hwait h hwait1 (walkFault_twinTraps ?_)
    exact (run_twinRefusal_known hknown).trans (congrArg (fun o => EStateM.Result.ok o s1) (if_pos hbad))
  case twinRefused =>
    exact fun hwalk hmiss hwait2 hrefused => translationWalk_traps hwho hacc htwin hwait h hwait2
      (walkFault_twinTraps (run_twinRefusal_refused hwalk hmiss hrefused))
  case refused => exact translationWalk_traps hwho hacc htwin hwait h hwait1 (v := r.va) rfl
  case poison =>
    intro hother
    refine translationWalk_traps hwho hacc htwin hwait h hwait1 (v := r.va) ?_
    rcases hother with hnone | ⟨base, fresh, hknown⟩
    · exact walkEnds_poison (run_twinRefusal_none hnone) nofun
    · exact walkEnds_poison (run_twinRefusal_known hknown) fun v => State.poisonAt_ne_refusal _ v _ _
  case twinPoison =>
    intro hwalk hmiss hwait2
    refine ⟨fun hrefused => translationWalk_traps hwho hacc htwin hwait h hwait2
      (walkEnds_poison_twinRefused (run_twinRefusal_refused hwalk hmiss hrefused)), fun hpoison => ?_⟩
    exact translationWalk_traps hwho hacc htwin hwait h hwait2 (v := r.va)
      (walkEnds_poison (run_twinRefusal_poison hwalk hmiss hpoison) fun v => by simp)
  case jobAdmitted =>
    exact fun hreach => translationWalk_found (State.wants_job hwho hask) h (walkEnds_leaf_job hreach hok hwho)
  case jobUnreached =>
    intro hno
    rw [← State.refuse_job hwho]
    exact translationWalk_found (State.wants_job hwho hask) h (walkEnds_leaf_refused (.inr hno))
  case jobRefused =>
    rw [← State.refuse_job hwho]
    exact translationWalk_found (State.wants_job hwho hask) h (u := ()) rfl
  case recorded =>
    rw [← State.recordWords_ctx hwho] at hpost
    exact faultRecordPost_written (State.ringFor_ctx hwho hlrs hring) hpost
  case parked =>
    rw [← State.recordWords_ctx hwho] at hpost
    exact faultRecordPost_waits (State.ringFor_ctx hwho hlrs hring) hpost
  case slot =>
    have hctx := State.ctx_errorTrap (s := s.fails (.core (coreOf k))) hrun
    refine ⟨(congrArg Ctx.st hctx).trans (Ctx.st_trapped hrun ..), congrArg Ctx.cause hctx, ?_, congrArg Ctx.epc hctx,
      congrArg Ctx.tval hctx, ?_⟩
    · exact State.failed_errorTrap (s := s.fails (.core (coreOf k))) ▸ mem_fails _
    · rw [hctx]
      exact List.mem_append_right _ (List.mem_singleton_self _)
  case vector =>
    have hctx := State.ctx_vectorFailed (s := s.fails (.core (coreOf k))) hrun
    rw [State.ctx_post, State.core_post, State.core_vectorFailed, hctx]
    refine ⟨Ctx.st_trapped (c := s.ctx k x) hrun 0x0D 0 (s.trapLen k x), rfl, rfl, rfl, ?_⟩
    exact List.mem_append_right _ (List.mem_singleton_self _)
  case filling =>
    refine ⟨by rw [State.core_post, State.core_vectorFailed]; rfl, ?_⟩
    rw [State.imageSlot_filling ((State.fills_imageFailed m.off).trans hfill)]
    exact State.mem_flight_imageCheck ..
  case image =>
    have h := uncorrectableError_vectorImage (Core.errorOf_image (u := .vector) howner)
    dsimp only at h
    rw [State.imageSlot_spilled ((State.fills_imageFailed off).trans hfill)] at h
    exact h
  case memory =>
    obtain ⟨l, hs, hnew, hkept⟩ := s.memoryError_eq d
    refine ⟨?_, fun n hn => ?_, fun f hf => ?_, State.mem_memErr_memoryError d⟩
    · rw [hs]
    · rw [hs]
      exact hnew _ (memoryFailure_dram hn)
    · rw [hs]
      exact hkept f hf
  case resumed =>
    dsimp only
    rw [State.ctx_setCtx_self, State.core_setCtx_self, State.ctx_modCore (g := Core.resumed) fun _ => rfl,
      State.modCore_eq, State.core_setCore_self]
    exact ⟨rfl, rfl, rfl, rfl, rfl, rfl⟩
  case stopped =>
    exact ⟨congrArg Part.stopped (State.part_setPart_self ..), rfl, fun q hq => State.part_setPart_ne s _ hq, rfl, rfl⟩
end

section
/-! SUPPORT. The reset of a die (R296) while an eviction of its partition is on its way to that die's memory. The
reset drops the write and lets it arrive, and an eviction that counts as lost there raises SVC on the service core of
its partition (R188), which may be a core of the very die that has just been zeroed. -/

namespace Sys2Proof.Machine

/-- What the reset of one die makes of the machine. -/
def State.dieReset (s : State) (d : Nat) : State :=
  (s.affected [d]).foldl (fun s e => s.dropDie e.1 d) ((s.scrub [d]).revoke (s.affected [d]))

theorem partitionReset_die (s : State) (d : Nat) : exec (.partitionReset (.die d)) s = .next (s.dieReset d) := rfl

/-- A core that is as at reset has no event pending. -/
theorem core_ne_reset_of_event {s : State} {k : Nat} (h : (s.core k).event ≠ 0) : s.core k ≠ Core.reset := by
  intro hreset
  exact h (congrArg Core.event hreset)

/-- An eviction bound for module 5 of the pod, though its address lies in the memory of die 0. -/
def astrayEviction : Posted := ⟨.evict 0, .pod 5 0, 0, 0, 0x21000, 1, 0⟩

/-- The eviction is under way in partition 0, which holds die 0 alone, has core 1 as its service core, and reaches no
other module, having no scale-up port. -/
def evictingAstray : State := { State.reset.ready with flight := [.postedWriteArrival astrayEviction] }

/-- SVC stands on the service core, whose die was reset. -/
theorem event_dieReset_evictingAstray :
    ((evictingAstray.dieReset 0).core (keyOf 1 0)).event = BitVec.ofNat 9 (2 ^ evSvc) := by decide +kernel

end Sys2Proof.Machine
end

section

open Sys2Proof Sys2Proof.Machine

/-- Refutes O58: a reset of one die does not leave every core of it as at reset. The counterexample has a posted
eviction whose home is in another module while its address lies on the die; the statement asks it of every state, and
the model posts an eviction only with the home that its address has (R128). -/
theorem not_partitionSteps : ¬ Obligations.PartitionSteps := by
  intro h
  obtain ⟨-, -, -, -, -, -, -, ⟨t, hreset, -, -, -, hcores⟩, -⟩ := h evictingAstray 0 0 0 State.emptyCfg [] []
  obtain rfl : evictingAstray.dieReset 0 = t :=
    Host.Outcome.next.inj ((partitionReset_die evictingAstray 0).symm.trans hreset)
  have hevent : ((evictingAstray.dieReset 0).core (keyOf 1 0)).event ≠ 0 := by
    rw [event_dieReset_evictingAstray]
    decide
  exact core_ne_reset_of_event hevent (hcores (keyOf 1 0) (by decide))
end

section
/-! SUPPORT. The arithmetic of register values, in the terms of R67: what each operation on words is as a number
brought back by `wrapU` or `wrapS`, and how an integer instruction gives its result. -/

namespace Sys2Proof.Machine

/-! ## Words as numbers (R67) -/

section
variable (x y : Word) (n : Nat)

theorem wrapU_U : wrapU (U x) = x := (BitVec.ofNat_toNat 64 x).trans (BitVec.setWidth_eq x)

theorem U_wrapU : U (wrapU n) = n % 2 ^ 64 := BitVec.toNat_ofNat n 64

theorem wrapS_S : wrapS (S x) = x := BitVec.ofInt_toInt

theorem mul_eq_wrapU : x * y = wrapU (U x * U y) := by
  rw [wrapU, BitVec.ofNat_mul]
  exact congrArg₂ (· * ·) (wrapU_U x).symm (wrapU_U y).symm

theorem add_eq_wrapS : x + y = wrapS (S x + S y) := by
  rw [wrapS, BitVec.ofInt_add]
  exact congrArg₂ (· + ·) (wrapS_S x).symm (wrapS_S y).symm

theorem sub_eq_wrapS : x - y = wrapS (S x - S y) := by
  rw [wrapS, sub_eq_add_neg (S x), BitVec.ofInt_add, BitVec.ofInt_neg, BitVec.sub_eq_add_neg]
  exact congrArg₂ (· + -·) (wrapS_S x).symm (wrapS_S y).symm

theorem shiftLeft_eq_wrapU : x <<< n = wrapU (U x * 2 ^ n) := by
  apply BitVec.eq_of_toNat_eq
  rw [BitVec.toNat_shiftLeft, Nat.shiftLeft_eq, BitVec.toNat_ofNat]

theorem ushiftRight_eq_wrapU : x >>> n = wrapU (U x / 2 ^ n) := by
  rw [← Nat.shiftRight_eq_div_pow, ← BitVec.toNat_ushiftRight, wrapU_U]

theorem sshiftRight_eq_wrapS : x.sshiftRight n = wrapS (S x / 2 ^ n) := by
  rw [BitVec.sshiftRight_eq, Int.shiftRight_eq_div_pow]
  push_cast
  rfl

theorem count6_eq : count6 y = U y % 64 := by rw [count6, BitVec.extractLsb'_toNat]; rfl

theorem count5_eq : count5 y = U y % 32 := by rw [count5, BitVec.extractLsb'_toNat]; rfl

theorem zext_eq_wrapU {w : Nat} (i : BitVec w) : zext i = wrapU i.toNat := (BitVec.ofNat_toNat 64 i).symm

end

/-! ## Values of 32 bits (R67) -/

/-- The low 32 bits alone decide what is sign-extended. -/
theorem se32_congr {x y : Word} (h : U x % 2 ^ 32 = U y % 2 ^ 32) : se32 x = se32 y := by
  have hlow : x.truncate 32 = y.truncate 32 := BitVec.eq_of_toNat_eq (by simpa using h)
  rw [se32, se32, hlow]

theorem se32_wrapU_congr {m n : Nat} (h : m ≡ n [MOD 2 ^ 32]) : se32 (wrapU m) = se32 (wrapU n) := by
  apply se32_congr
  rw [U_wrapU, U_wrapU, Nat.mod_mod_of_dvd _ (by decide), Nat.mod_mod_of_dvd _ (by decide)]
  exact h

theorem zext_low_eq_wrapU (x : Word) : zext (x.extractLsb' 0 32) = wrapU (U x % 2 ^ 32) := by
  rw [zext_eq_wrapU, BitVec.extractLsb'_toNat, Nat.shiftRight_zero]

theorem zext_low_ushiftRight_eq_wrapU (x : Word) (n : Nat) :
    zext (x.extractLsb' 0 32) >>> n = wrapU (U x % 2 ^ 32 / 2 ^ n) := by
  rw [ushiftRight_eq_wrapU, zext_low_eq_wrapU, U_wrapU, Nat.mod_eq_of_lt (b := 2 ^ 64) (by omega)]

theorem append_low_eq_wrapU (j : BitVec 32) (x : Word) :
    j ++ x.extractLsb' 0 32 = wrapU (j.toNat * 2 ^ 32 + U x % 2 ^ 32) := by
  rw [← wrapU_U (j ++ _), U, BitVec.toNat_append, BitVec.extractLsb'_toNat, Nat.shiftRight_zero,
    Nat.shiftLeft_add_eq_or_of_lt (Nat.mod_lt _ (by decide)) j.toNat |>.symm, Nat.shiftLeft_eq]

/-! ## Choices (R68, R70) -/

section
variable {b : Bool} {p : Prop} [Decidable p] (h : b = true ↔ p)
include h

theorem ofBool_eq_ite : ofBool b = if p then 1 else 0 := by
  unfold ofBool
  simp only [h]

theorem pick_eq_ite (x y : Word) : pick b x y = if p then x else y := by
  unfold pick
  simp only [h]

end

/-! ## Products, quotients and remainders (R69) -/

theorem high64_unsigned (m n : Nat) : high64 (m * n) = wrapU (m * n / 2 ^ 64) := by
  rw [high64, wrapU, ← BitVec.ofInt_natCast]
  push_cast
  rfl

theorem divideU_eq (x y : Word) : divideU x y = if y = 0 then 0xFFFFFFFFFFFFFFFF else wrapU (U x / U y) := by
  rw [divideU, BitVec.udiv_def]
  rfl

theorem remainderU_eq (x y : Word) : remainderU x y = if y = 0 then x else wrapU (U x % U y) := by
  rw [remainderU, BitVec.umod_def]

theorem divide_eq (x y : Word) :
    divide x y = if y = 0 then 0xFFFFFFFFFFFFFFFF else wrapS ((S x).tdiv (S y)) := rfl

theorem remainder_eq (x y : Word) : remainder x y = if y = 0 then x else wrapS ((S x).tmod (S y)) := by
  rw [remainder, Int.tmod_def]

/-! ## How an integer instruction gives its result -/

section
variable {s : State} {i : Instr} {d a b : Reg} {v : Word}

theorem gives_of_result {rs : List Reg} (f : State → Word) (hready : s.pendingOf rs = false)
    (hi : exec i s = issue rs s fun s => s.result d (f s)) (hv : f s = v) : gives s i d v :=
  hi.trans ((issue_ready hready).trans (congrArg (done <| s.result d ·) hv))

theorem gives_of_binary (f : Word → Word → Word) (hready : s.pendingOf [d, a, b] = false)
    (hi : exec i s = binary d a b f s) (hv : f (s.rg a) (s.rg b) = v) : gives s i d v :=
  gives_of_result (fun s => f (s.rg a) (s.rg b)) hready hi hv

theorem gives_of_unary (f : Word → Word) (hready : s.pendingOf [d, a] = false) (hi : exec i s = unary d a f s)
    (hv : f (s.rg a) = v) : gives s i d v :=
  gives_of_result (fun s => f (s.rg a)) hready hi hv

end

end Sys2Proof.Machine
end

section

open Sys2Proof Sys2Proof.Machine

/-- Settles O9: each function is its operation on words, read as one on numbers. -/
theorem aluFunctions : Obligations.AluFunctions := by
  unfold Obligations.AluFunctions
  intro s d a b hready x y
  refine ⟨gives_of_binary (fun x y => x + y) hready rfl ?add,
    gives_of_binary (fun x y => x - y) hready rfl ?sub,
    gives_of_binary (fun x y => x &&& y) hready rfl rfl,
    gives_of_binary (fun x y => x ||| y) hready rfl rfl,
    gives_of_binary (fun x y => x ^^^ y) hready rfl rfl,
    gives_of_binary (fun x y => x &&& ~~~y) hready rfl rfl,
    gives_of_binary (fun x y => x <<< count6 y) hready rfl ?shl,
    gives_of_binary (fun x y => x >>> count6 y) hready rfl ?shr,
    gives_of_binary (fun x y => x.sshiftRight (count6 y)) hready rfl ?sar,
    gives_of_binary (fun x y => se32 (x + y)) hready rfl ?addw,
    gives_of_binary (fun x y => se32 (x - y)) hready rfl ?subw,
    gives_of_binary (fun x y => se32 (x <<< count5 y)) hready rfl ?shlw,
    gives_of_binary (fun x y => se32 (zext (x.extractLsb' 0 32) >>> count5 y)) hready rfl ?shrw,
    gives_of_binary (fun x y => se32 ((se32 x).sshiftRight (count5 y))) hready rfl ?sarw,
    gives_of_binary (fun x y => pick (x.sle y) x y) hready rfl ?min,
    gives_of_binary (fun x y => pick (y.sle x) x y) hready rfl ?max,
    gives_of_binary (fun x y => pick (x.ule y) x y) hready rfl ?minu,
    gives_of_binary (fun x y => pick (y.ule x) x y) hready rfl ?maxu,
    gives_of_result (fun s => if s.rg d ≠ 0 then s.rg a else s.rg b) hready rfl rfl⟩
  case add => exact BitVec.add_def x y
  case sub => exact sub_eq_wrapS x y
  case shl => exact count6_eq y ▸ shiftLeft_eq_wrapU x _
  case shr => exact count6_eq y ▸ ushiftRight_eq_wrapU x _
  case sar => exact count6_eq y ▸ sshiftRight_eq_wrapS x _
  case addw => exact congrArg se32 (BitVec.add_def x y)
  case subw => exact congrArg se32 (sub_eq_wrapS x y)
  case shlw =>
    show se32 (x <<< count5 y) = _
    rw [count5_eq, shiftLeft_eq_wrapU]
    exact se32_wrapU_congr ((Nat.mod_modEq _ _).symm.mul_right _)
  case shrw =>
    show se32 (zext (x.extractLsb' 0 32) >>> count5 y) = _
    rw [count5_eq, zext_low_ushiftRight_eq_wrapU]
  case sarw => exact congrArg se32 (count5_eq y ▸ sshiftRight_eq_wrapS (se32 x) _)
  case min => exact pick_eq_ite BitVec.sle_iff_toInt_le x y
  case max => exact pick_eq_ite BitVec.sle_iff_toInt_le x y
  case minu => exact pick_eq_ite BitVec.ule_iff_toNat_le x y
  case maxu => exact pick_eq_ite BitVec.ule_iff_toNat_le x y

/-- Settles O10: products are exact before they are cut, and the two borderline quotients are computed. -/
theorem mulFunctions : Obligations.MulFunctions := by
  unfold Obligations.MulFunctions
  intro s d a b hready x y
  refine ⟨gives_of_binary (fun x y => x * y) hready rfl (mul_eq_wrapU x y),
    gives_of_binary (fun x y => high64 (x.toInt * y.toInt)) hready rfl rfl,
    gives_of_binary (fun x y => high64 (x.toNat * y.toNat)) hready rfl (high64_unsigned (U x) (U y)),
    gives_of_binary (fun x y => se32 (x * y)) hready rfl ?mulw,
    gives_of_binary divide hready rfl (divide_eq x y),
    gives_of_binary divideU hready rfl (divideU_eq x y),
    gives_of_binary remainder hready rfl (remainder_eq x y),
    gives_of_binary remainderU hready rfl (remainderU_eq x y),
    fun hx hy => ⟨gives_of_binary divide hready rfl ?div, gives_of_binary remainder hready rfl ?rem⟩⟩
  case mulw =>
    show se32 (x * y) = _
    rw [mul_eq_wrapU]
    exact se32_wrapU_congr ((Nat.mod_modEq _ _).symm.mul (Nat.mod_modEq _ _).symm)
  case div =>
    show divide x y = _
    rw [hx, hy]
    rfl
  case rem =>
    show remainder x y = _
    rw [hx, hy]
    rfl

/-- Settles O11: each comparison of words is one of numbers. -/
theorem compareFunctions : Obligations.CompareFunctions := by
  unfold Obligations.CompareFunctions
  intro s d a b hready x y
  exact ⟨gives_of_binary (fun x y => ofBool (x == y)) hready rfl (ofBool_eq_ite beq_iff_eq),
    gives_of_binary (fun x y => ofBool (x != y)) hready rfl (ofBool_eq_ite bne_iff_ne),
    gives_of_binary (fun x y => ofBool (x.slt y)) hready rfl (ofBool_eq_ite BitVec.slt_iff_toInt_lt),
    gives_of_binary (fun x y => ofBool (x.ult y)) hready rfl (ofBool_eq_ite BitVec.ult_iff_toNat_lt),
    gives_of_binary (fun x y => ofBool (x.sle y)) hready rfl (ofBool_eq_ite BitVec.sle_iff_toInt_le),
    gives_of_binary (fun x y => ofBool (x.ule y)) hready rfl (ofBool_eq_ite BitVec.ule_iff_toNat_le)⟩

/-- Settles O13: an immediate is extended to a word, and the function is that of the register form. -/
theorem immediateFunctions : Obligations.ImmediateFunctions := by
  unfold Obligations.ImmediateFunctions
  intro s d a i n j hready x
  have hi : S (imm16 i) = i.toInt := BitVec.toInt_signExtend_of_le (by decide)
  have hj : S (imm32 j) = j.toInt := BitVec.toInt_signExtend_of_le (by decide)
  have hd : s.pendingOf [d] = false := pendingOf_of_subset hready (by simp)
  refine ⟨gives_of_unary (fun x => x + imm16 i) hready rfl ?add,
    gives_of_unary (fun x => x &&& zext i) hready rfl ?and,
    gives_of_unary (fun x => x ||| zext i) hready rfl ?or,
    gives_of_unary (fun x => x ^^^ zext i) hready rfl ?xor,
    gives_of_unary (fun x => x <<< n.toNat) hready rfl (shiftLeft_eq_wrapU x _),
    gives_of_unary (fun x => x >>> n.toNat) hready rfl (ushiftRight_eq_wrapU x _),
    gives_of_unary (fun x => x.sshiftRight n.toNat) hready rfl (sshiftRight_eq_wrapS x _),
    gives_of_unary (fun x => se32 (x + imm16 i)) hready rfl ?addw,
    gives_of_result (fun _ => se32 (zext i <<< 16)) hd rfl ?lui,
    gives_of_unary (fun x => ofBool (x.slt (imm16 i))) hready rfl ?slt,
    gives_of_result (fun _ => imm32 j) hd rfl rfl,
    gives_of_unary (fun x => j ++ x.extractLsb' 0 32) hready rfl (append_low_eq_wrapU j x),
    gives_of_unary (fun x => x + imm32 j) hready rfl ?lngAdd,
    gives_of_unary (fun x => x &&& imm32 j) hready rfl rfl,
    gives_of_unary (fun x => x ||| zext j) hready rfl ?lngOr,
    gives_of_unary (fun x => x ^^^ zext j) hready rfl ?lngXor,
    gives_of_result (fun s => s.pc + imm32 j) hd rfl rfl⟩
  case add => exact hi ▸ add_eq_wrapS x _
  case and => exact congrArg (x &&& ·) (zext_eq_wrapU i)
  case or => exact congrArg (x ||| ·) (zext_eq_wrapU i)
  case xor => exact congrArg (x ^^^ ·) (zext_eq_wrapU i)
  case addw => exact congrArg se32 (hi ▸ add_eq_wrapS x _)
  case lui =>
    have himm : U (zext i) = i.toNat := BitVec.toNat_setWidth_of_le (by decide)
    rw [shiftLeft_eq_wrapU, himm]
    rfl
  case slt => exact ofBool_eq_ite (hi ▸ BitVec.slt_iff_toInt_lt)
  case lngAdd => exact hj ▸ add_eq_wrapS x _
  case lngOr => exact congrArg (x ||| ·) (zext_eq_wrapU j)
  case lngXor => exact congrArg (x ^^^ ·) (zext_eq_wrapU j)
end

section
/-! SUPPORT. Fields, counts and bytes of a word, bit by bit (R71). -/

namespace Sys2Proof.Machine

/-! ## The field that a register describes -/

section
variable (f : Word)

theorem fieldLo_eq : fieldLo f = U f % 64 := by rw [fieldLo, BitVec.extractLsb'_toNat]; rfl

theorem fieldWidth_eq : fieldWidth f = min (U f / 256 % 64 + 1) (64 - fieldLo f) := by
  rw [fieldWidth, BitVec.extractLsb'_toNat, Nat.shiftRight_eq_div_pow]

theorem fieldLo_lt : fieldLo f < 64 := fieldLo_eq f ▸ Nat.mod_lt _ (by decide)

theorem fieldWidth_pos : 0 < fieldWidth f := by
  have := fieldLo_lt f
  unfold fieldWidth
  omega

theorem fieldEnd_le : fieldLo f + fieldWidth f ≤ 64 := by
  have := fieldLo_lt f
  unfold fieldWidth
  omega

end

/-! ## Extraction and insertion -/

section
variable {i : Nat} (hi : i < 64) (x f : Word)
include hi

/-- The field stands at the top of the word before it is shifted down again. -/
theorem getLsbD_field_at_top :
    ((x >>> fieldLo f) <<< (64 - fieldWidth f)).getLsbD i =
      (!decide (i < 64 - fieldWidth f) && x.getLsbD (fieldLo f + (i - (64 - fieldWidth f)))) := by
  rw [BitVec.getLsbD_shiftLeft, BitVec.getLsbD_ushiftRight, decide_eq_true hi, Bool.true_and]

theorem getLsbD_extractFieldU :
    (extractFieldU x f).getLsbD i = if i < fieldWidth f then x.getLsbD (fieldLo f + i) else false := by
  have hw := fieldEnd_le f
  unfold extractFieldU
  dsimp only
  rw [BitVec.getLsbD_ushiftRight]
  split
  next h =>
    rw [getLsbD_field_at_top (by omega), decide_eq_false (by omega), Nat.add_sub_cancel_left]
    rfl
  next h => exact BitVec.getLsbD_of_ge _ _ (by omega)

theorem getLsbD_extractField :
    (extractField x f).getLsbD i =
      if i < fieldWidth f then x.getLsbD (fieldLo f + i) else x.getLsbD (fieldLo f + fieldWidth f - 1) := by
  have hw := fieldEnd_le f
  have hpos := fieldWidth_pos f
  unfold extractField
  dsimp only
  rw [BitVec.getLsbD_sshiftRight, decide_eq_false (by omega), Bool.not_false, Bool.true_and]
  split
  next h =>
    rw [getLsbD_field_at_top (by omega), decide_eq_false (by omega), if_pos (by omega), Nat.add_sub_cancel_left]
    rfl
  next h =>
    have htop : fieldLo f + (64 - 1 - (64 - fieldWidth f)) = fieldLo f + fieldWidth f - 1 := by omega
    rw [BitVec.msb_eq_getLsbD_last, getLsbD_field_at_top (by omega), decide_eq_false (by omega), if_neg (by omega),
      htop]
    rfl

/-- The bits of the mask that covers a field. -/
theorem getLsbD_fieldMask (lo w : Nat) :
    (BitVec.ofNat 64 ((2 ^ w - 1) * 2 ^ lo)).getLsbD i = decide (lo ≤ i ∧ i < lo + w) := by
  rw [BitVec.getLsbD_ofNat, decide_eq_true hi, Bool.true_and, Nat.testBit_mul_two_pow, Nat.testBit_two_pow_sub_one,
    ← Bool.decide_and]
  exact decide_eq_decide.mpr (by omega)

theorem getLsbD_insertField (old : Word) :
    (insertField old x f).getLsbD i =
      if fieldLo f ≤ i ∧ i < fieldLo f + fieldWidth f then x.getLsbD (i - fieldLo f) else old.getLsbD i := by
  unfold insertField
  simp only [BitVec.getLsbD_or, BitVec.getLsbD_and, BitVec.getLsbD_not, BitVec.getLsbD_shiftLeft,
    getLsbD_fieldMask hi]
  split
  next h => simp [h, hi]
  next h => simp [h, hi]

end

/-! ## Counts -/

section
variable (x : Word)

theorem clz_le (n : Nat) : clz x n ≤ n := by
  induction n with
  | zero => exact Nat.le_refl _
  | succ n ih =>
    unfold clz
    split <;> omega

/-- What `clz` says of the low `n` bits: the bits it counted from the top are zero, and the next is one. -/
theorem clz_spec (n : Nat) :
    (∀ i < clz x n, x.getLsbD (n - 1 - i) = false) ∧ (clz x n < n → x.getLsbD (n - 1 - clz x n) = true) := by
  induction n with
  | zero => exact ⟨nofun, nofun⟩
  | succ n ih =>
    obtain ⟨hzero, hone⟩ := ih
    unfold clz
    split
    next htop => exact ⟨nofun, fun _ => htop⟩
    next htop =>
      have hnext : ∀ i, n + 1 - 1 - (1 + i) = n - 1 - i := by omega
      refine ⟨fun i hi => ?_, fun hlt => ?_⟩
      · cases i with
        | zero => exact Bool.eq_false_iff.mpr htop
        | succ i =>
          rw [Nat.add_comm i, hnext]
          exact hzero i (by omega)
      · rw [hnext]
        exact hone (by omega)

theorem ctz_le (i n : Nat) : ctz x i n ≤ n := by
  induction n generalizing i with
  | zero => exact Nat.le_refl _
  | succ n ih =>
    have := ih (i + 1)
    unfold ctz
    split <;> omega

/-- What `ctz` says of the `n` bits from bit `i`: the bits it counted are zero, and the next is one. -/
theorem ctz_spec (i n : Nat) :
    (∀ j < ctz x i n, x.getLsbD (i + j) = false) ∧ (ctz x i n < n → x.getLsbD (i + ctz x i n) = true) := by
  induction n generalizing i with
  | zero => exact ⟨nofun, nofun⟩
  | succ n ih =>
    obtain ⟨hzero, hone⟩ := ih (i + 1)
    unfold ctz
    split
    next hlow => exact ⟨nofun, fun _ => hlow⟩
    next hlow =>
      refine ⟨fun j hj => ?_, fun hlt => ?_⟩
      · cases j with
        | zero => exact Bool.eq_false_iff.mpr hlow
        | succ j =>
          rw [Nat.add_comm j, ← Nat.add_assoc]
          exact hzero j (by omega)
      · rw [← Nat.add_assoc]
        exact hone (by omega)

theorem popcount_eq (n : Nat) : popcount x n = ((List.range n).filter fun i => x.getLsbD i).length := by
  induction n with
  | zero => rfl
  | succ n ih =>
    rw [List.range_succ, List.filter_append, List.length_append, ← ih, popcount]
    cases h : x.getLsbD n <;> simp [h]

end

/-! ## Bytes -/

theorem getLsbD_bswap (x : Word) {i j : Nat} (hj : j < 8) (hi : i < 8) :
    (bswap x).getLsbD (8 * j + i) = x.getLsbD (8 * (7 - j) + i) := by
  unfold bswap
  interval_cases j
  all_goals
    simp (disch := omega) only [BitVec.getLsbD_append, BitVec.getLsbD_extractLsb', if_pos, if_neg]
    rw [decide_eq_true (by omega), Bool.true_and]
    congr 1
    omega

end Sys2Proof.Machine
end

section

open Sys2Proof Sys2Proof.Machine

/-- Settles O12: each function is followed bit by bit. -/
theorem bitFunctions : Obligations.BitFunctions := by
  unfold Obligations.BitFunctions
  intro s d a b hready x lo w
  have hunary : s.pendingOf [d, a] = false := pendingOf_of_subset hready (by simp)
  have hlo : lo = fieldLo (s.rg b) := (fieldLo_eq _).symm
  have hw : w = fieldWidth (s.rg b) := by rw [fieldWidth_eq, ← hlo]
  rw [hw, hlo]
  have hclz := clz_spec x 64
  have hctz := ctz_spec x 0 64
  simp only [Nat.zero_add] at hctz
  exact ⟨⟨_, gives_of_binary extractField hready rfl rfl, fun i hi => getLsbD_extractField hi x _⟩,
    ⟨_, gives_of_binary extractFieldU hready rfl rfl, fun i hi => getLsbD_extractFieldU hi x _⟩,
    ⟨_, gives_of_result (fun s => insertField (s.rg d) (s.rg a) (s.rg b)) hready rfl rfl,
      fun i hi => getLsbD_insertField hi x _ _⟩,
    ⟨clz x 64, clz_le x 64, gives_of_unary (fun x => wrapU (clz x 64)) hunary rfl rfl, hclz⟩,
    ⟨ctz x 0 64, ctz_le x 0 64, gives_of_unary (fun x => wrapU (ctz x 0 64)) hunary rfl rfl, hctz⟩,
    gives_of_unary (fun x => wrapU (popcount x 64)) hunary rfl (congrArg wrapU (popcount_eq x 64)),
    ⟨_, gives_of_unary bswap hunary rfl rfl, fun j hj i hi => getLsbD_bswap x hj hi⟩⟩
end

section
/-! SUPPORT. The end check (R83), the frame of the register instructions, and where transfers and loops go (R74 to
R84). -/

namespace Sys2Proof.Machine

/-! ## The end check -/

/-- The instruction stands at the last address of an active loop level (R83). -/
def Loop.endsAt (l : Loop) (pc : Word) : Prop := l.count ≠ 0 ∧ pc = l.last

section
variable {c : Ctx} {n : Nat}

theorem endLevel0_back (h : c.loop0.endsAt c.pc) (hn : c.loop0.count ≠ 1) :
    c.endLevel0 n = { c with loop0 := { c.loop0 with count := c.loop0.count - 1 }, pc := c.loop0.start } :=
  (if_pos h).trans (if_pos (sub_ne_zero.mpr hn))

theorem endLevel0_last (h : c.loop0.endsAt c.pc) (hn : c.loop0.count = 1) :
    c.endLevel0 n = { c with loop0 := { c.loop0 with count := 0 }, pc := c.pc + wrapU n } :=
  (if_pos h).trans (if_neg (not_not.mpr (sub_eq_zero.mpr hn)))

theorem endLevel0_next (h : ¬ c.loop0.endsAt c.pc) : c.endLevel0 n = { c with pc := c.pc + wrapU n } := if_neg h

theorem advance_back (h : c.loop1.endsAt c.pc) (hn : c.loop1.count ≠ 1) :
    c.advance n = { c with loop1 := { c.loop1 with count := c.loop1.count - 1 }, pc := c.loop1.start } :=
  (if_pos h).trans (if_pos (sub_ne_zero.mpr hn))

theorem advance_last (h : c.loop1.endsAt c.pc) (hn : c.loop1.count = 1) :
    c.advance n = Ctx.endLevel0 { c with loop1 := { c.loop1 with count := 0 } } n :=
  (if_pos h).trans (if_neg (not_not.mpr (sub_eq_zero.mpr hn)))

theorem advance_next (h : ¬ c.loop1.endsAt c.pc) : c.advance n = c.endLevel0 n := if_neg h

theorem endLevel0_loop1 (c : Ctx) (n : Nat) : (c.endLevel0 n).loop1 = c.loop1 := by
  unfold Ctx.endLevel0
  dsimp only
  (repeat' split) <;> rfl

/-- Where level 1 does not loop back, level 0 decides. -/
theorem advance_level0 (h : ¬ (c.loop1.endsAt c.pc ∧ c.loop1.count ≠ 1)) :
    ∃ l, c.advance n = Ctx.endLevel0 { c with loop1 := l } n := by
  by_cases h1 : c.loop1.endsAt c.pc
  · exact ⟨_, advance_last h1 (not_not.mp fun hn => h ⟨h1, hn⟩)⟩
  · exact ⟨c.loop1, advance_next h1⟩

end

theorem me_seq (s : State) : s.seq.me = (s.me.advance s.len).settled := by rw [seq_eq, me_setMe]

theorem len_eq (s : State) : s.len = 4 ∨ s.len = 8 := by
  unfold State.len wordLength
  split
  · exact .inr rfl
  · exact .inl rfl

end Sys2Proof.Machine
end

section

open Sys2Proof Sys2Proof.Machine

/-- Settles O16: level 1 loops back, or leaves the decision to level 0. -/
theorem endCheck : Obligations.EndCheck := by
  unfold Obligations.EndCheck
  intro s c next t at1 at0
  have ht : t = (c.advance s.len).settled := me_seq s
  rw [ht]
  refine ⟨fun ⟨h1, hn⟩ => ?back, fun ⟨h1, hn⟩ => ?last, fun h1 => ?idle, fun h1 => ?level0,
    registerFrame_seq s, len_eq s⟩
  case back =>
    rw [advance_back h1 hn]
    exact ⟨rfl, rfl, rfl⟩
  case last =>
    rw [advance_last h1 hn]
    exact congrArg Loop.count (endLevel0_loop1 _ _)
  case idle =>
    rw [advance_next h1]
    exact congrArg Loop.count (endLevel0_loop1 _ _)
  case level0 =>
    obtain ⟨l, hl⟩ := advance_level0 (n := s.len) h1
    rw [hl]
    refine ⟨fun ⟨h0, hn⟩ => ?_, fun ⟨h0, hn⟩ => ?_, fun h0 => ?_⟩
    · rw [endLevel0_back (c := { c with loop1 := l }) h0 hn]
      exact ⟨rfl, rfl⟩
    · rw [endLevel0_last (c := { c with loop1 := l }) h0 hn]
      exact ⟨rfl, rfl⟩
    · rw [endLevel0_next (c := { c with loop1 := l }) h0]
      exact ⟨rfl, rfl⟩
end

section
/-! SUPPORT. An instruction that writes one register issues, and its effect has the frame of that register. -/

namespace Sys2Proof.Machine

/-- The instruction issues under some registers, with an effect that has the frame of `d`. -/
def IssuesInFrame (d : Reg) (i : Instr) : Prop :=
  ∃ rs f, ∀ s, exec i s = issue rs s f ∧ registerFrame d s (f s)

section
variable {d : Reg} {i : Instr}

theorem issuesInFrame_result {rs : List Reg} {v : State → Word}
    (h : ∀ s, exec i s = issue rs s fun s => s.result d (v s)) : IssuesInFrame d i :=
  ⟨rs, _, fun s => ⟨h s, registerFrame_result s d (v s)⟩⟩

theorem issuesInFrame_branch {rs : List Reg} {p : State → Prop} [∀ s, Decidable (p s)] {t : State → Word}
    (h : ∀ s, exec i s = issue rs s fun s => if p s then s.jump (t s) else s.seq) : IssuesInFrame 0 i := by
  refine ⟨rs, _, fun s => ⟨h s, ?_⟩⟩
  split
  · exact registerFrame_jump s (t s)
  · exact registerFrame_seq s

end

/-- Each instruction of `registerOnly` gives a result, or it is a branch, a jump, a call or a landing pad. -/
theorem issuesInFrame_of_registerOnly {i : Instr} {d : Reg} (h : registerOnly i = some d) : IssuesInFrame d i := by
  cases i with
  | aluAdd | aluSub | aluAnd | aluOr | aluXor | aluAndn | aluShl | aluShr | aluSar | aluAddw | aluSubw | aluShlw |
  aluShrw | aluSarw | aluMin | aluMax | aluMinu | aluMaxu | aluSel | mulMul | mulMulh | mulMulhu | mulMulw | mulDiv
  | mulDivu | mulRem | mulRemu | cmpEq | cmpNe | cmpLt | cmpLtu | cmpLe | cmpLeu | bitExt | bitExtu | bitIns |
  bitClz | bitCtz | bitPop | bitBswap | aliAdd | aliAnd | aliOr | aliXor | aliShl | aliShr | aliSar | aliAddw |
  aliLui | aliSlt | lngLi | lngLih | lngAdd | lngAnd | lngOr | lngXor | lngLa | sysNow | sysCapq =>
    cases h
    exact issuesInFrame_result fun _ => rfl
  | lngCall =>
    cases h
    exact ⟨_, _, fun s => ⟨rfl, registerFrame_call s _ _ _⟩⟩
  | brcEq | brcNe =>
    cases h
    exact issuesInFrame_branch fun _ => rfl
  | jmp | lngJmp =>
    cases h
    exact ⟨_, _, fun s => ⟨rfl, registerFrame_jump s _⟩⟩
  | ctlLpad =>
    cases h
    exact ⟨_, _, fun s => ⟨rfl, registerFrame_seq s⟩⟩
  | _ => cases h

end Sys2Proof.Machine
end

section

open Sys2Proof Sys2Proof.Machine

/-- Settles O17: whether it completes or waits, such an instruction keeps its frame. -/
theorem registerInstructionsFrame : Obligations.RegisterInstructionsFrame := by
  unfold Obligations.RegisterInstructionsFrame
  intro i d hi s t ht
  obtain ⟨rs, f, hissue⟩ := issuesInFrame_of_registerOnly hi
  obtain ⟨hexec, hframe⟩ := hissue s
  exact registerFrame_issue (hexec.symm.trans ht) hframe
end

section
/-! SUPPORT. Where transfers land, and what the loop instructions do to their levels (R74 to R82, R84). -/

namespace Sys2Proof.Machine

theorem takes_of_issue {i : Instr} {s : State} {rs : List Reg} (f : State → State) (hready : s.pendingOf rs = false)
    (hi : exec i s = issue rs s f) : takes i s (f s) :=
  hi.trans (issue_ready hready)

/-! ## Displacements (R74 to R76) -/

theorem disp_eq_wrapS {w : Nat} (o : BitVec w) : disp o = wrapS (o.toInt * 4) := by
  rw [wrapS, BitVec.ofInt_mul]
  rfl

/-! ## Landing pads (R77 to R79) -/

/-- A word is a landing pad with the expected label exactly where the check of R78 lets it pass. -/
theorem encode_ctlLpad_iff (label : BitVec 16) (w : W32) :
    encode (.ctlLpad label) = [w] ↔
      (w.extractLsb' 26 6 != 0x1F || fCf w != 0xF || (fD w).extractLsb' 4 1 != 0 || fA w != 0
        || ((fD w).extractLsb' 0 4 ++ fK12 w) != label) = false := by
  simp only [Bool.or_eq_false_iff, bne_eq_false_iff_eq]
  constructor
  · intro h
    obtain rfl := List.singleton_inj.mp h
    rw [Encoding.fCf_ctlWord, Encoding.fD_ctlWord, Encoding.fA_ctlWord, Encoding.fK12_ctlWord,
      BitVec.extractLsb'_append_eq_left, BitVec.extractLsb'_append_eq_right, Encoding.join (hi := 12) (lo := 0) rfl]
    exact ⟨⟨⟨⟨Laws.Words.fOp_ctlWord .., rfl⟩, rfl⟩, rfl⟩, BitVec.extractLsb'_eq_self⟩
  · rintro ⟨⟨⟨⟨hop, hcf⟩, hd⟩, ha⟩, rfl⟩
    refine Encoding.ctlWord_eq hop ?_ ha (congrArg BitVec.toNat hcf) BitVec.extractLsb'_append_eq_right.symm
    rw [BitVec.extractLsb'_append_eq_left, ← show _ = 0#1 from hd, Encoding.join (hi := 4) (lo := 0) rfl]
    exact BitVec.extractLsb'_eq_self.symm

section
variable {s s1 : State} {t : Word} {label : BitVec 16} {w : W32}

theorem checkTarget_misaligned (h : U t % 4 ≠ 0) : checkTarget t label s = .error (.trap 0x03 t) s := by
  rw [run_checkTarget, if_pos (bne_iff_ne.mpr h)]

section
variable (halign : U t % 4 = 0) (hfetch : fetchWord t s = .ok w s1)
include halign hfetch

theorem checkTarget_pad (h : encode (.ctlLpad label) = [w]) : checkTarget t label s = .ok () s1 := by
  rw [run_checkTarget, if_neg (by simp [halign]), hfetch]
  exact if_neg (Bool.eq_false_iff.mp ((encode_ctlLpad_iff label w).mp h))

theorem checkTarget_noPad (h : encode (.ctlLpad label) ≠ [w]) :
    checkTarget t label s = .error (.trap 0x02 t) s1 := by
  rw [run_checkTarget, if_neg (by simp [halign]), hfetch]
  exact if_pos (Bool.not_eq_false _ |>.mp fun hf => h ((encode_ctlLpad_iff label w).mpr hf))

end
end

/-! ## The register transfers (R79) -/

/-- Checks the target that a register holds, then transfers there. -/
def toRegister (r : Reg) (k : BitVec 12) (land : Word → State → State) : M Unit := do
  let t := (← get).rg r
  checkTarget t (k.setWidth 16)
  modify (land t)

section
variable {s s1 : State} {i : Instr} {rs : List Reg} {r : Reg} {k : BitVec 12} {land : Word → State → State}
  {w : W32}
  (hready : s.pendingOf rs = false) (hi : exec i s = issueM rs s (toRegister r k land))
include hready hi

theorem takes_toRegister_pad (halign : U (s.rg r) % 4 = 0) (hfetch : fetchWord (s.rg r) s = .ok w s1)
    (hpad : encode (.ctlLpad (k.setWidth 16)) = [w]) : takes i s (land (s.rg r) s1) :=
  hi.trans (issueM_ok (u := ()) hready (by simp [toRegister, checkTarget_pad halign hfetch hpad]))

theorem takes_toRegister_noPad (halign : U (s.rg r) % 4 = 0) (hfetch : fetchWord (s.rg r) s = .ok w s1)
    (hpad : encode (.ctlLpad (k.setWidth 16)) ≠ [w]) : takes i s (s1.trap 0x02 (s.rg r)) :=
  hi.trans (issueM_trap hready (by simp [toRegister, checkTarget_noPad halign hfetch hpad]))

theorem takes_toRegister_misaligned (h : U (s.rg r) % 4 ≠ 0) : takes i s (s.trap 0x03 (s.rg r)) :=
  hi.trans (issueM_trap hready (by simp [toRegister, checkTarget_misaligned h]))

end

/-! ## Tables (R80) -/

/-- The number of entries that the header of a table gives. -/
theorem tableCount_eq {h : Nat} (hlt : h < 2 ^ 64) : ((wrapU h).extractLsb' 32 32).toNat = h / 2 ^ 32 := by
  rw [BitVec.extractLsb'_toNat, BitVec.toNat_ofNat, Nat.mod_eq_of_lt hlt, Nat.shiftRight_eq_div_pow]
  exact Nat.mod_eq_of_lt (by omega)

/-- The label that the header of a table gives. -/
theorem tableLabel_eq (h : Nat) : (wrapU h).extractLsb' 0 16 = BitVec.ofNat 16 h := by
  rw [extractLsb'_zero_eq_ofNat, BitVec.toNat_ofNat]
  exact BitVec.eq_of_toNat_eq (by simp only [BitVec.toNat_ofNat]; omega)

section
variable {s s1 s2 s3 : State} {d a : Reg} (hready : s.pendingOf [d, a] = false)
include hready

theorem takes_ctlJt_misaligned (h : U (s.rg a) % 8 ≠ 0) : takes (.ctlJt d a) s (s.trap 0x03 (s.rg a)) := by
  have hlow : ((s.rg a).extractLsb' 0 3 != 0) = true := (low_bits _ 3).trans (bne_iff_ne.mpr h)
  exact issueM_trap hready (by simp only [run_bind, run_get, run_trapIf, hlow, if_true])

section
variable {h : Nat} (halign : U (s.rg a) % 8 = 0) (hload : loadG (s.rg a) 8 s = .ok h s1) (hlt : h < 2 ^ 64)
include halign hload hlt

theorem takes_ctlJt_empty (hn : h / 2 ^ 32 = 0) : takes (.ctlJt d a) s (s1.trap 0x02 (s.rg a)) := by
  have hlow : ((s.rg a).extractLsb' 0 3 != 0) = false := (low_bits _ 3).trans (bne_eq_false_iff_eq.mpr halign)
  have hcount := (tableCount_eq hlt).trans hn
  refine issueM_trap hready ?_
  simp only [run_bind, run_get, run_trapIf, hlow, hload, hcount, beq_self_eq_true, Bool.false_eq_true, if_false,
    if_true]

theorem takes_ctlJt_entry {e : Nat} {w : W32} (hn : h / 2 ^ 32 ≠ 0)
    (hentry : loadG (s.rg a + 8 + wrapU (4 * if U (s.rg d) < h / 2 ^ 32 then U (s.rg d) else 0)) 4 s1 = .ok e s2)
    (htarget : U (s.rg a + imm32 (BitVec.ofNat 32 e)) % 4 = 0)
    (hfetch : fetchWord (s.rg a + imm32 (BitVec.ofNat 32 e)) s2 = .ok w s3)
    (hpad : encode (.ctlLpad (BitVec.ofNat 16 h)) = [w]) :
    takes (.ctlJt d a) s (s3.jump (s.rg a + imm32 (BitVec.ofNat 32 e))) := by
  have hlow : ((s.rg a).extractLsb' 0 3 != 0) = false := (low_bits _ 3).trans (bne_eq_false_iff_eq.mpr halign)
  refine issueM_ok (u := ()) hready ?_
  simp only [run_bind, run_get, run_trapIf, hlow, hload, tableCount_eq hlt, tableLabel_eq, beq_eq_false_iff_ne.mpr hn,
    hentry, checkTarget_pad htarget hfetch hpad, run_modify, Bool.false_eq_true, if_false]

end
end

/-! ## Loops (R82) -/

section
variable {s s1 : State} {d : Reg} {l : Level} {n : BitVec 11} (hready : s.pendingOf [d] = false)
include hready

theorem takes_ctlLoop_sets (h : s.rg d ≠ 0) :
    takes (.ctlLoop d l n) s
      (s.modMe fun c => c.setLoop l ⟨s.me.pc + 4, s.me.pc + wrapU (4 * n.toNat), s.rg d⟩).seq := by
  refine issueM_ok (u := ()) hready ?_
  simp only [run_bind, run_get, State.pc, if_neg h, run_modify]

theorem takes_ctlLoop_skips {w : W32} (h : s.rg d = 0)
    (hfetch : fetchWord (s.me.pc + wrapU (4 * n.toNat)) s = .ok w s1) :
    takes (.ctlLoop d l n) s
      ((s1.modMe fun c => c.setCount l 0).jump (s.me.pc + wrapU (4 * n.toNat) + if isLong w then 8 else 4)) := by
  refine issueM_ok (u := ()) hready ?_
  have hlen : BitVec.ofNat 64 (wordLength w) = if isLong w then 8 else 4 := by
    unfold wordLength
    split <;> rfl
  simp only [run_bind, run_get, State.pc, h, if_true, hfetch, run_modify, hlen]

end

theorem takes_ctlLexit (s : State) :
    takes .ctlLexit s (s.setMe (if s.me.loop1.count ≠ 0 then s.me.setCount .l1 0 else s.me.setCount .l0 0)).seq :=
  takes_of_issue
    (fun s => (s.modMe fun c => if c.loop1.count ≠ 0 then c.setCount .l1 0 else c.setCount .l0 0).seq) rfl rfl

end Sys2Proof.Machine
end

section

open Sys2Proof Sys2Proof.Machine

/-- Settles O14: a displacement is a number of words, or of bytes in a long form. -/
theorem directTransfers : Obligations.DirectTransfers := by
  unfold Obligations.DirectTransfers
  intro s d a b o j i hready
  have hab : s.pendingOf [a, b] = false := pendingOf_of_subset hready (by simp)
  have hd : s.pendingOf [d] = false := pendingOf_of_subset hready (by simp)
  rw [← disp_eq_wrapS, ← disp_eq_wrapS]
  exact ⟨takes_of_issue (fun s => if s.rg a = s.rg b then s.jump (s.pc + disp o) else s.seq) hab rfl,
    takes_of_issue (fun s => if s.rg a ≠ s.rg b then s.jump (s.pc + disp o) else s.seq) hab rfl,
    takes_of_issue (fun s => s.jump (s.pc + disp j)) rfl rfl,
    takes_of_issue (fun s => (s.wg d (s.pc + 8)).jump (s.pc + imm32 i)) hd rfl,
    takes_of_issue (fun s => s.jump (s.pc + imm32 i)) rfl rfl, congrArg Ctx.pc (me_setMe s _)⟩
end

section

open Sys2Proof Sys2Proof.Machine

/-- Settles O19: the transfers share the check of their target, and a table gives the target and its label. -/
theorem indirectTransfers : Obligations.IndirectTransfers := by
  unfold Obligations.IndirectTransfers
  intro s s1 s2 s3 d a k w h e hready pad
  have ha : s.pendingOf [a] = false := pendingOf_of_subset hready (by simp)
  have jr : exec (.ctlJr a k) s = issueM [a] s (toRegister a k fun t s => s.jump t) := rfl
  have callr : exec (.ctlCallr d a k) s =
    issueM [d, a] s (toRegister a k fun t s => (s.wg d (s.me.pc + 4)).jump t) := rfl
  have ret : exec (.ctlRet k) s = issueM [1] s (toRegister 1 k fun t s => s.jump t) := rfl
  refine ⟨fun hal hf => ⟨fun hpad => ⟨?_, ?_⟩, fun hpad => ⟨?_, ?_⟩⟩, fun hmis => ⟨?_, ?_⟩,
    fun h1 hal hf => ⟨fun hpad => ?_, fun hpad => ?_⟩, fun h1 hmis => ?_,
    fun hmis => takes_ctlJt_misaligned hready hmis,
    fun hal hl hlt => ⟨fun hn => takes_ctlJt_empty hready hal hl hlt hn,
      fun hn he ht hf hpad => takes_ctlJt_entry hready hal hl hlt hn he ht hf hpad⟩⟩
  · exact takes_toRegister_pad ha jr hal hf hpad
  · exact takes_toRegister_pad hready callr hal hf hpad
  · exact takes_toRegister_noPad ha jr hal hf hpad
  · exact takes_toRegister_noPad hready callr hal hf hpad
  · exact takes_toRegister_misaligned ha jr hmis
  · exact takes_toRegister_misaligned hready callr hmis
  · exact takes_toRegister_pad h1 ret hal hf hpad
  · exact takes_toRegister_noPad h1 ret hal hf hpad
  · exact takes_toRegister_misaligned h1 ret hmis

/-- Settles O20: each clause is one way in which a loop instruction ends. -/
theorem loopInstructions : Obligations.LoopInstructions := by
  unfold Obligations.LoopInstructions
  intro s s1 d n label w hready c last
  refine ⟨fun h => ⟨takes_ctlLoop_sets hready h, takes_ctlLoop_sets hready h⟩,
    fun h hf => ⟨takes_ctlLoop_skips hready h hf, takes_ctlLoop_skips hready h hf⟩, fun h => ?level1,
    fun h => ?level0, takes_of_issue State.seq rfl rfl⟩
  case level1 =>
    have hexit := takes_ctlLexit s
    rwa [if_pos (show s.me.loop1.count ≠ 0 from h)] at hexit
  case level0 =>
    have hexit := takes_ctlLexit s
    rwa [if_neg (not_not.mpr (show s.me.loop1.count = 0 from h))] at hexit
end

section
/-! SUPPORT. An instruction that names a pending register waits for it (R92, R93). -/

namespace Sys2Proof.Machine

/-- A register's own bit in a mask of registers. -/
theorem getLsbD_registerBit (r q : Reg) : (BitVec.ofNat 32 (2 ^ r.toNat)).getLsbD q.toNat = decide (r = q) := by
  rw [BitVec.getLsbD_ofNat, Nat.testBit_two_pow, decide_eq_true q.isLt, Bool.true_and, decide_eq_decide,
    BitVec.toNat_inj]

theorem getLsbD_foldl_registerBits (rs : List Reg) (m : BitVec 32) (q : Reg) :
    (rs.foldl (fun m r => m ||| BitVec.ofNat 32 (2 ^ r.toNat)) m).getLsbD q.toNat =
      (m.getLsbD q.toNat || decide (q ∈ rs)) := by
  induction rs generalizing m with
  | nil => simp
  | cons r rs ih =>
    rw [List.foldl_cons, ih, BitVec.getLsbD_or, getLsbD_registerBit, Bool.or_assoc, ← Bool.decide_or]
    simp only [List.mem_cons, eq_comm]

/-- The mask of the registers that an instruction names has the bit of each. -/
theorem getLsbD_namesOf {rs : List Reg} {q : Reg} (h : q ∈ rs) : (State.namesOf rs).getLsbD q.toNat = true := by
  unfold State.namesOf
  rw [getLsbD_foldl_registerBits, decide_eq_true h, Bool.or_true]

theorem pendingOf_of_mem {s : State} {rs : List Reg} {r : Reg} (h : r ∈ rs) (h0 : r ≠ 0)
    (hp : s.me.pend.getLsbD r.toNat = true) : s.pendingOf rs = true :=
  List.any_eq_true.mpr ⟨r, h, by rw [hp, Bool.and_true]; exact bne_iff_ne.mpr h0⟩

theorem me_block (s : State) (w : Wait) :
    (s.block w).me = { s.me.blocked w with fetched := some (s.cur.w0, s.cur.w1) } := me_setMe s _

/-- The instruction names all of these registers when it issues. -/
def Issues (rs : List Reg) (q : Instr) : Prop :=
  ∃ ns body, (∀ s, exec q s = issue ns s body) ∧ ∀ r ∈ rs, r ∈ ns

/-- The instruction waits for register `r`: it keeps its words, and nothing changes but its wait. -/
def WaitsFor (r : Reg) (s : State) (q : Instr) : Prop :=
  ∃ t, takes q s t ∧ (∃ n, t.me.wait = some (.token n) ∧ n.getLsbD r.toNat = true) ∧
    t.me.fetched = some (s.cur.w0, s.cur.w1) ∧ t.me.pc = s.me.pc ∧ registerFrame 0 s t ∧
    (s.me.st = .run → t.me.st = .blocked)

theorem waitsFor_of_issues {rs : List Reg} {q : Instr} {s : State} {r : Reg} (hq : Issues rs q) (hr : r ∈ rs)
    (h0 : r ≠ 0) (hp : s.me.pend.getLsbD r.toNat = true) : WaitsFor r s q := by
  obtain ⟨ns, body, hexec, hsub⟩ := hq
  refine ⟨_, (hexec s).trans (issue_pending (pendingOf_of_mem (hsub r hr) h0 hp)), ?_⟩
  rw [me_block]
  exact ⟨⟨_, rfl, getLsbD_namesOf (hsub r hr)⟩, rfl, rfl, registerFrame_block s _, fun h => if_pos h⟩

end Sys2Proof.Machine
end

section

open Sys2Proof Sys2Proof.Machine

/-- Settles O18: each of these instructions issues under the registers it names. -/
theorem pendingRegisterBlocks : Obligations.PendingRegisterBlocks := by
  unfold Obligations.PendingRegisterBlocks
  intro s d a b r i n j k o sz sp h0 hp waits
  have wait {rs : List Reg} {q : Instr} (hr : r ∈ rs) (hq : Issues rs q) : waits q :=
    waitsFor_of_issues hq hr h0 hp
  refine ⟨fun hr q hq => wait hr ?three, fun hr q hq => wait hr ?two,
    fun hr q hq => wait (rs := [d]) (List.mem_singleton.mpr hr) ?one⟩
  all_goals
    revert q
    simp only [List.forall_mem_cons, List.not_mem_nil, IsEmpty.forall_iff, implies_true, and_true]
    and_intros
    all_goals exact ⟨_, _, fun _ => rfl, by simp⟩
end

section
/-! SUPPORT. Lanes and masks (R210, R211, R214, R215): a register read lane by lane after it is made of lanes, what a
grouped instruction and a compare leave in the registers, and the integer functions of lanes as numbers (R217). -/

namespace Sys2Proof.Machine

/-! ## A register made of lanes, and a mask made of bits (R210) -/

theorem lanesOf_lt (f : Nat → W32) (n : Nat) : lanesOf f n < 2 ^ (32 * n) := by
  induction n with
  | zero => exact Nat.one_pos
  | succ n ih =>
    have hf := (f n).isLt
    calc lanesOf f n + (f n).toNat * 2 ^ (32 * n) < 2 ^ (32 * n) + (f n).toNat * 2 ^ (32 * n) := by omega
      _ = ((f n).toNat + 1) * 2 ^ (32 * n) := by ring
      _ ≤ 2 ^ 32 * 2 ^ (32 * n) := Nat.mul_le_mul_right _ hf
      _ = 2 ^ (32 * (n + 1)) := by rw [← pow_add]; congr 1; omega

theorem lanesOf_digit (f : Nat → W32) {n l : Nat} (h : l < n) : lanesOf f n / 2 ^ (32 * l) % 2 ^ 32 = (f l).toNat := by
  induction n with
  | zero => cases h
  | succ n ih =>
    unfold lanesOf
    rcases Nat.lt_succ_iff_lt_or_eq.mp h with hlt | rfl
    · obtain ⟨k, hk⟩ : ∃ k, 32 * n = 32 * l + (32 + k) := ⟨32 * (n - l - 1), by omega⟩
      have hsplit : (f n).toNat * 2 ^ (32 * n) = 2 ^ (32 * l) * (2 ^ 32 * ((f n).toNat * 2 ^ k)) := by
        rw [hk, pow_add, pow_add]; ring
      rw [hsplit, Nat.add_mul_div_left _ _ (Nat.two_pow_pos _), Nat.add_mul_mod_self_left]
      exact ih hlt
    · rw [Nat.add_mul_div_right _ _ (Nat.two_pow_pos _), Nat.div_eq_of_lt (lanesOf_lt f l), Nat.zero_add]
      exact Nat.mod_eq_of_lt (f l).isLt

theorem toNat_ofNat_of_lt {w n : Nat} (h : n < 2 ^ w) : (BitVec.ofNat w n).toNat = n := by
  rw [BitVec.toNat_ofNat, Nat.mod_eq_of_lt h]

/-- A lane of a register made of lanes is that lane. -/
theorem lane_ofLanes (f : Nat → W32) {l : Nat} (h : l < 32) : lane (ofLanes f) l = f l := by
  apply BitVec.eq_of_toNat_eq
  have hreg : (ofLanes f).toNat = lanesOf f 32 := toNat_ofNat_of_lt (w := 32 * 32) (lanesOf_lt f 32)
  rw [lane, BitVec.extractLsb'_toNat, hreg, Nat.shiftRight_eq_div_pow]
  exact lanesOf_digit f h

/-- The number whose low `n` bits are given. -/
def bitsNat (f : Nat → Bool) (n : Nat) : Nat := (List.range n).foldl (fun a i => a + if f i then 2 ^ i else 0) 0

theorem bitsNat_succ (f : Nat → Bool) (n : Nat) : bitsNat f (n + 1) = bitsNat f n + if f n then 2 ^ n else 0 := by
  rw [bitsNat, List.range_succ, List.foldl_append]
  rfl

theorem bitsNat_lt (f : Nat → Bool) (n : Nat) : bitsNat f n < 2 ^ n := by
  induction n with
  | zero => exact Nat.one_pos
  | succ n ih =>
    rw [bitsNat_succ, pow_succ]
    split <;> omega

theorem testBit_bitsNat (f : Nat → Bool) {n l : Nat} (h : l < n) : (bitsNat f n).testBit l = f l := by
  induction n with
  | zero => cases h
  | succ n ih =>
    rw [bitsNat_succ, Nat.add_comm]
    rcases Nat.lt_succ_iff_lt_or_eq.mp h with hlt | rfl
    · split
      · rw [Nat.testBit_two_pow_add_gt hlt]
        exact ih hlt
      · rw [Nat.zero_add]
        exact ih hlt
    · have hclear : (bitsNat f l).testBit l = false := Nat.testBit_lt_two_pow (bitsNat_lt f l)
      cases hf : f l with
      | true => rw [if_pos rfl, Nat.testBit_two_pow_add_eq, hclear]; rfl
      | false => rw [if_neg Bool.false_ne_true, Nat.zero_add, hclear]

/-- A bit of a mask made of bits is that bit. -/
theorem getLsbD_ofBits (f : Nat → Bool) {l : Nat} (h : l < 32) : (ofBits f).getLsbD l = f l := by
  show (BitVec.ofNat 32 (bitsNat f 32)).getLsbD l = f l
  rw [BitVec.getLsbD_ofNat, decide_eq_true h, Bool.true_and]
  exact testBit_bitsNat f h

/-! ## What a group and a mask leave (R211, R214, R215) -/

theorem lane_set (c : Core) (d r : Reg) (x : LineData) (l : Nat) :
    Core.lane { c with v := c.v.set d.toFin x } r l = if r = d then lane x l else c.lane r l := by
  unfold Core.lane
  by_cases h : r = d
  · subst h
    rw [if_pos rfl]
    exact congrArg (lane · l) (Vector.getElem_set_self ..)
  · have hne : d.toNat ≠ r.toNat := fun e => h (BitVec.eq_of_toNat_eq e.symm)
    rw [if_neg h]
    exact congrArg (lane · l) (Vector.getElem_set_ne (xs := c.v) d.toFin.isLt r.toFin.isLt hne)

/-- A register is member `n` of the group from `d` where it stands `n` after `d`. -/
theorem eq_member_iff {r d : Reg} {n : Nat} (h : n < 32) : r = member d n ↔ (r - d).toNat = n := by
  unfold member
  rw [← sub_eq_iff_eq_add', BitVec.toNat_eq, BitVec.toNat_ofNat, Nat.mod_eq_of_lt h]

section
variable (c : Core) (q : BitVec 2) (d : Reg) (f : Nat → Nat → W32)

theorem group_onlyLanes (n : Nat) : c.group q d f n = { c with v := (c.group q d f n).v } := by
  induction n with
  | zero => rfl
  | succ n ih =>
    unfold Core.group
    dsimp only
    rw [ih]

theorem lane_group {n : Nat} (hn : n ≤ 32) (r : Reg) {l : Nat} (hl : l < 32) :
    (c.group q d f n).lane r l = if (r - d).toNat < n then (if c.active q l then f (r - d).toNat l else c.lane r l)
      else c.lane r l := by
  induction n with
  | zero => rfl
  | succ n ih =>
    unfold Core.group
    dsimp only
    rw [lane_set, ih (by omega), lane_ofLanes _ hl]
    by_cases hr : r = member d n
    · have hk := (eq_member_iff (by omega)).mp hr
      rw [if_pos hr, hk, if_pos (Nat.lt_succ_self n), ← hr]
    · have hk := mt (eq_member_iff (by omega)).mpr hr
      rw [if_neg hr]
      exact if_congr (by omega) rfl rfl

end

/-! ## The ways a vector instruction ends (R103, R212) -/

section
variable {s : State} {i : Instr}

theorem takes_vector {f : State → State} (hb : s.me.bind = 1) (hi : exec i s = vector [] s f) :
    takes i s (f s).seq :=
  hi.trans (issueM_ok (u := ()) rfl (by simp [hb]))

theorem takes_vector_unbound {f : State → State} (hb : s.me.bind ≠ 1) (hi : exec i s = vector [] s f) :
    takes i s (s.trap 0x06 0) := by
  have hne : s.me.bind.toNat ≠ 1 := fun h => hb (BitVec.eq_of_toNat_eq h)
  exact hi.trans (issueM_trap rfl (by simp [hne]))

section
variable {d a b : Reg} {q : BitVec 2} {g : BitVec 3} {f : Mode → W32 → W32 → W32 → W32}

theorem writesLanes_ternary (hb : s.me.bind = 1) (hi : exec i s = ternary d a b q g f s) :
    writesLanes s i d (g.toNat + 1) fun k l => if s.mine.active q l
      then f s.mode (s.mine.lane (member a k) l) (s.mine.lane (member b k) l) (s.mine.lane (member d k) l)
      else s.mine.lane (member d k) l := by
  have hg := g.isLt
  refine ⟨_, takes_vector hb hi, group_onlyLanes .., fun r l hl => ?_⟩
  rw [lane_group _ _ _ _ (by omega) _ hl]
  split
  · next hr =>
      have hr : r = member d (r - d).toNat := (eq_member_iff (r - d).isLt).mpr rfl
      dsimp only
      rw [← hr]
      rfl
  · rfl

theorem writesLanes_binaryV {h : Mode → W32 → W32 → W32} {w : W32 → W32 → W32} (hb : s.me.bind = 1)
    (hi : exec i s = binaryV d a b q g h s) (hw : ∀ x y, h s.mode x y = w x y) :
    writesLanes s i d (g.toNat + 1) fun k l => if s.mine.active q l
      then w (s.mine.lane (member a k) l) (s.mine.lane (member b k) l) else s.mine.lane (member d k) l := by
  simp only [← hw]
  exact writesLanes_ternary hb hi

/-- An integer function of lanes pays no heed to the rounding mode. -/
theorem exec_intV {w' w : W32 → W32 → W32} (mo : Mode) (hi : ∀ s, exec i s = intV d a b q g w' s)
    (hw : ∀ x y, w' x y = w x y) : ∃ h, (∀ s, exec i s = binaryV d a b q g h s) ∧ ∀ x y, h mo x y = w x y :=
  ⟨fun _ x y => w' x y, hi, hw⟩

theorem writesLanes_unaryV {h : Mode → W32 → W32} (hb : s.me.bind = 1) (hi : exec i s = unaryV d a q g h s) :
    writesLanes s i d (g.toNat + 1) fun k l => if s.mine.active q l
      then h s.mode (s.mine.lane (member a k) l) else s.mine.lane (member d k) l :=
  writesLanes_ternary hb hi

end

/-- A compare writes every bit of its mask register. -/
theorem writesMask_compareV {m : QReg} {a b : Reg} {q : BitVec 2} {h : Mode → W32 → W32 → Bool}
    {w : W32 → W32 → Bool} (hb : s.me.bind = 1) (hi : exec i s = compareV m a b q h s)
    (hw : ∀ x y, h s.mode x y = w x y) :
    writesMask s i m fun l => s.mine.active q l && w (s.mine.lane a l) (s.mine.lane b l) := by
  refine ⟨_, takes_vector hb hi, rfl, fun n hn => ?_, fun l hl => ?_⟩
  · exact Vector.getElem_set_ne (xs := s.mine.q) m.toFin.isLt n.toFin.isLt
      fun e => hn (BitVec.eq_of_toNat_eq e.symm)
  · have hset := Vector.getElem_set_self (xs := s.mine.q) (i := m.toNat)
      (x := ofBits fun l => s.mine.active q l && h s.mode (s.mine.lane a l) (s.mine.lane b l)) m.toFin.isLt
    simp only [← hw]
    exact (congrArg (BitVec.getLsbD · l) hset).trans (getLsbD_ofBits _ hl)

/-- An instruction of a feature that is masked is illegal (R249). -/
theorem takes_vmath_masked {go : Out} (hm : s.masked s.myPart 6 = true) (hi : exec i s = vmath s go) :
    takes i s s.illegal :=
  hi.trans (if_pos hm)

theorem exec_vmath_unmasked {go : Out} (hm : s.masked s.myPart 6 = false) (hi : exec i s = vmath s go) :
    exec i s = go :=
  hi.trans (if_neg (by simp [hm]))

end

/-! ## Integer lanes as numbers (R217) -/

theorem sat32_eq (n : Int) : sat32 n = BitVec.ofInt 32 (max (-2 ^ 31) (min (2 ^ 31 - 1) n)) := by
  simp only [sat32, clampInt, intLow, intHigh, if_true]

section
variable (x y : W32)

theorem lane_add_eq : x + y = BitVec.ofInt 32 (x.toInt + y.toInt) := by
  rw [BitVec.ofInt_add, BitVec.ofInt_toInt, BitVec.ofInt_toInt]

theorem lane_sub_eq : x - y = BitVec.ofInt 32 (x.toInt - y.toInt) := by
  rw [sub_eq_add_neg x.toInt, BitVec.ofInt_add, BitVec.ofInt_neg, BitVec.ofInt_toInt, BitVec.ofInt_toInt,
    BitVec.sub_eq_add_neg]

theorem lane_mul_eq : x * y = BitVec.ofInt 32 (x.toInt * y.toInt) := by
  rw [BitVec.ofInt_mul, BitVec.ofInt_toInt, BitVec.ofInt_toInt]

theorem count32_eq : count32 y = y.toNat % 32 := by rw [count32, BitVec.extractLsb'_toNat]; rfl

theorem lane_shl_eq (n : Nat) : x <<< n = BitVec.ofNat 32 (x.toNat * 2 ^ n) := by
  apply BitVec.eq_of_toNat_eq
  rw [BitVec.toNat_shiftLeft, Nat.shiftLeft_eq, BitVec.toNat_ofNat]

theorem lane_shr_eq (n : Nat) : x >>> n = BitVec.ofNat 32 (x.toNat / 2 ^ n) := by
  rw [← Nat.shiftRight_eq_div_pow, ← BitVec.toNat_ushiftRight, BitVec.ofNat_toNat, BitVec.setWidth_eq]

theorem lane_sar_eq (n : Nat) : x.sshiftRight n = BitVec.ofInt 32 (x.toInt / 2 ^ n) := by
  rw [BitVec.sshiftRight_eq, Int.shiftRight_eq_div_pow]
  push_cast
  rfl

end

end Sys2Proof.Machine
end

section

open Sys2Proof Sys2Proof.Machine

/-- Settles O44: a grouped function is applied lane by lane under its mask, and the integer functions are those of
numbers. -/
theorem vectorLanes : Obligations.VectorLanes := by
  unfold Obligations.VectorLanes
  intro s d a b m q g mo at_ two one masks sel
  have htwo : ∀ e ∈ two, ∃ h, (∀ s, exec e.1 s = binaryV d a b q g h s) ∧ ∀ x y, h mo x y = e.2 x y := by
    simp only [two, List.forall_mem_cons, List.not_mem_nil, IsEmpty.forall_iff, implies_true, and_true]
    refine ⟨⟨_, fun _ => rfl, fun _ _ => rfl⟩, ⟨_, fun _ => rfl, fun _ _ => rfl⟩, ⟨_, fun _ => rfl, fun _ _ => rfl⟩,
      ⟨_, fun _ => rfl, fun _ _ => rfl⟩, ⟨_, fun _ => rfl, fun _ _ => rfl⟩,
      exec_intV mo (fun s => show execVinAdd d a b q g s = _ from rfl) lane_add_eq,
      exec_intV mo (fun s => show execVinSub d a b q g s = _ from rfl) lane_sub_eq,
      exec_intV mo (fun s => show execVinMul d a b q g s = _ from rfl) lane_mul_eq,
      exec_intV mo (fun s => show execVinMulh d a b q g s = _ from rfl) fun _ _ => rfl,
      exec_intV mo (fun s => show execVinAnd d a b q g s = _ from rfl) fun _ _ => rfl,
      exec_intV mo (fun s => show execVinOr d a b q g s = _ from rfl) fun _ _ => rfl,
      exec_intV mo (fun s => show execVinXor d a b q g s = _ from rfl) fun _ _ => rfl,
      exec_intV mo (fun s => show execVinShl d a b q g s = _ from rfl) fun x y => ?shl,
      exec_intV mo (fun s => show execVinShr d a b q g s = _ from rfl) fun x y => ?shr,
      exec_intV mo (fun s => show execVinSar d a b q g s = _ from rfl) fun x y => ?sar,
      exec_intV mo (fun s => show execVinMin d a b q g s = _ from rfl) fun x y => ?min,
      exec_intV mo (fun s => show execVinMax d a b q g s = _ from rfl) fun x y => ?max,
      exec_intV mo (fun s => show execVinMinu d a b q g s = _ from rfl) fun x y => ?minu,
      exec_intV mo (fun s => show execVinMaxu d a b q g s = _ from rfl) fun x y => ?maxu,
      exec_intV mo (fun s => show execVinAdds d a b q g s = _ from rfl) fun _ _ => sat32_eq _,
      exec_intV mo (fun s => show execVinSubs d a b q g s = _ from rfl) fun _ _ => sat32_eq _⟩
    case shl => rw [← count32_eq]; exact lane_shl_eq ..
    case shr => rw [← count32_eq]; exact lane_shr_eq ..
    case sar => rw [← count32_eq]; exact lane_sar_eq ..
    case min | max => exact if_congr BitVec.sle_iff_toInt_le rfl rfl
    case minu | maxu => exact if_congr BitVec.ule_iff_toNat_le rfl rfl
  have hone : ∀ e ∈ one, ∃ h, (∀ s, exec e.1 s = unaryV d a q g h s) ∧ h mo = e.2 := by
    simp only [one, List.forall_mem_cons, List.not_mem_nil, IsEmpty.forall_iff, implies_true, and_true]
    exact ⟨⟨_, fun _ => rfl, rfl⟩, ⟨_, fun _ => rfl, rfl⟩⟩
  have hmasks : ∀ e ∈ masks, ∃ h, (∀ s, exec e.1 s = compareV m a b q h s) ∧ ∀ x y, h mo x y = e.2 x y := by
    simp only [masks, List.forall_mem_cons, List.not_mem_nil, IsEmpty.forall_iff, implies_true, and_true]
    exact ⟨⟨_, fun s => show execVfpCeq m a b q s = _ from rfl, fun _ _ => rfl⟩,
      ⟨_, fun s => show execVfpClt m a b q s = _ from rfl, fun _ _ => rfl⟩,
      ⟨_, fun s => show execVfpCle m a b q s = _ from rfl, fun _ _ => rfl⟩,
      ⟨_, fun s => show execVinCeq m a b q s = _ from rfl, fun _ _ => rfl⟩,
      ⟨_, fun s => show execVinClt m a b q s = _ from rfl, fun _ _ => rfl⟩,
      ⟨_, fun s => show execVinCltu m a b q s = _ from rfl, fun _ _ => rfl⟩⟩
  refine ⟨fun hb => ⟨fun e he => ?_, fun e he => ?_, writesLanes_ternary (f := fpFma) hb rfl,
    writesLanes_ternary (f := fpFms) hb rfl, fun e he => ?_, fun hm => ⟨?_, ?_, ?_⟩⟩,
    fun hb => ⟨fun e he => ?_, fun e he => ?_, fun e he => ?_, ?_, ?_⟩, fun hm => ?_⟩
  · obtain ⟨h, hi, hw⟩ := htwo e he
    exact writesLanes_binaryV hb (hi s) hw
  · obtain ⟨h, hi, hw⟩ := hone e he
    have hlanes := writesLanes_unaryV hb (hi s)
    rwa [show h s.mode = e.2 from hw] at hlanes
  · obtain ⟨h, hi, hw⟩ := hmasks e he
    exact writesMask_compareV hb (hi s) hw
  · exact writesLanes_binaryV (i := .vfpDiv d a b q g) (h := fpDiv) hb (exec_vmath_unmasked hm rfl) fun _ _ => rfl
  · exact writesLanes_unaryV (i := .vfpSqrt d a q g) (h := fpSqrt) hb (exec_vmath_unmasked hm rfl)
  · exact writesLanes_unaryV (i := .vfpExp2 d a q g) (h := fpExp2) hb (exec_vmath_unmasked hm rfl)
  · obtain ⟨h, hi, -⟩ := htwo e he
    exact takes_vector_unbound hb (hi s)
  · obtain ⟨h, hi, -⟩ := hone e he
    exact takes_vector_unbound hb (hi s)
  · obtain ⟨h, hi, -⟩ := hmasks e he
    exact takes_vector_unbound hb (hi s)
  · exact takes_vector_unbound hb rfl
  · exact takes_vector_unbound hb rfl
  · simp only [List.forall_mem_cons, List.not_mem_nil, IsEmpty.forall_iff, implies_true, and_true]
    exact ⟨takes_vmath_masked hm rfl, takes_vmath_masked hm rfl, takes_vmath_masked hm rfl⟩
end

section
/-! SUPPORT. Context 0 and the contexts that it starts, stops, continues and frees (R89, R95, R96, R98, R111): one lemma
for each way such an instruction ends. -/

namespace Sys2Proof.Machine

/-! ## Who may issue, and which context is named (R89) -/

theorem pendingOf_append {s : State} {rs rs' : List Reg} (h : s.pendingOf rs = false) (h' : s.pendingOf rs' = false) :
    s.pendingOf (rs ++ rs') = false := by
  rw [State.pendingOf, List.any_append]
  exact Bool.or_eq_false_iff.mpr ⟨h, h'⟩

theorem run_target (v : Word) (s : State) :
    target v s = if U v = 0 ∨ 15 < U v then .error (.trap 0x04 v) s else .ok (Fin.ofNat 16 (U v)) s := by
  unfold target
  simp only [run_bind, run_trapIf, run_pure, ← Bool.decide_or, decide_eq_true_eq, gt_iff_lt]
  by_cases h : U v = 0 ∨ 15 < U v
  · rw [if_pos h, if_pos h]
  · rw [if_neg h, if_neg h]

/-- A register that holds the number of a context other than 0 names it. -/
theorem run_target_slot {v : Word} {x : Slot} (hv : v = wrapU x.val) (hx : x ≠ 0) (s : State) :
    target v s = .ok x s := by
  have hlt := x.isLt
  have hpos : x.val ≠ 0 := fun h => hx (Fin.ext h)
  have hU : U v = x.val := by rw [hv, U_wrapU, Nat.mod_eq_of_lt (by omega)]
  rw [run_target, hU, if_neg (by omega), Fin.ofNat_val_eq_self]

/-- The low bits of an aligned value are clear. -/
theorem lowBits_eq_zero_iff (v : Word) (k : Nat) : v.extractLsb' 0 k = 0#k ↔ U v % 2 ^ k = 0 := by
  rw [BitVec.toNat_eq, toNat_extractLsb', Nat.pow_zero, Nat.div_one, BitVec.toNat_ofNat, Nat.zero_mod]

/-- The registers of a context that has been started: its return address and its arguments. -/
theorem rd_started (c : Ctx) (pc ra a4 a5 a6 a7 : Word) (asid : BitVec 16) (rights origin : Bool)
    (l : Option (Nat × Nat)) (r : Reg) :
    (c.started pc ra a4 a5 a6 a7 asid rights origin l).rd r = if r = 1 then ra else if r = 4 then a4
      else if r = 5 then a5 else if r = 6 then a6 else if r = 7 then a7 else 0 := by
  have hval : ∀ n : Reg, r = n ↔ n.toNat = r.toNat := fun n => eq_comm.trans BitVec.toNat_eq
  simp only [Ctx.started, Ctx.rd, hval, Fin.getElem_fin, Vector.getElem_set, Ctx.reset, Vector.getElem_replicate,
    BitVec.val_toFin, BitVec.toNat_ofNat, BitVec.ofNat_eq_ofNat, Nat.reducePow, Nat.reduceMod]
  grind

section
variable {s : State} {d a b : Reg} {x : Slot}

section
variable (hslot : s.slot ≠ 0)
include hslot

theorem takes_onlyContext0 {i : Instr} {rs : List Reg} {m : PUnit → M Unit} (hready : s.pendingOf rs = false)
    (hi : exec i s = issueM rs s (onlyContext0 >>= m)) : takes i s (s.trap 0x04 0) :=
  hi.trans (issueM_trap hready (by simp [hslot]))

theorem thrSpill_notContext0 (hready : s.pendingOf [d, a, b] = false) (hal : U (s.rg b) % 512 = 0) :
    takes (.thrSpill d a b) s (s.trap 0x04 0) :=
  issueM_trap hready (by simp [hslot, hal])

theorem thrFill_notContext0 (hready : s.pendingOf [d, a, b] = false) (hal : U (s.rg b) % 512 = 0) :
    takes (.thrFill d a b) s (s.trap 0x04 0) :=
  issueM_trap hready (by simp [hslot, hal])

theorem thrStart_notContext0 (hready : s.pendingOf [d, a, 4, 5, 6, 7] = false) (hal : U (s.rg a) % 4 = 0) :
    takes (.thrStart d a) s (s.trap 0x04 0) :=
  issueM_trap hready (by simp [hslot, lowBits_eq_zero_iff, hal])

end

/-! ## Misaligned images and entries (R96, R106) -/

theorem thrSpill_misaligned (hready : s.pendingOf [d, a, b] = false) (h : U (s.rg b) % 512 ≠ 0) :
    takes (.thrSpill d a b) s (s.trap 0x03 (s.rg b)) :=
  issueM_trap hready (by simp [h])

theorem thrFill_misaligned (hready : s.pendingOf [d, a, b] = false) (h : U (s.rg b) % 512 ≠ 0) :
    takes (.thrFill d a b) s (s.trap 0x03 (s.rg b)) :=
  issueM_trap hready (by simp [h])

theorem thrStart_misaligned (hready : s.pendingOf [d, a, 4, 5, 6, 7] = false) (h : U (s.rg a) % 4 ≠ 0) :
    takes (.thrStart d a) s (s.trap 0x03 (s.rg a)) :=
  issueM_trap hready (by simp [lowBits_eq_zero_iff, h])

/-! ## A context that START, STOP, CONT, SPILL and FILL do not name (R89) -/

section
variable (hslot : s.slot = 0)
include hslot

section
variable (hreg : U (s.rg d) = 0 ∨ 15 < U (s.rg d))
include hreg

theorem thrStop_noContext (hready : s.pendingOf [d] = false) : takes (.thrStop d) s (s.trap 0x04 (s.rg d)) :=
  issueM_trap hready (by simp [hslot, run_target, hreg])

theorem thrCont_noContext (hready : s.pendingOf [d] = false) : takes (.thrCont d) s (s.trap 0x04 (s.rg d)) :=
  issueM_trap hready (by simp [hslot, run_target, hreg])

theorem thrStart_noContext (hready : s.pendingOf [d, a, 4, 5, 6, 7] = false) (hal : U (s.rg a) % 4 = 0) :
    takes (.thrStart d a) s (s.trap 0x04 (s.rg d)) :=
  issueM_trap hready (by simp [hslot, lowBits_eq_zero_iff, hal, run_target, hreg])

end

theorem thrSpill_noContext (hready : s.pendingOf [d, a, b] = false) (hreg : U (s.rg a) = 0 ∨ 15 < U (s.rg a))
    (hal : U (s.rg b) % 512 = 0) : takes (.thrSpill d a b) s (s.trap 0x04 (s.rg a)) :=
  issueM_trap hready (by simp [hslot, hal, run_target, hreg])

theorem thrFill_noContext (hready : s.pendingOf [d, a, b] = false) (hreg : U (s.rg a) = 0 ∨ 15 < U (s.rg a))
    (hal : U (s.rg b) % 512 = 0) : takes (.thrFill d a b) s (s.trap 0x04 (s.rg a)) :=
  issueM_trap hready (by simp [hslot, hal, run_target, hreg])

/-! ## THR.START (R96) -/

section
variable (hready : s.pendingOf [d, a, 4, 5, 6, 7] = false) (hal : U (s.rg a) % 4 = 0) (hx : x ≠ 0)
  (hd : s.rg d = wrapU x.val)
include hready hal hx hd

theorem thrStart_busy (hst : (s.ctx s.key x).st ≠ .free) : takes (.thrStart d a) s (s.trap 0x04 (s.rg d)) :=
  issueM_trap hready (by simp [hslot, lowBits_eq_zero_iff, hal, run_target_slot hd hx, hst])

theorem thrStart_starts (hst : (s.ctx s.key x).st = .free) :
    takes (.thrStart d a) s (s.setCtx s.key x ((s.ctx s.key x).started (s.rg a) s.mine.spexit (s.rg 4) (s.rg 5)
      (s.rg 6) (s.rg 7) s.me.asid s.me.rights false none)).seq :=
  issueM_ok hready (u := ()) (by simp [hslot, lowBits_eq_zero_iff, hal, run_target_slot hd hx, hst])

end

/-! ## THR.STOP and THR.CONT (R95, R224) -/

section
variable (hready : s.pendingOf [d] = false) (hx : x ≠ 0) (hd : s.rg d = wrapU x.val)
include hready hx hd

theorem thrStop_stops : takes (.thrStop d) s (s.stop s.key x).seq :=
  issueM_ok hready (u := ()) (by simp [hslot, run_target_slot hd hx])

/-- A context that is not out of rotation by a stop or a trap is not continued. -/
theorem thrCont_ignored (hst : ¬ ((s.ctx s.key x).st = .stopped ∨ (s.ctx s.key x).st = .trapped)) :
    takes (.thrCont d) s s.seq :=
  issueM_ok hready (u := ()) (by simp [hslot, run_target_slot hd hx, hst])

theorem thrCont_continues (hst : (s.ctx s.key x).st = .stopped ∨ (s.ctx s.key x).st = .trapped)
    (hend : (s.ctx s.key x).ending = false) :
    takes (.thrCont d) s (s.setCtx s.key x (s.ctx s.key x).continued).seq :=
  issueM_ok hready (u := ()) (by simp [hslot, run_target_slot hd hx, hst, hend])

end
end

section
variable {k : Nat} (hend : (s.ctx k x).ending = false)
include hend

/-- A context that is in no state from which it could be stopped. -/
theorem State.stop_ignored (hst : (s.ctx k x).st ∈ [CtxSt.free, .exited, .spilling, .filling]) : s.stop k x = s := by
  simp only [List.mem_cons, List.not_mem_nil, or_false] at hst
  unfold State.stop
  rcases hst with hst | hst | hst | hst <;> simp [hend, hst]

theorem State.stop_waitsForVls (hst : (s.ctx k x).st = .blocked) (hv : (s.ctx k x).inVls = true) :
    s.stop k x = s.setCtx k x { s.ctx k x with stopping := true } := by
  simp [State.stop, hend, hst, hv]

theorem State.stop_fromRotation (hst : (s.ctx k x).st ∈ [CtxSt.run, .blocked])
    (hv : (s.ctx k x).st = .run ∨ (s.ctx k x).inVls = false) :
    s.stop k x = s.setCtx k x { s.ctx k x with st := .stopped } := by
  simp only [List.mem_cons, List.not_mem_nil, or_false] at hst
  unfold State.stop
  rcases hst with hst | hst
  · simp [hend, hst]
  · have hv : (s.ctx k x).inVls = false := hv.resolve_left (by simp [hst])
    simp [hend, hst, hv]

end

/-- A context resumes at sr.npc where SKIP does not ask to pass its instruction (R281). -/
theorem continued_eq {c e : Ctx} (he : (if c.outstanding then c else c.flushed) = e) (hskip : e.skip = false) :
    c.continued = { e with trapRec := false, st := if e.wait.isSome then .blocked else .run } := by
  unfold Ctx.continued
  simp only [he, hskip, Bool.false_eq_true, if_false]

/-! ## The lowest of a table, for THR.REAP and THR.RQPOP (R111) -/

theorem find?_finRange_eq_some {n : Nat} {p : Fin n → Bool} {i : Fin n} (hi : p i = true)
    (hlow : ∀ j, j < i → p j = false) : (List.finRange n).find? p = some i := by
  rw [← Fin.find?_eq_find?_finRange]
  exact Fin.find?_eq_some_iff.mpr ⟨hi, hlow⟩

theorem find?_finRange_eq_none {n : Nat} {p : Fin n → Bool} (h : ∀ i, p i = false) :
    (List.finRange n).find? p = none := by
  rw [← Fin.find?_eq_find?_finRange]
  exact Fin.find?_eq_none_iff.mpr h

/-- Nothing comes from an empty ring. -/
theorem State.refill_empty {k : Nat} {p : Fin 4} (h : (s.core k).ring = []) : s.refill k p = s := by
  unfold State.refill
  dsimp only
  rw [h]
  rfl

section
variable (hslot : s.slot = 0) (hready : s.pendingOf [d] = false)
include hslot hready

theorem thrReap_none (h : ∀ y : Slot, (s.mine.ctxs[y]).st ≠ .exited) : takes (.thrReap d) s (s.result d 0) := by
  have hfind : s.mine.exitedCtx = none := find?_finRange_eq_none fun y => decide_eq_false (h y)
  exact issueM_ok hready (u := ()) (by simp [hslot, hfind])

theorem thrReap_frees (hlow : ∀ y : Slot, y < x → (s.mine.ctxs[y]).st ≠ .exited)
    (hx : (s.mine.ctxs[x]).st = .exited) :
    takes (.thrReap d) s ((s.setCtx s.key x { s.ctx s.key x with st := .free }).result d (wrapU x.val)) := by
  have hfind : s.mine.exitedCtx = some x :=
    find?_finRange_eq_some (decide_eq_true hx) fun y hy => decide_eq_false (hlow y hy)
  exact issueM_ok hready (u := ()) (by simp [hslot, hfind])

theorem thrRqpop_none (h : ∀ p : Fin 4, s.mine.ready[p] = []) : takes (.thrRqpop d) s (s.result d 0) := by
  have hfind : ((List.finRange 4).find? fun p => !(s.mine.ready[p]).isEmpty) = none :=
    find?_finRange_eq_none fun p => by rw [h p]; rfl
  refine issueM_ok hready (u := ()) ?_
  simp only [run_bind, run_onlyContext0, hslot, if_true, run_modify, hfind]

/-- Where the ring is empty, nothing follows the task that is taken. -/
theorem thrRqpop_pops {p : Fin 4} {t : BitVec 16} {l : List (BitVec 16)}
    (hlow : ∀ o : Fin 4, o < p → s.mine.ready[o] = []) (hp : s.mine.ready[p] = t :: l) (hring : s.mine.ring = []) :
    takes (.thrRqpop d) s ((s.modMine fun c => { c with ready := c.ready.set p l }).result d
      (wrapU (p.val * 0x10000 + t.toNat))) := by
  have hfind : ((List.finRange 4).find? fun p => !(s.mine.ready[p]).isEmpty) = some p :=
    find?_finRange_eq_some (by rw [hp]; rfl) fun o ho => by rw [hlow o ho]; rfl
  have hcore : ((s.modMine fun c => { c with ready := c.ready.set p l }).core s.key).ring = [] :=
    (congrArg Core.ring (State.core_setCore_self s s.key _)).trans hring
  have hpop : (s.modMine fun c => { c with ready := c.ready.set p (c.ready[p]).tail }) =
      s.modMine fun c => { c with ready := c.ready.set p l } := by
    simp only [State.modMine_eq, hp, List.tail_cons]
  refine issueM_ok hready (u := ()) ?_
  simp only [run_bind, run_onlyContext0, hslot, if_true, run_modify, hfind, hpop, hp, List.headD_cons]
  exact congrArg (fun t : State => EStateM.Result.ok () (t.result d _)) (State.refill_empty hcore)

end

/-! ## THR.IDLE and the redirect (R98) -/

section
variable {k : Nat} {g : Core → Core} (hg : ∀ c, (g c).ctxs = c.ctxs) (f : Ctx → Ctx)
include hg

/-- A context, and what of its core is no context, change apart. -/
theorem State.core_modCore_modCtx : ((s.modCore k g).modCtx k x f).core k =
    { g (s.core k) with ctxs := (s.core k).ctxs.set x (f (s.ctx k x)) } := by
  rw [State.modCtx_eq, State.core_setCtx_self, State.ctx_modCore hg, State.modCore_eq, State.core_setCore_self, hg]

theorem State.ctx_modCore_modCtx : ((s.modCore k g).modCtx k x f).ctx k x = f (s.ctx k x) := by
  rw [State.modCtx_eq, State.ctx_setCtx_self, State.ctx_modCore hg]

end

/-- The state in which context 0 is idle: delivery is on, and the context is out of rotation. -/
def State.idled (s : State) : State :=
  (s.modMine fun c => { c with delivery := true }).modMe fun c => { c.settled with st := .blocked }

theorem thrIdle_idles (hslot : s.slot = 0) : takes .thrIdle s s.idled :=
  issueM_ok (rs := []) rfl (u := ()) (by simp [hslot, State.idled])

/-- An idle context 0 has delivery on and is out of rotation; nothing else of its core changes. -/
theorem State.mine_idled (s : State) : s.idled.mine =
    { s.mine with delivery := true, ctxs := s.mine.ctxs.set s.slot { s.me.settled with st := .blocked } } :=
  State.core_modCore_modCtx (k := s.key) (x := s.slot) (g := fun c => { c with delivery := true }) (fun _ => rfl)
    fun c => { c.settled with st := .blocked }

theorem State.me_idled (s : State) : s.idled.me = { s.me.settled with st := .blocked } :=
  State.ctx_modCore_modCtx (k := s.key) (x := s.slot) (g := fun c => { c with delivery := true }) (fun _ => rfl)
    fun c => { c.settled with st := .blocked }

/-- Context 0 of a core is in rotation at sr.evec, and delivery is off. -/
def State.redirected (s : State) (k : Nat) : State :=
  (s.modCore k fun c => { c with delivery := false }).modCtx k 0 fun c => { c with st := .run, pc := (s.core k).evec }

theorem State.ctx_redirected (s : State) (k : Nat) :
    (s.redirected k).ctx k 0 = { s.ctx k 0 with st := .run, pc := (s.core k).evec } :=
  State.ctx_modCore_modCtx (g := fun c => { c with delivery := false }) (fun _ => rfl)
    fun c => { c with st := .run, pc := (s.core k).evec }

theorem State.core_redirected (s : State) (k : Nat) : (s.redirected k).core k =
    { s.core k with
      delivery := false
      ctxs := (s.core k).ctxs.set 0 { s.ctx k 0 with st := .run, pc := (s.core k).evec } } :=
  State.core_modCore_modCtx (g := fun c => { c with delivery := false }) (fun _ => rfl)
    fun c => { c with st := .run, pc := (s.core k).evec }

theorem takes_eventRedirect {k : Nat} (hdel : (s.core k).delivery = true) (hev : (s.core k).event ≠ 0) :
    takes (.eventRedirect k) s (s.redirected k) := by
  show execEventRedirect k s = _
  exact congrArg done (if_pos ⟨hdel, hev⟩)

end

/-- A turn of a core whose context may not issue redirects it where it is an idle context 0 with an event. -/
theorem step_of_redirect {s : State} {k : Nat} {c : Core} {rest : List Nat} (hretry : s.retry = [])
    (hurgent : s.urgent = []) (hdue : s.dueInput = none) (hsched : s.sched = 0 :: rest)
    (hcore : s.cores[s.turn]? = some (k, c))
    (hmay : ({ s with sched := rest, turn := s.turn + 1 } : State).mayIssue k s.owner = false)
    (hre : ({ s with sched := rest, turn := s.turn + 1 } : State).redirects k s.owner = true) :
    step s = exec (.eventRedirect k) { s with sched := rest, turn := s.turn + 1 } := by
  have hstep : step s = scheduled s := by
    unfold step stepOnce
    rw [hretry, hurgent, hdue]
  rw [hstep, scheduled_turn hsched]
  unfold issueTurn
  split
  next h => cases h.symm.trans hcore
  next k' c' h =>
    cases h.symm.trans hcore
    exact (if_neg (Bool.eq_false_iff.mp hmay)).trans (if_pos hre)

end Sys2Proof.Machine
end

section

open Sys2Proof Sys2Proof.Machine

/-- Settles O32: each clause is one way in which an instruction of context 0 ends, or its redirect. -/
theorem contextZeroInstructions : Obligations.ContextZeroInstructions := by
  unfold Obligations.ContextZeroInstructions
  intro s d a b x hp ready
  have hd : s.pendingOf [d] = false := pendingOf_of_subset hp (by simp)
  have hstart (h : ready) : s.pendingOf [d, a, 4, 5, 6, 7] = false :=
    pendingOf_append (rs := [d, a]) (pendingOf_of_subset hp (by simp)) h
  refine ⟨fun hslot => ⟨?others,
      fun hal => ⟨thrSpill_notContext0 hslot hp hal, thrFill_notContext0 hslot hp hal⟩,
      fun h hal => thrStart_notContext0 hslot (hstart h) hal⟩,
    fun hal => ⟨thrSpill_misaligned hp hal, thrFill_misaligned hp hal⟩,
    fun h hal => thrStart_misaligned (hstart h) hal,
    fun hslot => ⟨issueM_trap rfl (by simp [hslot]), issueM_trap rfl (by simp [hslot]),
      fun hreg => ⟨thrStop_noContext hslot hreg hd, thrCont_noContext hslot hreg hd,
        fun h hal => thrStart_noContext hslot hreg (hstart h) hal⟩,
      fun hreg hal => ⟨thrSpill_noContext hslot hp hreg hal, thrFill_noContext hslot hp hreg hal⟩⟩,
    fun hslot hx => ⟨fun hreg h hal => ⟨thrStart_busy hslot (hstart h) hal hx hreg,
      fun hst => ⟨_, thrStart_starts hslot (hstart h) hal hx hreg hst, rfl, rd_started .., fun r => ?registers⟩⟩,
      fun hreg hend => ⟨fun hst => ?out, fun hst => ?rotation, fun hst => ?resumed⟩,
      thrReap_none hslot hd, thrReap_frees hslot hd, thrRqpop_none hslot hd, fun p t l => thrRqpop_pops hslot hd,
      ⟨s.idled, thrIdle_idles hslot, ?idle⟩⟩,
    ?redirect⟩
  case others =>
    simp only [List.forall_mem_cons, List.not_mem_nil, IsEmpty.forall_iff, implies_true, and_true]
    exact ⟨takes_onlyContext0 hslot hd rfl, takes_onlyContext0 hslot hd rfl, takes_onlyContext0 hslot hd rfl,
      takes_onlyContext0 hslot hd rfl, takes_onlyContext0 hslot (rs := []) rfl rfl⟩
  case registers =>
    rw [rd_started]
    grind
  case out =>
    have hstop := thrStop_stops hslot hd hx hreg
    rw [State.stop_ignored hend hst] at hstop
    refine ⟨hstop, thrCont_ignored hslot hd hx hreg ?_⟩
    rintro (h | h) <;> simp [h] at hst
  case rotation =>
    have hstop := thrStop_stops hslot hd hx hreg
    refine ⟨fun hb hv => ?_, fun hv => ?_, thrCont_ignored hslot hd hx hreg ?_⟩
    · rwa [State.stop_waitsForVls hend hb hv] at hstop
    · rwa [State.stop_fromRotation hend hst hv] at hstop
    · rintro (h | h) <;> simp [h] at hst
  case resumed =>
    intro e hskip
    have hcont := thrCont_continues hslot hd hx hreg (by simpa using hst) hend
    rwa [continued_eq (e := e) rfl hskip] at hcont
  case idle =>
    have hmine := State.mine_idled s
    have hme := State.me_idled s
    refine ⟨congrArg Core.delivery hmine, congrArg Ctx.st hme, ?samePc, rfl, ?sameEvent, rfl, fun hev hrun => ?due⟩
    case samePc => rw [hme]; rfl
    case sameEvent => rw [hmine]
    case due =>
      have hdel : (s.idled.core s.key).delivery = true := congrArg Core.delivery hmine
      have hsame : (s.idled.core s.key).event = s.mine.event :=
        (congrArg Core.event hmine : s.idled.mine.event = _)
      rw [State.redirects, hdel, hsame, hrun, bne_iff_ne.mpr hev]
      rfl
  case redirect =>
    intro k rest e hretry hurgent hdue hsched hcore before hmay howner hre
    have hre' := hre
    simp only [State.redirects, Bool.and_eq_true, bne_iff_ne] at hre'
    obtain ⟨⟨⟨-, hdel⟩, hev⟩, -⟩ := hre'
    have hown : s.owner = 0 := howner
    rw [← hown] at hmay hre
    refine ⟨before.redirected k,
      (step_of_redirect hretry hurgent hdue hsched hcore hmay hre).trans (takes_eventRedirect hdel hev), ?_⟩
    rw [State.core_redirected, State.ctx_redirected]
    exact ⟨rfl, rfl, rfl, rfl, rfl⟩
end

section
/-! SUPPORT. What a trap of the instruction that executes leaves of the state (R279). -/

namespace Sys2Proof.Machine

section
variable {s : State} {n : Nat} {v : Word}

/-- The context that traps. -/
theorem State.me_trap (hend : s.me.ending = false) : (s.trap n v).me = s.me.trapped n v (some s.len) := by
  have hctx : (s.ctx s.cur.key s.cur.slot).ending = false := hend
  unfold State.trap State.trapWith
  rw [if_neg (by simp [hctx])]
  dsimp only
  split
  · exact State.ctx_setCtx_self s s.cur.key s.cur.slot _
  · simp [State.raise, State.ctx, State.setCtx, State.me]

/-- A trap of context 0 sends a machine check. -/
theorem State.trap_context0 (hend : s.me.ending = false) (hslot : s.slot = 0) :
    s.trap n v = (s.setMe (s.me.trapped n v (some s.len))).post
      (.machineCheck s.key 0 ((s.me.trapped n v (some s.len)).check 1)) := by
  have hcur : s.cur.slot = 0 := hslot
  have hctx : ¬(s.ctx s.cur.key s.cur.slot).ending = true := Bool.eq_false_iff.mp hend
  unfold State.trap State.trapWith
  rw [if_neg hctx]
  dsimp only
  rw [if_pos hcur]
  refine congrArg (fun c : Ctx => (s.setMe _).post (.machineCheck s.key 0 (c.check 1))) ?_
  rw [← hcur]
  exact State.ctx_setCtx_self s s.cur.key s.cur.slot _

/-- A trap of any other context raises TRAP. -/
theorem State.trap_other (hend : s.me.ending = false) (hslot : s.slot ≠ 0) :
    s.trap n v = (s.setMe (s.me.trapped n v (some s.len))).raise s.key evTrap := by
  have hcur : ¬s.cur.slot = 0 := hslot
  have hctx : ¬(s.ctx s.cur.key s.cur.slot).ending = true := Bool.eq_false_iff.mp hend
  unfold State.trap State.trapWith
  rw [if_neg hctx]
  dsimp only
  rw [if_neg hcur]
  rfl

theorem State.event_setMe (s : State) (c : Ctx) : (s.setMe c).mine.event = s.mine.event :=
  (congrArg Core.event (State.core_setCtx_self s s.cur.key s.cur.slot c) :)

/-- An event bit changes no context. -/
theorem State.ctx_raise (s : State) (k j n : Nat) (x : Slot) : (s.raise k n).ctx j x = s.ctx j x :=
  by
  by_cases hj : j = k
  · subst hj; exact State.ctx_modCore fun _ => rfl
  · exact congrArg (fun c : Core => c.ctxs[x]) (State.core_setCore_ne s _ hj)

/-- Beside the context that traps, its core's event register and the steps on their way, nothing changes. -/
theorem State.trap_keeps (hend : s.me.ending = false) :
    (∀ x : Slot, x ≠ s.slot → (s.trap n v).ctx s.key x = s.ctx s.key x) ∧
    (∀ k, k ≠ s.key → (s.trap n v).core k = s.core k) ∧
    (s.trap n v).mem = s.mem ∧ (s.trap n v).hw = s.hw ∧ (s.trap n v).parts = s.parts := by
  have hother : ∀ k, k ≠ s.key → (s.setMe (s.me.trapped n v (some s.len))).core k = s.core k :=
    fun k hk => State.core_setCore_ne s _ hk
  by_cases hslot : s.slot = 0
  · rw [State.trap_context0 hend hslot]
    exact ⟨fun x hx => State.ctx_setCtx_slot s s.key _ hx, hother, rfl, rfl, rfl⟩
  · rw [State.trap_other hend hslot]
    refine ⟨fun x hx => ?_, fun k hk => ?_, rfl, rfl, rfl⟩
    · rw [State.ctx_raise]
      exact State.ctx_setCtx_slot s s.key _ hx
    · exact (State.core_setCore_ne _ _ hk).trans (hother k hk)

end

end Sys2Proof.Machine
end

section
open Sys2Proof Sys2Proof.Machine

/-- Settles O39: a trap changes the context that traps, and beside it raises TRAP or sends a machine check. -/
theorem trapEntry : Obligations.TrapEntry := by
  unfold Obligations.TrapEntry
  intro s n v hn hend t
  have hme : t.me = s.me.trapped n v (some s.len) := State.me_trap hend
  have hcause : (BitVec.ofNat 8 n).toNat = n := toNat_ofNat_of_lt hn
  obtain ⟨hctx, hcore, hmem, hhw, hparts⟩ := State.trap_keeps (n := n) (v := v) hend
  rw [hme]
  refine ⟨hcause, rfl, rfl, rfl, rfl, rfl, rfl, rfl, fun r => (congrArg (Ctx.rd · r) hme :), rfl, rfl, rfl, rfl, rfl,
    rfl, rfl, hctx, hcore, hmem, hhw, hparts, fun hslot => ?_, fun hslot => ?_⟩
  · have ht : t = (s.setMe (s.me.trapped n v (some s.len))).raise s.key evTrap := State.trap_other hend hslot
    rw [ht]
    exact ⟨(State.event_raise_self _ _ _).trans (congrArg (· ||| 2#9) (State.event_setMe s _)), rfl⟩
  · have ht := State.trap_context0 (n := n) (v := v) hend hslot
    rw [show t = _ from ht]
    refine ⟨State.event_setMe s _, ?_⟩
    simp [State.post, Ctx.check, Ctx.causeWord, Ctx.trapped, Ctx.settled, Nat.mod_eq_of_lt hn]
end

section
/-! SUPPORT. Watches, semaphores and engine bindings (R103, R104, R112): one lemma for each way such an
instruction ends. -/

namespace Sys2Proof.Machine

section
variable {s : State} {d a : Reg}

/-! ## Watches (R112) -/

theorem watches_any_eq_false
    (hnew : ∀ e ∈ s.mine.watches.filter fun e => e.2 = .slot s.slot, e.1 ≠ U (s.rg d)) :
    (s.mine.watches.filter fun e => e.2 = .slot s.slot).any (fun e => decide (e.1 = U (s.rg d))) = false := by
  simpa only [List.any_eq_false, decide_eq_true_eq] using hnew

section
variable (hready : s.pendingOf [d] = false)
include hready

theorem thrWatch_misaligned (h : U (s.rg d) % 8 ≠ 0) : takes (.thrWatch d) s (s.trap 0x03 (s.rg d)) :=
  issueM_trap hready (by simp [lowBits_eq_zero_iff, h])

section
variable (hal : U (s.rg d) % 8 = 0)
include hal

theorem thrWatch_outside (h : s.window s.myPart < U (s.rg d) + 8) : takes (.thrWatch d) s (s.trap 0x04 (s.rg d)) :=
  issueM_trap hready (by simp [lowBits_eq_zero_iff, hal, h])

section
variable (hin : U (s.rg d) + 8 ≤ s.window s.myPart)
include hin

/-- A word that the issuer watches already. -/
theorem thrWatch_again (h : ∃ e ∈ s.mine.watches.filter fun e => e.2 = .slot s.slot, e.1 = U (s.rg d)) :
    takes (.thrWatch d) s s.seq := by
  have hany : (s.mine.watches.filter fun e => e.2 = .slot s.slot).any (fun e => decide (e.1 = U (s.rg d))) = true := by
    simpa only [List.any_eq_true, decide_eq_true_eq] using h
  refine issueM_ok hready (u := ()) ?_
  simp only [run_bind, run_get, run_trapIf, hany]
  simp [lowBits_eq_zero_iff, hal, Nat.not_lt.mpr hin]

section
variable (hnew : ∀ e ∈ s.mine.watches.filter fun e => e.2 = .slot s.slot, e.1 ≠ U (s.rg d))
include hnew

theorem thrWatch_full (h : 4 ≤ (s.mine.watches.filter fun e => e.2 = .slot s.slot).length ∨
    64 ≤ s.mine.watches.length) : takes (.thrWatch d) s (s.trap 0x04 (s.rg d)) := by
  refine issueM_trap hready ?_
  simp only [run_bind, run_get, run_trapIf, watches_any_eq_false hnew]
  simp [lowBits_eq_zero_iff, hal, Nat.not_lt.mpr hin, h]

theorem thrWatch_adds (hmine : (s.mine.watches.filter fun e => e.2 = .slot s.slot).length < 4)
    (hall : s.mine.watches.length < 64) : takes (.thrWatch d) s
      (s.modMine fun c => { c with watches := c.watches ++ [(U (s.rg d), .slot s.slot)] }).seq := by
  refine issueM_ok hready (u := ()) ?_
  simp only [run_bind, run_get, run_trapIf, watches_any_eq_false hnew]
  simp [lowBits_eq_zero_iff, hal, Nat.not_lt.mpr hin, Nat.not_le.mpr hmine,
    Nat.not_le.mpr hall]

end
end
end
end

theorem thrUnwatch_removes (hready : s.pendingOf [d] = false) : takes (.thrUnwatch d) s
    (s.modMine fun c => { c with watches := c.watches.filter (· ≠ (U (s.rg d), Owner.slot s.slot)) }).seq := by
  show execThrUnwatch d s = _
  rw [execThrUnwatch, issue_ready hready]

/-! ## THR.WAIT (R112) -/

theorem thrWait_hit (h : s.me.hit = true) : takes .thrWait s (s.setMe { s.me with hit := false }).seq :=
  issueM_ok (rs := []) rfl (u := ()) (by simp [h])

theorem thrWait_waits (h : s.me.hit = false) : takes .thrWait s (s.block .watch) :=
  issueM_block (rs := []) rfl (by simp [h])

/-! ## Semaphores (R104) -/

/-- A semaphore counts up to 0xFFFF and stays there. -/
theorem Sem.up (c : BitVec 16) : (if c = 0xFFFF then c else c + 1) = wrap16 (min (c.toNat + 1) 0xFFFF) := by
  split <;> bv_omega

section
variable (hready : s.pendingOf [d] = false)
include hready

theorem thrSemp_noSemaphore (h : 8 ≤ U (s.rg d)) : takes (.thrSemp d) s (s.trap 0x04 (s.rg d)) :=
  issueM_trap hready (by simp [Nat.not_lt.mpr h])

theorem thrSemv_noSemaphore (h : 8 ≤ U (s.rg d)) : takes (.thrSemv d) s (s.trap 0x04 (s.rg d)) :=
  issueM_trap hready (by simp [Nat.not_lt.mpr h])

section
variable {n : Fin 8} {e : Sem} (hn : U (s.rg d) = n.val) (he : s.mine.sems[n.val] = e)
include hn he

theorem thrSemp_counts (h : e.count ≠ 0#16) : takes (.thrSemp d) s
    (s.modMine fun c => { c with sems := c.sems.set n { e with count := e.count - 1 } }).seq :=
  issueM_ok hready (u := ()) (by simp [hn, he, h])

theorem thrSemp_queues (h : e.count = 0) : takes (.thrSemp d) s
    ((s.modMine fun c => { c with sems := c.sems.set n { e with queue := e.queue ++ [s.slot] } }).block
      (.semp n.val)) :=
  issueM_block hready (by simp [hn, he, h])

section
variable (hechoes : s.me.posted = [])
include hechoes

theorem thrSemv_counts (h : e.queue = []) : takes (.thrSemv d) s
    (s.modMine fun c => { c with
      sems := c.sems.set n { e with count := wrap16 (min (e.count.toNat + 1) 0xFFFF) } }).seq := by
  rw [← Sem.up]
  exact issueM_ok hready (u := ()) (by simp [hn, he, hechoes, h])

theorem thrSemv_wakes {x : Slot} {q : List Slot} (h : e.queue = x :: q) : takes (.thrSemv d) s
    ((s.modMine fun c => { c with sems := c.sems.set n { e with queue := q } }).finish s.key x 0 0).seq :=
  issueM_ok hready (u := ()) (by simp [hn, he, hechoes, h])

end
end
end
end

/-! ## Engines (R103) -/

section
variable {s : State} {d a : Reg}

/-- Two changes of one core are one. -/
theorem State.modMine_modMine (f g : Core → Core) : (s.modMine f).modMine g = s.modMine fun c => g (f c) := by
  simp [State.mine]

theorem Core.bindTo_vector (c : Core) (x : Slot) (asid : BitVec 16) : c.bindTo 1 x asid = { c with
    v := if c.vecEng.last = some asid then c.v else Vector.replicate 32 0
    q := if c.vecEng.last = some asid then c.q else Vector.replicate 4 0
    vecEng := ⟨some (.slot x), some asid⟩ } := by
  simp only [Core.bindTo, Core.engine, if_true]
  split <;> rfl

theorem Core.bindTo_matrix (c : Core) (x : Slot) (asid : BitVec 16) : c.bindTo 2 x asid = { c with
    z := if c.mtxEng.last = some asid then c.z else Vector.replicate 4 (Vector.replicate 256 0)
    mcfg := if c.mtxEng.last = some asid then c.mcfg else 0xF0F
    mtxEng := ⟨some (.slot x), some asid⟩ } := by
  simp only [Core.bindTo, Core.engine, OfNat.ofNat_ne_one, if_false, if_true]
  split <;> rfl

theorem Core.bindTo_copy (c : Core) (x : Slot) (asid : BitVec 16) :
    c.bindTo 3 x asid = { c with cpyEng := ⟨some (.slot x), some asid⟩ } := by
  show (if (c.engine 3).last = some asid then c else c).setEngine 3 _ = _
  rw [ite_self]
  rfl

/-- The code of the engine that an issuer asks for is one of none, vector, matrix and copy. -/
theorem thrBind_noEngine (hready : s.pendingOf [d, a] = false) (h : 3 < U (s.rg a)) :
    takes (.thrBind d a) s (s.result d 2) :=
  issueM_ok hready (u := ()) (by simp [h])

section
variable (hready : s.pendingOf [d, a] = false) {n : Nat} (ha : U (s.rg a) = n) (hn : n ≤ 3)
include hready ha hn

theorem thrBind_held {o : Owner} (hpos : n ≠ 0) (howner : (s.mine.engine n).owner = some o) (ho : o ≠ .slot s.slot) :
    takes (.thrBind d a) s (s.result d 1) :=
  issueM_ok hready (u := ()) (by simp [ha, Nat.not_lt.mpr hn, hpos, howner, ho])

/-- An engine that nobody has is bound to an issuer that has none. -/
theorem thrBind_binds (hpos : n ≠ 0) (howner : (s.mine.engine n).owner = none) (hbind : s.me.bind = 0#2) :
    let t := s.modMine fun c => c.bindTo n s.slot s.me.asid
    takes (.thrBind d a) s ((t.setMe { t.me with bind := BitVec.ofNat 2 n }).result d 0) := by
  have hme : (s.modMine fun c => c.freeEngine 0).me = s.me :=
    State.ctx_modCore (g := fun c => c.freeEngine 0) fun _ => rfl
  have hfreed : ((s.modMine fun c => c.freeEngine 0).modMine fun c =>
      c.bindTo n s.slot (s.modMine fun c => c.freeEngine 0).me.asid) =
        s.modMine fun c => c.bindTo n s.slot s.me.asid := by
    rw [hme, State.modMine_modMine]
    rfl
  refine issueM_ok hready (u := ()) ?_
  simp only [run_bind, run_get, ha, gt_iff_lt, Nat.not_lt.mpr hn, if_false, howner, Bool.and_false,
    Bool.false_eq_true, run_blockIf, hbind, hpos]
  exact congrArg (fun t : State => EStateM.Result.ok ()
    ((t.modMe fun c => { c with bind := BitVec.ofNat 2 n }).result d 0)) hfreed

end

/-- An engine that its issuer gives up keeps the identifier of its last bind. -/
theorem thrBind_unbinds (hready : s.pendingOf [d, a] = false) (ha : U (s.rg a) = 0) (hbind : s.me.bind = 1#2) :
    let t := s.modMine fun c => { c with vecEng := { c.vecEng with owner := none } }
    takes (.thrBind d a) s ((t.setMe { t.me with bind := 0 }).result d 0) := by
  refine issueM_ok hready (u := ()) ?_
  simp only [run_bind, run_get, ha, gt_iff_lt, Nat.not_lt_zero, if_false,
    bne_self_eq_false, Bool.false_and, Bool.false_eq_true, run_blockIf, hbind, if_true]
  rfl

end

end Sys2Proof.Machine
end

section
open Sys2Proof Sys2Proof.Machine

/-- Settles O35: each clause is one way in which such an instruction ends. -/
theorem watchesSemaphoresEngines : Obligations.WatchesSemaphoresEngines := by
  unfold Obligations.WatchesSemaphoresEngines
  intro s d a hready v mine
  have hd : s.pendingOf [d] = false := pendingOf_of_subset hready (by simp)
  refine ⟨thrWatch_misaligned hd, fun hal => thrWatch_outside hd hal, fun hal hin => ⟨thrWatch_again hd hal hin,
      thrWatch_full hd hal hin, thrWatch_adds hd hal hin⟩, thrUnwatch_removes hd, thrWait_hit, thrWait_waits,
    fun h => ⟨thrSemp_noSemaphore hd h, thrSemv_noSemaphore hd h⟩, ?semaphore, thrBind_noEngine hready, ?held, ?vector,
    ?matrix, ?copy, ?unbind⟩
  case semaphore =>
    intro n hv e with_
    have hn : U (s.rg d) = n.val := (congrArg U hv).trans (toNat_ofNat_of_lt (by omega))
    exact ⟨thrSemp_counts hd hn rfl, thrSemp_queues hd hn rfl, fun hp => thrSemv_counts hd hn rfl hp,
      fun x q hp => thrSemv_wakes hd hn rfl hp⟩
  case held =>
    rintro o ho (⟨ha, howner⟩ | ⟨ha, howner⟩ | ⟨ha, howner⟩)
    · exact thrBind_held hready (n := 1) (congrArg U ha) (by decide) (by decide) howner ho
    · exact thrBind_held hready (n := 2) (congrArg U ha) (by decide) (by decide) howner ho
    · exact thrBind_held hready (n := 3) (congrArg U ha) (by decide) (by decide) howner ho
  case vector =>
    intro hbind ha howner keep t
    have ht : t = s.modMine fun c => c.bindTo 1 s.slot s.me.asid :=
      congrArg (s.setCore s.cur.key) (Core.bindTo_vector s.mine s.slot s.me.asid).symm
    rw [ht]
    exact thrBind_binds hready (congrArg U ha) (by decide) (by decide) howner hbind
  case matrix =>
    intro hbind ha howner keep t
    have ht : t = s.modMine fun c => c.bindTo 2 s.slot s.me.asid :=
      congrArg (s.setCore s.cur.key) (Core.bindTo_matrix s.mine s.slot s.me.asid).symm
    rw [ht]
    exact thrBind_binds hready (congrArg U ha) (by decide) (by decide) howner hbind
  case copy =>
    intro hbind ha howner t
    have ht : t = s.modMine fun c => c.bindTo 3 s.slot s.me.asid :=
      congrArg (s.setCore s.cur.key) (Core.bindTo_copy s.mine s.slot s.me.asid).symm
    rw [ht]
    exact thrBind_binds hready (congrArg U ha) (by decide) (by decide) howner hbind
  case unbind =>
    exact fun hbind ha => thrBind_unbinds hready (congrArg U ha) hbind
end

section
/-! SUPPORT. Messages (R110, R111, R113): their checks at the issuer, and what they do at their target. -/

namespace Sys2Proof.Machine

/-! ## The checks at the issuer -/

section
variable {s : State} {core off : Word}

theorem messageCheck_misaligned (h : U off % 8 ≠ 0) : messageCheck core off s = .error (.trap 0x03 off) s := by
  simp [messageCheck, lowBits_eq_zero_iff, h]

section
variable (hal : U off % 8 = 0)
include hal

theorem messageCheck_absent (h : s.presentCore s.myPart (U core) = false) :
    messageCheck core off s = .error (.trap 0x04 core) s := by
  simp [messageCheck, lowBits_eq_zero_iff, hal, h]

section
variable (hcore : s.presentCore s.myPart (U core) = true)
include hcore

theorem messageCheck_outside (h : s.window s.myPart < U off + 8) :
    messageCheck core off s = .error (.trap 0x04 off) s := by
  simp [messageCheck, lowBits_eq_zero_iff, hal, hcore, h]

theorem messageCheck_passes (hin : U off + 8 ≤ s.window s.myPart) (hechoes : s.me.posted = []) :
    messageCheck core off s = .ok (keyOf (U core) s.myPart) s := by
  simp [messageCheck, lowBits_eq_zero_iff, hal, hcore, Nat.not_lt.mpr hin, -bind_pure_comp, hechoes]

end
end

variable {d a b : Reg} {c : Nat} {v : Word}

theorem msgDec_traps (hready : s.pendingOf [d, a] = false) (h : messageCheck (s.rg d) (s.rg a) s = .error (.trap c v) s) :
    takes (.msgDec d a) s (s.trap c v) ∧ takes (.msgInc d a) s (s.trap c v) :=
  ⟨issueM_trap hready (by simp [h]), issueM_trap hready (by simp [h])⟩

theorem msgPut_traps (hready : s.pendingOf [d, a, b] = false)
    (h : messageCheck (s.rg a) (s.rg b) s = .error (.trap c v) s) : takes (.msgPut d a b) s (s.trap c v) :=
  issueM_trap hready (by simp [h])

end

/-! ## At the target -/

section
variable {s : State} {src k off : Nat}

/-- What a local word reads as is less than 2^64. -/
theorem State.loadLocal_lt (s : State) (k off : Nat) : s.loadLocal k off 8 < 2 ^ 64 :=
  (Memory.readNat_lt _ _ 8).trans_eq (by norm_num)

/-- A word of 64 bits less one. -/
theorem toNat_sub_one {w : Nat} (hw : w < 2 ^ 64) (hpos : w ≠ 0) : (BitVec.ofNat 64 w - 1).toNat = w - 1 := by
  bv_omega

/-- A decrement, in terms of what its counter reads as. -/
theorem takes_msgDecApply {w : Nat} (hw : s.loadLocal k off 8 = w) {p : Fin 4} (hp : p.val = w / 2 ^ 48 % 4) :
    takes (.msgDecApply src k off) s
      (if w % 2 ^ 32 = 0 then s
      else if w % 2 ^ 32 = 1 ∧ w / 2 ^ 32 % 2 ^ 16 ≠ 0 then
        if (s.core k).queueFull p then (s.raise k evRqovf).storeLocal k off 8 ((w - 1) ||| 2 ^ 63)
        else ((s.append k p (BitVec.ofNat 16 (w / 2 ^ 32))).raise k evReady).storeLocal k off 8 (w - 1)
      else s.storeLocal k off 8 (w - 1)) := by
  have hlt : w < 2 ^ 64 := by rw [← hw]; exact s.loadLocal_lt k off
  have hold : (BitVec.ofNat 64 w).toNat = w := toNat_ofNat_of_lt hlt
  have hn (m : Nat) (hm : m < 2 ^ 32) : (BitVec.ofNat 64 w).extractLsb' 0 32 = BitVec.ofNat 32 m ↔ w % 2 ^ 32 = m := by
    rw [BitVec.toNat_eq, toNat_extractLsb', hold, Nat.pow_zero, Nat.div_one, toNat_ofNat_of_lt hm]
  have htask : (BitVec.ofNat 64 w).extractLsb' 32 16 = BitVec.ofNat 16 (w / 2 ^ 32) := by
    rw [extractLsb'_eq_ofNat, hold]
  have hslot : (⟨((BitVec.ofNat 64 w).extractLsb' 48 2).toNat,
      ((BitVec.ofNat 64 w).extractLsb' 48 2).isLt⟩ : Fin 4) = p :=
    Fin.ext (by simp only [toNat_extractLsb', hold, hp, Nat.reducePow])
  show execMsgDecApply src k off s = _
  unfold execMsgDecApply
  have hzero : (BitVec.ofNat 64 w).extractLsb' 0 32 = 0 ↔ w % 2 ^ 32 = 0 := hn 0 (by decide)
  have hone : (BitVec.ofNat 64 w).extractLsb' 0 32 = 1 ↔ w % 2 ^ 32 = 1 := hn 1 (by decide)
  have htask0 : BitVec.ofNat 16 (w / 2 ^ 32) = 0 ↔ w / 2 ^ 32 % 2 ^ 16 = 0 := by
    rw [BitVec.toNat_eq, BitVec.toNat_ofNat]
    rfl
  have htop : ((BitVec.ofNat 64 w - 1) ||| 0x8000000000000000).toNat = (BitVec.ofNat 64 w - 1).toNat ||| 2 ^ 63 := by
    rw [BitVec.toNat_or]
    rfl
  simp only [hw, hzero, hone, htask, htask0, hslot, htop, ne_eq]
  by_cases hz : w % 2 ^ 32 = 0
  · simp only [hz, if_true, done]
  · rw [toNat_sub_one hlt (fun h => hz (by rw [h]; rfl)), done]

/-- An increment, in terms of what its counter reads as. -/
theorem takes_msgIncApply {w : Nat} (hw : s.loadLocal k off 8 = w) :
    takes (.msgIncApply src k off) s (if w % 2 ^ 32 = 2 ^ 32 - 1 then s else s.storeLocal k off 8 (w + 1)) := by
  have hlt : w < 2 ^ 64 := by rw [← hw]; exact s.loadLocal_lt k off
  have hfull : (BitVec.ofNat 64 w).extractLsb' 0 32 = 0xFFFFFFFF ↔ w % 2 ^ 32 = 2 ^ 32 - 1 := by
    rw [BitVec.toNat_eq, toNat_extractLsb', toNat_ofNat_of_lt hlt, Nat.pow_zero, Nat.div_one]
    rfl
  show execMsgIncApply src k off s = _
  unfold execMsgIncApply
  simp only [hw, hfull]
  by_cases hz : w % 2 ^ 32 = 2 ^ 32 - 1
  · simp only [hz, if_true, done]
  · have hadd : (BitVec.ofNat 64 w + 1).toNat = w + 1 := by bv_omega
    rw [hadd, done]

/-! ## Where a task goes (R111) -/

section
variable {p : Fin 4} {t : BitVec 16}

theorem Core.queueFull_of_room {c : Core} (h : c.ready[p].length < 64) : c.queueFull p = false := by
  rw [Core.queueFull, decide_eq_false (Nat.not_le.mpr h), Bool.false_and]

theorem Core.queueFull_of_noRing {c : Core} (h : 64 ≤ c.ready[p].length) (hring : c.rqEn = false) :
    c.queueFull p = true := by
  rw [Core.queueFull, decide_eq_true (p := _ ≥ _) h, hring]
  rfl

theorem Core.queueFull_of_ring {c : Core} (hen : c.rqEn = true) (hring : c.ring = []) : c.queueFull p = false := by
  simp [Core.queueFull, hen, hring]

theorem State.append_queue (h : (s.core k).ready[p].length < 64) :
    s.append k p t = s.modCore k fun c => { c with ready := c.ready.set p (c.ready[p] ++ [t]) } :=
  if_pos h

/-- The lowest slot of an empty ring is its first. -/
theorem State.append_ring (h : 64 ≤ (s.core k).ready[p].length) (hring : (s.core k).ring = []) :
    s.append k p t = (s.storeLocal k ((s.core k).rqBase.toNat * 2048) 8 (p.val * 0x10000 + t.toNat)).modCore k fun c =>
      { c with ring := c.ring ++ [(BitVec.ofFin p, 0)], ringBad := (s.core k).ringBad } := by
  have hslot : (s.core k).ringSlot = 0 := by
    unfold Core.ringSlot
    rw [hring]
    rfl
  unfold State.append
  dsimp only
  rw [if_neg (Nat.not_lt.mpr h), hslot, Core.ringOff, Nat.mul_zero, Nat.add_zero]

end

/-! ## How a decrement ends (R110) -/

section
variable {w : Nat} (hw : s.loadLocal k off 8 = w)
include hw

theorem msgDecApply_zero (h : w % 2 ^ 32 = 0) : takes (.msgDecApply src k off) s s := by
  have hdec := takes_msgDecApply (src := src) hw (p := ⟨w / 2 ^ 48 % 4, Nat.mod_lt _ (by decide)⟩) rfl
  rwa [if_pos h] at hdec

/-- A decrement that does not reach 0, or reaches it where the word names no task. -/
theorem msgDecApply_counts (h : w % 2 ^ 32 ≠ 0) (htask : ¬(w % 2 ^ 32 = 1 ∧ w / 2 ^ 32 % 2 ^ 16 ≠ 0)) :
    takes (.msgDecApply src k off) s (s.storeLocal k off 8 (w - 1)) := by
  have hdec := takes_msgDecApply (src := src) hw (p := ⟨w / 2 ^ 48 % 4, Nat.mod_lt _ (by decide)⟩) rfl
  rwa [if_neg h, if_neg htask] at hdec

section
variable {p : Fin 4} (hone : w % 2 ^ 32 = 1) (htask : w / 2 ^ 32 % 2 ^ 16 ≠ 0) (hp : p.val = w / 2 ^ 48 % 4)
include hone htask hp

theorem msgDecApply_queues (h : (s.core k).queueFull p = false) : takes (.msgDecApply src k off) s
    (((s.append k p (BitVec.ofNat 16 (w / 2 ^ 32))).raise k evReady).storeLocal k off 8 (w - 1)) := by
  have hdec := takes_msgDecApply (src := src) hw hp
  rwa [if_neg (by omega), if_pos ⟨hone, htask⟩, if_neg (Bool.eq_false_iff.mp h)] at hdec

theorem msgDecApply_overflows (h : (s.core k).queueFull p = true) : takes (.msgDecApply src k off) s
    ((s.raise k evRqovf).storeLocal k off 8 ((w - 1) ||| 2 ^ 63)) := by
  have hdec := takes_msgDecApply (src := src) hw hp
  rwa [if_neg (by omega), if_pos ⟨hone, htask⟩, if_pos h] at hdec

end
end

end

end Sys2Proof.Machine
end

section
open Sys2Proof Sys2Proof.Machine

/-- Settles O37: a message is checked at its issuer, and each clause at the target is one way in which it ends. -/
theorem messages : Obligations.Messages := by
  unfold Obligations.Messages
  intro s d a b hready
  have hda : s.pendingOf [d, a] = false := pendingOf_of_subset hready (by simp)
  refine ⟨fun h => msgDec_traps hda (messageCheck_misaligned h), fun hal h => msgDec_traps hda (messageCheck_absent hal h),
    fun hal hc h => msgDec_traps hda (messageCheck_outside hal hc h),
    fun h => msgPut_traps hready (messageCheck_misaligned h), fun hal h => msgPut_traps hready (messageCheck_absent hal h),
    fun hal hc h => msgPut_traps hready (messageCheck_outside hal hc h), ?_, ?_, ?_⟩
  · intro hal hc hin hp k me
    have hcheck := messageCheck_passes hal hc hin hp
    exact ⟨issueM_ok hda (u := ()) (by simp [hcheck]; rfl), issueM_ok hda (u := ()) (by simp [hcheck]; rfl)⟩
  · intro hal hc hin hp
    have hcheck := messageCheck_passes hal hc hin hp
    exact issueM_ok hready (u := ()) (by simp [hcheck]; rfl)
  · intro src k off v w
    refine ⟨msgDecApply_zero rfl, fun h => msgDecApply_counts rfl (by omega) (by omega),
      fun h ht => msgDecApply_counts rfl (by omega) (fun hnone => hnone.2 ht), fun p hone ht hp hroom => ?queue,
      fun p hone ht hp hlen hen => msgDecApply_overflows rfl hone ht hp (Core.queueFull_of_noRing hlen hen),
      fun p hone ht hp hlen hen hring => ?ring, fun h => ?full, fun h => ?counts, rfl⟩
    case queue =>
      have hdec := msgDecApply_queues (src := src) rfl hone ht hp (Core.queueFull_of_room hroom)
      rwa [State.append_queue hroom] at hdec
    case ring =>
      have hdec := msgDecApply_queues (src := src) rfl hone ht hp (Core.queueFull_of_ring hen hring)
      rwa [State.append_ring hlen hring, BitVec.toNat_ofNat] at hdec
    case full =>
      have hinc := takes_msgIncApply (src := src) (s := s) (k := k) (off := off) rfl
      rwa [if_pos h] at hinc
    case counts =>
      have hinc := takes_msgIncApply (src := src) (s := s) (k := k) (off := off) rfl
      rwa [if_neg h] at hinc
end

section
/-! SUPPORT. Barrier objects and module barriers (R115, R116, R249): one lemma for each way such an instruction ends. -/

namespace Sys2Proof.Machine

section
variable {s : State} {d a b : Reg} {o : Slot}

/-! ## Objects (R116) -/

theorem run_objOf (v : Word) (s : State) :
    objOf v s = if 15 < U v then .error (.trap 0x04 v) s else .ok (Fin.ofNat 16 (U v)) s := by
  unfold objOf
  simp only [run_bind, run_trapIf, run_pure, decide_eq_true_eq, gt_iff_lt]
  by_cases h : 15 < U v
  · rw [if_pos h, if_pos h]
  · rw [if_neg h, if_neg h]

theorem run_objOf_none {v : Word} (h : 15 < U v) (s : State) : objOf v s = .error (.trap 0x04 v) s := by
  rw [run_objOf, if_pos h]

theorem run_objOf_slot {v : Word} (hv : v = wrapU o.val) (s : State) : objOf v s = .ok o s := by
  have hlt := o.isLt
  have hU : U v = o.val := by rw [hv, U_wrapU, Nat.mod_eq_of_lt (by omega)]
  rw [run_objOf, hU, if_neg (by omega), Fin.ofNat_val_eq_self]

theorem State.quadObjs_setObj (s : State) (q p : Nat) (o : Slot) (e : BarObj) :
    (s.setObj q p o e).quadObjs q p = (s.quadObjs q p).set o e := by
  simp [State.quadObjs, State.setObj, aget_aset_self]

theorem State.setObj_setObj (s : State) (q p : Nat) (o : Slot) (e f : BarObj) :
    (s.setObj q p o e).setObj q p o f = s.setObj q p o f := by
  rw [State.setObj, State.quadObjs_setObj]
  simp [State.setObj, aset_aset]

/-- An object keeps its phase while an arrival, or a byte, is still to come. -/
theorem State.checkObj_waits {q p : Nat} {e : BarObj} (h : ¬(e.left = 0 ∧ e.bytesIn = e.bytes)) :
    (s.setObj q p o e).checkObj q p o = s.setObj q p o e := by
  have hobj : ((s.setObj q p o e).quadObjs q p)[o] = e := by simp [State.quadObjs_setObj]
  unfold State.checkObj
  rw [hobj]
  exact if_neg h

/-- The last arrival flips its object. -/
theorem State.checkObj_flips {q p : Nat} {e : BarObj} (h : e.left = 0 ∧ e.bytesIn = e.bytes) :
    (s.setObj q p o e).checkObj q p o = (s.setObj q p o { e with
      phase := !e.phase, abort := false, left := e.arr, bytes := 0, bytesIn := 0, inst := e.inst + 1,
      waiters := [] }).finishAll e.waiters 0 := by
  have hobj : ((s.setObj q p o e).quadObjs q p)[o] = e := by simp [State.quadObjs_setObj]
  unfold State.checkObj State.flip
  rw [hobj]
  dsimp only
  rw [if_pos h, State.setObj_setObj]
  rfl

section
variable (h : 15 < U (s.rg d))
include h

theorem barInit_noObject (hready : s.pendingOf [d, a] = false) : takes (.barInit d a) s (s.trap 0x04 (s.rg d)) :=
  issueM_trap hready (by simp [run_objOf_none h])

theorem barExpect_noObject (hready : s.pendingOf [d, a] = false) : takes (.barExpect d a) s (s.trap 0x04 (s.rg d)) :=
  issueM_trap hready (by simp [run_objOf_none h])

theorem barAbort_noObject (hready : s.pendingOf [d] = false) : takes (.barAbort d) s (s.trap 0x04 (s.rg d)) :=
  issueM_trap hready (by simp [run_objOf_none h])

end

section
variable (h : 15 < U (s.rg a))
include h

theorem barArrive_noObject (hready : s.pendingOf [d, a] = false) : takes (.barArrive d a) s (s.trap 0x04 (s.rg a)) :=
  issueM_trap hready (by simp [run_objOf_none h])

theorem barWait_noObject (hready : s.pendingOf [d, a, b] = false) :
    takes (.barWait d a b) s (s.trap 0x04 (s.rg a)) :=
  issueM_trap hready (by simp [run_objOf_none h])

end

section
variable (ho : s.rg d = wrapU o.val)
include ho

theorem barInit_badCount (hready : s.pendingOf [d, a] = false) (h : U (s.rg a) = 0 ∨ 65535 < U (s.rg a)) :
    takes (.barInit d a) s (s.trap 0x04 (s.rg a)) :=
  issueM_trap hready (by simp [run_objOf_slot ho, h])

theorem barInit_sets (hready : s.pendingOf [d, a] = false) (hpos : 0 < U (s.rg a)) (hmax : U (s.rg a) ≤ 65535) :
    takes (.barInit d a) s ((s.setObj s.myQuad s.myPart o
      ⟨false, (s.myObj o).abort, wrap16 (U (s.rg a)), wrap16 (U (s.rg a)), 0, 0, (s.myObj o).inst + 1, []⟩).finishAll
        (s.myObj o).waiters 1).seq :=
  issueM_ok hready (u := ()) (by
    simp [run_objOf_slot ho, Nat.not_lt.mpr hmax, Nat.pos_iff_ne_zero.mp hpos])

theorem barExpect_adds (hready : s.pendingOf [d, a] = false) (h : (s.myObj o).bytes + U (s.rg a) < 0x1000000000000) :
    takes (.barExpect d a) s (s.setObj s.myQuad s.myPart o
      { s.myObj o with bytes := (s.myObj o).bytes + U (s.rg a) }).seq :=
  issueM_ok hready (u := ()) (by simp [run_objOf_slot ho, Nat.not_le.mpr h])

theorem barAbort_flips (hready : s.pendingOf [d] = false) : takes (.barAbort d) s
    ((s.setObj s.myQuad s.myPart o { s.myObj o with
      phase := !(s.myObj o).phase, abort := true, left := (s.myObj o).arr, bytes := 0, bytesIn := 0,
      inst := (s.myObj o).inst + 1, waiters := [] }).finishAll (s.myObj o).waiters 1).seq :=
  issueM_ok hready (u := ()) (by simp [run_objOf_slot ho]; rfl)

end

section
variable (ho : s.rg a = wrapU o.val)
include ho

theorem barArrive_tooMany (hready : s.pendingOf [d, a] = false) (h : (s.myObj o).left = 0#16) :
    takes (.barArrive d a) s (s.trap 0x04 (s.rg a)) :=
  issueM_trap hready (by simp [run_objOf_slot ho, h])

theorem barArrive_counts (hready : s.pendingOf [d, a] = false) (h : (s.myObj o).left ≠ 0#16) (hp : s.me.posted = []) :
    takes (.barArrive d a) s (((s.result d (ofBool (s.myObj o).phase)).setObj s.myQuad s.myPart o
      { s.myObj o with left := (s.myObj o).left - 1 }).checkObj s.myQuad s.myPart o) :=
  issueM_ok hready (u := ()) (by simp [run_objOf_slot ho, h, hp]; rfl)

theorem barWait_passes (hready : s.pendingOf [d, a, b] = false) (h : (s.myObj o).phase ≠ (s.rg b).getLsbD 0) :
    takes (.barWait d a b) s (s.result d (ofBool (s.myObj o).abort)) :=
  issueM_ok hready (u := ()) (by simp [run_objOf_slot ho, h, -BitVec.getLsbD_eq_getElem])

theorem barWait_waits (hready : s.pendingOf [d, a, b] = false) (h : (s.myObj o).phase = (s.rg b).getLsbD 0) :
    takes (.barWait d a b) s ((s.setObj s.myQuad s.myPart o
      { s.myObj o with waiters := (s.myObj o).waiters ++ [(s.key, s.slot)] }).block (.barWait o.val d)) :=
  issueM_block hready (by simp [run_objOf_slot ho, h, -BitVec.getLsbD_eq_getElem])

end
/-! ## Module barriers (R115) -/

theorem barSync_masked {c : Scope} (h : scopeMasked s c = true) : takes (.barSync d a b c) s s.illegal := if_pos h

section
variable {c : Scope} (hready : s.pendingOf [d, a, b] = false) (hscope : scopeMasked s c = false)
include hready hscope

theorem barSync_noChannel (h : 3 < U (s.rg a)) : takes (.barSync d a b c) s (s.trap 0x04 (s.rg a)) :=
  (issueScope_unmasked hscope).trans (issueM_trap hready (by simp [h]))

section
variable (hch : U (s.rg a) ≤ 3)
include hch

theorem barSync_noCount (h : U (s.rg b) = 0) : takes (.barSync d a b c) s (s.trap 0x04 (s.rg b)) :=
  (issueScope_unmasked hscope).trans (issueM_trap hready (by simp [Nat.not_lt.mpr hch, h]))

theorem barSync_alone (hp : s.me.posted = []) (hfirst : s.chans = []) (hone : U (s.rg b) = 1) :
    takes (.barSync d a b c) s (s.result d 0) :=
  (issueScope_unmasked hscope).trans (issueM_ok hready (u := ()) (by
    simp [Nat.not_lt.mpr hch, hp, hfirst, hone]))

section
variable (hpos : U (s.rg b) ≠ 0) (hmax : U (s.rg b) ≤ 0x400000) (hp : s.me.posted = [])
include hpos hmax hp

theorem barSync_first (hfirst : s.chans = []) (hone : U (s.rg b) ≠ 1) : takes (.barSync d a b c) s
    (({ s with chans := [⟨c, scopeInst c s.myCore, s.myPart, U (s.rg a), U (s.rg b), [(s.key, s.slot)]⟩] } :
      State).block (.barSync c (scopeInst c s.myCore) (U (s.rg a)) d)) :=
  (issueScope_unmasked hscope).trans (issueM_block hready (by
    simp [Nat.not_lt.mpr hch, hpos, Nat.not_lt.mpr hmax, hp, hfirst, hone]))

section
variable {l : List (Nat × Slot)}
  (hchan : s.chans = [⟨c, scopeInst c s.myCore, s.myPart, U (s.rg a), l.length + 1, l⟩])
include hchan

theorem barSync_last (h : U (s.rg b) = l.length + 1) :
    takes (.barSync d a b c) s ((({ s with chans := [] } : State).finishAll l 0).result d 0) :=
  (issueScope_unmasked hscope).trans (issueM_ok hready (u := ()) (by
    simp [Nat.not_lt.mpr hch, hpos, Nat.not_lt.mpr hmax, hp, hchan, ← h]))

theorem barSync_mismatch (h : U (s.rg b) ≠ l.length + 1) :
    takes (.barSync d a b c) s ((({ s with chans := [] } : State).finishAll l 1).result d 1) :=
  (issueScope_unmasked hscope).trans (issueM_ok hready (u := ()) (by
    simp [Nat.not_lt.mpr hch, hpos, Nat.not_lt.mpr hmax, hp, hchan, h.symm]))

end
end
end
end

end

end Sys2Proof.Machine
end

section
open Sys2Proof Sys2Proof.Machine

/-- Settles O38: each clause is one way in which such an instruction ends. -/
theorem barriers : Obligations.Barriers := by
  unfold Obligations.Barriers
  intro s d a b c o hready q p
  have hd : s.pendingOf [d] = false := pendingOf_of_subset hready (by simp)
  have hda : s.pendingOf [d, a] = false := pendingOf_of_subset hready (by simp)
  refine ⟨fun h => ⟨barInit_noObject h hda, barExpect_noObject h hda, barAbort_noObject h hd⟩,
    fun h => ⟨barArrive_noObject h hda, barWait_noObject h hready⟩, barSync_noChannel hready, barSync_masked,
    fun ho => ⟨barInit_badCount ho hda, barInit_sets ho hda, barExpect_adds ho hda, barAbort_flips ho hd⟩,
    fun ho => ?object, fun hscope hp hch => ⟨?zero, ?alone, ?first, fun l hchan => ⟨?last, ?mismatch⟩⟩⟩
  case object =>
    refine ⟨barArrive_tooMany ho hda, fun hpos hmore hp => ?more, fun hlast hbytes hp => ?flip,
      barWait_passes ho hready, barWait_waits ho hready⟩
    case more =>
      have harrive := barArrive_counts ho hda hpos hp
      have hover : ¬((s.myObj o).left - 1 = 0 ∧ (s.myObj o).bytesIn = (s.myObj o).bytes) := fun h =>
        hmore.elim (fun hm => hm (sub_eq_zero.mp h.1)) fun hm => hm h.2
      rwa [State.checkObj_waits hover] at harrive
    case flip =>
      have harrive := barArrive_counts ho hda (by rw [hlast]; decide) hp
      have hover : (s.myObj o).left - 1 = 0 ∧ (s.myObj o).bytesIn = (s.myObj o).bytes :=
        ⟨sub_eq_zero.mpr hlast, hbytes⟩
      rwa [State.checkObj_flips hover] at harrive
  case zero => exact fun h => barSync_noCount hready hscope hch (congrArg U h)
  case alone =>
    intro hfirst h
    have hone : U (s.rg b) = 1 := congrArg U h
    exact barSync_alone hready hscope hch hp hfirst hone
  case first => exact fun hfirst hmore hmax => barSync_first hready hscope hch (by omega) hmax hp hfirst (by omega)
  case last => exact fun h hl => barSync_last hready hscope hch (by omega) (by omega) hp hchan h
  case mismatch => exact fun h hpos hmax => barSync_mismatch hready hscope hch (by omega) hmax hp hchan h
end

section
/-! SUPPORT. The end of a context (R95, R99, R103, R141): what is released touches no context, so that the end is one
change of the context and of its core's engines. -/

namespace Sys2Proof.Machine

/-! ## What is released (R141) -/

section
variable {s : State} {k : Nat} {x : Slot} {o : Owner}

/-- A change of a core beside its contexts goes before or after one of a context. -/
theorem State.modCore_setCtx {g : Core → Core} (hg : ∀ e v, g { e with ctxs := v } = { g e with ctxs := v })
    (s : State) (k : Nat) (x : Slot) (c : Ctx) : (s.setCtx k x c).modCore k g = (s.modCore k g).setCtx k x c := by
  have hkeep : ∀ e, (g e).ctxs = e.ctxs := fun e => (congrArg Core.ctxs (hg e e.ctxs) :)
  rw [State.modCore_eq, State.core_setCtx_self, hg]
  simp only [State.setCtx, State.modCore_eq, State.setCore_setCore, State.core_setCore_self, hkeep]

theorem State.setSync_setCtx (s : State) (k : Nat) (x : Slot) (c : Ctx) (p line : Nat) (l : SyncLine) :
    (s.setCtx k x c).setSync p line l = (s.setSync p line l).setCtx k x c := rfl

theorem State.passHead_setCtx (s : State) (k : Nat) (x : Slot) (c : Ctx) (p line : Nat) :
    (s.setCtx k x c).passHead p line = (s.passHead p line).setCtx k x c := by
  have hline : (s.setCtx k x c).syncLine p line = s.syncLine p line := rfl
  unfold State.passHead
  rw [hline]
  dsimp only
  cases (s.syncLine p line).queue.tail.isEmpty with
  | true => rfl
  | false => rfl

theorem State.release_setCtx (s : State) (k : Nat) (x : Slot) (o : Owner) (line : Nat) (c : Ctx) :
    (s.setCtx k x c).release k o line = (s.release k o line).setCtx k x c := by
  have hlocus : (s.setCtx k x c).setLocus (partOf k) line k = (s.setLocus (partOf k) line k).setCtx k x c := rfl
  unfold State.release
  rw [hlocus, State.passHead_setCtx]
  exact State.modCore_setCtx (fun _ _ => rfl) _ k x c

theorem State.releases_setCtx (l : List Nat) (s : State) (k : Nat) (x : Slot) (o : Owner) (c : Ctx) :
    l.foldl (fun t line => t.release k o line) (s.setCtx k x c) =
      (l.foldl (fun t line => t.release k o line) s).setCtx k x c := by
  induction l generalizing s with
  | nil => rfl
  | cons line l ih => rw [List.foldl_cons, State.release_setCtx, ih, List.foldl_cons]

/-- Beside the table of reservations, a release changes nothing of its core. -/
theorem State.core_release (s : State) (k : Nat) (o : Owner) (line : Nat) :
    ∃ r, (s.release k o line).core k = { s.core k with resv := r } := by
  have hcore : ((s.setLocus (partOf k) line k).passHead (partOf k) line).core k = s.core k := by
    unfold State.passHead
    dsimp only
    split <;> rfl
  refine ⟨(s.core k).resv.filter fun e => ¬ (e.1 = line ∧ e.2 = o), ?_⟩
  unfold State.release
  rw [State.modCore_eq, State.core_setCore_self, hcore]

theorem State.core_releases (l : List Nat) (s : State) (k : Nat) (o : Owner) :
    ∃ r, (l.foldl (fun t line => t.release k o line) s).core k = { s.core k with resv := r } := by
  induction l generalizing s with
  | nil => exact ⟨_, rfl⟩
  | cons line l ih =>
    obtain ⟨r, hr⟩ := ih (s.release k o line)
    obtain ⟨r', hr'⟩ := s.core_release k o line
    exact ⟨r, by rw [List.foldl_cons, hr, hr']⟩

end

/-! ## The end (R95) -/

/-- The engine of a code, as its holder gives it up. -/
def Engine.givenUp (e : Engine) (n code : Nat) : Engine := if code = n then { e with owner := none } else e

theorem Core.freeEngine_eq (c : Core) (b : BitVec 2) : c.freeEngine b.toNat = { c with
    vecEng := c.vecEng.givenUp 1 b.toNat, mtxEng := c.mtxEng.givenUp 2 b.toNat,
    cpyEng := c.cpyEng.givenUp 3 b.toNat } := by
  have hb : b.toNat = 0 ∨ b.toNat = 1 ∨ b.toNat = 2 ∨ b.toNat = 3 := by omega
  rcases hb with h | h | h | h <;> rw [h] <;> rfl

/-- The state in which a context has ended that held what `c` says and had nothing under way. -/
def State.ended (s : State) (k : Nat) (x : Slot) (c : Ctx) : State :=
  let r := ((s.core k).heldBy (.slot x)).foldl (fun t line => t.release k (.slot x) line) s
  let free := fun (n : Nat) (e : Engine) => if c.bind.toNat = n then { e with owner := none } else e
  let u := (r.modCore k fun e => { e with
      vecEng := free 1 e.vecEng, mtxEng := free 2 e.mtxEng, cpyEng := free 3 e.cpyEng }).setCtx k x
    { c.settled with
      st := if c.origin then .free else .exited
      bind := 0, ending := false, endStop := false }
  if c.origin then u else u.raise k 6

section
variable {s : State} {k : Nat} {x : Slot}

/-- Nothing of the context is left for its end to wait for. -/
def State.allIn (s : State) (k : Nat) (x : Slot) : Prop :=
  (s.ctx k x).pend = 0 ∧ (s.ctx k x).posted = [] ∧ (s.ctx k x).launch = none ∧
    (∀ j ∈ (s.core k).jobs, j.owner ≠ .slot x) ∧ ((s.ctx k x).bind ≠ 2 ∨ (s.core k).mqueue = [])

theorem State.abandonAll_none {o : Owner} (h : ∀ j ∈ (s.core k).jobs, j.owner ≠ o) : s.abandonAll k o = s := by
  have hnone : ((s.core k).jobs.filter fun j => j.st = .failed && j.owner = o) = [] :=
    List.filter_eq_nil_iff.mpr fun j hj => by simp [h j hj]
  rw [State.abandonAll, hnone]
  rfl

theorem State.endContext_eq (hlaunch : (s.ctx k x).launch = none) (hjobs : ∀ j ∈ (s.core k).jobs, j.owner ≠ .slot x) :
    s.endContext k x = s.ended k x (s.ctx k x) := by
  obtain ⟨resv, hcore⟩ := State.core_releases ((s.core k).heldBy (.slot x)) s k (.slot x)
  have hctx : (s.releaseAll k (.slot x)).ctx k x = s.ctx k x := (congrArg (fun c : Core => c.ctxs[x]) hcore :)
  have habandon : (s.releaseAll k (.slot x)).abandonAll k (.slot x) = s.releaseAll k (.slot x) :=
    State.abandonAll_none (by rw [State.releaseAll, hcore]; exact hjobs)
  have hend : { (s.ctx k x).settled with
        st := if (s.ctx k x).origin then .free else .exited
        bind := 0, ending := false, endStop := false, launch := none } =
      ({ (s.ctx k x).settled with
        st := if (s.ctx k x).origin then .free else .exited
        bind := 0, ending := false, endStop := false } : Ctx) := by rw [← hlaunch]; rfl
  have hengine : ((s.releaseAll k (.slot x)).modCore k fun e => e.freeEngine (s.ctx k x).bind.toNat).ctx k x =
      s.ctx k x := by
    refine (State.ctx_modCore fun c => ?_).trans hctx
    rw [Core.freeEngine_eq]
  unfold State.endContext
  dsimp only
  rw [habandon, hlaunch, State.modCtx_eq, hengine, hend]
  simp only [Core.freeEngine_eq]
  rfl

/-- What the context held before does not matter to the state in which it has ended. -/
theorem State.ended_setCtx (s : State) (k : Nat) (x : Slot) (c e : Ctx) :
    (s.setCtx k x c).ended k x e = s.ended k x e := by
  have hheld : ((s.setCtx k x c).core k).heldBy (.slot x) = (s.core k).heldBy (.slot x) := by
    rw [State.core_setCtx_self]
    rfl
  unfold State.ended
  rw [hheld, State.releases_setCtx]
  dsimp only
  rw [State.modCore_setCtx (fun _ _ => rfl), State.setCtx_setCtx]

/-- An end that nothing holds up is over at once. -/
theorem State.tryEnd_ends (hend : (s.ctx k x).ending = true) (hin : s.allIn k x) (hwait : (s.ctx k x).wait = none)
    (hfetched : (s.ctx k x).fetched = none) : s.tryEnd k x = s.ended k x (s.ctx k x) := by
  obtain ⟨hpend, hposted, hlaunch, hjobs, hqueue⟩ := hin
  have hquiet : (s.ctx k x).quiet = true := by
    simp [Ctx.quiet, Ctx.outstanding, hpend, hposted, hwait, hfetched]
  have hidle : ((s.ctx k x).bind.toNat != 2 || (s.core k).mqueue.isEmpty) = true := by
    rcases hqueue with h | h
    · have hbind : (s.ctx k x).bind.toNat ≠ 2 := fun h2 => h (BitVec.eq_of_toNat_eq h2)
      simp [hbind]
    · simp [h]
  rw [State.tryEnd, hend, hquiet, hidle]
  exact State.endContext_eq hlaunch hjobs

theorem State.tryEnd_ignored (hend : (s.ctx k x).ending = false) : s.tryEnd k x = s := by
  rw [State.tryEnd, hend]
  rfl

/-- A result that is still to come holds the end up. -/
theorem State.tryEnd_waits (hend : (s.ctx k x).ending = true) (hpend : (s.ctx k x).pend ≠ 0#32) :
    s.tryEnd k x = s.park (.contextEnd k x) := by
  have hquiet : (s.ctx k x).quiet = false := by simp [Ctx.quiet, hpend]
  rw [State.tryEnd, hend, hquiet]
  rfl

/-- A context that waits for nothing has no entry to give up. -/
theorem State.withdraw_none (h : (s.ctx k x).wait = none) : s.withdraw k x = s := by
  unfold State.withdraw
  dsimp only
  rw [h]

/-- The context with its end under way. -/
def Ctx.toEnd (c : Ctx) (stop : Bool) : Ctx := { c with ending := true, endStop := stop }

theorem State.beginEnd_eq {stop : Bool} (hwait : (s.ctx k x).wait = none) :
    s.beginEnd k x stop = (s.setCtx k x ((s.ctx k x).toEnd stop)).tryEnd k x := by
  have hwait' : ((s.setCtx k x ((s.ctx k x).toEnd stop)).ctx k x).wait = none := by
    rw [State.ctx_setCtx_self]
    exact hwait
  exact congrArg (State.tryEnd · k x) (State.withdraw_none hwait')

/-- What an end waits for does not change when its context is out of rotation and the end is under way. -/
theorem State.allIn_setCtx {c : Ctx} (h : s.allIn k x) (hpend : c.pend = (s.ctx k x).pend)
    (hposted : c.posted = (s.ctx k x).posted) (hlaunch : c.launch = (s.ctx k x).launch)
    (hbind : c.bind = (s.ctx k x).bind) : (s.setCtx k x c).allIn k x := by
  unfold State.allIn
  rw [State.ctx_setCtx_self, State.core_setCtx_self, hpend, hposted, hlaunch, hbind]
  exact h

/-- An end that begins with nothing to wait for is over at once. -/
theorem State.beginEnd_ends {stop : Bool} (hin : s.allIn k x) (hwait : (s.ctx k x).wait = none)
    (hfetched : (s.ctx k x).fetched = none) : s.beginEnd k x stop = s.ended k x (s.ctx k x) := by
  have hctx := State.ctx_setCtx_self s k x ((s.ctx k x).toEnd stop)
  have hin' : (s.setCtx k x ((s.ctx k x).toEnd stop)).allIn k x := State.allIn_setCtx hin rfl rfl rfl rfl
  rw [State.beginEnd_eq hwait, State.tryEnd_ends (by rw [hctx]; rfl) hin' (by rw [hctx]; exact hwait)
    (by rw [hctx]; exact hfetched), hctx, State.ended_setCtx]
  rfl

theorem State.beginEnd_waits {stop : Bool} (hpend : (s.ctx k x).pend ≠ 0) (hwait : (s.ctx k x).wait = none) :
    s.beginEnd k x stop = (s.setCtx k x ((s.ctx k x).toEnd stop)).park (.contextEnd k x) := by
  have hctx := State.ctx_setCtx_self s k x ((s.ctx k x).toEnd stop)
  rw [State.beginEnd_eq hwait, State.tryEnd_waits (by rw [hctx]; rfl) (by rw [hctx]; exact hpend)]

end

/-! ## THR.EXIT, THR.YIELD and a second THR.STOP (R95) -/

section
variable {s : State} {k : Nat} {x : Slot}

/-- The issuer of THR.EXIT, out of rotation. -/
def Ctx.exiting (c : Ctx) : Ctx := { c.settled with st := .blocked }

theorem thrExit_begins (hslot : s.slot ≠ 0) :
    takes .thrExit s ((s.setCtx s.key s.slot s.me.exiting).beginEnd s.key s.slot false) :=
  issueM_ok (rs := []) rfl (u := ()) (by simp [hslot]; rfl)

theorem thrExit_ends (hslot : s.slot ≠ 0) (hin : s.allIn s.key s.slot) :
    takes .thrExit s (s.ended s.key s.slot s.me) := by
  have hctx := State.ctx_setCtx_self s s.key s.slot s.me.exiting
  have hin' : (s.setCtx s.key s.slot s.me.exiting).allIn s.key s.slot := State.allIn_setCtx hin rfl rfl rfl rfl
  have hend := thrExit_begins hslot
  rwa [State.beginEnd_ends hin' (by rw [hctx]; rfl) (by rw [hctx]; rfl), hctx, State.ended_setCtx] at hend

theorem thrExit_waits (hslot : s.slot ≠ 0) (hpend : s.me.pend ≠ 0) :
    takes .thrExit s ((s.setCtx s.key s.slot (s.me.exiting.toEnd false)).park (.contextEnd s.key s.slot)) := by
  have hctx := State.ctx_setCtx_self s s.key s.slot s.me.exiting
  have hend := thrExit_begins hslot
  rwa [State.beginEnd_waits (by rw [hctx]; exact hpend) (by rw [hctx]; rfl), hctx, State.setCtx_setCtx] at hend

theorem thrYield_yields (hslot : s.slot ≠ 0) :
    takes .thrYield s ((s.setMe { s.seq.me with st := .stopped }).raise s.key evYield) := by
  refine issueM_ok (rs := []) rfl (u := ()) ?_
  simp only [run_bind, run_notContext0, hslot, if_false, run_modify]
  exact congrArg (fun t : State => EStateM.Result.ok () (t.raise s.key evYield)) (setMe_setMe s _ _)

/-- A stop of a context that is out of rotation by a stop or a trap begins its end. -/
theorem State.stop_begins (hend : (s.ctx k x).ending = false) (hst : (s.ctx k x).st ∈ [CtxSt.stopped, .trapped]) :
    s.stop k x = s.beginEnd k x true := by
  simp only [List.mem_cons, List.not_mem_nil, or_false] at hst
  unfold State.stop
  rcases hst with hst | hst <;> simp [hend, hst]

end

end Sys2Proof.Machine
end

section
open Sys2Proof Sys2Proof.Machine

/-- Settles O33: an end with nothing to wait for is over at once, and one that waits is tried again. -/
theorem contextEnds : Obligations.ContextEnds := by
  unfold Obligations.ContextEnds
  intro s d k x ended noJob allIn
  refine ⟨fun hslot => ⟨fun hin => ?exits, fun hpend => ?exitWaits, ?yields⟩,
    fun hslot hready hx hd hst hend hwait => ⟨fun hin hfetched => ?stops, fun hpend => ?stopWaits⟩,
    fun hend => congrArg done (State.tryEnd_ignored hend),
    fun hend hin hwait hfetched => congrArg done (State.tryEnd_ends hend hin hwait hfetched),
    fun hend hpend => congrArg done (State.tryEnd_waits hend hpend)⟩
  case exits => exact thrExit_ends hslot hin
  case exitWaits =>
    have hme := State.ctx_setCtx_self s s.key s.slot (s.me.exiting.toEnd false)
    refine ⟨_, thrExit_waits hslot hpend, ?ending, ?blocked, ?pc, List.mem_append_right _ (List.mem_singleton_self _)⟩
    case ending => exact congrArg Ctx.ending hme
    case blocked => exact congrArg Ctx.st hme
    case pc => exact (congrArg Ctx.pc hme :)
  case yields => exact thrYield_yields hslot
  case stops =>
    have hstop := thrStop_stops hslot hready hx hd
    rwa [State.stop_begins hend hst, State.beginEnd_ends hin hwait hfetched] at hstop
  case stopWaits =>
    have hstop := thrStop_stops hslot hready hx hd
    rwa [State.stop_begins hend hst, State.beginEnd_waits hpend hwait] at hstop
end

section
/-! SUPPORT. What SYS.SRRD answers (R282 to R284): who reads a register, and the fields of its value as numbers. -/

namespace Sys2Proof.Machine

/-! ## Fields as numbers (R283, R284) -/

theorem toNat_zext {w : Nat} (x : BitVec w) (h : w ≤ 64 := by decide) : (zext x).toNat = x.toNat :=
  BitVec.toNat_setWidth_of_le h

theorem toNat_ofBool (b : Bool) : (ofBool b).toNat = if b then 1 else 0 := by cases b <;> rfl

/-- A field that is laid from a bit on. -/
theorem toNat_shiftLeft_of_lt {x : Word} {n : Nat} (h : x.toNat * 2 ^ n < 2 ^ 64) :
    (x <<< n).toNat = x.toNat * 2 ^ n := by
  rw [BitVec.toNat_shiftLeft, Nat.shiftLeft_eq, Nat.mod_eq_of_lt h]

/-- A field below the bits that the others take adds to them. -/
theorem toNat_or_below {x y : Word} {m : Nat} (n : Nat) (hx : x.toNat = m * 2 ^ n) (hy : y.toNat < 2 ^ n) :
    (x ||| y).toNat = x.toNat + y.toNat := by
  rw [BitVec.toNat_or, hx, Nat.mul_comm, Nat.two_pow_add_eq_or_of_lt hy]

theorem eq_wrapU_of_toNat {x : Word} {n : Nat} (h : x.toNat = n) : x = wrapU n := by rw [← h, wrapU_U]

/-- sr.npc reads with its two low bits 0. -/
theorem aligned_eq_wrapU (pc : Word) : pc &&& 0xFFFFFFFFFFFFFFFC = wrapU (U pc / 4 * 4) := by
  have hshift : pc &&& (0xFFFFFFFFFFFFFFFC : Word) = pc >>> 2 <<< 2 := by
    rw [BitVec.shiftLeft_ushiftRight]
    rfl
  refine eq_wrapU_of_toNat ?_
  have hquot : (pc >>> 2).toNat = U pc / 2 ^ 2 := by rw [BitVec.toNat_ushiftRight, Nat.shiftRight_eq_div_pow]
  have hlt : U pc / 2 ^ 2 * 2 ^ 2 < 2 ^ 64 := (Nat.div_mul_le_self _ _).trans_lt pc.isLt
  rw [hshift, toNat_shiftLeft_of_lt (by rw [hquot]; exact hlt), hquot]
  rfl

theorem cause_eq_wrapU (c : BitVec 8) (skip : Bool) :
    zext c ||| (if skip then 0x10000 else 0) = wrapU (c.toNat + if skip then 0x10000 else 0) := by
  cases skip with
  | false => exact (BitVec.or_zero (x := zext c)).trans (zext_eq_wrapU c)
  | true =>
    have hlow : (zext c).toNat < 2 ^ 16 := by
      rw [toNat_zext]
      have hlt := c.isLt
      omega
    refine eq_wrapU_of_toNat ?_
    rw [BitVec.or_comm]
    refine (toNat_or_below (m := 1) 16 rfl hlow).trans ?_
    rw [toNat_zext]
    exact Nat.add_comm ..

theorem area_eq_wrapU (area : BitVec 6) (used : BitVec 8) (aspill auto : Bool) :
    (zext area <<< 13) ||| (zext used <<< 5) ||| (ofBool aspill <<< 1) ||| ofBool auto =
      wrapU (area.toNat * 2 ^ 13 + used.toNat * 2 ^ 5 + (if aspill then 2 else 0) + if auto then 1 else 0) := by
  have hlt := area.isLt
  have hlt' := used.isLt
  have harea : (zext area <<< 13).toNat = area.toNat * 2 ^ 13 := by
    rw [toNat_shiftLeft_of_lt, toNat_zext]
    rw [toNat_zext]
    omega
  have hused : (zext used <<< 5).toNat = used.toNat * 2 ^ 5 := by
    rw [toNat_shiftLeft_of_lt, toNat_zext]
    rw [toNat_zext]
    omega
  have haspill : (ofBool aspill <<< 1).toNat = if aspill then 2 else 0 := by cases aspill <;> rfl
  have htop : ((zext area <<< 13) ||| (zext used <<< 5)).toNat = area.toNat * 2 ^ 13 + used.toNat * 2 ^ 5 := by
    rw [toNat_or_below 13 harea (by omega), harea, hused]
  have hmid : ((zext area <<< 13) ||| (zext used <<< 5) ||| (ofBool aspill <<< 1)).toNat =
      area.toNat * 2 ^ 13 + used.toNat * 2 ^ 5 + if aspill then 2 else 0 := by
    rw [toNat_or_below (m := area.toNat * 2 ^ 8 + used.toNat) 5 (by rw [htop]; omega) (by rw [haspill]; split <;> omega),
      htop, haspill]
  refine eq_wrapU_of_toNat ?_
  rw [toNat_or_below (m := area.toNat * 2 ^ 12 + used.toNat * 2 ^ 4 + if aspill then 1 else 0) 1
    (by rw [hmid]; split <;> omega) (by rw [toNat_ofBool]; split <;> omega), hmid, toNat_ofBool]

theorem ring_eq_wrapU (base : BitVec 8) (en : Bool) :
    (zext base <<< 11) ||| ofBool en = wrapU (base.toNat * 2 ^ 11 + if en then 1 else 0) := by
  have hlt := base.isLt
  have hbase : (zext base <<< 11).toNat = base.toNat * 2 ^ 11 := by
    rw [toNat_shiftLeft_of_lt, toNat_zext]
    rw [toNat_zext]
    omega
  refine eq_wrapU_of_toNat ?_
  rw [toNat_or_below 11 hbase (by rw [toNat_ofBool]; split <;> omega), hbase, toNat_ofBool]

theorem frame_eq_wrapU (x : BitVec 44) : zext x <<< 12 = wrapU (x.toNat * 2 ^ 12) := by
  have hlt := x.isLt
  refine eq_wrapU_of_toNat ?_
  rw [toNat_shiftLeft_of_lt, toNat_zext]
  rw [toNat_zext]
  omega

theorem Core.states_eq_range (c : Core) (n : Nat) : c.states n =
    ((List.range n).map fun i => stateCode (c.ctxs[Fin.ofNat 16 i]).st * 16 ^ i).sum := by
  induction n with
  | zero => rfl
  | succ n ih =>
    rw [List.range_succ, List.map_append, List.sum_append, ← ih, List.map_singleton, List.sum_singleton, Core.states]

/-- The states of the contexts, in digits of four bits. -/
theorem Core.states_eq (c : Core) :
    c.states 16 = ((List.finRange 16).map fun x : Slot => stateCode (c.ctxs[x]).st * 16 ^ x.val).sum := by
  rw [Core.states_eq_range, ← List.map_coe_finRange_eq_range, List.map_map]
  refine congrArg List.sum (List.map_congr_left fun x _ => ?_)
  simp only [Function.comp_apply, Fin.ofNat_val_eq_self]

section
variable {s : State} {d : Reg} {i : BitVec 12}

/-! ## The ways a read ends -/

/-- Only the registers of the migration engine may be masked. -/
theorem issueReg_open {m : M Unit} (h : migIndex i.toNat = false ∨ s.masked s.myPart 10 = false) :
    issueReg d i s m = issueM [d] s m := by
  refine if_neg ?_
  rcases h with h | h <;> simp [h]

section
variable (hp : s.pendingOf [d] = false) (h : migIndex i.toNat = false ∨ s.masked s.myPart 10 = false)
include hp h

theorem srrd_gives {v : Word} (hr : s.refusesRead i.toNat = false) (hv : s.readReg i.toNat = v) :
    gives s (.sysSrrd d i) d v := by
  show execSysSrrd d i s = _
  rw [execSysSrrd, issueReg_open h]
  exact issueM_ok hp (u := ()) (by simp [hr, hv])

theorem srrd_traps {v : Word} (hr : s.refusesRead i.toNat = true) (hv : zext i = v) :
    takes (.sysSrrd d i) s (s.trap 0x04 v) := by
  show execSysSrrd d i s = _
  rw [execSysSrrd, issueReg_open h]
  exact issueM_trap hp (by simp [hr, hv])

end

theorem srrd_masked (hm : s.masked s.myPart 10 = true) (h : migIndex i.toNat = true) :
    takes (.sysSrrd d i) s s.illegal ∧ takes (.sysSrwr d i) s s.illegal :=
  ⟨if_pos (by rw [h, hm]; rfl), if_pos (by rw [h, hm]; rfl)⟩

/-! ## Who may read (R282) -/

/-- Everyone reads the registers below the window that are not the service core's alone. -/
theorem refusesRead_open (hi : i.toNat < 0x100) (h : svcOnly i.toNat = false) : s.refusesRead i.toNat = false := by
  rw [State.refusesRead, inWindow_of_lt hi, h]
  rfl

theorem refusesRead_svc (h : svcOnly i.toNat = true) : s.refusesRead i.toNat = !s.onSvc := by
  have hi := (svcOnly_iff _).mp h
  rw [State.refusesRead, inWindow_of_lt (by omega), h]
  rfl

theorem refusesRead_onSvc (hs : s.onSvc = true) (h : svcOnly i.toNat = true) : s.refusesRead i.toNat = false := by
  rw [refusesRead_svc h, hs]
  rfl

theorem refusesRead_offSvc (hs : s.onSvc = false) (h : svcOnly i.toNat = true) : s.refusesRead i.toNat = true := by
  rw [refusesRead_svc h, hs]
  rfl

/-- A register that everyone reads. -/
theorem srrd_open {v : Word} (hp : s.pendingOf [d] = false) (hi : i.toNat < 0x080 ∨ i.toNat = 0x080 ∨
    i.toNat = 0x081 ∨ i.toNat = 0x082 ∨ i.toNat = 0x084) (hv : s.readReg i.toNat = v) :
    gives s (.sysSrrd d i) d v := by
  have hmig : migIndex i.toNat = false := by simp [migIndex]; omega
  have hsvc : svcOnly i.toNat = false := Bool.eq_false_iff.mpr fun h => by rw [svcOnly_iff] at h; omega
  exact srrd_gives hp (.inl hmig) (refusesRead_open (by omega) hsvc) hv

/-! ## The supervisor of a die (R265) -/

theorem readReg_lrs {core ring : Nat} (h : lrsOf (s.cfg s.myPart) s.myDie = some (core, ring)) :
    s.readReg 0x084 = wrapU (ring % 128 * 2 ^ 18 + core % 2 ^ 18) := by
  show s.sharedReg 0x084 = _
  simp only [State.sharedReg, h]

theorem readReg_noLrs (h : lrsOf (s.cfg s.myPart) s.myDie = none) : s.readReg 0x084 = 0 := by
  show s.sharedReg 0x084 = _
  simp only [State.sharedReg, h]

/-! ## Through the window (R282) -/

section
variable {r : BitVec 12} (hr : r < 0x40)
include hr

theorem toNat_windowIndex : (0x100 + r).toNat = 0x100 + r.toNat := by bv_omega

theorem inWindow_windowIndex : inWindow (0x100 + r).toNat = true := by
  rw [inWindow_iff, toNat_windowIndex hr]
  bv_omega

theorem refusesRead_window : s.refusesRead (0x100 + r).toNat =
    (s.slot != 0 || !windowOpen (s.ctx s.key s.selected).st) := by
  rw [State.refusesRead, inWindow_windowIndex hr]
  rfl

theorem migIndex_window : migIndex (0x100 + r).toNat = false := by
  rw [migIndex, toNat_windowIndex hr]
  simp
  omega

theorem readReg_window : s.readReg (0x100 + r).toNat =
    let t := s.setCtx s.key s.selected (s.ctx s.key s.selected).flushed
    if r < 0x20 then t.ctxReg s.key s.selected r.toNat
    else (t.ctx s.key s.selected).rd (BitVec.ofNat 5 (r.toNat - 0x20)) := by
  have hn := toNat_windowIndex hr
  unfold State.readReg
  rw [if_neg (by omega), inWindow_windowIndex hr, if_pos rfl, hn]
  by_cases h : r < 0x20
  · have hlow : r.toNat < 0x20 := h
    rw [if_pos h, if_neg (by omega), Nat.add_sub_cancel_left]
    rfl
  · have hhigh : 0x20 ≤ r.toNat := Nat.not_lt.mp h
    rw [if_neg h, if_pos (by omega), show 0x100 + r.toNat - 0x120 = r.toNat - 0x20 by omega]
    rfl

end
end

end Sys2Proof.Machine
end

section
open Sys2Proof Sys2Proof.Machine

/-- Settles O40: who may read which register, and each value as the sum of its fields. -/
theorem stateRegisterReads : Obligations.StateRegisterReads := by
  unfold Obligations.StateRegisterReads
  intro s d hp c f
  refine ⟨?everyone, fun hsvc => ?asidtab, fun hsvc hm => ?migration, fun hsvc => ⟨?noAsidtab, fun hm => ?noMigration⟩,
    fun core ring hlrs => ?lrs, fun hlrs => ?noLrs, fun hm => ?masked,
    fun r hr _ => ⟨fun h => ?noWindow, fun h0 hopen => ?window⟩⟩
  case everyone =>
    simp only [List.forall_mem_cons, List.not_mem_nil, IsEmpty.forall_iff, implies_true, and_true]
    have reads {i : BitVec 12} {v : Word} (hv : s.readReg i.toNat = v) (hi : i.toNat < 0x080 ∨ i.toNat = 0x080 ∨
      i.toNat = 0x081 ∨ i.toNat = 0x082 ∨ i.toNat = 0x084 := by decide) : gives s (.sysSrrd d i) d v :=
      srrd_open hp hi hv
    exact ⟨reads rfl, reads rfl, reads (zext_eq_wrapU c.asid), reads rfl, reads (aligned_eq_wrapU c.pc),
      reads (zext_eq_wrapU c.blkto), reads (cause_eq_wrapU c.cause c.skip), reads rfl, reads rfl,
      reads (zext_eq_wrapU c.round), reads (zext_eq_wrapU c.vprog), reads rfl, reads rfl, reads rfl, reads rfl,
      reads rfl, reads rfl, reads rfl, reads rfl, reads rfl, reads rfl, reads (zext_eq_wrapU s.mine.event), reads rfl,
      reads (zext_eq_wrapU s.mine.timer), reads rfl, reads (area_eq_wrapU s.mine.area s.mine.used s.mine.aspill _),
      reads rfl, reads (ring_eq_wrapU s.mine.rqBase _), reads (zext_eq_wrapU s.mine.sel),
      reads (zext_eq_wrapU s.mine.gen), reads (zext_eq_wrapU f.feat), reads rfl, reads rfl,
      reads (congrArg wrapU (Core.states_eq s.mine))⟩
  case asidtab =>
    exact srrd_gives hp (.inl rfl) (refusesRead_onSvc (decide_eq_true hsvc) rfl) (frame_eq_wrapU _)
  case migration =>
    have hs : s.onSvc = true := decide_eq_true hsvc
    have reads {i : BitVec 12} {v : Word} (hi : svcOnly i.toNat = true) (hv : s.readReg i.toNat = v) :
        gives s (.sysSrrd d i) d v := srrd_gives hp (.inr hm) (refusesRead_onSvc hs hi) hv
    exact ⟨reads rfl (frame_eq_wrapU _), reads rfl (frame_eq_wrapU _), reads rfl rfl⟩
  case noAsidtab => exact srrd_traps hp (.inl rfl) (refusesRead_offSvc (decide_eq_false hsvc) rfl) rfl
  case noMigration =>
    simp only [List.forall_mem_cons, List.not_mem_nil, IsEmpty.forall_iff, implies_true, and_true]
    have hs : s.onSvc = false := decide_eq_false hsvc
    exact ⟨srrd_traps hp (.inr hm) (refusesRead_offSvc hs rfl) rfl,
      srrd_traps hp (.inr hm) (refusesRead_offSvc hs rfl) rfl, srrd_traps hp (.inr hm) (refusesRead_offSvc hs rfl) rfl⟩
  case lrs => exact srrd_open hp (by decide) (readReg_lrs hlrs)
  case noLrs => exact srrd_open hp (by decide) (readReg_noLrs hlrs)
  case masked =>
    simp only [List.forall_mem_cons, List.not_mem_nil, IsEmpty.forall_iff, implies_true, and_true]
    exact ⟨srrd_masked hm rfl, srrd_masked hm rfl, srrd_masked hm rfl⟩
  case noWindow =>
    have hvalue : zext (0x100 + r) = 0x100 + wrapU r.toNat := by
      rw [zext_eq_wrapU, toNat_windowIndex hr]
      exact BitVec.ofNat_add ..
    refine srrd_traps hp (.inl (migIndex_window hr)) ((refusesRead_window hr).trans ?_) hvalue
    rcases h with h | h <;> simp [h]
  case window =>
    refine srrd_gives hp (.inl (migIndex_window hr)) ((refusesRead_window hr).trans ?_) (readReg_window hr)
    simp [h0, hopen]
end

section
/-! SUPPORT. Spilling and filling a context (R105 to R107): the words of an image as stores leave them, the context that
an image describes, and one lemma for each way such an instruction or step ends. -/

namespace Sys2Proof.Machine

/-! ## A token that comes in (R93) -/

/-- A context whose register has taken a token. -/
def Ctx.tokened (c : Ctx) (d : Reg) (v : Word) : Ctx :=
  { c.wr d v with pend := c.pend &&& ~~~(BitVec.ofNat 32 (2 ^ d.toNat)) }

/-- A context that waited for tokens and waits no more. -/
def Ctx.issuable (c : Ctx) : Ctx := { c.woken with fetched := none, deadline := none }

theorem State.reply_token {s : State} {k : Nat} {x : Slot} {names : BitVec 32}
    (h : (s.ctx k x).wait = some (.token names)) : s.reply k x = s.setCtx k x (s.ctx k x).issuable := by
  unfold State.reply
  rw [h]
  rfl

/-- A token changes the context that it comes to alone: the register, its pending bit, and its wait. -/
theorem State.token_eq (s : State) (k : Nat) (x : Slot) (d : Reg) (v : Word) :
    s.token k x d v = s.setCtx k x ((s.ctx k x).tokened d v) ∨
      s.token k x d v = s.setCtx k x ((s.ctx k x).tokened d v).issuable := by
  have hctx : (s.setCtx k x ((s.ctx k x).tokened d v)).ctx k x = _ := State.ctx_setCtx_self ..
  have htoken : s.token k x d v =
      match ((s.setCtx k x ((s.ctx k x).tokened d v)).ctx k x).wait with
      | some (.token names) =>
        if ((s.setCtx k x ((s.ctx k x).tokened d v)).ctx k x).pend &&& names = 0 then
          (s.setCtx k x ((s.ctx k x).tokened d v)).reply k x
        else s.setCtx k x ((s.ctx k x).tokened d v)
      | _ => s.setCtx k x ((s.ctx k x).tokened d v) := rfl
  rw [htoken]
  split
  next names hwait =>
    split
    · exact .inr (by rw [State.reply_token hwait, hctx, State.setCtx_setCtx])
    · exact .inl rfl
  next => exact .inl rfl

section
variable (s : State) (k : Nat) (x : Slot) (d : Reg) (v : Word)

theorem State.rd_token (r : Reg) : ((s.token k x d v).ctx k x).rd r = ((s.ctx k x).wr d v).rd r := by
  rcases s.token_eq k x d v with h | h <;> rw [h, State.ctx_setCtx_self] <;> rfl

theorem State.pend_token :
    ((s.token k x d v).ctx k x).pend = (s.ctx k x).pend &&& ~~~(BitVec.ofNat 32 (2 ^ d.toNat)) := by
  rcases s.token_eq k x d v with h | h <;> rw [h, State.ctx_setCtx_self] <;> rfl

/-- A register that has taken a token is no longer pending. -/
theorem State.pend_token_self : ((s.token k x d v).ctx k x).pend.getLsbD d.toNat = false := by
  rw [State.pend_token, BitVec.getLsbD_and, BitVec.getLsbD_not, getLsbD_registerBit]
  simp

theorem State.core_token : ∃ l, (s.token k x d v).core k = { s.core k with ctxs := l } := by
  rcases s.token_eq k x d v with h | h <;> rw [h, State.core_setCtx_self] <;> exact ⟨_, rfl⟩

theorem State.mem_token : (s.token k x d v).mem = s.mem := by
  rcases s.token_eq k x d v with h | h <;> rw [h] <;> rfl

theorem State.parts_token : (s.token k x d v).parts = s.parts := by
  rcases s.token_eq k x d v with h | h <;> rw [h] <;> rfl

variable {x} in
theorem State.ctx_token {y : Slot} (hy : y ≠ x) : (s.token k x d v).ctx k y = s.ctx k y := by
  rcases s.token_eq k x d v with h | h <;> rw [h, State.ctx_setCtx_slot _ _ _ hy]

end

/-! ## Bytes that stores leave (R27, R111, R112) -/

/-- Of core `k`, its partition and memory, at most `n` bytes from `a` and the mark of a spoilt ring are changed. -/
def State.onlyBytes (s t : State) (k a n : Nat) : Prop :=
  (∃ b, t.core k = { s.core k with ringBad := b }) ∧ t.parts = s.parts ∧ t.mem.wf = true ∧
    ∀ x, x < a ∨ a + n ≤ x → t.mem.read x = s.mem.read x

/-- The address of an offset of the partition's part of a core's local memory. -/
def State.localAt (s : State) (k off : Nat) : Nat := localLoc (coreOf k) (s.localBase (partOf k) + off)

theorem State.localAt_add (s : State) (k off n : Nat) : s.localAt k (off + n) = s.localAt k off + n := by
  unfold State.localAt localLoc
  omega

theorem State.loadLocal_eq (s : State) (k off n : Nat) : s.loadLocal k off n = s.mem.readNat (s.localAt k off) n := rfl

theorem State.localAt_congr {s t : State} (h : t.parts = s.parts) (k off : Nat) : t.localAt k off = s.localAt k off := by
  unfold State.localAt State.localBase State.cfg State.part
  rw [h]

section
variable {s t u : State} {k a n : Nat}

theorem State.onlyBytes_trans (h : s.onlyBytes t k a n) (g : t.onlyBytes u k a n) : s.onlyBytes u k a n := by
  obtain ⟨⟨b, hcore⟩, hparts, -, hmem⟩ := h
  obtain ⟨⟨b', hcore'⟩, hparts', hwf, hmem'⟩ := g
  exact ⟨⟨b', by rw [hcore', hcore]⟩, hparts'.trans hparts, hwf, fun x hx => (hmem' x hx).trans (hmem x hx)⟩

theorem State.onlyBytes_mono {a' n' : Nat} (h : s.onlyBytes t k a n) (hlow : a' ≤ a) (hhigh : a + n ≤ a' + n') :
    s.onlyBytes t k a' n' := by
  obtain ⟨hcore, hparts, hwf, hmem⟩ := h
  exact ⟨hcore, hparts, hwf, fun x hx => hmem x (by omega)⟩

/-- A word outside the bytes that change reads as before. -/
theorem State.onlyBytes_loadLocal (h : s.onlyBytes t k a n) {off m : Nat}
    (hout : s.localAt k off + m ≤ a ∨ a + n ≤ s.localAt k off) : t.loadLocal k off m = s.loadLocal k off m := by
  obtain ⟨-, hparts, -, hmem⟩ := h
  rw [State.loadLocal_eq, State.loadLocal_eq, State.localAt_congr hparts]
  exact Memory.readNat_congr fun x h1 h2 => hmem x (by omega)

theorem State.storeLocal_onlyBytes (hwf : s.mem.wf = true) {off : Nat} (v : Nat)
    (hfree : ∀ w ∈ (s.core k).watches, w.1 + 8 ≤ off ∨ off + n ≤ w.1) :
    s.onlyBytes (s.storeLocal k off n v) k (s.localAt k off) n ∧
      (s.storeLocal k off n v).loadLocal k off n = v % 256 ^ n := by
  rw [storeLocal_unwatched hfree]
  have hread := Memory.readNat_writeNat (s.localAt k off) n v hwf
  have hwf' : (s.mem.writeNat (s.localAt k off) n v).wf = true := Memory.wf_writeNat _ n v hwf
  have hframe := fun x => Memory.read_writeNat_ne s.mem (a := s.localAt k off) (n := n) (x := x) v
  unfold State.spoilRing
  dsimp only
  split
  · exact ⟨⟨⟨true, State.core_setCore_self _ k _⟩, rfl, hwf', hframe⟩, hread⟩
  · exact ⟨⟨⟨(s.core k).ringBad, rfl⟩, rfl, hwf', hframe⟩, hread⟩

/-- Words stored one after another stand at their offsets. -/
theorem State.storeWords_onlyBytes (ws : List Nat) {s : State} (hwf : s.mem.wf = true) {off : Nat}
    (hfree : ∀ w ∈ (s.core k).watches, w.1 + 8 ≤ off ∨ off + 8 * ws.length ≤ w.1) :
    s.onlyBytes (s.storeWords k off ws) k (s.localAt k off) (8 * ws.length) ∧
      ∀ i v, ws[i]? = some v → (s.storeWords k off ws).loadLocal k (off + 8 * i) 8 = v % 256 ^ 8 := by
  induction ws generalizing s off with
  | nil => exact ⟨⟨⟨(s.core k).ringBad, rfl⟩, rfl, hwf, fun _ _ => rfl⟩, fun i v h => by simp at h⟩
  | cons w ws ih =>
    rw [List.length_cons] at hfree ⊢
    obtain ⟨hfirst, hword⟩ := State.storeLocal_onlyBytes (n := 8) hwf w fun e he => (hfree e he).imp_right (by omega)
    obtain ⟨⟨b, hcore⟩, hparts, hwf', -⟩ := id hfirst
    have hrest := ih (s := s.storeLocal k off 8 w) (off := off + 8) hwf' fun e he => by
      rw [hcore] at he
      have := hfree e he
      omega
    obtain ⟨hlater, hwords⟩ := hrest
    rw [State.localAt_congr hparts, State.localAt_add] at hlater
    refine ⟨State.onlyBytes_trans (State.onlyBytes_mono hfirst (by omega) (by omega))
      (State.onlyBytes_mono hlater (by omega) (by omega)), fun i v hi => ?_⟩
    cases i with
    | zero =>
      cases hi
      rw [← hword]
      exact State.onlyBytes_loadLocal hlater (by rw [State.localAt_congr hparts, State.localAt_add]; omega)
    | succ i =>
      rw [show off + 8 * (i + 1) = off + 8 + 8 * i by omega]
      exact hwords i v hi

end

/-! ## The image of a context (R105, R106) -/

theorem Ctx.length_imageWords (c : Ctx) (x : Slot) : (c.imageWords x).length = 63 := by
  simp [Ctx.imageWords]

theorem Ctx.imageWords_register (c : Ctx) (x : Slot) (r : Reg) : (c.imageWords x)[r.toNat]? = some (U (c.rd r)) := by
  have hr := r.isLt
  unfold Ctx.imageWords
  rw [List.append_assoc, List.getElem?_append_left (by simp [hr])]
  simp [hr]

/-- The words behind the registers. -/
theorem Ctx.imageWords_rest (c : Ctx) (x : Slot) (i : Nat) : (c.imageWords x)[32 + i]? =
    ([U c.pc, U c.loop0.start, U c.loop0.last, U c.loop0.count, U c.loop1.start, U c.loop1.last, U c.loop1.count,
      c.round.toNat, U c.touched, c.vprog.toNat, c.cause.toNat + (if c.skip || c.skipping then 0x10000 else 0),
      U c.epc, U c.tval, U c.icmiss, c.blkto.toNat, c.status x, c.asid.toNat] ++ List.replicate 14 0)[i]? := by
  unfold Ctx.imageWords
  rw [List.append_assoc, List.getElem?_append_right (by simp)]
  simp

/-- A context without writes that wait for its next issue. -/
theorem Ctx.flushed_eq {c : Ctx} (h : c.wwrites = []) : c.flushed = c := by
  unfold Ctx.flushed
  rw [h]
  exact congrArg (fun l => { c with wwrites := l }) h.symm

section
variable {s : State} {k : Nat} {y : Slot} {m : Move} {e : Reg}
  (hwf : s.mem.wf = true) (hst : (s.ctx k y).st = .spilling) (hquiet : (s.ctx k y).quiet = true)
  (hwrites : (s.ctx k y).wwrites = []) (hspill : (s.core k).spills = [m]) (hslot : m.slot = y) (htok : m.tok = some e)
  (hfree : ∀ w ∈ (s.core k).watches, w.1 + 8 ≤ (s.ctx k y).image ∨ (s.ctx k y).image + 512 ≤ w.1)

/-- The words of an image but the last, stored. -/
def State.imageStored (s : State) (k : Nat) (y : Slot) : State :=
  (s.setCtx k y (s.ctx k y)).storeWords k (s.ctx k y).image ((s.ctx k y).imageWords y)

/-- What the slot owned is the image's. -/
def State.imageOwns (s : State) (k : Nat) (y : Slot) : State :=
  (s.imageStored k y).modCore k fun c => (c.reown (.slot y) (.image (s.ctx k y).image)).keep (s.ctx k y).image (s.ctx k y)

/-- The image complete, its event word last. -/
def State.imageWritten (s : State) (k : Nat) (y : Slot) : State :=
  (s.imageOwns k y).storeLocal k ((s.ctx k y).image + 0x1F8) 8 (if (s.ctx k y).hit then 1 else 0)

theorem State.mem_imageOwns (s : State) (k : Nat) (y : Slot) : (s.imageOwns k y).mem = (s.imageStored k y).mem :=
  State.setCore_mem (s.imageStored k y) k _

theorem State.parts_imageOwns (s : State) (k : Nat) (y : Slot) : (s.imageOwns k y).parts = (s.imageStored k y).parts :=
  State.setCore_parts (s.imageStored k y) k _

/-- A context that is put back as it stands changes nothing of its core. -/
theorem State.core_setCtx_same (s : State) (k : Nat) (x : Slot) : (s.setCtx k x (s.ctx k x)).core k = s.core k := by
  rw [State.core_setCtx_self]
  unfold State.ctx
  exact congrArg (fun l => { s.core k with ctxs := l }) (Vector.set_getElem_self _)

section
include hwf hfree

theorem State.imageStored_spec : s.onlyBytes (s.imageStored k y) k (s.localAt k (s.ctx k y).image) 504 ∧
    ∀ i v, ((s.ctx k y).imageWords y)[i]? = some v →
      (s.imageStored k y).loadLocal k ((s.ctx k y).image + 8 * i) 8 = v % 256 ^ 8 := by
  have hcore := State.core_setCtx_same s k y
  have hlen := (s.ctx k y).length_imageWords y
  obtain ⟨hbytes, hwords⟩ := State.storeWords_onlyBytes (k := k) ((s.ctx k y).imageWords y)
    (s := s.setCtx k y (s.ctx k y)) hwf (off := (s.ctx k y).image) fun w hw => by
      rw [hcore] at hw
      rw [hlen]
      exact (hfree w hw).imp_right (by omega)
  rw [hlen] at hbytes
  obtain ⟨hcore', hparts, hwf', hmem⟩ := hbytes
  rw [hcore] at hcore'
  exact ⟨⟨hcore', hparts, hwf', hmem⟩, hwords⟩

theorem State.ctx_imageStored : (s.imageStored k y).ctx k y = s.ctx k y := by
  obtain ⟨⟨⟨b, hcore⟩, -⟩, -⟩ := State.imageStored_spec hwf hfree
  exact (congrArg (fun c : Core => c.ctxs[y]) hcore :)

/-- The core after the image has been taken over. -/
theorem State.core_imageOwns : ∃ b l, (s.imageOwns k y).core k =
    { (s.core k).reown (.slot y) (.image (s.ctx k y).image) with ringBad := b, kept := l } := by
  obtain ⟨⟨⟨b, hcore⟩, -⟩, -⟩ := State.imageStored_spec hwf hfree
  refine ⟨b, ((s.imageOwns k y).core k).kept, ?_⟩
  unfold State.imageOwns
  rw [State.modCore_eq, State.core_setCore_self, hcore]
  rfl

theorem State.imageWritten_spec : (s.imageOwns k y).onlyBytes (s.imageWritten k y) k
      ((s.imageOwns k y).localAt k ((s.ctx k y).image + 0x1F8)) 8 ∧
    (s.imageWritten k y).loadLocal k ((s.ctx k y).image + 0x1F8) 8 = if (s.ctx k y).hit then 1 else 0 := by
  obtain ⟨⟨-, -, hwf', -⟩, -⟩ := State.imageStored_spec hwf hfree
  obtain ⟨b, l, hcore⟩ := State.core_imageOwns hwf hfree
  obtain ⟨hbytes, hword⟩ := State.storeLocal_onlyBytes (s := s.imageOwns k y) (k := k) (n := 8)
    (by rw [State.mem_imageOwns]; exact hwf') (off := (s.ctx k y).image + 0x1F8)
    (if (s.ctx k y).hit then 1 else 0) fun w hw => by
      rw [hcore] at hw
      obtain ⟨w', hw', rfl⟩ := List.mem_map.mp hw
      have hout := hfree w' hw'
      split <;> omega
  refine ⟨hbytes, hword.trans ?_⟩
  cases (s.ctx k y).hit <;> rfl

/-- The core after the image has been written. -/
theorem State.core_imageWritten : ∃ b l, (s.imageWritten k y).core k =
    { (s.core k).reown (.slot y) (.image (s.ctx k y).image) with ringBad := b, kept := l } := by
  obtain ⟨_, l, hcore⟩ := State.core_imageOwns hwf hfree
  obtain ⟨⟨⟨b, hcore'⟩, -⟩, -⟩ := State.imageWritten_spec hwf hfree
  exact ⟨b, l, by rw [hcore', hcore]⟩

end

include hwf hwrites hspill hslot htok hfree in
theorem State.writeImage_eq : s.writeImage k y =
    (((s.imageWritten k y).modCore k fun c => { c with spills := [] }).setCtx k y Ctx.reset).token k 0 e 0 := by
  have hstored := State.ctx_imageStored hwf hfree
  obtain ⟨b, l, hcore⟩ := State.core_imageWritten hwf hfree
  have hspills : ((s.imageWritten k y).core k).spills = [m] := by rw [hcore]; exact hspill
  have hfind : (([m] : List Move).find? fun m => decide (m.slot = y)) = some m := by simp [hslot]
  have hrest : ((s.imageWritten k y).modCore k fun c => { c with spills := c.spills.filter fun m => m.slot ≠ y }) =
      (s.imageWritten k y).modCore k fun c => { c with spills := [] } := by
    rw [State.modCore_eq, State.modCore_eq, hspills]
    simp [hslot]
  unfold State.imageStored at hstored
  unfold State.writeImage
  rw [State.modCtx_eq, Ctx.flushed_eq hwrites]
  dsimp only
  rw [State.ctx_setCtx_self, hstored]
  rw [← State.imageStored, ← State.imageOwns, ← State.imageWritten, hrest, hspills, hfind]
  obtain ⟨slot, off, tok⟩ := m
  cases htok
  rfl

include hwf hst hquiet hwrites hspill hslot htok hfree in
theorem spillImageWrite_writes : takes (.spillImageWrite k y) s
    ((((s.imageWritten k y).modCore k fun c => { c with spills := [] }).setCtx k y Ctx.reset).token k 0 e 0) :=
  congrArg done ((if_pos hst).trans ((if_pos hquiet).trans
    (State.writeImage_eq hwf hwrites hspill hslot htok hfree)))

section
include hwf hfree

/-- Every word of the image but the last stands at its offset. -/
theorem State.loadLocal_imageWritten {i v : Nat} (hi : ((s.ctx k y).imageWords y)[i]? = some v) (hv : v < 2 ^ 64) :
    (s.imageWritten k y).loadLocal k ((s.ctx k y).image + 8 * i) 8 = v := by
  obtain ⟨hbytes, hwords⟩ := State.imageStored_spec hwf hfree
  obtain ⟨hevent, -⟩ := State.imageWritten_spec hwf hfree
  have hlen : i < 63 := by
    rw [← (s.ctx k y).length_imageWords y]
    exact (List.getElem?_eq_some_iff.mp hi).1
  have hkept : (s.imageWritten k y).loadLocal k ((s.ctx k y).image + 8 * i) 8 =
      (s.imageOwns k y).loadLocal k ((s.ctx k y).image + 8 * i) 8 :=
    State.onlyBytes_loadLocal hevent (by rw [State.localAt_add, State.localAt_add]; omega)
  rw [hkept, State.loadLocal_eq, State.mem_imageOwns, State.localAt_congr (State.parts_imageOwns s k y)]
  exact (hwords i v hi).trans (Nat.mod_eq_of_lt (hv.trans_eq (by norm_num)))

end

/-- The state in which the image is complete and the slot is FREE. -/
def State.spilled (s : State) (k : Nat) (y : Slot) (e : Reg) : State :=
  (((s.imageWritten k y).modCore k fun c => { c with spills := [] }).setCtx k y Ctx.reset).token k 0 e 0

theorem State.loadLocal_spilled (off n : Nat) :
    (s.spilled k y e).loadLocal k off n = (s.imageWritten k y).loadLocal k off n := by
  have hmem : (s.spilled k y e).mem = (s.imageWritten k y).mem := by
    rw [State.spilled, State.mem_token, State.setCtx_mem, State.modCore_eq, State.setCore_mem]
  have hparts : (s.spilled k y e).parts = (s.imageWritten k y).parts := by
    rw [State.spilled, State.parts_token, State.setCtx_parts, State.modCore_eq, State.setCore_parts]
  rw [State.loadLocal_eq, State.loadLocal_eq, hmem, State.localAt_congr hparts]

include hwf hfree in
theorem State.core_spilled : ∃ b l f, (s.spilled k y e).core k =
    { (s.core k).reown (.slot y) (.image (s.ctx k y).image) with ringBad := b, kept := l, spills := [], ctxs := f } := by
  obtain ⟨b, l, hcore⟩ := State.core_imageWritten hwf hfree
  obtain ⟨f, htoken⟩ := State.core_token
    (((s.imageWritten k y).modCore k fun c => { c with spills := [] }).setCtx k y Ctx.reset) k 0 e 0
  refine ⟨b, l, f, htoken.trans ?_⟩
  rw [State.core_setCtx_self, State.modCore_eq, State.core_setCore_self, hcore]

end

/-! ## THR.SPILL and THR.FILL (R106, R107) -/

section
variable {s : State} {d a b : Reg} {x : Slot}

theorem run_imageOffset {v : Word} (hal : U v % 512 = 0) (hin : U v + 512 ≤ s.window s.myPart) :
    imageOffset v s = .ok () s := by
  simp [imageOffset, hal, Nat.not_lt.mpr hin]

section
variable (hready : s.pendingOf [d, a, b] = false) (hslot : s.slot = 0) (hx : x ≠ 0) (ha : s.rg a = wrapU x.val)
  (hal : U (s.rg b) % 512 = 0) (hin : U (s.rg b) + 512 ≤ s.window s.myPart)
include hready hslot hx ha hal hin

theorem thrSpill_refused (hst : ¬(((s.ctx s.key x).st = .stopped ∨ (s.ctx s.key x).st = .trapped) ∧
    (s.ctx s.key x).ending = false)) : takes (.thrSpill d a b) s (s.result d 1) := by
  refine issueM_ok hready (u := ()) ?_
  simp only [run_bind, run_get, run_trapIf, hal, bne_self_eq_false, Bool.false_eq_true, if_false, run_onlyContext0,
    hslot, if_true, run_target_slot ha hx, run_imageOffset hal hin, run_modify, Bool.not_eq_eq_eq_not, Bool.not_true]
  rw [if_neg hst]

theorem thrSpill_spills (hst : (s.ctx s.key x).st = .stopped ∨ (s.ctx s.key x).st = .trapped)
    (hend : (s.ctx s.key x).ending = false) :
    takes (.thrSpill d a b) s ((s.setPending d).beginSpill s.key x (U (s.rg b)) (some d)).seq := by
  refine issueM_ok hready (u := ()) ?_
  simp only [run_bind, run_get, run_trapIf, hal, bne_self_eq_false, Bool.false_eq_true, if_false, run_onlyContext0,
    hslot, if_true, run_target_slot ha hx, run_imageOffset hal hin, run_modify, Bool.not_eq_eq_eq_not, Bool.not_true]
  rw [if_pos ⟨hst, hend⟩]

theorem thrFill_busy (hst : (s.ctx s.key x).st ≠ .free) : takes (.thrFill d a b) s (s.result d 1) := by
  refine issueM_ok hready (u := ()) ?_
  simp only [run_bind, run_get, run_trapIf, hal, bne_self_eq_false, Bool.false_eq_true, if_false, run_onlyContext0,
    hslot, if_true, run_target_slot ha hx, run_imageOffset hal hin, run_modify]
  rw [if_pos hst]

section
variable (hst : (s.ctx s.key x).st = .free)
include hst

theorem thrFill_badImage (h : 512 ≤ s.loadLocal s.key (U (s.rg b) + 0x178) 8 ∨
    65536 ≤ s.loadLocal s.key (U (s.rg b) + 0x180) 8) : takes (.thrFill d a b) s (s.result d 2) := by
  refine issueM_ok hready (u := ()) ?_
  simp only [run_bind, run_get, run_trapIf, hal, bne_self_eq_false, Bool.false_eq_true, if_false, run_onlyContext0,
    hslot, if_true, run_target_slot ha hx, run_imageOffset hal hin, run_modify]
  rw [if_neg (not_not.mpr hst), if_pos h]

section
variable (hgood : ¬(512 ≤ s.loadLocal s.key (U (s.rg b) + 0x178) 8 ∨ 65536 ≤ s.loadLocal s.key (U (s.rg b) + 0x180) 8))
include hgood

theorem thrFill_engineHeld {o : Owner} (hcode : s.loadLocal s.key (U (s.rg b) + 0x178) 8 % 4 ≠ 0)
    (howner : (s.mine.engine (s.loadLocal s.key (U (s.rg b) + 0x178) 8 % 4)).owner = some o)
    (ho : o ≠ .image (U (s.rg b))) : takes (.thrFill d a b) s (s.result d 3) := by
  refine issueM_ok hready (u := ()) ?_
  simp only [run_bind, run_get, run_trapIf, hal, bne_self_eq_false, Bool.false_eq_true, if_false, run_onlyContext0,
    hslot, if_true, run_target_slot ha hx, run_imageOffset hal hin, run_modify, howner]
  have hheld := Bool.and_eq_true_iff.mpr ⟨bne_iff_ne.mpr hcode, bne_iff_ne.mpr ho⟩
  rw [if_neg (not_not.mpr hst), if_neg hgood, if_pos hheld]

/-- The state in which the slot fills from the image. -/
def State.fillBegun (s : State) (x : Slot) (off : Nat) (code : Nat) (d : Reg) : State :=
  ((((s.setPending d).modMine fun c => (c.reown (.image off) (.slot x)).fillBinding code x).modMine fun c =>
    { c with fills := c.fills ++ [⟨x, off, some d⟩] }).modCtx s.key x fun c => { c with st := .filling }).post
      (.fillComplete s.key x)

theorem thrFill_fills (h : s.loadLocal s.key (U (s.rg b) + 0x178) 8 % 4 = 0 ∨
    (s.mine.engine (s.loadLocal s.key (U (s.rg b) + 0x178) 8 % 4)).owner = none ∨
    (s.mine.engine (s.loadLocal s.key (U (s.rg b) + 0x178) 8 % 4)).owner = some (.image (U (s.rg b)))) :
    takes (.thrFill d a b) s
      (s.fillBegun x (U (s.rg b)) (s.loadLocal s.key (U (s.rg b) + 0x178) 8 % 4) d).seq := by
  refine issueM_ok hready (u := ()) ?_
  simp only [run_bind, run_get, run_trapIf, hal, bne_self_eq_false, Bool.false_eq_true, if_false, run_onlyContext0,
    hslot, if_true, run_target_slot ha hx, run_imageOffset hal hin, run_modify]
  rw [if_neg (not_not.mpr hst), if_neg hgood]
  generalize s.loadLocal s.key (U (s.rg b) + 0x178) 8 % 4 = code at h ⊢
  rcases h with h | h | h
  · simp only [h, bne_self_eq_false, Bool.false_and, Bool.false_eq_true, if_false]
    rfl
  · simp only [h, Bool.and_false, Bool.false_eq_true, if_false]
    rfl
  · simp only [h, bne_self_eq_false, Bool.and_false, Bool.false_eq_true, if_false]
    rfl

end
end
end
end

/-! ## What a spill and a fill that begin leave (R106, R107) -/

section
variable {s : State} {k : Nat} {d : Reg} {x : Slot}

theorem State.pend_seq (s : State) : s.seq.me.pend = s.me.pend := by
  rw [seq_eq, me_setMe]
  exact (congrArg Ctx.pend (keeps_advance s.me s.len) :)

theorem State.ctx_seq {y : Slot} (hy : y ≠ s.slot) : s.seq.ctx s.key y = s.ctx s.key y := by
  rw [seq_eq]
  exact State.ctx_setCtx_slot s s.key _ hy

/-- The register of a token is pending once it is asked for. -/
theorem State.pend_setPending (hd : d ≠ 0) : (s.setPending d).me.pend.getLsbD d.toNat = true := by
  have hme : (s.setPending d).me =
      if d = 0 then s.me else { s.me with pend := s.me.pend ||| BitVec.ofNat 32 (2 ^ d.toNat) } :=
    me_setMe s _
  rw [hme, if_neg hd, BitVec.getLsbD_or, getLsbD_registerBit]
  simp

theorem State.ctx_setPending (hx : x ≠ s.slot) : (s.setPending d).ctx s.key x = s.ctx s.key x :=
  State.ctx_setCtx_slot s s.key _ hx

theorem State.mem_flight_post (s : State) (i : Instr) : i ∈ (s.post i).flight :=
  List.mem_append_right _ (List.mem_singleton_self _)

/-- The context whose spill begins. -/
def Ctx.toSpill (c : Ctx) (off : Nat) : Ctx := { c with st := .spilling, trapRec := c.st = .trapped, image := off }

/-- The core with another spill under way. -/
def Core.addSpill (c : Core) (m : Move) : Core := { c with spills := c.spills ++ [m] }

section
variable {off : Nat} {tok : Option Reg} (hwait : (s.ctx k x).wait = none)
include hwait

/-- A context that waits for nothing has no entry that its spill gives up. -/
theorem State.beginSpill_eq : s.beginSpill k x off tok =
    ((s.setCtx k x ((s.ctx k x).toSpill off)).modCore k fun c => c.addSpill ⟨x, off, tok⟩).post
      (.spillImageWrite k x) := by
  have hctx : (((s.setCtx k x ((s.ctx k x).toSpill off)).modCore k fun c => c.addSpill ⟨x, off, tok⟩).ctx k x).wait =
      none := by
    rw [State.ctx_modCore (g := fun c => c.addSpill ⟨x, off, tok⟩) fun _ => rfl, State.ctx_setCtx_self]
    exact hwait
  exact congrArg (State.post · (.spillImageWrite k x)) (State.withdraw_none hctx)

theorem State.ctx_beginSpill : (s.beginSpill k x off tok).ctx k x = (s.ctx k x).toSpill off := by
  rw [State.beginSpill_eq hwait, State.ctx_post, State.ctx_modCore (g := fun c => c.addSpill ⟨x, off, tok⟩) fun _ => rfl,
    State.ctx_setCtx_self]

theorem State.me_beginSpill (hk : k = s.key) (hx : x ≠ s.slot) : (s.beginSpill k x off tok).me = s.me := by
  subst hk
  rw [State.beginSpill_eq hwait]
  show ((s.setCtx s.key x ((s.ctx s.key x).toSpill off)).modCore s.key fun c => c.addSpill ⟨x, off, tok⟩).ctx
    s.key s.slot = s.ctx s.key s.slot
  rw [State.ctx_modCore (g := fun c => c.addSpill ⟨x, off, tok⟩) fun _ => rfl, State.ctx_setCtx_slot _ _ _ hx.symm]

end

/-- The tables of a core that a fill changes hold no context. -/
theorem Core.ctxs_fillBinding (c : Core) (code : Nat) (x : Slot) : (c.fillBinding code x).ctxs = c.ctxs := by
  unfold Core.fillBinding Core.setEngine
  split
  · rfl
  · (repeat' split) <;> rfl

section
variable {off code : Nat} {y : Slot}

/-- The core's tables as a fill that begins leaves them. -/
def State.fillTables (s : State) (x : Slot) (off code : Nat) (d : Reg) : State :=
  ((s.setPending d).modMine fun c => (c.reown (.image off) (.slot x)).fillBinding code x).modMine fun c =>
    { c with fills := c.fills ++ [⟨x, off, some d⟩] }

theorem State.ctx_fillTables (y : Slot) :
    (s.fillTables x off code d).ctx s.key y = (s.setPending d).ctx s.key y :=
  (State.ctx_modCore (k := s.key) (g := fun c => { c with fills := c.fills ++ [⟨x, off, some d⟩] }) fun _ => rfl).trans
    (State.ctx_modCore (k := s.key) (g := fun c => (c.reown (.image off) (.slot x)).fillBinding code x) fun c =>
      Core.ctxs_fillBinding (c.reown (.image off) (.slot x)) code x)

theorem State.fillBegun_eq : s.fillBegun x off code d =
    ((s.fillTables x off code d).modCtx s.key x fun c => { c with st := .filling }).post (.fillComplete s.key x) := rfl

theorem State.ctx_fillBegun :
    (s.fillBegun x off code d).ctx s.key x = { (s.setPending d).ctx s.key x with st := .filling } := by
  rw [State.fillBegun_eq, State.ctx_post, State.modCtx_eq, State.ctx_setCtx_self, State.ctx_fillTables]

theorem State.me_fillBegun (hx : x ≠ s.slot) : (s.fillBegun x off code d).me = (s.setPending d).me := by
  show (s.fillBegun x off code d).ctx s.key s.slot = (s.setPending d).ctx s.key s.slot
  rw [State.fillBegun_eq, State.ctx_post, State.modCtx_eq, State.ctx_setCtx_slot _ _ _ hx.symm, State.ctx_fillTables]

end
end

/-! ## The end of a fill (R107) -/

section
variable {s : State} {k : Nat} {y : Slot} {m : Move} {e : Reg}

/-- A context that an image describes, of which nothing is kept beside it. -/
def State.fillImage (s : State) (k : Nat) (y : Slot) (off : Nat) : Ctx :=
  { (s.ctx k y).ofImage (fun i => s.loadLocal k (off + i) 8) with lost := 0, lostMod := 0, launch := none }

/-- The core's tables without a fill that is over. -/
def Core.fillOver (c : Core) (y : Slot) (off : Nat) : Core :=
  { c with fills := c.fills.filter fun f => f.slot ≠ y, kept := adel c.kept off }

/-- The state in which a fill is over. -/
def State.filled (s : State) (k : Nat) (y : Slot) (off : Nat) (e : Reg) : State :=
  ((s.setCtx k y (s.fillImage k y off)).modCore k fun c => c.fillOver y off).token k 0 e 0

theorem fillComplete_fills (hfill : (s.core k).fills = [m]) (hslot : m.slot = y) (htok : m.tok = some e)
    (hkept : (s.core k).kept = []) (hst : (s.ctx k y).st = .filling) :
    takes (.fillComplete k y) s (s.filled k y m.off e) := by
  have hfind : (s.core k).fills.find? (fun m => m.slot = y) = some m := by simp [hfill, hslot]
  show execFillComplete k y s = _
  unfold execFillComplete
  rw [hfind]
  dsimp only
  rw [if_pos hst, hkept, htok]
  rfl

/-- A register that has taken the token 0 reads 0. -/
theorem State.rd_token_zero (s : State) (k : Nat) (x : Slot) (d : Reg) : ((s.token k x d 0).ctx k x).rd d = 0 := by
  rw [State.rd_token, rd_wr]
  split
  · rfl
  next h =>
    have hd : d = 0 := not_not.mp fun hd => h ⟨rfl, hd⟩
    rw [hd, rd_zero]

theorem State.ctx_filled {off : Nat} (hy : y ≠ 0) : (s.filled k y off e).ctx k y = s.fillImage k y off := by
  unfold State.filled
  rw [State.ctx_token _ _ _ _ hy, State.ctx_modCore (g := fun c => c.fillOver y off) fun _ => rfl, State.ctx_setCtx_self]

theorem State.fills_filled {off : Nat} (hfill : (s.core k).fills = [m]) (hslot : m.slot = y) :
    ((s.filled k y off e).core k).fills = [] := by
  obtain ⟨l, hcore⟩ := State.core_token ((s.setCtx k y (s.fillImage k y off)).modCore k fun c => c.fillOver y off) k 0 e 0
  unfold State.filled
  rw [hcore, State.modCore_eq, State.core_setCore_self, State.core_setCtx_self]
  simp [Core.fillOver, hfill, hslot]

end

/-! ## The words of an image as a fill takes them (R105, R107) -/

section
variable {w : Nat} (hw : w < 2 ^ 64)
include hw

theorem aligned_word : BitVec.ofNat 64 w &&& 0xFFFFFFFFFFFFFFFC = wrapU (w / 4 * 4) := by
  rw [aligned_eq_wrapU, U, toNat_ofNat_of_lt hw]

theorem toNat_field_word (n : Nat) : ((BitVec.ofNat 64 w).extractLsb' 0 n).toNat = w % 2 ^ n := by
  rw [toNat_extractLsb', toNat_ofNat_of_lt hw, Nat.pow_zero, Nat.div_one]

theorem getLsbD_word (n : Nat) : (BitVec.ofNat 64 w).getLsbD n = true ↔ w / 2 ^ n % 2 = 1 := by
  rw [BitVec.getLsbD, toNat_ofNat_of_lt hw, Nat.testBit_eq_decide_div_mod_eq, decide_eq_true_iff]

theorem state_word : (if (BitVec.ofNat 64 w).getLsbD 2 then CtxSt.trapped else .stopped) =
    if w / 4 % 2 = 1 then .trapped else .stopped := if_congr (getLsbD_word hw 2) rfl rfl

theorem hit_word (b : Bool) : (b || (BitVec.ofNat 64 w).getLsbD 0) = true ↔ b = true ∨ w % 2 = 1 := by
  rw [Bool.or_eq_true, getLsbD_word hw, Nat.pow_zero, Nat.div_one]

/-- sr.icmiss has 58 bits. -/
theorem icmiss_word : BitVec.ofNat 64 w &&& 0x03FFFFFFFFFFFFFF = wrapU (w % 2 ^ 58) := by
  refine eq_wrapU_of_toNat ((toNat_and_lowMask _ (n := 58) (by decide)).trans ?_)
  rw [toNat_ofNat_of_lt hw]

end

theorem Ctx.rd_ofImage (old : Ctx) (w : Nat → Nat) (r : Reg) :
    (old.ofImage w).rd r = if r = 0 then 0 else wrapU (w (8 * r.toNat)) := by
  unfold Ctx.rd
  split
  · rfl
  next h =>
    have hfin : r.toFin ≠ 0 := fun h0 => h (BitVec.eq_of_toNat_eq (congrArg Fin.val h0))
    have hg : (old.ofImage w).g =
        Vector.ofFn fun (i : Fin 32) => if i = 0 then 0 else BitVec.ofNat 64 (w (8 * i.val)) := rfl
    rw [hg]
    simp [hfin]

/-- The loop registers of an image. -/
theorem loop_words {v w : Nat} (hv : v < 2 ^ 64) (hw : w < 2 ^ 64) (n : Word) :
    (⟨BitVec.ofNat 64 v &&& 0xFFFFFFFFFFFFFFFC, BitVec.ofNat 64 w &&& 0xFFFFFFFFFFFFFFFC, n⟩ : Loop) =
      ⟨wrapU (v / 4 * 4), wrapU (w / 4 * 4), n⟩ := by
  rw [aligned_word hv, aligned_word hw]

theorem State.rd_fillImage (s : State) (k : Nat) (y : Slot) (off : Nat) (r : Reg) : (s.fillImage k y off).rd r =
    if r = 0 then 0 else wrapU (s.loadLocal k (off + 8 * r.toNat) 8) := by
  have hg : (s.fillImage k y off).rd r = ((s.ctx k y).ofImage fun i => s.loadLocal k (off + i) 8).rd r := rfl
  rw [hg, Ctx.rd_ofImage]

theorem toNat_lt_word {w : Nat} (x : BitVec w) (h : w ≤ 64 := by decide) : x.toNat < 2 ^ 64 :=
  x.isLt.trans_le (Nat.pow_le_pow_right (by decide) h)

theorem Ctx.causeWord_lt (c : Ctx) (b : Bool) : c.cause.toNat + (if b then 0x10000 else 0) < 2 ^ 64 := by
  have hlt := c.cause.isLt
  split <;> omega

theorem Ctx.status_lt (c : Ctx) (x : Slot) : c.status x < 2 ^ 64 := by
  have hlt := c.bind.isLt
  have hx := x.isLt
  unfold Ctx.status
  (repeat' split) <;> omega

end Sys2Proof.Machine
end

section
open Sys2Proof Sys2Proof.Machine

/-- Settles O34: what begins, what is refused, and what the image and the slot hold when the move is over. -/
theorem spillAndFill : Obligations.SpillAndFill := by
  unfold Obligations.SpillAndFill
  intro s d a b x
  refine ⟨?instructions, ?image, ?filled⟩
  case instructions =>
    intro hready h0 hx ha
    dsimp only
    intro hal hin hend
    have hne : x ≠ s.slot := fun h => hx (h.trans h0)
    refine ⟨fun hst => thrSpill_refused hready h0 hx ha hal hin fun h => hst (by simpa using h.1), ?spills,
      thrFill_busy hready h0 hx ha hal hin, thrFill_badImage hready h0 hx ha hal hin, ?fills⟩
    case spills =>
      intro hst hwait
      have hst' : (s.ctx s.key x).st = .stopped ∨ (s.ctx s.key x).st = .trapped := by simpa using hst
      have hwait' : ((s.setPending d).ctx s.key x).wait = none := by rw [State.ctx_setPending hne]; exact hwait
      have hctx := State.ctx_beginSpill (off := U (s.rg b)) (tok := some d) hwait'
      have hme : ((s.setPending d).beginSpill s.key x (U (s.rg b)) (some d)).me = (s.setPending d).me :=
        State.me_beginSpill hwait' rfl hne
      exact ⟨thrSpill_spills hready h0 hx ha hal hin hst' hend, congrArg Ctx.st hctx, congrArg Ctx.image hctx,
        State.beginSpill_eq hwait' ▸ State.mem_flight_post .., fun hd => hme ▸ State.pend_setPending hd⟩
    case fills =>
      intro hst hstatus hident
      have hgood := not_or.mpr ⟨Nat.not_le.mpr hstatus, Nat.not_le.mpr hident⟩
      refine ⟨fun o hcode howner ho => thrFill_engineHeld hready h0 hx ha hal hin hst hgood hcode howner ho,
        fun hown => ⟨_, thrFill_fills hready h0 hx ha hal hin hst hgood hown, ?filling,
          State.mem_flight_post .., rfl, fun hd => ?pending⟩⟩
      case filling =>
        exact (congrArg Ctx.st (State.ctx_seq (s := s.fillBegun x (U (s.rg b)) _ d) hne)).trans
          (congrArg Ctx.st State.ctx_fillBegun)
      case pending =>
        rw [State.pend_seq, State.me_fillBegun hne]
        exact State.pend_setPending hd
  case image =>
    intro k y e m c off hwf hy hst hquiet hwrites hspill hslot htok hfree
    have hmem := State.wf_mem hwf
    obtain ⟨b, l, f, hcore⟩ := State.core_spilled (e := e) hmem hfree
    refine ⟨s.spilled k y e, spillImageWrite_writes hmem hst hquiet hwrites hspill hslot htok hfree, ?words, ?slot,
      by rw [hcore], by rw [hcore]; rfl, State.rd_token_zero .., fun _ => State.pend_token_self ..⟩
    case words =>
      dsimp only
      simp only [State.loadLocal_spilled]
      have word {i v : Nat} (hi : (c.imageWords y)[i]? = some v) (hv : v < 2 ^ 64) :
          (s.imageWritten k y).loadLocal k (off + 8 * i) 8 = v := State.loadLocal_imageWritten hmem hfree hi hv
      have rest {i v : Nat} (hi : _ = some v) (hv : v < 2 ^ 64) := word ((c.imageWords_rest y i).trans hi) hv
      exact ⟨fun r => word (c.imageWords_register y r) (c.rd r).isLt, rest (i := 0) rfl c.pc.isLt,
        rest (i := 1) rfl c.loop0.start.isLt, rest (i := 2) rfl c.loop0.last.isLt, rest (i := 3) rfl c.loop0.count.isLt,
        rest (i := 4) rfl c.loop1.start.isLt, rest (i := 5) rfl c.loop1.last.isLt, rest (i := 6) rfl c.loop1.count.isLt,
        rest (i := 7) rfl (toNat_lt_word c.round), rest (i := 8) rfl c.touched.isLt,
        rest (i := 9) rfl (toNat_lt_word c.vprog),
        (rest (i := 10) rfl (c.causeWord_lt (c.skip || c.skipping))).trans (by simp only [Bool.or_eq_true]),
        rest (i := 11) rfl c.epc.isLt, rest (i := 12) rfl c.tval.isLt, rest (i := 13) rfl c.icmiss.isLt,
        rest (i := 14) rfl (toNat_lt_word c.blkto), rest (i := 15) rfl (c.status_lt y),
        rest (i := 16) rfl (toNat_lt_word c.asid),
        (State.imageWritten_spec hmem hfree).2⟩
    case slot =>
      unfold State.spilled
      rw [State.ctx_token _ _ _ _ hy, State.ctx_setCtx_self]
  case filled =>
    intro k y m e hfill hslot htok hy hkept hst
    refine ⟨_, fillComplete_fills hfill hslot htok hkept hst, State.mem_token .., State.fills_filled hfill hslot,
      State.rd_token_zero .., State.pend_token_self .., ?_⟩
    intro word c
    have hc : c = s.fillImage k y m.off := State.ctx_filled hy
    have hlt (i : Nat) : word i < 2 ^ 64 := s.loadLocal_lt k _
    rw [hc]
    exact ⟨aligned_word (hlt 0x100), s.rd_fillImage k y m.off, loop_words (hlt 0x108) (hlt 0x110) _,
      loop_words (hlt 0x120) (hlt 0x128) _, fun _ => toNat_field_word (hlt 0x138) 5, rfl, toNat_field_word (hlt 0x148) 5,
      toNat_field_word (hlt 0x150) 8, getLsbD_word (hlt 0x150) 16, rfl, rfl, icmiss_word (hlt 0x168),
      toNat_field_word (hlt 0x170) 32,
      toNat_field_word (hlt 0x180) 16, toNat_field_word (hlt 0x178) 2, getLsbD_word (hlt 0x178) 3,
      getLsbD_word (hlt 0x178) 8, hit_word (hlt 0x1F8) _, state_word (hlt 0x178)⟩
end

section
/-! SUPPORT. What the failure of a hub or of the switch leaves alone: the memory, the hubs' records, and the dies that
have moved over (R179, R180, R188). -/

namespace Sys2Proof.Machine

/-! ## Changes of contexts and of steps under way -/

/-- `t` differs from `s` in the cores, in the steps under way and in what has left the module only. -/
def State.Runs (s t : State) : Prop :=
  ∃ cs rs fl pk ug out, t =
    { s with cores := cs, retry := rs, flight := fl, parked := pk, urgent := ug, switchOut := out }

/-- A fold relates its start to its end where each step is related and the relation is reflexive and transitive. -/
theorem foldl_related {α : Type} {R : State → State → Prop} (refl : ∀ s, R s s)
    (trans : ∀ {s t u}, R s t → R t u → R s u) {g : State → α → State} (h : ∀ s a, R s (g s a)) (l : List α)
    (s : State) : R s (l.foldl g s) := by
  induction l generalizing s with
  | nil => exact refl s
  | cons a l ih => exact trans (h s a) (ih (g s a))

namespace State

theorem Runs.refl (s : State) : s.Runs s := ⟨_, _, _, _, _, _, rfl⟩

theorem Runs.trans {s t u : State} : s.Runs t → t.Runs u → s.Runs u := by
  rintro ⟨_, _, _, _, _, _, rfl⟩ ⟨_, _, _, _, _, _, rfl⟩
  exact ⟨_, _, _, _, _, _, rfl⟩

theorem Runs.foldl {α : Type} {g : State → α → State} (h : ∀ s a, Runs s (g s a)) (l : List α) (s : State) :
    s.Runs (l.foldl g s) := foldl_related Runs.refl Runs.trans h l s

theorem runs_modCtx (s : State) (k : Nat) (x : Slot) (f : Ctx → Ctx) : s.Runs (s.modCtx k x f) :=
  ⟨_, _, _, _, _, _, rfl⟩

theorem runs_raise (s : State) (k n : Nat) : s.Runs (s.raise k n) := ⟨_, _, _, _, _, _, rfl⟩

theorem runs_post (s : State) (i : Instr) : s.Runs (s.post i) := ⟨_, _, _, _, _, _, rfl⟩

theorem runs_unpark (s : State) : s.Runs s.unpark := ⟨_, _, _, _, _, _, rfl⟩

theorem runs_loseSteps (s : State) (gone : Instr → Bool) : s.Runs (s.loseSteps gone) := ⟨_, _, _, _, _, _, rfl⟩

theorem runs_reply (s : State) (k : Nat) (x : Slot) : s.Runs (s.reply k x) := by
  unfold reply
  split
  · exact Runs.refl s
  · exact runs_modCtx s k x _
  · exact ⟨_, _, _, _, _, _, rfl⟩

theorem runs_replyAll (s : State) (p : Nat → Wait → Bool) : s.Runs (s.replyAll p) := by
  unfold replyAll
  refine Runs.foldl (fun s e => Runs.foldl (fun s x => ?_) _ s) _ s
  split
  · split
    · exact runs_reply s _ _
    · exact Runs.refl s
  · exact Runs.refl s

theorem runs_lineArrived (s : State) (d p line : Nat) : s.Runs (s.lineArrived d p line) :=
  (runs_replyAll s _).trans (runs_unpark _)

theorem runs_emit (s : State) (i : Instr) : s.Runs (s.emit i) := by
  unfold emit
  split
  · split
    · exact ⟨_, _, _, _, _, _, rfl⟩
    · exact runs_post s i
  · exact runs_post s i

theorem runs_echoesIn (s : State) (k : Nat) (x : Slot) : s.Runs (s.echoesIn k x) := by
  unfold echoesIn
  split
  · exact runs_reply s k x
  · exact Runs.refl s

theorem runs_loseHomes (s : State) (lost : Home → Bool) (m : Nat) : s.Runs (s.loseHomes lost m) := by
  unfold loseHomes
  refine Runs.trans ⟨_, _, _, _, _, _, rfl⟩ (Runs.foldl (fun s e => Runs.foldl (fun s x => ?_) _ s) s.cores _)
  dsimp only
  split
  · exact Runs.refl s
  · exact (runs_modCtx s e.1 x _).trans (runs_echoesIn _ e.1 x)

theorem runs_losing (s : State) (lost : Home → Bool) (m : Nat) : s.Runs (s.losing lost m) :=
  ((runs_loseHomes s lost m).trans (runs_replyAll _ _)).trans (runs_unpark _)

theorem runs_finishAll (s : State) (l : List (Nat × Slot)) (v : Word) : s.Runs (s.finishAll l v) := by
  unfold finishAll
  refine Runs.foldl (fun s e => ?_) l s
  split
  · exact runs_modCtx s e.1 e.2 _
  · exact runs_modCtx s e.1 e.2 _
  · exact Runs.refl s

theorem runs_breakEpisodes (s : State) (hit : Nat → Bool) :
    Runs { s with chans := s.chans.filter fun c => !(c.scope == .pod && hit c.part) } (s.breakEpisodes hit) :=
  Runs.foldl (fun s (c : SyncChan) => runs_finishAll s c.arrived 2) _ _

theorem runs_raiseAllSvc (s : State) : s.Runs s.raiseAllSvc :=
  Runs.foldl (fun s _ => runs_raise s _ _) _ s

/-! ## What every failure keeps -/

/-- `t` has the memory of `s`, its hubs, its modules and its episodes, and every die that had moved over has. -/
structure Keeps (s t : State) : Prop where
  mem : t.mem = s.mem
  hubDown : t.hubDown = s.hubDown
  hubFailed : t.hubFailed = s.hubFailed
  unreachable : t.unreachable = s.unreachable
  chans : t.chans = s.chans
  moved : ∀ d, (s.die d).moved = true → (t.die d).moved = true

/-- `t` keeps the directory and the partitions of `s` too. -/
structure Spares (s t : State) : Prop extends Keeps s t where
  dir : t.dir = s.dir
  parts : t.parts = s.parts

theorem Keeps.refl (s : State) : s.Keeps s := ⟨rfl, rfl, rfl, rfl, rfl, fun _ => id⟩

theorem Keeps.trans {s t u : State} (h : s.Keeps t) (g : t.Keeps u) : s.Keeps u :=
  ⟨g.mem.trans h.mem, g.hubDown.trans h.hubDown, g.hubFailed.trans h.hubFailed, g.unreachable.trans h.unreachable,
    g.chans.trans h.chans, fun d hd => g.moved d (h.moved d hd)⟩

theorem Keeps.foldl {α : Type} {g : State → α → State} (h : ∀ s a, Keeps s (g s a)) (l : List α) (s : State) :
    s.Keeps (l.foldl g s) := foldl_related Keeps.refl Keeps.trans h l s

theorem Spares.refl (s : State) : s.Spares s := ⟨Keeps.refl s, rfl, rfl⟩

theorem Spares.trans {s t u : State} (h : s.Spares t) (g : t.Spares u) : s.Spares u :=
  ⟨h.toKeeps.trans g.toKeeps, g.dir.trans h.dir, g.parts.trans h.parts⟩

theorem Spares.foldl {α : Type} {g : State → α → State} (h : ∀ s a, Spares s (g s a)) (l : List α) (s : State) :
    s.Spares (l.foldl g s) := foldl_related Spares.refl Spares.trans h l s

theorem Runs.spares {s t : State} : s.Runs t → s.Spares t := by
  rintro ⟨_, _, _, _, _, _, rfl⟩
  exact ⟨⟨rfl, rfl, rfl, rfl, rfl, fun _ => id⟩, rfl, rfl⟩

theorem spares_modDie (s : State) (d : Nat) {f : Die → Die} (hf : ∀ e, e.moved = true → (f e).moved = true) :
    s.Spares (s.modDie d f) := by
  refine ⟨⟨rfl, rfl, rfl, rfl, rfl, fun c hc => ?_⟩, rfl, rfl⟩
  by_cases h : c = d
  · subst h
    rw [modDie_eq, die_setDie_self]
    exact hf _ hc
  · rwa [modDie_eq, die_setDie_ne _ _ h]

theorem spares_modReq (s : State) (d p line : Nat) (f : OpenReq → OpenReq) : s.Spares (s.modReq d p line f) :=
  spares_modDie s d fun _ => id

theorem spares_setBuffered (s : State) (d : Nat) (w : WbLine) : s.Spares (s.setBuffered d w) :=
  spares_modDie s d fun _ => id

theorem spares_dropCopy (s : State) (d p line : Nat) : s.Spares (s.dropCopy d p line) :=
  spares_modDie s d fun _ => id

theorem spares_poison (s : State) (p line : Nat) : s.Spares (s.poison p line) :=
  ⟨⟨rfl, rfl, rfl, rfl, rfl, fun _ => id⟩, rfl, rfl⟩

theorem spares_setBusy (s : State) (b : HubLine) : s.Spares (s.setBusy b) := by
  unfold setBusy
  split <;> exact ⟨⟨rfl, rfl, rfl, rfl, rfl, fun _ => id⟩, rfl, rfl⟩

theorem spares_clearBusy (s : State) (p line : Nat) : s.Spares (s.clearBusy p line) :=
  ⟨⟨rfl, rfl, rfl, rfl, rfl, fun _ => id⟩, rfl, rfl⟩

theorem keeps_setEntry (s : State) (line : Nat) (e : DirEntry) : s.Keeps (s.setEntry line e) :=
  ⟨rfl, rfl, rfl, rfl, rfl, fun _ => id⟩

/-- A line that its home has lost. -/
theorem keeps_lostLine (s : State) (p line : Nat) :
    s.Keeps (((s.freeEntry p line).clearExported p line).poison p line) :=
  ⟨rfl, rfl, rfl, rfl, rfl, fun _ => id⟩

/-! ## Requests that are sent again or fail (R180, R188) -/

theorem spares_sendAgain (s : State) (d : Nat) (q : OpenReq) : s.Spares (s.sendAgain d q) := by
  unfold sendAgain
  split
  · exact spares_modReq s d _ _ _
  · exact (spares_modReq s d _ _ _).trans (runs_emit _ _).spares

theorem spares_sendWaiting (s : State) (d : Nat) : s.Spares (s.sendWaiting d) := by
  unfold sendWaiting
  split
  · exact spares_sendAgain s d _
  · exact Spares.refl s

theorem spares_closeReq (s : State) (d p line : Nat) : s.Spares (s.closeReq d p line) := by
  refine Spares.trans (spares_modDie s d ?_) (spares_sendWaiting _ d)
  exact fun _ => id

theorem spares_serveOnce (s : State) (d : Nat) (l : LlcLine) (steps : List Instr) :
    s.Spares (s.serveOnce d l steps) := by
  unfold serveOnce
  refine ((spares_modDie s d fun _ => ?_).trans (Runs.foldl (fun t c => ?_) (s.waitersOf d l.part l.line) _).spares).trans
    (Runs.trans ⟨_, _, _, _, _, _, rfl⟩ (runs_lineArrived _ d _ _)).spares
  · exact id
  · split
    · exact runs_reply t _ _
    · exact runs_modCtx t _ _ _

theorem spares_failReq (s : State) (d : Nat) (q : OpenReq) : s.Spares (s.failReq d q) :=
  (spares_closeReq s d _ _).trans (spares_serveOnce _ d _ _)

theorem spares_failAck (s : State) (d : Nat) (q : OpenReq) : s.Spares (s.failAck d q) :=
  ((spares_modReq s d _ _ _).trans (spares_serveOnce _ d _ _)).trans
    (show Runs _ _ from ⟨_, _, _, _, _, _, rfl⟩).spares

theorem keeps_failData (s : State) (d : Nat) (q : OpenReq) : s.Keeps (s.failData d q) := by
  unfold failData
  dsimp only
  split
  · exact (spares_failReq s d q).toKeeps.trans (keeps_lostLine _ _ _)
  · exact (spares_failReq s d q).toKeeps

theorem keeps_failOpen (s : State) (gone : Nat → Nat → Bool) (hit : Nat → Bool) (d : Nat) :
    s.Keeps (s.failOpen gone hit d) := by
  unfold failOpen
  refine Keeps.foldl (fun s q => ?_) _ s
  split
  · exact (spares_failReq s d q).toKeeps
  · split
    · exact keeps_failData s d q
    · split
      · exact (spares_failAck s d q).toKeeps
      · exact Keeps.refl s

/-- Dirty data that a die has received for a request stays in its buffer. -/
theorem spares_abandonData (s : State) (d : Nat) (q : OpenReq) :
    s.Spares (match q.data with
      | some (data, true) =>
        match s.buffered d q.part q.line with
        | some w => s.setBuffered d { w with data := data, key := q.key }
        | none => s.setBuffered d ⟨q.line, q.part, q.key, data, false, true, 0, false⟩
      | _ => s) := by
  split
  · split <;> exact spares_setBuffered s d _
  · exact Spares.refl s

theorem spares_abandon (s : State) (d h : Nat) : s.Spares (s.abandon d h) := by
  unfold abandon
  dsimp only
  refine ((Spares.foldl (fun t q => ?again) _ s).trans (Spares.foldl (fun t q => spares_sendAgain t d q) _ _)).trans
    (Spares.foldl (fun t w => ?buffer) _ _)
  case again => exact (spares_abandonData t d q).trans (spares_modReq _ d _ _ _)
  case buffer =>
    split
    · exact (spares_setBuffered t d _).trans (runs_emit _ _).spares
    · split
      · exact spares_setBuffered t d _
      · exact Spares.refl t

/-! ## What the hub no longer waits for, and the switch no longer shares (R188) -/

theorem spares_clearHome (s : State) (p line : Nat) (why : HWhy) : s.Spares (s.clearHome p line why) := by
  unfold clearHome
  split
  · exact ((runs_emit s _).trans (runs_post _ _)).spares
  · exact (runs_emit s _).spares

theorem spares_sendHome (s : State) (p line key : Nat) (data : LineData) (clear : Bool) (why : HWhy) :
    s.Spares (s.sendHome p line key data clear why) := by
  unfold sendHome
  split
  · exact ((runs_emit s _).trans (runs_post _ _)).spares
  · exact (runs_emit s _).spares

theorem spares_finishRecall (s : State) (p line : Nat) : s.Spares (s.finishRecall p line) := by
  unfold finishRecall
  split
  · split
    · dsimp only
      split
      · exact (spares_setBusy s _).trans (spares_sendHome _ p line _ _ _ _)
      · exact (spares_setBusy s _).trans (spares_clearHome _ p line _)
    · exact Spares.refl s
  · exact Spares.refl s

theorem spares_dropSwitch (s : State) (b : HubLine) : s.Spares (s.dropSwitch b) := by
  unfold dropSwitch
  split
  · exact Spares.refl s
  · dsimp only
    split
    · exact ((runs_loseSteps s _).spares.trans (spares_setBusy _ _)).trans (spares_clearHome _ _ _ _)
    · split
      · exact spares_clearBusy s _ _
      · exact spares_setBusy s _
    · exact spares_setBusy s _

theorem spares_unwait (s : State) (b : HubLine) : s.Spares (s.unwait b) := by
  unfold unwait
  split
  · dsimp only
    split
    · exact ((spares_poison s _ _).trans (spares_setBusy _ _)).trans (spares_finishRecall _ _ _)
    · exact (spares_setBusy s _).trans (spares_finishRecall _ _ _)
  · exact Spares.refl s

theorem keeps_unpod (s : State) (t : Nat) (e : DirEntry) : s.Keeps (s.unpod t e) := by
  unfold unpod
  dsimp only
  split
  · exact keeps_setEntry s _ _
  · split
    · exact Keeps.refl s
    · split
      · exact (Spares.foldl (fun s d => spares_dropCopy s d _ _) _ s).toKeeps.trans (keeps_lostLine _ _ _)
      · exact keeps_setEntry s _ _

theorem unpod_parts (s : State) (t : Nat) (e : DirEntry) : (s.unpod t e).parts = s.parts := by
  unfold unpod
  dsimp only
  split
  · rfl
  · split
    · rfl
    · split
      · exact (Spares.foldl (fun s d => spares_dropCopy s d _ _) _ s).parts
      · rfl

theorem aget_map {α β : Type} (l : List (Nat × α)) (f : Nat → α → β) (k : Nat) :
    aget (l.map fun e => (e.1, f e.1 e.2)) k = (aget l k).map (f k) := by
  induction l with
  | nil => rfl
  | cons e l ih =>
    obtain ⟨i, v⟩ := e
    rw [List.map_cons, aget, aget, ih]
    split
    · next h =>
      cases h
      rfl
    · rfl

theorem keeps_dropPodCopies (s : State) (gone : Nat → Nat → Bool) : s.Keeps (s.dropPodCopies gone) := by
  refine ⟨rfl, rfl, rfl, rfl, rfl, fun d hd => ?_⟩
  have hmap := aget_map s.dies (fun _ e => ({ e with
      llc := e.llc.filter fun l => !gone l.part l.line
      wbuf := e.wbuf.filter fun w => !gone w.part w.line } : Die)) d
  have hdie : (s.dropPodCopies gone).die d = _ := congrArg (Option.getD · Die.reset) hmap
  rw [hdie]
  unfold die at hd
  cases h : aget s.dies d with
  | none => exact (h ▸ hd :)
  | some e => exact (h ▸ hd :)

/-! ## The loss of modules in order (R188) -/

/-- The lines of a switch that no longer reaches some modules. -/
def goneWith (mods : List Nat) (hit : Nat → Bool) (p line : Nat) : Bool :=
  hit p && isPodLine line && mods.contains (modOf line)

/-- A step of the traffic with those modules, or of the switch for a line homed here. -/
def cutStep (mods : List Nat) (hit : Nat → Bool) (i : Instr) : Bool :=
  (match i with
    | .rds h l | .rdx h l => h.req = 34 && hit h.part && !isPodLine l
    | _ => false) || (message i).any fun m => goneWith mods hit m.1.part m.2

/-- The steps of R188 on requests and copies: the first part of `State.podLost`. -/
def withoutCopies (s : State) (mods : List Nat) (hit : Nat → Bool) : State :=
  ((s.dies.map (·.1)).foldl (fun s d => s.failOpen (goneWith mods hit) hit d)
    (s.loseSteps (cutStep mods hit))).dropPodCopies (goneWith mods hit)

/-- The hub's work without the switch. -/
def withoutSwitch (s : State) (hit : Nat → Bool) : State :=
  let s := (s.hub.filter fun b => hit b.part).foldl dropSwitch s
  (s.hub.filter fun b => hit b.part).foldl unwait s

/-- The directory without the switch. -/
def withoutPod (s : State) (hit : Nat → Bool) : State :=
  (s.dir.filter fun e => hit (partOf e.1)).foldl (fun s e => s.unpod e.1 e.2) s

theorem podLost_eq (s : State) (mods : List Nat) (hit : Nat → Bool) :
    s.podLost mods hit =
      let u := (((s.withoutCopies mods hit).withoutSwitch hit).withoutPod hit).breakEpisodes hit
      (u.parts.filter fun e => hit e.1).foldl (fun s e => s.raiseSvc e.1) u := rfl

theorem keeps_withoutCopies (s : State) (mods : List Nat) (hit : Nat → Bool) :
    s.Keeps (s.withoutCopies mods hit) :=
  ((runs_loseSteps s _).spares.toKeeps.trans (Keeps.foldl (fun s d => keeps_failOpen s _ _ d) _ _)).trans
    (keeps_dropPodCopies _ _)

theorem spares_withoutSwitch (s : State) (hit : Nat → Bool) : s.Spares (s.withoutSwitch hit) :=
  (Spares.foldl spares_dropSwitch _ s).trans (Spares.foldl spares_unwait _ _)

theorem keeps_withoutPod (s : State) (hit : Nat → Bool) : s.Keeps (s.withoutPod hit) :=
  Keeps.foldl (fun s (e : Nat × DirEntry) => keeps_unpod s e.1 e.2) _ s

theorem withoutPod_parts (s : State) (hit : Nat → Bool) : (s.withoutPod hit).parts = s.parts :=
  foldl_keeps (fun s (e : Nat × DirEntry) => unpod_parts s e.1 e.2) _ s

/-- Only episodes end and events are raised once the directory has lost the pod. -/
theorem runs_podLost (s : State) (mods : List Nat) (hit : Nat → Bool) :
    let u := ((s.withoutCopies mods hit).withoutSwitch hit).withoutPod hit
    Runs { u with chans := u.chans.filter fun c => !(c.scope == .pod && hit c.part) } (s.podLost mods hit) := by
  rw [podLost_eq]
  exact (runs_breakEpisodes _ hit).trans (Runs.foldl (fun s _ => runs_raise s _ _) _ _)

theorem keeps_podLost (s : State) (mods : List Nat) (hit : Nat → Bool) :
    Keeps { s with chans := s.chans.filter fun c => !(c.scope == .pod && hit c.part) } (s.podLost mods hit) := by
  have h := ((keeps_withoutCopies s mods hit).trans (spares_withoutSwitch _ hit).toKeeps).trans
    (keeps_withoutPod _ hit)
  have g := (runs_podLost s mods hit).spares.toKeeps
  exact ⟨g.mem.trans h.mem, g.hubDown.trans h.hubDown, g.hubFailed.trans h.hubFailed,
    g.unreachable.trans h.unreachable, g.chans.trans (congrArg (List.filter _) h.chans),
    fun d hd => g.moved d (h.moved d hd)⟩

/-! ## No request is open -/

theorem mem_of_aget {α : Type} {l : List (Nat × α)} {k : Nat} {v : α} (h : aget l k = some v) : (k, v) ∈ l := by
  induction l with
  | nil => cases h
  | cons e l ih =>
    obtain ⟨i, w⟩ := e
    rw [aget] at h
    split at h
    · next hi =>
      cases hi
      cases h
      exact List.mem_cons_self
    · exact List.mem_cons_of_mem _ (ih h)

theorem die_reqs_of_quiet {s : State} (h : ∀ d ∈ s.dies, d.2.reqs = []) (d : Nat) : (s.die d).reqs = [] := by
  unfold die
  cases hd : aget s.dies d with
  | none => rfl
  | some e => exact h _ (mem_of_aget hd)

theorem failOpens_of_quiet {s : State} (h : ∀ d ∈ s.dies, d.2.reqs = []) (gone : Nat → Nat → Bool) (hit : Nat → Bool)
    (l : List Nat) : l.foldl (fun s d => s.failOpen gone hit d) s = s := by
  induction l with
  | nil => rfl
  | cons d l ih => rw [List.foldl_cons, failOpen, die_reqs_of_quiet h d, List.foldl_nil, ih]

theorem withoutCopies_of_quiet {s : State} (h : ∀ d ∈ s.dies, d.2.reqs = []) (mods : List Nat) (hit : Nat → Bool) :
    s.withoutCopies mods hit = (s.loseSteps (cutStep mods hit)).dropPodCopies (goneWith mods hit) := by
  rw [withoutCopies, failOpens_of_quiet (s := s.loseSteps (cutStep mods hit)) h]

/-! ## A failure that cuts off no partition -/

theorem failOpen_none (s : State) (mods : List Nat) (d : Nat) :
    s.failOpen (goneWith mods fun _ => false) (fun _ => false) d = s := by
  unfold failOpen
  exact foldl_keeps (f := id) (fun s q => by simp [goneWith]) _ s

theorem withoutCopies_none_dir (s : State) (mods : List Nat) : (s.withoutCopies mods fun _ => false).dir = s.dir := by
  have hfold : ∀ l : List Nat, ∀ t : State,
      l.foldl (fun s d => s.failOpen (goneWith mods fun _ => false) (fun _ => false) d) t = t := fun l t =>
    foldl_keeps (f := id) (fun s d => failOpen_none s mods d) l t
  rw [withoutCopies, hfold]
  exact List.filter_eq_self.mpr fun e _ => by simp [goneWith]

theorem withoutPod_none (s : State) : s.withoutPod (fun _ => false) = s := by simp [withoutPod]

theorem podLost_none_dir (s : State) (mods : List Nat) : (s.podLost mods fun _ => false).dir = s.dir := by
  rw [(runs_podLost s mods _).spares.dir, withoutPod_none]
  exact (spares_withoutSwitch _ _).dir.trans (withoutCopies_none_dir s mods)


/-! ## A hub that fails (R179, R180) -/

/-- The state in which the hub `hub` is down and its entries and its traffic are gone. -/
def withoutHub (s : State) (hub : Nat) : State :=
  { (s.losing (homeHub hub) s.ownModule).loseSteps (throughHub hub) with
    hubDown := some hub
    hubFailed := some hub
    dir := s.dir.filter fun e => ownHub (tagLine e.1) ≠ hub
    hub := s.hub.filter fun b => ownHub b.line ≠ hub }

/-- Every die has moved over to the hub that is left. -/
def movedOver (s : State) (hub : Nat) : State :=
  s.dies.foldl (fun s e => (s.modDie e.1 fun d => { d with moved := true }).abandon e.1 hub) s

/-- A partition that has lost its last port to the pod. -/
def cutHere (s : State) (p : Nat) : Bool := s.podParts p && (s.portsOf p).isEmpty

theorem takes_hubFailureReport {s : State} {hub : Nat} (hup : s.hubDown = none) :
    let u := (s.withoutHub hub).movedOver hub
    takes (.hubFailureReport hub) s (u.podLost u.podModules u.cutHere).raiseAllSvc := by
  show execHubFailureReport hub s = _
  unfold execHubFailureReport
  rw [if_neg (by simp [hup])]
  rfl

/-- The changes of `withoutHub` beside the hub itself and its entries. -/
theorem withoutHub_eq (s : State) (hub : Nat) : ∃ t, s.Runs t ∧ s.withoutHub hub =
    { t with hubDown := some hub, hubFailed := some hub, dir := s.dir.filter fun e => ownHub (tagLine e.1) ≠ hub,
             hub := s.hub.filter fun b => ownHub b.line ≠ hub } :=
  ⟨_, (runs_losing s _ _).trans (runs_loseSteps _ _), rfl⟩

theorem spares_movedOver (s : State) (hub : Nat) : s.Spares (s.movedOver hub) :=
  Spares.foldl (fun s _ => (spares_modDie s _ fun _ _ => rfl).trans (spares_abandon _ _ hub)) _ s

theorem movedOver_moved (s : State) (hub : Nat) {i : Nat × Die} (hi : i ∈ s.dies) :
    ((s.movedOver hub).die i.1).moved = true := by
  have hstep (t : State) (e : Nat × Die) : t.Spares ((t.modDie e.1 fun d => { d with moved := true }).abandon e.1 hub) :=
    (spares_modDie t _ fun _ _ => rfl).trans (spares_abandon _ _ hub)
  refine foldl_reaches (P := fun t => (t.die i.1).moved = true) hi (fun t => ?_) (fun t e h => (hstep t e).moved _ h) s
  refine (spares_abandon _ i.1 hub).moved i.1 ?_
  rw [modDie_eq, die_setDie_self]

theorem cutHere_of_no_ports {s : State} (h : ∀ i ∈ s.parts, i.2.cfg.ports = []) : s.cutHere = fun _ => false := by
  funext p
  have hp : (s.cfg p).ports = [] := by
    unfold cfg part
    cases he : aget s.parts p with
    | none => rfl
    | some e => exact h _ (mem_of_aget he)
  simp [cutHere, podParts, hp]

theorem hubFailureReport_keeps {s : State} {hub : Nat} (hup : s.hubDown = none) :
    ∃ t, takes (.hubFailureReport hub) s t ∧ t.hubDown = some hub ∧ t.hubFailed = some hub ∧ t.mem = s.mem ∧
      (∀ l, t.hubOf l = 1 - hub) ∧ (∀ i ∈ s.dies, (t.die i.1).moved = true) ∧
      ((∀ i ∈ s.parts, i.2.cfg.ports = []) →
        t.dir = s.dir.filter (fun i => ownHub (tagLine i.1) ≠ hub) ∧ t.unreachable = s.unreachable) := by
  refine ⟨_, takes_hubFailureReport hup, ?_⟩
  obtain ⟨_, ⟨_, _, _, _, _, _, rfl⟩, hw⟩ := withoutHub_eq s hub
  have hm := spares_movedOver (s.withoutHub hub) hub
  have hcut := fun i hi => movedOver_moved (s.withoutHub hub) hub (i := i) hi
  rw [hw] at hm hcut ⊢
  generalize movedOver _ hub = u at hm hcut
  have hl := keeps_podLost u u.podModules u.cutHere
  have hr := (runs_raiseAllSvc (u.podLost u.podModules u.cutHere)).spares
  have hdown := hr.hubDown.trans (hl.hubDown.trans hm.hubDown)
  refine ⟨hdown, hr.hubFailed.trans (hl.hubFailed.trans hm.hubFailed), hr.mem.trans (hl.mem.trans hm.mem),
    fun l => ?_, fun i hi => hr.moved _ (hl.moved _ (hcut i hi)), fun hports => ⟨?_, ?_⟩⟩
  · rw [hubOf, hdown]
  · rw [hr.dir, cutHere_of_no_ports (hm.parts ▸ hports), podLost_none_dir]
    exact hm.dir
  · exact hr.unreachable.trans (hl.unreachable.trans hm.unreachable)

/-! ## A switch that fails (R155, R188) -/

/-- The state in which module `m` is unreachable and the writes to it are lost. -/
def withoutModule (s : State) (m : Nat) : State :=
  ({ s with unreachable := s.unreachable ++ [m] } : State).losing (ofModule m) m

theorem takes_switchFailure {s : State} {m : Nat} (hm : m ∉ s.unreachable) :
    takes (.switchFailure [m]) s ((s.withoutModule m).podLost [m] s.podParts) := by
  show execSwitchFailure [m] s = _
  simp only [execSwitchFailure, modulesLost, withoutModule, done, List.contains_eq_mem, hm, decide_false,
    Bool.not_false, List.filter_cons_of_pos, List.filter_nil, List.foldl_cons, List.foldl_nil]
  rfl

theorem runs_withoutModule (s : State) (m : Nat) :
    Runs { s with unreachable := s.unreachable ++ [m] } (s.withoutModule m) := runs_losing _ _ _

theorem adel_single {α : Type} (k : Nat) (v : α) : adel [(k, v)] k = [] := by simp [adel]

theorem aset_single {α : Type} (k : Nat) (v w : α) : aset [(k, v)] k w = [(k, w)] := by simp [aset]

theorem tagOf_tagLine (n : Nat) : tagOf (tagLine n) (partOf n) = n := by
  unfold tagOf tagLine partOf
  omega

theorem contains_filter_ne (l : List Nat) (n : Nat) : (l.filter (· ≠ n)).contains n = false := by simp

/-- A line that the pod owned is poisoned, and nothing else is in the directory. -/
theorem unpod_owned {s : State} {n : Nat} {e : DirEntry} (hdir : s.dir = [(n, e)]) (hread : unreadable e = false)
    (hpod : e.pod = true) (hk : e.keeper = some 34) :
    (s.unpod n e).dir = [] ∧ tagOf (tagLine n) (partOf n) ∈ (s.unpod n e).poisoned ∧
      (s.unpod n e).isExported (partOf n) (tagLine n) = false := by
  unfold unpod
  rw [hread, hpod, hk]
  refine ⟨?_, List.mem_append_right _ (List.mem_singleton_self _), contains_filter_ne _ _⟩
  have hfold := (Spares.foldl (fun s d => spares_dropCopy s d (partOf n) (tagLine n)) (s.recorded e) s).dir
  show adel ((s.recorded e).foldl (fun s d => s.dropCopy d (partOf n) (tagLine n)) s).dir _ = []
  rw [hfold, hdir, tagOf_tagLine, adel_single]

/-- A line that the pod shared is shared by the dies alone. -/
theorem unpod_shared {s : State} {n : Nat} {e : DirEntry} (hdir : s.dir = [(n, e)]) (hread : unreadable e = false)
    (hpod : e.pod = true) (hk : e.keeper = none) (hpart : e.part = partOf n) :
    (s.unpod n e).dir = [(n, { e with pod := false, chk := 0, used := s.nextId })] := by
  unfold unpod
  rw [hread, hpod, hk]
  show aset s.dir (tagOf (tagLine n) e.part) _ = _
  rw [hdir, hpart, tagOf_tagLine, aset_single]

theorem keeper_of_pod {e : DirEntry} (hst : e.st = .m ∨ e.st = .o) (hov : e.ov = false) (hpod : e.pod = true) :
    e.keeper = some 34 := by
  rcases hst with h | h <;> simp [DirEntry.keeper, h, hov, hpod]

theorem withoutPod_single {s : State} {n : Nat} {e : DirEntry} {hit : Nat → Bool} (hdir : s.dir = [(n, e)])
    (hhit : hit (partOf n) = true) : s.withoutPod hit = s.unpod n e := by
  simp [withoutPod, hdir, hhit]

/-- The one entry of a line homed here is what the switch's failure meets. -/
theorem dir_withoutSwitch_of_quiet {s : State} (hq : ∀ d ∈ s.dies, d.2.reqs = []) {n : Nat} {e : DirEntry}
    (hdir : s.dir = [(n, e)]) (hline : isPodLine (tagLine n) = false) (mods : List Nat) (hit : Nat → Bool) :
    ((s.withoutCopies mods hit).withoutSwitch hit).dir = [(n, e)] := by
  rw [(spares_withoutSwitch _ hit).dir, withoutCopies_of_quiet hq]
  show s.dir.filter _ = _
  rw [hdir]
  simp [goneWith, hline]

/-- The dirty copies of a partition that a die holds of a line that `lost` selects. -/
def dirtyCopies (s : State) (q : Nat) (lost : Nat → Bool) (d : Nat × Die) : Nat :=
  (d.2.llc.filter fun l => l.part = q && lost l.line && (dirtySt l.st || s.newerInAlb d.1 l)).length +
    (d.2.wbuf.filter fun w => w.part = q && lost w.line).length

theorem goneWith_single {hit : Nat → Bool} {q : Nat} (h : hit q = true) (m : Nat) :
    goneWith [m] hit q = fun l => isPodLine l && modOf l = m := by
  funext l
  simp [goneWith, h]

theorem lostCopies_podLost {s : State} (hq : ∀ d ∈ s.dies, d.2.reqs = []) {hit : Nat → Bool} {q m : Nat}
    (hpart : (aget s.parts q).isSome = true) (hhit : hit q = true) :
    ((s.podLost [m] hit).part q).lostCopies = (s.part q).lostCopies +
      (s.dies.map (s.dirtyCopies q fun l => isPodLine l && modOf l = m)).sum := by
  have hparts : (s.podLost [m] hit).parts = ((s.loseSteps (cutStep [m] hit)).dropPodCopies (goneWith [m] hit)).parts := by
    rw [(runs_podLost s [m] hit).spares.parts, ← withoutCopies_of_quiet hq]
    exact (withoutPod_parts _ hit).trans (spares_withoutSwitch _ hit).parts
  obtain ⟨e, he⟩ := Option.isSome_iff_exists.mp hpart
  have hmap := aget_map s.parts (fun p e => ({ e with
    lostCopies := e.lostCopies + (s.dies.map (s.dirtyCopies p (goneWith [m] hit p))).sum } : Part)) q
  rw [he] at hmap
  rw [← goneWith_single hhit, part, part, hparts, he]
  exact (congrArg (fun o => (Option.getD o emptyPart).lostCopies) hmap :)

/-! ## Episodes of scope POD (R115) -/

theorem breakEpisodes_single {s : State} {hit : Nat → Bool} {k inst ch p n : Nat} {x : Slot} {d : Reg}
    (hchans : s.chans = [⟨.pod, inst, p, ch, n, [(k, x)]⟩]) (hhit : hit p = true)
    (hwait : (s.ctx k x).wait = some (.barSync .pod inst ch d)) :
    s.breakEpisodes hit = ({ s with chans := [] } : State).finish k x d 2 := by
  have hw : (({ s with chans := [] } : State).ctx k x).wait = some (.barSync .pod inst ch d) := hwait
  simp [breakEpisodes, hchans, hhit, finishAll, hw]

end State
end Sys2Proof.Machine

end
section
open Sys2Proof Sys2Proof.Machine

/-- Settles O57: the hub's failure by what its report keeps (`State.hubFailureReport_keeps`), the switch's by the parts
of `State.podLost` in their order, and the episodes by the context that had arrived. -/
theorem failureSteps : Obligations.FailureSteps := by
  intro s die hub n m e
  refine ⟨rfl, fun hup _ => State.hubFailureReport_keeps hup, fun hdown => ?_, fun hm => ?_,
    fun hit k inst ch p x d hchans hhit hwait => State.breakEpisodes_single hchans hhit hwait⟩
  · show execHubFailureReport hub s = _
    rw [execHubFailureReport, if_pos hdown]
    rfl
  · refine ⟨_, State.takes_switchFailure hm, ?_⟩
    obtain ⟨cs, rs, fl, pk, ug, out, hw⟩ := State.runs_withoutModule s m
    rw [hw]
    have hl := State.keeps_podLost (s.withoutModule m) [m] s.podParts
    rw [hw] at hl
    refine ⟨hl.unreachable, hl.mem, hl.chans, fun hdir hpod hread hq hpart hline hhit => ?_, fun hq q hq1 hq2 => ?_⟩
    · have hrun := State.runs_podLost (s.withoutModule m) [m] s.podParts
      have hcut := State.dir_withoutSwitch_of_quiet (s := s.withoutModule m) (n := n) (e := e)
        (by rw [hw]; exact hq) (by rw [hw]; exact hdir) hline [m] s.podParts
      rw [hw] at hrun hcut
      rw [State.withoutPod_single hcut hhit] at hrun
      obtain ⟨_, _, _, _, _, _, ht⟩ := hrun
      rw [ht]
      refine ⟨fun hst hov => State.unpod_owned hcut hread hpod (State.keeper_of_pod hst hov hpod), fun hst => ?_⟩
      exact ⟨_, State.unpod_shared hcut hread hpod (by simp [DirEntry.keeper, hst]) hpart, rfl, hst, rfl⟩
    · have h := State.lostCopies_podLost (s := s.withoutModule m) (q := q) (m := m) (hit := s.podParts)
        (by rw [hw]; exact hq) (by rw [hw]; exact hq1) hq2
      rw [hw] at h
      exact h

end

section
/-! SUPPORT. A core's own steps: its timer, its events, the end of a timed wait, replies and echoes (R92, R97, R98, R101,
R127, R133). -/

namespace Sys2Proof.Machine

/-! ## Tables -/

theorem aget_adel_self {α : Type} (l : List (Nat × α)) (k : Nat) : aget (adel l k) k = none := by
  induction l with
  | nil => rfl
  | cons e l ih =>
    by_cases h : e.1 = k
    · rwa [adel, List.filter_cons_of_neg (by simpa using h)]
    · rw [adel, List.filter_cons_of_pos (by simpa using h), aget, if_neg h]
      exact ih

theorem aget_adel_ne {α : Type} (l : List (Nat × α)) {k j : Nat} (hj : j ≠ k) : aget (adel l k) j = aget l j := by
  induction l with
  | nil => rfl
  | cons e l ih =>
    by_cases h : e.1 = k
    · rw [adel, List.filter_cons_of_neg (by simpa using h), aget, if_neg (by rw [h]; exact Ne.symm hj)]
      exact ih
    · rw [adel, List.filter_cons_of_pos (by simpa using h), aget, aget]
      split
      · rfl
      · exact ih

theorem getD_setOrDrop (l : List (Nat × Word)) (k j : Nat) (v : Word) :
    (aget (setOrDrop l k v) j).getD 0 = if j = k then v else (aget l j).getD 0 := by
  unfold setOrDrop
  by_cases hj : j = k
  · subst hj
    rw [if_pos rfl]
    split
    · next hv => rw [aget_adel_self, Option.getD_none, hv]
    · rw [aget_aset_self, Option.getD_some]
  · rw [if_neg hj]
    split
    · rw [aget_adel_ne l hj]
    · rw [aget_aset_ne l v hj]

/-! ## The end of a timed wait (R101) -/

/-- The core without a waiter of one of its semaphores. -/
def Core.unqueued (c : Core) (i : Fin 8) (x : Slot) : Core :=
  { c with sems := c.sems.set i { c.sems[i] with queue := c.sems[i].queue.filter (· ≠ x) } }

namespace State

theorem sems_raise (s : State) (k j n : Nat) : ((s.raise j n).core k).sems = (s.core k).sems := by
  unfold raise
  by_cases h : k = j
  · subst h
    rw [modCore_eq, core_setCore_self]
  · rw [modCore_eq, core_setCore_ne _ _ h]

theorem syncLine_setSync_self (s : State) (p line : Nat) (l : SyncLine) : (s.setSync p line l).syncLine p line = l := by
  unfold setSync syncLine
  dsimp only
  split
  · next h => rw [aget_adel_self, h]; rfl
  · rw [aget_aset_self]; rfl

theorem syncLine_passHead (s : State) (p line : Nat) :
    (s.passHead p line).syncLine p line = { s.syncLine p line with queue := (s.syncLine p line).queue.tail } := by
  unfold passHead
  dsimp only
  split
  · exact syncLine_setSync_self s p line _
  · exact syncLine_setSync_self s p line _

theorem queue_leaveQueue {s : State} {p line : Nat} {q : QEntry} {qs : List QEntry}
    (h : (s.syncLine p line).queue = q :: qs) (req : Nat) :
    ((s.leaveQueue p line req).syncLine p line).queue =
      if q.req = req then qs else q :: qs.filter fun e => e.req ≠ req := by
  unfold leaveQueue
  dsimp only
  rw [h, List.head?_cons, Option.any_some]
  by_cases hq : q.req = req
  · rw [if_pos (by simpa using hq), if_pos hq, syncLine_passHead, h, List.tail_cons]
  · rw [if_neg (by simpa using hq), if_neg hq, syncLine_setSync_self, List.filter_cons_of_pos (by simpa using hq)]

theorem ctx_leaveQueue (s : State) (k : Nat) (x : Slot) (p line req : Nat) :
    (s.leaveQueue p line req).ctx k x = s.ctx k x := by
  unfold leaveQueue passHead
  dsimp only
  split
  · split <;> rfl
  · rfl

/-- A trap keeps what neither a context, nor a posted step, nor an event is part of. -/
theorem trapOf_keeps {β : Type} (f : State → β) {k : Nat} {x : Slot} (hc : ∀ (t : State) c, f (t.setCtx k x c) = f t)
    (hp : ∀ (t : State) i, f (t.post i) = f t) (hr : ∀ (t : State) j n, f (t.raise j n) = f t) (s : State) (n : Nat)
    (v : Word) : f (s.trapOf k x n v) = f s := by
  unfold trapOf trapWith
  split
  · exact hc s _
  · dsimp only
    split
    · exact (hp _ _).trans (hc s _)
    · exact (hr _ _ _).trans (hc s _)

theorem takes_blockTimeout {s : State} {k : Nat} {x : Slot} {e : Wait} (hwait : (s.ctx k x).wait = some e)
    (htimed : e.timed = true) (hspawn : ∀ i t d w, e ≠ .spawn i t d w) :
    takes (.blockTimeout k x) s ((s.withdraw k x).trapOf k x 0x08 0) := by
  show execBlockTimeout k x s = _
  simp only [execBlockTimeout, hwait, htimed, if_true]
  cases e with
  | spawn i t d w => exact absurd rfl (hspawn i t d w)
  | _ => rfl

/-- The wait has trapped with cause 0x08 in a context that was as `c`. -/
def Expired (c t : Ctx) : Prop :=
  t.st = .trapped ∧ t.cause = 0x08 ∧ t.epc = c.pc ∧ t.wait = none ∧ t.pend = c.pend ∧ t.g = c.g

theorem expired_trapOf {u : State} {k : Nat} {x : Slot} (hend : (u.ctx k x).ending = false)
    (hst : (u.ctx k x).st = .blocked) : Expired (u.ctx k x) ((u.trapOf k x 0x08 0).ctx k x) := by
  rw [ctx_trapOf hend]
  exact ⟨if_neg (by rw [hst]; decide), rfl, rfl, rfl, rfl, rfl⟩

section
variable {s : State} {k : Nat} {x : Slot} (hend : (s.ctx k x).ending = false) (hst : (s.ctx k x).st = .blocked)
include hend hst

/-- A wait that is withdrawn from the context alone, in a state that has the context as it was. -/
theorem expired_settled {u : State} (hu : u.ctx k x = s.ctx k x) :
    Expired (s.ctx k x) (((u.modCtx k x Ctx.settled).trapOf k x 0x08 0).ctx k x) := by
  have hctx : (u.modCtx k x Ctx.settled).ctx k x = (s.ctx k x).settled := by
    rw [modCtx, ctx_setCtx_self, hu]
  have h := expired_trapOf (u := u.modCtx k x Ctx.settled) (by rw [hctx]; exact hend) (by rw [hctx]; exact hst)
  rwa [hctx] at h

theorem blockTimeout_alone {e : Wait} {n req : Nat}
    (he : e ∈ [Wait.token (BitVec.ofNat 32 n), .watch, .synCompare req]) (hwait : (s.ctx k x).wait = some e) :
    ∃ t, takes (.blockTimeout k x) s t ∧ Expired (s.ctx k x) (t.ctx k x) ∧ t.mem = s.mem := by
  have hmem := fun u => trapOf_keeps State.mem (k := k) (x := x) (fun _ _ => rfl) (fun _ _ => rfl) (fun _ _ _ => rfl)
    u 0x08 0
  simp only [List.mem_cons, List.not_mem_nil, or_false] at he
  rcases he with rfl | rfl | rfl
  · refine ⟨_, takes_blockTimeout hwait rfl (by simp), ?_⟩
    rw [show s.withdraw k x = s by simp only [withdraw, hwait]]
    exact ⟨expired_trapOf hend hst, hmem s⟩
  · refine ⟨_, takes_blockTimeout hwait rfl (by simp), ?_⟩
    rw [show s.withdraw k x = s.modCtx k x Ctx.settled by simp only [withdraw, hwait]]
    exact ⟨expired_settled hend hst rfl, hmem _⟩
  · refine ⟨_, takes_blockTimeout hwait rfl (by simp), ?_⟩
    rw [show s.withdraw k x = s.modCtx k x Ctx.settled by simp only [withdraw, hwait]]
    exact ⟨expired_settled hend hst rfl, hmem _⟩

theorem blockTimeout_semp {i : Fin 8} (hwait : (s.ctx k x).wait = some (.semp i.val)) :
    ∃ t, takes (.blockTimeout k x) s t ∧ Expired (s.ctx k x) (t.ctx k x) ∧
      ((t.core k).sems[i]).count = ((s.core k).sems[i]).count ∧
      ((t.core k).sems[i]).queue = ((s.core k).sems[i]).queue.filter (· ≠ x) := by
  refine ⟨_, takes_blockTimeout hwait rfl (by simp), ?_⟩
  rw [show s.withdraw k x = (s.modCore k fun c => c.unqueued i x).modCtx k x Ctx.settled by
    simp only [withdraw, hwait, i.isLt, dif_pos]; rfl]
  have hu : (((s.modCore k fun c => c.unqueued i x).modCtx k x Ctx.settled).core k).sems =
      ((s.core k).unqueued i x).sems := by
    rw [modCtx, core_setCtx_self, modCore_eq, core_setCore_self]
  have hsems := (trapOf_keeps (fun t => (t.core k).sems) (k := k) (x := x) (fun t c => by rw [core_setCtx_self])
    (fun _ _ => rfl) (fun t j n => sems_raise t k j n) _ 8 0).trans hu
  refine ⟨expired_settled hend hst (ctx_modCore (g := fun c => c.unqueued i x) fun _ => rfl), ?_⟩
  have hi : ((s.core k).unqueued i x).sems[i] =
      { (s.core k).sems[i] with queue := ((s.core k).sems[i]).queue.filter (· ≠ x) } :=
    Vector.getElem_set_self ..
  rw [show ((s.core k).unqueued i x).sems = _ from hsems.symm] at hi
  exact ⟨(congrArg Sem.count hi :), (congrArg Sem.queue hi :)⟩

theorem blockTimeout_synWait {va : Nat} {d : Reg} (hwait : (s.ctx k x).wait = some (.synWait va d)) :
    ∃ t, takes (.blockTimeout k x) s t ∧ Expired (s.ctx k x) (t.ctx k x) ∧
      t.waits = s.waits.filter fun e => e.who ≠ .device k x := by
  refine ⟨_, takes_blockTimeout hwait rfl (by simp), ?_⟩
  rw [show s.withdraw k x = State.modCtx { s with waits := s.waits.filter fun e => e.who ≠ .device k x } k x Ctx.settled
    by simp only [withdraw, hwait]]
  exact ⟨expired_settled hend hst rfl,
    trapOf_keeps State.waits (fun _ _ => rfl) (fun _ _ => rfl) (fun _ _ _ => rfl) _ _ _⟩

theorem blockTimeout_lrw {req line pa : Nat} {d : Reg} {q : QEntry} {qs : List QEntry}
    (hwait : (s.ctx k x).wait = some (.lrw req line pa d)) (hqueue : (s.syncLine (partOf k) line).queue = q :: qs) :
    ∃ t, takes (.blockTimeout k x) s t ∧ Expired (s.ctx k x) (t.ctx k x) ∧
      (t.syncLine (partOf k) line).queue = if q.req = req then qs else q :: qs.filter fun e => e.req ≠ req := by
  refine ⟨_, takes_blockTimeout hwait rfl (by simp), ?_⟩
  rw [show s.withdraw k x = (s.leaveQueue (partOf k) line req).modCtx k x Ctx.settled by simp only [withdraw, hwait]]
  refine ⟨expired_settled hend hst (ctx_leaveQueue s k x _ line req), ?_⟩
  refine Eq.trans ?_ (queue_leaveQueue hqueue req)
  exact trapOf_keeps (fun t => (t.syncLine (partOf k) line).queue) (fun _ _ => rfl) (fun _ _ => rfl) (fun _ _ _ => rfl)
    _ _ _

end

/-! ## Replies and echoes (R92, R127, R133) -/

theorem replyArrival_wakes {s : State} {k : Nat} {x : Slot} (hwait : (s.ctx k x).wait = some .reply) :
    ∃ t, takes (.replyArrival k x) s t ∧ (t.ctx k x).wait = none ∧
      (t.ctx k x).st = (if (s.ctx k x).st = .blocked then .run else (s.ctx k x).st) ∧ (k, x) ∈ t.retry ∧
      (t.ctx k x).pc = (s.ctx k x).pc ∧ t.mem = s.mem := by
  refine ⟨{ s.modCtx k x Ctx.woken with retry := s.retry ++ [(k, x)] }, ?_, ?_⟩
  · show execReplyArrival k x s = _
    unfold execReplyArrival reply
    rw [if_pos hwait, hwait]
    rfl
  · have hctx : State.ctx { s.modCtx k x Ctx.woken with retry := s.retry ++ [(k, x)] } k x = (s.ctx k x).woken :=
      ctx_setCtx_self s k x _
    rw [hctx]
    exact ⟨rfl, rfl, List.mem_append_right _ (List.mem_singleton_self _), rfl, rfl⟩

/-- What an echo does to its context (R133, R155). -/
def echo (home : Home) (lost : Option Nat) (c : Ctx) : Ctx :=
  let c := { c with posted := c.posted.erase home }
  match lost with
  | some m => c.loses 1 m
  | none => c

theorem echoesIn_waits {s : State} {k : Nat} {x : Slot} (hwait : (s.ctx k x).wait = some .echo)
    (hposted : (s.ctx k x).posted = []) :
    s.echoesIn k x = { s.modCtx k x Ctx.woken with retry := s.retry ++ [(k, x)] } := by
  unfold echoesIn reply
  rw [if_pos ⟨hwait, by rw [hposted]; rfl⟩, hwait]

theorem ctx_echoesIn {β : Type} {f : Ctx → β} (h : ∀ c, f c.woken = f c) (s : State) (k : Nat) (x : Slot) :
    f ((s.echoesIn k x).ctx k x) = f (s.ctx k x) := by
  by_cases he : (s.ctx k x).wait = some .echo ∧ (s.ctx k x).posted.isEmpty
  · rw [echoesIn_waits he.1 (List.isEmpty_iff.mp he.2)]
    exact (congrArg f (ctx_setCtx_self s k x _)).trans (h _)
  · rw [echoesIn, if_neg he]

theorem takes_storeEcho (s : State) (k : Nat) (x : Slot) (home : Home) (lost : Option Nat) :
    takes (.storeEcho k x home lost) s ((s.modCtx k x (echo home lost)).echoesIn k x) := rfl

theorem ctx_storeEcho {β : Type} {f : Ctx → β} (h : ∀ c, f c.woken = f c) (s : State) (k : Nat) (x : Slot)
    (home : Home) (lost : Option Nat) :
    f (((s.modCtx k x (echo home lost)).echoesIn k x).ctx k x) = f (echo home lost (s.ctx k x)) := by
  rw [ctx_echoesIn h, modCtx, ctx_setCtx_self]

/-- The last echo wakes the context that waits for them. -/
theorem storeEcho_last {s : State} {k : Nat} {x : Slot} {home : Home} (hposted : (s.ctx k x).posted = [home])
    (hwait : (s.ctx k x).wait = some .echo) :
    (((s.modCtx k x (echo home none)).echoesIn k x).ctx k x).wait = none ∧
      (k, x) ∈ ((s.modCtx k x (echo home none)).echoesIn k x).retry := by
  have hctx : (s.modCtx k x (echo home none)).ctx k x = echo home none (s.ctx k x) := ctx_setCtx_self s k x _
  rw [echoesIn_waits (by rw [hctx]; exact hwait) (by rw [hctx]; simp [echo, hposted])]
  exact ⟨congrArg Ctx.wait (ctx_setCtx_self _ k x _), List.mem_append_right _ (List.mem_singleton_self _)⟩

/-! ## Posted writes at their homes (R127, R132, R155) -/

/-- The echo of a write leaves for its context, and what waited for the write goes on. -/
def echoed (s : State) (k : Nat) (x : Slot) (w : Posted) (lost : Option Nat) : State :=
  ((s.post (.storeEcho k x w.home lost)).replyAll fun j v =>
    partOf j = w.part && (v == .evicted (s.steer w.part w.pa) || v == .written)).unpark

section
variable {s s1 : State} {w : Posted} {k m : Nat} {x : Slot} (hby : w.by_ = .store k x)
include hby

theorem arrived_near (hhome : ∀ m g, w.home ≠ .pod m g) (failed : Bool) :
    s.arrived w failed = s.echoed k x w (if failed then some s.ownModule else none) := by
  unfold arrived
  rw [hby]
  cases hh : w.home with
  | pod m g => exact absurd hh (hhome m g)
  | die d g => rw [echoed, hh]; rfl
  | window => rw [echoed, hh]; rfl

theorem arrived_cutOff {g : Nat} (hhome : w.home = .pod m g) (hcut : s.cutOff w.part m = true) :
    s.arrived w false = s.echoed k x w (some m) := by
  unfold arrived
  rw [hby, hhome]
  simp only [hcut, Bool.or_true, if_true]
  rw [echoed, hhome]
  rfl

end
end State

theorem performAt_lcl {die p pa core off : Nat} {mask : LineMask} {data : LineData}
    (h : place (loc pa) = .lcl core off) (s : State) :
    performAt die p pa mask data s = .ok () (s.storeWindow (keyOf core p) (off / 128 * 128) mask data) := by
  unfold performAt
  rw [h]
  rfl

theorem performAt_dram {die p pa h : Nat} {mask : LineMask} {data : LineData} (hplace : place (loc pa) = .dram h) :
    performAt die p pa mask data = writeLlc die p pa mask data := by
  unfold performAt
  rw [hplace]

theorem performAt_cutOff {die p pa m : Nat} {mask : LineMask} {data : LineData} {s : State}
    (hplace : place (loc pa) = .pod m) (hcut : s.cutOff p m = true) : performAt die p pa mask data s = .ok () s := by
  unfold performAt
  rw [hplace]
  simp [hcut, bind, EStateM.bind, get, getThe, MonadStateOf.get, EStateM.get, pure, EStateM.pure]

theorem writeLlc_ok {d p pa : Nat} {mask : LineMask} {data : LineData} {s s1 : State}
    (h : ownLine d p pa s = .ok () s1) : writeLlc d p pa mask data s = .ok () (s1.mergeOwned d p pa mask data) := by
  unfold writeLlc
  simp [bind, EStateM.bind, h, modify, modifyGet, MonadStateOf.modifyGet, EStateM.modifyGet]

theorem writeLlc_error {d p pa : Nat} {mask : LineMask} {data : LineData} {s s1 : State} {e : Stop}
    (h : ownLine d p pa s = .error e s1) : writeLlc d p pa mask data s = .error e s1 := by
  unfold writeLlc
  simp [bind, EStateM.bind, h]

/-! ## What the home of a posted write does with it -/

section
variable {s s1 : State} {w : Posted}

theorem takes_postedWriteArrival (s : State) (w : Posted) :
    takes (.postedWriteArrival w) s (s.eventOr (.postedWriteArrival w)
      (performAt w.die w.part w.pa w.mask w.data >>= fun _ => modify fun s => s.arrived w false)
      fun s => s.arrived w true) := rfl

theorem postedWriteArrival_performed (h : performAt w.die w.part w.pa w.mask w.data s = .ok () s1) :
    takes (.postedWriteArrival w) s (s1.arrived w false) := by
  have hrun : (performAt w.die w.part w.pa w.mask w.data >>= fun _ => modify fun s => s.arrived w false) s =
      .ok () (s1.arrived w false) := by
    simp [bind, EStateM.bind, h, modify, modifyGet, MonadStateOf.modifyGet, EStateM.modifyGet]
  exact (takes_postedWriteArrival s w).trans (congrArg done (eventOr_ok hrun))

theorem postedWriteArrival_waits {e : Wait} (h : performAt w.die w.part w.pa w.mask w.data s = .error (.block e) s1) :
    takes (.postedWriteArrival w) s (s1.parkOn (.postedWriteArrival w) e) := by
  have hrun : (performAt w.die w.part w.pa w.mask w.data >>= fun _ => modify fun s => s.arrived w false) s =
      .error (.block e) s1 := by
    simp [bind, EStateM.bind, h]
  exact (takes_postedWriteArrival s w).trans (congrArg done (eventOr_block hrun))

theorem postedWriteArrival_fails (h : performAt w.die w.part w.pa w.mask w.data s = .error .err s1) :
    takes (.postedWriteArrival w) s (s1.arrived w true) := by
  have hrun : (performAt w.die w.part w.pa w.mask w.data >>= fun _ => modify fun s => s.arrived w false) s =
      .error .err s1 := by
    simp [bind, EStateM.bind, h]
  exact (takes_postedWriteArrival s w).trans (congrArg done (eventOr_err hrun))

end

/-! ## Values per address space (R323) -/

section
variable {s : State} {k asid : Nat} {x : Slot} {v : Word} (hwait : (s.ctx k x).wait = some .acks)
include hwait

theorem acknowledged_finishes (f : Part → Part) :
    (s.modPart (partOf k) f).acknowledged k x = (s.modPart (partOf k) f).finish k x 0 0 := if_pos hwait

/-- A table of the writer's partition has changed, and the writer's wait is over. -/
theorem acknowledged_writes (f : Part → Part) :
    (((s.modPart (partOf k) f).acknowledged k x).ctx k x).wait = none ∧
      (∀ q, ((s.modPart (partOf k) f).acknowledged k x).part q = if q = partOf k then f (s.part q) else s.part q) := by
  rw [acknowledged_finishes hwait]
  refine ⟨congrArg Ctx.wait (State.ctx_setCtx_self _ k x _), fun q => ?_⟩
  show (s.modPart (partOf k) f).part q = _
  by_cases hq : q = partOf k
  · subst hq
    rw [if_pos rfl, State.modPart_eq, State.part_setPart_self]
  · rw [if_neg hq, State.modPart_eq, State.part_setPart_ne _ _ hq]

theorem bctabWrite_writes : ∃ t, takes (.bctabWrite k x asid v) s t ∧ (t.ctx k x).wait = none ∧
    t.reclaimOf = s.reclaimOf ∧
    ∀ q (a : BitVec 16), t.bctabOf q a = if q = partOf k ∧ a.toNat = asid then v else s.bctabOf q a := by
  obtain ⟨hw, hp⟩ := acknowledged_writes hwait fun e => { e with bctab := setOrDrop e.bctab asid v }
  refine ⟨_, rfl, hw, ?_, fun q a => ?_⟩
  · funext q a
    rw [State.reclaimOf, State.reclaimOf, hp]
    split <;> rfl
  · rw [State.bctabOf, hp, ite_and]
    split
    · exact getD_setOrDrop _ _ _ _
    · rfl

theorem reclaimWrite_writes : ∃ t, takes (.reclaimWrite k x asid v) s t ∧ (t.ctx k x).wait = none ∧
    t.bctabOf = s.bctabOf ∧
    ∀ q (a : BitVec 16), t.reclaimOf q a = if q = partOf k ∧ a.toNat = asid then v else s.reclaimOf q a := by
  obtain ⟨hw, hp⟩ := acknowledged_writes hwait fun e => { e with reclaim := setOrDrop e.reclaim asid v }
  refine ⟨_, rfl, hw, ?_, fun q a => ?_⟩
  · funext q a
    rw [State.bctabOf, State.bctabOf, hp]
    split <;> rfl
  · rw [State.reclaimOf, hp, ite_and]
    split
    · exact getD_setOrDrop _ _ _ _
    · rfl

end

end Sys2Proof.Machine
end

section
/-! SUPPORT. The migration engine (R182 to R185): what a line of memory holds once it is written, and what the engine does
in each state. -/

namespace Sys2Proof.Machine

/-! ## A whole line written (R26) -/

/-- A word of `n` bytes. -/
theorem toNat_lt_bytes (n : Nat) (v : BitVec (8 * n)) : v.toNat < 256 ^ n :=
  Nat.lt_of_lt_of_eq v.isLt (Nat.pow_mul 2 8 n)

namespace Memory

/-- The bytes of a number, read in order. -/
theorem readNat_of_bytes {m : Memory} {a n v : Nat} (h : ∀ j < n, m.read (a + j) = BitVec.ofNat 8 (v / 256 ^ j)) :
    m.readNat a n = v % 256 ^ n := by
  induction n generalizing a v with
  | zero => simp [readNat, Nat.mod_one]
  | succ n ih =>
    have hhead : (m.read a).toNat = v % 256 := by
      have h0 := h 0 (by omega)
      rw [Nat.add_zero, Nat.pow_zero, Nat.div_one] at h0
      rw [h0, BitVec.toNat_ofNat]
    have htail : m.readNat (a + 1) n = v / 256 % 256 ^ n := ih fun j hj => by
      rw [Nat.add_assoc, Nat.add_comm 1 j, h (j + 1) (by omega), Nat.pow_succ', Nat.div_div_eq_div_mul]
    rw [readNat, hhead, htail, Nat.pow_succ', Nat.mod_mul]

/-- A byte that a mask of bytes names is the data's after the write. -/
theorem read_writeMask_self {m : Memory} (hwf : m.wf = true) (a : Nat) {mask : LineMask} (data : LineData) {n j : Nat}
    (hj : j < n) (hmask : mask.getLsbD j = true) :
    (m.writeMask a mask data n).read (a + j) = data.extractLsb' (8 * j) 8 := by
  induction n with
  | zero => omega
  | succ n ih =>
    rw [writeMask]
    by_cases hn : j = n
    · subst hn
      rw [if_pos hmask]
      exact read_write_self _ _ (wf_writeMask a mask data j hwf)
    · have hlt := ih (by omega)
      split
      · rw [read_write_ne _ _ (by omega), hlt]
      · exact hlt

theorem line_writeMask_all {m : Memory} (hwf : m.wf = true) (a : Nat) (data : LineData) :
    (m.writeMask a (BitVec.allOnes 128) data 128).line a = data := by
  have hbytes : ∀ j < 128, (m.writeMask a (BitVec.allOnes 128) data 128).read (a + j) =
      BitVec.ofNat 8 (data.toNat / 256 ^ j) := fun j hj => by
    rw [read_writeMask_self hwf a data hj (by rw [BitVec.getLsbD_allOnes]; exact decide_eq_true hj)]
    apply BitVec.eq_of_toNat_eq
    rw [BitVec.extractLsb'_toNat, BitVec.toNat_ofNat, Nat.shiftRight_eq_div_pow, show 256 = 2 ^ 8 from rfl, ← Nat.pow_mul]
  rw [line, readNat_of_bytes hbytes, Nat.mod_eq_of_lt (toNat_lt_bytes 128 data), BitVec.ofNat_toNat, BitVec.setWidth_eq]

end Memory

theorem spread_allOnes {n : Nat} (hn : n ≤ 128) : spread (BitVec.allOnes 128) n = 256 ^ n - 1 := by
  induction n with
  | zero => rfl
  | succ n ih =>
    have hpos : 0 < 256 ^ n := Nat.pos_of_ne_zero (by positivity)
    rw [spread, ih (by omega), if_pos (by rw [BitVec.getLsbD_allOnes]; exact decide_eq_true (by omega)), Nat.pow_succ]
    omega

theorem mergeLine_all (old new : LineData) : mergeLine old new (BitVec.allOnes 128) = new := by
  have hm : BitVec.ofNat 1024 (spread (BitVec.allOnes 128) 128) = BitVec.allOnes 1024 := by
    rw [spread_allOnes (Nat.le_refl _)]
    decide +kernel
  rw [mergeLine, hm, BitVec.not_allOnes, BitVec.and_zero, BitVec.and_allOnes, BitVec.zero_or]

namespace State

/-- A whole line written at its home is what its memory holds, under the key of the write; nothing else than the key, what
other partitions left, and the choices used up changes. -/
theorem writeLine_all {s : State} (hwf : s.mem.wf = true) (line key : Nat) (data : LineData) :
    ∃ m ks vs ch, s.writeLine line key (BitVec.allOnes 128) data =
      { s with mem := m, keys := ks, views := vs, choices := ch } ∧ m.line (lineLoc line) = data := by
  unfold writeLine
  split
  · exact ⟨_, _, _, _, rfl, Memory.line_writeMask_all hwf _ data⟩
  · rw [mergeLine_all]
    have hu : ∃ ch, s.usedChoice line key = { s with choices := ch } := by
      unfold usedChoice
      split
      · split
        · exact ⟨_, rfl⟩
        · exact ⟨_, rfl⟩
      · exact ⟨_, rfl⟩
    have hk : ∀ t : State, ∃ vs, t.keepView line key = { t with views := vs } := fun t => by
      unfold keepView
      split
      · split
        · exact ⟨_, rfl⟩
        · dsimp only
          split <;> exact ⟨_, rfl⟩
      · exact ⟨_, rfl⟩
    obtain ⟨ch, hu⟩ := hu
    obtain ⟨vs, hk⟩ := hk { s with choices := ch }
    rw [hu, hk]
    exact ⟨_, _, _, _, rfl, Memory.line_writeMask_all hwf _ data⟩

theorem usedChoice_eq (s : State) (line key : Nat) : ∃ ch, s.usedChoice line key = { s with choices := ch } := by
  unfold usedChoice
  split
  · split <;> exact ⟨_, rfl⟩
  · exact ⟨_, rfl⟩

theorem albRecall_none {s : State} {d p line : Nat} (h : ∀ c, dieOfCore c = d → s.albLine c p line = none) :
    s.albRecall d p line = s := by
  have hfold : ∀ l : List (Nat × CoreHw), l.foldl (fun s e => if dieOfCore e.1 = d then
      match s.albLine e.1 p line with
      | some b => (s.albDrop e.1 p line).albReturn d b
      | none => s
    else s) s = s := by
    intro l
    induction l with
    | nil => rfl
    | cons e l ih =>
      rw [List.foldl_cons]
      by_cases he : dieOfCore e.1 = d
      · rw [if_pos he, h e.1 he]
        exact ih
      · rw [if_neg he]
        exact ih
  exact hfold s.hw

/-! ## What the hub holds -/

/-- The hub holds no message for a line. -/
def HoldsNone (s : State) (p line : Nat) : Prop := ∀ o ∈ s.hub, o.line = line → o.part = p → o.held = []

theorem holdsNone_of_idle {s : State} {p line : Nat} (h : s.busyWith p line = none) : s.HoldsNone p line := by
  intro o ho hl hp
  have := List.find?_eq_none.mp h o ho
  simp [hl, hp] at this

theorem releaseLine_of_holdsNone {s : State} {p line : Nat} (h : s.HoldsNone p line) (known : Bool) :
    s.releaseLine p line known = (s.clearBusy p line).unpark := by
  have hheld : ((s.busyWith p line).map (·.held)).getD [] = [] := by
    cases hb : s.busyWith p line with
    | none => rfl
    | some b =>
      have hcond := List.find?_some hb
      rw [Bool.and_eq_true, decide_eq_true_eq, decide_eq_true_eq] at hcond
      exact h b (List.mem_of_find?_eq_some hb) hcond.1 hcond.2
  rw [releaseLine, hheld, List.foldl_nil]

/-- The hub holds a line that it is not at work on. -/
theorem holdLine_of_idle {s : State} {p line : Nat} (h : s.busyWith p line = none) :
    s.holdLine p line = { s with hub := s.hub ++ [⟨line, p, .hold, []⟩] } := by
  rw [holdLine, setBusy, h]
  rfl

theorem holdLine_both {s : State} {p a b : Nat} (hab : a ≠ b) (ha : s.busyWith p a = none)
    (hb : s.busyWith p b = none) : (s.holdLine p a).holdLine p b =
      { s with hub := s.hub ++ [⟨a, p, .hold, []⟩, ⟨b, p, .hold, []⟩] } := by
  have hb' : (s.holdLine p a).busyWith p b = none := by
    rw [holdLine_of_idle ha]
    unfold busyWith at hb ⊢
    rw [List.find?_append, hb]
    simp [hab]
  rw [holdLine_of_idle hb', holdLine_of_idle ha, List.append_assoc]
  rfl

/-! ## A line moves (R184) -/

theorem syncLine_setSync_ne {s : State} {p a b : Nat} (hab : a ≠ b) (l : SyncLine) :
    (s.setSync p b l).syncLine p a = s.syncLine p a := by
  have htag : tagOf a p ≠ tagOf b p := by
    unfold tagOf
    omega
  unfold setSync syncLine
  dsimp only
  split
  · rw [aget_adel_ne _ htag]
  · rw [aget_aset_ne _ _ htag]

/-- The locus and the queue of a line are the other's once it has moved. -/
theorem syncLine_moveSync {s : State} {p a b : Nat} (hab : a ≠ b) (hused : s.syncLine p a ≠ .reset) (pa : Nat) :
    (s.moveSync p a b pa).syncLine p b = s.syncLine p a ∧ (s.moveSync p a b pa).syncLine p a = .reset := by
  have hs : (s.moveSync p a b pa).sync = ((s.setSync p b (s.syncLine p a)).setSync p a .reset).sync := by
    unfold moveSync
    dsimp only
    rw [if_neg hused]
  unfold syncLine at hs ⊢
  rw [hs]
  constructor
  · exact (syncLine_setSync_ne (Ne.symm hab) _).trans (syncLine_setSync_self s p b _)
  · exact syncLine_setSync_self _ p a _

theorem moveSync_keeps {β : Type} (f : State → β)
    (h : ∀ (t : State) sy ws cs ug fl pk po me, f { t with
      sync := sy, waits := ws, cores := cs, urgent := ug, flight := fl, parked := pk, poisoned := po, memErr := me } = f t)
    (s : State) (p a b pa : Nat) : f (s.moveSync p a b pa) = f s := by
  unfold moveSync
  dsimp only
  split
  · exact h s s.sync _ _ _ _ _ _ _
  · exact h s _ _ _ _ _ _ _ _

/-- The engine counts a line that has moved, and has the next one moved or is done. -/
def countLine (s : State) (p : Nat) : State :=
  let s := s.modMig p fun m => { m with bound := m.bound + 1 }
  if (s.part p).mig.bound ≥ 32 then (s.modMig p fun m => { m with st := .done }).raiseSvc p
  else s.post (.migLineMove p)

theorem moveLine_eq (s : State) (p a b pa : Nat) : s.moveLine p a b pa =
    let s := s.albRecall (homeDie a) p a
    let key := keyId ((s.part p).mig.src.toNat * 4096)
    (((((s.usedChoice a key).writeLine b (keyId pa) (BitVec.allOnes 128) (s.lineUnder a key)).moveSync p a b
      pa).countLine p).releaseLine p a true).releaseLine p b true := rfl

theorem mig_modMig (s : State) (p : Nat) (f : Mig → Mig) : ((s.modMig p f).part p).mig = f (s.part p).mig :=
  congrArg Part.mig (part_setPart_self s p _)

/-- The count changes neither memory, nor a locus, nor what the hub holds. -/
theorem countLine_keeps (s : State) (p : Nat) :
    let t := s.countLine p
    t.mem = s.mem ∧ t.sync = s.sync ∧ t.hub = s.hub ∧ (t.part p).mig.bound = (s.part p).mig.bound + 1 ∧
      (t.part p).mig.st = if (s.part p).mig.bound + 1 ≥ 32 then .done else (s.part p).mig.st := by
  have hmig := mig_modMig s p fun m => { m with bound := m.bound + 1 }
  unfold countLine
  dsimp only
  rw [hmig]
  by_cases h : (s.part p).mig.bound + 1 ≥ 32
  · rw [if_pos h, if_pos h]
    have hdone := mig_modMig (s.modMig p fun m => { m with bound := m.bound + 1 }) p fun m => { m with st := .done }
    rw [hmig] at hdone
    exact ⟨rfl, rfl, rfl, congrArg Mig.bound hdone, congrArg Mig.st hdone⟩
  · rw [if_neg h, if_neg h]
    exact ⟨rfl, rfl, rfl, (congrArg Mig.bound hmig :), (congrArg Mig.st hmig :)⟩

/-- Two lines of which the hub holds nothing are released. -/
theorem releaseLine_both {s : State} {p a b : Nat} (ha : s.HoldsNone p a) (hb : s.HoldsNone p b) :
    (s.releaseLine p a true).releaseLine p b true = (((s.clearBusy p a).unpark).clearBusy p b).unpark := by
  have hb' : (s.clearBusy p a).unpark.HoldsNone p b := fun o ho => hb o (List.mem_filter.mp ho).1
  rw [releaseLine_of_holdsNone ha, releaseLine_of_holdsNone hb']

/-- A line that moves is at the other place what it was, with its locus, and the engine counts it. -/
theorem moveLine_moves {s : State} {p a b : Nat} (hwf : s.mem.wf = true) (hab : a ≠ b) (ha : s.HoldsNone p a)
    (hb : s.HoldsNone p b) (halb : ∀ c, dieOfCore c = homeDie a → s.albLine c p a = none)
    (hused : s.syncLine p a ≠ .reset) (pa : Nat) :
    let t := s.moveLine p a b pa
    t.memLine b = s.lineUnder a (keyId ((s.part p).mig.src.toNat * 4096)) ∧ t.syncLine p b = s.syncLine p a ∧
      t.syncLine p a = .reset ∧ (t.part p).mig.bound = (s.part p).mig.bound + 1 ∧
      (t.part p).mig.st = if (s.part p).mig.bound + 1 ≥ 32 then .done else (s.part p).mig.st := by
  rw [moveLine_eq, albRecall_none halb]
  dsimp only
  generalize keyId ((s.part p).mig.src.toNat * 4096) = key
  obtain ⟨ch, hch⟩ := usedChoice_eq s a key
  rw [hch]
  obtain ⟨m, ks, vs, ch', hw, hline⟩ := writeLine_all (s := { s with choices := ch }) hwf b (keyId pa) (s.lineUnder a key)
  rw [hw]
  generalize hv : ({ s with mem := m, keys := ks, views := vs, choices := ch' } : State) = v
  have hmem : (v.moveSync p a b pa).mem = m :=
    (moveSync_keeps State.mem (fun _ _ _ _ _ _ _ _ _ => rfl) v p a b pa).trans (by rw [← hv])
  have hhub : (v.moveSync p a b pa).hub = s.hub :=
    (moveSync_keeps State.hub (fun _ _ _ _ _ _ _ _ _ => rfl) v p a b pa).trans (by rw [← hv])
  have hparts : (v.moveSync p a b pa).part p = s.part p :=
    (moveSync_keeps (fun t => t.part p) (fun _ _ _ _ _ _ _ _ _ => rfl) v p a b pa).trans (by rw [← hv]; rfl)
  have hvs : ∀ l, v.syncLine p l = s.syncLine p l := fun l => by rw [← hv]; rfl
  have hsync := syncLine_moveSync (s := v) hab (by rwa [hvs]) pa
  rw [hvs] at hsync
  generalize v.moveSync p a b pa = w at hmem hhub hparts hsync
  obtain ⟨cmem, csync, chub, cbound, cst⟩ := countLine_keeps w p
  have hnone : ∀ l, s.HoldsNone p l → (w.countLine p).HoldsNone p l := fun l hl o ho => hl o (hhub ▸ chub ▸ ho)
  rw [releaseLine_both (hnone a ha) (hnone b hb)]
  generalize w.countLine p = x at cmem csync cbound cst
  refine ⟨?_, ?_, ?_, ?_, ?_⟩
  · show x.mem.line _ = _
    rw [cmem, hmem, hline]
  · exact (congrArg (fun y => (aget y (tagOf b p)).getD SyncLine.reset) csync).trans hsync.1
  · exact (congrArg (fun y => (aget y (tagOf a p)).getD SyncLine.reset) csync).trans hsync.2
  · rw [hparts] at cbound
    exact cbound
  · rw [hparts] at cst
    exact cst

/-! ## The engine's step from one line to the next (R184) -/

section
variable {s : State} {p : Nat}

/-- The line that the engine moves next, and where to. -/
def migFrom (s : State) (p : Nat) : Nat := lineOf ((s.part p).mig.src.toNat * 4096) + (s.part p).mig.bound
def migTo (s : State) (p : Nat) : Nat := lineOf ((s.part p).mig.dst.toNat * 4096) + (s.part p).mig.bound

variable (hrun : (s.part p).mig.st = .run)
include hrun

theorem takes_migLineMove_abroad (h : s.isHome p (s.migFrom p) = false) :
    takes (.migLineMove p) s (s.bringHome p (s.migFrom p) (.migLineMove p)) := by
  show execMigLineMove p s = _
  unfold migFrom at h
  simp only [execMigLineMove, hrun, ne_eq, not_true_eq_false, if_false, h, Bool.not_false, if_true]
  rfl

theorem takes_migLineMove_home (ha : s.isHome p (s.migFrom p) = true) (hb : s.isHome p (s.migTo p) = true)
    (hroom : ((s.holdLine p (s.migFrom p)).holdLine p (s.migTo p)).moveRoom p (s.migFrom p) (s.migTo p) = true) :
    takes (.migLineMove p) s (((s.holdLine p (s.migFrom p)).holdLine p (s.migTo p)).moveLine p (s.migFrom p) (s.migTo p)
      ((s.part p).mig.dst.toNat * 4096 + (s.part p).mig.bound * 128)) := by
  show execMigLineMove p s = _
  unfold execMigLineMove
  simp only [hrun, ne_eq, not_true_eq_false, if_false]
  unfold migFrom at ha hroom
  unfold migTo at hb hroom
  simp only [ha, hb, hroom, Bool.not_true, Bool.false_eq_true, if_false]
  rfl

end

theorem isHome_of_idle {s : State} {p l : Nat} (hexp : s.isExported p l = false) (hent : s.entryAt p l = none)
    (hbusy : s.busyWith p l = none) : s.isHome p l = true := by
  simp [isHome, atWork, hexp, hent, hbusy]

theorem isHome_of_exported {s : State} {p l : Nat} (hexp : s.isExported p l = true) : s.isHome p l = false := by
  simp [isHome, hexp]

theorem migLineMove_moves {s : State} {p : Nat} (hrun : (s.part p).mig.st = .run) (hwf : s.wf = true)
    (hab : s.migFrom p ≠ s.migTo p) (hea : s.isExported p (s.migFrom p) = false)
    (heb : s.isExported p (s.migTo p) = false) (hda : s.entryAt p (s.migFrom p) = none)
    (hdb : s.entryAt p (s.migTo p) = none) (hba : s.busyWith p (s.migFrom p) = none)
    (hbb : s.busyWith p (s.migTo p) = none) (hroom : s.moveRoom p (s.migFrom p) (s.migTo p) = true)
    (halb : ∀ c, dieOfCore c = homeDie (s.migFrom p) → s.albLine c p (s.migFrom p) = none)
    (hused : s.syncLine p (s.migFrom p) ≠ .reset) :
    ∃ t, takes (.migLineMove p) s t ∧
      t.memLine (s.migTo p) = s.lineUnder (s.migFrom p) (keyId ((s.part p).mig.src.toNat * 4096)) ∧
      t.syncLine p (s.migTo p) = s.syncLine p (s.migFrom p) ∧ t.syncLine p (s.migFrom p) = .reset ∧
      (t.part p).mig.bound = (s.part p).mig.bound + 1 ∧
      (t.part p).mig.st = if (s.part p).mig.bound + 1 ≥ 32 then .done else .run := by
  have hhold := holdLine_both hab hba hbb
  refine ⟨_, takes_migLineMove_home hrun (isHome_of_idle hea hda hba) (isHome_of_idle heb hdb hbb)
    (by rw [hhold]; exact hroom), ?_⟩
  rw [hhold, ← hrun]
  have hnone : ∀ l, s.busyWith p l = none → HoldsNone
      { s with hub := s.hub ++ [⟨s.migFrom p, p, .hold, []⟩, ⟨s.migTo p, p, .hold, []⟩] } p l := by
    intro l hl o ho hline hpart
    rcases List.mem_append.mp ho with ho | ho
    · exact holdsNone_of_idle hl o ho hline hpart
    · simp only [List.mem_cons, List.not_mem_nil, or_false] at ho
      rcases ho with rfl | rfl <;> rfl
  exact moveLine_moves (s := { s with hub := s.hub ++ [⟨s.migFrom p, p, .hold, []⟩, ⟨s.migTo p, p, .hold, []⟩] })
    (wf_mem hwf) hab (hnone _ hba) (hnone _ hbb) halb hused _

/-! ## The engine's other steps (R182 to R185) -/

section
variable {s : State} {p : Nat}

theorem takes_migStart (h : (s.part p).mig.st = .idle) (he : s.frameError p (s.part p).mig = 0) :
    takes (.migStart p) s ((s.modMig p fun g => { g with st := .run, err := 0, bound := 0 }).post (.migLineMove p)) := by
  show execMigStart p s = _
  simp only [execMigStart, h, ne_eq, not_true_eq_false, if_false, he]
  rfl

theorem takes_migStart_error (h : (s.part p).mig.st = .idle) (he : s.frameError p (s.part p).mig ≠ 0) :
    takes (.migStart p) s (s.modMig p fun g => { g with st := .error, err := s.frameError p g }) := by
  show execMigStart p s = _
  simp only [execMigStart, modMig, modPart_eq, h, ne_eq, not_true_eq_false, if_false, he, not_false_eq_true, if_true]
  rfl

theorem frameError_of_no_dram {g : Mig} (h : ∀ e, place (loc (g.src.toNat * 4096)) ≠ .dram e) : s.frameError p g = 1 := by
  unfold frameError
  dsimp only
  split
  · rfl
  · next hn =>
    cases hp : place (loc (g.src.toNat * 4096)) with
    | dram e => exact absurd hp (h e)
    | _ => simp [hp] at hn

theorem takes_migClear (h : (s.part p).mig.st = .error) :
    takes (.migClear p) s (s.modMig p fun g => { g with st := .idle, err := 0 }) := by
  show execMigClear p s = _
  simp only [execMigClear, modMig, modPart_eq, h, if_true]
  rfl

theorem takes_migReleaseComplete (h : (s.part p).mig.releasing = true) (hu : s.underWay p = false) :
    takes (.migReleaseComplete p) s (s.modMig p fun g => { g with st := .idle, bound := 0, releasing := false }) := by
  show execMigReleaseComplete p s = _
  simp only [execMigReleaseComplete, h, hu, Bool.not_true, Bool.false_eq_true, if_false]
  rfl

theorem takes_migReleaseComplete_waits (h : (s.part p).mig.releasing = true) (hu : s.underWay p = true) :
    takes (.migReleaseComplete p) s (s.park (.migReleaseComplete p)) := by
  show execMigReleaseComplete p s = _
  simp only [execMigReleaseComplete, h, hu, Bool.not_true, Bool.false_eq_true, if_false, if_true]
  rfl

/-- A line that the hub is at work on is waited for. -/
theorem bringHome_of_atWork {l : Nat} (h : s.atWork p l = true) (i : Instr) : s.bringHome p l i = s.park i := by
  rw [bringHome, if_pos h]

/-- A line with an entry is held, and recalled once its transactions are over. -/
theorem bringHome_of_entry {l : Nat} {e : DirEntry} (hbusy : s.busyWith p l = none) (hent : s.entryAt p l = some e)
    (i : Instr) : s.bringHome p l i =
      (if s.transacting p l then s.setBusy ⟨l, p, .hold, []⟩
        else (s.setBusy ⟨l, p, .hold, []⟩).startRecall p l).park i := by
  have hwork : s.atWork p l = false := by rw [atWork, hbusy]
  have hhold : s.holdLine p l = s.setBusy ⟨l, p, .hold, []⟩ := by rw [holdLine, hbusy]; rfl
  have htrans : (s.setBusy ⟨l, p, .hold, []⟩).transacting p l = s.transacting p l := by
    rw [setBusy, hbusy]
    rfl
  rw [bringHome, hwork, if_neg (by decide), hent, hhold, Option.isSome_some, if_pos rfl]
  dsimp only
  rw [htrans]

end

/-! ## The release of the source frame (R185) -/

/-- The L1 of a core has no line of a partition's source frame. -/
def Rid (s : State) (p : Nat) (g : Mig) (c : Nat) : Prop := ∀ l ∈ (s.hwOf c).l1, ¬ (l.part = p ∧ inFrame g l.pa = true)

/-- The lines of the source frame leave the L1 of a core. -/
def ridCore (s : State) (p : Nat) (g : Mig) (c : Nat) : State :=
  ((s.hwOf c).l1.filter fun l => l.part = p && inFrame g l.pa).foldl (fun s l => s.evictL1 c l) s

theorem rid_ridCore_self (s : State) (p : Nat) (g : Mig) (c : Nat) : (s.ridCore p g c).Rid p g c := by
  intro l hl hm
  rw [ridCore, hwOf_evictAll_self] at hl
  obtain ⟨hmem, hnot⟩ := List.mem_filter.mp hl
  rw [Bool.not_eq_true', List.any_eq_false] at hnot
  refine hnot l (List.mem_filter.mpr ⟨hmem, by simpa using hm⟩) ?_
  simp [L1Line.sameTags]

theorem hwOf_ridCore_ne (s : State) (p : Nat) (g : Mig) {c d : Nat} (h : d ≠ c) :
    (s.ridCore p g c).hwOf d = s.hwOf d := foldl_keeps (f := fun t => t.hwOf d) (fun t l => hwOf_evictL1_ne t l h) _ s

theorem rid_ridCore {s : State} {p : Nat} {g : Mig} {d : Nat} (h : s.Rid p g d) (c : Nat) : (s.ridCore p g c).Rid p g d := by
  by_cases hd : d = c
  · subst hd
    exact rid_ridCore_self s p g d
  · rw [Rid, hwOf_ridCore_ne s p g hd]
    exact h

/-- Every core has released the frame. -/
def ridAll (s : State) (p : Nat) (g : Mig) : State := s.hw.foldl (fun t e => t.ridCore p g e.1) s

theorem rid_of_absent {s : State} {c : Nat} (h : aget s.hw c = none) (p : Nat) (g : Mig) : s.Rid p g c := by
  intro l hl
  rw [hwOf, h] at hl
  cases hl

theorem rid_ridAll (s : State) (p : Nat) (g : Mig) (c : Nat) : (s.ridAll p g).Rid p g c := by
  cases hc : aget s.hw c with
  | none =>
    have hkeep : ∀ l : List (Nat × CoreHw), ∀ t : State, t.Rid p g c → (l.foldl (fun t e => t.ridCore p g e.1) t).Rid p g c := by
      intro l
      induction l with
      | nil => exact fun _ ht => ht
      | cons e l ih => exact fun t ht => ih _ (rid_ridCore ht e.1)
    exact hkeep s.hw s (rid_of_absent hc p g)
  | some h =>
    exact foldl_reaches (P := fun t => t.Rid p g c) (mem_of_aget hc) (fun t => rid_ridCore_self t p g c)
      (fun t e ht => rid_ridCore ht e.1) s

theorem ridAll_keeps {β : Type} (f : State → β) (h : ∀ (t : State) c l, f (t.evictL1 c l) = f t) (s : State) (p : Nat)
    (g : Mig) : f (s.ridAll p g) = f s :=
  foldl_keeps (fun t (e : Nat × CoreHw) => foldl_keeps (fun t l => h t e.1 l) _ t) _ s

theorem takes_migRelease {s : State} {p : Nat} (h : (s.part p).mig.st = .done) (hr : (s.part p).mig.releasing = false) :
    takes (.migRelease p) s (((s.ridAll p (s.part p).mig).modMig p fun m => { m with releasing := true }).post
      (.migReleaseComplete p)) := by
  show execMigRelease p s = _
  unfold execMigRelease
  simp only [h, hr, ne_eq, not_true_eq_false, Bool.false_eq_true, or_self, if_false]
  rfl

theorem evictL1_mem (s : State) (c : Nat) (l : L1Line) : (s.evictL1 c l).mem = s.mem := by
  unfold evictL1 writeBack
  split <;> rfl

theorem migRelease_releases {s : State} {p : Nat} (h : (s.part p).mig.st = .done)
    (hr : (s.part p).mig.releasing = false) :
    ∃ t, takes (.migRelease p) s t ∧ (t.part p).mig = { (s.part p).mig with releasing := true } ∧
      Instr.migReleaseComplete p ∈ t.flight ∧ t.mem = s.mem ∧
      ∀ c, ∀ l ∈ (t.hwOf c).l1, ¬ (l.part = p ∧ inFrame (s.part p).mig l.pa = true) := by
  have hparts : (s.ridAll p (s.part p).mig).part p = s.part p :=
    congrArg (fun y => (aget y p).getD emptyPart) (ridAll_keeps State.parts evictL1_parts s p _)
  refine ⟨_, takes_migRelease h hr, ?_, List.mem_append_right _ (List.mem_singleton_self _),
    ridAll_keeps State.mem evictL1_mem s p _, fun c => rid_ridAll s p _ c⟩
  have hmig := mig_modMig (s.ridAll p (s.part p).mig) p fun m => { m with releasing := true }
  rw [hparts] at hmig
  exact hmig

end State
end Sys2Proof.Machine
end

section
open Sys2Proof Sys2Proof.Machine

/-- Settles O52: one lemma per step of the core, of a posted write at its home and of the migration engine. -/
theorem coreAndMigrationSteps : Obligations.CoreAndMigrationSteps := by
  intro s s1 k p n asid core off m die req x v h w
  refine ⟨rfl, rfl, ?timer, takes_eventRedirect, ?quiet, ?timeout, State.replyArrival_wakes, ?echo, ?lost, ?posted,
    fun _ hwait => ⟨bctabWrite_writes hwait, reclaimWrite_writes hwait⟩, ?migration⟩
  case timer =>
    refine ⟨_, rfl, ?_, ?_, ?_, rfl, rfl⟩ <;> simp [State.raise, evTimer]
  case quiet =>
    intro hoff
    show execEventRedirect k s = _
    unfold execEventRedirect
    rw [if_neg (by rcases hoff with h | h <;> simp [h])]
    rfl
  case timeout =>
    intro hend hst
    refine ⟨fun e he hwait => ?_, fun i hwait => ?_, fun va d hwait => ?_, fun line pa d q qs hwait hq => ?_⟩
    · obtain ⟨t, ht, ⟨hst, hcause, hepc, hw, hpend, hg⟩, hmem⟩ := State.blockTimeout_alone hend hst he hwait
      exact ⟨t, ht, hst, hcause, hepc, hw, hpend, hg, hmem⟩
    · obtain ⟨t, ht, ⟨hst, hcause, -, hw, -, -⟩, hsem⟩ := State.blockTimeout_semp hend hst hwait
      exact ⟨t, ht, hst, hcause, hw, hsem⟩
    · obtain ⟨t, ht, ⟨hst, hcause, -, hw, -, -⟩, hwaits⟩ := State.blockTimeout_synWait hend hst hwait
      exact ⟨t, ht, hst, hcause, hw, hwaits⟩
    · obtain ⟨t, ht, ⟨hst, hcause, -, hw, -, -⟩, hqueue⟩ := State.blockTimeout_lrw hend hst hwait hq
      exact ⟨t, ht, hst, hcause, hw, hqueue⟩
  case echo =>
    exact ⟨_, State.takes_storeEcho s k x h none, State.ctx_storeEcho (f := Ctx.posted) (fun _ => rfl) s k x h none,
      State.ctx_storeEcho (f := Ctx.lost) (fun _ => rfl) s k x h none, State.storeEcho_last⟩
  case lost =>
    exact ⟨_, State.takes_storeEcho s k x h (some m),
      State.ctx_storeEcho (f := Ctx.posted) (fun _ => rfl) s k x h (some m),
      State.ctx_storeEcho (f := Ctx.lost) (fun _ => rfl) s k x h (some m),
      State.ctx_storeEcho (f := Ctx.lostMod) (fun _ => rfl) s k x h (some m)⟩
  case posted =>
    intro hby told
    refine ⟨fun hhome => ⟨fun hplace => ?_, fun hplace => ⟨fun hown => ?_, fun e hown => ?_, fun hown => ?_⟩⟩,
      fun g hhome hplace hcut => ?_⟩
    · exact (postedWriteArrival_performed (performAt_lcl hplace s)).trans
        (congrArg done (State.arrived_near hby hhome false))
    · exact (postedWriteArrival_performed ((congrFun (performAt_dram hplace) s).trans (writeLlc_ok hown))).trans
        (congrArg done (State.arrived_near hby hhome false))
    · exact postedWriteArrival_waits ((congrFun (performAt_dram hplace) s).trans (writeLlc_error hown))
    · exact (postedWriteArrival_fails ((congrFun (performAt_dram hplace) s).trans (writeLlc_error hown))).trans
        (congrArg done (State.arrived_near hby hhome true))
    · exact (postedWriteArrival_performed (performAt_cutOff hplace hcut)).trans
        (congrArg done (State.arrived_cutOff hby hhome hcut))
  case migration =>
    intro g a b
    refine ⟨fun hidle => ⟨fun he => ?_, fun he => ?_⟩, fun hplace => ?_, fun herr => ?_, ?_,
      fun hrun hexp => ⟨fun hwork => ?_, fun e hbusy hent => ?_⟩,
      State.migRelease_releases, State.takes_migReleaseComplete, State.takes_migReleaseComplete_waits⟩
    · exact State.takes_migStart hidle he
    · exact State.takes_migStart_error hidle he
    · exact State.frameError_of_no_dram hplace
    · exact State.takes_migClear herr
    · exact State.migLineMove_moves
    · exact State.bringHome_of_atWork hwork _ ▸
        State.takes_migLineMove_abroad hrun (State.isHome_of_exported hexp)
    · have hmove := State.takes_migLineMove_abroad hrun (State.isHome_of_exported hexp)
      rw [show s.migFrom p = a from rfl, State.bringHome_of_entry hbusy hent] at hmove
      refine ⟨fun ht => ?_, fun ht => ?_⟩
      · rwa [ht] at hmove
      · rwa [ht] at hmove

end

section
/-! SUPPORT. THR.LAUNCH (R117, R118): what it checks, which records are bad for certain, and what an accepted record
becomes. -/

namespace Sys2Proof.Machine

/-! ## Records (R117, R118) -/

theorem fieldAt_eq (raw o n a b : Nat) (ha : 256 ^ o = a) (hb : 256 ^ n = b) : fieldAt raw o n = raw / a % b := by
  rw [fieldAt, ha, hb]

section
variable {s : State} {p raw : Nat}

theorem badRecord_of_count (h : raw / 2 ^ 96 % 2 ^ 32 = 0) : s.badRecord p raw = true := by
  have hc : (recordOf raw).count = 0 := (fieldAt_eq raw 12 4 (2 ^ 96) (2 ^ 32) (by norm_num) (by norm_num)).trans h
  simp [State.badRecord, hc]

theorem badRecord_of_qlast (h : 2047 < raw / 2 ^ 48 % 2 ^ 16) : s.badRecord p raw = true := by
  have hq : 2047 < (recordOf raw).qlast :=
    Nat.lt_of_lt_of_eq h (fieldAt_eq raw 6 2 (2 ^ 48) (2 ^ 16) (by norm_num) (by norm_num)).symm
  simp [State.badRecord, hq]

theorem badRecord_of_part (h : raw / 2 ^ 80 % 2 ^ 8 ≠ p) : s.badRecord p raw = true := by
  have hf : fieldAt raw 10 1 = raw / 2 ^ 80 % 2 ^ 8 := fieldAt_eq raw 10 1 (2 ^ 80) (2 ^ 8) (by norm_num) (by norm_num)
  by_cases hlarge : fieldAt raw 10 1 ≥ 64
  · simp [State.badRecord, hlarge]
  · have hp : (recordOf raw).part ≠ p := by
      rw [show (recordOf raw).part = fieldAt raw 10 1 from Nat.mod_eq_of_lt (Nat.lt_of_not_le hlarge), hf]
      exact h
    simp [State.badRecord, hp]

theorem badRecord_of_policy (h : raw / 2 ^ 72 % 2 ^ 8 = 3) : s.badRecord p raw = true := by
  have hp : (recordOf raw).policy = 3 := by
    show fieldAt raw 9 1 % 4 = 3
    rw [fieldAt_eq raw 9 1 (2 ^ 72) (2 ^ 8) (by norm_num) (by norm_num), h]
  simp [State.badRecord, hp]

theorem submit_bad (h : s.badRecord p raw = true) (by_ : Submitter) (asid : BitVec 16) :
    s.submit by_ p asid raw = s.answerLaunch by_ 1 := if_pos h

/-- A record as it is submitted. -/
def State.newLaunch (s : State) (by_ : Submitter) (asid : BitVec 16) (raw : Nat) : Launch :=
  ⟨s.nextId, by_, asid, recordOf raw, [], false, [], [], [], [], 0, false⟩

theorem foldl_post (s : State) (f : Nat → Instr) (l : List Nat) :
    l.foldl (fun s d => s.post (f d)) s = { s with flight := s.flight ++ l.map f } := by
  induction l generalizing s with
  | nil => simp
  | cons d l ih =>
    rw [List.foldl_cons, ih]
    simp [State.post]

/-- A record that is not bad is sent to its dies. -/
theorem submit_sent (h : s.badRecord p raw = false) (by_ : Submitter) (asid : BitVec 16) :
    let u := s.submit by_ p asid raw
    u.launches = s.launches ++ [s.newLaunch by_ asid raw] ∧ u.cores = s.cores ∧ u.mem = s.mem ∧
      ∀ e < 32, (recordOf raw).diemask.getLsbD e = true → e ∉ s.retiredDies →
        Instr.launchDieAccept s.nextId e ∈ u.flight := by
  dsimp only
  unfold State.submit
  rw [if_neg (by simp [h])]
  dsimp only
  rw [foldl_post]
  refine ⟨rfl, rfl, rfl, fun e he hmask hret => ?_⟩
  have hmem : e ∈ State.launchDies { s with nextId := s.nextId + 1, launches := s.launches ++ [s.newLaunch by_ asid raw] }
      (s.newLaunch by_ asid raw) := by
    refine List.mem_filter.mpr ⟨List.mem_range.mpr he, ?_⟩
    rw [Bool.and_eq_true]
    exact ⟨hmask, by simpa using hret⟩
  refine List.mem_append_right _ (List.mem_map.mpr ⟨e, ?_, rfl⟩)
  rw [if_neg (by rw [List.isEmpty_iff]; exact List.ne_nil_of_mem hmem)]
  exact hmem

end

/-! ## The instruction (R118) -/

theorem thrLaunch_masked {s : State} (h : s.masked s.myPart 8 = true) (d a : Reg) :
    takes (.thrLaunch d a) s s.illegal := by
  show execThrLaunch d a s = _
  rw [execThrLaunch, if_pos h]

section
variable {s s1 : State} {d a : Reg} {raw : Nat} (hfeat : s.masked s.myPart 8 = false)
  (hready : s.pendingOf [d, a] = false)
include hfeat hready

theorem thrLaunch_misaligned (h : U (s.rg a) % 64 ≠ 0) : takes (.thrLaunch d a) s (s.trap 0x03 (s.rg a)) := by
  have hlow : ((s.rg a).extractLsb' 0 6 != 0) = true := (low_bits _ 6).trans (bne_iff_ne.mpr h)
  show execThrLaunch d a s = _
  rw [execThrLaunch, if_neg (by simp [hfeat])]
  exact issueM_trap hready (by simp only [run_bind, run_get, run_trapIf, hlow, if_true])

variable (halign : U (s.rg a) % 64 = 0)
include halign

theorem thrLaunch_noRights (h : s.me.rights = false) : takes (.thrLaunch d a) s (s.trap 0x04 0) := by
  have hlow : ((s.rg a).extractLsb' 0 6 != 0) = false := (low_bits _ 6).trans (bne_eq_false_iff_eq.mpr halign)
  show execThrLaunch d a s = _
  rw [execThrLaunch, if_neg (by simp [hfeat])]
  exact issueM_trap hready (by
    simp only [run_bind, run_get, run_trapIf, hlow, h, Bool.not_false, Bool.false_eq_true, if_false, if_true])

/-- With rights and no write outstanding, the record that is read is submitted. -/
theorem thrLaunch_submits (hrights : s.me.rights = true) (hposted : s.me.posted = [])
    (hload : loadG (s.rg a) 64 s = .ok raw s1) :
    takes (.thrLaunch d a) s ((s1.setPending d).seq.submit (.token s1.key s1.slot d) s1.myPart s1.me.asid raw) := by
  have hlow : ((s.rg a).extractLsb' 0 6 != 0) = false := (low_bits _ 6).trans (bne_eq_false_iff_eq.mpr halign)
  show execThrLaunch d a s = _
  rw [execThrLaunch, if_neg (by simp [hfeat])]
  exact issueM_ok (u := ()) hready (by
    simp only [run_bind, run_get, run_trapIf, run_waitEchoes, run_set, hlow, hrights, hposted, hload, Bool.not_true,
      Bool.false_eq_true, if_false, List.isEmpty_nil, if_true])

end

theorem asid_advance (c : Ctx) (n : Nat) : (c.advance n).asid = c.asid := by
  have h := keeps_advance c n
  unfold Ctx.keeps at h
  rw [h]

theorem asid_pending_seq (s : State) (d : Reg) : (s.setPending d).seq.me.asid = s.me.asid := by
  rw [me_seq, show ∀ c : Ctx, c.settled.asid = c.asid from fun _ => rfl, asid_advance]
  show ((s.setMe _).me).asid = _
  rw [me_setMe]
  split <;> rfl

end Sys2Proof.Machine
end

section
/-! SUPPORT. A launch under way: its dies' answers, its shares and windows, and its reports (R118 to R120). -/

namespace Sys2Proof.Machine

/-- A context as a share of a launch begins it, on a core (R96, R119). -/
def Launch.begins (l : Launch) (inst : Nat) (e : Core) (c : Ctx) : Ctx :=
  c.started l.record.entry e.spexit (l.record.a0.signExtend 64) (l.record.a1.signExtend 64)
    (l.record.a2.signExtend 64) (l.record.a3.signExtend 64) l.asid false true (some (l.id, inst))

/-- The launch with one more die's answer. -/
def Launch.answered (l : Launch) (die code : Nat) : Launch := { l with answers := l.answers ++ [(die, code)] }

namespace State

/-! ## Launches and answers (R118) -/

theorem launch_of_find {s : State} {l : Launch} {id : Nat} (hl : s.launches.find? (fun e => e.id = id) = some l) :
    l.id = id ∧ l ∈ s.launches :=
  ⟨by simpa using List.find?_some hl, List.mem_of_find?_eq_some hl⟩

theorem cfg_modPart (s : State) (p q : Nat) {f : Part → Part} (hf : ∀ e, (f e).cfg = e.cfg) :
    (s.modPart p f).cfg q = s.cfg q := by
  unfold cfg
  by_cases h : q = p
  · subst h
    rw [modPart_eq, part_setPart_self, hf]
  · rw [modPart_eq, part_setPart_ne _ _ h]

/-- An answer to a submitter changes no launch, no configuration, and nothing retired or under way. -/
theorem answerLaunch_keeps (s : State) (b : Submitter) (code : Nat) :
    let t := s.answerLaunch b code
    t.launches = s.launches ∧ t.retiredCores = s.retiredCores ∧ t.retiredDies = s.retiredDies ∧ t.flight = s.flight ∧
      ∀ q, t.cfg q = s.cfg q := by
  cases b with
  | token k x d =>
    unfold answerLaunch
    dsimp only
    rcases s.token_eq k x d (BitVec.ofNat 64 code) with h | h <;> rw [h] <;> exact ⟨rfl, rfl, rfl, rfl, fun _ => rfl⟩
  | window p slot => exact ⟨rfl, rfl, rfl, rfl, fun q => cfg_modPart s p q fun _ => rfl⟩

/-- The target cores of a launch depend on its record, the configuration and what is retired. -/
theorem launchCores_congr {s t : State} {l m : Launch} (hrec : m.record = l.record)
    (hcores : t.retiredCores = s.retiredCores) (hdies : t.retiredDies = s.retiredDies)
    (hcfg : ∀ q, t.cfg q = s.cfg q) : t.launchCores m = s.launchCores l := by
  unfold launchCores launchDies launchQuad presentCore
  simp only [hrec, hcores, hdies, hcfg]

/-! ## A die's answer (R118) -/

/-- The state in which the last die has accepted a launch: its shares may start, its first window may close, and its
first completion record may be written. -/
def accepted (s : State) (l : Launch) : State :=
  let s := (s.modLaunch l.id fun l => { l with active := true }).answerLaunch l.by_ 0
  let s : State := { s with flight := s.flight ++ (s.launchCores l).map fun c => .launchShareStart l.id c 0 }
  (s.post (.launchWindowClose l.id 0)).post (.launchCompletionWrite l.id 0)

theorem concludeLaunch_accepts {s : State} {l : Launch} (h1 : (l.answers.any fun a => a.2 = 1) = false)
    (h2 : (l.answers.any fun a => a.2 = 2) = false) : s.concludeLaunch l = s.accepted l := by
  unfold concludeLaunch accepted
  simp only [h1, h2, Bool.false_eq_true, if_false, if_true, foldl_post]

/-- The state without a launch. -/
def withoutLaunch (s : State) (id : Nat) : State := { s with launches := s.launches.filter fun e => e.id ≠ id }

theorem concludeLaunch_refuses {s : State} {l : Launch} (h1 : (l.answers.any fun a => a.2 = 1) = false)
    (h2 : (l.answers.any fun a => a.2 = 2) = true) :
    s.concludeLaunch l = (s.withoutLaunch l.id).answerLaunch l.by_ 2 := by
  unfold concludeLaunch
  simp only [h1, h2, Bool.false_eq_true, if_false, if_true, OfNat.ofNat_ne_zero]
  rfl

/-- A launch that has changed is taken out like the one that it was. -/
theorem withoutLaunch_modLaunch (s : State) {m : Launch} {id : Nat} (hm : m.id = id) :
    (s.modLaunch id fun _ => m).withoutLaunch id = s.withoutLaunch id := by
  have hlist : ∀ ls : List Launch, ((ls.map fun e => if e.id = id then m else e).filter fun e => e.id ≠ id) =
      ls.filter fun e => e.id ≠ id := by
    intro ls
    induction ls with
    | nil => rfl
    | cons e ls ih =>
      rw [List.map_cons]
      by_cases he : e.id = id
      · rw [if_pos he, List.filter_cons_of_neg (by simp [hm]), List.filter_cons_of_neg (by simp [he]), ih]
      · rw [if_neg he, List.filter_cons_of_pos (by simp [he]), List.filter_cons_of_pos (by simp [he]), ih]
  exact congrArg (fun ls => ({ s with launches := ls } : State)) (hlist s.launches)

/-- A die's answer is recorded, and the last one accepts or refuses the launch. -/
def tally (s : State) (l : Launch) (die code : Nat) : State :=
  if (s.launchDies l).length ≤ (l.answered die code).answers.length then
    (s.modLaunch l.id fun _ => l.answered die code).concludeLaunch (l.answered die code)
  else s.modLaunch l.id fun _ => l.answered die code

theorem checkedBy_eq (s : State) (l : Launch) (die : Nat) : s.checkedBy l die false =
    s.tally l die (if (s.launchDies l).contains die && s.activeOn l.record.part die ≥ 64 then 2 else 0) := rfl

/-- A die that holds fewer than 64 active records answers 0. -/
theorem checkedBy_room {s : State} {l : Launch} {die : Nat} (h : s.activeOn l.record.part die < 64) :
    s.checkedBy l die false = s.tally l die 0 := by
  rw [checkedBy_eq, if_neg (by simp; omega)]

theorem length_answered (l : Launch) (die code : Nat) : (l.answered die code).answers.length = l.answers.length + 1 :=
  List.length_append

section
variable {s : State} {l : Launch} {id die : Nat} (hl : s.launches.find? (fun e => e.id = id) = some l)
include hl

theorem takes_launchDieAccept (hdone : l.record.done = 0) :
    takes (.launchDieAccept id die) s (s.checkedBy l die false) := by
  show execLaunchDieAccept id die s = _
  unfold execLaunchDieAccept
  rw [hl]
  refine congrArg done (eventOr_ok (u := ()) ?_)
  simp only [hdone, if_true, run_bind, run_pure, run_modify]

/-- An answer that is not the last is recorded. -/
theorem checkedBy_waits (hroom : s.activeOn l.record.part die < 64)
    (hmore : l.answers.length + 1 < (s.launchDies l).length) :
    s.checkedBy l die false = s.modLaunch id fun _ => l.answered die 0 := by
  rw [checkedBy_room hroom, tally, (launch_of_find hl).1, length_answered, if_neg (by omega)]

/-- The last answer, where no die refuses, accepts the launch. -/
theorem checkedBy_accepts (hroom : s.activeOn l.record.part die < 64)
    (hlast : l.answers.length + 1 = (s.launchDies l).length) (hall : ∀ e ∈ l.answers, e.2 = 0) :
    let t := s.checkedBy l die false
    (∃ e ∈ t.launches, e.id = id ∧ e.active = true) ∧
      (∀ e ∈ s.launchCores l, Instr.launchShareStart id e 0 ∈ t.flight) ∧
      Instr.launchWindowClose id 0 ∈ t.flight ∧ Instr.launchCompletionWrite id 0 ∈ t.flight := by
  obtain ⟨hid, hmem⟩ := launch_of_find hl
  have hzero : ∀ e ∈ l.answers ++ [(die, 0)], e.2 = 0 := by
    intro e he
    rcases List.mem_append.mp he with he | he
    · exact hall e he
    · rw [List.mem_singleton.mp he]
  have hcode : ∀ n, n ≠ 0 → ((l.answered die 0).answers.any fun a => a.2 = n) = false := by
    intro n hn
    rw [List.any_eq_false]
    intro e he
    rw [hzero e he]
    simpa using Ne.symm hn
  dsimp only
  rw [checkedBy_room hroom, tally, length_answered, if_pos (by omega),
    concludeLaunch_accepts (hcode 1 (by decide)) (hcode 2 (by decide)), accepted]
  obtain ⟨hlaunches, hcores, hdies, -, hcfg⟩ := answerLaunch_keeps
    ((s.modLaunch l.id fun _ => l.answered die 0).modLaunch l.id fun l => { l with active := true }) l.by_ 0
  have hsame := launchCores_congr (s := s) (l := l) (m := l.answered die 0) rfl hcores hdies hcfg
  dsimp only [Launch.answered] at hlaunches hsame ⊢
  rw [hsame, ← hid]
  refine ⟨⟨{ l.answered die 0 with active := true }, ?_, rfl, rfl⟩, fun e he => ?_, ?_, ?_⟩
  · show _ ∈ (answerLaunch _ _ _).launches
    rw [hlaunches]
    refine List.mem_map.mpr ⟨l.answered die 0, List.mem_map.mpr ⟨l, hmem, if_pos rfl⟩, if_pos rfl⟩
  · exact List.mem_append_left _ (List.mem_append_left _ (List.mem_append_right _ (List.mem_map.mpr ⟨e, he, rfl⟩)))
  · exact List.mem_append_left _ (List.mem_append_right _ (List.mem_singleton_self _))
  · exact List.mem_append_right _ (List.mem_singleton_self _)

/-- The one die that a launch is aimed at holds no more, and the launch is refused. -/
theorem checkedBy_refuses (hdies : s.launchDies l = [die]) (hnone : l.answers = [])
    (hfull : 64 ≤ s.activeOn l.record.part die) :
    s.checkedBy l die false =
      ({ s with launches := s.launches.filter fun e => e.id ≠ id } : State).answerLaunch l.by_ 2 := by
  obtain ⟨hid, -⟩ := launch_of_find hl
  rw [checkedBy_eq, if_pos (by simp [hdies, hfull]), tally, length_answered, if_pos (by simp [hdies]),
    concludeLaunch_refuses (by simp [Launch.answered, hnone]) (by simp [Launch.answered, hnone])]
  have hout := s.withoutLaunch_modLaunch (m := l.answered die 2) hid
  exact congrArg (answerLaunch · l.by_ 2) (hid.symm ▸ hout)

end

/-! ## A share starts in its window (R96, R119) -/

/-- Contexts of a core, each begun from what the core says then. -/
def beginAll (s : State) (k : Nat) (f : Core → Ctx → Ctx) (xs : List Slot) : State :=
  xs.foldl (fun s x => s.modCtx k x (f (s.core k))) s

/-- Contexts that begin one after another begin together, where what the core says does not depend on them. -/
theorem beginAll_ctx {k : Nat} {f : Core → Ctx → Ctx} (hf : ∀ c ctxs, f { c with ctxs := ctxs } = f c) {xs : List Slot}
    (hnodup : xs.Nodup) (s : State) (x : Slot) :
    (s.beginAll k f xs).ctx k x = if x ∈ xs then f (s.core k) (s.ctx k x) else s.ctx k x := by
  induction xs generalizing s with
  | nil => rfl
  | cons y ys ih =>
    obtain ⟨hy, hnodup⟩ := List.nodup_cons.mp hnodup
    have hcore : f ((s.modCtx k y (f (s.core k))).core k) = f (s.core k) := by
      rw [modCtx, core_setCtx_self, hf]
    rw [beginAll, List.foldl_cons]
    rw [show List.foldl _ _ ys = (s.modCtx k y (f (s.core k))).beginAll k f ys from rfl, ih hnodup, hcore]
    by_cases hx : x = y
    · subst hx
      rw [if_neg hy, if_pos List.mem_cons_self, modCtx, ctx_setCtx_self]
    · rw [modCtx, ctx_setCtx_slot _ _ _ hx]
      simp [hx]

theorem beginAll_keeps {β : Type} (g : State → β) (h : ∀ (t : State) k e, g (t.setCore k e) = g t) (s : State) (k : Nat)
    (f : Core → Ctx → Ctx) (xs : List Slot) : g (s.beginAll k f xs) = g s := foldl_keeps (fun _ _ => h _ _ _) xs s

section
variable {s : State} {l : Launch} {id core inst : Nat} (hl : s.launches.find? (fun e => e.id = id) = some l)
  (hshare : l.share core inst = none) (hmove : l.move core inst = none)
include hl hshare hmove

theorem launchShareStart_early (h : s.time < l.record.opens inst) :
    takes (.launchShareStart id core inst) s (s.park (.launchShareStart id core inst)) := by
  show execLaunchShareStart id core inst s = _
  unfold execLaunchShareStart
  have hopen : ¬ (s.time ≥ l.record.opens inst) := Nat.not_le.mpr h
  simp only [hl, hshare, hmove, Option.isSome_none, Bool.false_eq_true, if_false, Option.map_none, Option.getD_none,
    hopen, decide_false, Bool.false_and, Bool.not_false, Bool.true_or, if_true]
  rfl

variable (hopen : l.record.opens inst ≤ s.time) (hclose : s.time ≤ l.record.closes inst)
  (hruns : s.runsOn l.record.part (dieOfCore core) = true) (hhalted : (s.core (keyOf core l.record.part)).halted = false)
include hopen hclose hruns hhalted

theorem launchShareStart_waits (hfew : (s.core (keyOf core l.record.part)).freeCtxs.length < l.record.ctx)
    (hsome : (s.core (keyOf core l.record.part)).freeCtxs ≠ []) :
    takes (.launchShareStart id core inst) s (s.park (.launchShareStart id core inst)) := by
  show execLaunchShareStart id core inst s = _
  unfold execLaunchShareStart
  have hctx : ¬ ((s.core (keyOf core l.record.part)).freeCtxs.length ≥ l.record.ctx) := Nat.not_le.mpr hfew
  have hempty : (s.core (keyOf core l.record.part)).freeCtxs.isEmpty = false := by simpa using hsome
  simp only [hl, hshare, hmove, Option.isSome_none, Bool.false_eq_true, if_false, Option.map_none, Option.getD_none,
    ge_iff_le, hopen, hclose, decide_true, Bool.true_or, Bool.true_and, Bool.not_true, Bool.false_or, hruns, hhalted,
    hctx, hempty, Bool.false_and]
  rfl

theorem takes_launchShareStart (henough : l.record.ctx ≤ (s.core (keyOf core l.record.part)).freeCtxs.length) :
    takes (.launchShareStart id core inst) s
      (s.startShare l core inst ((s.core (keyOf core l.record.part)).freeCtxs.take l.record.ctx)) := by
  show execLaunchShareStart id core inst s = _
  unfold execLaunchShareStart
  simp only [hl, hshare, hmove, Option.isSome_none, Bool.false_eq_true, if_false, Option.map_none, Option.getD_none,
    ge_iff_le, hopen, hclose, decide_true, Bool.true_or, Bool.true_and, Bool.not_true, Bool.false_or, hruns, hhalted,
    henough, if_true]
  rfl

end

theorem nextShare_keeps {β : Type} (g : State → β) (h : ∀ (t : State) i, g (t.post i) = g t) (s : State) (l : Launch)
    (core inst : Nat) : g (s.nextShare l core inst) = g s := by
  unfold nextShare
  split
  · exact h s _
  · rfl

/-- What a share's start keeps beside its contexts. -/
theorem startShare_keeps {β : Type} (g : State → β) (hp : ∀ (t : State) i, g (t.post i) = g t)
    (hm : ∀ (t : State) ls, g { t with launches := ls } = g t) (s : State) (l : Launch) (core inst : Nat)
    (xs : List Slot) : g (s.startShare l core inst xs) =
      g (s.beginAll (keyOf core l.record.part) (l.begins inst) xs) :=
  (nextShare_keeps g hp _ l core inst).trans (hm _ _)

theorem nodup_freeCtxs (c : Core) : c.freeCtxs.Nodup := (List.nodup_finRange 16).filter _

theorem ctx_startShare {s : State} {l : Launch} {core inst : Nat} {xs : List Slot} (hnodup : xs.Nodup) (x : Slot) :
    (s.startShare l core inst xs).ctx (keyOf core l.record.part) x =
      if x ∈ xs then l.begins inst (s.core (keyOf core l.record.part)) (s.ctx (keyOf core l.record.part) x)
      else s.ctx (keyOf core l.record.part) x :=
  (startShare_keeps (fun t => t.ctx (keyOf core l.record.part) x) (fun _ _ => rfl) (fun _ _ => rfl) s l core inst xs).trans
    (beginAll_ctx (fun _ _ => rfl) hnodup s x)

/-- The contexts of a share run at its entry with its arguments, and no other context of the core changes. -/
theorem launchShareStart_starts {s : State} {l : Launch} {id core inst : Nat}
    (hl : s.launches.find? (fun e => e.id = id) = some l) (hshare : l.share core inst = none)
    (hmove : l.move core inst = none) (hopen : l.record.opens inst ≤ s.time) (hclose : s.time ≤ l.record.closes inst)
    (hruns : s.runsOn l.record.part (dieOfCore core) = true)
    (hhalted : (s.core (keyOf core l.record.part)).halted = false)
    (henough : l.record.ctx ≤ (s.core (keyOf core l.record.part)).freeCtxs.length) :
    let k := keyOf core l.record.part
    let xs := (s.core k).freeCtxs.take l.record.ctx
    ∃ t, takes (.launchShareStart id core inst) s t ∧
      (∀ x ∈ xs, (t.ctx k x).st = .run ∧ (t.ctx k x).pc = l.record.entry ∧ (t.ctx k x).rd 1 = (s.core k).spexit ∧
        (t.ctx k x).rd 4 = l.record.a0.signExtend 64 ∧ (t.ctx k x).rd 7 = l.record.a3.signExtend 64 ∧
        (t.ctx k x).asid = l.asid ∧ (t.ctx k x).launch = some (id, inst)) ∧
      (∀ x : Slot, x ∉ xs → t.ctx k x = s.ctx k x) ∧ t.mem = s.mem := by
  intro k xs
  have hctx := fun x => ctx_startShare (s := s) (l := l) (core := core) (inst := inst) (xs := xs)
    ((nodup_freeCtxs _).sublist (List.take_sublist _ _)) x
  refine ⟨_, takes_launchShareStart hl hshare hmove hopen hclose hruns hhalted henough, fun x hx => ?_, fun x hx => ?_, ?_⟩
  · rw [hctx x, if_pos hx, ← (launch_of_find hl).1]
    exact ⟨rfl, rfl, rd_started .., rd_started .., rd_started .., rfl, rfl⟩
  · rw [hctx x, if_neg hx]
  · exact (startShare_keeps State.mem (fun _ _ => rfl) (fun _ _ => rfl) s l core inst xs).trans
      (beginAll_keeps State.mem (fun _ _ _ => rfl) s _ _ xs)

/-! ## A window closes (R119) -/

theorem launchWindowClose_waits {s : State} {l : Launch} {id inst : Nat}
    (hl : s.launches.find? (fun e => e.id = id) = some l) (h : s.time ≤ l.record.closes inst) :
    takes (.launchWindowClose id inst) s (s.park (.launchWindowClose id inst)) := by
  show execLaunchWindowClose id inst s = _
  unfold execLaunchWindowClose
  simp only [hl, h, if_true]
  rfl

/-- The last window has closed, but for one into which a share has moved. -/
def closedWindow (s : State) (id inst : Nat) : State :=
  (if s.launches.any fun e => e.id = id && e.moved.any fun m => m.into = inst + 1 && !e.record.anyTime then
    s.post (.launchWindowClose id (inst + 1)) else s).unpark

theorem modLaunch_only {s : State} {l : Launch} (honly : s.launches = [l]) (f : Launch → Launch) :
    s.modLaunch l.id f = { s with launches := [f l] } := by
  simp [modLaunch, honly]

section
variable {s : State} {l : Launch} {c inst : Nat} (honly : s.launches = [l])
  (hclosed : l.record.closes inst < s.time) (hcores : s.launchCores l = [c]) (hnext : l.next = inst)
  (hcount : l.record.count = inst + 1) (hshares : l.shares = []) (hmoved : l.moved = [])
include hnext hcount hshares hmoved

theorem unstarted_of_fresh : l.unstarted c inst = [inst] := by
  simp [Launch.unstarted, Launch.share, Launch.move, hshares, hmoved, hcount, hnext]

include honly hclosed hcores

/-- The one share of the last round has missed its window. -/
theorem launchWindowClose_misses : takes (.launchWindowClose l.id inst) s
    ((s.missShare l inst c inst).closedWindow l.id inst) := by
  have hl : s.launches.find? (fun e => e.id = l.id) = some l := by simp [honly]
  show execLaunchWindowClose l.id inst s = _
  unfold execLaunchWindowClose
  simp only [hl, Nat.not_le.mpr hclosed, if_false, hcores, List.foldl_cons, List.foldl_nil,
    unstarted_of_fresh hnext hcount hshares hmoved, hcount, Nat.lt_irrefl, decide_false, Bool.false_or]
  rfl

theorem launchWindowClose_skips (hpolicy : l.record.policy = 0) :
    takes (.launchWindowClose l.id inst) s (s.skipShare l c inst).unpark := by
  have h := launchWindowClose_misses honly hclosed hcores hnext hcount hshares hmoved
  rw [missShare, if_pos hpolicy, closedWindow, if_neg] at h
  · exact h
  · simp [skipShare, modLaunch_only honly, hmoved, post]

theorem launchWindowClose_keeps (hpolicy : l.record.policy = 1) :
    takes (.launchWindowClose l.id inst) s
      ({ s with launches := [{ l with moved := [⟨c, inst, inst⟩] }] } : State).unpark := by
  have hany : l.record.anyTime = true := by simp [LaunchRec.anyTime, hpolicy]
  have hmiss : s.missShare l inst c inst = { s with launches := [{ l with moved := [⟨c, inst, inst⟩] }] } := by
    simp [missShare, hpolicy, hany, modLaunch_only honly, hmoved]
  have h := launchWindowClose_misses honly hclosed hcores hnext hcount hshares hmoved
  rw [hmiss, closedWindow, if_neg] at h
  · exact h
  · simp

theorem launchWindowClose_moves (hpolicy : l.record.policy = 2) (hperiod : l.record.period ≠ 0) :
    takes (.launchWindowClose l.id inst) s
      ((({ s with launches := [{ l with moved := [⟨c, inst, inst + 1⟩] }] } : State).post
        (.launchWindowClose l.id (inst + 1))).unpark) := by
  have hany : l.record.anyTime = false := by simp [LaunchRec.anyTime, hpolicy, hperiod]
  have hmiss : s.missShare l inst c inst = { s with launches := [{ l with moved := [⟨c, inst, inst + 1⟩] }] } := by
    simp [missShare, hpolicy, hany, modLaunch_only honly, hmoved]
  have h := launchWindowClose_misses honly hclosed hcores hnext hcount hshares hmoved
  rw [hmiss, closedWindow, if_pos] at h
  · exact h
  · simp [hany]

end

/-! ## Reports (R120) -/

section
variable {s : State} {l : Launch} {id inst : Nat} (hl : s.launches.find? (fun e => e.id = id) = some l)
include hl

theorem takes_launchQuadReport {quad : Nat}
    (hall : ∀ e ∈ s.launchQuad l (quad / 2048) (quad % 2048), ∃ h, l.share e inst = some h ∧ h.live = 0)
    (hnew : (quad, inst) ∉ l.quads) (hnext : l.next ≤ inst) :
    takes (.launchQuadReport id quad inst) s
      ((s.modLaunch id fun l => { l with quads := l.quads ++ [(quad, inst)] }).post
        (.launchDieReport id (quad / 2048) inst)) := by
  have hover : ((s.launchQuad l (quad / 2048) (quad % 2048)).all fun c => (l.share c inst).any fun h => h.live = 0) =
      true := by
    rw [List.all_eq_true]
    intro e he
    obtain ⟨h, hsome, hlive⟩ := hall e he
    simp [hsome, hlive]
  show execLaunchQuadReport id quad inst s = _
  unfold execLaunchQuadReport
  simp only [hl, hover, List.contains_eq_mem, hnew, decide_false, Bool.not_false, Bool.true_and, ge_iff_le, hnext,
    decide_true, if_true]
  rfl

theorem takes_launchDieReport {die : Nat} (hall : ∀ q ∈ s.launchQuads l die, (q, inst) ∈ l.quads)
    (hnew : (die, inst) ∉ l.dies) (hnext : l.next ≤ inst) :
    takes (.launchDieReport id die inst) s
      ((s.modLaunch id fun l => { l with dies := l.dies ++ [(die, inst)] }).post (.launchCompletionWrite id inst)) := by
  have hover : ((s.launchQuads l die).all fun q => decide ((q, inst) ∈ l.quads)) = true := by
    rw [List.all_eq_true]
    exact fun q hq => decide_eq_true (hall q hq)
  show execLaunchDieReport id die inst s = _
  unfold execLaunchDieReport
  simp only [hl, hover, List.contains_eq_mem, hnew, decide_false, Bool.not_false, Bool.true_and, ge_iff_le, hnext,
    decide_true, if_true]
  rfl

/-- After its last completion record a launch is over. -/
theorem recordOver_last (h : l.record.count = l.next + 1) : s.recordOver id = s.withoutLaunch id := by
  unfold recordOver
  rw [hl]
  exact if_pos (Nat.le_of_eq h)

section
variable (hnext : inst = l.next) (hholding : l.holding = false) (hreported : s.reported l inst = true)
include hnext hholding hreported

theorem launchCompletionWrite_without (hdone : l.record.done = 0) :
    takes (.launchCompletionWrite id inst) s (s.recordOver id) := by
  show execLaunchCompletionWrite id inst s = _
  unfold execLaunchCompletionWrite
  rw [hnext] at hreported ⊢
  simp only [hl, ne_eq, not_true_eq_false, decide_false, hholding, Bool.or_self, Bool.false_eq_true, if_false,
    hreported, Bool.not_true, hdone, if_true]
  rfl

/-- The record is written where its page lies, and the word is woken. -/
theorem launchCompletionWrite_writes {s1 s2 : State} {pa : Nat} (hdone : l.record.done ≠ 0)
    (hpage : donePage l s = .ok (.ok pa) s1)
    (hperform : performAt (s1.homeAgent l.record.part (s1.steer l.record.part pa)) l.record.part pa
      (maskOf (loc pa % 128) 16) (Machine.placed (loc pa % 128) (l.doneRecord inst)) s1 = .ok () s2) :
    takes (.launchCompletionWrite id inst) s
      ((s2.post (.wakeHome .device l.record.part l.asid.toNat l.record.done.toNat 0)).recordOver id) := by
  show execLaunchCompletionWrite id inst s = _
  unfold execLaunchCompletionWrite
  rw [hnext] at hreported hperform ⊢
  simp only [hl, ne_eq, not_true_eq_false, decide_false, hholding, Bool.or_self, Bool.false_eq_true, if_false,
    hreported, Bool.not_true, hdone]
  refine congrArg done (eventOr_ok (u := ()) ?_)
  simp only [run_bind, hpage, run_get, hperform, run_modify]

end
end

end State
end Sys2Proof.Machine
end

section
/-! SUPPORT. The launch window (R298): the host's writes into its slots and registers, its submissions, and its
commands. -/

namespace Sys2Proof.Machine

/-! ## Bytes of a line (R3, R128) -/

theorem getLsbD_maskOf (o n i : Nat) : (maskOf o n).getLsbD i = (decide (i < 128) && decide (o ≤ i ∧ i < o + n)) := by
  unfold maskOf
  rw [BitVec.getLsbD_ofNat, Nat.testBit_mul_two_pow, Nat.testBit_two_pow_sub_one]
  congr 1
  rw [Bool.eq_iff_iff]
  simp only [Bool.and_eq_true, decide_eq_true_eq]
  omega

/-- A byte of a number laid into a line. -/
theorem byte_placed {o i : Nat} (x : Nat) (h : o + i < 128) :
    (placed o x).extractLsb' (8 * (o + i)) 8 = BitVec.ofNat 8 (x / 256 ^ i) := by
  apply BitVec.eq_of_getLsbD_eq
  intro k hk
  rw [BitVec.getLsbD_extractLsb', BitVec.getLsbD_ofNat, placed, BitVec.getLsbD_ofNat, show 256 = 2 ^ 8 from rfl,
    ← Nat.pow_mul, ← Nat.pow_mul, Nat.testBit_mul_two_pow, Nat.testBit_div_two_pow]
  have h1 : 8 * (o + i) + k < 1024 := by omega
  have h2 : 8 * (o + i) + k - 8 * o = k + 8 * i := by omega
  have h3 : 8 * o ≤ 8 * (o + i) + k := by omega
  simp [h1, h2, h3, hk]

/-- A byte of a word of a line. -/
theorem byte_word (data : LineData) {b : Nat} (j : Nat) (hb : b < 8) :
    ((data.extractLsb' (64 * j) 64).setWidth 1024).extractLsb' (8 * b) 8 = data.extractLsb' (8 * (8 * j + b)) 8 := by
  apply BitVec.eq_of_getLsbD_eq
  intro k hk
  have h1 : 8 * b + k < 64 := by omega
  have h2 : 64 * j + (8 * b + k) = 8 * (8 * j + b) + k := by omega
  have h3 : 8 * b + k < 1024 := by omega
  simp [h1, h2, h3, hk]

/-- The bytes that a mask of `n` bytes from byte `o` names of word `j`, where all of them lie in word `o / 8`. -/
theorem extractLsb_maskOf {o n j : Nat} (hword : o % 8 + n ≤ 8) (hj : j < 16) :
    (maskOf o n).extractLsb' (8 * j) 8 =
      if j = o / 8 then BitVec.ofNat 8 ((2 ^ n - 1) * 2 ^ (o % 8)) else 0#8 := by
  apply BitVec.eq_of_getLsbD_eq
  intro b hb
  rw [BitVec.getLsbD_extractLsb', getLsbD_maskOf]
  split
  · next hj' =>
    rw [BitVec.getLsbD_ofNat, Nat.testBit_mul_two_pow, Nat.testBit_two_pow_sub_one, Bool.eq_iff_iff]
    simp only [Bool.and_eq_true, decide_eq_true_eq]
    omega
  · rw [BitVec.getLsbD_zero, Bool.and_eq_false_iff]
    right
    rw [Bool.and_eq_false_iff]
    right
    rw [decide_eq_false_iff_not]
    omega

namespace State

/-! ## Words of the window (R298) -/

/-- The bytes of one word of the window that a mask names are written: into a slot, or into a register with the others
as they read. -/
def windowWord (s : State) (p o : Nat) (m : BitVec 8) (w : Word) : State :=
  if m = 0 then s
  else if o < 0x8000 then
    s.modPart p fun e => { e with win := { e.win with
      slots := e.win.slots.writeMask o (m.setWidth 128) (w.setWidth 1024) 8 } }
  else
    let old := (s.part p).win.word (s.part p).win.pending o
    s.windowReg p o ((mergeLine (BitVec.ofNat 1024 old) (w.setWidth 1024) (m.setWidth 128)).setWidth 64)

theorem windowWord_none (s : State) (p o : Nat) (w : Word) : s.windowWord p o 0#8 w = s := if_pos rfl

theorem windowWord_slots {s : State} {p o : Nat} {m : BitVec 8} (hm : m ≠ 0#8) (ho : o < 0x8000) (w : Word) :
    ((s.windowWord p o m w).part p).win.slots =
      (s.part p).win.slots.writeMask o (m.setWidth 128) (w.setWidth 1024) 8 ∧
      (s.windowWord p o m w).mem = s.mem ∧ (s.windowWord p o m w).cores = s.cores := by
  rw [windowWord, if_neg (show m ≠ 0 from hm), if_pos ho]
  exact ⟨congrArg (fun e => e.win.slots) (part_setPart_self s p _), rfl, rfl⟩

theorem windowWrite_succ (s : State) (p off : Nat) (mask : LineMask) (data : LineData) (n : Nat) :
    s.windowWrite p off mask data (n + 1) = (s.windowWrite p off mask data n).windowWord p (off + 8 * n)
      (mask.extractLsb' (8 * n) 8) (data.extractLsb' (64 * n) 64) := rfl

/-- A write whose mask names bytes of one word writes that word. -/
theorem windowWrite_word {mask : LineMask} {j : Nat} (h : ∀ i < 16, i ≠ j → mask.extractLsb' (8 * i) 8 = 0#8)
    (s : State) (p off : Nat) (data : LineData) {n : Nat} (hn : n ≤ 16) :
    s.windowWrite p off mask data n =
      if j < n then s.windowWord p (off + 8 * j) (mask.extractLsb' (8 * j) 8) (data.extractLsb' (64 * j) 64) else s := by
  induction n with
  | zero => rfl
  | succ n ih =>
    rw [windowWrite_succ, ih (by omega)]
    by_cases hj : n = j
    · subst hj
      rw [if_neg (by omega), if_pos (by omega)]
    · rw [h n (by omega) hj, windowWord_none]
      by_cases hlt : j < n
      · rw [if_pos hlt, if_pos (by omega)]
      · rw [if_neg hlt, if_neg (by omega)]

/-- A host's write of bytes of one word of the window. -/
theorem windowBytes_word {off n : Nat} (hword : off % 8 + n ≤ 8) (s : State) (p v : Nat) :
    s.windowBytes p off n v = s.windowWord p (off / 8 * 8) (BitVec.ofNat 8 ((2 ^ n - 1) * 2 ^ (off % 8)))
      ((Machine.placed (off % 128) (v % 256 ^ n)).extractLsb' (64 * (off % 128 / 8)) 64) := by
  have hmin : min n (128 - off % 128) = n := by omega
  have hmod : off % 128 % 8 = off % 8 := by omega
  unfold windowBytes
  simp only [hmin, Nat.lt_irrefl, if_false]
  have hmask := fun j hj => extractLsb_maskOf (o := off % 128) (n := n) (j := j) (by omega) hj
  rw [windowWrite_word (j := off % 128 / 8) (fun i hi hne => by rw [hmask i hi, if_neg hne]) s p _ _ (Nat.le_refl 16),
    if_pos (by omega), hmask _ (by omega), if_pos rfl, hmod,
    show off / 128 * 128 + 8 * (off % 128 / 8) = off / 8 * 8 by omega]

/-! ## The host's writes and reads (R297, R298) -/

section
variable {s : State} {p off n : Nat} (hup : s.hostUp = true)
include hup

theorem launchWindowWrite_outside (h : 0x10000 < off + n) (u : Option Word) :
    takes (.launchWindowWrite p off n u) s (s.send .unsupported) := by
  show execLaunchWindowWrite p off n u s = _
  unfold execLaunchWindowWrite
  rw [if_neg (by simp [hup]), if_pos h]
  rfl

theorem launchWindowWrite_reads (h : off + n ≤ 0x10000) :
    takes (.launchWindowWrite p off n none) s (s.send (.readData ((s.part p).win.readNat off n))) := by
  show execLaunchWindowWrite p off n none s = _
  unfold execLaunchWindowWrite
  rw [if_neg (by simp [hup]), if_neg (Nat.not_lt.mpr h)]
  rfl

theorem launchWindowWrite_writes (hword : off % 8 + n ≤ 8) (h : off + n ≤ 0x10000) (v : Word) :
    takes (.launchWindowWrite p off n (some v)) s (s.windowBytes p off n (U v)) := by
  have hmin : min n 8 = n := by omega
  show execLaunchWindowWrite p off n (some v) s = _
  unfold execLaunchWindowWrite
  rw [if_neg (by simp [hup]), if_neg (Nat.not_lt.mpr h)]
  simp only [hmin]
  rfl

end

/-- The launch window's slots are written byte by byte, and nothing else changes. -/
theorem launchWindowWrite_slots {s : State} {p off n : Nat} (hup : s.hostUp = true)
    (hwf : (s.part p).win.slots.wf = true) (hoff : off < 0x8000) (hword : off % 8 + n ≤ 8) (hn : 0 < n) (v : Word) :
    ∃ t, takes (.launchWindowWrite p off n (some v)) s t ∧ t.mem = s.mem ∧ t.cores = s.cores ∧
      (t.part p).win.slots.readNat off n = U v % 256 ^ n ∧
      ∀ b, b < off ∨ off + n ≤ b → (t.part p).win.slots.read b = (s.part p).win.slots.read b := by
  refine ⟨_, launchWindowWrite_writes hup hword (by omega) v, ?_⟩
  rw [windowBytes_word hword]
  have hbits : ∀ b < 8, (BitVec.ofNat 8 ((2 ^ n - 1) * 2 ^ (off % 8))).getLsbD b =
      decide (off % 8 ≤ b ∧ b < off % 8 + n) := fun b hb => by
    rw [BitVec.getLsbD_ofNat, Nat.testBit_mul_two_pow, Nat.testBit_two_pow_sub_one, Bool.eq_iff_iff]
    simp only [Bool.and_eq_true, decide_eq_true_eq]
    omega
  have hmask : BitVec.ofNat 8 ((2 ^ n - 1) * 2 ^ (off % 8)) ≠ 0#8 := fun h0 => by
    have hbit := hbits (off % 8) (by omega)
    rw [h0, BitVec.getLsbD_zero, eq_comm, decide_eq_false_iff_not] at hbit
    omega
  have hwide : ∀ b < 8, ((BitVec.ofNat 8 ((2 ^ n - 1) * 2 ^ (off % 8))).setWidth 128).getLsbD b =
      decide (off % 8 ≤ b ∧ b < off % 8 + n) := fun b hb => by
    rw [BitVec.getLsbD_setWidth, hbits b hb, decide_eq_true (by omega : b < 128), Bool.true_and]
  obtain ⟨hslots, hmem, hcores⟩ := windowWord_slots (s := s) (p := p) (o := off / 8 * 8) hmask (by omega)
    ((Machine.placed (off % 128) (U v % 256 ^ n)).extractLsb' (64 * (off % 128 / 8)) 64)
  rw [hslots]
  refine ⟨hmem, hcores, ?_, fun b hb => ?_⟩
  · have hbytes := Memory.readNat_of_bytes (a := off) (n := n) (v := U v % 256 ^ n) fun i hi => by
      rw [show off + i = off / 8 * 8 + (off % 8 + i) by omega]
      have hbit : off % 8 ≤ off % 8 + i ∧ off % 8 + i < off % 8 + n := by omega
      rw [Memory.read_writeMask_self (n := 8) (j := off % 8 + i) hwf _ _ (by omega)
          ((hwide _ (by omega)).trans (decide_eq_true hbit)), byte_word _ _ (by omega), show 8 * (off % 128 / 8) + (off % 8 + i) = off % 128 + i by omega]
      exact byte_placed _ (by omega)
    rw [hbytes, Nat.mod_mod]
  · refine Memory.read_writeMask_ne _ _ _ 8 fun j hj hmaskj => ?_
    rw [hwide j hj, decide_eq_true_eq] at hmaskj
    omega

theorem setWidth_mergeLine (old : LineData) (w : Word) :
    (mergeLine old (w.setWidth 1024) ((255#8).setWidth 128)).setWidth 64 = w := by
  have hspread : BitVec.ofNat 1024 (spread ((255#8).setWidth 128) 128) = (BitVec.allOnes 64).setWidth 1024 := by
    decide +kernel
  rw [mergeLine, hspread]
  apply BitVec.eq_of_getLsbD_eq
  intro i hi
  have hi' : i < 1024 := by omega
  simp only [BitVec.getLsbD_setWidth, BitVec.getLsbD_or, BitVec.getLsbD_and, BitVec.getLsbD_not, BitVec.getLsbD_allOnes,
    hi, hi', decide_true, Bool.true_and, Bool.and_true, Bool.not_true, Bool.and_false, Bool.false_or]

/-- The access key is written as a register of the window. -/
theorem launchWindowWrite_akey {s : State} {p : Nat} (hup : s.hostUp = true) (v : Word) :
    takes (.launchWindowWrite p 0xB000 8 (some v)) s
      (s.modPart p fun e => { e with win := { e.win with akey := v.extractLsb' 0 6 } }) := by
  refine (launchWindowWrite_writes hup (by omega) (by omega) v).trans (congrArg done ?_)
  have hdata : (Machine.placed (0xB000 % 128) (U v % 256 ^ 8)).extractLsb' (64 * (0xB000 % 128 / 8)) 64 = v := by
    have hv : U v % 256 ^ 8 = v.toNat := Nat.mod_eq_of_lt (toNat_lt_bytes 8 v)
    apply BitVec.eq_of_getLsbD_eq
    intro i hi
    have hi' : i < 1024 := by omega
    rw [hv, BitVec.getLsbD_extractLsb', Machine.placed, BitVec.getLsbD_ofNat]
    simp [hi, hi', BitVec.testBit_toNat]
  rw [windowBytes_word (by omega), hdata]
  show s.windowWord p 0xB000 255#8 v = _
  rw [windowWord, if_neg (by decide), if_neg (by decide)]
  dsimp only
  rw [setWidth_mergeLine]
  rfl

/-! ## Submissions (R298) -/

theorem ldoor_submits {s : State} {p slot : Nat} (hup : s.hostUp = true) (hslot : slot < 512) :
    (aget (s.part p).win.lstat slot = some 0xFF → takes (.ldoor p slot) s s) ∧
    (aget (s.part p).win.lstat slot ≠ some 0xFF → takes (.ldoor p slot) s
      ((s.modPart p fun e => { e with win := { e.win with lstat := aset e.win.lstat slot 0xFF } }).submit
        (.window p slot) p (s.part p).win.lasid ((s.part p).win.slots.readNat (slot * 64) 64))) := by
  have hring : takes (.ldoor p slot) s (s.ring p slot) := by
    show execLdoor p slot s = _
    rw [execLdoor, if_pos hup, Nat.mod_eq_of_lt hslot]
    rfl
  refine ⟨fun h => ?_, fun h => ?_⟩
  · exact hring.trans (congrArg done (if_pos h))
  · exact hring.trans (congrArg done (if_neg h))

theorem takes_of_hostDown {s : State} {p slot off n : Nat} (hup : s.hostUp = false) :
    takes (.ldoor p slot) s s ∧ ∀ u, takes (.launchWindowWrite p off n u) s s := by
  refine ⟨?_, fun u => ?_⟩
  · show execLdoor p slot s = _
    rw [execLdoor, hup]
    rfl
  · show execLaunchWindowWrite p off n u s = _
    unfold execLaunchWindowWrite
    rw [if_pos (by simp [hup])]
    rfl

/-! ## Commands (R298) -/

section
variable {s s1 : State} {p : Nat} {i : Instr} {f : Nat → State → State}

theorem wcmd_none (h : hostWord p (s.setWres p 0xFF) = .ok none s1) : s.wcmd p i f = s1.setWres p 3 :=
  eventOr_ok (u := ()) (by simp only [run_bind, h, run_modify])

theorem wcmd_some {line : Nat} (h : hostWord p (s.setWres p 0xFF) = .ok (some line) s1) : s.wcmd p i f = f line s1 :=
  eventOr_ok (u := ()) (by simp only [run_bind, h, run_modify])

theorem wcmd_err (h : hostWord p (s.setWres p 0xFF) = .error .err s1) : s.wcmd p i f = s1.setWres p 3 :=
  eventOr_err (by simp only [run_bind, h])

theorem wcmd_block {e : Wait} (h : hostWord p (s.setWres p 0xFF) = .error (.block e) s1) :
    s.wcmd p i f = s1.parkOn i e := eventOr_block (by simp only [run_bind, h])

end

/-- The two commands, on a word that is named. -/
theorem wcmd_word {s s1 : State} {p line : Nat} (h : hostWord p (s.setWres p 0xFF) = .ok (some line) s1) :
    let u := (s1.part p).win
    (s1.waits.any (isRegistration p u) = true → takes (.wcmdAdd p) s (s1.setWres p 0) ∧ takes (.wcmdRemove p) s
      { s1.setWres p 0 with waits := s1.waits.filter fun e => !isRegistration p u e }) ∧
    (s1.waits.any (isRegistration p u) = false → takes (.wcmdRemove p) s (s1.setWres p 2) ∧
      (s1.waitRoom p line = true → takes (.wcmdAdd p) s (({ s1.setWres p 0 with
        waits := s1.waits ++ [⟨p, u.wasid, u.wva.toNat, line, .host u.whpa 0⟩] } : State).usedAbroad line)) ∧
      (s1.waitRoom p line = false → takes (.wcmdAdd p) s ((s1.usedAbroad line).setWres p 1))) := by
  intro u
  refine ⟨fun hany => ⟨?_, ?_⟩, fun hany => ⟨?_, fun hroom => ?_, fun hroom => ?_⟩⟩
  · exact congrArg done ((wcmd_some h).trans (if_pos hany))
  · exact congrArg done ((wcmd_some h).trans (if_pos hany))
  · exact congrArg done ((wcmd_some h).trans (if_neg (by rw [hany]; decide)))
  · exact congrArg done ((wcmd_some h).trans ((if_neg (by rw [hany]; decide)).trans (if_pos hroom)))
  · exact congrArg done ((wcmd_some h).trans ((if_neg (by rw [hany]; decide)).trans (if_neg (by rw [hroom]; decide))))

end State
end Sys2Proof.Machine
end

section
open Sys2Proof Sys2Proof.Machine

/-- Settles O53: the submission at its issuer, one lemma per step of a launch, and one per write or command of the
window. -/
theorem launchSteps : Obligations.LaunchSteps := by
  intro s s1 s2 d a raw id die core inst quad p slot pa off n l c v line
  refine ⟨fun hmask => thrLaunch_masked hmask d a, fun hfeat hready => ⟨thrLaunch_misaligned hfeat hready,
    thrLaunch_noRights hfeat hready, ?submit⟩, fun hl => ?steps, ?window⟩
  case submit =>
    intro halign hrights hposted hload hraw t
    have hrun := thrLaunch_submits hfeat hready halign hrights hposted hload
    rw [← asid_pending_seq s1 d] at hrun
    refine ⟨fun hbad => ?_, ?_, fun hgood => ?_⟩
    · exact hrun.trans (congrArg done (submit_bad hbad _ _))
    · rintro (h | h | h | h)
      · exact badRecord_of_count h
      · exact badRecord_of_qlast h
      · exact badRecord_of_part h
      · exact badRecord_of_policy h
    · exact ⟨_, hrun, submit_sent hgood _ _⟩
  case steps =>
    intro r k wait
    obtain ⟨rfl, -⟩ := State.launch_of_find hl
    refine ⟨fun hdone hroom => ⟨fun hmore => ?_, fun hlast hall => ?_⟩, fun hdone hdies hnone hfull => ?_,
      fun hshare hmove => ⟨State.launchShareStart_early hl hshare hmove, fun hopen hclose hruns hhalted =>
        ⟨State.launchShareStart_waits hl hshare hmove hopen hclose hruns hhalted,
          State.launchShareStart_starts hl hshare hmove hopen hclose hruns hhalted⟩⟩,
      State.launchWindowClose_waits hl, fun honly hclosed hcores hnext hcount hshares hmoved => ⟨?_, ?_, ?_⟩,
      State.takes_launchQuadReport hl, State.takes_launchDieReport hl,
      fun hnext hholding hreported => ⟨State.launchCompletionWrite_without hl hnext hholding hreported, fun hcount => ?_,
        State.launchCompletionWrite_writes hl hnext hholding hreported⟩⟩
    · exact (State.takes_launchDieAccept hl hdone).trans (congrArg done (State.checkedBy_waits hl hroom hmore))
    · exact ⟨_, State.takes_launchDieAccept hl hdone, State.checkedBy_accepts hl hroom hlast hall⟩
    · exact (State.takes_launchDieAccept hl hdone).trans (congrArg done (State.checkedBy_refuses hl hdies hnone hfull))
    · exact State.launchWindowClose_skips honly hclosed hcores hnext hcount hshares hmoved
    · exact State.launchWindowClose_keeps honly hclosed hcores hnext hcount hshares hmoved
    · exact State.launchWindowClose_moves honly hclosed hcores hnext hcount hshares hmoved
    · exact State.recordOver_last hl (by rw [hcount, hnext])
  case window =>
    intro w
    exact ⟨State.takes_of_hostDown, State.ldoor_submits, State.launchWindowWrite_slots (v := v),
      fun hup => State.launchWindowWrite_akey hup v,
      fun hup => ⟨State.launchWindowWrite_outside hup, State.launchWindowWrite_reads hup⟩,
      fun h => congrArg done (State.wcmd_none h), State.wcmd_word, fun h => congrArg done (State.wcmd_none h),
      fun h => ⟨congrArg done (State.wcmd_err h), congrArg done (State.wcmd_err h)⟩,
      fun e h => ⟨congrArg done (State.wcmd_block h), congrArg done (State.wcmd_block h)⟩⟩

end

section
/-! SUPPORT. Reservations at the home (R121 to R123, R140 to R147): the head of a line's queue, the releaser's
write-back, the grant and the generation that it advances, the home's part of a release, and the end of a locus in the
LLC. -/

namespace Sys2Proof.Machine
namespace State

/-! ## The head of a queue (R121, R140) -/

/-- A line that comes home leaves the step that waits for it among those tried again. -/
theorem mem_parked_bringHome (s : State) (p line : Nat) (self : Instr) : self ∈ (s.bringHome p line self).parked := by
  have hpark : ∀ t : State, self ∈ (t.park self).parked := fun t => List.mem_append_right _ (List.mem_singleton_self _)
  by_cases hwork : s.atWork p line = true
  · rw [bringHome_of_atWork hwork]
    exact hpark s
  · rw [bringHome, if_neg hwork]
    split
    · exact hpark _
    · split
      · exact hpark _
      · exact hpark s

section
variable {s : State} {p line : Nat} {e : QEntry} {rest : List QEntry}

/-- The state in which the home has acted on the locus for the head of a queue. -/
def headAsked (s : State) (p line : Nat) (e : QEntry) (rest : List QEntry) : State :=
  s.setSync p line { s.syncLine p line with used := true, queue := { e with asked := true } :: rest }

theorem locus_headAsked (s : State) (p line : Nat) (e : QEntry) (rest : List QEntry) :
    ((s.headAsked p line e rest).syncLine p line).locus = (s.syncLine p line).locus :=
  (congrArg SyncLine.locus (syncLine_setSync_self s p line _) :)

variable (hqueue : (s.syncLine p line).queue = e :: rest)
include hqueue

theorem reservationHead_again (hasked : e.asked = true) : takes (.reservationHead ⟨p, line⟩) s s := by
  show execReservationHead ⟨p, line⟩ s = _
  simp only [execReservationHead, hqueue, if_pos hasked]
  rfl

section
variable (hasked : e.asked = false)
include hasked

/-- Before its first acquire a line that is away is brought home. -/
theorem reservationHead_away (hused : (s.syncLine p line).used = false) (hpod : isPodLine line = false)
    (haway : s.isHome p line = false) :
    takes (.reservationHead ⟨p, line⟩) s (s.bringHome p line (.reservationHead ⟨p, line⟩)) := by
  show execReservationHead ⟨p, line⟩ s = _
  simp only [execReservationHead, hqueue, hasked, hused, hpod, haway]
  rfl

theorem reservationHead_acts (hused : (s.syncLine p line).used = true) :
    takes (.reservationHead ⟨p, line⟩) s ((s.headAsked p line e rest).locusAction e.k e.x line e.req) := by
  show execReservationHead ⟨p, line⟩ s = _
  simp only [execReservationHead, hqueue, hasked, hused]
  rfl

end
end

section
variable {s : State} {k l line : Nat} (x : Slot) (req : Nat)

theorem locusAction_none (h : (s.syncLine (partOf k) line).locus = none) :
    s.locusAction k x line req = s.post (.reservationGrant k x ⟨line, req⟩ true) := by
  rw [locusAction, h]

theorem locusAction_own (h : (s.syncLine (partOf k) line).locus = some k) :
    s.locusAction k x line req = s.post (.reservationGrant k x ⟨line, req⟩ false) := by
  rw [locusAction, h]
  exact if_pos rfl

theorem locusAction_other (h : (s.syncLine (partOf k) line).locus = some l) (hne : l ≠ k) :
    s.locusAction k x line req = s.post (.writebackRequest l k x ⟨line, req⟩) := by
  rw [locusAction, h]
  exact if_neg hne

end

/-! ## The releaser (R122, R146) -/

theorem takes_writebackAcknowledgement (s : State) (owner : Nat) (c : Nat × Slot) (a : Ask) :
    takes (.writebackAcknowledgement owner c a) s
      (if s.writeBacksInFlight (coreOf owner) (partOf owner) then s.park (.writebackAcknowledgement owner c a)
        else s.post (.reservationGrant c.1 c.2 a true)) := rfl

/-! ## The grant (R121, R142, R145, R147) -/

theorem acquires_lrw {c : Ctx} {req line pa : Nat} {d : Reg} (h : c.wait = some (.lrw req line pa d)) :
    c.acquires req = true := by
  rw [Ctx.acquires, h]
  exact decide_eq_true rfl

/-- An answer to an acquire that was withdrawn. -/
theorem takes_of_not_acquires {s : State} {k : Nat} {x : Slot} {a : Ask} (h : (s.ctx k x).acquires a.req = false)
    (adv : Bool) : takes (.reservationGrant k x a adv) s s ∧ takes (.generationAdvance k x a) s s := by
  constructor
  · show execReservationGrant k x a adv s = _
    rw [execReservationGrant, h]
    rfl
  · show execGenerationAdvance k x a s = _
    rw [execGenerationAdvance, h]
    rfl

section
variable {s : State} {k : Nat} {x : Slot} {a : Ask} (hacq : (s.ctx k x).acquires a.req = true)
include hacq

theorem reservationGrant_advances (h : s.isGranted (partOf k) a.at_ a.req = false) :
    takes (.reservationGrant k x a true) s
      { s.markGranted (partOf k) a.at_ a.req with
        urgent := (s.markGranted (partOf k) a.at_ a.req).urgent ++ [.generationAdvance k x a] } := by
  show execReservationGrant k x a true s = _
  rw [execReservationGrant, hacq, h]
  rfl

theorem reservationGrant_twice (h : s.isGranted (partOf k) a.at_ a.req = true) :
    takes (.reservationGrant k x a true) s s := by
  show execReservationGrant k x a true s = _
  rw [execReservationGrant, hacq, h]
  rfl

theorem reservationGrant_completes :
    takes (.reservationGrant k x a false) s
      ((s.markGranted (partOf k) a.at_ a.req).acquired k x a.req (.reservationGrant k x a false)) := by
  show execReservationGrant k x a false s = _
  rw [execReservationGrant, hacq]
  rfl

/-- The generation advances once no fill is in flight and no line carries the next stamp (R145). -/
theorem generationAdvance_completes (hfills : ∀ y : Slot, (s.ctx k y).fills = false)
    (hstamp : ∀ l ∈ (s.hwOf (coreOf k)).l1, l.part = partOf k → l.stamp ≠ (s.core k).gen + 1) :
    takes (.generationAdvance k x a) s
      ((s.modCore k fun c => { c with gen := (s.core k).gen + 1 }).acquired k x a.req
        (.reservationGrant k x a false)) := by
  have hidle : ((List.finRange 16).any fun y => (s.ctx k y).fills) = false :=
    List.any_eq_false.mpr fun y _ => by rw [hfills y]; decide
  have hfree : ((s.hwOf (coreOf k)).l1.any fun l => l.part = partOf k && l.stamp = (s.core k).gen + 1) = false :=
    List.any_eq_false.mpr fun l hl => by simpa using hstamp l hl
  show execGenerationAdvance k x a s = _
  simp only [execGenerationAdvance, hacq, hidle, hfree]
  rfl

end

/-- The state in which a `SYN.LRW` has completed: the line is in the core's table, and the context has its value. -/
def reserved (s : State) (k : Nat) (x : Slot) (line : Nat) (d : Reg) (v : Word) : State :=
  (s.modCore k fun c => { c with resv := c.resv ++ [(line, .slot x)] }).finish k x d (v &&& 0x7FFFFFFFFFFFFFFF)

theorem acquired_lrw {s s1 : State} {k req line pa : Nat} {x : Slot} {d : Reg} {v : Word} (self : Instr)
    (hwait : (s.ctx k x).wait = some (.lrw req line pa d)) (hvalue : lineValue (partOf k) pa s = .ok v s1) :
    s.acquired k x req self = s1.reserved k x line d v := by
  rw [acquired, hwait]
  refine (if_pos rfl).trans (eventOr_ok (u := ()) ?_)
  rw [run_bind, hvalue]
  rfl

/-! ## The home's part of a release (R143) -/

theorem scrHomeUpdate_releases {s s1 : State} {k pa : Nat} {x : Slot} {d : Reg} {v : Word}
    (hwrite : writeLlc (s.homeAgent (partOf k) (s.steer (partOf k) pa)) (partOf k) pa (maskOf 0 8)
      (Machine.placed 0 v.toNat) s = .ok () s1)
    (hwait : ((s1.release k (.slot x) (s.steer (partOf k) pa)).ctx k x).wait = some (.scr d)) :
    takes (.scrHomeUpdate k x pa v) s ((s1.release k (.slot x) (s.steer (partOf k) pa)).finish k x d 0) := by
  refine congrArg done (eventOr_ok (u := ()) ?_)
  simp only [run_bind, hwrite, run_modify, hwait]

/-! ## The end of a locus (R121) -/

theorem llcLocusEviction_written {s : State} {p line owner : Nat} (hlocus : (s.syncLine p line).locus = some owner)
    (hwritten : (s.writeBackRc owner).writeBacksInFlight (coreOf owner) (partOf owner) = false) :
    takes (.llcLocusEviction ⟨p, line⟩) s ((s.writeBackRc owner).setSync p line
      { (s.writeBackRc owner).syncLine p line with
        locus := none, used := !((s.writeBackRc owner).syncLine p line).queue.isEmpty }) := by
  show execLlcLocusEviction ⟨p, line⟩ s = _
  simp only [execLlcLocusEviction, hlocus, hwritten]
  rfl

end State
end Sys2Proof.Machine
end

section
open Sys2Proof Sys2Proof.Machine

/-- Settles O29: one lemma per step and per way in which it ends; a grant's two ways meet in the acquire that it
completes. -/
theorem reservationSteps : Obligations.ReservationSteps := by
  intro s s1 k owner x line pa req d v adv granted q p
  refine ⟨fun hqueue => State.reservationHead_again hqueue rfl, fun hqueue => ?head, rfl, fun hflight => ?_,
    fun hflight => ?_, fun hacq => State.takes_of_not_acquires hacq adv, fun hwait => ?grant,
    fun _ => State.scrHomeUpdate_releases, State.llcLocusEviction_written⟩
  case head =>
    intro m asked acts
    have hlocus : (asked.syncLine p line).locus = m.locus :=
      State.locus_headAsked s p line ⟨k, x, req, false, granted⟩ q
    refine ⟨fun hused => ?_, fun hused hpod haway =>
      ⟨_, State.reservationHead_away hqueue rfl hused hpod haway, State.mem_parked_bringHome s p line _⟩⟩
    have hacts := State.reservationHead_acts hqueue rfl hused
    exact ⟨fun h => hacts.trans (congrArg done (State.locusAction_none x req (hlocus.trans h))),
      fun h => hacts.trans (congrArg done (State.locusAction_own x req (hlocus.trans h))),
      fun h hne => hacts.trans (congrArg done (State.locusAction_other x req (hlocus.trans h) hne))⟩
  case grant =>
    intro g
    have hacq := State.acquires_lrw hwait
    refine ⟨State.reservationGrant_advances (a := ⟨line, req⟩) hacq,
      State.reservationGrant_twice (a := ⟨line, req⟩) hacq, fun hvalue => ?_, fun hfills hstamp hvalue => ?_⟩
    · exact (State.reservationGrant_completes (a := ⟨line, req⟩) hacq).trans
        (congrArg done (State.acquired_lrw (s := g) _ hwait hvalue))
    · have hkept := State.ctx_modCore (s := s) (k := k) (x := x)
        (g := fun c => { c with gen := (s.core k).gen + 1 }) fun _ => rfl
      exact (State.generationAdvance_completes (a := ⟨line, req⟩) hacq hfills hstamp).trans
        (congrArg done (State.acquired_lrw _ ((congrArg Ctx.wait hkept).trans hwait) hvalue))
  · exact (State.takes_writebackAcknowledgement s owner (k, x) _).trans
      (congrArg done (if_neg (by rw [hflight]; decide)))
  · exact (State.takes_writebackAcknowledgement s owner (k, x) _).trans (congrArg done (if_pos hflight))

end

section
/-! SUPPORT. Loads and stores by the way their access ends (R125, R131): the checks of the local spaces, loads of the
local memories, and accesses that hit the L1 (R128). -/

namespace Sys2Proof.Machine

/-! ## MEM.LD, MEM.LDS and MEM.ST by the way their access ends -/

section
variable {s t : State} {d a : Reg} {sz : MSize} {sp : Space} {o : BitVec 11} (hready : s.pendingOf [d, a] = false)
include hready

/-- Loads whose read is done give its value, extended (R131). -/
theorem takes_loads_ok {x : Nat}
    (hread : readSpace sp (s.rg a + wrapS (o.toInt * sizeBytes sz)) (sizeBytes sz) s = .ok x t) :
    takes (.memLd d a sz sp o) s (t.result d (wrapU x)) ∧
    takes (.memLds d a sz sp o) s (t.result d (wrapS (BitVec.ofNat (8 * sizeBytes sz) x).toInt)) := by
  constructor
  all_goals
    refine issueM_ok (u := ()) hready ?_
    simp only [run_bind, run_get, memAddr, effAddr]
    rw [hread]
    rfl

theorem takes_loads_trap {c : Nat} {v : Word}
    (hread : readSpace sp (s.rg a + wrapS (o.toInt * sizeBytes sz)) (sizeBytes sz) s = .error (.trap c v) t) :
    takes (.memLd d a sz sp o) s (t.trap c v) ∧ takes (.memLds d a sz sp o) s (t.trap c v) := by
  constructor
  all_goals
    refine issueM_trap hready ?_
    simp only [run_bind, run_get, memAddr, effAddr]
    rw [hread]

theorem takes_loads_block {w : Wait}
    (hread : readSpace sp (s.rg a + wrapS (o.toInt * sizeBytes sz)) (sizeBytes sz) s = .error (.block w) t) :
    takes (.memLd d a sz sp o) s (t.block w) ∧ takes (.memLds d a sz sp o) s (t.block w) := by
  constructor
  all_goals
    refine issueM_block hready ?_
    simp only [run_bind, run_get, memAddr, effAddr]
    rw [hread]

theorem takes_memSt_trap {c : Nat} {v : Word}
    (hwrite : writeSpace sp (s.rg a + wrapS (o.toInt * sizeBytes sz)) (sizeBytes sz)
      (U (s.rg d) % 256 ^ sizeBytes sz) s = .error (.trap c v) t) : takes (.memSt d a sz sp o) s (t.trap c v) := by
  refine issueM_trap hready ?_
  simp only [run_bind, run_get, memAddr, effAddr]
  rw [hwrite]

end

/-! ## The checks of the local spaces (R125) -/

/-- The checks that an access of a space makes before anything else; those of G space come with its translation. -/
def localCheck (sp : Space) (e : Word) (n : Nat) : M Unit :=
  match sp with
  | .g => pure ()
  | .l => checkL e n
  | .o => checkO e n
  | .c => checkC e n

section
variable {s t : State} {d a : Reg} {sz : MSize} {sp : Space} {o : BitVec 11} {e : Word} {n : Nat}

/-- What the checks refuse, neither a read nor a write performs. -/
theorem run_access_refused {r : Stop} (h : localCheck sp e n s = .error r t) (v : Nat) :
    readSpace sp e n s = .error r t ∧ writeSpace sp e n v s = .error r t := by
  cases sp with
  | g => cases h
  | l | o | c =>
    simp only [localCheck] at h
    simp only [readSpace, writeSpace, run_bind, h, and_self]

/-- No load and no store passes a check that traps. -/
theorem takes_refused (hready : s.pendingOf [d, a] = false) {c : Nat} {v : Word}
    (h : localCheck sp (s.rg a + wrapS (o.toInt * sizeBytes sz)) (sizeBytes sz) s = .error (.trap c v) t) :
    ∀ i ∈ [Instr.memLd d a sz sp o, .memLds d a sz sp o, .memSt d a sz sp o], takes i s (t.trap c v) := by
  obtain ⟨hread, hwrite⟩ := run_access_refused h (U (s.rg d) % 256 ^ sizeBytes sz)
  obtain ⟨hld, hlds⟩ := takes_loads_trap hready hread
  intro i hi
  simp only [List.mem_cons, List.not_mem_nil, or_false] at hi
  rcases hi with rfl | rfl | rfl
  · exact hld
  · exact hlds
  · exact takes_memSt_trap hready hwrite

/-- The size of an access divides the size of a local memory, so that the offset of a C-space address is aligned where
the address is. -/
theorem cOff_mod (e : Word) (sz : MSize) : cOff e % sizeBytes sz = U e % sizeBytes sz := by
  rw [cOff_eq]
  exact Nat.mod_mod_of_dvd _ (by cases sz <;> decide)

/-- An address that is no multiple of the size raises cause 0x03 in each local space. -/
theorem run_localCheck_misaligned (h : U e % sizeBytes sz ≠ 0) (hsp : sp ≠ .g) :
    localCheck sp e (sizeBytes sz) s = .error (.trap 0x03 e) s := by
  have hne : (U e % sizeBytes sz != 0) = true := bne_iff_ne.mpr h
  cases sp with
  | g => exact absurd rfl hsp
  | l => exact (run_checkL ..).trans (if_pos hne)
  | o => exact (run_checkO ..).trans (if_pos hne)
  | c => exact (run_checkC ..).trans (if_pos (by rw [cOff_mod]; exact hne))

theorem run_checkL_outside (halign : U e % n = 0) (hout : s.window s.myPart < U e + n) :
    localCheck .l e n s = .error (.trap 0x04 e) s :=
  (run_checkL ..).trans ((if_neg (by simpa using halign)).trans (if_pos hout))

theorem run_checkO_outside (halign : U e % n = 0) (hout : 32768 < U e + n) :
    localCheck .o e n s = .error (.trap 0x04 e) s :=
  (run_checkO ..).trans ((if_neg (by simpa using halign)).trans (if_pos hout))

/-- A C-space address has a core and an offset, and no bit above them. -/
theorem bitsAboveC (he : 2 ^ 37 ≤ U e) : e.extractLsb' 37 27 ≠ 0 := by
  have hlt := e.isLt
  have hne : U e / 2 ^ 37 % 2 ^ 27 ≠ 0 := by
    unfold U at *
    omega
  exact fun h => hne ((toNat_extractLsb' ..).symm.trans (congrArg BitVec.toNat h))

theorem run_checkC_outside (halign : U e % sizeBytes sz = 0)
    (hout : 2 ^ 37 ≤ U e ∨ s.presentCore s.myPart (U e / 2 ^ 19 % 2 ^ 18) = false ∨
      s.window s.myPart < U e % 2 ^ 19 + sizeBytes sz) :
    localCheck .c e (sizeBytes sz) s = .error (.trap 0x04 e) s := by
  refine (run_checkC ..).trans ((if_neg (by rw [cOff_mod, halign]; decide)).trans (if_pos ?_))
  rw [cOff_eq, cCore, toNat_extractLsb', Bool.or_eq_true, Bool.or_eq_true, bne_iff_ne, Bool.not_eq_true',
    decide_eq_true_iff, or_assoc]
  exact hout.imp_left bitsAboveC

end

/-! ## Loads of the local memories (R125, R131) -/

/-- A load of the own local memory takes its bytes from the issuer's part. -/
theorem loadLocal_key (s : State) (off n : Nat) :
    s.loadLocal s.key off n = s.mem.readNat (localLoc s.myCore (s.localBase s.myPart) + off) n :=
  congrArg (s.mem.readNat · n) (localLoc_add ..)

/-- In C space the own core's local memory is read at once. -/
theorem run_readC_own {s : State} {e : Word} {n : Nat} (hown : U e / 2 ^ 19 = s.myCore)
    (hcore : s.presentCore s.myPart s.myCore = true) (halign : U e % 2 ^ 19 % n = 0)
    (hin : U e % 2 ^ 19 + n ≤ s.window s.myPart) :
    readSpace .c e n s = .ok (s.loadLocal s.key (U e % 2 ^ 19) n) s := by
  have hlt : s.myCore < 262144 := by
    simp only [State.presentCore, Bool.and_eq_true, decide_eq_true_eq] at hcore
    exact hcore.1.1.1
  have he : U e < 2 ^ 37 := by omega
  have hkey : keyOf s.myCore s.myPart = s.key := by
    unfold keyOf State.myCore State.myPart State.key coreOf partOf
    omega
  simp only [readSpace, run_bind, run_checkC_ok he (hown ▸ hcore) halign hin, run_get, cCore_eq he, cOff_eq, hown,
    ne_eq, not_true, if_false, run_pure, hkey]

/-! ## Accesses that hit the L1 (R128, R131) -/

section
variable {s : State} {va : Word} {n : Nat} {l : L1Line}

theorem run_readG_noncanonical (h : canonical va = false) : readSpace .g va n s = .error (.trap 0x04 va) s := by
  simp only [readSpace, loadG, run_bind, run_trapIf, h, Bool.not_false, if_true]

theorem run_writeG_noncanonical (h : canonical va = false) (v : Nat) :
    writeSpace .g va n v s = .error (.trap 0x04 va) s := by
  simp only [writeSpace, storeG, run_bind, run_trapIf, h, Bool.not_false, if_true]

theorem headBytes_of_inLine (h : U va % 128 + n ≤ 128) : headBytes va n = n :=
  Nat.min_eq_left (Nat.le_sub_of_add_le' h)

theorem run_loadRoute_hit (hlook : s.l1Look va = some l) (hhit : l.loadHits s.mine.gen (U va % 128) n = true)
    (twin : Option Twin) : loadRoute va n twin s = .ok (.hit l) s := by
  simp only [loadRoute, run_bind, run_get, hlook, hhit, if_true, run_pure]

theorem run_storeRoute_hit (hlook : s.l1Look va = some l) (hwr : l.wr = true) (twin : Option Twin) :
    storeRoute va twin s = .ok (.hit l) s := by
  simp only [storeRoute, run_bind, run_get, hlook, hwr, if_true, run_pure]

/-- No access uses a poisoned line, though a hit reads no memory (R188). -/
theorem run_routeCheck_hit (reads : Bool) : routeCheck va reads (.hit l) s =
    if s.badLine s.myPart l.pa false then .error (.trap 0x0D va) s else .ok () s := run_poisonCheck ..

section
variable (hcanon : canonical va = true) (hline : U va % 128 + n ≤ 128) (hlook : s.l1Look va = some l)
include hcanon hline hlook

theorem run_readG_hit (hhit : l.loadHits s.mine.gen (U va % 128) n = true) : readSpace .g va n s =
    if s.badLine s.myPart l.pa false then .error (.trap 0x0D va) s
    else .ok (sliceNat l.data (U va % 128) n) s := by
  simp only [readSpace, loadG, run_bind, run_trapIf, hcanon, Bool.not_true, Bool.false_eq_true, if_false,
    headBytes_of_inLine hline, if_true, run_loadRoute_hit hlook hhit, run_routeCheck_hit]
  cases s.badLine s.myPart l.pa false <;> rfl

theorem run_writeG_hit (hwr : l.wr = true) (v : Nat) : writeSpace .g va n v s =
    if s.badLine s.myPart l.pa false then .error (.trap 0x0D va) s
    else .ok () (s.setL1 s.myCore
      (l.write s.mine.gen (maskOf (U va % 128) n) (placed (U va % 128) (v % 256 ^ n)))) := by
  simp only [writeSpace, storeG, run_bind, run_trapIf, hcanon, Bool.not_true, Bool.false_eq_true, if_false,
    headBytes_of_inLine hline, if_true, run_storeRoute_hit hlook hwr, run_routeCheck_hit]
  cases s.badLine s.myPart l.pa false <;> rfl

end
end

end Sys2Proof.Machine
end

section
open Sys2Proof Sys2Proof.Machine

/-- Settles O21: one lemma for the read of each local memory, and what a load makes of the value read. -/
theorem loadsFromLocalMemories : Obligations.LoadsFromLocalMemories := by
  intro s d a sz o hready
  refine ⟨fun halign hin => ?own, fun halign hin => takes_loads_ok hready (run_readO halign hin),
    fun hown hcore halign hin => ?cspace⟩
  case own =>
    rw [← loadLocal_key]
    exact takes_loads_ok hready (run_readL halign hin)
  case cspace =>
    rw [← loadLocal_key]
    exact takes_loads_ok hready (run_readC_own hown hcore halign hin)

/-- Settles O23: each clause is a check that traps, and no access passes it. -/
theorem localAccessChecks : Obligations.LocalAccessChecks := by
  intro s d a sz o hready
  refine ⟨fun hodd sp hsp => takes_refused hready (run_localCheck_misaligned hodd ?_),
    fun halign hout => takes_refused hready (run_checkL_outside halign hout),
    fun halign hout => takes_refused hready (run_checkO_outside halign hout),
    fun halign hout => takes_refused hready (run_checkC_outside halign hout)⟩
  rintro rfl
  exact absurd hsp (by decide)

/-- Settles O24: a hit is a read or a write of the line itself, behind the checks of the address and of poison. -/
theorem accessesThatHitTheL1 : Obligations.AccessesThatHitTheL1 := by
  intro s d a sz o l hready
  refine ⟨fun hbad => ⟨(takes_loads_trap hready (run_readG_noncanonical hbad)).1,
      takes_memSt_trap hready (run_writeG_noncanonical hbad _)⟩,
    fun hcanon hline hlook hpoison => ⟨fun hhit => ?_, fun hwr => ?_⟩,
    fun hcanon hline hlook hclean => ⟨fun hhit => ?_, fun hwr => ?_⟩⟩
  · exact takes_loads_trap hready ((run_readG_hit hcanon hline hlook hhit).trans (if_pos hpoison))
  · exact takes_memSt_trap hready ((run_writeG_hit hcanon hline hlook hwr _).trans (if_pos hpoison))
  · exact takes_loads_ok hready ((run_readG_hit hcanon hline hlook hhit).trans (if_neg (by rw [hclean]; decide)))
  · refine takes_memSt_ok hready ((run_writeG_hit hcanon hline hlook hwr _).trans ?_)
    rw [hclean, Nat.mod_mod]
    rfl

/-- Settles O25: one lemma for each way that an access ends. -/
theorem everyAccessIsItsInstruction : Obligations.EveryAccessIsItsInstruction := by
  intro s s1 d a sz sp o hready
  exact ⟨fun x => takes_loads_ok hready, fun c v => takes_loads_trap hready, fun w => takes_loads_block hready,
    fun u => takes_memSt_ok hready, fun c v => takes_memSt_trap hready, fun w => takes_memSt_block hready⟩

end

section
/-! SUPPORT. MEM.ZERO on a line of the L1 that is poisoned (R138, R188). -/

namespace Sys2Proof.Machine

/-- MEM.ZERO of a line that the L1 holds with write allowed writes 128 zero bytes into it, and clears the line's poison
(R138, R188). -/
theorem takes_memZero_hit {s : State} {a : Reg} {l : L1Line} (hready : s.pendingOf [a] = false)
    (halign : U (s.rg a) % 128 = 0) (hcanon : canonical (s.rg a) = true) (hlook : s.l1Look (s.rg a) = some l)
    (hwr : l.wr = true) : takes (.memZero a) s
      ((s.unpoison s.myPart l.pa).setL1 s.myCore (l.write s.mine.gen (BitVec.allOnes 128) 0)).seq := by
  have hlow : ((s.rg a).extractLsb' 0 7 != 0) = false := by
    rw [low_bits, bne_eq_false_iff_eq]
    exact halign
  refine issueM_ok (u := ()) hready ?_
  simp only [run_bind, run_get, run_trapIf, hlow, hcanon, Bool.not_true, Bool.false_eq_true, if_false,
    run_storeRoute_hit hlook hwr]
  rfl

theorem State.poisoned_seq_setL1 (s : State) (c : Nat) (l : L1Line) : (s.setL1 c l).seq.poisoned = s.poisoned := rfl

/-- A line that the L1 of core 0 holds with write allowed. -/
def heldLine : L1Line := ⟨0, 0, 0, 0x21000, .rc, true, 0, 0, 0, 0⟩

/-- Context 0 of core 0 is ready to run, and the line that its L1 holds of address 0 is poisoned. -/
def holdingPoison : State :=
  { State.reset.ready.setL1 0 heldLine with poisoned := [tagOf (lineOf heldLine.pa) 0] }

/-- The poison is gone when the line has been zeroed. -/
theorem poisoned_unpoison_holdingPoison :
    (holdingPoison.unpoison holdingPoison.myPart heldLine.pa).poisoned = [] := by decide +kernel

/-- The lookup of address 0, which g0 reads as, finds the line, poisoned as it is. -/
theorem l1Look_holdingPoison : holdingPoison.l1Look (holdingPoison.rg 0) = some heldLine := by decide +kernel

end Sys2Proof.Machine
end

section
open Sys2Proof Sys2Proof.Machine

/-- Refutes O26: MEM.ZERO of a poisoned line that the L1 holds also clears the line's poison (R188), of which the
statement, asked of every state, says that it stays. -/
theorem not_maintenanceInstructions : ¬ Obligations.MaintenanceInstructions := by
  intro h
  obtain ⟨-, -, -, -, -, -, hzero⟩ := h holdingPoison 0 0 heldLine rfl
  have hkept := hzero rfl rfl l1Look_holdingPoison rfl
  have hcleared := takes_memZero_hit (s := holdingPoison) (a := 0) rfl rfl rfl l1Look_holdingPoison rfl
  have hpoison := congrArg State.poisoned (Host.Outcome.next.inj (hcleared.symm.trans hkept))
  rw [State.poisoned_seq_setL1, State.poisoned_seq_setL1, poisoned_unpoison_holdingPoison] at hpoison
  exact absurd hpoison (by decide)

end

section
/-! SUPPORT. The loss of a module (R155, R188): what each context has lost, the writes that no longer arrive, and that
the rest of the failure adds neither. -/

namespace Sys2Proof.Machine

/-! ## What a context owes and has lost (R133) -/

/-- The homes that owe a context an echo, the writes that it has lost, and the lowest module of those. -/
def Ctx.account (c : Ctx) : List Home × Nat × Nat := (c.posted, c.lost, c.lostMod)

/-- An account when the writes to homes that `lost` selects are lost as writes to module `m`. -/
def accountWithout (lost : Home → Bool) (m : Nat) (b : List Home × Nat × Nat) : List Home × Nat × Nat :=
  let n := (b.1.filter lost).length
  (b.1.filter fun h => !lost h, b.2.1 + n, if n = 0 then b.2.2 else if b.2.1 = 0 then m else min b.2.2 m)

section
variable (lost : Home → Bool) (m : Nat)

theorem accountWithout_of_none {b : List Home × Nat × Nat} (h : b.1.filter lost = []) :
    accountWithout lost m b = b := by
  have hkeep : b.1.filter (fun x => !lost x) = b.1 :=
    List.filter_eq_self.mpr fun x hx => by simpa using List.filter_eq_nil_iff.mp h x hx
  simp [accountWithout, h, hkeep]

/-- Nothing is lost twice. -/
theorem filter_accountWithout (b : List Home × Nat × Nat) : (accountWithout lost m b).1.filter lost = [] := by
  simp [accountWithout, List.filter_filter]

theorem accountWithout_accountWithout (b : List Home × Nat × Nat) :
    accountWithout lost m (accountWithout lost m b) = accountWithout lost m b :=
  accountWithout_of_none lost m (filter_accountWithout lost m b)

end

theorem Ctx.account_wr (c : Ctx) (d : Reg) (v : Word) : (c.wr d v).account = c.account := by
  unfold Ctx.wr
  split <;> rfl

theorem Ctx.account_advance (c : Ctx) (n : Nat) : (c.advance n).account = c.account := by
  unfold Ctx.advance Ctx.endLevel0
  dsimp only
  (repeat' split) <;> rfl

theorem Ctx.account_woken (c : Ctx) : c.woken.account = c.account := rfl

theorem Ctx.account_settled (c : Ctx) : c.settled.account = c.account := rfl

namespace State

/-! ## Steps that post no write and touch no account -/

/-- In `t` every context has the account that it has in `s`, and no posted write is on its way to its home that is not
in `s`. -/
structure KeepsWrites (s t : State) : Prop where
  account : ∀ k x, (t.ctx k x).account = (s.ctx k x).account
  arrivals : ∀ w, Instr.postedWriteArrival w ∈ t.flight → Instr.postedWriteArrival w ∈ s.flight

theorem KeepsWrites.refl (s : State) : s.KeepsWrites s := ⟨fun _ _ => rfl, fun _ => id⟩

theorem KeepsWrites.trans {s t u : State} (h : s.KeepsWrites t) (g : t.KeepsWrites u) : s.KeepsWrites u :=
  ⟨fun k x => (g.account k x).trans (h.account k x), fun w hw => h.arrivals w (g.arrivals w hw)⟩

theorem KeepsWrites.foldl {α : Type} {g : State → α → State} (h : ∀ s a, KeepsWrites s (g s a)) (l : List α)
    (s : State) : s.KeepsWrites (l.foldl g s) := foldl_related KeepsWrites.refl KeepsWrites.trans h l s

/-- A step over neither the cores nor the flight. -/
theorem KeepsWrites.of_eq {s t : State} (hcores : t.cores = s.cores) (hflight : t.flight = s.flight) :
    s.KeepsWrites t := by
  refine ⟨fun k x => ?_, fun w => by rw [hflight]; exact id⟩
  unfold ctx core
  rw [hcores]

theorem keepsWrites_queues (s : State) (u p : List Instr) (r : List (Nat × Slot)) :
    s.KeepsWrites { s with urgent := u, parked := p, retry := r } := .of_eq rfl rfl

theorem keepsWrites_unpark (s : State) : s.KeepsWrites s.unpark := .of_eq rfl rfl

theorem keepsWrites_modDie (s : State) (d : Nat) (f : Die → Die) : s.KeepsWrites (s.modDie d f) := .of_eq rfl rfl

theorem keepsWrites_modReq (s : State) (d p line : Nat) (f : OpenReq → OpenReq) :
    s.KeepsWrites (s.modReq d p line f) := .of_eq rfl rfl

theorem keepsWrites_poison (s : State) (p line : Nat) : s.KeepsWrites (s.poison p line) := .of_eq rfl rfl

theorem keepsWrites_lostLine (s : State) (p line : Nat) :
    s.KeepsWrites (((s.freeEntry p line).clearExported p line).poison p line) := .of_eq rfl rfl

theorem account_modCtx_self (s : State) (k : Nat) (x : Slot) (f : Ctx → Ctx) :
    ((s.modCtx k x f).ctx k x).account = (f (s.ctx k x)).account := congrArg Ctx.account (ctx_setCtx_self ..)

theorem ctx_modCtx_ne (s : State) {k j : Nat} {x y : Slot} (f : Ctx → Ctx) (h : ¬ (j = k ∧ y = x)) :
    (s.modCtx k x f).ctx j y = s.ctx j y := by
  by_cases hj : j = k
  · subst hj
    exact ctx_setCtx_slot s j _ fun hy => h ⟨rfl, hy⟩
  · exact ctx_setCtx_core s x y _ hj

theorem keepsWrites_modCtx (s : State) (k : Nat) (x : Slot) {f : Ctx → Ctx} (hf : ∀ c, (f c).account = c.account) :
    s.KeepsWrites (s.modCtx k x f) := by
  refine ⟨fun j y => ?_, fun _ => id⟩
  by_cases h : j = k ∧ y = x
  · obtain ⟨rfl, rfl⟩ := h
    exact (account_modCtx_self s j y f).trans (hf _)
  · rw [ctx_modCtx_ne s f h]

theorem keepsWrites_raise (s : State) (k n : Nat) : s.KeepsWrites (s.raise k n) :=
  ⟨fun j x => congrArg Ctx.account (ctx_raise s k j n x), fun _ => id⟩

theorem keepsWrites_reply (s : State) (k : Nat) (x : Slot) : s.KeepsWrites (s.reply k x) := by
  unfold reply
  split
  · exact KeepsWrites.refl s
  · exact keepsWrites_modCtx s k x fun _ => rfl
  · exact (keepsWrites_modCtx s k x Ctx.account_woken).trans (keepsWrites_queues _ _ _ _)

theorem keepsWrites_replyAll (s : State) (p : Nat → Wait → Bool) : s.KeepsWrites (s.replyAll p) := by
  unfold replyAll
  refine KeepsWrites.foldl (fun s e => KeepsWrites.foldl (fun s x => ?_) _ s) _ s
  split
  · split
    · exact keepsWrites_reply s _ _
    · exact KeepsWrites.refl s
  · exact KeepsWrites.refl s

theorem keepsWrites_finish (s : State) (k : Nat) (x : Slot) (d : Reg) (v : Word) :
    s.KeepsWrites (s.finish k x d v) := by
  unfold finish
  refine keepsWrites_modCtx s k x fun c => ?_
  dsimp only
  rw [Ctx.account_settled, Ctx.account_advance, Ctx.account_wr, Ctx.account_woken]

theorem keepsWrites_lineArrived (s : State) (d p line : Nat) : s.KeepsWrites (s.lineArrived d p line) :=
  (keepsWrites_replyAll s _).trans (keepsWrites_unpark _)

/-- A posted write on its way to its home. -/
def isArrival : Instr → Bool
  | .postedWriteArrival _ => true
  | _ => false

/-- A step posted that is no write to a home. -/
theorem keepsWrites_post (s : State) {i : Instr} (hi : isArrival i = false) : s.KeepsWrites (s.post i) := by
  refine ⟨fun _ _ => rfl, fun w hw => (List.mem_append.mp hw).resolve_right fun h => ?_⟩
  rw [← List.mem_singleton.mp h] at hi
  cases hi

/-- A message sent that is no write to a home. -/
theorem keepsWrites_emit (s : State) {i : Instr} (hi : isArrival i = false) : s.KeepsWrites (s.emit i) := by
  unfold emit
  split
  · split
    · exact .of_eq rfl rfl
    · exact keepsWrites_post s hi
  · exact keepsWrites_post s hi

theorem keepsWrites_loseSteps (s : State) (gone : Instr → Bool) : s.KeepsWrites (s.loseSteps gone) :=
  ⟨fun _ _ => rfl, fun _ hw => (List.mem_filter.mp hw).1⟩

/-! ## Requests that fail (R188) -/

theorem keepsWrites_sendAgain (s : State) (d : Nat) (q : OpenReq) : s.KeepsWrites (s.sendAgain d q) := by
  unfold sendAgain
  split
  · exact keepsWrites_modReq s d _ _ _
  · refine (keepsWrites_modReq s d _ _ _).trans (keepsWrites_emit _ ?_)
    split <;> rfl

theorem keepsWrites_closeReq (s : State) (d p line : Nat) : s.KeepsWrites (s.closeReq d p line) := by
  have hwaiting (t : State) : t.KeepsWrites (t.sendWaiting d) := by
    unfold sendWaiting
    split
    · exact keepsWrites_sendAgain t d _
    · exact KeepsWrites.refl t
  exact (keepsWrites_modDie s d _).trans (hwaiting _)

theorem keepsWrites_serveOnce (s : State) (d : Nat) (l : LlcLine) (steps : List Instr) :
    s.KeepsWrites (s.serveOnce d l steps) := by
  unfold serveOnce
  refine ((keepsWrites_modDie s d _).trans (KeepsWrites.foldl (fun t c => ?_) (s.waitersOf d l.part l.line) _)).trans
    ((keepsWrites_queues _ _ _ _).trans (keepsWrites_lineArrived _ d _ _))
  split
  · exact keepsWrites_reply t _ _
  · exact keepsWrites_modCtx t _ _ fun _ => rfl

theorem keepsWrites_failReq (s : State) (d : Nat) (q : OpenReq) : s.KeepsWrites (s.failReq d q) :=
  (keepsWrites_closeReq s d _ _).trans (keepsWrites_serveOnce _ d _ _)

theorem keepsWrites_failAck (s : State) (d : Nat) (q : OpenReq) : s.KeepsWrites (s.failAck d q) :=
  ((keepsWrites_modReq s d _ _ _).trans (keepsWrites_serveOnce _ d _ _)).trans (keepsWrites_queues _ _ _ _)

theorem keepsWrites_failData (s : State) (d : Nat) (q : OpenReq) : s.KeepsWrites (s.failData d q) := by
  unfold failData
  dsimp only
  split
  · exact (keepsWrites_failReq s d q).trans (keepsWrites_lostLine _ _ _)
  · exact keepsWrites_failReq s d q

theorem keepsWrites_failOpen (s : State) (gone : Nat → Nat → Bool) (hit : Nat → Bool) (d : Nat) :
    s.KeepsWrites (s.failOpen gone hit d) := by
  unfold failOpen
  refine KeepsWrites.foldl (fun s q => ?_) _ s
  split
  · exact keepsWrites_failReq s d q
  · split
    · exact keepsWrites_failData s d q
    · split
      · exact keepsWrites_failAck s d q
      · exact KeepsWrites.refl s

/-! ## The hub and the directory without the switch (R188) -/

theorem keepsWrites_setBusy (s : State) (b : HubLine) : s.KeepsWrites (s.setBusy b) := by
  unfold setBusy
  split <;> exact .of_eq rfl rfl

theorem keepsWrites_clearHome (s : State) (p line : Nat) (why : HWhy) : s.KeepsWrites (s.clearHome p line why) := by
  unfold clearHome
  split
  · exact (keepsWrites_emit s rfl).trans (keepsWrites_post _ rfl)
  · exact keepsWrites_emit s rfl

theorem keepsWrites_sendHome (s : State) (p line key : Nat) (data : LineData) (clear : Bool) (why : HWhy) :
    s.KeepsWrites (s.sendHome p line key data clear why) := by
  unfold sendHome
  split
  · exact (keepsWrites_emit s rfl).trans (keepsWrites_post _ rfl)
  · exact keepsWrites_emit s rfl

theorem keepsWrites_finishRecall (s : State) (p line : Nat) : s.KeepsWrites (s.finishRecall p line) := by
  unfold finishRecall
  split
  · split
    · dsimp only
      split
      · exact (keepsWrites_setBusy s _).trans (keepsWrites_sendHome _ p line _ _ _ _)
      · exact (keepsWrites_setBusy s _).trans (keepsWrites_clearHome _ p line _)
    · exact KeepsWrites.refl s
  · exact KeepsWrites.refl s

theorem keepsWrites_dropSwitch (s : State) (b : HubLine) : s.KeepsWrites (s.dropSwitch b) := by
  unfold dropSwitch
  split
  · exact KeepsWrites.refl s
  · dsimp only
    split
    · exact ((keepsWrites_loseSteps s _).trans (keepsWrites_setBusy _ _)).trans (keepsWrites_clearHome _ _ _ _)
    · split
      · exact .of_eq rfl rfl
      · exact keepsWrites_setBusy s _
    · exact keepsWrites_setBusy s _

theorem keepsWrites_unwait (s : State) (b : HubLine) : s.KeepsWrites (s.unwait b) := by
  unfold unwait
  split
  · dsimp only
    split
    · exact ((keepsWrites_poison s _ _).trans (keepsWrites_setBusy _ _)).trans (keepsWrites_finishRecall _ _ _)
    · exact (keepsWrites_setBusy s _).trans (keepsWrites_finishRecall _ _ _)
  · exact KeepsWrites.refl s

theorem keepsWrites_unpod (s : State) (t : Nat) (e : DirEntry) : s.KeepsWrites (s.unpod t e) := by
  unfold unpod
  dsimp only
  split
  · exact .of_eq rfl rfl
  · split
    · exact KeepsWrites.refl s
    · split
      · exact (KeepsWrites.foldl (fun s d => keepsWrites_modDie s d _) _ s).trans (keepsWrites_lostLine _ _ _)
      · exact .of_eq rfl rfl

theorem keepsWrites_finishAll (s : State) (l : List (Nat × Slot)) (v : Word) : s.KeepsWrites (s.finishAll l v) := by
  unfold finishAll
  refine KeepsWrites.foldl (fun s e => ?_) l s
  split
  · exact keepsWrites_finish s _ _ _ _
  · exact keepsWrites_finish s _ _ _ _
  · exact KeepsWrites.refl s

theorem keepsWrites_breakEpisodes (s : State) (hit : Nat → Bool) : s.KeepsWrites (s.breakEpisodes hit) :=
  KeepsWrites.trans (t := { s with chans := s.chans.filter fun c => !(c.scope == .pod && hit c.part) }) (.of_eq rfl rfl)
    (KeepsWrites.foldl (fun s (c : SyncChan) => keepsWrites_finishAll s c.arrived 2) _ _)

/-- What follows the loss of writes to a module changes no account and posts no write. -/
theorem keepsWrites_podLost (s : State) (mods : List Nat) (hit : Nat → Bool) :
    s.KeepsWrites (s.podLost mods hit) := by
  have hcopies : s.KeepsWrites (s.withoutCopies mods hit) :=
    ((keepsWrites_loseSteps s _).trans (KeepsWrites.foldl (fun s d => keepsWrites_failOpen s _ _ d) _ _)).trans
      (.of_eq rfl rfl)
  have hswitch (t : State) : t.KeepsWrites (t.withoutSwitch hit) :=
    (KeepsWrites.foldl keepsWrites_dropSwitch _ t).trans (KeepsWrites.foldl keepsWrites_unwait _ _)
  have hpod (t : State) : t.KeepsWrites (t.withoutPod hit) :=
    KeepsWrites.foldl (fun s (e : Nat × DirEntry) => keepsWrites_unpod s e.1 e.2) _ t
  rw [podLost_eq]
  exact (((hcopies.trans (hswitch _)).trans (hpod _)).trans (keepsWrites_breakEpisodes _ hit)).trans
    (KeepsWrites.foldl (fun s _ => keepsWrites_raise s _ _) _ _)

/-! ## The writes that are lost (R155) -/

section
variable (lost : Home → Bool) (m : Nat)

/-- The steps under way without the writes that are lost and their echoes. -/
def withoutWrites (s : State) : State :=
  let keep := fun (i : Instr) =>
    match i with
    | .postedWriteArrival w => !lost w.home
    | .storeEcho _ _ home _ => !lost home
    | _ => true
  { s with flight := s.flight.filter keep, parked := s.parked.filter keep, urgent := s.urgent.filter keep }

/-- Context (k, x) loses its writes, and goes on where it waited for their echoes. -/
def loseAt (s : State) (k : Nat) (x : Slot) : State :=
  let n := ((s.ctx k x).posted.filter lost).length
  if n = 0 then s
  else (s.modCtx k x fun c =>
    { c.loses n m with posted := c.posted.filter fun h => !lost h }).echoesIn k x

/-- The contexts of a core lose their writes. -/
def loseCore (s : State) (k : Nat) : State := (List.finRange 16).foldl (fun s x => s.loseAt lost m k x) s

theorem loseHomes_eq (s : State) : s.loseHomes lost m =
    s.cores.foldl (fun s e => s.loseCore lost m e.1) (s.withoutWrites lost) := rfl

theorem keepsWrites_echoesIn (s : State) (k : Nat) (x : Slot) : s.KeepsWrites (s.echoesIn k x) := by
  unfold echoesIn
  split
  · exact keepsWrites_reply s k x
  · exact KeepsWrites.refl s

theorem account_loseAt_self (s : State) (k : Nat) (x : Slot) :
    ((s.loseAt lost m k x).ctx k x).account = accountWithout lost m (s.ctx k x).account := by
  unfold loseAt
  dsimp only
  split
  next h => exact (accountWithout_of_none lost m (List.length_eq_zero_iff.mp h)).symm
  next => exact ((keepsWrites_echoesIn _ k x).account k x).trans (account_modCtx_self ..)

theorem account_loseAt_ne (s : State) {k j : Nat} {x y : Slot} (h : ¬ (j = k ∧ y = x)) :
    ((s.loseAt lost m k x).ctx j y).account = (s.ctx j y).account := by
  unfold loseAt
  dsimp only
  split
  · rfl
  · rw [(keepsWrites_echoesIn _ k x).account, ctx_modCtx_ne _ _ h]

theorem flight_loseAt (s : State) (k : Nat) (x : Slot) : (s.loseAt lost m k x).flight = s.flight := by
  unfold loseAt echoesIn reply
  dsimp only
  (repeat' split) <;> rfl

/-- What the account of context (k, x) comes to without the writes that are lost. -/
def accountLeft (k : Nat) (x : Slot) (s : State) : List Home × Nat × Nat :=
  accountWithout lost m (s.ctx k x).account

/-- A context may lose its writes early or late: its account comes to the same. -/
theorem accountLeft_loseAt (s : State) (j k : Nat) (y x : Slot) :
    accountLeft lost m k x (s.loseAt lost m j y) = accountLeft lost m k x s := by
  by_cases h : k = j ∧ x = y
  · obtain ⟨rfl, rfl⟩ := h
    rw [accountLeft, account_loseAt_self, accountWithout_accountWithout]
    rfl
  · rw [accountLeft, account_loseAt_ne lost m s h]
    rfl

theorem accountLeft_loseHomes (s : State) (k : Nat) (x : Slot) :
    accountLeft lost m k x (s.loseHomes lost m) = accountLeft lost m k x s := by
  have hcore (t : State) (j : Nat) : accountLeft lost m k x (t.loseCore lost m j) = accountLeft lost m k x t :=
    foldl_keeps (f := accountLeft lost m k x) (fun t y => accountLeft_loseAt lost m t j k y x) _ t
  rw [loseHomes_eq]
  exact foldl_keeps (f := accountLeft lost m k x) (fun t (e : Nat × Core) => hcore t e.1) _ _

theorem flight_loseHomes (s : State) : (s.loseHomes lost m).flight = (s.withoutWrites lost).flight := by
  have hcore (t : State) (k : Nat) : (t.loseCore lost m k).flight = t.flight :=
    foldl_keeps (f := State.flight) (fun t x => flight_loseAt lost m t k x) _ t
  rw [loseHomes_eq]
  exact foldl_keeps (f := State.flight) (fun t (e : Nat × Core) => hcore t e.1) _ _

/-- A context owes nothing to the homes that are lost. -/
def Paid (k : Nat) (x : Slot) (s : State) : Prop := (s.ctx k x).account.1.filter lost = []

theorem paid_of_unlisted {s : State} {k : Nat} (h : aget s.cores k = none) (x : Slot) : Paid lost k x s := by
  have hreset : s.core k = Core.reset := congrArg (Option.getD · Core.reset) h
  have hctx : s.ctx k x = Ctx.reset := by
    rw [ctx, hreset]
    exact Vector.getElem_replicate ..
  rw [Paid, hctx]
  rfl

theorem paid_loseAt_self (s : State) (k : Nat) (x : Slot) : Paid lost k x (s.loseAt lost m k x) := by
  rw [Paid, account_loseAt_self, filter_accountWithout]

theorem paid_loseAt {s : State} (j k : Nat) (y x : Slot) (h : Paid lost k x s) :
    Paid lost k x (s.loseAt lost m j y) := by
  by_cases hjk : k = j ∧ x = y
  · obtain ⟨rfl, rfl⟩ := hjk
    exact paid_loseAt_self lost m s k x
  · rwa [Paid, account_loseAt_ne lost m s hjk]

theorem paid_loseCore (s : State) (k : Nat) (x : Slot) : Paid lost k x (s.loseCore lost m k) :=
  foldl_reaches (P := Paid lost k x) (List.mem_finRange x) (fun t => paid_loseAt_self lost m t k x)
    (fun _ y => paid_loseAt lost m k k y x) s

theorem paid_loseCore_keeps {s : State} (j k : Nat) (x : Slot) (h : Paid lost k x s) :
    Paid lost k x (s.loseCore lost m j) :=
  List.foldlRecOn (motive := Paid lost k x) _ _ h fun _ ht y _ => paid_loseAt lost m j k y x ht

/-- Every context ends without those homes in its account: one that the cores list has lost its writes, and any other
is as at reset. -/
theorem paid_loseHomes (s : State) (k : Nat) (x : Slot) : Paid lost k x (s.loseHomes lost m) := by
  rw [loseHomes_eq]
  cases hc : aget s.cores k with
  | none =>
    exact List.foldlRecOn (motive := Paid lost k x) s.cores (fun s (e : Nat × Core) => s.loseCore lost m e.1)
      (paid_of_unlisted lost (s := s.withoutWrites lost) hc x) fun _ ht e _ => paid_loseCore_keeps lost m e.1 k x ht
  | some c =>
    exact foldl_reaches (P := Paid lost k x) (g := fun s (e : Nat × Core) => s.loseCore lost m e.1) (mem_of_aget hc)
      (fun t => paid_loseCore lost m t k x) (fun _ e => paid_loseCore_keeps lost m e.1 k x) _

theorem account_loseHomes (s : State) (k : Nat) (x : Slot) :
    ((s.loseHomes lost m).ctx k x).account = accountWithout lost m (s.ctx k x).account :=
  (accountWithout_of_none lost m (paid_loseHomes lost m s k x)).symm.trans (accountLeft_loseHomes lost m s k x)

theorem home_of_mem_loseHomes {s : State} {w : Posted}
    (h : Instr.postedWriteArrival w ∈ (s.loseHomes lost m).flight) : lost w.home = false := by
  rw [flight_loseHomes] at h
  simpa using (List.mem_filter.mp h).2

theorem keepsWrites_losing (s : State) : (s.loseHomes lost m).KeepsWrites (s.losing lost m) :=
  (keepsWrites_replyAll _ _).trans (keepsWrites_unpark _)

end

/-! ## A link that stays down (R155, R188) -/

/-- The state in which module `m` is known as one that cannot be reached. -/
def cutFrom (s : State) (m : Nat) : State :=
  { s with unreachable := s.unreachable ++ [m].filter fun m => !s.unreachable.contains m }

theorem takes_linkRecoveryTimeout (s : State) (m : Nat) : takes (.linkRecoveryTimeout m) s
    (((s.cutFrom m).losing (ofModule m) m).podLost [m] (s.cutFrom m).podParts) := rfl

theorem unreachable_cutFrom (s : State) (m : Nat) :
    (s.cutFrom m).unreachable = if m ∈ s.unreachable then s.unreachable else s.unreachable ++ [m] := by
  by_cases h : m ∈ s.unreachable <;> simp [cutFrom, h]

theorem linkRecoveryTimeout_loses (s : State) (m k : Nat) (x : Slot) :
    ∃ t, takes (.linkRecoveryTimeout m) s t ∧
      t.unreachable = (if m ∈ s.unreachable then s.unreachable else s.unreachable ++ [m]) ∧ t.mem = s.mem ∧
      (∀ w, Instr.postedWriteArrival w ∈ t.flight → ofModule m w.home = false) ∧
      (t.ctx k x).account = accountWithout (ofModule m) m (s.ctx k x).account := by
  have hruns := (runs_losing (s.cutFrom m) (ofModule m) m).spares
  have hlost := keeps_podLost ((s.cutFrom m).losing (ofModule m) m) [m] (s.cutFrom m).podParts
  have hwrites := (keepsWrites_losing (ofModule m) m (s.cutFrom m)).trans
    (keepsWrites_podLost _ [m] (s.cutFrom m).podParts)
  exact ⟨_, takes_linkRecoveryTimeout s m,
    hlost.unreachable.trans (hruns.unreachable.trans (unreachable_cutFrom s m)), hlost.mem.trans hruns.mem,
    fun w hw => home_of_mem_loseHomes (ofModule m) m (hwrites.arrivals w hw),
    (hwrites.account k x).trans (account_loseHomes (ofModule m) m (s.cutFrom m) k x)⟩

/-! ## Evictions, recalls and probes (R128, R152, R154) -/

/-- A clean line leaves the L1 and is not written back (R128). -/
theorem evictL1_clean (s : State) (c : Nat) {l : L1Line} (h : l.dirty = 0) : s.evictL1 c l = s.dropL1 c l :=
  congrArg (State.dropL1 · c l) (if_pos h)

/-- A dirty line is written back as it leaves (R128). -/
theorem evictL1_dirty (s : State) (c : Nat) {l : L1Line} (h : l.dirty ≠ 0) : s.evictL1 c l =
    ((s.setL1 c { l with dirty := 0 }).post (s.evictArrival c l)).dropL1 c l :=
  congrArg (State.dropL1 · c l) (if_neg h)

section
variable {s : State} {core part asid vline line k : Nat} {x : Slot}

theorem takes_l1Eviction_miss
    (h : ((s.hwOf core).l1.find? fun l => l.part = part && l.asid.toNat = asid && l.va = vline) = none) :
    takes (.l1Eviction core part asid vline) s s := by
  show execL1Eviction core part asid vline s = _
  rw [execL1Eviction, h]
  rfl

theorem takes_l1Eviction_hit {l : L1Line}
    (h : ((s.hwOf core).l1.find? fun l => l.part = part && l.asid.toNat = asid && l.va = vline) = some l) :
    takes (.l1Eviction core part asid vline) s (s.evictL1 core l) := by
  show execL1Eviction core part asid vline s = _
  rw [execL1Eviction, h]
  rfl

theorem takes_atomicLineRecall_miss (h : ((s.hwOf core).alb.find? fun l => l.line = line) = none) :
    takes (.atomicLineRecall core line) s s := by
  show execAtomicLineRecall core line s = _
  rw [execAtomicLineRecall, h]
  rfl

theorem takes_atomicLineRecall_hit {b : AlbLine} (h : ((s.hwOf core).alb.find? fun l => l.line = line) = some b) :
    takes (.atomicLineRecall core line) s ((s.albDrop core b.part line).albReturn (dieOfCore core) b) := by
  show execAtomicLineRecall core line s = _
  rw [execAtomicLineRecall, h]
  rfl

theorem takes_fenceProbe_waits {c : Scope} (h : (s.ctx k x).wait = some (.fence c)) :
    takes (.fenceProbe k x) s (s.reply k x) := by
  show execFenceProbe k x s = _
  rw [execFenceProbe, h]
  rfl

theorem takes_fenceProbe_late (h : ∀ c, (s.ctx k x).wait ≠ some (.fence c)) : takes (.fenceProbe k x) s s := by
  show execFenceProbe k x s = _
  unfold execFenceProbe
  split
  next c hc => exact absurd hc (h c)
  next => rfl

end

end State
end Sys2Proof.Machine
end

section
open Sys2Proof Sys2Proof.Machine

/-- Settles O30: the steps over one core by what they find there, and the loss of a module by the accounts of its
contexts (`State.linkRecoveryTimeout_loses`). -/
theorem bufferSteps : Obligations.BufferSteps := by
  intro s core part asid vline line m k x
  refine ⟨rfl, ⟨State.takes_l1Eviction_miss, fun l hl => ⟨fun hclean => ?_, fun hdirty => ?_⟩⟩,
    ⟨State.takes_atomicLineRecall_miss, fun b => State.takes_atomicLineRecall_hit⟩,
    fun c => State.takes_fenceProbe_waits, State.takes_fenceProbe_late, ?lost⟩
  · exact (State.takes_l1Eviction_hit hl).trans (congrArg Host.Outcome.next (State.evictL1_clean s core hclean))
  · exact (State.takes_l1Eviction_hit hl).trans (congrArg Host.Outcome.next (State.evictL1_dirty s core hdirty))
  case lost =>
    obtain ⟨t, htakes, hunreachable, hmem, hwrites, haccount⟩ := State.linkRecoveryTimeout_loses s m k x
    refine ⟨t, htakes, hunreachable, hmem, hwrites, ?_, ?_, ?_⟩
    · exact congrArg (fun b => b.2.1) haccount
    · exact congrArg (fun b => b.1) haccount
    · exact congrArg (fun b => b.2.2) haccount

end

section
/-! SUPPORT. Atomics on a line that the issuer's atomic line buffer holds (R151 to R153): the value that each operation
writes, the line that it leaves, and that the access keeps its class while another line leaves the buffer. -/

namespace Sys2Proof.Machine

/-! ## The class of an access while a line leaves the buffer (R140, R152) -/

namespace State

/-- A write of a line at its home changes memory, its keys, what partitions last left there and the choices. -/
theorem writeLine_keeps {β : Type} (f : State → β)
    (h : ∀ (t : State) me ks vs ch, f { t with mem := me, keys := ks, views := vs, choices := ch } = f t)
    (s : State) (line key : Nat) (mask : LineMask) (data : LineData) : f (s.writeLine line key mask data) = f s := by
  obtain ⟨ch, hch⟩ := usedChoice_eq s line key
  obtain ⟨vs, hvs⟩ : ∃ vs, (s.usedChoice line key).keepView line key = { s with choices := ch, views := vs } := by
    rw [hch]
    unfold keepView
    (repeat' split) <;> exact ⟨_, rfl⟩
  simp only [writeLine]
  split
  · exact h s _ _ s.views s.choices
  · rw [hvs]
    exact h s _ _ vs ch

/-- A line that leaves the buffer writes a copy or its home, and may get a locus. -/
theorem albReturn_keeps {β : Type} (f : State → β) (hcopy : ∀ (t : State) d c, f (t.setCopy d c) = f t)
    (hwrite : ∀ (t : State) line key mask data, f (t.writeLine line key mask data) = f t)
    (hlocus : ∀ (t : State) p line k, f (t.setLocus p line k) = f t) (s : State) (d : Nat) (l : AlbLine) :
    f (s.albReturn d l) = f s := by
  have hvalue : f (match s.copyOf (s.agent d l.part l.line) l.part l.line with
      | some c => s.setCopy (s.agent d l.part l.line) { c with data := l.data, st := .m, key := l.key }
      | none => s.writeLine l.line l.key (BitVec.allOnes 128) l.data) = f s := by
    split
    · exact hcopy ..
    · exact hwrite ..
  simp only [albReturn]
  split
  · exact (hlocus ..).trans hvalue
  · exact hvalue

/-- Metadata that keep a line's use keep which lines are synchronisation lines. -/
theorem isSync_setSync {s : State} {p line : Nat} {l : SyncLine} (h : l.used = s.isSync p line) (q m : Nat) :
    (s.setSync p line l).isSync q m = s.isSync q m := by
  by_cases htag : tagOf m q = tagOf line p
  · have hsame : ∀ t : State, t.isSync q m = t.isSync p line := fun t => by
      unfold isSync syncLine
      rw [htag]
    rw [hsame, hsame]
    exact (congrArg SyncLine.used (syncLine_setSync_self s p line l)).trans h
  · unfold isSync setSync syncLine
    dsimp only
    split
    · rw [aget_adel_ne _ htag]
    · rw [aget_aset_ne _ _ htag]

theorem clsAt_congr {s t : State} (hparts : t.parts = s.parts) (hsync : ∀ q m, t.isSync q m = s.isSync q m)
    (p : Nat) (x : Xlated) : t.clsAt p x = s.clsAt p x := by
  have hsteer : t.steer p x.pa = s.steer p x.pa := by
    unfold steer steerPa part
    rw [hparts]
  unfold clsAt
  rw [hsteer, hsync]

/-- The line that a seventeenth sends home keeps the class of every access. -/
theorem clsOf_albTake (s : State) (l : AlbLine) (x : Xlated) : (s.albTake l).clsOf x = s.clsOf x := by
  have hlocus : ∀ (t : State) p line k, (t.setLocus p line k).clsOf x = t.clsOf x := fun t p line k =>
    clsAt_congr (s := t) (t := t.setLocus p line k) rfl (isSync_setSync (s := t) (line := line) rfl) t.myPart x
  have hreturn : ∀ (t : State) d o, (t.albReturn d o).clsOf x = t.clsOf x :=
    albReturn_keeps (fun t => t.clsOf x) (fun _ _ _ => rfl)
      (writeLine_keeps (fun t => t.clsOf x) fun _ _ _ _ _ => rfl) hlocus
  unfold albTake
  dsimp only
  split
  · exact hreturn ..
  · rfl

end State

/-! ## The line that the buffer holds (R26, R151 to R153) -/

/-- A held line after an atomic on byte `o`: the new value of `n` bytes, where there is one, under the key of the
access, and the issuer as the pending locus where the order releases (R26, R153). -/
def State.atomicLine (s : State) (l : AlbLine) (pa n : Nat) (mo : MOrder) (new : Option Nat) : AlbLine :=
  let kept : AlbLine := { l with
    pend := if (mo = .rel ∨ mo = .ar) ∧ s.isSync l.part l.line = false then some s.key else l.pend }
  new.elim kept fun v => { kept with
    key := keyId (s.steerPa s.myPart pa)
    data := mergeLine l.data (Machine.placed (pa % 128) v) (maskOf (pa % 128) n) }

theorem MOrder.releases_iff (mo : MOrder) : MOrder.releases mo = true ↔ mo = .rel ∨ mo = .ar := by
  cases mo <;> decide

section
variable {s : State} {va : Word} {x : Xlated} {l : AlbLine}

theorem run_obtainLine_held {pa : Nat} (h : s.albLine s.myCore s.myPart (s.steer s.myPart pa) = some l) (acq : Bool) :
    obtainLine va pa acq s = .ok l s := by
  unfold State.steer at h
  simp only [obtainLine, run_bind, run_get, h, run_pure]

/-- An atomic on a line that the buffer holds, on an RC or UO page, answers the old bytes. -/
theorem run_atomicAt_held {die : Nat} (hplace : place (loc x.pa) = .dram die)
    (hbad : (s.freshFrame va x).badLine (s.freshFrame va x).myPart x.pa true = false)
    (hcls : (s.freshFrame va x).clsOf x ≠ .so)
    (hheld : (s.freshFrame va x).albLine (s.freshFrame va x).myCore (s.freshFrame va x).myPart
      ((s.freshFrame va x).steer (s.freshFrame va x).myPart x.pa) = some l)
    (n : Nat) (f : Nat → Option Nat) (mo : MOrder) :
    atomicAt va x n f mo s = .ok (sliceNat l.data (x.pa % 128) n) ((s.freshFrame va x).albTake
      ((s.freshFrame va x).atomicLine l x.pa n mo (f (sliceNat l.data (x.pa % 128) n)))) := by
  simp only [atomicAt, run_bind, run_modify, hplace, run_poisonCheck, hbad, Bool.false_eq_true, if_false,
    run_obtainLine_held hheld, run_get, run_pure, State.clsOf_albTake, hcls]
  by_cases hpend : (mo = .rel ∨ mo = .ar) ∧ (s.freshFrame va x).isSync l.part l.line = false
  all_goals
    cases f (sliceNat l.data (x.pa % 128) n) with
    | none => simp [State.atomicLine, MOrder.releases_iff, hpend]
    | some v => simp [State.atomicLine, MOrder.releases_iff, hpend]

end

/-! ## The instructions (R151) -/

section
variable {s s2 : State} {d a b : Reg} {sz : ASize} {mo : MOrder} {x : Xlated}
  (hready : s.pendingOf [d, a, b] = false)
include hready

theorem atomic_misaligned (h : U (s.rg a) % asizeBytes sz ≠ 0) (op : AtmOp) :
    atomic op d a b sz mo s = .next (s.trap 0x03 (s.rg a)) :=
  issueM_trap hready (by simp [h])

/-- An atomic on a held line answers the old value and leaves the line with the new one. -/
theorem atomic_held {die : Nat} {l : AlbLine} (halign : U (s.rg a) % asizeBytes sz = 0)
    (htrans : translate (s.rg a) .atomic s = .ok x s2) (hechoes : s2.me.posted = [])
    (hplace : place (loc x.pa) = .dram die)
    (hbad : (s2.freshFrame (s.rg a) x).badLine (s2.freshFrame (s.rg a) x).myPart x.pa true = false)
    (hcls : (s2.freshFrame (s.rg a) x).clsOf x ≠ .so)
    (hheld : (s2.freshFrame (s.rg a) x).albLine (s2.freshFrame (s.rg a) x).myCore (s2.freshFrame (s.rg a) x).myPart
      ((s2.freshFrame (s.rg a) x).steer (s2.freshFrame (s.rg a) x).myPart x.pa) = some l)
    {op : AtmOp} {new : Option Nat} (hnew : atmApply op (asizeBytes sz) (sliceNat l.data (x.pa % 128) (asizeBytes sz))
      (U (s.rg b) % 256 ^ asizeBytes sz) (U (s.rg d) % 256 ^ asizeBytes sz) = new) :
    atomic op d a b sz mo s = .next (((s2.freshFrame (s.rg a) x).albTake
      ((s2.freshFrame (s.rg a) x).atomicLine l x.pa (asizeBytes sz) mo new)).result d
        (wrapU (sliceNat l.data (x.pa % 128) (asizeBytes sz)))) := by
  subst hnew
  refine issueM_ok (u := ()) hready ?_
  simp [halign, htrans, hechoes, run_atomicAt_held hplace hbad hcls hheld]

end

/-! ## The values written, as numbers (R151) -/

section
variable {n old y c : Nat} (hold : old < 256 ^ n) (hy : y < 256 ^ n)

theorem toNat_ofNat_bytes {v : Nat} (h : v < 256 ^ n) : (BitVec.ofNat (8 * n) v).toNat = v :=
  toNat_ofNat_of_lt (by rwa [Nat.pow_mul])

theorem atmApply_swap (hy : y < 256 ^ n) : atmApply .swap n old y c = some y :=
  congrArg some (toNat_ofNat_bytes hy)

theorem atmApply_cas_same (hy : y < 256 ^ n) (h : old = c) : atmApply .cas n old y c = some y := by
  subst h
  simp [atmApply, atmNew, toNat_ofNat_bytes hy]

theorem atmApply_cas_other (hold : old < 256 ^ n) (hc : c < 256 ^ n) (h : old ≠ c) :
    atmApply .cas n old y c = none := by
  have hne : BitVec.ofNat (8 * n) old ≠ BitVec.ofNat (8 * n) c := fun he =>
    h (by rw [← toNat_ofNat_bytes hold, he, toNat_ofNat_bytes hc])
  simp [atmApply, atmNew, hne]

theorem atmApply_add : atmApply .add n old y c = some ((old + y) % 256 ^ n) := by
  have hpow : 2 ^ (8 * n) = 256 ^ n := Nat.pow_mul 2 8 n
  simp [atmApply, atmNew, hpow]

include hold hy

theorem atmApply_and : atmApply .and n old y c = some (old &&& y) := by
  simp only [atmApply, atmNew, Option.map_some, BitVec.toNat_and, toNat_ofNat_bytes hold, toNat_ofNat_bytes hy]

theorem atmApply_or : atmApply .or n old y c = some (old ||| y) := by
  simp only [atmApply, atmNew, Option.map_some, BitVec.toNat_or, toNat_ofNat_bytes hold, toNat_ofNat_bytes hy]

theorem atmApply_xor : atmApply .xor n old y c = some (old ^^^ y) := by
  simp only [atmApply, atmNew, Option.map_some, BitVec.toNat_xor, toNat_ofNat_bytes hold, toNat_ofNat_bytes hy]

theorem atmApply_min : atmApply .min n old y c =
    some (if (BitVec.ofNat (8 * n) old).toInt ≤ (BitVec.ofNat (8 * n) y).toInt then old else y) := by
  simp only [atmApply, atmNew, Option.map_some, BitVec.sle, decide_eq_true_eq, apply_ite BitVec.toNat,
    toNat_ofNat_bytes hold, toNat_ofNat_bytes hy]

theorem atmApply_max : atmApply .max n old y c =
    some (if (BitVec.ofNat (8 * n) old).toInt ≥ (BitVec.ofNat (8 * n) y).toInt then old else y) := by
  simp only [atmApply, atmNew, Option.map_some, BitVec.sle, decide_eq_true_eq, apply_ite BitVec.toNat,
    toNat_ofNat_bytes hold, toNat_ofNat_bytes hy, ge_iff_le]

theorem atmApply_minu : atmApply .minu n old y c = some (min old y) := by
  simp only [atmApply, atmNew, Option.map_some, BitVec.ule, decide_eq_true_eq, apply_ite BitVec.toNat,
    toNat_ofNat_bytes hold, toNat_ofNat_bytes hy, Nat.min_def]

theorem atmApply_maxu : atmApply .maxu n old y c = some (max old y) := by
  simp only [atmApply, atmNew, Option.map_some, BitVec.ule, decide_eq_true_eq, apply_ite BitVec.toNat,
    toNat_ofNat_bytes hold, toNat_ofNat_bytes hy, Nat.max_comm old y, Nat.max_def]

end

end Sys2Proof.Machine
end

section
open Sys2Proof Sys2Proof.Machine

/-- Settles O27: every atomic is the same step on the held line, with the value that its operation writes. -/
theorem atomicOperations : Obligations.AtomicOperations := by
  intro s s1 s2 d a b sz mo x die l hready n va y
  refine ⟨fun hmis i hi => ?misaligned, ?held⟩
  case misaligned =>
    simp only [List.mem_cons, List.not_mem_nil, or_false] at hi
    rcases hi with rfl | rfl | rfl | rfl | rfl | rfl | rfl | rfl | rfl | rfl
    all_goals exact atomic_misaligned hready hmis _
  case held =>
    intro halign htrans hechoes hplace hfresh hbad hcls hheld o old sg kept into
    subst hfresh
    have hbytes : ∀ v, v % 256 ^ n < 256 ^ n := fun v => Nat.mod_lt v (Nat.pow_pos (by decide))
    have hold : old < 256 ^ n := hbytes _
    have hy : y < 256 ^ n := hbytes _
    have leaves {op : AtmOp} {new : Option Nat} (hnew : atmApply op n old y (U (s.rg d) % 256 ^ n) = new) :
        atomic op d a b sz mo s = .next (((s2.freshFrame va x).albTake
          ((s2.freshFrame va x).atomicLine l x.pa n mo new)).result d (wrapU old)) :=
      atomic_held hready halign htrans hechoes hplace hbad hcls hheld hnew
    have hinto (v : Nat) : into v = ((s2.freshFrame va x).albTake
        ((s2.freshFrame va x).atomicLine l x.pa n mo (some v))).result d (wrapU old) := rfl
    have hkept : (((s2.freshFrame va x).albTake kept).result d (wrapU old)) = ((s2.freshFrame va x).albTake
        ((s2.freshFrame va x).atomicLine l x.pa n mo none)).result d (wrapU old) := rfl
    have writes {op : AtmOp} {v : Nat} (hnew : atmApply op n old y (U (s.rg d) % 256 ^ n) = some v) :
        atomic op d a b sz mo s = .next (into v) := (leaves hnew).trans (congrArg Host.Outcome.next (hinto v).symm)
    refine ⟨writes (atmApply_swap hy), fun hsame => writes (atmApply_cas_same hy hsame), fun hother => ?_,
      writes atmApply_add, writes (atmApply_and hold hy), writes (atmApply_or hold hy), writes (atmApply_xor hold hy),
      writes (atmApply_min hold hy), writes (atmApply_max hold hy), writes (atmApply_minu hold hy),
      writes (atmApply_maxu hold hy)⟩
    exact (leaves (atmApply_cas_other hold (hbytes _) hother)).trans (congrArg Host.Outcome.next hkept.symm)

end

section
/-! SUPPORT. Waiting for a word and waking its waiters (R156, R157): SYN.WAIT and SYN.WAKE at the issuer, the compare at
the home, and which entries a wake removes. -/

namespace Sys2Proof.Machine

/-! ## At the issuer (R156) -/

section
variable {s s1 s2 : State} {d a b : Reg} {c : Scope} {va : Word}

theorem run_waitedWord_misaligned (h : U va % 8 ≠ 0) : waitedWord va s = .error (.trap 0x03 va) s := by
  have hne : (va.extractLsb' 0 3 != 0) = true := (low_bits va 3).trans (bne_iff_ne.mpr h)
  simp only [waitedWord, run_bind, run_trapIf, hne, if_true]

theorem run_waitedWord_notSo {x : Xlated} (halign : U va % 8 = 0) (htrans : translate va .sync s = .ok x s1)
    (hcls : x.cls ≠ .so) : waitedWord va s = .error (.trap 0x04 va) s1 := by
  have heq : (va.extractLsb' 0 3 != 0) = false := (low_bits va 3).trans (bne_eq_false_iff_eq.mpr halign)
  simp only [waitedWord, run_bind, run_trapIf, heq, Bool.false_eq_true, if_false, htrans, decide_eq_true hcls, if_true]

section
variable (hready : s.pendingOf [d, a, b] = false) (hscope : scopeMasked s c = false)
include hready hscope

/-- Neither instruction passes a check of its word that traps. -/
theorem waitAndWake_traps {n : Nat} {v : Word} (h : waitedWord (s.rg a) s = .error (.trap n v) s1) :
    takes (.synWait d a b c) s (s1.trap n v) ∧ takes (.synWake d a b c) s (s1.trap n v) := by
  constructor
  all_goals
    refine (issueScope_unmasked hscope).trans (issueM_trap hready ?_)
    simp only [run_bind, run_get, h]

section
variable {pa : Nat} (hword : waitedWord (s.rg a) s = .ok pa s1) (hechoes : s1.me.posted = [])
  (hfence : fence c s1 = .ok () s2)
include hword hechoes hfence

theorem synWait_sent : takes (.synWait d a b c) s
    ((({ s2 with nextId := s2.nextId + 1 } : State).post
      (.waitHomeCompare s2.key s2.slot (U (s.rg a)) ⟨pa, s2.nextId⟩ (s2.rg b) d)).block (.synCompare s2.nextId)) := by
  refine (issueScope_unmasked hscope).trans (issueM_block hready ?_)
  simp [hword, hechoes, hfence]

theorem synWake_sent : takes (.synWake d a b c) s
    ((s2.post (.wakeHome (.ctx s2.key s2.slot d) s2.myPart s2.me.asid.toNat (U (s.rg a)) (U (s2.rg b)))).block
      (.wake d)) := by
  refine (issueScope_unmasked hscope).trans (issueM_block hready ?_)
  simp [hword, hechoes, hfence]

end
end
end

/-! ## The compare at the home (R156) -/

section
variable {s s1 : State} {k va pa req : Nat} {x : Slot} {expect : Word} {d : Reg} {data : LineData}

theorem waitHomeCompare_late (h : (s.ctx k x).wait ≠ some (.synCompare req)) :
    takes (.waitHomeCompare k x va ⟨pa, req⟩ expect d) s s :=
  congrArg Host.Outcome.next (if_neg h)

/-- A context enters the table as a waiter for a word. -/
def State.waitsAt (s : State) (k : Nat) (x : Slot) (va line : Nat) (d : Reg) : State :=
  { s.modCtx k x fun e => e.blocked (.synWait va d) with
    waits := s.waits ++ [⟨partOf k, (s.ctx k x).asid, va, line, .device k x⟩] }

theorem waitHomeCompare_compares (hwait : (s.ctx k x).wait = some (.synCompare req))
    (hread : readLine (s.homeAgent (partOf k) (s.steer (partOf k) pa)) (partOf k) pa s = .ok data s1) :
    takes (.waitHomeCompare k x va ⟨pa, req⟩ expect d) s
      (if wrapU (sliceNat data (va % 128) 8) ≠ expect then s1.finish k x d 1
        else if s1.waitRoom (partOf k) (s.steer (partOf k) pa) then
          (s1.waitsAt k x va (s.steer (partOf k) pa) d).usedAbroad (s.steer (partOf k) pa)
        else (s1.usedAbroad (s.steer (partOf k) pa)).finish k x d 2) := by
  refine congrArg Host.Outcome.next ((if_pos hwait).trans (eventOr_ok (u := ()) ?_))
  rw [run_bind, hread]
  rfl

end

/-! ## The entries that a wake removes (R157) -/

namespace State

/-- What a wake does for an entry that it removes: a context that still waits there completes with 0. -/
def wakeWaiter (s : State) (e : WaitEntry) : State :=
  match e.who with
  | .device j y =>
    match (s.ctx j y).wait with
    | some (.synWait _ r) => s.finish j y r 0
    | _ => s
  | .host _ _ => s

/-- The state with another table of waiters. -/
def withWaits (s : State) (w : List WaitEntry) : State := { s with waits := w }

@[simp] theorem withWaits_self (s : State) : s.withWaits s.waits = s := rfl
@[simp] theorem withWaits_withWaits (s : State) (v w : List WaitEntry) : (s.withWaits v).withWaits w = s.withWaits w :=
  rfl

theorem wakeWaiter_withWaits (s : State) (e : WaitEntry) (w : List WaitEntry) :
    (s.withWaits w).wakeWaiter e = (s.wakeWaiter e).withWaits w := by
  unfold wakeWaiter
  cases e.who with
  | host => rfl
  | device j y =>
    have hctx : (s.withWaits w).ctx j y = s.ctx j y := rfl
    dsimp only
    rw [hctx]
    split <;> rfl

theorem waits_wakeWaiter (s : State) (e : WaitEntry) : (s.wakeWaiter e).waits = s.waits := by
  have h := congrArg State.waits (wakeWaiter_withWaits s e s.waits)
  exact h

/-- A context that does not wait for a word goes on waiting for what it waits for. -/
theorem wait_wakeWaiter {s : State} {k : Nat} {x : Slot} {d : Reg} (h : (s.ctx k x).wait = some (.wake d))
    (e : WaitEntry) : ((s.wakeWaiter e).ctx k x).wait = some (.wake d) := by
  unfold wakeWaiter
  cases e.who with
  | host => exact h
  | device j y =>
    dsimp only
    split
    next v r hwait =>
      have hother : ¬ (k = j ∧ x = y) := by
        rintro ⟨rfl, rfl⟩
        simp [h] at hwait
      unfold finish
      rw [ctx_modCtx_ne _ _ hother]
      exact h
    next => exact h

section
variable (part asid va max : Nat)

/-- An entry of the word that a wake names. -/
def ofWord (e : WaitEntry) : Bool := e.part = part && e.asid.toNat = asid && e.va = va

/-- The entries of a table that a wake removes once it has removed `n`: those of its word, oldest first, and no more
than it names. -/
def wokenOf (n : Nat) (es : List WaitEntry) : List WaitEntry :=
  if max = 0 then es.filter (ofWord part asid va) else (es.filter (ofWord part asid va)).take (max - n)

variable {part asid va max}

theorem ofWord_iff {e : WaitEntry} :
    ofWord part asid va e = true ↔ e.part = part ∧ e.asid.toNat = asid ∧ e.va = va := by
  simp [ofWord, and_assoc]

theorem wokenOf_other {e : WaitEntry} (h : ofWord part asid va e = false) (n : Nat) (es : List WaitEntry) :
    wokenOf part asid va max n (e :: es) = wokenOf part asid va max n es := by
  simp [wokenOf, h]

theorem wokenOf_taken {e : WaitEntry} (h : ofWord part asid va e = true) {n : Nat} (hroom : max = 0 ∨ n < max)
    (es : List WaitEntry) : wokenOf part asid va max n (e :: es) = e :: wokenOf part asid va max (n + 1) es := by
  by_cases h0 : max = 0
  · simp [wokenOf, h, h0]
  · have hsub : max - n = max - (n + 1) + 1 := by omega
    simp [wokenOf, h, h0, hsub]

theorem wokenOf_full {n : Nat} (hfull : ¬ (max = 0 ∨ n < max)) (es : List WaitEntry) :
    wokenOf part asid va max n es = [] := by
  have h0 : max ≠ 0 := fun h => hfull (.inl h)
  have hsub : max - n = 0 := by omega
  simp [wokenOf, h0, hsub]

theorem wakeDevices_skip {e : WaitEntry} {n : Nat} (h : ¬ (ofWord part asid va e = true ∧ (max = 0 ∨ n < max)))
    (es : List WaitEntry) (s : State) :
    wakeDevices part asid va max (e :: es) n s = wakeDevices part asid va max es n s := by
  cases hwho : e.who with
  | host r m => simp only [wakeDevices, hwho]
  | device j y =>
    have hskip : ¬ (e.part = part ∧ e.asid.toNat = asid ∧ e.va = va ∧ (max = 0 ∨ n < max)) := fun g =>
      h ⟨ofWord_iff.mpr ⟨g.1, g.2.1, g.2.2.1⟩, g.2.2.2⟩
    simp only [wakeDevices, hwho, if_neg hskip]

theorem wakeDevices_take {e : WaitEntry} {n : Nat} (hword : ofWord part asid va e = true) (hroom : max = 0 ∨ n < max)
    (hdev : ∀ r m, e.who ≠ .host r m) (es : List WaitEntry) (s : State) :
    wakeDevices part asid va max (e :: es) n s =
      wakeDevices part asid va max es (n + 1) ((s.withWaits (s.waits.erase e)).wakeWaiter e) := by
  obtain ⟨hpart, hasid, hva⟩ := ofWord_iff.mp hword
  cases hwho : e.who with
  | host r m => exact absurd hwho (hdev r m)
  | device j y =>
    have htake : e.part = part ∧ e.asid.toNat = asid ∧ e.va = va ∧ (max = 0 ∨ n < max) := ⟨hpart, hasid, hva, hroom⟩
    rw [wakeDevices, wakeWaiter, hwho]
    exact if_pos htake

/-- A wake goes through the table, and removes and wakes what it is to wake. -/
theorem wakeDevices_eq {es : List WaitEntry} (hdev : ∀ e ∈ es, ofWord part asid va e = true → ∀ r m, e.who ≠ .host r m)
    (n : Nat) (s : State) : wakeDevices part asid va max es n s =
      ((wokenOf part asid va max n es).foldl wakeWaiter
        (s.withWaits ((wokenOf part asid va max n es).foldl List.erase s.waits)),
        n + (wokenOf part asid va max n es).length) := by
  induction es generalizing n s with
  | nil => simp [wakeDevices, wokenOf]
  | cons e es ih =>
    have ih := ih fun o ho => hdev o (List.mem_cons_of_mem _ ho)
    by_cases hroom : max = 0 ∨ n < max
    · by_cases hword : ofWord part asid va e = true
      · rw [wokenOf_taken hword hroom, wakeDevices_take hword hroom (hdev e List.mem_cons_self hword), ih,
          wakeWaiter_withWaits, withWaits_withWaits, List.foldl_cons, List.foldl_cons, wakeWaiter_withWaits,
          List.length_cons, Nat.add_right_comm]
        rfl
      · rw [wokenOf_other (Bool.not_eq_true _ ▸ hword), wakeDevices_skip fun h => hword h.1, ih]
    · rw [wokenOf_full hroom, wakeDevices_skip fun h => hroom h.2, ih, wokenOf_full hroom]

/-- A wake that meets no registration of the host posts no record. -/
theorem wakeHosts_none {s : State}
    (hdev : ∀ e ∈ s.waits, ofWord part asid va e = true → ∀ r m, e.who ≠ .host r m) :
    s.wakeHosts part asid va = s := by
  have hmap {f : WaitEntry → WaitEntry} (h : ∀ e ∈ s.waits, f e = e) : s.waits.map f = s.waits :=
    (List.map_congr_left h).trans (List.map_id _)
  have hother {e : WaitEntry} (he : e ∈ s.waits) {r : Word} {m : BitVec 32} (hwho : e.who = .host r m) :
      ¬ ofWord part asid va e = true := fun hword => hdev e he hword r m hwho
  unfold wakeHosts
  dsimp only
  rw [hmap, List.filterMap_eq_nil_iff.mpr, List.append_nil]
  · intro e he
    cases hwho : e.who with
    | device j y => rfl
    | host r m => exact if_neg (hother he hwho)
  · intro e he
    cases hwho : e.who with
    | device j y => rfl
    | host r m => exact if_neg (hother he hwho)

end

/-- The state after a wake of a word that removes `woken`. -/
def woke (s : State) (woken : List WaitEntry) : State :=
  woken.foldl wakeWaiter (s.withWaits (s.waits.filter fun e => e ∉ woken))

theorem waits_woke (s : State) (woken : List WaitEntry) : (s.woke woken).waits = s.waits.filter fun e => e ∉ woken :=
  foldl_keeps waits_wakeWaiter woken _

theorem wait_woke {s : State} {k : Nat} {x : Slot} {d : Reg} (h : (s.ctx k x).wait = some (.wake d))
    (woken : List WaitEntry) : ((s.woke woken).ctx k x).wait = some (.wake d) := by
  have hfold : ∀ (l : List WaitEntry) (t : State), (t.ctx k x).wait = some (.wake d) →
      ((l.foldl wakeWaiter t).ctx k x).wait = some (.wake d) := by
    intro l
    induction l with
    | nil => exact fun t ht => ht
    | cons e l ih => exact fun t ht => ih _ (wait_wakeWaiter ht e)
  exact hfold woken _ h

section
variable {s : State} {part asid va max : Nat} (hnodup : s.waits.Nodup)
  (hdev : ∀ e ∈ s.waits, ofWord part asid va e = true → ∀ r m, e.who ≠ .host r m)
include hdev

theorem wakeHosts_woke (woken : List WaitEntry) : (s.woke woken).wakeHosts part asid va = s.woke woken :=
  wakeHosts_none fun e he => hdev e (List.mem_filter.mp (waits_woke s woken ▸ he)).1

include hnodup

/-- No entry stands in the table twice, so that those removed are those that are not kept. -/
theorem wakeDevices_woke : wakeDevices part asid va max s.waits 0 s =
    (s.woke (wokenOf part asid va max 0 s.waits), (wokenOf part asid va max 0 s.waits).length) := by
  rw [wakeDevices_eq hdev, ← List.diff_eq_foldl, hnodup.sdiff_eq_filter, Nat.zero_add]
  rfl

/-- A SYN.WAKE answers how many it woke. -/
theorem wakeHome_answers {k : Nat} {x : Slot} {d : Reg} (hwait : (s.ctx k x).wait = some (.wake d)) :
    takes (.wakeHome (.ctx k x d) part asid va max) s
      ((s.woke (wokenOf part asid va max 0 s.waits)).finish k x d
        (wrapU (wokenOf part asid va max 0 s.waits).length)) := by
  refine congrArg Host.Outcome.next ?_
  rw [wakeDevices_woke hnodup hdev]
  dsimp only
  rw [wakeHosts_woke hdev]
  exact if_pos (wait_woke hwait _)

/-- A wake that the hardware makes answers no one. -/
theorem wakeHome_silent : takes (.wakeHome .device part asid va max) s
    (s.woke (wokenOf part asid va max 0 s.waits)) := by
  refine congrArg Host.Outcome.next ?_
  rw [wakeDevices_woke hnodup hdev]
  exact wakeHosts_woke hdev _

end
end State
end Sys2Proof.Machine
end

section
open Sys2Proof Sys2Proof.Machine

/-- Settles O31: the word's checks and the compare are one case each, and a wake removes the entries of its word in
their order. -/
theorem waitAndWake : Obligations.WaitAndWake := by
  intro s s1 s2 k part asid va n pa line req x d a b c data expect hit
  refine ⟨fun hready hscope hword hechoes hfence => ⟨synWait_sent hready hscope hword hechoes hfence,
      synWake_sent hready hscope hword hechoes hfence⟩,
    fun hready hscope => ⟨fun hmis => waitAndWake_traps hready hscope (run_waitedWord_misaligned hmis),
      fun y halign htrans hcls => waitAndWake_traps hready hscope (run_waitedWord_notSo halign htrans hcls)⟩,
    waitHomeCompare_late, ?compare, fun hnone hwait => ?none, fun hnodup hdev hwait => ?wakes,
    fun y j e hone hasid hwait => ?one⟩
  case compare =>
    intro hwait p home hread word
    have hcompare := waitHomeCompare_compares (va := va) (expect := expect) (d := d) hwait hread
    have hword : wrapU (sliceNat data (va % 128) 8) = word := rfl
    rw [hword] at hcompare
    refine ⟨fun hne => ?_, fun heq hfull => ?_, fun heq hroom => ?_⟩
    · rwa [if_pos hne] at hcompare
    · rwa [if_neg (not_not_intro heq), if_neg (Bool.eq_false_iff.mp hfull)] at hcompare
    · rwa [if_neg (not_not_intro heq), if_pos hroom] at hcompare
  case none =>
    have hwoke := State.wakeHome_answers (s := s) (part := part) (asid := asid) (va := va) (max := n) (k := k) (x := x)
      (d := d) (by simp [hnone]) (by simp [hnone]) hwait
    have hwoken : State.wokenOf part asid va n 0 s.waits = [] := by simp [State.wokenOf, hnone]
    have hsame : s.woke [] = s := by simp [State.woke]
    rwa [hwoken, hsame] at hwoke
  case wakes =>
    intro there woken wake
    have hthere : s.waits.filter (State.ofWord part asid va) = there :=
      List.filter_congr fun e _ => Bool.eq_iff_iff.mpr (State.ofWord_iff.trans (decide_eq_true_iff (p := hit e)).symm)
    have hwoken : State.wokenOf part asid va n 0 s.waits = woken := by
      simp only [State.wokenOf, hthere, woken, Nat.sub_zero]
    have hwoke := State.wakeHome_answers (max := n) hnodup
      (fun e he hword r m => hdev e he r m (State.ofWord_iff.mp hword)) hwait
    rw [hwoken] at hwoke
    exact hwoke
  case one =>
    have hword : State.ofWord part asid va ⟨part, BitVec.ofNat 16 asid, va, line, .device j y⟩ = true :=
      State.ofWord_iff.mpr ⟨rfl, toNat_ofNat_of_lt hasid, rfl⟩
    have hwoken : State.wokenOf part asid va n 0 s.waits = s.waits := by
      rw [hone, State.wokenOf_taken hword (Nat.eq_zero_or_pos n)]
      simp [State.wokenOf]
    have hwoke := State.wakeHome_silent (s := s) (part := part) (asid := asid) (va := va) (max := n) (by simp [hone])
      (by simp [hone])
    have hctx : ((s.withWaits []).ctx j y).wait = some (.synWait va e) := hwait
    have hfinish : s.woke s.waits = (s.withWaits []).finish j y e 0 := by
      simp [State.woke, hone, State.wakeWaiter, hctx]
    rwa [hwoken, hfinish] at hwoke

end

section
/-! SUPPORT. The bytes of a line, one by one (R3, R128): of two lines merged, of a line of memory, and a write of memory
under the mask of one byte. -/

namespace Sys2Proof.Machine

theorem spread_lt (mask : LineMask) (n : Nat) : spread mask n < 2 ^ (8 * n) := by
  induction n with
  | zero => exact Nat.one_pos
  | succ n ih =>
    have hpow : 2 ^ (8 * (n + 1)) = 256 * 2 ^ (8 * n) := by rw [Nat.mul_succ, Nat.pow_add]; omega
    have h256 : 256 ^ n = 2 ^ (8 * n) := (Nat.pow_mul 2 8 n).symm
    rw [spread, hpow, h256]
    split <;> omega

/-- Each bit of a byte mask stands eight times. -/
theorem testBit_spread (mask : LineMask) {n i k : Nat} (hi : i < n) (hk : k < 8) :
    (spread mask n).testBit (8 * i + k) = mask.getLsbD i := by
  induction n with
  | zero => omega
  | succ n ih =>
    have hsum : spread mask (n + 1) = 2 ^ (8 * n) * (if mask.getLsbD n then 2 ^ 8 - 1 else 0) + spread mask n := by
      rw [spread, show 256 ^ n = 2 ^ (8 * n) from (Nat.pow_mul 2 8 n).symm]
      split <;> omega
    rw [hsum, Nat.testBit_two_pow_mul_add _ (spread_lt mask n)]
    split
    next hlt => exact ih (by omega)
    next hge =>
      have hin : i = n := by omega
      subst hin
      rw [Nat.add_sub_cancel_left]
      cases mask.getLsbD i with
      | true => exact (Nat.testBit_two_pow_sub_one 8 k).trans (decide_eq_true hk)
      | false => simp

/-- A byte of two lines merged is the new line's where the mask names it. -/
theorem byte_mergeLine (old new : LineData) (mask : LineMask) {i : Nat} (hi : i < 128) :
    (mergeLine old new mask).extractLsb' (8 * i) 8 =
      if mask.getLsbD i then new.extractLsb' (8 * i) 8 else old.extractLsb' (8 * i) 8 := by
  apply BitVec.eq_of_getLsbD_eq
  intro k hk
  have hlt : 8 * i + k < 1024 := by omega
  have hm : (BitVec.ofNat 1024 (spread mask 128)).getLsbD (8 * i + k) = mask.getLsbD i := by
    rw [BitVec.getLsbD_ofNat, testBit_spread mask hi hk, decide_eq_true hlt, Bool.true_and]
  rw [BitVec.getLsbD_extractLsb', mergeLine, BitVec.getLsbD_or, BitVec.getLsbD_and, BitVec.getLsbD_and,
    BitVec.getLsbD_not, hm, decide_eq_true hk, decide_eq_true hlt]
  cases mask.getLsbD i with
  | true => simp [-BitVec.getLsbD_eq_getElem, hk]
  | false => simp [-BitVec.getLsbD_eq_getElem, hk]

theorem differing_eq_bitsNat (mask : LineMask) (a b : LineData) (n : Nat) : differing mask a b n =
    bitsNat (fun i => mask.getLsbD i && a.extractLsb' (8 * i) 8 != b.extractLsb' (8 * i) 8) n := by
  induction n with
  | zero => rfl
  | succ n ih => rw [differing, ih, bitsNat_succ]

/-- Where the lines differ only in byte `o` if at all, what a job writes again is that byte. -/
theorem getLsbD_rewritten {mask : LineMask} {a b : LineData} {o : Nat}
    (h : ∀ i < 128, i ≠ o → mask.getLsbD i = true → a.extractLsb' (8 * i) 8 = b.extractLsb' (8 * i) 8) {i : Nat}
    (hi : i < 128) : (maskOf o 1 ||| BitVec.ofNat 128 (differing mask a b 128)).getLsbD i = decide (i = o) := by
  rw [BitVec.getLsbD_or, getLsbD_maskOf, BitVec.getLsbD_ofNat, differing_eq_bitsNat, testBit_bitsNat _ hi]
  by_cases hio : i = o
  · subst hio
    simp [hi]
  · have hsame := h i hi hio
    have hnot : decide (o ≤ i ∧ i < o + 1) = false := decide_eq_false (by omega)
    rw [hnot]
    cases hbit : mask.getLsbD i with
    | true => simp [hio, hsame hbit]
    | false => simp [hio]

namespace Memory

theorem readNat_digit (m : Memory) {a n i : Nat} (hi : i < n) :
    m.readNat a n / 256 ^ i % 256 = (m.read (a + i)).toNat := by
  induction n generalizing a i with
  | zero => omega
  | succ n ih =>
    have hlt := (m.read a).isLt
    rw [readNat]
    cases i with
    | zero =>
      rw [Nat.add_zero a, Nat.pow_zero, Nat.div_one]
      omega
    | succ i =>
      have hdiv : ((m.read a).toNat + 256 * m.readNat (a + 1) n) / 256 = m.readNat (a + 1) n := by omega
      rw [Nat.pow_succ', ← Nat.div_div_eq_div_mul, hdiv, ih (by omega), Nat.add_assoc, Nat.add_comm 1 i]

theorem byte_line (m : Memory) (a : Nat) {i : Nat} (hi : i < 128) :
    (m.line a).extractLsb' (8 * i) 8 = m.read (a + i) := by
  apply BitVec.eq_of_toNat_eq
  have hlt := m.readNat_lt a 128
  rw [show 256 = 2 ^ 8 from rfl, ← pow_mul, show 8 * 128 = 1024 from rfl] at hlt
  rw [line, BitVec.extractLsb'_toNat, toNat_ofNat_of_lt (w := 1024) hlt, Nat.shiftRight_eq_div_pow, Nat.pow_mul,
    ← readNat_digit m hi]

theorem readNat_one (m : Memory) (a : Nat) : BitVec.ofNat 8 (m.readNat a 1) = m.read a := by
  simp [readNat]

/-- A write under the mask of one byte writes that byte. -/
theorem writeMask_single (m : Memory) (a : Nat) {mask : LineMask} (data : LineData) {o n : Nat} (ho : o < n)
    (hmask : ∀ i < n, mask.getLsbD i = decide (i = o)) :
    m.writeMask a mask data n = m.write (a + o) (data.extractLsb' (8 * o) 8) := by
  have hbelow : ∀ b, (∀ i < b, mask.getLsbD i = false) → m.writeMask a mask data b = m := by
    intro b
    induction b with
    | zero => exact fun _ => rfl
    | succ b ih =>
      intro h
      rw [writeMask, h b (Nat.lt_succ_self b)]
      exact ih fun i hi => h i (by omega)
  induction n with
  | zero => omega
  | succ n ih =>
    rw [writeMask, hmask n (Nat.lt_succ_self n)]
    by_cases hn : n = o
    · subst hn
      rw [hbelow n fun i hi => (hmask i (by omega)).trans (decide_eq_false (by omega)), decide_eq_true rfl]
      rfl
    · rw [decide_eq_false hn]
      exact ih (by omega) fun i hi => hmask i (by omega)

end Memory
end Sys2Proof.Machine
end

section
/-! SUPPORT. A job on its way (R236, R239): which jobs hold it back, how a step of it ends, and the bytes that a
plain copy between places of local memory moves. -/

namespace Sys2Proof.Machine

/-! ## Conflicts (R236) -/

theorem overlap_iff (a b : Nat × Nat) (m n : Nat) : overlap a b m n = true ↔
    a.1 = b.1 ∧ ∃ o, a.2 ≤ o ∧ o < a.2 + m ∧ b.2 ≤ o ∧ o < b.2 + n := by
  simp only [overlap, Bool.and_eq_true, beq_iff_eq, decide_eq_true_eq]
  constructor
  · rintro ⟨⟨⟨⟨hspace, hm⟩, hn⟩, hab⟩, hba⟩
    exact ⟨hspace, max a.2 b.2, by omega, by omega, by omega, by omega⟩
  · rintro ⟨hspace, o, ha, ha', hb, hb'⟩
    exact ⟨⟨⟨⟨hspace, by omega⟩, by omega⟩, by omega⟩, by omega⟩

theorem conflict_iff (core : Nat) (i j : Job) : conflict core i j = true ↔
    ∃ x ∈ i.card.regions, ∃ y ∈ j.card.regions, (x.write = true ∨ y.write = true) ∧
      (x.extent core i.asid).1 = (y.extent core j.asid).1 ∧
      ∃ b, (x.extent core i.asid).2 ≤ b ∧ b < (x.extent core i.asid).2 + x.len ∧
        (y.extent core j.asid).2 ≤ b ∧ b < (y.extent core j.asid).2 + y.len := by
  simp only [conflict, List.any_eq_true, Bool.and_eq_true, Bool.or_eq_true, overlap_iff]

section
variable {c : Core} {before after : List Job} {j : Job} (hjobs : c.jobs = before ++ j :: after)
  (hbefore : ∀ i ∈ before, i.id ≠ j.id)
include hjobs hbefore

theorem Core.find_job : (c.jobs.find? fun i => i.id = j.id) = some j := by
  rw [hjobs, List.find?_append, List.find?_eq_none.mpr fun i hi => by simpa using hbefore i hi]
  simp

/-- A job that has not left the window is held back by those before it that have not, and that it conflicts with. -/
theorem Core.heldBack_iff (hst : j.st ≠ .leaving) (core : Nat) : c.heldBack core j = true ↔
    ∃ i ∈ before, i.st ≠ .leaving ∧ conflict core i j = true := by
  have hwindow : c.window.takeWhile (fun i => i.id ≠ j.id) = before.filter fun i => i.st ≠ .leaving := by
    rw [Core.window, hjobs, List.filter_append, List.filter_cons_of_pos (by simpa using hst),
      List.takeWhile_append_of_pos fun i hi => by simpa using hbefore i (List.mem_filter.mp hi).1,
      List.takeWhile_cons_of_neg (by simp), List.append_nil]
  rw [Core.heldBack, hwindow, List.any_eq_true]
  simp only [List.mem_filter, decide_eq_true_eq, and_assoc]

end

/-! ## A step of a job -/

section
variable {s t : State} {k id : Nat} {j : Job} {self : Instr} {m : Job → M Unit} {bad : Job → Nat → State → State}
  (hfind : ((s.core k).jobs.find? fun i => i.id = id) = some j)
  (hasking : j.asking = false) (hrefused : j.refused = none)
  (hruns : s.runsOn (partOf k) (dieOfCore (coreOf k)) = true)
include hfind hasking hrefused hruns

theorem State.jobPart_ok {u : Unit} (hm : m j s = .ok u t) : s.jobPart k id self m bad = t := by
  simp [State.jobPart, hfind, hasking, hrefused, hruns, hm]

theorem State.jobPart_trap {c : Nat} {v : Word} (hm : m j s = .error (.trap c v) t) :
    s.jobPart k id self m bad = bad j c t := by
  simp [State.jobPart, hfind, hasking, hrefused, hruns, hm]

theorem State.jobPart_block {w : Wait} (hm : m j s = .error (.block w) t) :
    s.jobPart k id self m bad = t.parkOn self w := by
  simp [State.jobPart, hfind, hasking, hrefused, hruns, hm]

/-- A job that is held back, or that a store of the core comes before, is tried again. -/
theorem jobStart_waits (hst : j.st = .waiting)
    (hheld : (s.core k).heldBack (coreOf k) j = true ∨ s.storesInFlight (coreOf k) = true) :
    takes (.jobStart k id) s (s.park (.jobStart k id)) :=
  congrArg Host.Outcome.next
    (State.jobPart_block (w := .jobRoom) hfind hasking hrefused hruns (by simp [JobSt.active, hst, hheld]))

section
variable (hgoes : j.st = .running ∨ j.st = .waiting ∧ (s.core k).heldBack (coreOf k) j = false ∧
  s.storesInFlight (coreOf k) = false)
include hgoes

/-- A job that is done goes to its end. -/
theorem jobStart_over (hover : j.card.total ≤ j.prog) : takes (.jobStart k id) s
    ((s.modJob k id fun i => { i with st := .running }).jobOn k id) := by
  refine congrArg Host.Outcome.next (State.jobPart_ok (u := ()) hfind hasking hrefused hruns ?_)
  rcases hgoes with hst | ⟨hst, hheld, hstores⟩
  · simp [JobSt.active, hst, Nat.not_lt.mpr hover]
  · simp [JobSt.active, hst, hheld, hstores, Nat.not_lt.mpr hover]

section
variable (hmore : j.prog < j.card.total)
include hmore

/-- A piece that is made is followed by the next, or by the end of the job. -/
theorem jobStart_ok {u : Unit} (h : jobAdvance k j (s.modJob k id fun i => { i with st := .running }) = .ok u t) :
    takes (.jobStart k id) s (t.jobOn k id) := by
  refine congrArg Host.Outcome.next (State.jobPart_ok (u := ()) hfind hasking hrefused hruns ?_)
  rcases hgoes with hst | ⟨hst, hheld, hstores⟩
  · simp [JobSt.active, hst, hmore, h]
  · simp [JobSt.active, hst, hheld, hstores, hmore, h]

theorem jobStart_trap {c : Nat} {v : Word}
    (h : jobAdvance k j (s.modJob k id fun i => { i with st := .running }) = .error (.trap c v) t) :
    takes (.jobStart k id) s { t with urgent := t.urgent ++ [.jobFault k id c] } := by
  refine congrArg Host.Outcome.next (State.jobPart_trap (v := v) hfind hasking hrefused hruns ?_)
  rcases hgoes with hst | ⟨hst, hheld, hstores⟩
  · simp [JobSt.active, hst, hmore, h]
  · simp [JobSt.active, hst, hheld, hstores, hmore, h]

theorem jobStart_block {w : Wait}
    (h : jobAdvance k j (s.modJob k id fun i => { i with st := .running }) = .error (.block w) t) :
    takes (.jobStart k id) s (t.parkOn (.jobStart k id) w) := by
  refine congrArg Host.Outcome.next (State.jobPart_block hfind hasking hrefused hruns ?_)
  rcases hgoes with hst | ⟨hst, hheld, hstores⟩
  · simp [JobSt.active, hst, hmore, h]
  · simp [JobSt.active, hst, hheld, hstores, hmore, h]

end
end
end

/-! ## A plain copy in local memory (R239) -/

/-- A location in local memory is that of its core and offset (R23). -/
theorem eq_localLoc_of_place {a c off : Nat} (h : place a = .lcl c off) : a = localLoc c off := by
  unfold place at h
  unfold localLoc
  dsimp only at h
  (repeat' split at h) <;> cases h
  omega

/-! ### What a job remembers of the lines that it has written (R150) -/

/-- Of the bytes that it remembers, a job remembers what memory holds. -/
def Remembers (m : Memory) (wrote : List (Nat × LineMask × LineData)) : Prop :=
  ∀ line mask data, aget wrote line = some (mask, data) → ∀ i < 128, mask.getLsbD i = true →
    m.read (lineLoc line + i) = data.extractLsb' (8 * i) 8

/-- What a job remembers of a line once it writes a byte there. -/
def remembered (wrote : List (Nat × LineMask × LineData)) (pa v : Nat) : LineMask × LineData :=
  let old := (aget wrote (lineOf pa)).getD (0, 0)
  (old.1 ||| maskOf (loc pa % 128) 1, mergeLine old.2 (placed (loc pa % 128) (v % 256 ^ 1)) (maskOf (loc pa % 128) 1))

section
variable (m : Memory) (wrote : List (Nat × LineMask × LineData)) (pa v : Nat)

theorem getLsbD_maskOf_one {o i : Nat} (hi : i < 128) : (maskOf o 1).getLsbD i = decide (i = o) := by
  rw [getLsbD_maskOf, decide_eq_true hi, Bool.true_and]
  exact decide_eq_decide.mpr (by omega)

theorem line_add_byte : lineLoc (lineOf pa) + loc pa % 128 = loc pa := Nat.div_add_mod' _ _

theorem remembered_byte :
    (remembered wrote pa v).2.extractLsb' (8 * (loc pa % 128)) 8 = BitVec.ofNat 8 v := by
  have ho : loc pa % 128 < 128 := Nat.mod_lt _ (by decide)
  have hplaced := byte_placed (o := loc pa % 128) (i := 0) (v % 256 ^ 1) ho
  rw [Nat.add_zero, Nat.pow_zero, Nat.div_one] at hplaced
  rw [remembered, byte_mergeLine _ _ _ ho, getLsbD_maskOf_one ho, if_pos (decide_eq_true rfl), hplaced]
  exact BitVec.eq_of_toNat_eq (by simp)

variable {m wrote}

theorem remembered_other (h : Remembers m wrote) {i : Nat} (hi : i < 128) (hne : i ≠ loc pa % 128)
    (hmask : (remembered wrote pa v).1.getLsbD i = true) :
    m.read (lineLoc (lineOf pa) + i) = (remembered wrote pa v).2.extractLsb' (8 * i) 8 := by
  have hnot : (maskOf (loc pa % 128) 1).getLsbD i = false :=
    (getLsbD_maskOf_one hi).trans (decide_eq_false hne)
  have hold : ((aget wrote (lineOf pa)).getD (0, 0)).1.getLsbD i = true := by
    rwa [remembered, BitVec.getLsbD_or, hnot, Bool.or_false] at hmask
  rw [remembered, byte_mergeLine _ _ _ hi, hnot, if_neg Bool.false_ne_true]
  cases hget : aget wrote (lineOf pa) with
  | none => simp [hget] at hold
  | some e =>
    rw [hget] at hold
    exact h _ e.1 e.2 hget i hi hold

/-- A byte written is remembered, and what was remembered of other bytes still holds. -/
theorem remembers_write (hwf : m.wf = true) (h : Remembers m wrote) :
    Remembers (m.write (loc pa) (BitVec.ofNat 8 v)) (aset wrote (lineOf pa) (remembered wrote pa v)) := by
  intro line mask data hget i hi hmask
  by_cases hline : line = lineOf pa
  · subst hline
    rw [aget_aset_self, Option.some_inj] at hget
    by_cases hio : i = loc pa % 128
    · rw [hio, line_add_byte, Memory.read_write_self _ _ hwf, ← remembered_byte wrote pa v, hget]
    · rw [Memory.read_write_ne _ _ (by have := line_add_byte pa; omega),
        remembered_other pa v h hi hio (by rw [hget]; exact hmask), hget]
  · rw [aget_aset_ne _ _ hline] at hget
    rw [Memory.read_write_ne _ _ (by unfold lineLoc; unfold lineOf at hline; omega)]
    exact h line mask data hget i hi hmask

end

namespace State

theorem core_modJob (s : State) (k id : Nat) (f : Job → Job) : (s.modJob k id f).core k =
    { s.core k with jobs := (s.core k).jobs.map fun j => if j.id = id then f j else j } :=
  core_setCore_self ..

theorem storeWindow_quiet {s : State} {k : Nat} (hwatches : (s.core k).watches = []) (hring : (s.core k).ring = [])
    (abs : Nat) (mask : LineMask) (data : LineData) : s.storeWindow k abs mask data =
      { s with mem := s.mem.writeMask (localLoc (coreOf k) abs) mask data 128 } := by
  have hcore : ∀ m : Machine.Memory, ({ s with mem := m } : State).core k = s.core k := fun _ => rfl
  have hspoil : ∀ m : Machine.Memory, ∀ o, ({ s with mem := m } : State).spoilRing k o 128 = { s with mem := m } :=
    fun m o => if_neg (by simp [hcore, hring])
  simp only [storeWindow, hspoil, hcore, hwatches, List.foldl_nil]

/-- A core that no watch and no ring makes look at its stores has a job in its window that remembers what memory
holds. -/
structure Copying (s : State) (k : Nat) (before after : List Job) (j : Job) : Prop where
  jobs : (s.core k).jobs = before ++ j :: after
  unwatched : (s.core k).watches = []
  noRing : (s.core k).ring = []
  wf : s.mem.wf = true
  wrote : Remembers s.mem j.wrote

section
variable {k : Nat} {before after : List Job}

theorem map_other {id : Nat} {f : Job → Job} {l : List Job} (h : ∀ i ∈ l, i.id ≠ id) :
    (l.map fun i => if i.id = id then f i else i) = l :=
  (List.map_congr_left fun i hi => if_neg (h i hi)).trans (List.map_id _)

theorem jobs_modJob {s : State} {id : Nat} {j : Job} (hid : j.id = id) (hbefore : ∀ i ∈ before, i.id ≠ id)
    (hafter : ∀ i ∈ after, i.id ≠ id) (hjobs : (s.core k).jobs = before ++ j :: after) (f : Job → Job) :
    ((s.modJob k id f).core k).jobs = before ++ f j :: after := by
  rw [core_modJob, hjobs, List.map_append, List.map_cons, map_other hbefore, map_other hafter, if_pos hid]

section
variable {s : State} {j : Job} (h : s.Copying k before after j) (hbefore : ∀ i ∈ before, i.id ≠ j.id)
include h hbefore

theorem jobBytesOf_byte (pa v : Nat) :
    s.jobBytesOf k j.id (lineOf pa) (maskOf (loc pa % 128) 1) (Machine.placed (loc pa % 128) (v % 256 ^ 1)) =
      remembered j.wrote pa v := by
  rw [jobBytesOf, Core.find_job h.jobs hbefore]
  rfl

/-- A byte that a job writes to local memory is all that it changes there (R150). -/
theorem jobMerge_byte {pa off : Nat} (hplace : place (loc pa) = .lcl (coreOf k) off) (v : Nat) :
    s.jobMerge k j.id pa 1 v =
      { s.modJob k j.id fun i => { i with wrote := aset i.wrote (lineOf pa) (remembered j.wrote pa v) } with
        mem := s.mem.write (loc pa) (BitVec.ofNat 8 v) } := by
  have hloc := eq_localLoc_of_place hplace
  have hkey : keyOf (coreOf k) (partOf k) = k := by
    unfold keyOf coreOf partOf
    omega
  have hbyte : localLoc (coreOf k) (off / 128 * 128) + loc pa % 128 = loc pa := by
    unfold localLoc at hloc ⊢
    omega
  have hmask : ∀ i < 128, (maskOf (loc pa % 128) 1 ||| BitVec.ofNat 128
      (differing (remembered j.wrote pa v).1 (s.memLine (lineOf pa)) (remembered j.wrote pa v).2 128)).getLsbD i =
        decide (i = loc pa % 128) := fun i hi =>
    getLsbD_rewritten (fun i hi hne hbit =>
      (Memory.byte_line _ _ hi).trans (remembered_other pa v h.wrote hi hne hbit)) hi
  have hcore := core_modJob s k j.id fun i => { i with wrote := aset i.wrote (lineOf pa) (remembered j.wrote pa v) }
  simp only [jobMerge, jobBytesOf_byte h hbefore, hplace, hkey]
  rw [storeWindow_quiet (by rw [hcore]; exact h.unwatched) (by rw [hcore]; exact h.noRing),
    Memory.writeMask_single _ _ _ (Nat.mod_lt _ (by decide)) hmask, hbyte, remembered_byte]
  rfl

variable (hafter : ∀ i ∈ after, i.id ≠ j.id)
include hafter

/-- The job goes on with a byte written and counted. -/
theorem copying_byte {pa off : Nat} (hplace : place (loc pa) = .lcl (coreOf k) off) (v : Nat) :
    ((s.jobMerge k j.id pa 1 v).jobWritten k j.id 1).Copying k before after
      { j with prog := j.prog + 1, wrote := aset j.wrote (lineOf pa) (remembered j.wrote pa v) } := by
  rw [jobMerge_byte h hbefore hplace]
  have hcore : ∀ (t : State) (m : Machine.Memory), ({ t with mem := m } : State).core k = t.core k := fun _ _ => rfl
  have hmerged := jobs_modJob rfl hbefore hafter h.jobs fun i =>
    { i with wrote := aset i.wrote (lineOf pa) (remembered j.wrote pa v) }
  exact {
    jobs := by
      rw [jobWritten, core_modJob, hcore, hmerged, List.map_append, List.map_cons, map_other hbefore, map_other hafter]
      exact congrArg (before ++ · :: after) (if_pos rfl)
    unwatched := by rw [jobWritten, core_modJob, hcore, core_modJob]; exact h.unwatched
    noRing := by rw [jobWritten, core_modJob, hcore, core_modJob]; exact h.noRing
    wf := Memory.wf_write _ _ h.wf
    wrote := remembers_write pa v h.wf h.wrote }

end
end
end State
end Sys2Proof.Machine
end

section
/-! SUPPORT. The piece of a plain copy between places of local memory (R239). -/

namespace Sys2Proof.Machine

/-! ## The bytes of a piece -/

/-- Where byte `off` of the own local memory lies. -/
def State.ownByte (s : State) (k off : Nat) : Nat := localLoc (coreOf k) (s.localBase (partOf k)) + off

/-- A byte of memory moved. -/
def moveByte (src dst : Nat → Nat) (m : Memory) (q : Nat) : Memory := m.write (dst q) (m.read (src q))

theorem run_jobRead_own {s : State} {k : Nat} {j : Job} {e : Word} {n : Nat} (hin : U e + n ≤ s.window (partOf k)) :
    jobRead k j .l e n s = .ok (s.mem.readNat (s.ownByte k (U e)) n) s := by
  have hload : s.loadLocal k (U e) n = s.mem.readNat (s.ownByte k (U e)) n :=
    congrArg (s.mem.readNat · n) (localLoc_add ..)
  have hrun : jobRead k j .l e n s = .ok (s.loadLocal k (U e) n) s := by
    simp only [jobRead, run_bind, run_get, trapIf, Nat.not_lt.mpr hin, decide_false, Bool.false_eq_true, if_false]
    rfl
  exact hrun.trans (by rw [hload])

theorem State.jobStore_own (s : State) (k id r rot off v : Nat) :
    s.jobStore k id r rot 1 v (.l k off) = s.jobMerge k id (s.ownByte k off) 1 v := by
  have hone : min 1 (128 - off % 128) = 1 := by omega
  have hput : s.jobPut k id 1 v (.l k off) = s.jobMerge k id (s.ownByte k off) 1 v :=
    congrArg (s.jobMerge k id · 1 v) (localLoc_add ..)
  rw [State.jobStore, hone]
  exact hput

/-- The state once a job has written byte `off` of the own local memory. -/
def State.byteDone (s : State) (k : Nat) (i : Job) (off v : Nat) : State :=
  (s.jobMerge k i.id (s.ownByte k off) 1 v).jobWritten k i.id 1

section
variable {s : State} {k : Nat} {before after : List Job} {i : Job}
  (h : s.Copying k before after i) (hbefore : ∀ x ∈ before, x.id ≠ i.id)
  {off : Nat} (v : Nat)
  (hplace : place (loc (s.ownByte k off)) = .lcl (coreOf k) (s.localBase (partOf k) + off))
include h hbefore hplace

theorem State.byteDone_eq : s.byteDone k i off v = ({ s.modJob k i.id fun i' => { i' with
    wrote := aset i'.wrote (lineOf (s.ownByte k off)) (remembered i.wrote (s.ownByte k off) v) } with
      mem := s.mem.write (s.ownByte k off) (BitVec.ofNat 8 v) } : State).jobWritten k i.id 1 := by
  have hloc : loc (s.ownByte k off) = s.ownByte k off :=
    (eq_localLoc_of_place hplace).trans (localLoc_add ..)
  rw [State.byteDone, State.jobMerge_byte h hbefore hplace, hloc]

theorem State.byteDone_mem : (s.byteDone k i off v).mem = s.mem.write (s.ownByte k off) (BitVec.ofNat 8 v) := by
  rw [byteDone_eq h hbefore v hplace]
  rfl

theorem State.byteDone_parts : (s.byteDone k i off v).parts = s.parts := by
  rw [byteDone_eq h hbefore v hplace]
  rfl

end
/-- Where the partition's configuration stays, its local memories stay where they are. -/
theorem State.ownByte_of_parts {s t : State} (h : t.parts = s.parts) (k off : Nat) :
    t.ownByte k off = s.ownByte k off := by
  simp only [State.ownByte, localBase, cfg, part, h]

theorem State.window_of_parts {s t : State} (h : t.parts = s.parts) (p : Nat) : t.window p = s.window p := by
  simp only [window, cfg, part, h]

section
variable {k : Nat} {j : Job} {p : Piece} {before after : List Job} {off : Nat}
  (hspace : (j.card.region 0).space = .l)
  (hbefore : ∀ x ∈ before, x.id ≠ j.id) (hafter : ∀ x ∈ after, x.id ≠ j.id)
include hspace hbefore hafter

/-- The bytes of a piece are moved one after another, each read when those before it are written (R239). -/
theorem jobBytes_moves {s : State} {i : Job} {m : Nat} (h : s.Copying k before after i) (hid : i.id = j.id)
    (hm : m ≤ p.n)
    (hsrc : ∀ q < p.n, U (p.src + BitVec.ofNat 64 q) + 1 ≤ s.window (partOf k))
    (hplace : ∀ q < p.n, place (loc (s.ownByte k (off + q))) =
      .lcl (coreOf k) (s.localBase (partOf k) + (off + q))) :
    ∃ t w, jobBytes k j p (.l k off) m s = .ok () t ∧
      t.Copying k before after { i with prog := i.prog + m, wrote := w } ∧
      t.mem = (List.range' (p.n - m) m).foldl (moveByte (fun q => s.ownByte k (U (p.src + BitVec.ofNat 64 q)))
        fun q => s.ownByte k (off + q)) s.mem := by
  induction m generalizing s i with
  | zero => exact ⟨s, i.wrote, rfl, h, rfl⟩
  | succ m ih =>
    have hq : p.n - (m + 1) < p.n := by omega
    set q := p.n - (m + 1) with hqdef
    set v := s.mem.readNat (s.ownByte k (U (p.src + BitVec.ofNat 64 q))) 1 with hv
    have hbefore' : ∀ x ∈ before, x.id ≠ i.id := hid ▸ hbefore
    have hafter' : ∀ x ∈ after, x.id ≠ i.id := hid ▸ hafter
    have hparts := State.byteDone_parts h hbefore' v (hplace q hq)
    have hrun : jobBytes k j p (.l k off) (m + 1) s =
        jobBytes k j p (.l k off) m (s.byteDone k i (off + q) v) := by
      rw [jobBytes, hspace, run_bind, run_jobRead_own (hsrc q hq)]
      rw [State.byteDone, hid, ← State.jobStore_own _ _ _ p.row j.card.dstRot]
      rfl
    obtain ⟨t, w, ht, hcopying, hmem⟩ := ih (s := s.byteDone k i (off + q) v)
      (State.copying_byte h hbefore' hafter' (hplace q hq) v) hid (by omega)
      (by simpa only [State.window_of_parts hparts] using hsrc)
      (by simpa only [State.ownByte_of_parts hparts, State.localBase, State.cfg, State.part, hparts] using hplace)
    refine ⟨t, w, hrun.trans ht, ?_, ?_⟩
    · simpa only [Nat.add_right_comm, Nat.add_assoc] using hcopying
    · rw [hmem]
      simp only [State.ownByte_of_parts hparts]
      rw [State.byteDone_mem h hbefore' v (hplace q hq), List.range'_succ, hv, Memory.readNat_one]
      have : q + 1 = p.n - m := by omega
      rw [this]
      rfl

end
/-! ## The piece -/

/-- Where byte `q` of a plain copy comes from, row after row, and where it goes (R239). -/
def Job.srcAt (j : Job) (q : Nat) : Word :=
  (j.card.region 0).base + wrapU (q / j.card.rowlen * j.card.spitch + q % j.card.rowlen)
def Job.dstAt (j : Job) (q : Nat) : Word :=
  (j.card.region 1).base + wrapU (q / j.card.rowlen * j.card.dpitch + q % j.card.rowlen)

/-- Bytes of one line follow each other without a wrap. -/
theorem toNat_add_inLine {a : Word} {q : Nat} (h : U a % 128 + q < 128) : U (a + BitVec.ofNat 64 q) = U a + q := by
  have ha : U a < 2 ^ 64 := a.isLt
  have hq : (BitVec.ofNat 64 q).toNat = q := Nat.mod_eq_of_lt (by omega)
  have hsum : U a + q < 2 ^ 64 := by omega
  exact (BitVec.toNat_add_of_lt (hq.symm ▸ hsum)).trans (congrArg (U a + ·) hq)

/-- Bytes of one row follow each other. -/
theorem at_add_inRow (base : Word) {rowlen pitch q r : Nat} (h : q % rowlen + r < rowlen) :
    base + wrapU ((q + r) / rowlen * pitch + (q + r) % rowlen) =
      base + wrapU (q / rowlen * pitch + q % rowlen) + BitVec.ofNat 64 r := by
  obtain ⟨hdiv, hmod⟩ : (q + r) / rowlen = q / rowlen ∧ (q + r) % rowlen = q % rowlen + r :=
    (Nat.div_mod_unique (by omega)).mpr ⟨by rw [Nat.add_right_comm, Nat.mod_add_div], h⟩
  rw [hdiv, hmod, ← Nat.add_assoc, BitVec.add_assoc]
  exact congrArg (base + ·) (BitVec.ofNat_add ..)

section
variable {j : Job} (hplain : j.card.plain = true)

include hplain in
theorem Job.piece_plain : j.piece = ⟨j.prog / j.card.rowlen, j.srcAt j.prog, j.dstAt j.prog,
    min (j.card.rowlen - j.prog % j.card.rowlen)
      (min (128 - U (j.srcAt j.prog) % 128) (128 - U (j.dstAt j.prog) % 128))⟩ := by
  simp only [Job.piece, Card.groupIn, Card.groupOut, hplain, if_true, Nat.div_one, Nat.mul_one]
  rfl

variable (hmore : j.prog < j.card.total)
include hmore

theorem Job.inRow : j.prog % j.card.rowlen < j.card.rowlen := by
  refine Nat.mod_lt _ (Nat.pos_of_ne_zero fun h => ?_)
  rw [Card.total, h] at hmore
  exact Nat.not_lt_zero _ hmore

include hplain

theorem Job.piece_pos : 0 < j.piece.n := by
  have := inRow hmore
  rw [piece_plain hplain]
  dsimp only
  omega

theorem Job.piece_le {q : Nat} (hq : q ≤ j.piece.n) : j.prog + q ≤ j.card.total := by
  have hrow : j.prog % j.card.rowlen + q ≤ j.card.rowlen := by
    have := inRow hmore
    rw [piece_plain hplain] at hq
    dsimp only at hq
    omega
  have hr : j.prog / j.card.rowlen < j.card.rows := Nat.div_lt_of_lt_mul (by rwa [Nat.mul_comm])
  have hnext := Nat.mul_le_mul_right j.card.rowlen (Nat.succ_le_of_lt hr)
  have := Nat.div_add_mod' j.prog j.card.rowlen
  rw [Nat.succ_mul] at hnext
  unfold Card.total
  omega

end
section
variable {j : Job} (hplain : j.card.plain = true) {q : Nat} (hq : q < j.piece.n)
include hplain hq

theorem Job.srcAt_piece : U (j.srcAt (j.prog + q)) = U j.piece.src + q ∧
    U (j.piece.src + BitVec.ofNat 64 q) = U j.piece.src + q := by
  rw [piece_plain hplain] at hq ⊢
  dsimp only at hq ⊢
  have hline := toNat_add_inLine (a := j.srcAt j.prog) (q := q) (by omega)
  exact ⟨(congrArg _ (at_add_inRow _ (by omega))).trans hline, hline⟩

theorem Job.dstAt_piece : U (j.dstAt (j.prog + q)) = U j.piece.dst + q := by
  rw [piece_plain hplain] at hq ⊢
  dsimp only at hq ⊢
  have hline := toNat_add_inLine (a := j.dstAt j.prog) (q := q) (by omega)
  exact (congrArg _ (at_add_inRow _ (by omega))).trans hline

end

section
variable {s : State} {k : Nat} {j : Job}

theorem run_jobReadyAll_own {e : Word} {n : Nat} (hin : U e + n ≤ s.window (partOf k)) :
    jobReadyAll k j .l e n s = .ok [(.l k (U e), n)] s := by
  simp only [jobReadyAll, jobReady, run_bind, run_get, trapIf, Nat.not_lt.mpr hin, reduceCtorEq, if_false, if_true]
  rfl

variable {i : Job} {before after : List Job}
  (h : s.Copying k before after i) (hid : i.id = j.id)
  (hbefore : ∀ x ∈ before, x.id ≠ j.id) (hafter : ∀ x ∈ after, x.id ≠ j.id)
  (hplain : j.card.plain = true) (hsrc : (j.card.region 0).space = .l) (hdst : (j.card.region 1).space = .l)
  (hmore : j.prog < j.card.total)
  (hwindow : ∀ q < j.card.total, U (j.srcAt q) < s.window (partOf k) ∧ U (j.dstAt q) < s.window (partOf k))
  (hplace : ∀ q < j.card.total, place (loc (s.ownByte k (U (j.dstAt q)))) =
    .lcl (coreOf k) (s.localBase (partOf k) + U (j.dstAt q)))
include h hid hbefore hafter hplain hsrc hdst hmore hwindow hplace

/-- A piece of a plain copy in local memory moves its bytes, in ascending order. -/
theorem jobAdvance_moves : ∃ t w, jobAdvance k j s = .ok () t ∧
    t.Copying k before after { i with prog := i.prog + j.piece.n, wrote := w } ∧
    t.mem = (List.range' j.prog j.piece.n).foldl
      (moveByte (fun q => s.ownByte k (U (j.srcAt q))) fun q => s.ownByte k (U (j.dstAt q))) s.mem := by
  have hin : ∀ q < j.piece.n, j.prog + q < j.card.total := fun q hq => Job.piece_le hplain hmore hq
  have hlast := hwindow _ (hin (j.piece.n - 1) (Nat.sub_lt (Job.piece_pos hplain hmore) Nat.one_pos))
  have hsrcAt := fun q (hq : q < j.piece.n) => Job.srcAt_piece hplain hq
  have hdstAt := fun q (hq : q < j.piece.n) => Job.dstAt_piece hplain hq
  have hpos := Job.piece_pos hplain hmore
  rw [(hsrcAt _ (by omega)).1, hdstAt _ (by omega)] at hlast
  obtain ⟨t, w, hrun, hcopying, hmem⟩ := jobBytes_moves (off := U j.piece.dst) hsrc hbefore hafter h hid
    (Nat.le_refl j.piece.n)
    (fun q hq => by rw [(hsrcAt q hq).2, ← (hsrcAt q hq).1]; exact (hwindow _ (hin q hq)).1)
    (fun q hq => by rw [← hdstAt q hq]; exact hplace _ (hin q hq))
  refine ⟨t, w, ?_, hcopying, ?_⟩
  · rw [jobAdvance]
    simp only [hplain, if_true, hsrc, hdst, run_bind]
    rw [run_jobRead_own (by omega)]
    dsimp only
    rw [run_jobReadyAll_own (by omega)]
    exact hrun
  · rw [hmem, Nat.sub_self, ← List.range_eq_range', List.range'_eq_map_range, List.foldl_map]
    refine List.foldl_ext _ _ _ fun m q hq => ?_
    have hq := List.mem_range.mp hq
    rw [moveByte, moveByte, (hsrcAt q hq).2, (hsrcAt q hq).1, hdstAt q hq]

end
end Sys2Proof.Machine
end

section
/-! SUPPORT. The end of a job: its copy done or refused (R240, R247), its holds taken back (R304), and the reclaim
ring (R305). -/

namespace Sys2Proof.Machine

section
variable {s : State} {k : Nat} {j : Job} {before after : List Job}
  (hjobs : (s.core k).jobs = before ++ j :: after)
  (hbefore : ∀ i ∈ before, i.id ≠ j.id) (hafter : ∀ i ∈ after, i.id ≠ j.id)
  (hwf : s.wf = true) (hwatches : (s.core k).watches = []) (hring : (s.core k).ring = [])
  (hwrote : Remembers s.mem j.wrote)
include hjobs hbefore hafter hwf hwatches hring hwrote

theorem State.copying_started :
    (s.modJob k j.id fun i => { i with st := .running }).Copying k before after { j with st := .running } where
  jobs := jobs_modJob rfl hbefore hafter hjobs _
  unwatched := by rw [core_modJob]; exact hwatches
  noRing := by rw [core_modJob]; exact hring
  wf := by
    simp only [State.wf, Bool.and_eq_true] at hwf
    exact hwf.1.1
  wrote := hwrote

variable (hplain : j.card.plain = true) (hsrc : (j.card.region 0).space = .l) (hdst : (j.card.region 1).space = .l)
  (hmore : j.prog < j.card.total)
  (hwindow : ∀ q < j.card.total, U (j.srcAt q) < s.window (partOf k) ∧ U (j.dstAt q) < s.window (partOf k))
  (hplace : ∀ q < j.card.total, place (loc (s.ownByte k (U (j.dstAt q)))) =
    .lcl (coreOf k) (s.localBase (partOf k) + U (j.dstAt q)))
  (hasking : j.asking = false) (hrefused : j.refused = none)
  (hruns : s.runsOn (partOf k) (dieOfCore (coreOf k)) = true)
  (hgoes : j.st = .running ∨ j.st = .waiting ∧ (s.core k).heldBack (coreOf k) j = false ∧
    s.storesInFlight (coreOf k) = false)
include hplain hsrc hdst hmore hwindow hplace hasking hrefused hruns hgoes

/-- A step of a plain copy in local memory moves a piece, and the job goes on with the next or to its end. -/
theorem jobStart_copies : ∃ (m : Nat) (t : State) (w : List (Nat × LineMask × LineData)),
    0 < m ∧ j.prog + m ≤ j.card.total ∧ takes (.jobStart k j.id) s t ∧
    (t.core k).jobs = before ++ { j with st := .running, prog := j.prog + m, wrote := w } :: after ∧
    (if j.prog + m < j.card.total then Instr.jobStart k j.id else .jobComplete k j.id) ∈ t.flight ∧
    t.mem = (List.range' j.prog m).foldl
      (moveByte (fun q => s.ownByte k (U (j.srcAt q))) fun q => s.ownByte k (U (j.dstAt q))) s.mem := by
  obtain ⟨t, w, hrun, hcopying, hmem⟩ := jobAdvance_moves (j := j)
    (State.copying_started hjobs hbefore hafter hwf hwatches hring hwrote) rfl hbefore hafter hplain hsrc hdst hmore
    hwindow hplace
  have hfind : ((t.core k).jobs.find? fun i => i.id = j.id) = _ :=
    Core.find_job (j := { j with st := .running, prog := j.prog + j.piece.n, wrote := w }) hcopying.jobs hbefore
  refine ⟨j.piece.n, t.jobOn k j.id, w, Job.piece_pos hplain hmore, Job.piece_le hplain hmore (Nat.le_refl _),
    jobStart_ok (Core.find_job hjobs hbefore) hasking hrefused hruns hgoes hmore hrun, hcopying.jobs, ?_, hmem⟩
  rw [State.jobOn, hfind]
  simp only [Option.any_some, decide_eq_true_eq]
  exact State.mem_flight_post ..

end

/-- A change that keeps the number of the job leaves it where it is found. -/
theorem State.find_modJob {s : State} {k id : Nat} {j : Job} {f : Job → Job} (hkeeps : ∀ i, (f i).id = i.id)
    (hfind : ((s.core k).jobs.find? fun i => i.id = id) = some j) :
    (((s.modJob k id f).core k).jobs.find? fun i => i.id = id) = some (f j) := by
  have hid : j.id = id := by simpa using List.find?_some hfind
  have hsame : (fun i : Job => decide (i.id = id)) ∘ (fun i => if i.id = id then f i else i) =
      fun i => decide (i.id = id) := by
    funext i
    dsimp only [Function.comp_apply]
    split <;> simp only [hkeeps]
  rw [core_modJob, List.find?_map, hsame, hfind, Option.map_some, if_pos hid]

/-- A job that is done goes to its end. -/
theorem State.jobOn_done {s : State} {k id : Nat} {j : Job}
    (hfind : ((s.core k).jobs.find? fun i => i.id = id) = some j) (hdone : j.card.total ≤ j.prog) :
    s.jobOn k id = s.post (.jobComplete k id) := by
  simp only [jobOn, hfind, Option.any_some, Nat.not_lt.mpr hdone, decide_false, Bool.false_eq_true, if_false]

/-- A word with DEFER, its bit 32, cleared. -/
theorem toNat_clearBit32 {w : Nat} (hw : w < 2 ^ 64) :
    (BitVec.ofNat 64 w &&& 0xFFFFFFFEFFFFFFFF).toNat = w - w / 2 ^ 32 % 2 * 2 ^ 32 := by
  have hand : (BitVec.ofNat 64 w &&& 0xFFFFFFFEFFFFFFFF).toNat = w &&& (2 ^ 33 * (2 ^ 31 - 1) + (2 ^ 32 - 1)) :=
    congrArg (· &&& _) (Nat.mod_eq_of_lt hw)
  have hcut : w - w / 2 ^ 32 % 2 * 2 ^ 32 = 2 ^ 33 * (w / 2 ^ 33) + w % 2 ^ 32 := by omega
  rw [hand, hcut]
  refine Nat.eq_of_testBit_eq fun i => ?_
  rw [Nat.testBit_and, Nat.testBit_two_pow_mul_add _ (by decide), Nat.testBit_two_pow_mul_add _ (by omega)]
  split
  case isTrue hlow => rw [Nat.testBit_two_pow_sub_one, Nat.testBit_mod_two_pow, Bool.and_comm]
  case isFalse hhigh =>
    rw [Nat.testBit_two_pow_sub_one, Nat.testBit_div_two_pow, Nat.sub_add_cancel (Nat.not_lt.mp hhigh)]
    by_cases hi : i - 33 < 31
    · rw [decide_eq_true hi, Bool.and_true]
    · rw [decide_eq_false hi, Bool.and_false,
        Nat.testBit_lt_two_pow (lt_of_lt_of_le hw (Nat.pow_le_pow_right Nat.two_pos (by omega : 64 ≤ i)))]

/-- The ring is full at 510 entries, its counters being taken modulo 2^64 (R305). -/
theorem ringFull_iff {n c : Nat} (hn : n < 2 ^ 64) (hc : c ≤ n) :
    (BitVec.ofNat 64 n - BitVec.ofNat 64 c == 510) = true ↔ n - c = 510 := by
  rw [beq_iff_eq]
  bv_omega

section
variable {s t u : State} {k id : Nat} {j : Job} (hfind : ((s.core k).jobs.find? fun i => i.id = id) = some j)
include hfind

/-! ## Its end (R240, R243, R247) -/

theorem exec_jobComplete_found : exec (.jobComplete k id) s =
    .next (if j.holds.isEmpty then s.jobEnds k j else s.post (.holdRelease k id)) := by
  have hrun : exec (.jobComplete k id) s = execJobComplete k id s := rfl
  rw [hrun, execJobComplete, hfind]
  rfl

theorem jobComplete_holds (h : j.holds ≠ []) : takes (.jobComplete k id) s (s.post (.holdRelease k id)) := by
  rw [takes, exec_jobComplete_found hfind, if_neg (by simpa using h)]

theorem jobComplete_ends (h : j.holds = []) : takes (.jobComplete k id) s (s.jobEnds k j) := by
  rw [takes, exec_jobComplete_found hfind, h]
  rfl

end

/-- A job that runs leaves the window, adds what it wrote to its barrier object, and completes its token with 0. -/
theorem State.jobEnds_of_slot {s : State} {k : Nat} {j : Job} {x : Slot} (hst : j.st = .running)
    (howner : j.owner = .slot x) : s.jobEnds k j =
      let left := s.modCore k fun c => { c with jobs := c.jobs.filter fun i => i.id ≠ j.id }
      ((if j.card.bound then left.contribute k j.inst j.card.written j.card.bar else left).token k x j.tok
        0).windowChanged k := by
  simp only [State.jobEnds, State.jobToken, hst, howner]
  rfl

section
variable {s t u : State} {k id : Nat} {j : Job} (hfind : ((s.core k).jobs.find? fun i => i.id = id) = some j)
include hfind

theorem jobFault_fails {x : Slot} {detail : Nat} (howner : j.owner = .slot x) : takes (.jobFault k id detail) s
    (((s.modJob k id fun i => { i with st := .failed, result := j.prog * 2 ^ 32 + detail * 256 + 9 }).token k x j.tok
      (wrapU (j.prog * 2 ^ 32 + detail * 256 + 9))).windowChanged k) := by
  have hrun : exec (.jobFault k id detail) s = execJobFault k id detail s := rfl
  rw [takes, hrun, execJobFault, hfind]
  simp only [State.jobToken, howner]
  rfl

/-! ## Its holds (R304) -/

section
variable (hasking : j.asking = false) (hrefused : j.refused = none)
  (hruns : s.runsOn (partOf k) (dieOfCore (coreOf k)) = true)
include hasking hrefused hruns

section
variable {va : Word} {l : List Word} {pa w : Nat} (hholds : j.holds = va :: l)
include hholds

theorem holdRelease_poisoned (hheader : headerAt k j va s = .ok pa t) (hbad : t.badLine (partOf k) pa true = true) :
    takes (.holdRelease k id) s ((t.holdDropped k).nextRelease k id) := by
  refine congrArg Host.Outcome.next (State.jobPart_trap (c := 0x0D) (v := va) hfind hasking hrefused hruns ?_)
  simp [hholds, hheader, jobPoison, hbad]

theorem holdRelease_refused {c : Nat} {v : Word} (hheader : headerAt k j va s = .error (.trap c v) t) :
    takes (.holdRelease k id) s ((t.holdDropped k).nextRelease k id) := by
  refine congrArg Host.Outcome.next (State.jobPart_trap (c := c) (v := v) hfind hasking hrefused hruns ?_)
  simp [hholds, hheader]

section
variable (hheader : headerAt k j va s = .ok pa t) (hbad : t.badLine (partOf k) pa true = false)
  (hword : ownedWord k pa false t = .ok w u) (hw : w < 2 ^ 64) (hheld : 2 ^ 48 ≤ w)
include hheader hbad hword hw hheld

/-- The hold leaves the header; the last one of a deferred owner is followed by its push. -/
theorem holdRelease_takenBack : takes (.holdRelease k id) s
    (if holdOf w = 1 ∧ deferOf w then (u.jobStoreG k pa 8 (w - 2 ^ 48)).post (.reclaimPush k id (va ||| 1))
      else (u.jobStoreG k pa 8 (w - 2 ^ 48)).nextRelease k id) := by
  have hless : (BitVec.ofNat 64 w - 0x0001000000000000).toNat = w - 2 ^ 48 := by
    bv_omega
  refine congrArg Host.Outcome.next (State.jobPart_ok (u := ()) hfind hasking hrefused hruns ?_)
  simp only [hholds, run_bind, hheader, jobPoison, run_get, run_trapIf, hbad, Bool.false_eq_true, if_false, hword,
    run_modify, hless]

end
end

/-! ## The reclaim ring (R305) -/

section
variable {v : Word} {pa w : Nat}

theorem reclaimPush_clears (hclears : v.getLsbD 1 = true)
    (hheader : headerAt k j (v &&& 0xFFFFFFFFFFFFFFF8) s = .ok pa t)
    (hword : ownedWord k pa false t = .ok w u) (hw : w < 2 ^ 64) : takes (.reclaimPush k id v) s
      ((u.jobStoreG k pa 8 (w - w / 2 ^ 32 % 2 * 2 ^ 32)).nextRelease k id) := by
  have hcleared := toNat_clearBit32 hw
  refine congrArg Host.Outcome.next (State.jobPart_ok (u := ()) hfind hasking hrefused hruns ?_)
  simp only [run_bind, run_get, hclears, if_true, hheader, hword, run_modify, hcleared]

theorem reclaimPush_disabled (hpushes : v.getLsbD 1 = false) (hen : (s.reclaimOf (partOf k) j.asid).getLsbD 0 = false) :
    takes (.reclaimPush k id v) s (s.nextRelease k id) := by
  refine congrArg Host.Outcome.next (State.jobPart_ok (u := ()) hfind hasking hrefused hruns ?_)
  simp only [run_bind, run_get, hpushes, hen, Bool.false_eq_true, if_false, Bool.not_false, if_true, run_modify]

section
variable {s1 s2 s3 s4 s5 : State} {ring : Xlated} {n c : Nat}
  (hpushes : v.getLsbD 1 = false) (hen : (s.reclaimOf (partOf k) j.asid).getLsbD 0 = true)
  (htranslates : jobTranslate k j (s.reclaimOf (partOf k) j.asid &&& 0xFFFFFFFFFFFFF000) .jobWrite s = .ok ring s1)
  (howns : jobOwn k j (s.reclaimOf (partOf k) j.asid &&& 0xFFFFFFFFFFFFF000) ring true s1 = .ok () s2)
  (hproduced : ownedWord k ring.pa true s2 = .ok n s3) (hconsumed : ownedWord k (ring.pa + 8) true s3 = .ok c s4)
  (hn : n < 2 ^ 64) (hc : c ≤ n)
include hpushes hen htranslates howns hproduced hconsumed hn hc

theorem reclaimPush_full (hfull : n - c = 510) : takes (.reclaimPush k id v) s (s4.park (.reclaimPush k id v)) := by
  have hblocks := (ringFull_iff hn hc).mpr hfull
  refine congrArg Host.Outcome.next (State.jobPart_block (w := .jobRoom) hfind hasking hrefused hruns ?_)
  simp only [run_bind, run_get, hpushes, hen, Bool.false_eq_true, if_false, Bool.not_true, htranslates, howns,
    hproduced, hconsumed, run_blockIf, hblocks, if_true]

theorem reclaimPush_pushes (hroom : n - c < 510)
    (hentry : jobOwn k j ((s.reclaimOf (partOf k) j.asid &&& 0xFFFFFFFFFFFFF000) +
      wrapU (ring.pa + 0x10 + 8 * (n % 510) - ring.pa)) { ring with pa := ring.pa + 0x10 + 8 * (n % 510) } true s4 =
        .ok () s5) :
    let t := (s5.jobStoreAt true k (ring.pa + 0x10 + 8 * (n % 510)) 8 (U v)).jobStoreAt true k ring.pa 8
      ((n + 1) % 2 ^ 64)
    takes (.reclaimPush k id v) s { t with urgent := t.urgent ++
      [.wakeHome .device (partOf k) j.asid.toNat (U (s.reclaimOf (partOf k) j.asid &&& 0xFFFFFFFFFFFFF000)) 0,
        .reclaimPush k id (v ||| 2)] } := by
  have hpasses : (BitVec.ofNat 64 n - BitVec.ofNat 64 c == 510) = false :=
    Bool.eq_false_iff.mpr fun h => absurd ((ringFull_iff hn hc).mp h) (by omega)
  refine congrArg Host.Outcome.next (State.jobPart_ok (u := ()) hfind hasking hrefused hruns ?_)
  simp only [run_bind, run_get, hpushes, hen, Bool.false_eq_true, if_false, Bool.not_true, htranslates, howns,
    hproduced, hconsumed, run_blockIf, hpasses, hentry, run_modify]

end

end
end
end
end Sys2Proof.Machine
end

section
open Sys2Proof Sys2Proof.Machine

/-- Settles O50: a waiting job is held back by exactly those that it shares a byte with; a piece of a plain copy in
local memory is a loop that moves a byte and remembers it, which writes again none that memory still holds. -/
theorem jobSteps : Obligations.JobSteps := by
  unfold Obligations.JobSteps
  intro s s1 s2 s3 s4 s5 k id n u j before after hjobs hbefore hid hasking hrefused hruns p started total next shared
    clash goes
  subst hid
  have hfind := Core.find_job hjobs hbefore
  have hheld : j.st ≠ .leaving → ((s.core k).heldBack (coreOf k) j = true ↔ clash) := fun hst =>
    (Core.heldBack_iff hjobs hbefore hst _).trans (by simp only [conflict_iff]; rfl)
  have hgoes : goes → j.st = .running ∨ j.st = .waiting ∧ (s.core k).heldBack (coreOf k) j = false ∧
      s.storesInFlight (coreOf k) = false := fun h => h.imp_right fun ⟨hst, hclash, hstores⟩ =>
    ⟨hst, Bool.eq_false_iff.mpr fun h => hclash ((hheld (by simp [hst])).mp h), hstores⟩
  refine ⟨fun hst h => ?waits, fun hg hover => ?atEnd, fun hg hmore => ?more, ?copies, jobComplete_holds hfind,
    fun x hholds hst howner => ?ends, fun x detail howner => jobFault_fails hfind howner,
    fun va l pa w hholds => ?release, fun v pa c w ring => ?reclaim⟩
  case waits =>
    exact jobStart_waits hfind hasking hrefused hruns hst (h.imp_left (hheld (by simp [hst])).mpr)
  case atEnd =>
    have h := jobStart_over hfind hasking hrefused hruns (hgoes hg) hover
    rwa [State.jobOn_done (State.find_modJob (f := fun i => { i with st := .running }) (fun _ => rfl) hfind) hover] at h
  case more =>
    exact ⟨jobStart_ok hfind hasking hrefused hruns (hgoes hg) hmore,
      fun c v => jobStart_trap hfind hasking hrefused hruns (hgoes hg) hmore,
      fun w => jobStart_block hfind hasking hrefused hruns (hgoes hg) hmore⟩
  case copies =>
    intro src dst own hwf hg hmore hafter hkind hfmt hsrc hdst hwatches hring hwindow hplace hwrote
    exact jobStart_copies hjobs hbefore hafter hwf hwatches hring hwrote (by simp [Card.plain, hkind, hfmt]) hsrc hdst
      hmore hwindow (fun q hq => hplace q hq) hasking hrefused hruns (hgoes hg)
  case ends =>
    have h := jobComplete_ends hfind hholds
    rw [State.jobEnds_of_slot hst howner] at h
    exact ⟨fun hbound => by rwa [hbound] at h, fun hbound => by rwa [hbound] at h⟩
  case release =>
    refine ⟨holdRelease_poisoned hfind hasking hrefused hruns hholds,
      fun c v => holdRelease_refused hfind hasking hrefused hruns hholds, fun hheader hbad hword hw hheldw => ?_⟩
    have h := holdRelease_takenBack hfind hasking hrefused hruns hholds hheader hbad hword hw hheldw
    refine ⟨fun hstays => ?_, fun hlast hdefer => ?_⟩
    · have hnot : ¬(holdOf w = 1 ∧ deferOf w = true) := fun ⟨hlast, hdefer⟩ =>
        hstays.elim (· hlast) fun hclear => absurd (of_decide_eq_true hdefer) (by omega)
      rwa [if_neg hnot] at h
    · rwa [if_pos ⟨hlast, decide_eq_true hdefer⟩] at h
  case reclaim =>
    intro r base
    refine ⟨reclaimPush_clears hfind hasking hrefused hruns, reclaimPush_disabled hfind hasking hrefused hruns,
      fun hpushes hen htranslates howns hproduced hconsumed hn hc => ⟨?_, ?_⟩⟩
    · exact reclaimPush_full hfind hasking hrefused hruns hpushes hen htranslates howns hproduced hconsumed hn hc
    · exact reclaimPush_pushes hfind hasking hrefused hruns hpushes hen htranslates howns hproduced hconsumed hn hc

end

section
/-! SUPPORT. The messages of the directory as they leave and as they come in (R173, R186, R187). -/

namespace Sys2Proof.Machine

/-! ## Messages that leave -/

theorem message_readdressed (f : Hdr → Nat → Hdr × Nat) {i : Instr} {h : Hdr} {line : Nat}
    (hm : message i = some (h, line)) : message (readdressed f i) = some (f h line) := by
  unfold message at hm
  split at hm <;> cases hm <;> rfl

namespace State

theorem emit_here {s : State} {i : Instr} {h : Hdr} {line : Nat} (hm : message i = some (h, line)) (hdst : h.dst ≠ 34) :
    s.emit i = s.post i := by
  simp only [emit, hm, if_neg hdst]

/-- What is for the switch leaves by the port of its line, as the pod names the line. -/
theorem emit_switch {s : State} {i : Instr} {h : Hdr} {line : Nat} (hm : message i = some (h, line)) (hdst : h.dst = 34)
    (hpod : isPodLine line = true) :
    s.emit i = { s with switchOut := s.switchOut ++ [(s.podPort h.part line, s.outward i)] } ∧
      message (s.outward i) = some ({ h with mod := modOf line }, line) := by
  have hout : s.outLine h.part line = line := if_pos hpod
  refine ⟨by simp only [emit, hm, if_pos hdst, hout], ?_⟩
  rw [outward, message_readdressed _ hm, hout]

theorem podPort_mem {s : State} {p line : Nat} (h : s.portsOf p ≠ []) : s.podPort p line ∈ s.portsOf p := by
  have hlt : Config.portHash line % (s.portsOf p).length < (s.portsOf p).length :=
    Nat.mod_lt _ (List.length_pos_of_ne_nil h)
  simp only [podPort, List.getElem?_eq_getElem hlt, Option.getD_some]
  exact List.getElem_mem hlt

end State

/-! ## Messages that come in -/

section
variable {s : State} {i : Instr} {h : Hdr} {line : Nat} (hm : message i = some (h, line)) (hsrc : h.src ≠ 34)
include hm hsrc

theorem receive_untagged (htag : s.tagged h line = false) : s.receive i = s.log (.packet h.part) := by
  simp only [State.receive, hm, if_neg hsrc, htag, Bool.false_eq_true, if_false]

theorem receive_tagged (htag : s.tagged h line = true) : s.receive i = (s.handle i).serve := by
  simp only [State.receive, hm, if_neg hsrc, htag, if_true]

omit hsrc in
theorem exec_untagged (htag : s.tagged h line = false) : exec i s = .next (s.receive i) := by
  unfold message at hm
  -- All but a WbAck and a Rel, which may have to wait once their tag is right, are received at once.
  split at hm
  case h_13 =>
    cases hm
    exact congrArg Host.Outcome.next (if_neg (by simp [htag]))
  case h_14 =>
    cases hm
    exact congrArg Host.Outcome.next (if_neg (by simp [htag]))
  case h_21 => cases hm
  all_goals rfl

/-- A packet whose tag is not that of its links or its line is dropped and logged. -/
theorem takes_untagged (htag : s.tagged h line = false) : takes i s (s.log (.packet h.part)) :=
  (exec_untagged hm htag).trans (congrArg Host.Outcome.next (receive_untagged hm hsrc htag))

/-- Any other is handled, and what waits for a way is looked at again. -/
theorem takes_handled (htag : s.tagged h line = true) (hexec : exec i s = .next (s.receive i)) {t : State}
    (hhandle : s.handle i = t) : takes i s t.serve :=
  hexec.trans (congrArg Host.Outcome.next ((receive_tagged hm hsrc htag).trans (congrArg State.serve hhandle)))

end

/-- A request of the switch for a line that the module does not give out is answered ERR (R186). -/
theorem takes_rds_refused {s : State} {h : Hdr} {line : Nat} (hsrc : h.src = 34) (hpod : isPodLine line = true)
    (hmod : State.modOf line = s.podModule.toNat) (hexport : s.podExport h.part (lineLoc line) true = none) :
    takes (.rds h line) s (s.emit (({ backTo h with err := true } : Hdr).data line 0 false false false)) := by
  have hin : s.inward (.rds h line) = none := by
    simp [State.inward, message, hpod, hmod, hexport]
  have hreceive : s.receive (.rds h line) = s.refusePod (.rds h line) := by
    simp only [State.receive, message, if_pos hsrc, hin]
  exact congrArg Host.Outcome.next hreceive

/-! ## What waits for a way (R171) -/

theorem serve_idle {s : State} (h : ∀ o ∈ s.hub, State.waitsForWay o = false ∧ o.busy ≠ .hack) : s.serve = s := by
  refine List.foldl_fixed' (fun o => ?_) _
  split
  next b hb =>
    obtain ⟨hwaits, hhack⟩ := h b (List.mem_of_find?_eq_some hb)
    split
    next hbusy => simp [State.waitsForWay, hbusy] at hwaits
    next hbusy => simp [State.waitsForWay, hbusy] at hwaits
    next hbusy => exact absurd hbusy hhack
    next => rfl
  next => rfl

theorem serve_alloc {s : State} {p line : Nat} {held : List Instr} (hhub : s.hub = [⟨line, p, .alloc, held⟩])
    (hroom : s.roomFor line = true) : s.serve = s.releaseLine p line true := by
  have hbusy : s.busyWith p line = some ⟨line, p, .alloc, held⟩ := by
    simp [State.busyWith, hhub]
  simp only [State.serve, hhub, List.foldl_cons, List.foldl_nil, hbusy, hroom, if_true]

/-! ## What a hub has at hand -/

namespace State

@[simp] theorem hub_emit (s : State) (i : Instr) : (s.emit i).hub = s.hub := by
  obtain ⟨_, _, _, _, _, _, h⟩ := runs_emit s i
  rw [h]

@[simp] theorem hubDown_emit (s : State) (i : Instr) : (s.emit i).hubDown = s.hubDown := by
  obtain ⟨_, _, _, _, _, _, h⟩ := runs_emit s i
  rw [h]

@[simp] theorem hubDown_setBusy (s : State) (b : HubLine) : (s.setBusy b).hubDown = s.hubDown := by
  unfold setBusy
  split <;> rfl

theorem busyWith_emit (s : State) (i : Instr) (p line : Nat) : (s.emit i).busyWith p line = s.busyWith p line := by
  rw [busyWith, hub_emit, busyWith]

theorem hubHdr_of_hubDown {s t : State} (h : t.hubDown = s.hubDown) (p line key dst : Nat) :
    t.hubHdr p line key dst = s.hubHdr p line key dst := by
  simp only [hubHdr, hubOf, h]

/-- What a hub's work on a line becomes where that on a line is written. -/
def replaced (b o : HubLine) : HubLine := if o.line = b.line ∧ o.part = b.part then b else o

theorem setBusy_of_some {s : State} {b o : HubLine} (h : s.busyWith b.part b.line = some o) :
    s.setBusy b = { s with hub := s.hub.map (replaced b) } := if_pos (by rw [h]; rfl)

theorem setBusy_of_none {s : State} {b : HubLine} (h : s.busyWith b.part b.line = none) :
    s.setBusy b = { s with hub := s.hub ++ [b] } := if_neg (by rw [h]; simp)

theorem busyWith_setBusy (s : State) (b : HubLine) : (s.setBusy b).busyWith b.part b.line = some b := by
  cases h : s.busyWith b.part b.line with
  | some o =>
    have hkey : (fun o : HubLine => decide (o.line = b.line) && decide (o.part = b.part)) ∘ replaced b =
        fun o => decide (o.line = b.line) && decide (o.part = b.part) := by
      funext o
      dsimp only [Function.comp_apply, replaced]
      split
      next h => simp [h]
      next => rfl
    have hat := List.find?_some h
    simp only [Bool.and_eq_true, decide_eq_true_eq] at hat
    rw [busyWith] at h
    rw [setBusy_of_some h]
    exact (List.find?_map ..).trans (by rw [hkey, h, Option.map_some, replaced, if_pos hat])
  | none =>
    rw [setBusy_of_none h]
    rw [busyWith] at h
    simp [busyWith, List.find?_append, h]

/-- What is written last of a line that the hub is at work on is what stands. -/
theorem setBusy_setBusy (s : State) {b b' : HubLine} (hline : b'.line = b.line) (hpart : b'.part = b.part) :
    (s.setBusy b).setBusy b' = s.setBusy b' := by
  rw [setBusy_of_some (b := b') (by rw [hline, hpart, busyWith_setBusy])]
  cases h : s.busyWith b.part b.line with
  | some o =>
    have hcomp : replaced b' ∘ replaced b = replaced b' := by
      funext o
      simp only [Function.comp_apply, replaced, hline, hpart]
      split
      next h => simp
      next => rfl
    rw [setBusy_of_some h, setBusy_of_some (by rw [hline, hpart, h])]
    simp only [List.map_map, hcomp]
  | none =>
    have hkeep : s.hub.map (replaced b') = s.hub :=
      (List.map_congr_left fun o ho => if_neg fun hkey => by
        have := List.find?_eq_none.mp h o ho
        simp [hkey, hline, hpart] at this).trans (List.map_id _)
    rw [setBusy_of_none h, setBusy_of_none (by rw [hline, hpart, h])]
    simp only [List.map_append, hkeep, List.map_cons, List.map_nil, replaced, hline, hpart, and_self, if_true]

end State
end Sys2Proof.Machine
end

section
/-! SUPPORT. A message at a hub against its line's entry (R158, R160, R163, R174, R177, R178). -/

namespace Sys2Proof.Machine

section
variable {s : State} {h : Hdr} {line : Nat} {data : LineData}

/-! ## A line being served, and a line without an entry -/

section
variable {b : HubLine} (hbusy : s.busyWith h.part line = some b)
include hbusy

/-- A line being served keeps the requests for it. -/
theorem handle_busy : ∀ i ∈ [Instr.rds h line, .rdx h line],
    s.handle i = s.setBusy { b with held := b.held ++ [i] } := by
  simp [State.handle, State.atHub, message, hbusy, passesHold, State.whileBusy, Option.filter_some]

end

section
variable (hbusy : s.busyWith h.part line = none)
include hbusy

section
variable (hentry : s.entryAt h.part line = none) (hknown : s.unknown line = false)
include hentry hknown

theorem handle_notice_free : s.handle (.notice h line) = s := by
  simp [State.handle, State.atHub, message, hbusy, hentry, hknown]

theorem handle_wbd_free : s.handle (.wbd h line data) = s.emit (.wback (backTo h) line true) := by
  simp [State.handle, State.atHub, message, hbusy, hentry, hknown, State.dropWbd]

/-- A request for a line that has moved or is a synchronisation line is closed, and what waited for it looks again. -/
theorem handle_misplaced (hmis : s.misplaced h line = true) : ∀ i ∈ [Instr.rds h line, .rdx h line],
    s.handle i = (s.closeReq h.req h.part line).lineArrived h.req h.part line := by
  simp [State.handle, State.atHub, message, hbusy, hentry, hknown, hmis, State.sentOn]

section
variable (hmis : s.misplaced h line = false) (hreq : h.req < 32)
include hmis hreq

theorem handle_rds_install : s.handle (.rds h line) = s.install h line false (.rds h line) := by
  have hsteered : s.switchSteered h line = false := by simp [State.switchSteered, show h.req ≠ 34 by omega]
  simp [State.handle, State.atHub, message, hbusy, hentry, hknown, hmis, hsteered]

theorem handle_rdx_install : s.handle (.rdx h line) = s.install h line true (.rdx h line) := by
  have hsteered : s.switchSteered h line = false := by simp [State.switchSteered, show h.req ≠ 34 by omega]
  simp [State.handle, State.atHub, message, hbusy, hentry, hknown, hmis, hsteered]

end
end

section
variable {e : DirEntry} (hentry : s.entryAt h.part line = some e)
include hentry

/-- An entry that its check bits do not let the hub read is probed for, and keeps the message (R178). -/
theorem handle_unreadable (hread : State.unreadable e = true) :
    ∀ i ∈ [Instr.rds h line, .rdx h line, .wbd h line data, .notice h line],
      s.handle i = (s.setEntry line { e with st := .u }).startProbe h.part line [i] none := by
  simp [State.handle, State.atHub, message, hbusy, hentry, hread]

variable (hread : State.unreadable e = false)
include hread

theorem handle_rds_entry : s.handle (.rds h line) = s.resolveRds h line e := by
  simp [State.handle, State.atHub, message, hbusy, hentry, hread]

theorem handle_rdx_entry : s.handle (.rdx h line) = s.resolveOwn h line e := by
  simp [State.handle, State.atHub, message, hbusy, hentry, hread]

theorem handle_wbd_entry : s.handle (.wbd h line data) = s.wbdAt h line data e := by
  simp [State.handle, State.atHub, message, hbusy, hentry, hread]

theorem handle_notice_entry : s.handle (.notice h line) = s.noticeAt h line e := by
  simp [State.handle, State.atHub, message, hbusy, hentry, hread]

end
end
end

/-! ## Home operations for a line of this module (R166) -/

section
variable {s : State} {line : Nat} (hpod : isPodLine line = false)
include hpod

theorem State.readHome_here (h : Hdr) (excl counts : Bool) :
    s.readHome h line excl counts = s.emit (.hrd (onward h (homeDie line)) line excl counts) :=
  if_neg (by simp [hpod])

theorem State.sendHome_here (p key : Nat) (data : LineData) (clear : Bool) (why : HWhy) :
    s.sendHome p line key data clear why = s.emit (.hwb (s.hubHdr p line key (homeDie line)) ⟨line, why⟩ data clear) :=
  if_neg (by simp [hpod])

theorem State.clearHome_here (p : Nat) (why : HWhy) :
    s.clearHome p line why = s.emit (.hclr (s.hubHdr p line 0 (homeDie line)) ⟨line, why⟩) :=
  if_neg (by simp [hpod])

end

/-! ## Requests against an entry (R160, R174) -/

section
variable {s : State} {h : Hdr} {line : Nat} {e : DirEntry}

theorem DirEntry.join_die {e : DirEntry} {r : Nat} (hr : r ≠ 34) : e.join r line = e.add r := if_neg hr

theorem DirEntry.keeper_of_ov {e : DirEntry} (hst : e.st ≠ .s) (hov : e.ov = true) : e.keeper = some e.owner := by
  simp [DirEntry.keeper, hst, hov]

section
variable (hreq : h.req ≠ 34)
include hreq

/-- A shared line without a supplier is read from its home. -/
theorem resolveRds_shared (hpod : isPodLine line = false) (hst : e.st = .s) (hov : e.ov = false) :
    s.resolveRds h line e = (s.setEntry line (e.add h.req)).emit (.hrd (onward h (homeDie line)) line false false) := by
  simp only [State.resolveRds, hst, hov, Bool.false_eq_true, if_false, DirEntry.join_die hreq, State.readHome_here hpod]

/-- An exclusive copy becomes a shared one, which its owner sends. -/
theorem resolveRds_exclusive (howner : e.owner ≠ 34) (hst : e.st = .e) : s.resolveRds h line e =
    (s.setEntry line (({ e with st := .s, ptrs := [e.owner] } : DirEntry).add h.req)).emit
      ((onward h e.owner).fwds line .e (s.granted h.part e.owner line)) := by
  simp only [State.resolveRds, hst, if_neg howner, DirEntry.join_die hreq, DirEntry.namedState, reduceCtorEq, false_and,
    if_false]
  rfl

/-- A modified copy becomes an owned one, which its owner sends. -/
theorem resolveRds_modified (howner : e.owner ≠ 34) (hst : e.st = .m) (hov : e.ov = true) : s.resolveRds h line e =
    (s.setEntry line (({ e with st := .o, ptrs := [e.owner] } : DirEntry).add h.req)).emit
      ((onward h e.owner).fwds line .m (s.granted h.part e.owner line)) := by
  have hkeeper := DirEntry.keeper_of_ov (e := e) (by simp [hst]) hov
  simp only [State.resolveRds, hst, hkeeper, Option.getD_some, if_neg howner, DirEntry.join_die hreq,
    DirEntry.namedState, hov, if_true, reduceCtorEq, false_and, if_false]
  rfl

end

/-! ### To own a line (R160) -/

/-- The entry of a line that a die owns alone (R160). -/
def DirEntry.ownedBy (e : DirEntry) (r : Nat) : DirEntry :=
  { e with st := .m, owner := r, ov := true, coarse := false, ptrs := [], vec := 0, pod := false }

theorem DirEntry.namedState_of_ne {e : DirEntry} (h : e.st ≠ .o) (d : Nat) : e.namedState d = e.st :=
  if_neg fun hboth => h hboth.1

theorem resolveOwn_here (hpod : isPodLine line = false) :
    s.resolveOwn h line e = s.resolveRdx h line e (s.hasData h line) :=
  if_neg (by simp [hpod])

/-- The supplier sends its data, every other die drops its copy, and the requester learns how many they are. -/
theorem resolveRdx_supplied {d : Nat} {got : Bool} (hreq : h.req ≠ 34) (habroad : e.pod = false)
    (hsupplier : e.supplier h.req (s.rdxTargets h.req e) = some d) :
    let t := (s.handled h line).setEntry line (e.ownedBy h.req)
    s.resolveRdx h line e got =
      (((s.rdxTargets h.req e).filter fun x => some x ≠ some d).foldl (fun u x => u.emit ((onward h x).inv line))
        (t.emit ((onward h d).fwdx line (e.namedState d) (t.granted h.part d line)))).emit
          (.grant (onward h h.req) line (s.rdxTargets h.req e).length) := by
  have hnew : ({ e with
      st := .m, owner := if h.req = 34 then 0 else h.req, ov := h.req ≠ 34, coarse := false, ptrs := [], vec := 0,
      pod := h.req == 34 } : DirEntry) = e.ownedBy h.req := by
    simp [DirEntry.ownedBy, hreq]
  simp only [State.resolveRdx, hsupplier, hnew, habroad, Bool.false_and, Bool.false_eq_true, if_false, List.append_nil]

theorem resolveRdx_modified {got : Bool} (hreq : h.req ≠ 34) (habroad : e.pod = false) (hst : e.st = .m)
    (hov : e.ov = true) (hother : e.owner ≠ h.req) :
    let t := (s.handled h line).setEntry line (e.ownedBy h.req)
    s.resolveRdx h line e got = (t.emit ((onward h e.owner).fwdx line .m (t.granted h.part e.owner line))).emit
      (.grant (onward h h.req) line 1) := by
  have htargets : s.rdxTargets h.req e = [e.owner] := by
    simp [State.rdxTargets, hst, hov, hother]
  have hsupplier : e.supplier h.req (s.rdxTargets h.req e) = some e.owner := by
    simp [DirEntry.supplier, htargets, hov]
  have hrun := resolveRdx_supplied (line := line) (got := got) hreq habroad hsupplier
  simpa [htargets, DirEntry.namedState_of_ne (e := e) (by simp [hst]), hst] using hrun

section
variable {a b : Nat} (hptrs : e.ptrs = [a, b] ∨ e.ptrs = [b, a]) (hlt : a < b) (hb : b < 32)
  (hcoarse : e.coarse = false)
include hptrs hlt hb hcoarse

theorem recorded_pair : s.recorded e = [a, b] := by
  refine List.Pairwise.eq_of_mem_iff (r := (· < ·)) (List.pairwise_lt_range.filter _) (by simpa using hlt) fun d => ?_
  simp only [State.recorded, hcoarse, List.mem_filter, List.mem_range]
  rcases hptrs with h | h <;> simp [h] <;> omega

variable (hst : e.st = .s) (hreqa : h.req ≠ a) (hreqb : h.req ≠ b)
include hst hreqa hreqb

theorem rdxTargets_pair : s.rdxTargets h.req e = [a, b] := by
  simp [State.rdxTargets, hst, recorded_pair hptrs hlt hb hcoarse, hreqa.symm, hreqb.symm]

variable {got : Bool} (hreq : h.req ≠ 34) (habroad : e.pod = false)
include hreq habroad

/-- Of two sharers the first sends the data, unless the other is the supplier. -/
theorem resolveRdx_first (hsupplies : e.ov = false ∨ e.owner = a) :
    let t := (s.handled h line).setEntry line (e.ownedBy h.req)
    s.resolveRdx h line e got = ((t.emit ((onward h a).fwdx line .s (t.granted h.part a line))).emit
      ((onward h b).inv line)).emit (.grant (onward h h.req) line 2) := by
  have htargets := rdxTargets_pair (s := s) hptrs hlt hb hcoarse hst hreqa hreqb
  have hsupplier : e.supplier h.req (s.rdxTargets h.req e) = some a := by
    rw [htargets, DirEntry.supplier]
    rcases hsupplies with hov | howner
    · simp [hov]
    · simp [howner]
  have hrun := resolveRdx_supplied (line := line) (got := got) hreq habroad hsupplier
  simpa [htargets, DirEntry.namedState_of_ne (e := e) (by simp [hst]), hst, hlt.ne'] using hrun

theorem resolveRdx_second (hov : e.ov = true) (howner : e.owner = b) :
    let t := (s.handled h line).setEntry line (e.ownedBy h.req)
    s.resolveRdx h line e got = ((t.emit ((onward h b).fwdx line .s (t.granted h.part b line))).emit
      ((onward h a).inv line)).emit (.grant (onward h h.req) line 2) := by
  have htargets := rdxTargets_pair (s := s) hptrs hlt hb hcoarse hst hreqa hreqb
  have hsupplier : e.supplier h.req (s.rdxTargets h.req e) = some b := by
    rw [htargets, DirEntry.supplier, if_pos (by simp [hov, howner]), howner]
  have hrun := resolveRdx_supplied (line := line) (got := got) hreq habroad hsupplier
  simpa [htargets, DirEntry.namedState_of_ne (e := e) (by simp [hst]), hst, hlt.ne] using hrun

end

/-! ## Write-backs and notices against an entry (R163, R174, R177) -/

section
variable {data : LineData}

/-- The owner's data goes home, and the entry goes. -/
theorem wbdAt_owner (hpod : isPodLine line = false) (hst : e.st = .m ∨ e.st = .e) (hov : e.ov = true)
    (howner : e.owner = h.src) : s.wbdAt h line data e = (s.freeEntry h.part line).emit
      (.hwb (s.hubHdr h.part line h.key (homeDie line)) ⟨line, .wbd h.src⟩ data true) := by
  have hkeeper : e.keeper = some h.src := by
    rw [DirEntry.keeper_of_ov (by rcases hst with hst | hst <;> simp [hst]) hov, howner]
  have hsend : s.wbdAt h line data e =
      (s.freeEntry h.part line).sendHome h.part line h.key data true (.wbd h.src) := by
    rcases hst with hst | hst <;> simp only [State.wbdAt, hst, hkeeper, if_true]
  exact hsend.trans (State.sendHome_here hpod ..)

theorem noticeAt_owner (hpod : isPodLine line = false) (hst : e.st = .m ∨ e.st = .e) (hov : e.ov = true)
    (howner : e.owner = h.src) : s.noticeAt h line e =
      (s.freeEntry h.part line).emit (.hclr (s.hubHdr h.part line 0 (homeDie line)) ⟨line, .plain⟩) := by
  have hkeeper : e.keeper = some h.src := by
    rw [DirEntry.keeper_of_ov (by rcases hst with hst | hst <;> simp [hst]) hov, howner]
  have hclear : s.noticeAt h line e = (s.freeEntry h.part line).clearHome h.part line .plain := by
    rcases hst with hst | hst <;> simp only [State.noticeAt, hst, hkeeper, if_true]
  exact hclear.trans (State.clearHome_here hpod ..)

/-- The data of a die that is not the owner is dropped. -/
theorem wbdAt_other (hst : e.st ≠ .u) (hsrc : h.src ≠ 34) (hother : e.ov = false ∨ e.owner ≠ h.src) :
    s.wbdAt h line data e = s.emit (.wback (backTo h) line true) := by
  have hkeeper : e.keeper ≠ some h.src := by
    unfold DirEntry.keeper
    split
    · simp
    · split
      next hov => simpa using hother.resolve_left (by simp [hov])
      next => split <;> simp [hsrc.symm]
  have hnot : ¬(e.ov = true ∧ e.owner = h.src) := fun ⟨hov, howner⟩ =>
    hother.elim (fun h => by simp [h] at hov) fun h => h howner
  have hdrop : s.wbdAt h line data e = s.dropWbd h line := by
    cases hcase : e.st with
    | u => exact absurd hcase hst
    | e => simp only [State.wbdAt, hcase, if_neg hkeeper]
    | m => simp only [State.wbdAt, hcase, if_neg hkeeper]
    | o => simp only [State.wbdAt, hcase, if_neg (not_or.mpr ⟨hnot, hkeeper⟩)]
    | s => simp only [State.wbdAt, hcase, if_neg (not_or.mpr ⟨hnot, hkeeper⟩)]
  exact hdrop

/-- The owner of a line that others share leaves it to them, its data at home. -/
theorem wbdAt_shared (hpod : isPodLine line = false) (hst : e.st = .o) (hov : e.ov = true) (howner : e.owner = h.src)
    (hsrc : h.src ≠ 34) (hcoarse : e.coarse = false) : s.wbdAt h line data e =
      (s.emit (.hwb (s.hubHdr h.part line h.key (homeDie line)) ⟨line, .wbd h.src⟩ data false)).afterLeaving line
        { e with st := .s, ov := false, ptrs := e.ptrs.filter (· ≠ h.src) } := by
  have hdrop : (({ e with st := .s, ov := false } : DirEntry).drop h.src) =
      { e with st := .s, ov := false, ptrs := e.ptrs.filter (· ≠ h.src) } := by
    simp [DirEntry.drop, hsrc, hcoarse]
  simp only [State.wbdAt, hst, if_pos (Or.inl (And.intro hov howner)), State.sendHome_here hpod, hdrop]

/-- The last sharer leaves a line without an owner free. -/
theorem noticeAt_last (hpod : isPodLine line = false) (hpart : e.part = h.part) (hst : e.st = .s) (hov : e.ov = false)
    (hcoarse : e.coarse = false) (hptrs : e.ptrs = [h.src]) (habroad : e.pod = false) (hsrc : h.src ≠ 34) :
    s.noticeAt h line e =
      (s.freeEntry h.part line).emit (.hclr (s.hubHdr h.part line 0 (homeDie line)) ⟨line, .plain⟩) := by
  have hempty : (e.drop h.src).empty = true := by
    simp [DirEntry.drop, DirEntry.empty, hsrc, hcoarse, hptrs, habroad]
  have hkept : (e.drop h.src).part = h.part := by
    simp [DirEntry.drop, hsrc, hcoarse, hpart]
  have hclear : s.noticeAt h line e = (s.freeEntry h.part line).clearHome h.part line .plain := by
    simp [State.noticeAt, hst, hov, State.afterLeaving, hempty, hkept]
  exact hclear.trans (State.clearHome_here hpod ..)

end
end
end Sys2Proof.Machine
end

section
/-! SUPPORT. Data, acknowledgements and answers to probes at a hub (R158, R171, R174, R175, R178). -/

namespace Sys2Proof.Machine

section
variable {s : State} {h : Hdr} {line : Nat} {data : LineData} {dirty excl : Bool}

theorem isHub_of_lt {u : Nat} (h : u < 32) : isHub u = false := by
  simp [isHub]
  omega

theorem isHub_iff {u : Nat} : isHub u = true ↔ u = 32 ∨ u = 33 := by
  simp [isHub]

/-! ## Recalls (R171) -/

section
variable {p : Nat} {held : List Instr}

/-- A recall whose answers are all in writes its data home, or clears the mark there, and awaits the home. -/
theorem finishRecall_complete (hpod : isPodLine line = false) (t : State) (dirty : Option (LineData × Nat)) :
    (t.setBusy ⟨line, p, .recall [] false dirty, held⟩).finishRecall p line =
      match dirty with
      | some (d, key) => (t.setBusy ⟨line, p, .hack, held⟩).emit
          (.hwb (t.hubHdr p line key (homeDie line)) ⟨line, .recall⟩ d true)
      | none => (t.setBusy ⟨line, p, .hack, held⟩).emit
          (.hclr (t.hubHdr p line 0 (homeDie line)) ⟨line, .recall⟩) := by
  have hbusy := t.busyWith_setBusy ⟨line, p, .recall [] false dirty, held⟩
  have hset := t.setBusy_setBusy (b := ⟨line, p, .recall [] false dirty, held⟩) (b' := ⟨line, p, .hack, held⟩) rfl rfl
  rw [State.finishRecall, hbusy]
  simp only [hset]
  cases dirty with
  | none =>
    dsimp only
    rw [State.clearHome_here hpod, State.hubHdr_of_hubDown (State.hubDown_setBusy ..)]
  | some d =>
    dsimp only
    rw [State.sendHome_here hpod, State.hubHdr_of_hubDown (State.hubDown_setBusy ..)]

end

section
variable {held : List Instr} (hdst : ¬ h.dst < 32) (hpod : isPodLine line = false)
include hdst

theorem handle_data_hub {ack : Bool} :
    s.handle (h.data line data dirty ack excl) = s.dataAtHub h line data dirty ack excl :=
  if_neg hdst

section
variable (hreq : isHub h.req = true)
include hpod hreq

/-- A keeper's answer to a recall ends it (R171). -/
theorem handle_data_recalled (hsrc : h.src < 32)
    (hbusy : s.busyWith h.part line = some ⟨line, h.part, .recall [] true none, held⟩) :
    let t := if dirty then s.emit (.rel (backTo h) line) else s
    let u := t.setBusy ⟨line, h.part, .hack, held⟩
    s.handle (h.data line data dirty false true) =
      if dirty then u.emit (.hwb (s.hubHdr h.part line h.key (homeDie line)) ⟨line, .recall⟩ data true)
      else u.emit (.hclr (s.hubHdr h.part line 0 (homeDie line)) ⟨line, .recall⟩) := by
  rw [handle_data_hub hdst]
  cases dirty with
  | false => simp [State.dataAtHub, hreq, State.recalled, hbusy, finishRecall_complete hpod]
  | true =>
    simp [State.dataAtHub, hreq, hsrc, State.recalled, State.busyWith_emit, hbusy, finishRecall_complete hpod,
      State.hubHdr_of_hubDown (State.hubDown_emit s (.rel (backTo h) line))]

/-- The last acknowledgement of a recall without a keeper ends it. -/
theorem handle_invack_recalled
    (hbusy : s.busyWith h.part line = some ⟨line, h.part, .recall [h.src] false none, held⟩) :
    s.handle (h.invack line) = (s.setBusy ⟨line, h.part, .hack, held⟩).emit
      (.hclr (s.hubHdr h.part line 0 (homeDie line)) ⟨line, .recall⟩) := by
  simp [State.handle, State.invackAt, if_neg hdst, hreq, State.ackAtHub, hbusy, finishRecall_complete hpod]

end

section
variable (hreq : h.req < 32) (hsrc : h.src ≠ 34)
include hreq hsrc

theorem handle_invack_passed : s.handle (h.invack line) = s.emit ((onward h h.req).invack line) := by
  simp [State.handle, State.invackAt, if_neg hdst, isHub_of_lt hreq, hsrc]

/-- Dirty data of the supplier of a shared line makes it an owned one before it goes on (R174). -/
theorem handle_data_noted {e : DirEntry} (hbusy : s.busyWith h.part line = none)
    (hentry : s.entryAt h.part line = some e) (hst : e.st = .s) (hov : e.ov = true) (howner : e.owner = h.src) :
    s.handle (h.data line data true false excl) =
      (s.setEntry line { e with st := if State.unreadable e then .u else .o }).emit
        ((onward h h.req).data line data true false excl) := by
  rw [handle_data_hub hdst]
  have hnote : s.noteDirty h line true false =
      s.setEntry line { e with st := if State.unreadable e then .u else .o } := by
    cases hread : State.unreadable e <;> simp [State.noteDirty, hentry, hread, hst, hov, howner]
  simp [State.dataAtHub, isHub_of_lt hreq, hsrc, hbusy, hnote]

/-- The home's data installs the entry before it goes on to the requester (R158). -/
theorem handle_data_installed (hpod : isPodLine line = false) (herr : h.err = false)
    (hbusy : s.busyWith h.part line = some ⟨line, h.part, .install h.req, held⟩)
    (hentry : s.entryAt h.part line = none) :
    let want := ((s.openReq h.req h.part line).map (·.excl)).getD excl
    let t := s.setEntry line (entryOf (if want then .m else .e) h.req h.part true [])
    let u := t.emit ((onward h h.req).data line data false false true)
    s.handle (h.data line data false false excl) =
      (if want then u.emit (.grant (onward h h.req) line 0) else u).releaseLine h.part line true := by
  have hdie : h.req ≠ 34 := by omega
  have hinstalls : s.dataAtHub h line data false false excl = s.installed h line data excl := by
    simp [State.dataAtHub, isHub_of_lt hreq, hsrc, hbusy, herr]
  rw [handle_data_hub hdst, hinstalls]
  simp [State.installed, hentry, hdie, hpod]

end
end
/-! ## A die without the data (R175, R188) -/

section
variable {n : Nat} {f : FwdKind} {hs : HState}

/-- A die whose own access comes first is asked again. -/
theorem handle_nodata_awaits (hdie : h.src < 32) (hawaits : s.awaits h.src h.part line n = true) :
    s.handle (h.nodata line f hs n) = s.emit (forward (backTo h) line hs n f) := by
  simp [State.handle, State.nodataAt, hdie, hawaits]

section
variable (hawaits : s.awaits h.src h.part line n = false)
include hawaits

theorem handle_nodata_fwdS (hpod : isPodLine line = false) : s.handle (h.nodata line .fwdS .e n) =
    s.emit (.hrd (onward h (homeDie line)) line false false) := by
  simp [State.handle, State.nodataAt, hawaits, hpod, State.readHome_here hpod]

theorem handle_nodata_fwdX (hpod : isPodLine line = false) : s.handle (h.nodata line .fwdX .s n) =
    s.emit (.hrd (onward h (homeDie line)) line true true) := by
  simp [State.handle, State.nodataAt, hawaits, State.readHome_here hpod]

variable (hst : hs = .m ∨ hs = .o)
include hst

/-- Who had the line modified is asked again, as its data must come from there. -/
theorem handle_nodata_again (hclean : tagOf line h.part ∉ s.poisoned) :
    s.handle (h.nodata line f hs n) = s.emit (forward (backTo h) line hs n f) := by
  rcases hst with rfl | rfl <;> simp [State.handle, State.nodataAt, hawaits, hclean]

/-- Of a poisoned line no data comes, and its request fails. -/
theorem handle_nodata_poisoned (hpoisoned : tagOf line h.part ∈ s.poisoned) (hreq : h.req < 32) :
    s.handle (h.nodata line f hs n) =
      s.emit (({ onward h h.req with err := true } : Hdr).data line 0 false false false) := by
  rcases hst with rfl | rfl <;> simp [State.handle, State.nodataAt, hawaits, hpoisoned, isHub_of_lt hreq]

end
end

/-! ## A probe of one die (R178) -/

section
variable {held : List Instr} {st : PState} (hreq : h.req ≠ 34)
  (hbusy : s.busyWith h.part line = some ⟨line, h.part, .probe [h.src] [] none, held⟩)

/-- The one answer to a probe that asked one die. -/
def soleAnswer (h : Hdr) (st : PState) (data : LineData) : ProbeAns :=
  ⟨h.src, st, data, h.key, if st == .buffered then 1 else 0⟩

include hreq hbusy in
theorem handle_probeack_sole : s.handle (.probeack h line st data false) =
    s.tryRebuild ⟨line, h.part, .probe [h.src] [] none, held⟩ [soleAnswer h st data] none := by
  simp [State.handle, State.probeackAt, hreq, hbusy, withAnswer, soleAnswer]

/-- A die that holds a line alone gives the entry back. -/
theorem rebuilt_owner (hst : st = .m ∨ st = .e) : rebuilt h.part [soleAnswer h st data] =
    some (entryOf (if st = .m then .m else .e) h.src h.part true []) := by
  rcases hst with rfl | rfl <;> simp [rebuilt, soleAnswer, DirEntry.addAll]

theorem rebuilt_free (hst : st = .none ∨ st = .buffered) : rebuilt h.part [soleAnswer h st data] = none := by
  rcases hst with rfl | rfl <;> simp [rebuilt, soleAnswer, beq_eq_decide]

include hreq hbusy

theorem handle_probeack_owner (hst : st = .m ∨ st = .e)
    (hway : (s.entryAt h.part line).isSome = true ∨ s.roomFor line = true) :
    s.handle (.probeack h line st data false) =
      (s.setEntry line (entryOf (if st = .m then .m else .e) h.src h.part true [])).releaseLine h.part line true := by
  have hentry := rebuilt_owner (h := h) (data := data) hst
  have htry : s.tryRebuild ⟨line, h.part, .probe [h.src] [] none, held⟩ [soleAnswer h st data] none =
      s.rebuild h.part line [soleAnswer h st data] none := by
    rcases hway with hway | hway <;> simp [State.tryRebuild, hway]
  have hrel : s.relAll h.part line [soleAnswer h st data] = s := by
    rcases hst with rfl | rfl <;> simp [State.relAll, soleAnswer]
  rw [handle_probeack_sole hreq hbusy, htry, State.rebuild, hentry, hrel]
  rcases hst with rfl | rfl <;> simp [soleAnswer, State.resume]

section
variable (hpod : isPodLine line = false)
include hpod

theorem handle_probeack_none : s.handle (.probeack h line .none data false) =
    ((s.emit (.hclr (s.hubHdr h.part line 0 (homeDie line)) ⟨line, .plain⟩)).freeEntry h.part line).releaseLine
      h.part line true := by
  have hentry := rebuilt_free (h := h) (data := data) (st := .none) (.inl rfl)
  rw [handle_probeack_sole hreq hbusy, State.tryRebuild, hentry, State.rebuild, hentry]
  simp [soleAnswer, State.relAll, State.resume, State.clearHome_here hpod]

theorem handle_probeack_buffered : s.handle (.probeack h line .buffered data false) =
    (((s.emit (.rel (s.hubHdr h.part line 0 h.src) line)).emit
      (.hwb (s.hubHdr h.part line h.key (homeDie line)) ⟨line, .plain⟩ data true)).freeEntry h.part line).releaseLine
        h.part line true := by
  have hentry := rebuilt_free (h := h) (data := data) (st := .buffered) (.inr rfl)
  rw [handle_probeack_sole hreq hbusy, State.tryRebuild, hentry, State.rebuild, hentry]
  simp [soleAnswer, beq_eq_decide, State.relAll, State.resume, State.sendHome_here hpod,
    State.hubHdr_of_hubDown (State.hubDown_emit s _)]

end
end

/-! ## The home's acknowledgement (R171, R174) -/

section
variable {s : State} {h : Hdr} {line : Nat}

theorem moving_freeEntry (p q l : Nat) : (s.freeEntry p line).moving q l = s.moving q l := rfl

theorem claimed_freeEntry (p q l : Nat) : (s.freeEntry p line).claimed q l = s.claimed q l := rfl

theorem handle_hack_recall_free (hmoving : s.moving h.part line = false) (hclaimed : s.claimed h.part line = false) :
    s.handle (.hack h ⟨line, .recall⟩) = (s.freeEntry h.part line).releaseLine h.part line true :=
  if_neg (by simp [moving_freeEntry, claimed_freeEntry, hmoving, hclaimed])

theorem handle_hack_recall_held (hheld : s.moving h.part line = true ∨ s.claimed h.part line = true) :
    s.handle (.hack h ⟨line, .recall⟩) = (s.freeEntry h.part line).unpark :=
  if_pos (by simpa [moving_freeEntry, claimed_freeEntry] using hheld)

end
end
end Sys2Proof.Machine
end

section
/-! SUPPORT. The messages of a die to a hub (R172), and what the hub makes of a request for a line without an entry. -/

namespace Sys2Proof.Machine
variable {s : State} {h : Hdr} {line : Nat}

/-- A request and a notice of a die are packets about their line that are received as such. -/
theorem fromDie {data : LineData} : ∀ i ∈ [Instr.rds h line, .rdx h line, .wbd h line data, .notice h line],
    message i = some (h, line) ∧ exec i s = .next (s.receive i) := by
  simp only [List.forall_mem_cons, List.not_mem_nil, false_implies, implies_true, and_true]
  exact ⟨⟨rfl, rfl⟩, ⟨rfl, rfl⟩, ⟨rfl, rfl⟩, rfl, rfl⟩

theorem request_fromDie (i : Instr) (hi : i ∈ [Instr.rds h line, .rdx h line]) :
    message i = some (h, line) ∧ exec i s = .next (s.receive i) :=
  fromDie (data := 0) i (List.mem_append_left [Instr.wbd h line 0, .notice h line] hi)

theorem misplaced_iff_here (hpod : isPodLine line = false) (hreq : h.req < 32) :
    s.misplaced h line = true ↔ s.isSync h.part line = true ∨ s.steer h.part (lineLoc line) ≠ line := by
  simp [State.misplaced, hpod, hreq, or_comm]

section
variable (hpod : isPodLine line = false) (excl : Bool) (i : Instr)
include hpod

/-- With a way free the home is read for the requester (R158). -/
theorem install_here (hroom : s.roomFor line = true) : s.install h line excl i =
    ((if excl then s.handled h line else s).setBusy ⟨line, h.part, .install h.req, []⟩).emit
      (.hrd (onward h (homeDie line)) line excl false) :=
  (if_pos hroom).trans (State.readHome_here hpod ..)

omit hpod in
/-- Without one a way is recalled, for which the request waits (R171). -/
theorem install_waits (hroom : s.roomFor line = false) :
    s.install h line excl i = (s.setBusy ⟨line, h.part, .alloc, [i]⟩).makeRoom line :=
  if_neg (by simp [hroom])

end
end Sys2Proof.Machine
end

section
open Sys2Proof Sys2Proof.Machine

/-- Settles O54: what a hub does with each message is a function of its line's entry and of its work on the line, and
`serve` follows it. -/
theorem hubMessages : Obligations.HubMessages := by
  unfold Obligations.HubMessages
  intro s h line a b n data dirty excl st e hb held f hs p r d home goes
  refine ⟨fun i g l hm => ⟨State.emit_here hm, fun hdst hpod => ?emits⟩, serve_idle, serve_alloc,
    fun i hm hsrc htag => takes_untagged hm hsrc htag, takes_rds_refused, ?pod,
    fun hsrc htag hpod => ?here⟩
  case emits =>
    obtain ⟨hemit, hmessage⟩ := State.emit_switch (s := s) hm hdst hpod
    exact ⟨_, hemit, hmessage, State.podPort_mem⟩
  case pod =>
    intro hsrc htag hpod hbusy hentry hknown hroom hreq hsteer
    have hmis : s.misplaced h line = false := by
      have hsteer : s.steer h.part (lineLoc line) = line := hsteer
      simp [State.misplaced, hsteer, hpod]
    refine takes_handled (h := h) rfl hsrc htag rfl ((handle_rds_install hbusy hentry hknown hmis hreq).trans ?_)
    simp [State.install, hroom, State.readHome, hpod]
    rfl
  case here =>
    have handled : ∀ {i : Instr} {t : State}, message i = some (h, line) → exec i s = .next (s.receive i) →
        s.handle i = t → goes i t := fun hm hexec hhandle => takes_handled hm hsrc htag hexec hhandle
    refine ⟨fun hbusy hentry hread hpart howner => ⟨fun hreq => ⟨fun hst hov => ?shared, fun hst => ?exclusive,
      fun hst hov => ?modified, ?owns⟩, fun hst hov hkeeper => ⟨?wbdOwner, ?noticeOwner⟩, fun hother => ?wbdOther,
      fun hst hov hkeeper hcoarse => ?wbdShared, fun hst hov hcoarse hptrs habroad => ?noticeLast⟩,
      fun hbusy hentry hread => ?unreadable, fun hbusy hentry hknown => ⟨?misplaced, ?installs, ?noticeFree, ?wbdFree⟩,
      fun hbusy => ?busy, fun hdst herr => ⟨?installed, ?recalled, ?recallAcked, ?acked, ?noted⟩,
      fun hdie hawaits => ⟨?fwdS, ?fwdX, fun hst => ⟨?asksAgain, ?poisoned⟩⟩, fun hdie hawaits => ?awaits,
      fun hbusy hreq hdie => ⟨?probedOwner, ?probedNone, ?probedBuffered⟩, ?plain, ?recallFree, ?recallHeld,
      fun die => ?written⟩
    case shared =>
      exact handled rfl rfl ((handle_rds_entry hbusy hentry hread).trans (resolveRds_shared hreq hpod hst hov))
    case exclusive =>
      exact handled rfl rfl ((handle_rds_entry hbusy hentry hread).trans (resolveRds_exclusive hreq howner hst))
    case modified =>
      exact handled rfl rfl ((handle_rds_entry hbusy hentry hread).trans (resolveRds_modified hreq howner hst hov))
    case owns =>
      have resolved : ∀ {t : State}, s.resolveRdx h line e (s.hasData h line) = t → goes (.rdx h line) t := fun ht =>
        handled rfl rfl ((handle_rdx_entry hbusy hentry hread).trans ((resolveOwn_here hpod).trans ht))
      refine ⟨fun hst hov hother habroad => resolved (resolveRdx_modified hreq habroad hst hov hother),
        fun hst hcoarse habroad hptrs hlt hb hreqa hreqb => ⟨fun hsupplies => ?_, fun hov hsupplier => ?_⟩⟩
      · exact resolved (resolveRdx_first hptrs hlt hb hcoarse hst hreqa hreqb hreq habroad hsupplies)
      · exact resolved (resolveRdx_second hptrs hlt hb hcoarse hst hreqa hreqb hreq habroad hov hsupplier)
    case wbdOwner =>
      exact handled rfl rfl ((handle_wbd_entry hbusy hentry hread).trans (wbdAt_owner hpod hst hov hkeeper))
    case noticeOwner =>
      exact handled rfl rfl ((handle_notice_entry hbusy hentry hread).trans (noticeAt_owner hpod hst hov hkeeper))
    case wbdOther =>
      have hst : e.st ≠ .u := fun hu => by simp [State.unreadable, hu] at hread
      exact handled rfl rfl ((handle_wbd_entry hbusy hentry hread).trans (wbdAt_other hst hsrc hother))
    case wbdShared =>
      exact handled rfl rfl
        ((handle_wbd_entry hbusy hentry hread).trans (wbdAt_shared hpod hst hov hkeeper hsrc hcoarse))
    case noticeLast =>
      exact handled rfl rfl
        ((handle_notice_entry hbusy hentry hread).trans (noticeAt_last hpod hpart hst hov hcoarse hptrs habroad hsrc))
    case unreadable =>
      intro i hi
      obtain ⟨hm, hexec⟩ := fromDie i hi
      exact handled hm hexec (handle_unreadable hbusy hentry hread i hi)
    case misplaced =>
      intro hreq hwhere i hi
      obtain ⟨hm, hexec⟩ := request_fromDie i hi
      exact handled hm hexec (handle_misplaced hbusy hentry hknown ((misplaced_iff_here hpod hreq).mpr hwhere) i hi)
    case installs =>
      intro hreq hsteer hsync
      have hmis : s.misplaced h line = false := Bool.eq_false_iff.mpr fun hmis =>
        ((misplaced_iff_here hpod hreq).mp hmis).elim (fun h => absurd h (Bool.eq_false_iff.mp hsync)) (absurd hsteer)
      have hrds := handle_rds_install hbusy hentry hknown hmis hreq
      have hrdx := handle_rdx_install hbusy hentry hknown hmis hreq
      refine ⟨fun hroom => ⟨?_, ?_⟩, fun hroom => ?_⟩
      · exact handled rfl rfl (hrds.trans (install_here hpod _ _ hroom))
      · exact handled rfl rfl (hrdx.trans (install_here hpod _ _ hroom))
      · simp only [List.forall_mem_cons, List.not_mem_nil, false_implies, implies_true, and_true]
        exact ⟨handled rfl rfl (hrds.trans (install_waits _ _ hroom)),
          handled rfl rfl (hrdx.trans (install_waits _ _ hroom))⟩
    case noticeFree => exact handled rfl rfl (handle_notice_free hbusy hentry hknown)
    case wbdFree => exact handled rfl rfl (handle_wbd_free hbusy hentry hknown)
    case busy =>
      intro i hi
      obtain ⟨hm, hexec⟩ := request_fromDie i hi
      exact handled hm hexec (handle_busy hbusy i hi)
    case installed =>
      intro hbusy hentry hreq
      exact handled rfl rfl (handle_data_installed (by omega) hreq hsrc hpod herr hbusy hentry)
    case recalled =>
      intro hbusy hreq hdie
      exact handled rfl rfl (handle_data_recalled (by omega) hpod (isHub_iff.mpr hreq) hdie hbusy)
    case recallAcked =>
      intro hbusy hreq
      exact handled rfl rfl (handle_invack_recalled (by omega) hpod (isHub_iff.mpr hreq) hbusy)
    case acked =>
      exact fun hreq => handled rfl rfl (handle_invack_passed (by omega) hreq hsrc)
    case noted =>
      intro hbusy hentry hst hov howner hreq _
      exact handled rfl rfl (handle_data_noted (by omega) hreq hsrc hbusy hentry hst hov howner)
    case fwdS => exact handled rfl rfl (handle_nodata_fwdS hawaits hpod)
    case fwdX => exact handled rfl rfl (handle_nodata_fwdX hawaits hpod)
    case asksAgain => exact fun hclean => handled rfl rfl (handle_nodata_again hawaits hst hclean)
    case poisoned => exact fun hpoisoned hreq => handled rfl rfl (handle_nodata_poisoned hawaits hst hpoisoned hreq)
    case awaits => exact handled rfl rfl (handle_nodata_awaits hdie hawaits)
    case probedOwner => exact fun hst hway => handled rfl rfl (handle_probeack_owner hreq hbusy hst hway)
    case probedNone =>
      rintro rfl
      exact handled rfl rfl (handle_probeack_none hreq hbusy hpod)
    case probedBuffered =>
      rintro rfl
      exact handled rfl rfl (handle_probeack_buffered hreq hbusy hpod)
    case plain => exact handled rfl rfl rfl
    case recallFree => exact fun hmoving hclaimed => handled rfl rfl (handle_hack_recall_free hmoving hclaimed)
    case recallHeld => exact fun hheld => handled rfl rfl (handle_hack_recall_held hheld)
    case written => exact handled rfl rfl rfl

end
